-- ==== Sys2Proof/Word.lean ====
section
/-! DEFINITION. The word types of the machine (R5, R36 to R38) and the type of its sparse tables. -/

namespace Sys2Proof

abbrev Byte := BitVec 8
abbrev W32 := BitVec 32
abbrev W64 := BitVec 64
abbrev W128 := BitVec 128

/-- A sparse table: pairs of a key and a value, keys strictly rising. A key that is not listed has
the table's default value, which its reader names. -/
abbrev Tab (α : Type) := List (Nat × α)

end Sys2Proof
end

