-- ==== Sys2Proof/Config.lean ====
section
/-! DEFINITION. What the spec leaves open as values: constants with no body, so that nothing can be proved of them.
Each is applied to the counter `fresh` of the state, or to what it depends on (assumptions 2 and 3). -/

namespace Sys2Proof

/-- A value the spec leaves unspecified: the n-th one drawn. -/
opaque Config.freeWord : Nat → W64

/-- A byte the spec leaves unspecified: the n-th one drawn. -/
opaque Config.freeByte : Nat → Byte

/-- SR.CYC of a core minus the model's clk: the counts of different cores are not aligned (R205). -/
opaque Config.cycSkew : Nat → W64

/-- The grade of the module, and the cores that the fuses of an ENR-7384 leave disabled (R1). -/
opaque Config.grade7384 : Bool
opaque Config.fuses : List Nat

/-- The words of the module's identity and of the firmware's digest (R426): the n-th word. -/
opaque Config.attestWord : Nat → W64

/-- The words of the digest of a configuration (R426), of the cores, slices and links out of service: the n-th word. -/
opaque Config.configWord : List Nat → List Nat → List Nat → Nat → W64

/-- R261 completes a phase whose EXPECT is 0 again and again without an end: the GEN it leaves, of the GEN and the
CARRY it began from. -/
opaque Config.barGen : Nat → Nat → Nat

/-- R263 divides by EXPECT: the generation a BARV returns where EXPECT and PENDING are 0, of GEN and CARRY. -/
opaque Config.barvGen : Nat → Nat → Nat

end Sys2Proof
end

