-- ==== Sys2Proof/Syntax.lean ====
section
/-! DEFINITION. The operations of the machine: one constructor of `Instr` for each row of the opcode table.
The first part are the encoded instructions (R83 to R91); the second part are the events, the steps that
have no encoding (95_what_each_step_holds). -/

namespace Sys2Proof

/-! ### Operand kinds -/

/-- A control scope that owns a sequencer (R3): group, team, grid. Lane scope owns none. -/
inductive Lvl where
  | g | t | d
  deriving DecidableEq, Repr

/-- Memory scopes, widest last (R4). -/
inductive MScope where
  | grp | team | clu | dev | sys
  deriving DecidableEq, Repr

/-- The S operand space (R76): the group's s, the team's k, the grid's g. -/
inductive SReg where
  | s (n : BitVec 6) | k (n : BitVec 5) | g (n : BitVec 5)
  deriving DecidableEq, Repr

abbrev VReg := BitVec 7
abbrev MReg := BitVec 4
abbrev HReg := BitVec 3
abbrev FReg := BitVec 3
/-- A destination that must be one of s0 to s63. -/
abbrev SIdx := BitVec 6

/-- The second source of a class 1 instruction: a scalar, or a lane source of 32 or 64 bits (R139). -/
inductive SSrc where
  | s (r : SReg) | v (n : VReg) | vp (n : VReg)
  deriving DecidableEq, Repr

/-- The C operand of a vector instruction: a lane register, or with `.VS` a scalar (R133). -/
inductive VSrc where
  | v (n : VReg) | s (r : SReg)
  deriving DecidableEq, Repr

/-- The element width (R86). -/
inductive Width where
  | w32 | w16 | w8 | w64
  deriving DecidableEq, Repr

inductive Cmp where
  | eq | ne | lt | le | gt | ge
  deriving DecidableEq, Repr

inductive FCond where
  | eq | ne | lt | le | gt | ge | un
  deriving DecidableEq, Repr

/-- A packed floating format (R88). -/
inductive PFmt where
  | fp16 | bf16
  deriving DecidableEq, Repr

/-- The types that CVT converts between (R163). -/
inductive CvtTy where
  | fp32 | fp16 | bf16 | e4m3 | e5m2 | i32 | n32 | i64 | n64
  deriving DecidableEq, Repr

/-- The formats of PACK and UNPK (R166). -/
inductive PackFmt where
  | fp16 | bf16 | e4m3 | e5m2 | i16 | n16 | i8 | n8
  deriving DecidableEq, Repr

inductive ShflMode where
  | idx | up | down | xor
  deriving DecidableEq, Repr

/-- The operation of RED and SCAN (R89). -/
inductive Rop where
  | addI32 | minI32 | maxI32 | minN32 | maxN32 | and | or | xor | fadd | fmin | fmax
  deriving DecidableEq, Repr

/-- The access type of a lane access (R90). -/
inductive MType where
  | n8 | i8 | n16 | i16 | b32 | b64 | b128
  deriving DecidableEq, Repr

/-- The access type of a scalar access (R90). -/
inductive SType where
  | n8 | i8 | n16 | i16 | n32 | i32 | b64
  deriving DecidableEq, Repr

inductive AOp where
  | add | min | max | and | or | xor | exch
  deriving DecidableEq, Repr

inductive AType where
  | i32 | n32 | i64 | n64
  deriving DecidableEq, Repr

inductive Ord where
  | plain | acq | rel | acqrel
  deriving DecidableEq, Repr

/-- The offset of a plain LD or ST (R179): an immediate in units of the size, or a scalar. -/
inductive LdOff where
  | imm (n : BitVec 6) | reg (n : BitVec 6)
  deriving DecidableEq, Repr

/-! ### Operands of events -/

/-- A unit that can take a step of its own. A group is named core × 64 + sequencer, a team core × 16 + slot,
a grid by the model's grid key, a copy queue core × 16 + queue, a user queue by the model's key. -/
inductive UnitId where
  | group (k : Nat) | team (k : Nat) | grid (k : Nat) | engine (core : Nat) | copyq (k : Nat) | queue (k : Nat)
  deriving DecidableEq, Repr

/-- Why a slot is no instruction (R92). -/
inductive IllegalWhy where
  | zeroWord | opReserved | unassigned
  /-- A nonzero reserved field, a field outside its space, an odd pair register, a forbidden k or g write. -/
  | fields (word : W32)
  /-- A prefix in slot 3, before a prefix, or at which the run ends (R79). -/
  | prefixPlace
  deriving DecidableEq, Repr

/-- One lane's part of an operation executed at a home: `x` the operand, `cmp` the compare value of CAS. -/
structure LaneOp where
  lane : Nat
  /-- The virtual address, for a retry (R350, R404). -/
  va : Nat
  pa : Nat
  size : Nat
  x : W128
  cmp : W128
  deriving DecidableEq, Repr

/-- What an operation executed at a home does there (R328). -/
inductive HomeAct where
  | atom (o : AOp) (t : AType) | cas | store | load (t : MType)
  /-- A store of STS (R185). -/
  | storeS
  /-- LDS of a group into s`n` (R185). -/
  | loadS (t : SType) (n : Nat)
  /-- A delivery to the cores of the hamlet, with the deliverer's round (R299). -/
  | dlv (cores : List Nat) (round : W32)
  /-- RING at the bell counter's home (R335). -/
  | ring (asid bell : Nat) (d : W32)
  deriving DecidableEq, Repr

/-- What a page entry says of a grain (R320, R393): D protocol, whether an L1 may hold it by delivery, bell, HS, and
whose page it is. -/
structure PageAttr where
  dpage : Bool
  cached : Bool
  bell : Nat
  hs : Bool
  asid : Nat
  vf : Nat
  deriving DecidableEq, Repr

/-- An operation that travels to the home of its grain. -/
structure HomeOp where
  core : Nat
  grp : Nat
  flight : Nat
  grain : Nat
  gsize : Nat
  act : HomeAct
  acq : Option MScope
  lanes : List LaneOp
  attr : PageAttr
  /-- A release at .SYS: the L3 holds its bytes when it is performed (R191, R368). -/
  sys : Bool
  /-- A release at .GRP or .TEAM, which an acquire of another core may promote (R343). -/
  rel : Option MScope
  deriving DecidableEq, Repr

/-- Why a grain comes back to its home (R319, R321). -/
inductive WbWhy where
  | evict | recallShared | recallAll | invalidated
  /-- A window grain: the home merges it without its directory (R327). -/
  | window
  deriving DecidableEq, Repr

/-- The host-visible registers that a plain register write reaches (R427, R453, R449). -/
inductive HostReg where
  | adminQcb (vf : Nat) | ingest (i : Nat) | route (dest cls link alt : Nat)
  /-- The frame of the time page (R454). -/
  | timePage
  /-- This device's member of a collective group: its function, rank, submit page and the members' devices (R455). -/
  | coll (grp vf rank submit : Nat) (members : List Nat)
  deriving DecidableEq, Repr

/-- The location of an error event (R407). -/
inductive ErrUnit where
  | line (pa : Nat) | core (c : Nat) | slice (die s : Nat) | link (l : Nat) | mesh (die cluster : Nat) | die (d : Nat)
  deriving DecidableEq, Repr

/-- How a stage of bring-up ends (R427): with the units that failed its self-test, or with the stage's stop value. -/
inductive StageResult where
  | ok (failed : List ErrUnit) | fail
  deriving DecidableEq, Repr

/-- The way of a multicast packet through the routers of a cluster (R290): at its first router, along the row, or along a
column. -/
inductive MDir where
  | source | east | west | north | south
  deriving DecidableEq, Repr

/-- Where a multicast packet goes from a router: its direction, and the cores that it is for. -/
structure Leg where
  dir : MDir
  dests : List Nat
  deriving DecidableEq, Repr

/-- A submitted descriptor: its context and address, and the grid that submitted it (R455). -/
structure Submission where
  asid : Nat
  desc : Nat
  grid : Nat
  deriving DecidableEq, Repr

/-- A sample of module power in W and of a die's temperature in °C (R391). -/
structure Sample where
  watts : Nat
  celsius : Nat
  deriving DecidableEq, Repr

/-- Key of a multicast line request (R306): record address, coordinates, hamlet, line. -/
structure MergeKey where
  recAddr : Nat
  coords : List W32
  ham : W128
  /-- The grain's address, and its size (R314). -/
  line : Nat
  gsz : Nat
  deriving DecidableEq, Repr

/-- What a multicast packet carries (R290): a grain for the copies that its key names, or the delivery of a grain (R299). -/
inductive PacketFor where
  | copy (key : MergeKey)
  | dlv (grain gsize : Nat) (attr : PageAttr) (round : W32) (grp flight : Nat)
  deriving DecidableEq, Repr

/-- What an access from another device, or from the host, asks of a home. -/
inductive ExtAccess where
  | read (size : Nat) | write (bytes : List Byte) | atom (o : AOp) (t : AType) (x : W64) | cas (size : Nat) (cmp new : W64)
  /-- The other device writes its own memory. -/
  | own (bytes : List Byte)
  /-- The other device's member of a collective group submits: its source vector and what members must agree on; nothing to
  agree on where its function has been reset (R425, R457). -/
  | contrib (grp : Nat) (bytes shape : List Byte)
  deriving DecidableEq, Repr

inductive Instr where
  -- Control (R84)
  | nop (sc : Lvl)
  | brZ (sc : Lvl) (a : SReg) (d : BitVec 14)
  | brNz (sc : Lvl) (a : SReg) (d : BitVec 14)
  | brm (sc : Lvl) (all not : Bool) (m : MReg) (d : BitVec 14)
  | jmp (sc : Lvl) (d : BitVec 14)
  | jmpr (sc : Lvl) (b : SReg)
  | call (sc : Lvl) (d : BitVec 14)
  | callr (sc : Lvl) (b : SReg)
  | ret (sc : Lvl)
  | loop (sc : Lvl) (a : SReg) (d : BitVec 14)
  | next (sc : Lvl)
  | brk (sc : Lvl) (d : BitVec 14)
  | skip (m : MReg) (d : BitVec 14)
  | exit
  | end_ (sc : Lvl)
  | revote (sc : Lvl)
  | fret (sc : Lvl)
  | win (i : BitVec 3)
  | yield (sc : Lvl)
  | trap (sc : Lvl) (c : BitVec 14)
  -- Scalar integer (R85, R137, R139)
  | sadd (a b : SReg) (c : SSrc)
  | ssub (a b : SReg) (c : SSrc)
  | smul (a b : SReg) (c : SSrc)
  | smulhI64 (a b : SReg) (c : SSrc)
  | smulhN64 (a b : SReg) (c : SSrc)
  | sand (a b : SReg) (c : SSrc)
  | sor (a b : SReg) (c : SSrc)
  | sxor (a b : SReg) (c : SSrc)
  | sshl (a b : SReg) (c : SSrc)
  | sshr (a b : SReg) (c : SSrc)
  | ssar (a b : SReg) (c : SSrc)
  | sminI64 (a b : SReg) (c : SSrc)
  | sminN64 (a b : SReg) (c : SSrc)
  | smaxI64 (a b : SReg) (c : SSrc)
  | smaxN64 (a b : SReg) (c : SSrc)
  | scmpI64 (k : Cmp) (a b : SReg) (c : SSrc)
  | scmpN64 (k : Cmp) (a b : SReg) (c : SSrc)
  | ssel (a b c : SReg)
  | smov (a : SReg) (b : SSrc)
  | smovi (a : SReg) (i : BitVec 14)
  | slui (a : SReg) (i : BitVec 14)
  | saddi (a b : SReg) (i : BitVec 7)
  -- Vector integer (R86, R142)
  | iadd (w : Width) (a b : VReg) (c : VSrc)
  | isub (w : Width) (a b : VReg) (c : VSrc)
  | iaddsI (w : Width) (a b : VReg) (c : VSrc)
  | iaddsN (w : Width) (a b : VReg) (c : VSrc)
  | isubsI (w : Width) (a b : VReg) (c : VSrc)
  | isubsN (w : Width) (a b : VReg) (c : VSrc)
  | imul (w : Width) (a b : VReg) (c : VSrc)
  | imulhI (w : Width) (a b : VReg) (c : VSrc)
  | imulhN (w : Width) (a b : VReg) (c : VSrc)
  | imad (w : Width) (a b : VReg) (c : VSrc)
  | iminI (w : Width) (a b : VReg) (c : VSrc)
  | iminN (w : Width) (a b : VReg) (c : VSrc)
  | imaxI (w : Width) (a b : VReg) (c : VSrc)
  | imaxN (w : Width) (a b : VReg) (c : VSrc)
  | iabs (w : Width) (a b : VReg)
  | and (w : Width) (a b : VReg) (c : VSrc)
  | or (w : Width) (a b : VReg) (c : VSrc)
  | xor (w : Width) (a b : VReg) (c : VSrc)
  | shl (w : Width) (a b : VReg) (c : VSrc)
  | shr (w : Width) (a b : VReg) (c : VSrc)
  | sar (w : Width) (a b : VReg) (c : VSrc)
  | bfxI (w : Width) (a b c : VReg)
  | bfxN (w : Width) (a b c : VReg)
  | bfi (w : Width) (a b c : VReg)
  | popc (w : Width) (a b : VReg)
  | clz (w : Width) (a b : VReg)
  | sel (w : Width) (a b : VReg) (c : VSrc)
  | mov (w : Width) (a b : VReg)
  | movVs (w : Width) (a : VReg) (c : SReg)
  | movi (a : VReg) (i : BitVec 14)
  -- Mask and compare (R87)
  | icmp (k : Cmp) (n : Bool) (w : Width) (a : MReg) (b : VReg) (c : VSrc)
  | fcmp (k : FCond) (a : MReg) (b : VReg) (c : VSrc)
  | ftst (a : MReg) (b : VReg) (c : BitVec 7)
  | mand (a b c : MReg)
  | mor (a b c : MReg)
  | mxor (a b c : MReg)
  | mandn (a b c : MReg)
  | mnot (a b : MReg)
  | mmov (a b : MReg)
  | mset (a : MReg) (b : SReg)
  | mget (a : SIdx) (b : MReg)
  | mpop (a : SIdx) (b : MReg)
  | mfirst (a : SIdx) (b : MReg)
  -- Floating point (R88)
  | fadd (a b : VReg) (c : VSrc)
  | fsub (a b : VReg) (c : VSrc)
  | fmul (a b : VReg) (c : VSrc)
  | ffma (a b : VReg) (c : VSrc)
  | fmin (a b : VReg) (c : VSrc)
  | fmax (a b : VReg) (c : VSrc)
  | frnd (a b : VReg)
  | fclass (a b : VReg)
  | hadd2 (f : PFmt) (a b c : VReg)
  | hmul2 (f : PFmt) (a b c : VReg)
  | hfma2 (f : PFmt) (a b c : VReg)
  | hmax2 (f : PFmt) (a b c : VReg)
  -- Conversion, special functions, cross-lane (R89)
  | cvt (dst src : CvtTy) (a b : VReg)
  | pack (k : PackFmt) (a b : VReg)
  | unpk (k : PackFmt) (a b : VReg)
  | exp2 (a b : VReg)
  | log2 (a b : VReg)
  | rcp (a b : VReg)
  | rsq (a b : VReg)
  | sqrt (a b : VReg)
  | sint (a b : VReg)
  | cost (a b : VReg)
  | tanh (a b : VReg)
  | shfl (m : ShflMode) (a b : VReg) (c : VSrc)
  | bcast (a b : VReg) (l : BitVec 7)
  | red (r : Rop) (a b : VReg)
  | scan (r : Rop) (a b : VReg)
  | voteAny (a : SIdx) (b : VReg)
  | voteAll (a : SIdx) (b : VReg)
  | voteEq (a : SIdx) (b : VReg)
  | ballot (a : MReg) (b : VReg)
  | sample (a b : VReg) (c : SReg)
  -- Memory (R90)
  | ld (t : MType) (a b : VReg) (c : LdOff)
  | ldAcq (t : MType) (a b : VReg) (s : MScope)
  | st (t : MType) (a b : VReg) (c : LdOff)
  | stRel (t : MType) (a b : VReg) (s : MScope)
  | atom (o : AOp) (t : AType) (a b : VReg) (r : Ord) (s : MScope)
  | cas (r : Ord) (s : MScope) (a b c : VReg)
  | casW64 (r : Ord) (s : MScope) (a b c : VReg)
  | ldbR (t : MType) (a b : VReg) (n : BitVec 3)
  | ldbS (t : MType) (a b : VReg) (n : BitVec 3)
  | lds (t : SType) (a b : SReg) (c : BitVec 7)
  | sts (t : SType) (a b : SReg) (c : BitVec 7)
  | fence (r : Ord) (s : MScope)
  | pref (b : VReg) (l2 : Bool)
  | cinv (b : VReg) (s : MScope)
  | cflush (b : VReg) (s : MScope)
  | ldp (t : MType) (a b : VReg) (w : BitVec 3)
  | stp (t : MType) (a b : VReg) (w : BitVec 3)
  | atompI32 (o : AOp) (a b : VReg) (w : BitVec 3)
  | atompN32 (o : AOp) (a b : VReg) (w : BitVec 3)
  | ldpr (t : MType) (a b : VReg) (w : BitVec 3)
  | stpr (t : MType) (a b : VReg) (w : BitVec 3)
  -- Matrix, copies, barriers, feeds, delivery, bells, system (R91)
  | mmldb (a b : SReg) (m n : BitVec 3)
  | mmloop (a : VReg) (b : SReg) (m : BitVec 3)
  | mmzero (u n : BitVec 4)
  | amov (a b : VReg)
  | anrw (a b : VReg) (c : SReg)
  | qtile (a b : SReg) (m : BitVec 3)
  | rqt (a b : SReg) (row : Bool)
  | tcopy (a b : VReg)
  | tcopyMAll (a b : VReg) (h : HReg)
  | tcopyMJoin (a b : VReg) (h : HReg)
  | binit (b c : SReg)
  | barv (a : SIdx) (b : SReg) (n : BitVec 7)
  | bexp (b c : SReg)
  | bwait (b c : SReg)
  | btest (a : SIdx) (b c : SReg)
  | feedget (a : SIdx) (f : FReg)
  | feedput (f : FReg) (c : SReg)
  | feedpop (a : SIdx) (f : FReg)
  | feedrel (f : FReg) (c : SReg)
  | dlv (t : MType) (a b : VReg) (h : HReg)
  | hamset (a : HReg) (b c : SReg)
  | hamand (a b c : HReg)
  | ring (a : SIdx) (b : SReg) (n : BitVec 6)
  | bellr (a : SIdx) (n : BitVec 6)
  | bellw (b : SReg) (n : BitVec 6)
  | rdsrV (pair : Bool) (a : VReg) (s : BitVec 7)
  | rdsrS (a : SReg) (s : BitVec 7)
  | wrsrV (b : VReg) (s : BitVec 7)
  | wrsrS (b : SReg) (s : BitVec 7)
  | launchT (b : SReg)
  | launchD (b : SReg)
  | mapf (a : SIdx) (b : SReg)
  | tlbiPage (b : SReg)
  | tlbiCtx
  -- The step of a slot that holds no instruction (R92)
  | illegalInstruction (why : IllegalWhy)
  -- Events of groups, teams and grids
  | takeRun (g : Nat)
  | runEnd (g : Nat)
  | endMarkerTaken (u : UnitId)
  | groupRetirement (g : Nat)
  | completionEvent (g flight : Nat)
  | handlerEntry (u : UnitId)
  | voteComplete (u : UnitId)
  | teamTakeRun (t : Nat)
  | versionFreed (u : UnitId)
  | raceSpaceFreed (u : UnitId)
  | sequencerPark (u : UnitId)
  | groupStopPoint (g : Nat)
  | revoteAccepted (u : UnitId)
  | bwaitComplete (g : Nat)
  | barvCarryRoom (g : Nat)
  | feedBufferReady (g : Nat)
  | bellwComplete (g : Nat)
  | ldbSTimeout (g flight lane : Nat)
  -- Events of L1s and homes
  | deliveryArrival (core grain gsize : Nat) (attr : PageAttr) (bytes : List Byte) (round : W32) (grp flight : Nat)
  | deliverySettled (grp flight grain : Nat)
  | readRequest (core grain : Nat)
  | ownershipRequest (core grain : Nat)
  | writeback (core grain : Nat) (bytes : Tab Byte) (why : WbWhy)
  | cleanNotice (core grain : Nat)
  | invalidation (core grain : Nat)
  | invalidationAck (core grain : Nat)
  | recall (core grain : Nat) (toShared : Bool)
  | fill (core grain : Nat) (bytes : List Byte) (own : Bool)
  | homeExecutedOperation (o : HomeOp)
  | recordMessage (core grain : Nat) (s : MScope)
  | flushRequest (core grain : Nat)
  | flushAcknowledge (core grain : Nat)
  | retry (core grain : Nat)
  | roundBroadcast (core asid bell : Nat) (round : W32) (grp flight : Nat)
  | viewAcknowledge (core grp flight : Nat)
  | remoteScratchpadAccess (grp flight : Nat)
  -- Events of copies and multicast
  | multicastPacket (core : Nat) (leg : Leg) (what : PacketFor) (bytes : List Byte) (from_ : List Nat)
  | joinRequest (core queue : Nat) (key : MergeKey)
  | multicastReply (core : Nat) (key : MergeKey) (bytes : List Byte) (from_ : Nat)
  | copyElementMoved (q : Nat)
  | reeveFirstTouchMap (u : UnitId)
  -- Events of the dispatcher, the weir and the reeves
  | gridCompletion (grid : Nat)
  | launchQueueEntryFreed (vf : Nat)
  | launchRecordValidation (vf : Nat)
  | teamPlacement (grid : Nat)
  | wholeGridPlacement (grid : Nat)
  | nopPacket (q : Nat)
  | launchPacket (q : Nat)
  | waitPacket (q : Nat)
  | signalPacket (q : Nat)
  | barPacketRelease (q : Nat)
  | waitWake (q : Nat)
  | bringUpStageComplete (r : StageResult)
  -- Events of the fabric, of failures and of power
  | remoteStoreAck (grp flight : Nat)
  | collectiveSubmit (grp vf : Nat) (sub : Submission)
  -- Accesses of the host and of other devices
  | hostCxlCacheRequest (line gsz : Nat) (dpage : Bool)
  | hostAccess (pa : Nat) (a : ExtAccess)
  | peerWrite (queby : Bool) (src pa : Nat) (bytes : List Byte)
  | remoteAccess (dev pa : Nat) (a : ExtAccess)
  -- Events whose cause lies outside the units: the host, peers, timers, the reeves' own requests, failures
  | features (q : Nat)
  | createCtx (q : Nat)
  | destroyCtx (q : Nat)
  | createQueue (q : Nat)
  | destroyQueue (q : Nat)
  | poolAdd (q : Nat)
  | setWindow (q : Nat)
  | resume (q : Nat)
  | repair (q : Nat)
  | invalFn (q : Nat)
  | setWeir (q : Nat)
  | setTithe (q : Nat)
  | setSlots (q : Nat)
  | vfReset (q : Nat)
  | attest (q : Nat)
  | migrate (q : Nat)
  | abort (q : Nat)
  | moduleReset
  | driverHandshake (vf : Nat)
  | registerWrite (r : HostReg) (value : W128)
  | loadObject (vf asid : Nat) (bytes : List Byte)
  | unloadObject (vf obj : Nat)
  | functionLevelReset (vf : Nat)
  | doorbell (vf d : Nat)
  | throttleSample (x : Sample)
  | hostSnoopResponse (line : Nat) (bytes : Tab Byte)
  | peerRead (queby : Bool) (src pa size : Nat)
  | flitReceive (link seq : Nat) (crc : Option Nat)
  | replayRequest (link seq : Nat)
  | unreachableDevice (dev : Nat)
  | timestampExchange (ref : Nat)
  | errorEvent (u : ErrUnit) (recurs : Bool)
  | l1WayGating (core quad : Nat)
  | wayWakeEnd (core quad : Nat)
  | poolUnitGating (core unit : Nat)
  | poolUnitWakeEnd (core unit : Nat)
  | l1WayWake (core quad : Nat)
  | poolUnitWake (core unit : Nat)
  | preemptionRequest (vf core : Nat)
  | contextSave (core : Nat)
  | restore (saved core : Nat)
  | weirDeadline (vf : Nat)
  | residenceEvent (q : Nat)
  | ageingTick (q : Nat)
  | waitPoll (q : Nat)
  | joinEntryTimeout (slice idx : Nat)
  | joinEntryExpiry (slice idx : Nat)
  | collectiveCompletion (grp : Nat)
  | escalatedFaultResume (g : Nat)
  | copyResume (q : Nat)
  | victimUnmap (q : Nat)
  deriving DecidableEq, Repr

end Sys2Proof
end

