-- ==== Sys2Proof/Machine/State.lean ====
section
/-! DEFINITION. The state of the ENR-7512 module as plain data, everything the spec gives the machine, and
its value after module reset. Units are held in sparse tables under the keys of `UnitId`. -/

namespace Sys2Proof.Machine

open Sys2Proof

/-! ### Faults and refusals of the model -/

/-- Reasons a step of the model can stop. The device's own faults are taken as its exceptions and are
next states (R32, R123 to R129); these are the model's only stops. -/
inductive Fault where
  /-- An event names a unit that does not exist: raised by an event's meaning when the state does not hold
  the unit. Safe: the spec gives such an event no effect, since it never occurs. -/
  | noSuchUnit
  /-- A step of a sequencer that holds no code object or context. Raised by the meanings of control
  instructions when the state is not a state of a placed unit. Safe: the device has no such unit. -/
  | notPlaced
  deriving DecidableEq, Repr

/-- Why an instruction has no meaning in the model. -/
inductive Refusal where
  /-- Raised by `exec` alone, for a row of the opcode table that has no meaning yet. Safe: nothing follows. -/
  | notModelled (mnemonic : String)
  deriving DecidableEq, Repr

/-! ### Control: what group, team and grid sequencers share -/

/-- A loop stack entry (R23). -/
structure LoopEnt where
  remaining : W64
  body : W64
  deriving DecidableEq, Repr

inductive FrameKind where
  | nuf | fdt | trap
  deriving DecidableEq, Repr

/-- An occupied handler frame (R126): the saved resume address and depths, why it was entered and the slot
of the faulting instruction X. -/
structure Frame where
  resume : W64
  callDepth : Nat
  loopDepth : Nat
  kind : FrameKind
  x : W64
  /-- The handler has yet to emit its first run. -/
  fresh : Bool
  deriving DecidableEq, Repr

/-- Program counter, stacks, handler frame and fault record of one sequencer (R22, R23, R30, R32, R126).
`calls` is the hardware part, top first; `spill` the spill area, latest first. -/
structure Ctl where
  pc : W64
  calls : List W64
  spill : List W64
  loops : List LoopEnt
  frame : Option Frame
  vote : W64
  votex : W64
  fcause : W64
  fpc : W64
  faddr : W64
  deriving DecidableEq, Repr

def Ctl.start (pc : W64) : Ctl := ⟨pc, [], [], [], none, 0, 0, 0, 0, 0⟩

/-- What the members report at the end of a run (R27, R104): registers in field order, or a mask. -/
inductive Ask where
  | none | regs (ns : List Nat) | mask (m : Nat)
  deriving DecidableEq, Repr

/-- A run (R24): start, end and the snapshot version it names, with what its closing slot asks for. -/
structure Run where
  start : W64
  end_ : W64
  ver : Nat
  ask : Ask
  /-- The first run of a handler: a member takes it once it has drained (R126). -/
  first : Bool
  deriving DecidableEq, Repr

inductive RaceItem where
  | run (r : Run) | marker
  deriving DecidableEq, Repr

/-- Where a fault is routed (R123). -/
inductive Route where
  | handler (k : FrameKind) (entry : W64) | supervisor | debug
  deriving DecidableEq, Repr

/-- Why a unit is to park: a stop of the tree below it, a pre-emption, a pre-emption met at YIELD, a debug stop. -/
inductive StopReq where
  | none | tree | preempt | yielded | debug
  deriving DecidableEq, Repr

/-! ### Groups -/

inductive RegW where
  | v (lane phys : Nat) (x : W32) | s (n : Nat) (x : W64) | m (n : Nat) (x : W64)
  deriving DecidableEq, Repr

/-- An instruction that has issued and whose completion event has not occurred (R65). `due` is the clk at
which a fixed-latency result lands (R68); `wait` counts parts that other units have still to serve. -/
structure Flight where
  id : Nat
  flag : Nat
  due : Option Nat
  wait : Nat
  writes : List RegW
  pendV : List Nat
  pendS : List Nat
  pendM : List Nat
  mem : Bool
  raises : Bool
  acq : Option MScope
  /-- Its slot, and whether it is a scalar access, for a record of it (R406). -/
  fpc : W64
  scalar : Bool
  deriving DecidableEq, Repr

inductive Prot where
  | d | s | n | w
  deriving DecidableEq, Repr

/-- What a pending miss does when its fill arrives. -/
inductive WaitAct where
  | loadV (t : MType) (phys : Nat)
  | loadS (t : SType) (n : Nat)
  | store (bytes : List Byte)
  /-- A lane of LDB that a fill of round `th` or later serves (R337). -/
  | loadB (t : MType) (phys : Nat) (th : W32)
  deriving DecidableEq, Repr

structure Waiter where
  grp : Nat
  flight : Nat
  lane : Nat
  va : Nat
  pa : Nat
  size : Nat
  act : WaitAct
  deriving DecidableEq, Repr

structure Miss where
  grain : Nat
  gsz : Nat
  prot : Prot
  bell : Nat
  hs : Bool
  asid : Nat
  vf : Nat
  own : Bool
  useOnce : Bool
  frnd : W32
  waiters : List Waiter
  deriving DecidableEq, Repr

/-- A store of a release at .GRP or .TEAM, made in the L1 once the release is performed (R328). -/
structure RelStore where
  miss : Miss
  lane : Nat
  va : Nat
  pa : Nat
  bytes : List Byte
  deriving DecidableEq, Repr

/-- Names a ring: its grid, column, stage and feed (R272). -/
structure RingId where
  grid : Nat
  column : Nat
  stage : Nat
  feed : Nat
  deriving DecidableEq, Repr

/-- A team that a copy writes, by key, grid and member number, and the ring that it writes through (R273, R305). -/
structure Target where
  team : Nat
  grid : Nat
  member : Nat
  ring : Option RingId
  deriving DecidableEq, Repr

inductive CopyKind where
  | plain | all (ham : W128) | join (ham : W128)
  deriving DecidableEq, Repr

inductive CopySt where
  /-- In its queue, its implicit release not yet performed (R265, R267). -/
  | release
  | run
  /-- Waits for a first-touch page at an address (R269). -/
  | stalled (va : W64)
  /-- Stalled until the host repairs a mapping. -/
  | escalated (va : W64)
  /-- Waits for a grain that it has requested of a home (R305, R306). -/
  | line
  deriving DecidableEq, Repr

/-- A copy in a queue: its record as read, the leader's registers, and how far it has come (R267, R271, R314): elements
outside the tensor before `pos`, and those in memory below the virtual address `next`, are done. -/
structure Copy where
  team : Nat
  grp : Nat
  kind : CopyKind
  recAddr : Nat
  record : List Byte
  coords : List W32
  soff : Nat
  bar : Nat
  pos : Nat
  next : Nat
  st : CopySt
  /-- The record has been read and is sound (step 6). -/
  readDone : Bool
  flight : Nat
  /-- The grain requested, by virtual address, with its size and the cores that it has yet to reach. -/
  line : Option (Nat × Nat × Nat)
  /-- The teams that it writes, fixed when the engine starts it and again after a restore (R305, R307). -/
  targets : Option (List Target)
  /-- A join copy served alone after restore (R307). -/
  alone : Bool
  deriving DecidableEq, Repr

/-- What a release does last, once it is performed: a CFLUSH or CINV of a grain (R193), a FEEDPUT or FEEDREL of a
buffer (R275), the arrival of a BARV (R263), a copy that joins its queue (R267). -/
inductive RelAct where
  | maint (grain gsz : Nat) (inv : Bool)
  | feed (put : Bool) (feed buf : Nat)
  | barv (off n dest : Nat)
  | copy
  deriving DecidableEq, Repr

/-- A release or fence that is not yet performed (R190, R192): the flight, the scope, whether it releases, and what is
done once the group's earlier accesses are performed: stores in the L1, operations at homes, and further actions. -/
structure PendRel where
  flight : Nat
  scope : MScope
  rel : Bool
  stores : List RelStore
  ops : List HomeOp
  acts : List RelAct
  deriving DecidableEq, Repr

/-- The part of a lane's scratchpad access that lies in one 8-byte word of a bank (R220): the lane, the target team, the
offset of its first byte, that byte's place in the lane's datum, its length and, for a store, its bytes. -/
structure SpPiece where
  lane : Nat
  team : Nat
  off : Nat
  at_ : Nat
  len : Nat
  bytes : List Byte
  /-- The ring of a window offset, fixed at issue: bytes of an access in flight land in it all the same (R273). -/
  ring : Option RingId
  deriving DecidableEq, Repr

inductive SpKind where
  /-- The type and first physical register of a load. -/
  | load (t : MType) (phys : Nat)
  | store
  /-- ATOMP: operation, type and destination register. -/
  | atom (o : AOp) (t : AType) (phys : Nat)
  deriving DecidableEq, Repr

/-- A scratchpad access that the banks of a core are serving (R220, R258, R293): the pieces still to serve, and the bytes
read so far by lane and place. -/
structure SpOp where
  flight : Nat
  core : Nat
  swz : Nat
  size : Nat
  kind : SpKind
  lanes : List Nat
  pieces : List SpPiece
  got : Tab Byte
  deriving DecidableEq, Repr

/-- An instruction that a group waits in (R35, R263, R274, R336). -/
inductive Waiting where
  | bwait (off gen flight : Nat)
  | feedget (feed dest flight : Nat)
  | feedpop (feed dest flight : Nat)
  | bellw (bell : Nat) (target : W32) (flight : Nat)
  deriving DecidableEq, Repr

inductive GroupSt where
  | idle | running
  /-- Stopped by a fault; enters its route once drained (R32, R126). -/
  | stopped (r : Route)
  | parked
  /-- Parked until the host repairs a mapping or a move ends (R201). -/
  | escalated
  | waiting (w : Waiting)
  /-- A REVOTE that waits for the matrix engine to accept X (R127). -/
  | revoteHeld
  | retiring
  deriving DecidableEq, Repr

/-- The supervisor frame (R200): resume address, saved m0, the saved registers, and the pages the ROM handler
has still to examine, each with its lane. -/
structure SFrame where
  resume : W64
  m0 : W64
  sreg : Tab W64
  v : Tab W32
  m : Tab W64
  vote : W64
  votex : W64
  pages : List (Nat × W64)
  /-- Status of the last MAPF not yet acted on. -/
  mapped : Option (Nat × W64)
  /-- Lanes whose page escalates (R201). -/
  esc : List (Nat × W64)
  write : Bool
  /-- The group stays parked without a record of its own: a page being moved, a second-stage fault (R201, R398). -/
  quiet : Bool
  deriving DecidableEq, Repr

/-- The clk of a group's last issue, and whether a second group may issue beside it (R213). -/
structure IssueRec where
  clk : Nat
  pair : Bool
  deriving DecidableEq, Repr

structure Group where
  team : Nat
  gid : Nat
  w : Nat
  alloc : Nat
  v : Tab W32
  sreg : Tab W64
  m : Tab W64
  live : W64
  vwb : Nat
  ctl : Ctl
  st : GroupSt
  stopReq : StopReq
  run : Option Run
  race : List RaceItem
  flags : Tab Nat
  pendV : Tab Bool
  pendS : Tab Bool
  pendM : Tab Bool
  flights : List Flight
  nextFlight : Nat
  lastIssue : Nat
  /-- Age order of R212: twice the clk of the last issue or of the placement, one more after YIELD.G. -/
  age : Nat
  issue : Option IssueRec
  fstat : W64
  gen : Tab W32
  sframe : Option SFrame
  /-- An acquire that later accesses wait for (R190): its flight. -/
  hold : Option Nat
  rels : List PendRel
  /-- The records of the oldest of `rels` have been sent, and whether a home refused one (R328). -/
  recs : Option Bool
  /-- Stores that have left for another device and are not acknowledged, by flight (R451). -/
  acks : List Nat
  /-- Deliveries of earlier DLVs not yet settled (R303): flight and grain. -/
  unsettled : List (Nat × Nat)
  /-- Scratchpad accesses of the group that its own core's banks serve, and those of other cores (R220, R294). -/
  banks : List SpOp
  remotes : List SpOp
  deriving DecidableEq, Repr

/-! ### Teams and grids -/

/-- One version of k0-k31 or g0-g31 (R225, R371); `pin` the grid version a team version pins (R226). -/
structure Ver where
  regs : Tab W64
  pin : Nat
  deriving DecidableEq, Repr

inductive SeqSt where
  | fetch | full | vote | vers | upwait | park | done
  /-- A LAUNCH that waits for a queue entry (R383). -/
  | launch
  deriving DecidableEq, Repr

/-- What team and grid sequencers share (R105): state, the state to return to from PARK, versions, reports,
the agreed values of a completed vote, a write held in VERS. -/
structure Seq where
  ctl : Ctl
  st : SeqSt
  was : SeqSt
  stopReq : StopReq
  route : Option Route
  vers : Tab Ver
  cur : Nat
  /-- The run that the sequencer itself executes; for a grid the whole code range. -/
  run : Option Run
  reports : Tab (List W64)
  voted : Option (List W64)
  /-- The vote is a REVOTE's (R127). -/
  revote : Bool
  heldWrite : Option (Nat × W64)
  /-- The 128-byte record of a LAUNCH that waits for an entry. -/
  heldRec : Option (List Byte)
  deriving DecidableEq, Repr

structure Team where
  core : Nat
  slot : Nat
  grid : Nat
  member : Nat
  x : Nat
  y : Nat
  z : Nat
  stage : Nat
  vcore : Nat
  seq : Seq
  race : List RaceItem
  groups : List Nat
  /-- Groups whose retirement has not begun (R21). -/
  activeG : List Nat
  ham : Tab W128
  bellto : W64
  sp : Tab Byte
  spBase : Nat
  spSize : Nat
  rfBase : Nat
  rfSize : Nat
  acc : Tab (BitVec 48)
  accBase : Nat
  /-- Fault record of each barrier slot (R270): address and code. -/
  barRec : Tab (W64 × Nat)
  deriving DecidableEq, Repr

/-- The kernel control block (R433). -/
structure Kcb where
  step : Nat
  entry : W64
  cstart : W64
  cend : W64
  handG : W64
  handT : W64
  handD : W64
  reqfeat : W128
  width : Nat
  groups : Nat
  vregs : Nat
  stages : Nat
  whole : Bool
  gcode : Bool
  nbar : Nat
  nfeed : Nat
  pw : W64
  spbytes : Nat
  uacc : Nat
  txmax : Nat
  tymax : Nat
  tzmax : Nat
  vgrid : Nat
  /-- Buffer count and buffer bytes of each declared feed. -/
  feeds : List (Nat × Nat)
  bells : W64
  deriving DecidableEq, Repr

inductive GridSt where
  | waiting | running
  /-- Every team has retired and the cores write back (R382). -/
  | ending
  | done
  deriving DecidableEq, Repr

structure Grid where
  num : Nat
  vf : Nat
  asid : Nat
  kcb : Kcb
  kcbAddr : Nat
  x : Nat
  y : Nat
  z : Nat
  args : List W64
  sig : Bool
  sigaddr : W64
  sigval : W64
  host : Bool
  /-- The queue whose packet is at the root of the launch chain (R417). -/
  queue : Nat
  st : GridSt
  /-- Grid sequencer number and state, for a whole grid once placed (R370). -/
  gsNum : Option Nat
  seq : Seq
  /-- The next member number to place and the SR.VCORE the last team took (R379). -/
  nextTeam : Nat
  lastV : Option Nat
  teams : List Nat
  /-- Cores that held a team of the grid (R382). -/
  cores : List Nat
  retired : Nat
  debugStop : Bool
  /-- A data error has stopped it (R408, R418). -/
  dataErr : Bool
  /-- The code range is one whole grid run: the streamed grid's teams receive it. -/
  abortCode : Option Nat
  deriving DecidableEq, Repr

/-! ### Feeds, copies and the matrix engine -/

inductive FeedSt where
  | free | filling | full | draining
  deriving DecidableEq, Repr

/-- The ring that joins stage `stage` to the next at one spatial coordinate (R272, R274). -/
structure Ring where
  grid : Nat
  column : Nat
  stage : Nat
  feed : Nat
  size : Nat
  bufs : List FeedSt
  get : Nat
  pop : Nat
  /-- Groups that wait in a FEEDGET and in a FEEDPOP, in arrival order (R274). -/
  getQ : List Nat
  popQ : List Nat
  data : Tab Byte
  /-- Where its storage lies in the scratchpad share of its core (R272). -/
  base : Nat
  deriving DecidableEq, Repr

structure Stone where
  /-- Cells keyed row × 128 + column. -/
  cell : Tab Byte
  /-- Exponents keyed block row × 128 + column. -/
  exp : Tab Byte
  tag : Nat
  deriving DecidableEq, Repr

def Stone.zero : Stone := ⟨[], [], 8⟩

/-- A matrix instruction in the engine with its operands as read at issue (R237, R238). -/
inductive EngineAct where
  | mmldb (n : Nat) (soff : Nat) (desc : W64) (swz : Nat)
  | mmloop (fmt : W32) (d0 d1 : W64) (swz : Nat) (next : Nat)
  | mmzero (u n : Nat)
  | amov (lanes : List (Nat × W32 × W32))
  | anrw (dest : Nat) (lanes : List (Nat × W32 × W32)) (ctl : W64)
  | qtile (widths d0 d1 : W64) (swz : Nat)
  | rqt (row : Bool) (d s : W64)
  deriving DecidableEq, Repr

structure EngineOp where
  team : Nat
  grp : Nat
  flight : Nat
  /-- The clk of its issue, in which those of lower quadrants come before it (R237). -/
  clk : Nat
  act : EngineAct
  /-- The ring of each window that it names, by bits [31:24] of the offset: fixed at issue (R273). -/
  rings : List (Nat × RingId)
  deriving DecidableEq, Repr

/-! ### Cores -/

/-- The state of a valid grain in an L1 (R301, R321, R324). -/
inductive GrainSt where
  | sh | ex | v | vd | vb | du | dr
  deriving DecidableEq, Repr

/-- An L1 block of 512 bytes (R221, R319). Tables are keyed by sector (`dm`), by byte (`data`) and by grain
number within the block (`gst`, `frnd`). -/
structure Block where
  tag : Nat
  prot : Prot
  gsz : Nat
  bell : Nat
  hs : Bool
  asid : Nat
  vf : Nat
  sv : BitVec 16
  sd : BitVec 16
  dm : Tab W32
  data : Tab Byte
  gst : Tab GrainSt
  frnd : Tab W32
  lru : Nat
  deriving DecidableEq, Repr

/-- An LDB.S lane that waits for a delivery (R337, R366). -/
structure LdbWait where
  grp : Nat
  flight : Nat
  lane : Nat
  pa : Nat
  size : Nat
  t : MType
  phys : Nat
  grain : Nat
  th : W32
  deadline : Nat
  miss : Miss
  deriving DecidableEq, Repr

/-- An entry of a TLB (R399): a leaf of a context. -/
structure TlbEnt where
  asid : Nat
  /-- Virtual page number and whether the page is 512 MiB. -/
  vpn : Nat
  big : Bool
  leaf : W64
  /-- The first stage's leaf maps 512 MiB, of which this entry may hold a piece. -/
  half : Bool
  deriving DecidableEq, Repr

inductive Gate where
  | gated | waking
  deriving DecidableEq, Repr

structure Core where
  /-- The function whose partition holds the core; none while out of service or disabled. -/
  vf : Option Nat
  vcore : Option Nat
  pw : W64
  l1 : Tab Block
  misses : List Miss
  ldbWaits : List LdbWait
  charge : Nat
  refused : W64
  stones : Tab Stone
  /-- The function whose teams the stones last served (R233). -/
  stonesVf : Option Nat
  engine : List EngineOp
  copyq : Tab (List Copy)
  /-- View tables: context, then bell, to round (R332). -/
  views : Tab (Tab W32)
  tlb : List TlbEnt
  wtlb : List TlbEnt
  ways : Tab Gate
  units : Tab Gate
  /-- The clk from which each scratchpad bank is free again (R220). -/
  banks : Tab Nat
  /-- A reeve has asked for pre-emption (R230). -/
  preempt : Bool
  /-- The partition that takes the core once its teams are saved (R390). -/
  giveTo : Option Nat
  deriving DecidableEq, Repr

def Core.empty : Core :=
  ⟨none, none, 0, [], [], [], 0, 0, [], none, [], [], [], [], [], [], [], [], false, none⟩

/-! ### Homes -/

inductive DirSt where
  | un | shd | own (c : Nat)
  deriving DecidableEq, Repr

/-- A request that waits or is served at a home (R318). -/
inductive HomeReq where
  | read (core : Nat) | own (core : Nat) | op (o : HomeOp) | merge (core : Nat) (bytes : Tab Byte)
  | clean (core : Nat)
  /-- A record message of a releaser (R328). -/
  | record (core : Nat) (scope : MScope)
  /-- An event of a party without a cache, a write or not, that happens in its turn at the grain. -/
  | after (write : Bool) (i : Instr)
  /-- The request of another grain that takes this entry (R318): the event happens once the entry is free. -/
  | room (grain : Nat) (i : Instr)
  deriving DecidableEq, Repr

/-- A directory entry (R318) of a grain of `gsz` bytes. -/
structure Dir where
  gsz : Nat
  st : DirSt
  /-- Core numbers with their DEL bit; at most four, otherwise `clbits`. -/
  ptrs : List (Nat × Bool)
  clbits : List Nat
  /-- The partition whose cores hold the copies. -/
  part : Option Nat
  hostown : Bool
  lock : Bool
  rel : Option (Nat × MScope)
  held : List HomeReq
  cur : Option HomeReq
  acks : Nat
  lru : Nat
  deriving DecidableEq, Repr

def Dir.fresh (gsz : Nat) : Dir := ⟨gsz, .un, [], [], none, false, false, none, [], none, 0, 0⟩

/-- A join entry of a slice (R306). -/
structure JoinEnt where
  slice : Nat
  idx : Nat
  key : MergeKey
  expected : List Nat
  joined : List Nat
  served : List Nat
  opened : Nat
  timedOut : Bool
  deriving DecidableEq, Repr

/-- A delivery that awaits answers from the cores of its hamlet (R299). -/
structure DlvWait where
  grp : Nat
  flight : Nat
  grain : Nat
  cores : List Nat
  deriving DecidableEq, Repr

/-- A RING that awaits acknowledgements (R335). -/
structure RingWait where
  grp : Nat
  flight : Nat
  left : Nat
  deriving DecidableEq, Repr

/-! ### Contexts, functions, queues -/

/-- A window register (R327). -/
structure Window where
  base : Nat
  last : Nat
  grain : Nat
  en : Bool
  deriving DecidableEq, Repr

structure Ctx where
  vf : Nat
  root : Nat
  bellBase : Nat
  bells : Tab W32
  windows : Tab Window
  deriving DecidableEq, Repr

/-- A record in a partition's device-launch queue (R383). -/
structure LaunchEnt where
  bytes : List Byte
  asid : Nat
  queue : Nat
  /-- The grid that the dispatcher accepted for it. -/
  grid : Option Nat
  deriving DecidableEq, Repr

/-- A function, its partition and its weir entry (R388, R421 to R424). -/
structure Vf where
  mask : W128
  offered : W128
  accepted : W128
  quota : Nat
  tithe : Nat
  pool : List Nat
  s2root : Option Nat
  floor : Nat
  share : Nat
  deadline : Nat
  gsmax : Nat
  used : Nat
  /-- The time in ns since which it has been short of its floor (R390). -/
  shortSince : Option Nat
  /-- Free reserved SR.VCORE numbers with their clusters (R444). -/
  freeNums : List (Nat × Nat)
  launchq : List LaunchEnt
  nextGrid : Nat
  adminAddr : Nat
  adminQ : Option Nat
  ready : Bool
  deriving DecidableEq, Repr

/-- A second-stage or unrepaired fault that a unit waits on (R398). -/
structure S2Wait where
  vf : Nat
  unit : UnitId
  va : W64
  lane : Nat
  deriving DecidableEq, Repr

/-- The fields of a fault record (R406). -/
structure FRec where
  cause : Nat
  src : Nat
  level : Nat
  wr : Bool
  scope : Nat
  detail : Nat
  va : W64
  xaddr : Nat
  fpc : W64
  vf : Nat
  asid : Nat
  core : Nat
  team : Nat
  grid : Nat
  deriving DecidableEq, Repr

/-- What a reeve's word at SIGADDR is about (R460): the queue for its fault record, the function, the context, the grid's number,
and whether it is a release at .SYS rather than .DEV. -/
structure SigCtx where
  queue : Option Nat
  vf : Nat
  asid : Nat
  grid : Nat
  sys : Bool
  deriving DecidableEq, Repr

/-- What a reeve has still to do at an address: a word at SIGADDR, a record for a queue, a collective of a group. -/
inductive ReeveWhat where
  | word (c : SigCtx) (val : W64) (code : Nat)
  | record (queue : Nat) (r : FRec)
  | coll (grp : Nat)
  deriving DecidableEq, Repr

/-- An access of a reeve that waits: for the repair of a second-stage fault (R398), or for a link that is being drained (R449). -/
structure ReeveWait where
  vf : Nat
  va : W64
  stage2 : Bool
  what : ReeveWhat
  deriving DecidableEq, Repr

/-- A user queue: the firmware copy of the privileged part (R411, R412) and the device's own fields. -/
structure Queue where
  qcb : Nat
  rbase : W64
  rsize : Nat
  prio : Nat
  asid : Nat
  dbidx : Nat
  vf : Nat
  evbase : W64
  esize : Nat
  wptr : Nat
  rptr : Nat
  ewptr : Nat
  edrop : W32
  err : Bool
  ecode : Nat
  parked : Bool
  slot : Option Nat
  /-- The time in ns at which the pending bit was set. -/
  pending : Option Nat
  /-- Levels gained since then that have raised their event (R420). -/
  levels : Nat
  /-- The time in ns at which it took its slot. -/
  mappedAt : Nat
  /-- Its 2 ms of residence have raised their event. -/
  resident : Bool
  /-- The word that a parked WAIT watches, its value, and whether the signal unit has an entry for it. -/
  watch : Option (W64 × W64 × Bool)
  unmapReq : Bool
  deriving DecidableEq, Repr

/-- Saved teams of one core (R230). -/
structure Saved where
  core : Nat
  vcore : Nat
  vf : Nat
  pw : W64
  teams : Tab Team
  groups : Tab Group
  stones : Tab Stone
  engine : List EngineOp
  copyq : Tab (List Copy)
  waits : List S2Wait
  deriving DecidableEq, Repr

/-- A loaded code object (R441, R442): its pages, symbols and KCB addresses and the objects it resolved against. -/
structure Obj where
  vf : Nat
  asid : Nat
  pages : List Nat
  syms : List (List Byte × W64)
  kcbs : List Nat
  deps : List Nat
  /-- Its frames, while it is being unloaded and its invalidation is not complete (R349). -/
  freed : List Nat
  deriving DecidableEq, Repr

/-! ### Fabric, firmware -/

/-- A Queby link (R448). -/
structure Link where
  inService : Bool
  /-- Being emptied before it is taken out of service (R449). -/
  draining : Bool
  /-- Next sequence number expected, and next to send. -/
  rxNext : Nat
  txNext : Nat
  /-- Numbers sent and not acknowledged. -/
  unacked : List Nat
  /-- The received flits whose CRC failed, until their replay. -/
  crcFail : List Nat
  /-- The number from which this end has asked for a replay. -/
  asked : Option Nat
  /-- Flits that this end has replayed. -/
  replays : List Nat
  deriving DecidableEq, Repr

structure Coll where
  vf : Nat
  rank : Nat
  n : Nat
  /-- The members' devices by rank. -/
  members : List Nat
  queue : List Submission
  /-- Frame number of the member's submit page (R455). -/
  submit : Option Nat
  /-- Source vectors and descriptor words that other members have submitted, by rank, oldest first. -/
  contrib : Tab (List (List Byte × List Byte))
  /-- Submissions of other members that belong to collectives which ended here without them, by rank. -/
  owed : Tab Nat
  /-- The driver has answered a second-stage fault of the head descriptor's accesses with unrepairable (R398). -/
  bad : Bool
  deriving DecidableEq, Repr

structure Fabric where
  dev : Nat
  links : Tab Link
  route : Tab (Nat × Nat)
  /-- Paths that the driver has changed while a transfer is in flight on them (R449). -/
  reroute : Tab (Nat × Nat)
  /-- Accesses of ingest windows that wait: whether over the links, the source, the address (R347, R453). -/
  posted : List (Bool × Nat × Nat × ExtAccess)
  fts : W64
  /-- Frame number of the time page (R454), when the driver has one. -/
  timeFrame : Option Nat
  colls : Tab Coll
  unreachable : List Nat
  remote : List Host.Cell
  ingest : Tab W128
  discards : Nat
  deriving DecidableEq, Repr

structure Firmware where
  stage : W32
  grade7384 : Bool
  /-- The cores that the fuses of an ENR-7384 leave disabled (R1). -/
  fused : List Nat
  /-- Units out of service (R409, R427). -/
  coresOut : List Nat
  slicesOut : List Nat
  linksOut : List Nat
  mhz : Nat
  /-- The clk of the last change of the clock, and the time in ns since reset that had passed by then. -/
  epoch : Nat × Nat
  /-- The units that were out of service when the fuses and the self-tests had been read at stage 3: cores, slices and links,
  which CFGHASH describes (R426, R427). -/
  cfg : List Nat × List Nat × List Nat
  /-- The limits of module power in W and of die temperature in °C, and the throttle events: clk and new frequency (R391). -/
  limits : Nat × Nat
  throttles : List (Nat × Nat)
  /-- The identity's public key and certificate chain in the physical function's configuration space (R426). -/
  identity : List W64
  transient : Nat
  /-- The last answer to a load or unload: its status and the KCB addresses (R441, R442). -/
  loader : Option (Nat × List Nat)
  /-- Function, queue and differing offsets (R412). -/
  tamper : List (Nat × Nat × List Nat)
  deriving DecidableEq, Repr

/-- A prefix word's fields (R78). -/
structure Prefix where
  mask : BitVec 4
  rnd : BitVec 3
  mz : Bool
  d4 : BitVec 7
  xmod : BitVec 6
  deriving DecidableEq, Repr

/-- The slot being issued: its instruction class (R74), the unit, the address that a fault names (the prefix's if there is one), the
instruction's own slot, its prefix, the flag it raises, and a pace defect found there (R70). -/
structure Issue where
  unit : UnitId
  fpc : W64
  slot : W64
  pfx : Option Prefix
  setf : Nat
  defect : Bool
  cls : Nat
  deriving DecidableEq, Repr

/-- What the schedule names to happen next: a unit's move; the n-th of the messages that are on their way; the next input
from outside; any other move, while the messages stay on their way; a write-back of what a home slice, or an L3 slice,
holds at an address. -/
inductive Pick where
  | unit (u : UnitId) | msg (n : Nat) | input | other | l2Out (pa : Nat) | l3Out (pa : Nat)
  deriving DecidableEq, Repr

/-- A flush that awaits the stores that were pending at the core, by group and flight (R329). -/
structure FlushWait where
  core : Nat
  grain : Nat
  vf : Nat
  stores : List (Nat × Nat)
  deriving DecidableEq, Repr

/-- Which translations an invalidation names: the page of an address, a context, a function (R400, R402). -/
inductive InvalOf where
  | page (asid va : Nat) | ctx (asid : Nat) | fn (vf : Nat)
  deriving DecidableEq, Repr

/-- Who awaits the completion of an invalidation. -/
inductive InvalDone where
  /-- TLBI of a group. -/
  | flight (grp flight : Nat)
  /-- A command of a queue. -/
  | command (q : Nat)
  /-- The move of a page for a queue's MIGRATE. -/
  | move (q : Nat)
  /-- The loading and the unloading of an object (R441, R442). -/
  | load (obj : Nat)
  | unload (obj : Nat)
  deriving DecidableEq, Repr

/-- An invalidation that is not complete: the accesses that translated through what it dropped, by group, flight
and lane, and copies by queue (R349). -/
structure Inval where
  of : InvalOf
  accs : List (Nat × Nat × Nat)
  copies : List Nat
  done : InvalDone
  deriving DecidableEq, Repr

/-- The move of a page (R403): the queue of its MIGRATE, the page, its entry's address and value, the addresses of the old
and the new frame, the new frame as its function names it, the step, and the grains that step 1 has dealt with. -/
structure PageMove where
  q : Nat
  asid : Nat
  vf : Nat
  va : Nat
  ea : Nat
  e : W64
  p0 : Nat
  p1 : Nat
  f1 : Nat
  /-- It takes the steps of a D page: the directory governs the frame, and no window holds it (R320, R327). -/
  locks : Bool
  step : Nat
  grains : Nat
  deriving DecidableEq, Repr

/-- Sources of the hardware event queue (R410), with the residence of R420 and a mapped queue that becomes empty or parks. -/
inductive EvSrc where
  | kick | waitMet | gridEnd | command | fault | deadline | ageing | residence | emptied
  deriving DecidableEq, Repr

/-- An event that no reeve has handled: its source, its function, and the queue that it names. -/
structure QEvent where
  src : EvSrc
  vf : Nat
  queue : Option Nat
  deriving DecidableEq, Repr

structure State where
  agenda : List Instr
  inputs : List Instr
  sched : List Pick
  turn : Nat
  clk : Nat
  iss : Issue
  /-- Counter of free values drawn: the model's own field. -/
  fresh : Nat
  nextKey : Nat
  groups : Tab Group
  teams : Tab Team
  grids : Tab Grid
  cores : Tab Core
  mem : List Host.Cell
  /-- 32-byte sectors whose latest bytes no L3 slice holds yet: their home slice alone does. -/
  l2 : Tab Bool
  /-- By L3 slice, the 256-byte lines that it holds and has not yet written to its HBM4E stack (R367). -/
  l3 : Tab (Tab Bool)
  poison : Tab Nat
  dirs : Tab Dir
  flushes : List FlushWait
  invals : List Inval
  moves : List PageMove
  events : List QEvent
  joins : List JoinEnt
  dlvs : List DlvWait
  ringWaits : List RingWait
  rings : List Ring
  ctxs : Tab Ctx
  /-- Walk-cache entries: context, level and index path, to the table entry (R399). -/
  walk : List (Nat × Nat × Nat × W64)
  /-- Second-stage entries in the walk caches: function, level and index path, to the entry (R399). -/
  walk2 : List (Nat × Nat × Nat × W64)
  vfs : Tab Vf
  s2waits : List S2Wait
  reeveWaits : List ReeveWait
  queues : Tab Queue
  saved : Tab Saved
  objs : Tab Obj
  fab : Fabric
  fw : Firmware
  deriving DecidableEq, Repr

/-- The machine right after module reset: nothing runs, every array is empty, the stage of bring-up is 1
(R427); the reset values the spec gives none for are named in the assumption log. -/
def State.reset : State where
  agenda := []
  inputs := []
  sched := []
  turn := 0
  clk := 0
  iss := ⟨.engine 0, 0, 0, none, 0, false, 0⟩
  fresh := 0
  nextKey := 0
  groups := []
  teams := []
  grids := []
  cores := []
  mem := []
  l2 := []
  l3 := []
  poison := []
  dirs := []
  flushes := []
  invals := []
  moves := []
  events := []
  joins := []
  dlvs := []
  ringWaits := []
  rings := []
  ctxs := []
  walk := []
  walk2 := []
  vfs := []
  s2waits := []
  reeveWaits := []
  queues := []
  saved := []
  objs := []
  fab := ⟨0, [], [], [], [], 0, none, [], [], [], [], 0⟩
  fw := ⟨1, Config.grade7384, Config.fuses, [], [], [], 2700, (0, 0), ([], [], []), (2600, 105), [], [], 0, none, []⟩

end Sys2Proof.Machine
end

