-- ==== Sys2Proof/Machine/Table.lean ====
section
/-! DEFINITION. Sparse tables: keys strictly rising, so that equal tables are equal lists. -/

namespace Sys2Proof

/-- The keys are strictly rising and all above `lo` (when one is given). -/
def Tab.wfFrom {α : Type} (lo : Option Nat) : Tab α → Bool
  | [] => true
  | (k, _) :: t => (match lo with | none => true | some l => decide (l < k)) && Tab.wfFrom (some k) t

def Tab.wf {α : Type} (t : Tab α) : Bool := Tab.wfFrom none t

def Tab.get? {α : Type} : Tab α → Nat → Option α
  | [], _ => none
  | (k, v) :: t, n => if n = k then some v else Tab.get? t n

def Tab.getD {α : Type} (t : Tab α) (n : Nat) (d : α) : α := (Tab.get? t n).getD d

def Tab.has {α : Type} (t : Tab α) (n : Nat) : Bool := (Tab.get? t n).isSome

/-- Insert or replace, keeping the keys in order. -/
def Tab.set {α : Type} : Tab α → Nat → α → Tab α
  | [], n, x => [(n, x)]
  | (k, v) :: t, n, x =>
    if n < k then (n, x) :: (k, v) :: t
    else if n = k then (n, x) :: t
    else (k, v) :: Tab.set t n x

def Tab.erase {α : Type} : Tab α → Nat → Tab α
  | [], _ => []
  | (k, v) :: t, n => if n = k then Tab.erase t n else (k, v) :: Tab.erase t n

/-- Write a value, listing only entries that differ from the default. -/
def Tab.put {α : Type} [DecidableEq α] (d : α) (t : Tab α) (n : Nat) (x : α) : Tab α :=
  if x = d then Tab.erase t n else Tab.set t n x

def Tab.modify {α : Type} (t : Tab α) (n : Nat) (f : α → α) : Tab α :=
  t.map fun p => if p.1 = n then (p.1, f p.2) else p

def Tab.keys {α : Type} (t : Tab α) : List Nat := t.map (·.1)

def Tab.vals {α : Type} (t : Tab α) : List α := t.map (·.2)

/-- The entries whose key and value pass a test. -/
def Tab.keep {α : Type} (t : Tab α) (p : Nat → α → Bool) : Tab α := t.filter fun e => p e.1 e.2

/-- The lowest key that is not in use. -/
def Tab.freeFrom {α : Type} (t : Tab α) : Nat → Nat → Nat
  | 0, n => n
  | fuel + 1, n => if t.has n then t.freeFrom fuel (n + 1) else n

def Tab.freeKey {α : Type} (t : Tab α) : Nat := t.freeFrom t.length 0

end Sys2Proof
end

