-- ==== Sys2Proof/Machine/Access.lean ====
section
/-! DEFINITION. Reading and replacing the units of a state, the registers a scope sees (R18, R26, R101), and slot
addresses (R61, R131). -/

namespace Sys2Proof.Machine

open Sys2Proof

abbrev Out := Host.Outcome State Fault Refusal

def State.group? (s : State) (k : Nat) : Option Group := s.groups.get? k
def State.team? (s : State) (k : Nat) : Option Team := s.teams.get? k
def State.grid? (s : State) (k : Nat) : Option Grid := s.grids.get? k
def State.coreD (s : State) (c : Nat) : Core := s.cores.getD c Core.empty

def State.setGroup (s : State) (k : Nat) (g : Group) : State := { s with groups := s.groups.set k g }
def State.setTeam (s : State) (k : Nat) (t : Team) : State := { s with teams := s.teams.set k t }
def State.setGrid (s : State) (k : Nat) (g : Grid) : State := { s with grids := s.grids.set k g }
/-- A core that has left service stays absent. -/
def State.setCore (s : State) (c : Nat) (x : Core) : State :=
  { s with cores := if s.cores.has c then s.cores.set c x else s.cores }
def State.updGroup (s : State) (k : Nat) (f : Group → Group) : State := { s with groups := s.groups.modify k f }
def State.updTeam (s : State) (k : Nat) (f : Team → Team) : State := { s with teams := s.teams.modify k f }
def State.updGrid (s : State) (k : Nat) (f : Grid → Grid) : State := { s with grids := s.grids.modify k f }
def State.updCore (s : State) (c : Nat) (f : Core → Core) : State := { s with cores := s.cores.modify c f }

/-- Adds events that happen next, oldest first. -/
def State.post (s : State) (es : List Instr) : State := { s with agenda := s.agenda ++ es }

/-- Folds a state update over a list. -/
def foldS {α : Type} (s : State) (xs : List α) (f : State → α → State) : State := xs.foldl f s

/-! ### A group with its team and grid -/

/-- A group, its team and its grid, and the group's key. -/
structure GCtx where
  k : Nat
  g : Group
  t : Team
  gr : Grid
  deriving DecidableEq, Repr

def State.gctx (s : State) (k : Nat) : Option GCtx :=
  match s.group? k with
  | none => none
  | some g =>
    match s.team? g.team with
    | none => none
    | some t =>
      match s.grid? t.grid with
      | none => none
      | some gr => some ⟨k, g, t, gr⟩

/-- A team and its grid, and the team's key. -/
structure TCtx where
  k : Nat
  t : Team
  gr : Grid
  deriving DecidableEq, Repr

def State.tctx (s : State) (k : Nat) : Option TCtx :=
  match s.team? k with
  | none => none
  | some t => (s.grid? t.grid).map fun gr => ⟨k, t, gr⟩

/-- The core of a group or team key. -/
def coreOfGroup (k : Nat) : Nat := k / 64
def coreOfTeam (k : Nat) : Nat := k / 16

/-! ### Registers -/

def Group.vget (g : Group) (lane phys : Nat) : W32 := g.v.getD (lane * 256 + phys) 0
/-- Lane register vn of a lane, through the window (R15). -/
def Group.vreg (g : Group) (lane n : Nat) : W32 := g.vget lane (g.vwb + n)
/-- The pair vn, vn+1 (R16). -/
def Group.vpair (g : Group) (lane n : Nat) : W64 := g.vreg lane (n + 1) ++ g.vreg lane n
def Group.mreg (g : Group) (n : Nat) : W64 := g.m.getD n 0
def Group.sregD (g : Group) (n : Nat) : W64 := g.sreg.getD n 0

/-- The lanes that are live (R20). -/
def Group.isLive (g : Group) (l : Nat) : Bool := g.live.getLsbD l
def lanesOf (w : Nat) (m : W64) : List Nat := (List.range w).filter fun l => m.getLsbD l

def Seq.ver (q : Seq) (n : Nat) : Ver := q.vers.getD n ⟨[], 0⟩

/-- R26, R101: a scalar register as a group reads it in its current run. -/
def GCtx.rd (x : GCtx) (r : SReg) : W64 :=
  let v := x.t.seq.ver (match x.g.run with | some r => r.ver | none => x.t.seq.cur)
  match r with
  | .s n => x.g.sregD n.toNat
  | .k n => v.regs.getD n.toNat 0
  | .g n => (x.gr.seq.ver v.pin).regs.getD n.toNat 0

/-! ### Control state of a unit -/

def State.ctl? (s : State) : UnitId → Option Ctl
  | .group k => (s.group? k).map (·.ctl)
  | .team k => (s.team? k).map (·.seq.ctl)
  | .grid k => (s.grid? k).map (·.seq.ctl)
  | _ => none

def State.updCtl (s : State) (u : UnitId) (f : Ctl → Ctl) : State :=
  match u with
  | .group k => s.updGroup k fun g => { g with ctl := f g.ctl }
  | .team k => s.updTeam k fun t => { t with seq := { t.seq with ctl := f t.seq.ctl } }
  | .grid k => s.updGrid k fun g => { g with seq := { g.seq with ctl := f g.seq.ctl } }
  | _ => s

def State.seq? (s : State) : UnitId → Option Seq
  | .team k => (s.team? k).map (·.seq)
  | .grid k => (s.grid? k).map (·.seq)
  | _ => none

def State.updSeq (s : State) (u : UnitId) (f : Seq → Seq) : State :=
  match u with
  | .team k => s.updTeam k fun t => { t with seq := f t.seq }
  | .grid k => s.updGrid k fun g => { g with seq := f g.seq }
  | _ => s

/-- The kernel control block that governs a unit. -/
def State.kcb? (s : State) : UnitId → Option Kcb
  | .group k => (s.gctx k).map (·.gr.kcb)
  | .team k => (s.tctx k).map (·.gr.kcb)
  | .grid k => (s.grid? k).map (·.kcb)
  | _ => none

/-- The grid key of a unit. -/
def State.gridOf (s : State) : UnitId → Option Nat
  | .group k => (s.gctx k).map (·.t.grid)
  | .team k => (s.team? k).map (·.grid)
  | .grid k => some k
  | _ => none

/-- The scope of a unit's sequencer (R3). -/
def lvlOfUnit : UnitId → Lvl
  | .team _ => .t
  | .grid _ => .d
  | _ => .g

/-! ### Slot addresses (R60, R61) -/

def sheafBase (a : W64) : W64 := a &&& ~~~(15 : W64)

/-- The slot after a slot: past the next sheaf's pace word from slot 3. -/
def nextSlot (a : W64) : W64 := if (a &&& 15) = 12 then a + 8 else a + 4

/-- Which slot of its sheaf an address names: 1, 2 or 3. -/
def slotIndex (a : W64) : Nat := (a &&& 15).toNat / 4

/-- The target of a sheaf displacement (R61). -/
def target (pc : W64) (d : BitVec 14) : W64 := sheafBase pc + (d.signExtend 64) * 16 + 4

/-- R131: a slot address in the kernel's code range. -/
def Kcb.inRange (k : Kcb) (a : W64) : Bool := decide (k.cstart.toNat ≤ a.toNat) && decide (a.toNat < k.cend.toNat)

/-- The first slot address beyond the code range. -/
def Kcb.rangeEnd (k : Kcb) : W64 := k.cend + 4

/-- R62: a register-held code target ends in 0x4. -/
def slot1 (a : W64) : Bool := (a &&& 15) = 4

/-! ### Mode of a kernel (R71, R72) -/

def steppingA1 : Nat := 0x0A01
def Kcb.paced (k : Kcb) : Bool := k.step == steppingA1

end Sys2Proof.Machine
end

