-- ==== Sys2Proof/Machine/Flags.lean ====
section
/-! DEFINITION. The flag and status computations: SR.FSTAT (R31, R46), the pace flags P1 to P12 (R65), the vote
records SR.VOTE and SR.VOTEX (R30, R103) and the fault cause word SR.FCAUSE (R32). -/

namespace Sys2Proof.Machine

open Sys2Proof

/-- raise(f) (R46): sticky bits of SR.FSTAT. -/
def Group.raise (g : Group) (flags : Nat) : Group := { g with fstat := g.fstat ||| BitVec.ofNat 64 (flags % 32) }

/-- The count of flag Pn (R65). -/
def Group.flag (g : Group) (n : Nat) : Nat := g.flags.getD n 0

/-- Flag Pn rises in the issue clk; n = 0 raises nothing. -/
def Group.raiseFlag (g : Group) (n : Nat) : Group :=
  if n = 0 then g else { g with flags := g.flags.put 0 n (g.flag n + 1) }

def Group.dropFlag (g : Group) (n : Nat) : Group :=
  if n = 0 then g else { g with flags := g.flags.put 0 n (g.flag n - 1) }

/-- The SCOPE code of a sequencer (R30, R32). -/
def scopeCode : Lvl → Nat
  | .g => 1
  | .t => 2
  | .d => 3

/-- SR.FCAUSE (R32). -/
def fcauseWord (cause scope detail : Nat) : W64 :=
  BitVec.ofNat 64 (cause % 256 + scope % 16 * 256 + detail % 2 ^ 32 * 2 ^ 32)

/-- The outcome of a vote: whether it is uniform, SR.VOTE and SR.VOTEX. -/
structure VoteRec where
  uniform : Bool
  vote : W64
  votex : W64
  deriving DecidableEq, Repr

/-- SR.VOTEX from its fields (R30). -/
def votexWord (uniform : Bool) (refm base refnum scope : Nat) : W64 :=
  BitVec.ofNat 64 ((if uniform then 2 ^ 63 else 0) + refm % 256 * 2 ^ 48 + base % 2 ^ 16 * 2 ^ 32 +
    refnum % 2 ^ 16 * 2 ^ 16 + scope % 16)

/-- A vote over a nonempty set of members in rising order, each with its value (R30, R103). -/
def voteRecord (scope : Nat) (members : List (Nat × W64)) : VoteRec :=
  match members with
  | [] => ⟨true, 0, 0⟩
  | (r, v) :: rest =>
    let diff := rest.filter fun p => p.2 != v
    let low := match diff with | [] => r | (n, _) :: _ => n
    let base := low / 64 * 64
    let bits := diff.foldl (fun b p => if base ≤ p.1 ∧ p.1 < base + 64 then b ||| ((1 : W64) <<< (p.1 - base)) else b)
      (0 : W64)
    ⟨diff.isEmpty, bits, votexWord diff.isEmpty (if base ≤ r then r - base else 0xFF) base r scope⟩

/-- Writes a vote's record. -/
def Ctl.setVote (c : Ctl) (r : VoteRec) : Ctl := { c with vote := r.vote, votex := r.votex }

end Sys2Proof.Machine
end

