-- ==== Sys2Proof/WellFormed.lean ====
section
/-! DEFINITION. Which instructions are well formed: the operand rules of R92 that a word's own fields show
(pairs, spaces that a scope forbids, codes an entry calls illegal). The reserved bits of a word are checked by
the decoder. An event has no encoding, so it is not well formed as an instruction of a program. -/

namespace Sys2Proof

/-- An even register number (R16). -/
def even7 (n : VReg) : Bool := n.toNat % 2 == 0

/-- The alignment of the lane registers of an access type (R180). -/
def MType.regOk (t : MType) (a : VReg) : Bool :=
  match t with
  | .b64 => a.toNat % 2 == 0
  | .b128 => a.toNat % 4 == 0
  | _ => true

def SReg.even : SReg → Bool
  | .s n => n.toNat % 2 == 0
  | .k n => n.toNat % 2 == 0
  | .g n => n.toNat % 2 == 0

/-- The sequencer that owns a register (R77). -/
def SReg.lvl : SReg → Lvl
  | .s _ => .g
  | .k _ => .t
  | .g _ => .d

/-- R101: an S operand that a scope may read. A D-scope slot may not read s. -/
def SReg.readAt (r : SReg) (l : Lvl) : Bool :=
  match l, r with
  | .d, .s _ => false
  | _, _ => true

/-- R101, R139: a second source that a scope may read; a lane source needs G scope and an even pair. -/
def SSrc.readAt (c : SSrc) (l : Lvl) : Bool :=
  match c, l with
  | .s r, l => r.readAt l
  | .v _, .g => true
  | .vp n, .g => even7 n
  | _, _ => false

/-- A class 1 instruction with two sources. -/
def scalarOk (a b : SReg) (c : SSrc) : Bool :=
  b.readAt a.lvl && c.readAt a.lvl

def VSrc.evenIf64 (w : Width) (c : VSrc) : Bool :=
  match w, c with
  | .w64, .v n => even7 n
  | _, _ => true

def even64 (w : Width) (n : VReg) : Bool :=
  match w with
  | .w64 => even7 n
  | _ => true

/-- A class 2 instruction: the operands of WIDTH 3 are even (R134), the width is one of those given (R86). -/
def vecOk (ws : List Width) (w : Width) (a b : VReg) (c : VSrc) : Bool :=
  ws.contains w && even64 w a && even64 w b && c.evenIf64 w

def vecOk1 (ws : List Width) (w : Width) (a b : VReg) : Bool :=
  ws.contains w && even64 w a && even64 w b

def allWidths : List Width := [.w32, .w16, .w8, .w64]
def packWidths : List Width := [.w32, .w16, .w8]
def bitWidths : List Width := [.w32, .w64]

/-- R163: whether a conversion type is an integer. -/
def CvtTy.isInt : CvtTy → Bool
  | .i32 | .n32 | .i64 | .n64 => true
  | _ => false

def CvtTy.is64 : CvtTy → Bool
  | .i64 | .n64 => true
  | _ => false

/-- R163, R166, R167: whether a packed format has elements of 16 bits. -/
def PackFmt.is16 : PackFmt → Bool
  | .fp16 | .bf16 | .i16 | .n16 => true
  | _ => false

def PackFmt.regOk (k : PackFmt) (n : VReg) : Bool :=
  if k.is16 then n.toNat % 2 == 0 else n.toNat % 4 == 0

/-- Selectors of R29. -/
def selKnown (s : BitVec 7) : Bool :=
  [0, 1, 2, 3, 4, 5, 6, 7, 8, 9, 10, 16, 17, 18, 19, 20, 24, 25, 26, 27, 28, 32, 33, 34].contains s.toNat

/-- R204: the selectors that RDSR.S may read at a scope. -/
def selAt (s : BitVec 7) (l : Lvl) : Bool :=
  match l with
  | .g => selKnown s && s.toNat != 0 && s.toNat != 0x22
  | .t => [3, 4, 5, 6, 7, 8, 9, 10, 18, 19, 24, 25, 26, 27, 28, 32, 33].contains s.toNat
  | .d => [24, 25, 26, 27, 28].contains s.toNat

def AType.is64 : AType → Bool
  | .i64 | .n64 => true
  | _ => false

/-- The operand rules of R92, step 5 of R93, and the legal combinations of an opcode's parts (step 3). -/
def Instr.wf : Instr → Bool
  | .nop _ | .brm _ _ _ _ _ | .jmp _ _ | .call _ _ | .ret _ | .next _ | .brk _ _ | .skip _ _ | .exit
  | .end_ _ | .revote _ | .fret _ | .win _ | .trap _ _ => true
  | .yield sc => sc != .d
  | .brZ sc a _ | .brNz sc a _ | .loop sc a _ => a.readAt sc
  | .jmpr sc b | .callr sc b => b.readAt sc
  | .sadd a b c | .ssub a b c | .smul a b c | .smulhI64 a b c | .smulhN64 a b c | .sand a b c | .sor a b c
  | .sxor a b c | .sshl a b c | .sshr a b c | .ssar a b c | .sminI64 a b c | .sminN64 a b c | .smaxI64 a b c
  | .smaxN64 a b c | .scmpI64 _ a b c | .scmpN64 _ a b c => scalarOk a b c
  | .ssel a b c => b.readAt a.lvl && c.readAt a.lvl
  | .smov a b => b.readAt a.lvl
  | .smovi _ _ | .slui _ _ => true
  | .saddi a b _ => b.readAt a.lvl
  | .iadd w a b c | .isub w a b c | .iminI w a b c | .iminN w a b c | .imaxI w a b c | .imaxN w a b c
  | .and w a b c | .or w a b c | .xor w a b c | .shl w a b c | .shr w a b c | .sar w a b c =>
    vecOk allWidths w a b c
  | .iaddsI w a b c | .iaddsN w a b c | .isubsI w a b c | .isubsN w a b c => vecOk packWidths w a b c
  | .imul w a b c => vecOk [.w32, .w16, .w64] w a b c
  | .imulhI w a b c | .imulhN w a b c | .imad w a b c => vecOk [.w32, .w16] w a b c
  | .iabs w a b => vecOk1 packWidths w a b
  | .bfxI w a b _ | .bfxN w a b _ | .bfi w a b _ => vecOk1 bitWidths w a b
  | .popc w a b | .clz w a b | .mov w a b => vecOk1 bitWidths w a b
  | .sel w a b c => vecOk bitWidths w a b c
  | .movVs w a _ => bitWidths.contains w && even64 w a
  | .movi _ _ => true
  | .icmp _ _ w _ b c => even64 w b && c.evenIf64 w
  | .fcmp _ _ _ _ | .ftst _ _ _ | .mand _ _ _ | .mor _ _ _ | .mxor _ _ _ | .mandn _ _ _ | .mnot _ _ | .mmov _ _
  | .mset _ _ | .mget _ _ | .mpop _ _ | .mfirst _ _ => true
  | .fadd _ _ _ | .fsub _ _ _ | .fmul _ _ _ | .ffma _ _ _ | .fmin _ _ _ | .fmax _ _ _ | .frnd _ _ | .fclass _ _
  | .hadd2 _ _ _ _ | .hmul2 _ _ _ _ | .hfma2 _ _ _ _ | .hmax2 _ _ _ _ => true
  | .cvt dst src a b =>
    dst != src && !(dst.isInt && src.isInt) && (!dst.is64 || even7 a) && (!src.is64 || even7 b)
  | .pack k _ b => k.regOk b
  | .unpk k a _ => k.regOk a
  | .exp2 _ _ | .log2 _ _ | .rcp _ _ | .rsq _ _ | .sqrt _ _ | .sint _ _ | .cost _ _ | .tanh _ _
  | .shfl _ _ _ _ | .bcast _ _ _ | .red _ _ _ | .scan _ _ _ | .voteAny _ _ | .voteAll _ _ | .voteEq _ _
  | .ballot _ _ | .sample _ _ _ => true
  | .ld t a b _ | .st t a b _ => t.regOk a && even7 b
  | .ldAcq t a b _ | .stRel t a b _ => t.regOk a && even7 b
  | .atom _ t a b r s => (!t.is64 || even7 a) && even7 b && (r != .plain || s == .grp)
  | .cas r s _ b _ => even7 b && (r != .plain || s == .grp)
  | .casW64 r s a b c => even7 a && even7 b && even7 c && (r != .plain || s == .grp)
  | .ldbR t a b _ | .ldbS t a b _ => t.regOk a && even7 b
  | .lds _ a b _ | .sts _ a b _ => b.readAt a.lvl
  | .fence r _ => r != .plain
  | .pref b _ | .cinv b _ | .cflush b _ => even7 b
  | .ldp t a _ _ | .stp t a _ _ => t.regOk a
  | .atompI32 _ _ _ _ | .atompN32 _ _ _ _ => true
  | .ldpr t a b _ | .stpr t a b _ => t.regOk a && even7 b
  | .mmldb _ _ _ _ | .mmzero _ _ | .amov _ _ | .anrw _ _ _ | .rqt _ _ _ => true
  | .mmloop _ b _ | .qtile _ b _ => b.even
  | .tcopy a b | .tcopyMAll a b _ | .tcopyMJoin a b _ => a.toNat % 8 == 0 && even7 b
  | .binit _ _ | .bexp _ _ | .bwait _ _ | .btest _ _ _ | .feedget _ _ | .feedput _ _ | .feedpop _ _ | .feedrel _ _ =>
    true
  | .barv _ _ n => n != 0
  | .dlv t a b _ => (t == .b32 || t == .b64 || t == .b128) && t.regOk a && even7 b
  | .hamset _ _ _ | .hamand _ _ _ => true
  | .ring _ _ n | .bellr _ n | .bellw _ n => n != 0
  | .rdsrV p a s => selKnown s && (!p || even7 a)
  | .rdsrS a s => selAt s a.lvl
  | .wrsrV _ s => s.toNat == 0x22
  | .wrsrS _ s => s.toNat == 0x14 || s.toNat == 0x21
  | .launchT _ => true
  | .launchD b => b.readAt .d
  | .mapf _ _ | .tlbiPage _ | .tlbiCtx => true
  | _ => false

end Sys2Proof
end

