-- ==== Sys2Proof/Decode.lean ====
section
/-! DEFINITION. Decoding a 32-bit instruction word (R74 to R92), and the encoder. The decoder reads the opcode
and the fields; a word whose reserved parts are not zero differs from the encoding of what was read, and is
rejected by `.fields` (R75, R76). -/

namespace Sys2Proof

/-! ### Fields (R74) -/

def opOf (w : W32) : Nat := (w.extractLsb' 21 11).toNat
def fieldA (w : W32) : BitVec 7 := w.extractLsb' 14 7
def fieldB (w : W32) : BitVec 7 := w.extractLsb' 7 7
def fieldC (w : W32) : BitVec 7 := w.extractLsb' 0 7

/-- An instruction word from its opcode and fields. -/
def mkWord (op : Nat) (a b c : BitVec 7) : W32 := BitVec.ofNat 11 op ++ (a ++ (b ++ c))

/-- The 14-bit immediate or displacement in fields B and C. -/
def imm14 (b c : BitVec 7) : BitVec 14 := b ++ c
def immHi (d : BitVec 14) : BitVec 7 := d.extractLsb' 7 7
def immLo (d : BitVec 14) : BitVec 7 := d.extractLsb' 0 7

/-- The S operand space (R76). -/
def sregOf (f : BitVec 7) : SReg :=
  if f.toNat < 64 then .s (f.extractLsb' 0 6)
  else if f.toNat < 96 then .k (f.extractLsb' 0 5)
  else .g (f.extractLsb' 0 5)

def SReg.field : SReg → BitVec 7
  | .s n => n.zeroExtend 7
  | .k n => (0b10#2) ++ n
  | .g n => (0b11#2) ++ n

def mregOf (f : BitVec 7) : MReg := f.extractLsb' 0 4
def hregOf (f : BitVec 7) : HReg := f.extractLsb' 0 3
def sidxOf (f : BitVec 7) : SIdx := f.extractLsb' 0 6

/-! ### Codes of the fields -/


/-- Scope codes G, T and D (R84). -/
def Lvl.code : Lvl → Nat
  | .g => 1
  | .t => 2
  | .d => 3

def lvlOf : Nat → Option Lvl
  | 1 => some .g
  | 2 => some .t
  | 3 => some .d
  | _ => none

/-- CMP codes (R85). -/
def Cmp.code : Cmp → Nat
  | .eq => 0
  | .ne => 1
  | .lt => 2
  | .le => 3
  | .gt => 4
  | .ge => 5

def cmpOf : Nat → Option Cmp
  | 0 => some .eq
  | 1 => some .ne
  | 2 => some .lt
  | 3 => some .le
  | 4 => some .gt
  | 5 => some .ge
  | _ => none

/-- FCMP conditions (R87). -/
def FCond.code : FCond → Nat
  | .eq => 0
  | .ne => 1
  | .lt => 2
  | .le => 3
  | .gt => 4
  | .ge => 5
  | .un => 6

def fcondOf : Nat → Option FCond
  | 0 => some .eq
  | 1 => some .ne
  | 2 => some .lt
  | 3 => some .le
  | 4 => some .gt
  | 5 => some .ge
  | 6 => some .un
  | _ => none

/-- WIDTH codes (R86). -/
def Width.code : Width → Nat
  | .w32 => 0
  | .w16 => 1
  | .w8 => 2
  | .w64 => 3

def widthOf : Nat → Option Width
  | 0 => some .w32
  | 1 => some .w16
  | 2 => some .w8
  | 3 => some .w64
  | _ => none

/-- FMT codes of the packed forms (R88). -/
def PFmt.code : PFmt → Nat
  | .fp16 => 1
  | .bf16 => 2

def pfmtOf : Nat → Option PFmt
  | 1 => some .fp16
  | 2 => some .bf16
  | _ => none

/-- PACK format codes (R166). -/
def PackFmt.code : PackFmt → Nat
  | .fp16 => 0
  | .bf16 => 1
  | .e4m3 => 2
  | .e5m2 => 3
  | .i16 => 4
  | .n16 => 5
  | .i8 => 6
  | .n8 => 7

def packOf : Nat → Option PackFmt
  | 0 => some .fp16
  | 1 => some .bf16
  | 2 => some .e4m3
  | 3 => some .e5m2
  | 4 => some .i16
  | 5 => some .n16
  | 6 => some .i8
  | 7 => some .n8
  | _ => none

/-- SHFL modes (R89). -/
def ShflMode.code : ShflMode → Nat
  | .idx => 0
  | .up => 1
  | .down => 2
  | .xor => 3

def shflOf : Nat → Option ShflMode
  | 0 => some .idx
  | 1 => some .up
  | 2 => some .down
  | 3 => some .xor
  | _ => none

/-- ROP codes (R89). -/
def Rop.code : Rop → Nat
  | .addI32 => 0
  | .minI32 => 1
  | .maxI32 => 2
  | .minN32 => 3
  | .maxN32 => 4
  | .and => 5
  | .or => 6
  | .xor => 7
  | .fadd => 8
  | .fmin => 9
  | .fmax => 10

def ropOf : Nat → Option Rop
  | 0 => some .addI32
  | 1 => some .minI32
  | 2 => some .maxI32
  | 3 => some .minN32
  | 4 => some .maxN32
  | 5 => some .and
  | 6 => some .or
  | 7 => some .xor
  | 8 => some .fadd
  | 9 => some .fmin
  | 10 => some .fmax
  | _ => none

/-- MTYPE codes (R90). -/
def MType.code : MType → Nat
  | .n8 => 0
  | .i8 => 1
  | .n16 => 2
  | .i16 => 3
  | .b32 => 4
  | .b64 => 5
  | .b128 => 6

def mtypeOf : Nat → Option MType
  | 0 => some .n8
  | 1 => some .i8
  | 2 => some .n16
  | 3 => some .i16
  | 4 => some .b32
  | 5 => some .b64
  | 6 => some .b128
  | _ => none

/-- STYPE codes (R90). -/
def SType.code : SType → Nat
  | .n8 => 0
  | .i8 => 1
  | .n16 => 2
  | .i16 => 3
  | .n32 => 4
  | .i32 => 5
  | .b64 => 6

def stypeOf : Nat → Option SType
  | 0 => some .n8
  | 1 => some .i8
  | 2 => some .n16
  | 3 => some .i16
  | 4 => some .n32
  | 5 => some .i32
  | 6 => some .b64
  | _ => none

/-- AOP codes (R90). -/
def AOp.code : AOp → Nat
  | .add => 0
  | .min => 1
  | .max => 2
  | .and => 3
  | .or => 4
  | .xor => 5
  | .exch => 6

def aopOf : Nat → Option AOp
  | 0 => some .add
  | 1 => some .min
  | 2 => some .max
  | 3 => some .and
  | 4 => some .or
  | 5 => some .xor
  | 6 => some .exch
  | _ => none

/-- ATYPE codes (R90). -/
def AType.code : AType → Nat
  | .i32 => 0
  | .n32 => 1
  | .i64 => 2
  | .n64 => 3

def atypeOf : Nat → Option AType
  | 0 => some .i32
  | 1 => some .n32
  | 2 => some .i64
  | 3 => some .n64
  | _ => none

/-- ORD codes (R90). -/
def Ord.code : Ord → Nat
  | .plain => 0
  | .acq => 1
  | .rel => 2
  | .acqrel => 3

def ordOf : Nat → Option Ord
  | 0 => some .plain
  | 1 => some .acq
  | 2 => some .rel
  | 3 => some .acqrel
  | _ => none

/-- SCOPE codes (R90). -/
def MScope.code : MScope → Nat
  | .grp => 0
  | .team => 1
  | .clu => 2
  | .dev => 3
  | .sys => 4

def mscopeOf : Nat → Option MScope
  | 0 => some .grp
  | 1 => some .team
  | 2 => some .clu
  | 3 => some .dev
  | 4 => some .sys
  | _ => none

/-- A scope field whose unassigned codes the reserved-field check rejects. -/
def mscopeD (n : Nat) : MScope := (mscopeOf n).getD .grp
def ordD (n : Nat) : Ord := (ordOf n).getD .plain
def packD (n : Nat) : PackFmt := (packOf n).getD .fp16

/-- The conversion code of CVT (R163): [6:4] source, [3:1] destination, [0] unsigned. -/
def cvtTyOf (code : Nat) (unsigned : Bool) : CvtTy :=
  match code with
  | 0 => .fp32
  | 1 => .fp16
  | 2 => .bf16
  | 3 => .e4m3
  | 4 => .e5m2
  | 5 => if unsigned then .n32 else .i32
  | _ => if unsigned then .n64 else .i64

def CvtTy.code : CvtTy → Nat
  | .fp32 => 0
  | .fp16 => 1
  | .bf16 => 2
  | .e4m3 => 3
  | .e5m2 => 4
  | .i32 | .n32 => 5
  | .i64 | .n64 => 6

def CvtTy.unsigned : CvtTy → Bool
  | .n32 | .n64 => true
  | _ => false

def cvtField (dst src : CvtTy) : BitVec 7 :=
  BitVec.ofNat 7 (src.code * 16 + dst.code * 2 + (if dst.unsigned || src.unsigned then 1 else 0))

/-- A second source of class 1: the form bits OP[7:6] and the register field (R139). -/
def ssrcOf (form : Nat) (f : BitVec 7) : Option SSrc :=
  match form with
  | 0 => some (.s (sregOf f))
  | 1 => some (.v f)
  | 2 => some (.vp f)
  | _ => none

def SSrc.form : SSrc → Nat
  | .s _ => 0
  | .v _ => 1
  | .vp _ => 2

def SSrc.field : SSrc → BitVec 7
  | .s r => r.field
  | .v n => n
  | .vp n => n

/-- The C operand of a vector instruction (R133). -/
def vsrcOf (vs : Nat) (f : BitVec 7) : VSrc := if vs = 0 then .v f else .s (sregOf f)

def VSrc.vs : VSrc → Nat
  | .v _ => 0
  | .s _ => 1

def VSrc.field : VSrc → BitVec 7
  | .v n => n
  | .s r => r.field

/-- The offset field of plain LD and ST (R90, R179). -/
def ldoffOf (f : BitVec 7) : LdOff :=
  if f.toNat < 64 then .imm (f.extractLsb' 0 6) else .reg (f.extractLsb' 0 6)

def LdOff.field : LdOff → BitVec 7
  | .imm n => (0b0#1) ++ n
  | .reg n => (0b1#1) ++ n

def bit (b : Bool) : Nat := if b then 1 else 0
def f7 (n : Nat) : BitVec 7 := BitVec.ofNat 7 n

/-! ### Reading an opcode by class -/

/-- Class 0 (R84): index and scope. -/
def rawControl (idx sc : Nat) (a b c : BitVec 7) : Option Instr :=
  let d := imm14 b c
  match idx, lvlOf sc with
  | 13, none => if sc = 0 then some (.skip (mregOf a) d) else none
  | 14, none => if sc = 0 then some .exit else none
  | 1, some l => some (.nop l)
  | 2, some l => some (.brZ l (sregOf a) d)
  | 3, some l => some (.brNz l (sregOf a) d)
  | 4, some l => some (.brm l (a.getLsbD 4) (a.getLsbD 5) (mregOf a) d)
  | 5, some l => some (.jmp l d)
  | 6, some l => some (.jmpr l (sregOf b))
  | 7, some l => some (.call l d)
  | 8, some l => some (.callr l (sregOf b))
  | 9, some l => some (.ret l)
  | 10, some l => some (.loop l (sregOf a) d)
  | 11, some l => some (.next l)
  | 12, some l => some (.brk l d)
  | 15, some l => some (.end_ l)
  | 16, some l => some (.revote l)
  | 17, some l => some (.fret l)
  | 18, some .g => some (.win (c.extractLsb' 0 3))
  | 19, some .g => some (.yield .g)
  | 19, some .t => some (.yield .t)
  | 20, some l => some (.trap l d)
  | _, _ => none

/-- Class 1 (R85, R139): `sub` is OP[5:0] and `form` OP[7:6]. -/
def rawScalar (sub form : Nat) (a b c : BitVec 7) : Option Instr :=
  let ra := sregOf a
  let rb := sregOf b
  let two (k : SReg → SReg → SSrc → Instr) : Option Instr := (ssrcOf form c).map (k ra rb)
  match sub with
  | 1 => two .sadd
  | 2 => two .ssub
  | 3 => two .smul
  | 4 => two .smulhI64
  | 5 => two .smulhN64
  | 6 => two .sand
  | 7 => two .sor
  | 8 => two .sxor
  | 9 => two .sshl
  | 10 => two .sshr
  | 11 => two .ssar
  | 12 => two .sminI64
  | 13 => two .sminN64
  | 14 => two .smaxI64
  | 15 => two .smaxN64
  | 16 => two (.scmpI64 .eq)
  | 17 => two (.scmpI64 .ne)
  | 18 => two (.scmpI64 .lt)
  | 19 => two (.scmpI64 .le)
  | 20 => two (.scmpI64 .gt)
  | 21 => two (.scmpI64 .ge)
  | 24 => two (.scmpN64 .eq)
  | 25 => two (.scmpN64 .ne)
  | 26 => two (.scmpN64 .lt)
  | 27 => two (.scmpN64 .le)
  | 28 => two (.scmpN64 .gt)
  | 29 => two (.scmpN64 .ge)
  | 32 => if form = 0 then some (.ssel ra rb (sregOf c)) else none
  | 33 => (ssrcOf form b).map (.smov ra)
  | 34 => if form = 0 then some (.smovi ra (imm14 b c)) else none
  | 35 => if form = 0 then some (.slui ra (imm14 b c)) else none
  | 36 => if form = 0 then some (.saddi ra rb c) else none
  | _ => none

/-- Class 2 (R86): index, VS and WIDTH. -/
def rawVector (idx vs : Nat) (w : Width) (a b c : BitVec 7) : Option Instr :=
  let y := vsrcOf vs c
  let three (ws : List Width) (k : Width → VReg → VReg → VSrc → Instr) : Option Instr :=
    if ws.contains w then some (k w a b y) else none
  let one (ws : List Width) (k : Width → VReg → VReg → Instr) : Option Instr :=
    if ws.contains w && vs == 0 then some (k w a b) else none
  let ctl (k : Width → VReg → VReg → VReg → Instr) : Option Instr :=
    if bitWidths.contains w && vs == 0 then some (k w a b c) else none
  match idx with
  | 0 => three allWidths .iadd
  | 1 => three allWidths .isub
  | 2 => three packWidths .iaddsI
  | 3 => three packWidths .iaddsN
  | 4 => three packWidths .isubsI
  | 5 => three packWidths .isubsN
  | 6 => three [.w32, .w16, .w64] .imul
  | 7 => three [.w32, .w16] .imulhI
  | 8 => three [.w32, .w16] .imulhN
  | 9 => three [.w32, .w16] .imad
  | 10 => three allWidths .iminI
  | 11 => three allWidths .iminN
  | 12 => three allWidths .imaxI
  | 13 => three allWidths .imaxN
  | 15 => three allWidths .and
  | 16 => three allWidths .or
  | 17 => three allWidths .xor
  | 18 => three allWidths .shl
  | 19 => three allWidths .shr
  | 20 => three allWidths .sar
  | 26 => three bitWidths .sel
  | 14 => one packWidths .iabs
  | 24 => one bitWidths .popc
  | 25 => one bitWidths .clz
  | 21 => ctl .bfxI
  | 22 => ctl .bfxN
  | 23 => ctl .bfi
  | 27 => if bitWidths.contains w then some (if vs = 0 then .mov w a b else .movVs w a (sregOf c)) else none
  | 28 => if w == .w32 && vs == 0 then some (.movi a (imm14 b c)) else none
  | _ => none

/-- Class 3 (R87): `sub` is OP[7:0]. -/
def rawMask (sub : Nat) (a b c : BitVec 7) : Option Instr :=
  let ma := mregOf a
  let mb := mregOf b
  if sub < 0x80 then
    match cmpOf (sub / 16), widthOf (sub % 4) with
    | some k, some w => some (.icmp k (sub / 8 % 2 == 1) w ma b (vsrcOf (sub / 4 % 2) c))
    | _, _ => none
  else if sub < 0xA0 then
    match fcondOf ((sub - 0x80) / 4) with
    | some k => if sub % 2 = 0 then some (.fcmp k ma b (vsrcOf (sub / 2 % 2) c)) else none
    | none => none
  else
    match sub with
    | 0xA0 => some (.ftst ma b c)
    | 0xB0 => some (.mand ma mb (mregOf c))
    | 0xB1 => some (.mor ma mb (mregOf c))
    | 0xB2 => some (.mxor ma mb (mregOf c))
    | 0xB3 => some (.mandn ma mb (mregOf c))
    | 0xB4 => some (.mnot ma mb)
    | 0xB5 => some (.mmov ma mb)
    | 0xB6 => some (.mset ma (sregOf b))
    | 0xB7 => some (.mget (sidxOf a) mb)
    | 0xB8 => some (.mpop (sidxOf a) mb)
    | 0xB9 => some (.mfirst (sidxOf a) mb)
    | _ => none

/-- Class 4 (R88): index, VS and FMT. -/
def rawFloat (idx vs fmt : Nat) (a b c : BitVec 7) : Option Instr :=
  let y := vsrcOf vs c
  match fmt with
  | 0 =>
    match idx with
    | 0 => some (.fadd a b y)
    | 1 => some (.fsub a b y)
    | 2 => some (.fmul a b y)
    | 3 => some (.ffma a b y)
    | 4 => some (.fmin a b y)
    | 5 => some (.fmax a b y)
    | 6 => if vs = 0 then some (.frnd a b) else none
    | 7 => if vs = 0 then some (.fclass a b) else none
    | _ => none
  | fmt =>
    match pfmtOf fmt, vs with
    | some f, 0 =>
      match idx with
      | 0 => some (.hadd2 f a b c)
      | 2 => some (.hmul2 f a b c)
      | 3 => some (.hfma2 f a b c)
      | 5 => some (.hmax2 f a b c)
      | _ => none
    | _, _ => none

/-- Class 5 (R89): `sub` is OP[7:0]. -/
def rawLane (sub : Nat) (a b c : BitVec 7) : Option Instr :=
  if 0x20 ≤ sub && sub < 0x28 then (shflOf (sub % 4)).map fun m => .shfl m a b (vsrcOf (sub / 4 % 2) c)
  else if 0x30 ≤ sub && sub < 0x40 then (ropOf (sub % 16)).map fun r => .red r a b
  else if 0x40 ≤ sub && sub < 0x50 then (ropOf (sub % 16)).map fun r => .scan r a b
  else
    match sub with
    | 0x00 => some (.cvt (cvtTyOf (c.toNat / 2 % 8) (c.getLsbD 0)) (cvtTyOf (c.toNat / 16) (c.getLsbD 0)) a b)
    | 0x01 => some (.pack (packD c.toNat) a b)
    | 0x02 => some (.unpk (packD c.toNat) a b)
    | 0x10 => some (.exp2 a b)
    | 0x11 => some (.log2 a b)
    | 0x12 => some (.rcp a b)
    | 0x13 => some (.rsq a b)
    | 0x14 => some (.sqrt a b)
    | 0x15 => some (.sint a b)
    | 0x16 => some (.cost a b)
    | 0x17 => some (.tanh a b)
    | 0x28 => some (.bcast a b c)
    | 0x50 => some (.voteAny (sidxOf a) b)
    | 0x51 => some (.voteAll (sidxOf a) b)
    | 0x52 => some (.voteEq (sidxOf a) b)
    | 0x54 => some (.ballot (mregOf a) b)
    | 0x60 => some (.sample a b (sregOf c))
    | _ => none

/-- Class 6 (R90): `sub` is OP[7:0]. -/
def rawMemory (sub : Nat) (a b c : BitVec 7) : Option Instr :=
  let n := c.extractLsb' 0 3
  let sc := mscopeD (c.toNat % 8)
  if sub < 0x20 then
    (mtypeOf (sub / 4)).bind fun t =>
      match sub % 4 with
      | 0 => some (.ld t a b (ldoffOf c))
      | 1 => some (.ldAcq t a b sc)
      | _ => none
  else if sub < 0x40 then
    (mtypeOf (sub / 4 % 8)).bind fun t =>
      match sub % 4 with
      | 0 => some (.st t a b (ldoffOf c))
      | 2 => some (.stRel t a b sc)
      | _ => none
  else if sub < 0x60 then
    match aopOf (sub / 4 % 8), atypeOf (sub % 4) with
    | some o, some t => some (.atom o t a b (ordD (c.toNat / 8 % 4)) sc)
    | _, _ => none
  else if sub < 0xA0 then
    match ordOf (sub / 8 % 4), mscopeOf (sub % 8) with
    | some r, some s =>
      if r == .plain && s != .grp then none
      else some (if sub < 0x80 then .cas r s a b c else .casW64 r s a b c)
    | _, _ => none
  else
    match sub / 8, sub % 8 with
    | 0x14, k => (mtypeOf k).map fun t => .ldbR t a b n
    | 0x16, k => (mtypeOf k).map fun t => .ldbS t a b n
    | 0x17, k => (stypeOf k).map fun t => .lds t (sregOf a) (sregOf b) c
    | 0x18, k => (stypeOf k).map fun t => .sts t (sregOf a) (sregOf b) c
    | 0x19, 0 => some (.fence (ordD (c.toNat / 8 % 4)) sc)
    | 0x19, 1 => some (.pref b (c.getLsbD 0))
    | 0x19, 2 => some (.cinv b sc)
    | 0x19, 3 => some (.cflush b sc)
    | 0x1A, k => (mtypeOf k).map fun t => .ldp t a b n
    | 0x1B, k => (mtypeOf k).map fun t => .stp t a b n
    | 0x1C, k => (aopOf k).map fun o => .atompI32 o a b n
    | 0x1D, k => (aopOf k).map fun o => .atompN32 o a b n
    | 0x1E, k => (mtypeOf k).map fun t => .ldpr t a b n
    | 0x1F, k => (mtypeOf k).map fun t => .stpr t a b n
    | _, _ => none

/-- Class 7 (R91): `sub` is OP[7:0]. -/
def rawSystem (sub : Nat) (a b c : BitVec 7) : Option Instr :=
  let n := c.extractLsb' 0 3
  let bell := c.extractLsb' 0 6
  match sub with
  | 0x00 => some (.mmldb (sregOf a) (sregOf b) (c.extractLsb' 3 3) n)
  | 0x01 => some (.mmloop a (sregOf b) n)
  | 0x02 => some (.mmzero (a.extractLsb' 0 4) (c.extractLsb' 0 4))
  | 0x03 => some (.amov a b)
  | 0x04 => some (.anrw a b (sregOf c))
  | 0x05 => some (.qtile (sregOf a) (sregOf b) n)
  | 0x06 => some (.rqt (sregOf a) (sregOf b) (c.getLsbD 0))
  | 0x20 => some (.tcopy a b)
  | 0x21 => some (.tcopyMAll a b (hregOf c))
  | 0x22 => some (.tcopyMJoin a b (hregOf c))
  | 0x28 => some (.binit (sregOf b) (sregOf c))
  | 0x29 => some (.barv (sidxOf a) (sregOf b) c)
  | 0x2A => some (.bexp (sregOf b) (sregOf c))
  | 0x2B => some (.bwait (sregOf b) (sregOf c))
  | 0x2C => some (.btest (sidxOf a) (sregOf b) (sregOf c))
  | 0x30 => some (.feedget (sidxOf a) (hregOf b))
  | 0x31 => some (.feedput (hregOf b) (sregOf c))
  | 0x32 => some (.feedpop (sidxOf a) (hregOf b))
  | 0x33 => some (.feedrel (hregOf b) (sregOf c))
  | 0x44 => some (.dlv .b32 a b (hregOf c))
  | 0x45 => some (.dlv .b64 a b (hregOf c))
  | 0x46 => some (.dlv .b128 a b (hregOf c))
  | 0x48 => some (.hamset (hregOf a) (sregOf b) (sregOf c))
  | 0x49 => some (.hamand (hregOf a) (hregOf b) (hregOf c))
  | 0x50 => some (.ring (sidxOf a) (sregOf b) bell)
  | 0x51 => some (.bellr (sidxOf a) bell)
  | 0x52 => some (.bellw (sregOf b) bell)
  | 0x60 => some (.rdsrV (b.getLsbD 0) a c)
  | 0x61 => some (.rdsrS (sregOf a) c)
  | 0x62 => some (.wrsrV b c)
  | 0x63 => some (.wrsrS (sregOf b) c)
  | 0x64 => some (.launchT (sregOf b))
  | 0x65 => some (.launchD (sregOf b))
  | 0x70 => some (.mapf (sidxOf a) (sregOf b))
  | 0x71 => some (if c.getLsbD 0 then .tlbiCtx else .tlbiPage (sregOf b))
  | _ => none

/-- R83: the class is OP[10:8]. None where the opcode is unassigned, a prefix or permanently illegal. -/
def rawOp (op : Nat) (a b c : BitVec 7) : Option Instr :=
  match op / 256 with
  | 0 => rawControl (op / 4 % 64) (op % 4) a b c
  | 1 => rawScalar (op % 64) (op / 64 % 4) a b c
  | 2 => (widthOf (op % 4)).bind fun w => rawVector (op / 8 % 32) (op / 4 % 2) w a b c
  | 3 => rawMask (op % 256) a b c
  | 4 => rawFloat (op / 8 % 32) (op / 4 % 2) (op % 4) a b c
  | 5 => rawLane (op % 256) a b c
  | 6 => rawMemory (op % 256) a b c
  | 7 => rawSystem (op % 256) a b c
  | _ => none

def raw (w : W32) : Option Instr := rawOp (opOf w) (fieldA w) (fieldB w) (fieldC w)

/-! ### The encoder -/

/-- A class 1 word with two sources. -/
def encScalar (sub : Nat) (a b : SReg) (c : SSrc) : W32 :=
  mkWord (0x100 + c.form * 64 + sub) a.field b.field c.field

/-- A class 2 word. -/
def encVector (idx : Nat) (w : Width) (a b : VReg) (c : VSrc) : W32 :=
  mkWord (0x200 + idx * 8 + c.vs * 4 + w.code) a b c.field

def encVector1 (idx : Nat) (w : Width) (a b c : VReg) : W32 :=
  mkWord (0x200 + idx * 8 + w.code) a b c

def encFloat (idx : Nat) (a b : VReg) (c : VSrc) : W32 :=
  mkWord (0x400 + idx * 8 + c.vs * 4) a b c.field

def encControl (idx : Nat) (sc : Lvl) (a b c : BitVec 7) : W32 := mkWord (idx * 4 + sc.code) a b c

/-- A class 6 word whose low opcode bits are a type code. -/
def encMem (base : Nat) (a b c : BitVec 7) : W32 := mkWord (0x600 + base) a b c

/-- The word of an instruction (R83 to R91); 0 for an event, which has none. -/
def encode : Instr → W32
  | .nop sc => encControl 1 sc 0 0 0
  | .brZ sc a d => encControl 2 sc a.field (immHi d) (immLo d)
  | .brNz sc a d => encControl 3 sc a.field (immHi d) (immLo d)
  | .brm sc all not m d => encControl 4 sc (f7 (bit not * 32 + bit all * 16 + m.toNat)) (immHi d) (immLo d)
  | .jmp sc d => encControl 5 sc 0 (immHi d) (immLo d)
  | .jmpr sc b => encControl 6 sc 0 b.field 0
  | .call sc d => encControl 7 sc 0 (immHi d) (immLo d)
  | .callr sc b => encControl 8 sc 0 b.field 0
  | .ret sc => encControl 9 sc 0 0 0
  | .loop sc a d => encControl 10 sc a.field (immHi d) (immLo d)
  | .next sc => encControl 11 sc 0 0 0
  | .brk sc d => encControl 12 sc 0 (immHi d) (immLo d)
  | .skip m d => mkWord 52 (m.zeroExtend 7) (immHi d) (immLo d)
  | .exit => mkWord 56 0 0 0
  | .end_ sc => encControl 15 sc 0 0 0
  | .revote sc => encControl 16 sc 0 0 0
  | .fret sc => encControl 17 sc 0 0 0
  | .win i => encControl 18 .g 0 0 (i.zeroExtend 7)
  | .yield sc => encControl 19 sc 0 0 0
  | .trap sc c => encControl 20 sc 0 (immHi c) (immLo c)
  | .sadd a b c => encScalar 1 a b c
  | .ssub a b c => encScalar 2 a b c
  | .smul a b c => encScalar 3 a b c
  | .smulhI64 a b c => encScalar 4 a b c
  | .smulhN64 a b c => encScalar 5 a b c
  | .sand a b c => encScalar 6 a b c
  | .sor a b c => encScalar 7 a b c
  | .sxor a b c => encScalar 8 a b c
  | .sshl a b c => encScalar 9 a b c
  | .sshr a b c => encScalar 10 a b c
  | .ssar a b c => encScalar 11 a b c
  | .sminI64 a b c => encScalar 12 a b c
  | .sminN64 a b c => encScalar 13 a b c
  | .smaxI64 a b c => encScalar 14 a b c
  | .smaxN64 a b c => encScalar 15 a b c
  | .scmpI64 k a b c => encScalar (16 + k.code) a b c
  | .scmpN64 k a b c => encScalar (24 + k.code) a b c
  | .ssel a b c => mkWord 0x120 a.field b.field c.field
  | .smov a b => mkWord (0x121 + b.form * 64) a.field b.field 0
  | .smovi a i => mkWord 0x122 a.field (immHi i) (immLo i)
  | .slui a i => mkWord 0x123 a.field (immHi i) (immLo i)
  | .saddi a b i => mkWord 0x124 a.field b.field i
  | .iadd w a b c => encVector 0 w a b c
  | .isub w a b c => encVector 1 w a b c
  | .iaddsI w a b c => encVector 2 w a b c
  | .iaddsN w a b c => encVector 3 w a b c
  | .isubsI w a b c => encVector 4 w a b c
  | .isubsN w a b c => encVector 5 w a b c
  | .imul w a b c => encVector 6 w a b c
  | .imulhI w a b c => encVector 7 w a b c
  | .imulhN w a b c => encVector 8 w a b c
  | .imad w a b c => encVector 9 w a b c
  | .iminI w a b c => encVector 10 w a b c
  | .iminN w a b c => encVector 11 w a b c
  | .imaxI w a b c => encVector 12 w a b c
  | .imaxN w a b c => encVector 13 w a b c
  | .and w a b c => encVector 15 w a b c
  | .or w a b c => encVector 16 w a b c
  | .xor w a b c => encVector 17 w a b c
  | .shl w a b c => encVector 18 w a b c
  | .shr w a b c => encVector 19 w a b c
  | .sar w a b c => encVector 20 w a b c
  | .sel w a b c => encVector 26 w a b c
  | .iabs w a b => encVector1 14 w a b 0
  | .popc w a b => encVector1 24 w a b 0
  | .clz w a b => encVector1 25 w a b 0
  | .bfxI w a b c => encVector1 21 w a b c
  | .bfxN w a b c => encVector1 22 w a b c
  | .bfi w a b c => encVector1 23 w a b c
  | .mov w a b => encVector1 27 w a b 0
  | .movVs w a c => mkWord (0x2DC + w.code) a 0 c.field
  | .movi a i => mkWord 0x2E0 a (immHi i) (immLo i)
  | .icmp k n w a b c => mkWord (0x300 + k.code * 16 + bit n * 8 + c.vs * 4 + w.code) (a.zeroExtend 7) b c.field
  | .fcmp k a b c => mkWord (0x380 + k.code * 4 + c.vs * 2) (a.zeroExtend 7) b c.field
  | .ftst a b c => mkWord 0x3A0 (a.zeroExtend 7) b c
  | .mand a b c => mkWord 0x3b0 (a.zeroExtend 7) (b.zeroExtend 7) (c.zeroExtend 7)
  | .mor a b c => mkWord 0x3b1 (a.zeroExtend 7) (b.zeroExtend 7) (c.zeroExtend 7)
  | .mxor a b c => mkWord 0x3b2 (a.zeroExtend 7) (b.zeroExtend 7) (c.zeroExtend 7)
  | .mandn a b c => mkWord 0x3b3 (a.zeroExtend 7) (b.zeroExtend 7) (c.zeroExtend 7)
  | .mnot a b => mkWord 0x3b4 (a.zeroExtend 7) (b.zeroExtend 7) 0
  | .mmov a b => mkWord 0x3b5 (a.zeroExtend 7) (b.zeroExtend 7) 0
  | .mset a b => mkWord 0x3B6 (a.zeroExtend 7) b.field 0
  | .mget a b => mkWord 0x3b7 (a.zeroExtend 7) (b.zeroExtend 7) 0
  | .mpop a b => mkWord 0x3b8 (a.zeroExtend 7) (b.zeroExtend 7) 0
  | .mfirst a b => mkWord 0x3b9 (a.zeroExtend 7) (b.zeroExtend 7) 0
  | .fadd a b c => encFloat 0 a b c
  | .fsub a b c => encFloat 1 a b c
  | .fmul a b c => encFloat 2 a b c
  | .ffma a b c => encFloat 3 a b c
  | .fmin a b c => encFloat 4 a b c
  | .fmax a b c => encFloat 5 a b c
  | .frnd a b => mkWord 0x430 a b 0
  | .fclass a b => mkWord 0x438 a b 0
  | .hadd2 f a b c => mkWord (0x400 + f.code) a b c
  | .hmul2 f a b c => mkWord (0x410 + f.code) a b c
  | .hfma2 f a b c => mkWord (0x418 + f.code) a b c
  | .hmax2 f a b c => mkWord (0x428 + f.code) a b c
  | .cvt dst src a b => mkWord 0x500 a b (cvtField dst src)
  | .pack k a b => mkWord 0x501 a b (f7 k.code)
  | .unpk k a b => mkWord 0x502 a b (f7 k.code)
  | .exp2 a b => mkWord 0x510 a b 0
  | .log2 a b => mkWord 0x511 a b 0
  | .rcp a b => mkWord 0x512 a b 0
  | .rsq a b => mkWord 0x513 a b 0
  | .sqrt a b => mkWord 0x514 a b 0
  | .sint a b => mkWord 0x515 a b 0
  | .cost a b => mkWord 0x516 a b 0
  | .tanh a b => mkWord 0x517 a b 0
  | .shfl m a b c => mkWord (0x520 + c.vs * 4 + m.code) a b c.field
  | .bcast a b l => mkWord 0x528 a b l
  | .red r a b => mkWord (0x530 + r.code) a b 0
  | .scan r a b => mkWord (0x540 + r.code) a b 0
  | .voteAny a b => mkWord 0x550 (a.zeroExtend 7) b 0
  | .voteAll a b => mkWord 0x551 (a.zeroExtend 7) b 0
  | .voteEq a b => mkWord 0x552 (a.zeroExtend 7) b 0
  | .ballot a b => mkWord 0x554 (a.zeroExtend 7) b 0
  | .sample a b c => mkWord 0x560 a b c.field
  | .ld t a b c => encMem (t.code * 4) a b c.field
  | .ldAcq t a b s => encMem (t.code * 4 + 1) a b (f7 s.code)
  | .st t a b c => encMem (0x20 + t.code * 4) a b c.field
  | .stRel t a b s => encMem (0x20 + t.code * 4 + 2) a b (f7 s.code)
  | .atom o t a b r s => encMem (0x40 + o.code * 4 + t.code) a b (f7 (r.code * 8 + s.code))
  | .cas r s a b c => encMem (0x60 + r.code * 8 + s.code) a b c
  | .casW64 r s a b c => encMem (0x80 + r.code * 8 + s.code) a b c
  | .ldbR t a b n => encMem (0xA0 + t.code) a b (n.zeroExtend 7)
  | .ldbS t a b n => encMem (0xB0 + t.code) a b (n.zeroExtend 7)
  | .lds t a b c => encMem (0xB8 + t.code) a.field b.field c
  | .sts t a b c => encMem (0xC0 + t.code) a.field b.field c
  | .fence r s => encMem 0xC8 0 0 (f7 (r.code * 8 + s.code))
  | .pref b l2 => encMem 0xC9 0 b (f7 (bit l2))
  | .cinv b s => encMem 0xCA 0 b (f7 s.code)
  | .cflush b s => encMem 0xCB 0 b (f7 s.code)
  | .ldp t a b w => encMem (0xd0 + t.code) a b (w.zeroExtend 7)
  | .stp t a b w => encMem (0xd8 + t.code) a b (w.zeroExtend 7)
  | .atompI32 o a b w => encMem (0xe0 + o.code) a b (w.zeroExtend 7)
  | .atompN32 o a b w => encMem (0xe8 + o.code) a b (w.zeroExtend 7)
  | .ldpr t a b w => encMem (0xf0 + t.code) a b (w.zeroExtend 7)
  | .stpr t a b w => encMem (0xf8 + t.code) a b (w.zeroExtend 7)
  | .mmldb a b m n => mkWord 0x700 a.field b.field (f7 (m.toNat * 8 + n.toNat))
  | .mmloop a b m => mkWord 0x701 a b.field (m.zeroExtend 7)
  | .mmzero u n => mkWord 0x702 (u.zeroExtend 7) 0 (n.zeroExtend 7)
  | .amov a b => mkWord 0x703 a b 0
  | .anrw a b c => mkWord 0x704 a b c.field
  | .qtile a b m => mkWord 0x705 a.field b.field (m.zeroExtend 7)
  | .rqt a b row => mkWord 0x706 a.field b.field (f7 (bit row))
  | .tcopy a b => mkWord 0x720 a b 0
  | .tcopyMAll a b h => mkWord 0x721 a b (h.zeroExtend 7)
  | .tcopyMJoin a b h => mkWord 0x722 a b (h.zeroExtend 7)
  | .binit b c => mkWord 0x728 0 b.field c.field
  | .barv a b n => mkWord 0x729 (a.zeroExtend 7) b.field n
  | .bexp b c => mkWord 0x72A 0 b.field c.field
  | .bwait b c => mkWord 0x72B 0 b.field c.field
  | .btest a b c => mkWord 0x72C (a.zeroExtend 7) b.field c.field
  | .feedget a f => mkWord 0x730 (a.zeroExtend 7) (f.zeroExtend 7) 0
  | .feedput f c => mkWord 0x731 0 (f.zeroExtend 7) c.field
  | .feedpop a f => mkWord 0x732 (a.zeroExtend 7) (f.zeroExtend 7) 0
  | .feedrel f c => mkWord 0x733 0 (f.zeroExtend 7) c.field
  | .dlv t a b h => mkWord (0x740 + t.code) a b (h.zeroExtend 7)
  | .hamset a b c => mkWord 0x748 (a.zeroExtend 7) b.field c.field
  | .hamand a b c => mkWord 0x749 (a.zeroExtend 7) (b.zeroExtend 7) (c.zeroExtend 7)
  | .ring a b n => mkWord 0x750 (a.zeroExtend 7) b.field (n.zeroExtend 7)
  | .bellr a n => mkWord 0x751 (a.zeroExtend 7) 0 (n.zeroExtend 7)
  | .bellw b n => mkWord 0x752 0 b.field (n.zeroExtend 7)
  | .rdsrV p a s => mkWord 0x760 a (f7 (bit p)) s
  | .rdsrS a s => mkWord 0x761 a.field 0 s
  | .wrsrV b s => mkWord 0x762 0 b s
  | .wrsrS b s => mkWord 0x763 0 b.field s
  | .launchT b => mkWord 0x764 0 b.field 0
  | .launchD b => mkWord 0x765 0 b.field 0
  | .mapf a b => mkWord 0x770 (a.zeroExtend 7) b.field 0
  | .tlbiPage b => mkWord 0x771 0 b.field 0
  | .tlbiCtx => mkWord 0x771 0 0 1
  | _ => 0

/-! ### Decoding -/

/-- What a word is: an instruction, a prefix (R78), or no instruction, with the reason (R92). -/
inductive Decoded where
  | instr (i : Instr) | prefixWord | illegal (why : IllegalWhy)
  deriving DecidableEq, Repr

/-- Decoding a word, total (R83, R92, R93 steps 3 and 5). -/
def decode (w : W32) : Decoded :=
  if w = 0 then .illegal .zeroWord
  else if opOf w = 0x7FE then .prefixWord
  else if opOf w = 0x7FF then .illegal .opReserved
  else
    match raw w with
    | none => .illegal .unassigned
    | some i => if i.wf && encode i == w then .instr i else .illegal (.fields w)

/-- The bytes of a word as memory holds them, lowest address first (R5). -/
def wordBytes (w : W32) : List Byte :=
  [w.extractLsb' 0 8, w.extractLsb' 8 8, w.extractLsb' 16 8, w.extractLsb' 24 8]

def wordOfBytes : List Byte → W32
  | b0 :: b1 :: b2 :: b3 :: _ => b3 ++ (b2 ++ (b1 ++ b0))
  | _ => 0

/-- The instruction that a table row's word decodes to. A row of the opcode table has 32 bits. -/
def decodeTableWord (nbits w : Nat) : Option Instr :=
  if nbits = 32 then
    match decode (wordOfBytes (wordBytes (BitVec.ofNat 32 w))) with
    | .instr i => some i
    | _ => none
  else none

end Sys2Proof
end

