-- ==== Sys2Proof/Machine/Operands.lean ====
section
/-! DEFINITION. What each instruction reads and writes, by which scope it is executed, what a prefix may set before
it, which features it needs, and its result latency (R68, R77, R81, R94, R101). One table per question, over every
constructor of `Instr`. -/

namespace Sys2Proof

open Sys2Proof.Machine

/-- Register number of an S-space register. -/
def SReg.num : SReg → Nat
  | .s n => n.toNat
  | .k n => n.toNat
  | .g n => n.toNat

/-- The register after an even one of a pair. -/
def SReg.next : SReg → SReg
  | .s n => .s (n + 1)
  | .k n => .k (n + 1)
  | .g n => .g (n + 1)

/-! ### Who executes (R77) -/

/-- The scope whose sequencer executes an instruction. -/
def scopeOf : Instr → Lvl
  | .nop sc | .brZ sc _ _ | .brNz sc _ _ | .brm sc _ _ _ _ | .jmp sc _ | .jmpr sc _ | .call sc _ | .callr sc _
  | .ret sc | .loop sc _ _ | .next sc | .brk sc _ | .end_ sc | .revote sc | .fret sc | .yield sc | .trap sc _ => sc
  | .sadd a _ _ | .ssub a _ _ | .smul a _ _ | .smulhI64 a _ _ | .smulhN64 a _ _ | .sand a _ _ | .sor a _ _
  | .sxor a _ _ | .sshl a _ _ | .sshr a _ _ | .ssar a _ _ | .sminI64 a _ _ | .sminN64 a _ _ | .smaxI64 a _ _
  | .smaxN64 a _ _ | .scmpI64 _ a _ _ | .scmpN64 _ a _ _ | .ssel a _ _ | .smov a _ | .smovi a _ | .slui a _
  | .saddi a _ _ | .lds _ a _ _ | .sts _ a _ _ | .rdsrS a _ => a.lvl
  | .launchT _ => .t
  | .launchD _ => .d
  | _ => .g

/-- R32: faults of SKIP.L and EXIT.L carry scope 0. -/
def laneScope : Instr → Bool
  | .skip _ _ | .exit => true
  | _ => false

def SSrc.sregs : SSrc → List SReg
  | .s r => [r]
  | _ => []

/-- The S-space sources of an instruction, in field order. -/
def sSources : Instr → List SReg
  | .brZ _ a _ | .brNz _ a _ | .loop _ a _ => [a]
  | .jmpr _ b | .callr _ b => [b]
  | .sadd _ b c | .ssub _ b c | .smul _ b c | .smulhI64 _ b c | .smulhN64 _ b c | .sand _ b c | .sor _ b c
  | .sxor _ b c | .sshl _ b c | .sshr _ b c | .ssar _ b c | .sminI64 _ b c | .sminN64 _ b c | .smaxI64 _ b c
  | .smaxN64 _ b c | .scmpI64 _ _ b c | .scmpN64 _ _ b c => b :: c.sregs
  | .ssel _ b c => [b, c]
  | .smov _ b => b.sregs
  | .saddi _ b _ => [b]
  | .lds _ _ b _ | .sts _ _ b _ => [b]
  | .launchT b | .launchD b => [b]
  | _ => []

/-- The sources that a T-scope or D-scope instruction reads by a vote (R101, R102), in field order. -/
def votedRegs (i : Instr) : List SReg :=
  match scopeOf i with
  | .g => []
  | .t => (sSources i).filter fun r => r.lvl == .g
  | .d => (sSources i).filter fun r => r.lvl == .t

/-- What the members report at the slot (R27, R102, R104). -/
def askOf (i : Instr) : Ask :=
  match i with
  | .brm _ _ _ m _ => .mask m.toNat
  | _ => match votedRegs i with
    | [] => .none
    | rs => .regs (rs.map SReg.num)

/-! ### Register use of a group instruction -/

/-- Names of lane registers by how they are used, s and m registers, and whether a governing mask is read. -/
structure Use where
  /-- Every lane register name, in field order: the bound check (R15). -/
  v : List Nat
  /-- Read or written in the active lanes. -/
  va : List Nat
  /-- Written: under MZ in every live lane (R132). -/
  vd : List Nat
  /-- Used in every live lane, and in the live lanes outside the mask. -/
  vl : List Nat
  vi : List Nat
  /-- Read in the lowest active lane alone (R267). -/
  vf : List Nat
  s : List Nat
  m : List Nat
  gov : Bool
  deriving DecidableEq, Repr

def Use.none : Use := ⟨[], [], [], [], [], [], [], [], false⟩

def regs (n : VReg) (count : Nat) : List Nat := (List.range count).map (n.toNat + ·)

def Width.regs : Width → Nat
  | .w64 => 2
  | _ => 1

def MType.regs : MType → Nat
  | .b64 => 2
  | .b128 => 4
  | _ => 1

def AType.regs (t : AType) : Nat := if t.is64 then 2 else 1
def CvtTy.regs (t : CvtTy) : Nat := if t.is64 then 2 else 1
def PackFmt.count (k : PackFmt) : Nat := if k.is16 then 2 else 4

def SReg.own : SReg → List Nat
  | .s n => [n.toNat]
  | _ => []

def VSrc.vregs (c : VSrc) (n : Nat) : List Nat :=
  match c with
  | .v r => regs r n
  | .s _ => []

def VSrc.own : VSrc → List Nat
  | .v _ => []
  | .s r => r.own

/-- A governed lane instruction with destination and source names. -/
def Use.lanes (dst src : List Nat) (s : List Nat := []) (m : List Nat := []) : Use :=
  ⟨dst ++ src, dst ++ src, dst, [], [], [], s, m, true⟩

/-- A governed store: no destination register. -/
def Use.store (src : List Nat) (s : List Nat := []) : Use := ⟨src, src, [], [], [], [], s, [], true⟩

def Use.scal (s : List Nat) (m : List Nat := []) : Use := ⟨[], [], [], [], [], [], s, m, false⟩

def useVec (w : Width) (a b : VReg) (c : VSrc) : Use :=
  .lanes (regs a w.regs) (regs b w.regs ++ c.vregs w.regs) c.own

def useVec1 (w : Width) (a b : VReg) : Use := .lanes (regs a w.regs) (regs b w.regs)

/-- Class 1 with two sources: a lane source is governed by m0 (R139). -/
def useScalar (a b : SReg) (c : SSrc) : Use :=
  match c with
  | .s r => .scal (a.own ++ b.own ++ r.own)
  | .v n => .lanes [] (regs n 1) (a.own ++ b.own)
  | .vp n => .lanes [] (regs n 2) (a.own ++ b.own)

def LdOff.own : LdOff → List Nat
  | .imm _ => []
  | .reg n => [n.toNat]

/-- The registers of an instruction that a group executes; `d4` is the prefix's fourth operand (R82). -/
def useOf (i : Instr) (d4 : Option Nat) : Use :=
  let add (w : Nat) : List Nat := match d4 with
    | none => []
    | some n => (List.range w).map (n + ·)
  match i with
  | .brZ _ a _ | .brNz _ a _ | .loop _ a _ => .scal a.own
  | .brm _ _ _ m _ | .skip m _ => .scal [] [m.toNat]
  | .jmpr _ b | .callr _ b => .scal b.own
  | .exit => ⟨[], [], [], [], [], [], [], [], true⟩
  | .sadd a b c | .ssub a b c | .smul a b c | .smulhI64 a b c | .smulhN64 a b c | .sand a b c | .sor a b c
  | .sxor a b c | .sshl a b c | .sshr a b c | .ssar a b c | .sminI64 a b c | .sminN64 a b c | .smaxI64 a b c
  | .smaxN64 a b c | .scmpI64 _ a b c | .scmpN64 _ a b c => useScalar a b c
  | .ssel a b c => .scal (a.own ++ b.own ++ c.own)
  | .smov a b => match b with
    | .s r => .scal (a.own ++ r.own)
    | .v n => .lanes [] (regs n 1) a.own
    | .vp n => .lanes [] (regs n 2) a.own
  | .smovi a _ | .slui a _ => .scal a.own
  | .saddi a b _ => .scal (a.own ++ b.own)
  | .iadd w a b c | .isub w a b c | .iaddsI w a b c | .iaddsN w a b c | .isubsI w a b c | .isubsN w a b c
  | .imul w a b c | .imulhI w a b c | .imulhN w a b c | .iminI w a b c | .iminN w a b c | .imaxI w a b c
  | .imaxN w a b c | .and w a b c | .or w a b c | .xor w a b c | .shl w a b c | .shr w a b c | .sar w a b c =>
    useVec w a b c
  | .imad w a b c => .lanes (regs a w.regs) (regs b w.regs ++ c.vregs w.regs ++ add w.regs) c.own
  | .iabs w a b | .popc w a b | .clz w a b | .mov w a b => useVec1 w a b
  | .bfxI w a b c | .bfxN w a b c => .lanes (regs a w.regs) (regs b w.regs ++ regs c 1)
  | .bfi w a b c => .lanes (regs a w.regs) (regs b w.regs ++ regs c 1 ++ add w.regs)
  | .sel w a b c =>
    ⟨regs a w.regs ++ regs b w.regs ++ c.vregs w.regs, regs b w.regs, regs a w.regs, regs a w.regs, c.vregs w.regs, [],
      c.own, [], true⟩
  | .movVs w a c => .lanes (regs a w.regs) [] c.own
  | .movi a _ => .lanes (regs a 1) []
  | .icmp _ _ w a b c => .lanes [] (regs b w.regs ++ c.vregs w.regs) c.own [a.toNat]
  | .fcmp _ a b c => .lanes [] (regs b 1 ++ c.vregs 1) c.own [a.toNat]
  | .ftst a b _ => .lanes [] (regs b 1) [] [a.toNat]
  | .mand a b c | .mor a b c | .mxor a b c | .mandn a b c => .scal [] [a.toNat, b.toNat, c.toNat]
  | .mnot a b | .mmov a b => .scal [] [a.toNat, b.toNat]
  | .mset a b => .scal b.own [a.toNat]
  | .mget a b | .mpop a b | .mfirst a b => .scal [a.toNat] [b.toNat]
  | .fadd a b c | .fsub a b c | .fmul a b c | .fmin a b c | .fmax a b c => useVec .w32 a b c
  | .ffma a b c => .lanes (regs a 1) (regs b 1 ++ c.vregs 1 ++ add 1) c.own
  | .frnd a b | .fclass a b => useVec1 .w32 a b
  | .hadd2 _ a b c | .hmul2 _ a b c | .hmax2 _ a b c => .lanes (regs a 1) (regs b 1 ++ regs c 1)
  | .hfma2 _ a b c => .lanes (regs a 1) (regs b 1 ++ regs c 1 ++ add 1)
  | .cvt dst src a b => .lanes (regs a dst.regs) (regs b src.regs)
  | .pack k a b => .lanes (regs a 1) (regs b k.count)
  | .unpk k a b => .lanes (regs a k.count) (regs b 1)
  | .exp2 a b | .log2 a b | .rcp a b | .rsq a b | .sqrt a b | .sint a b | .cost a b | .tanh a b => useVec1 .w32 a b
  | .shfl _ a b c =>
    ⟨regs a 1 ++ regs b 1 ++ c.vregs 1, regs a 1 ++ c.vregs 1, regs a 1, regs b 1, [], [], c.own, [], true⟩
  | .bcast a b _ => ⟨regs a 1 ++ regs b 1, regs a 1, regs a 1, regs b 1, [], [], [], [], true⟩
  | .red _ a b | .scan _ a b => useVec1 .w32 a b
  | .voteAny a b | .voteAll a b | .voteEq a b => .lanes [] (regs b 1) [a.toNat]
  | .ballot a b => .lanes [] (regs b 1) [] [a.toNat]
  | .sample a b c => .lanes (regs a 1) (regs b 1) c.own
  | .ld t a b c => .lanes (regs a t.regs) (regs b 2) c.own
  | .ldAcq t a b _ | .ldbR t a b _ | .ldbS t a b _ => .lanes (regs a t.regs) (regs b 2)
  | .st t a b c => .store (regs a t.regs ++ regs b 2) c.own
  | .stRel t a b _ => .store (regs a t.regs ++ regs b 2)
  | .atom _ t a b _ _ => .lanes (regs a t.regs) (regs b 2)
  | .cas _ _ a b c => .lanes (regs a 1) (regs b 2 ++ regs c 1)
  | .casW64 _ _ a b c => .lanes (regs a 2) (regs b 2 ++ regs c 2)
  | .lds _ a b _ | .sts _ a b _ => .scal (a.own ++ b.own)
  | .pref b _ | .cinv b _ | .cflush b _ => .store (regs b 2)
  | .ldp t a b _ => .lanes (regs a t.regs) (regs b 1)
  | .stp t a b _ => .store (regs a t.regs ++ regs b 1)
  | .atompI32 _ a b _ | .atompN32 _ a b _ => .lanes (regs a 1) (regs b 1)
  | .ldpr t a b _ => .lanes (regs a t.regs) (regs b 2)
  | .stpr t a b _ => .store (regs a t.regs ++ regs b 2)
  | .mmldb a b _ _ => .scal (a.own ++ b.own)
  | .mmloop a b _ => .store (regs a 1) (b.own ++ b.next.own)
  | .amov a b => .store (regs a 1 ++ regs b 1)
  | .anrw a b c => .lanes (regs a 1) (regs b 1) c.own
  | .qtile a b _ => .scal (a.own ++ b.own ++ b.next.own)
  | .rqt a b _ => .scal (a.own ++ b.own)
  | .tcopy a b | .tcopyMAll a b _ | .tcopyMJoin a b _ => ⟨regs a 8 ++ regs b 2, [], [], [], [], regs a 7 ++ regs b 2, [], [], true⟩
  | .binit b c | .bexp b c | .bwait b c => .scal (b.own ++ c.own)
  | .barv a b _ => .scal (a.toNat :: b.own)
  | .btest a b c => .scal (a.toNat :: (b.own ++ c.own))
  | .feedget a _ | .feedpop a _ => .scal [a.toNat]
  | .feedput _ c | .feedrel _ c => .scal c.own
  | .dlv t a b _ => .store (regs a t.regs ++ regs b 2)
  | .hamset _ b c => .scal (b.own ++ c.own)
  | .ring a b _ => .scal (a.toNat :: b.own)
  | .bellr a _ => .scal [a.toNat]
  | .bellw b _ => .scal b.own
  | .rdsrV p a _ => .lanes (regs a (if p then 2 else 1)) []
  | .rdsrS a _ => .scal a.own
  | .wrsrV b _ => .store (regs b 1)
  | .wrsrS b _ => .scal b.own
  | .mapf a b => .scal (a.toNat :: b.own)
  | .tlbiPage b => .scal b.own
  | _ => .none

/-! ### Prefixes (R81) -/

/-- What a prefix before an instruction may set: whether it takes one, MZ, D4, and the values of XMOD. -/
structure PfxRule where
  takes : Bool
  mz : Bool
  d4 : Bool
  xmax : Nat
  deriving DecidableEq, Repr

/-- The limits of the element selectors of CVT (R164). -/
def CvtTy.elems : CvtTy → Nat
  | .fp16 | .bf16 => 2
  | .e4m3 | .e5m2 => 4
  | _ => 1

def CvtTy.is8 : CvtTy → Bool
  | .e4m3 | .e5m2 => true
  | _ => false

def pfxRule : Instr → PfxRule
  | .imad _ _ _ _ | .bfi _ _ _ _ | .ffma _ _ _ | .hfma2 _ _ _ _ => ⟨true, true, true, 1⟩
  | .iadd _ _ _ _ | .isub _ _ _ _ | .iaddsI _ _ _ _ | .iaddsN _ _ _ _ | .isubsI _ _ _ _ | .isubsN _ _ _ _
  | .imul _ _ _ _ | .imulhI _ _ _ _ | .imulhN _ _ _ _ | .iminI _ _ _ _ | .iminN _ _ _ _ | .imaxI _ _ _ _
  | .imaxN _ _ _ _ | .iabs _ _ _ | .and _ _ _ _ | .or _ _ _ _ | .xor _ _ _ _ | .shl _ _ _ _ | .shr _ _ _ _
  | .sar _ _ _ _ | .bfxI _ _ _ _ | .bfxN _ _ _ _ | .popc _ _ _ | .clz _ _ _ | .sel _ _ _ _ | .mov _ _ _
  | .movVs _ _ _ | .movi _ _ => ⟨true, true, false, 1⟩
  | .icmp _ _ w _ _ _ => ⟨true, true, false, match w with | .w16 => 2 | .w8 => 4 | _ => 1⟩
  | .fcmp _ _ _ _ | .ftst _ _ _ => ⟨true, true, false, 1⟩
  | .fadd _ _ _ | .fsub _ _ _ | .fmul _ _ _ | .fmin _ _ _ | .fmax _ _ _ | .frnd _ _ | .fclass _ _
  | .hadd2 _ _ _ _ | .hmul2 _ _ _ _ | .hmax2 _ _ _ _ => ⟨true, true, false, 1⟩
  | .cvt _ _ _ _ => ⟨true, true, false, 32⟩
  | .pack k _ _ => ⟨true, true, false, match k with | .e4m3 | .e5m2 => 2 | _ => 1⟩
  | .scan _ _ _ => ⟨true, true, false, 2⟩
  | .unpk _ _ _ | .exp2 _ _ | .log2 _ _ | .rcp _ _ | .rsq _ _ | .sqrt _ _ | .sint _ _ | .cost _ _ | .tanh _ _
  | .shfl _ _ _ _ | .bcast _ _ _ | .red _ _ _ | .voteAny _ _ | .voteAll _ _ | .voteEq _ _ | .ballot _ _
  | .sample _ _ _ => ⟨true, true, false, 1⟩
  | .ld _ _ _ _ | .ldAcq _ _ _ _ | .ldbR _ _ _ _ | .ldbS _ _ _ _ | .ldp _ _ _ _ | .ldpr _ _ _ _
  | .atom _ _ _ _ _ _ | .cas _ _ _ _ _ | .casW64 _ _ _ _ _ | .atompI32 _ _ _ _ | .atompN32 _ _ _ _ =>
    ⟨true, true, false, 1⟩
  | .st _ _ _ _ | .stRel _ _ _ _ | .stp _ _ _ _ | .stpr _ _ _ _ | .dlv _ _ _ _ => ⟨true, false, false, 1⟩
  | .exit => ⟨true, false, false, 1⟩
  | _ => ⟨false, false, false, 0⟩

/-- The XMOD values of CVT (R164): selectors within their element counts, bit 0 for an 8-bit destination only. -/
def xmodOk (i : Instr) (x : Nat) : Bool :=
  match i with
  | .cvt dst src _ _ =>
    decide (x < 32) && decide (x / 2 % 4 < src.elems) && decide (x / 8 % 4 < dst.elems) && (x % 2 == 0 || dst.is8)
  | i => decide (x < (pfxRule i).xmax)

/-- Whether a prefix is accepted before an instruction (R79, R81). -/
def pfxOk (i : Instr) (p : Prefix) : Bool :=
  let r := pfxRule i
  r.takes && p.rnd.toNat != 6 && (r.mz || !p.mz) && (r.d4 || p.d4 == 0) && xmodOk i p.xmod.toNat

/-- A D4 register that WIDTH 3 needs even (R134). -/
def d4Ok (i : Instr) (p : Prefix) : Bool :=
  match i with
  | .bfi .w64 _ _ _ => even7 p.d4
  | _ => true

/-! ### Features (R94, R422) -/

def featuresOf (i : Instr) : List Nat :=
  (if scopeOf i == .d then [5] else []) ++
  match i with
  | .dlv _ _ _ _ | .hamset _ _ _ | .hamand _ _ _ | .tcopyMAll _ _ _ | .tcopyMJoin _ _ _ => [2]
  | .ldbR _ _ _ _ | .ldbS _ _ _ _ | .ring _ _ _ | .bellr _ _ | .bellw _ _ => [3]
  | .launchT _ | .launchD _ => [4]
  | .feedget _ _ | .feedput _ _ | .feedpop _ _ | .feedrel _ _ => [5]
  | .rdsrV _ _ s | .rdsrS _ s | .wrsrV _ s | .wrsrS _ s => if s.toNat = 0x22 then [6] else []
  | .ldpr _ _ _ _ | .stpr _ _ _ _ => [9]
  | _ => []

/-- The features of an instruction and its prefix: stochastic rounding is feature 6. -/
def featuresAt (i : Instr) (p : Option Prefix) : List Nat :=
  featuresOf i ++ (match p with | some q => if q.rnd.toNat = 5 then [6] else [] | none => [])

/-- R92: instructions of the ROM supervisor handler alone. -/
def supervisorOnly : Instr → Bool
  | .mapf _ _ | .tlbiPage _ | .tlbiCtx => true
  | _ => false

/-! ### Ordering modifiers (R4, R190) -/

def MScope.rank : MScope → Nat
  | .grp => 0
  | .team => 1
  | .clu => 2
  | .dev => 3
  | .sys => 4

/-- .CLU or wider. -/
def MScope.wide (s : MScope) : Bool := decide (2 ≤ s.rank)

def Ord.acquires : Ord → Bool
  | .acq | .acqrel => true
  | _ => false

def Ord.releases : Ord → Bool
  | .rel | .acqrel => true
  | _ => false

/-! ### Latency (R68) -/

/-- The distance at which a result is readable; none where it is flag-completed. -/
def latencyOf : Instr → Option Nat
  | .smul _ _ _ | .smulhI64 _ _ _ | .smulhN64 _ _ _ => some 2
  | .sadd _ _ _ | .ssub _ _ _ | .sand _ _ _ | .sor _ _ _ | .sxor _ _ _ | .sshl _ _ _ | .sshr _ _ _ | .ssar _ _ _
  | .sminI64 _ _ _ | .sminN64 _ _ _ | .smaxI64 _ _ _ | .smaxN64 _ _ _ | .scmpI64 _ _ _ _ | .scmpN64 _ _ _ _
  | .ssel _ _ _ | .smov _ _ | .smovi _ _ | .slui _ _ | .saddi _ _ _ => some 1
  | .imul _ _ _ _ | .imulhI _ _ _ _ | .imulhN _ _ _ _ | .imad _ _ _ _ => some 2
  | .iadd _ _ _ _ | .isub _ _ _ _ | .iaddsI _ _ _ _ | .iaddsN _ _ _ _ | .isubsI _ _ _ _ | .isubsN _ _ _ _
  | .iminI _ _ _ _ | .iminN _ _ _ _ | .imaxI _ _ _ _ | .imaxN _ _ _ _ | .iabs _ _ _ | .and _ _ _ _ | .or _ _ _ _
  | .xor _ _ _ _ | .shl _ _ _ _ | .shr _ _ _ _ | .sar _ _ _ _ | .bfxI _ _ _ _ | .bfxN _ _ _ _ | .bfi _ _ _ _
  | .popc _ _ _ | .clz _ _ _ | .sel _ _ _ _ | .mov _ _ _ | .movVs _ _ _ | .movi _ _ => some 1
  | .icmp _ _ _ _ _ _ | .fcmp _ _ _ _ | .ftst _ _ _ | .mand _ _ _ | .mor _ _ _ | .mxor _ _ _ | .mandn _ _ _
  | .mnot _ _ | .mmov _ _ | .mset _ _ | .mget _ _ | .mpop _ _ | .mfirst _ _ => some 1
  | .fadd _ _ _ | .fsub _ _ _ | .fmul _ _ _ | .ffma _ _ _ | .fmin _ _ _ | .fmax _ _ _ | .frnd _ _ | .fclass _ _
  | .hadd2 _ _ _ _ | .hmul2 _ _ _ _ | .hfma2 _ _ _ _ | .hmax2 _ _ _ _ | .cvt _ _ _ _ | .pack _ _ _
  | .unpk _ _ _ => some 3
  | .nop _ | .brZ _ _ _ | .brNz _ _ _ | .brm _ _ _ _ _ | .jmp _ _ | .jmpr _ _ | .call _ _ | .callr _ _ | .ret _
  | .loop _ _ _ | .next _ | .brk _ _ | .skip _ _ | .exit | .end_ _ | .revote _ | .fret _ | .win _ | .yield _
  | .trap _ _ | .pref _ _ | .wrsrV _ _ | .wrsrS _ _ | .hamset _ _ _ | .hamand _ _ _ => some 1
  | _ => none

end Sys2Proof
end

