-- ==== Sys2Proof/Machine/Memory.lean ====
section
/-! DEFINITION. Bytes at their homes: device memory as the home slices, the L3 and HBM4E hold it (R368), the memory
of other devices (R450), poisoned grains (R408), and little-endian words (R5). An unlisted byte reads as 0x00
(assumption 1). -/

namespace Sys2Proof.Machine

open Sys2Proof

/-! ### Byte memory -/

/-- What a byte that nothing has written reads as (assumption 1). -/
def memDefault : Byte := 0

abbrev Memory := List Host.Cell

/-- The canonical form: addresses strictly rising, no entry equal to the default. -/
def Memory.wf (m : Memory) : Bool := Tab.wf m && m.all fun c => c.2 != memDefault

def memGet (m : Memory) (a : Nat) : Byte := Tab.getD m a memDefault
def memSet (m : Memory) (a : Nat) (b : Byte) : Memory := Tab.put memDefault m a b

def memRead (m : Memory) (a n : Nat) : List Byte := (List.range n).map fun i => memGet m (a + i)

def memWrite (m : Memory) (a : Nat) : List Byte → Memory
  | [] => m
  | b :: bs => memWrite (memSet m a b) (a + 1) bs

/-- Writes a table of bytes by address: a merge by byte mask (R319). -/
def memMerge (m : Memory) (bs : Tab Byte) : Memory := bs.foldl (fun m p => memSet m p.1 p.2) m

/-! ### Words (R5) -/

def leNat : List Byte → Nat
  | [] => 0
  | b :: bs => b.toNat + 256 * leNat bs

def leBytes : Nat → Nat → List Byte
  | 0, _ => []
  | n + 1, x => BitVec.ofNat 8 (x % 256) :: leBytes n (x / 256)

def le64 (bs : List Byte) : W64 := BitVec.ofNat 64 (leNat (bs.take 8))
def le32 (bs : List Byte) : W32 := BitVec.ofNat 32 (leNat (bs.take 4))

/-- Field of a record: `n` bytes at an offset. -/
def fieldAt (bs : List Byte) (off n : Nat) : Nat := leNat ((bs.drop off).take n)

/-- Bits [hi:lo] of a number. -/
def bitsOf (x hi lo : Nat) : Nat := x / 2 ^ lo % 2 ^ (hi + 1 - lo)

/-! ### Physical addresses -/

/-- R450: PA[51] names the memory of another device. -/
def isRemote (pa : Nat) : Bool := pa / 2 ^ 51 % 2 == 1
def remoteDev (pa : Nat) : Nat := bitsOf pa 47 39
def frameOf (pa : Nat) : Nat := pa / 65536

/-- The home die and slice of an address (R316). -/
def homeDie (pa : Nat) : Nat :=
  ([16, 23, 30, 37, 44, 51].map fun b => pa / 2 ^ b % 2).foldl (· + ·) 0 % 2

def homeSlice (pa : Nat) : Nat :=
  ([17, 24, 31, 38, 45].map fun b => pa / 2 ^ b % 128).foldl (· ^^^ ·) 0

/-- The slice that serves an address once slices have left service (R317): slices are die × 128 + slice. The homes of a die
that is out of service pass to the same slices of the other die (the log says so). -/
def servingSlice (out : List Nat) (pa : Nat) : Nat :=
  let d := homeDie pa * 128
  let s := homeSlice pa
  let group := [s, s ^^^ 1, s ^^^ 2, s ^^^ 3]
  (((group.map (d + ·)) ++ group.map (128 - d + ·)).find? fun x => !out.contains x).getD (d + s)

/-- The L3 slice that serves a line, and its HBM4E stack (R367). -/
def l3Slice (pa : Nat) : Nat := ([8, 14, 20, 26, 32, 38, 44].map fun b => pa / 2 ^ b % 64).foldl (· ^^^ ·) 0
def hbmStack (pa : Nat) : Nat := l3Slice pa / 8

/-- The 32-byte sectors of a range. -/
def sectorsOf (pa n : Nat) : List Nat := (List.range ((pa + n + 31) / 32 - pa / 32)).map fun i => (pa / 32 + i) * 32

/-- A home slice takes bytes: they are newer than what the L3 holds. -/
def State.l2Take (s : State) (pa n : Nat) : State :=
  { s with l2 := (sectorsOf pa n).foldl (fun t a => t.set a true) s.l2 }

/-- A home slice writes a sector back: the L3 slice of its line holds it, newer than its stack (R367, R368). -/
def State.l2Out (s : State) (pa : Nat) : State :=
  let a := pa / 32 * 32
  if s.l2.has a then
    { s with l2 := s.l2.erase a, l3 := s.l3.set (l3Slice a) ((s.l3.getD (l3Slice a) []).set (a / 256 * 256) true) }
  else s

/-- An L3 slice writes a line back to its stack. -/
def State.l3Out (s : State) (pa : Nat) : State :=
  { s with l3 := s.l3.modify (l3Slice pa) fun t => t.erase (pa / 256 * 256) }

/-- What the home slices hold goes on to the L3: a release or a CFLUSH at .SYS (R191, R368). -/
def State.sysOut (s : State) : State := s.l2.keys.foldl State.l2Out s

/-- The time in ns since reset, through every change of the clock (R391, R420). -/
def State.now (s : State) : Nat := s.fw.epoch.2 + (s.clk - s.fw.epoch.1) * 1000 / s.fw.mhz

/-- The link that carries a class of traffic to a device: the table's, or its alternate where the link is out (R449). -/
def linkFor (s : State) (dest cls : Nat) : Option Nat :=
  let up (l : Nat) : Bool := match s.fab.links.get? l with | some x => x.inService | none => false
  match s.fab.route.get? (dest * 3 + cls) with
  | none => none
  | some (l, a) => if up l then some l else if up a then some a else none

/-- A device is unreachable when it has stopped answering, or no path to it exists for any class of traffic (R452). -/
def State.devCut (s : State) (dev : Nat) : Bool :=
  s.fab.unreachable.contains dev || (dev != s.fab.dev && (List.range 3).all fun c => (linkFor s dev c).isNone)

/-- A home whose device cannot be reached (R452). -/
def State.cutOff (s : State) (pa : Nat) : Bool := isRemote pa && s.devCut (remoteDev pa)

/-- The link of a class of traffic to a device is being drained (R449). -/
def State.linkDraining (s : State) (dest cls : Nat) : Bool :=
  match linkFor s dest cls with
  | some l => (match s.fab.links.get? l with | some x => x.draining | none => false)
  | none => false

/-- Traffic of a path waits while its link is being drained, or until what is in flight lets the path change: it then takes the
other path in its order (R449). -/
def State.pathDraining (s : State) (pa cls : Nat) : Bool :=
  isRemote pa && (s.linkDraining (remoteDev pa) cls || s.fab.reroute.has (remoteDev pa * 3 + cls))

/-- A request on its way to another device. -/
def toDevice (dev : Nat) : Instr → Bool
  | .readRequest _ g | .ownershipRequest _ g | .writeback _ g _ _ => isRemote g && remoteDev g == dev
  | .homeExecutedOperation o => isRemote o.grain && remoteDev o.grain == dev
  | _ => false

/-- An access to another device that is no message of its own waits: its path is being drained, or requests on it come first
(R288, R449). -/
def State.pathHeld (s : State) (pa cls : Nat) : Bool :=
  s.pathDraining pa cls || (isRemote pa && s.agenda.any (toDevice (remoteDev pa)))

/-- Nothing is in flight on a path: the link that carries it awaits no acknowledgement (R448, R449). -/
def State.pathIdle (s : State) (path : Nat) : Bool :=
  match linkFor s (path / 3) (path % 3) with
  | some l => (match s.fab.links.get? l with | some x => x.unacked.isEmpty | none => true)
  | none => true

/-- A flit leaves for another device, on the link that carries its class; it stays unacknowledged for now (R448, R449). -/
def State.sendFlit (s : State) (pa cls : Nat) : State :=
  match if isRemote pa then linkFor s (remoteDev pa) cls else none with
  | none => s
  | some l => { s with fab := { s.fab with links := s.fab.links.modify l fun x =>
      { x with txNext := x.txNext + 1, unacked := x.unacked ++ [x.txNext] } } }

/-- The bytes at their home; the time page reads as FTS at its offset 0 (R454). -/
def State.homeRead (s : State) (pa n : Nat) : List Byte :=
  if isRemote pa then memRead s.fab.remote pa n
  else if s.fab.timeFrame = some (frameOf pa) then
    ((leBytes 8 s.fab.fts.toNat).drop (pa % 65536)).take n
  else memRead s.mem pa n

/-- A write at its home; one to a device that cannot be reached writes nothing (R452). -/
def State.homeWrite (s : State) (pa : Nat) (bs : List Byte) : State :=
  if s.cutOff pa then s
  else if isRemote pa then
    let s := s.sendFlit pa 0
    { s with fab := { s.fab with remote := memWrite s.fab.remote pa bs } }
  else State.l2Take { s with mem := memWrite s.mem pa bs } pa bs.length

def State.home64 (s : State) (pa : Nat) : W64 := le64 (s.homeRead pa 8)

/-! ### Poison (R408) -/

/-- Whether an access meets a poisoned grain. -/
def State.poisoned (s : State) (pa n : Nat) : Bool :=
  s.poison.any fun p => decide (pa < p.1 + p.2) && decide (p.1 < pa + n)

/-- Whether a home returns no data for an access (R408, R452). -/
def State.noData (s : State) (pa n : Nat) : Bool := s.poisoned pa n || s.cutOff pa

/-- A write of every byte of a poisoned grain clears the poison: `has` says which bytes are written. -/
def State.clearCovered (s : State) (has : Nat → Bool) : State :=
  { s with poison := s.poison.filter fun p => !((List.range p.2).all fun i => has (p.1 + i)) }

def State.clearPoison (s : State) (pa n : Nat) : State := s.clearCovered fun a => decide (pa ≤ a) && decide (a < pa + n)

/-- A merge by byte mask (R319). -/
def State.homeMerge (s : State) (bs : Tab Byte) : State :=
  (bs.foldl (fun s p => s.homeWrite p.1 [p.2]) s).clearCovered fun a => bs.any fun p => p.1 == a

/-! ### Free values -/

/-- Draws a free value: advances the counter. -/
def State.draw (s : State) : W64 × State := (Config.freeWord s.fresh, { s with fresh := s.fresh + 1 })

/-- `n` unspecified bytes. -/
def State.drawBytes (s : State) (n : Nat) : List Byte × State :=
  ((List.range n).map fun i => Config.freeByte (s.fresh + i), { s with fresh := s.fresh + n })

end Sys2Proof.Machine
end

