-- ==== Sys2Proof/Machine/Translate.lean ====
section
/-! DEFINITION. Translation: page-table entries (R393), the walk of both stages (R392, R394, R397), the check of a
leaf (R395), the core and walk-ahead TLBs and the walk caches (R399), and the window registers (R327). -/

namespace Sys2Proof.Machine

open Sys2Proof

/-! ### Entries (R393) -/

def eBits (e : W64) (hi lo : Nat) : Nat := bitsOf e.toNat hi lo
def eV (e : W64) : Bool := e.getLsbD 0
def eLeaf (e : W64) : Bool := e.getLsbD 1
def eU (e : W64) : Bool := e.getLsbD 4
def eWr (e : W64) : Bool := e.getLsbD 5
def eX (e : W64) : Bool := e.getLsbD 6
def eFt (e : W64) : Bool := e.getLsbD 7
def eProt (e : W64) : Nat := eBits e 9 8
def eGrain (e : W64) : Nat := eBits e 11 10
def eFrame (e : W64) : Nat := eBits e 51 16
def eHs (e : W64) : Bool := e.getLsbD 56
def eMov (e : W64) : Bool := e.getLsbD 57
def eBell (e : W64) : Nat := eBits e 63 58
def eReserved (e : W64) : Bool := eBits e 15 12 != 0 || eBits e 3 2 != 0

/-- Whether a function has accepted a feature bit (R423). -/
def State.accepts (s : State) (vf bit : Nat) : Bool :=
  match s.vfs.get? vf with | some v => v.accepted.getLsbD bit | none => false

/-- A remote leaf that R450 calls malformed, on device `dev`. -/
def remoteBad (dev : Nat) (e : W64) : Bool :=
  let pa := eFrame e * 65536
  isRemote pa && (bitsOf pa 50 48 != 0 || eProt e == 0 || eBell e != 0 || remoteDev pa == dev)

/-- A malformed entry with V = 1 at a level (R394). -/
def malformed (e : W64) (lvl : Nat) : Bool :=
  eReserved e || eGrain e == 3 || eProt e == 3 ||
  (lvl == 1 && eLeaf e) || (lvl == 3 && !eLeaf e) ||
  (!eLeaf e && (eBits e 63 52 != 0 || eBits e 15 1 != 0)) ||
  (lvl == 2 && eLeaf e && (eFt e || eBits e 28 16 != 0))

/-- A level-3 entry with V = 0 that may be mapped from the pool (R394). -/
def firstTouch (e : W64) (lvl : Nat) : Bool :=
  lvl == 3 && !eV e && eFt e && !eReserved e && eGrain e != 3 && eProt e != 3

/-- Index of a virtual address at a level (R392). -/
def vaIndex (va lvl : Nat) : Nat := va / 2 ^ (55 - 13 * lvl) % 8192

/-! ### The second stage (R397) -/

/-- The output of a second-stage walk: address with its permissions, or none for a fault. -/
structure Two where
  pa : Nat
  wr : Bool
  x : Bool
  deriving DecidableEq, Repr

/-- A second-stage entry with V = 1 that is malformed: bits other than V, LEAF, WR, X and FRAME. -/
def malformed2 (e : W64) (lvl : Nat) : Bool :=
  eBits e 63 52 != 0 || eBits e 15 7 != 0 || eBits e 4 2 != 0 ||
  (lvl == 1 && eLeaf e) || (lvl == 3 && !eLeaf e) ||
  (!eLeaf e && (eWr e || eX e)) || (lvl == 2 && eLeaf e && eBits e 28 16 != 0)

/-- The entry of a second-stage table that maps an IPA at a level: cached, or as it stands (R399, R400). -/
def entry2 (s : State) (vf ipa lvl base : Nat) : W64 :=
  match s.walk2.find? fun w => w.1 == vf && w.2.1 == lvl && w.2.2.1 == ipa / 2 ^ (55 - 13 * lvl) with
  | some w => w.2.2.2
  | none => s.home64 (base + 8 * vaIndex ipa lvl)

def walk2From (s : State) (vf ipa : Nat) : Nat → Nat → Nat → Option Two
  | 0, _, _ => none
  | fuel + 1, lvl, base =>
    let e := entry2 s vf ipa lvl base
    if !eV e || malformed2 e lvl then none
    else if eLeaf e then
      let span := if lvl = 2 then 2 ^ 29 else 65536
      some ⟨eFrame e * 65536 + ipa % span, eWr e, eX e⟩
    else walk2From s vf ipa fuel (lvl + 1) (eFrame e * 65536)

/-- The valid entries that a second-stage walk reads (R399). -/
def cacheWalk2 (s : State) (vf ipa : Nat) : Nat → Nat → Nat → List (Nat × Nat × Nat × W64)
  | 0, _, _ => []
  | fuel + 1, lvl, base =>
    let e := entry2 s vf ipa lvl base
    if !eV e || malformed2 e lvl then []
    else (vf, lvl, ipa / 2 ^ (55 - 13 * lvl), e) :: (if eLeaf e then [] else cacheWalk2 s vf ipa fuel (lvl + 1) (eFrame e * 65536))

/-- The second-stage root of a function. -/
def root2 (s : State) (vf : Nat) : Option Nat := (s.vfs.get? vf).bind (·.s2root)

/-- Every virtual function has a second stage; the physical function's addresses are physical. -/
def twoStages (vf : Nat) : Bool := vf != 0

/-- IPA to PA for a function; while a virtual function has no second-stage table, nothing of it is mapped. -/
def stage2 (s : State) (vf ipa : Nat) : Option Two :=
  if twoStages vf then (root2 s vf).bind (walk2From s vf ipa 3 1) else some ⟨ipa, true, true⟩

def seen2 (s : State) (vf ipa : Nat) : List (Nat × Nat × Nat × W64) :=
  if twoStages vf then (match root2 s vf with | none => [] | some root => cacheWalk2 s vf ipa 3 1 root) else []

/-! ### The first stage (R392, R394, R398) -/

inductive Walk where
  /-- A valid leaf: the entry with its output frame and effective WR and X, and whether it stands for 512 MiB: under a
  second stage a 512 MiB page (`half`) is held in pieces of 64 KiB, each with its own output. `first` is the entry as read
  and `out` its output address, an IPA under a second stage. -/
  | leaf (e : W64) (big half : Bool) (first : W64) (out : Nat)
  /-- V = 0: whether it is first-touch, with the entry's address. -/
  | invalid (ft : Bool) (ea : Nat)
  | malformed
  /-- A second-stage fault: its LEVEL and the IPA reported. -/
  | stage2 (level ipa : Nat)
  deriving DecidableEq, Repr

/-- A leaf with the second stage's output frame and permissions. -/
def effLeaf (e : W64) (frame : Nat) (wr x : Bool) : W64 :=
  BitVec.ofNat 64 (eBits e 63 52 * 2 ^ 52 + frame % 2 ^ 36 * 65536 + e.toNat % 65536
    - (if eWr e && !wr then 32 else 0) - (if eX e && !x then 64 else 0))

/-- The walk from a level down. A remote leaf is malformed as R450 says, and in a function that has not accepted the fabric
(R422; DESIGN CHOICE, assumption 81). -/
def walkFrom (s : State) (asid vf : Nat) (va : Nat) : Nat → Nat → Nat → Walk
  | 0, _, _ => .malformed
  | fuel + 1, lvl, base =>
    let ipa := base + 8 * vaIndex va lvl
    match s.walk.find? fun w => w.1 == asid && w.2.1 == lvl && w.2.2.1 == va / 2 ^ (55 - 13 * lvl) with
    | some w => walkFrom s asid vf va fuel (lvl + 1) (eFrame w.2.2.2 * 65536)
    | none =>
      match stage2 s vf ipa with
      | none => .stage2 lvl ipa
      | some t =>
        let e := s.home64 t.pa
        if !eV e then .invalid (firstTouch e lvl) t.pa
        else if malformed e lvl then .malformed
        else if eLeaf e then
          let out := eFrame e * 65536 + (if lvl = 2 then va % 2 ^ 29 / 65536 * 65536 else 0)
          match stage2 s vf out with
          | none => .stage2 0 (out + va % 65536)
          | some o =>
            if remoteBad s.fab.dev (effLeaf e (frameOf o.pa) o.wr o.x) || (isRemote o.pa && !s.accepts vf 8) then .malformed
            else .leaf (effLeaf e (frameOf o.pa) o.wr o.x) (lvl == 2 && !twoStages vf) (lvl == 2) e (out + va % 65536)
        else walkFrom s asid vf va fuel (lvl + 1) (eFrame e * 65536)

/-- The walk of a context for a virtual address. -/
def walkVa (s : State) (asid va : Nat) : Walk :=
  match s.ctxs.get? asid with
  | none => .malformed
  | some c => walkFrom s asid c.vf va 3 1 c.root

/-- The walk-cache entries that a walk leaves: the table entries it read, and the second-stage entries behind their
addresses and its output (R399). -/
def cacheWalk (s : State) (asid vf va : Nat) : Nat → Nat → Nat → List (Nat × Nat × Nat × W64) × List (Nat × Nat × Nat × W64)
  | 0, _, _ => ([], [])
  | fuel + 1, lvl, base =>
    let ipa := base + 8 * vaIndex va lvl
    match s.walk.find? fun w => w.1 == asid && w.2.1 == lvl && w.2.2.1 == va / 2 ^ (55 - 13 * lvl) with
    | some w => cacheWalk s asid vf va fuel (lvl + 1) (eFrame w.2.2.2 * 65536)
    | none =>
      match stage2 s vf ipa with
      | none => ([], [])
      | some t =>
        let e := s.home64 t.pa
        if !eV e || malformed e lvl then ([], seen2 s vf ipa)
        else if eLeaf e then
          ([], seen2 s vf ipa ++ seen2 s vf (eFrame e * 65536 + (if lvl = 2 then va % 2 ^ 29 / 65536 * 65536 else 0)))
        else
          let r := cacheWalk s asid vf va fuel (lvl + 1) (eFrame e * 65536)
          ((asid, lvl, va / 2 ^ (55 - 13 * lvl), e) :: r.1, seen2 s vf ipa ++ r.2)

/-! ### Checks and results -/

inductive Acc where
  | rd | wr | ex
  deriving DecidableEq, Repr

/-- A translated address with the attributes that govern the access (R320, R395). -/
structure Xlat where
  pa : Nat
  prot : Prot
  gsz : Nat
  bell : Nat
  hs : Bool
  /-- The page entry's own protocol is D: the directory governs the grain. -/
  dpage : Bool
  deriving DecidableEq, Repr

inductive XRes where
  | ok (x : Xlat)
  | prot
  /-- A page fault; first-touch, a page being moved, or neither. -/
  | page (ft mov : Bool)
  | stage2 (level ipa : Nat)
  deriving DecidableEq, Repr

/-- R395, in its order: 1 for a protection fault, 2 for a page fault. -/
def leafCheck (e : W64) (a : Acc) : Nat :=
  if !eU e then 1
  else if a = .wr && !eWr e then 1
  else if a = .wr && eMov e then 2
  else if a = .ex && !eX e then 1
  else 0

def grainBytes (code : Nat) : Nat := if code = 0 then 32 else if code = 1 then 128 else 512

/-- The lowest-numbered enabled window that holds an address (R327). -/
def windowOf (s : State) (asid pa : Nat) : Option Window :=
  match s.ctxs.get? asid with
  | none => none
  | some c => (c.windows.find? fun w => w.2.en && decide (w.2.base ≤ frameOf pa) && decide (frameOf pa ≤ w.2.last)).map (·.2)

def protOf (code : Nat) : Prot := if code = 0 then .d else if code = 1 then .s else .n

/-- The attributes of an address under a leaf: a window comes first (R320). -/
def attrs (s : State) (asid : Nat) (e : W64) (pa : Nat) : Xlat :=
  match windowOf s asid pa with
  | some w => ⟨pa, .w, w.grain, 0, eHs e, eProt e == 0⟩
  | none => ⟨pa, protOf (eProt e), grainBytes (eGrain e), eBell e, eHs e, eProt e == 0⟩

def pageBytes (big : Bool) : Nat := if big then 2 ^ 29 else 65536

def tlbHit (asid va : Nat) (t : List TlbEnt) : Option TlbEnt :=
  t.find? fun e => e.asid == asid && e.vpn == va / pageBytes e.big

def resultOf (s : State) (asid va : Nat) (a : Acc) (e : W64) (big : Bool) : XRes :=
  match leafCheck e a with
  | 1 => .prot
  | 2 => .page false true
  | _ => .ok (attrs s asid e (eFrame e * 65536 / pageBytes big * pageBytes big + va % pageBytes big))

/-- What a walk's leaf gives an access: where the first stage permits it and the second does not, a second-stage fault of
the output address (R398). -/
def leafResult (s : State) (asid va : Nat) (a : Acc) (e : W64) (big : Bool) (first : W64) (out : Nat) : XRes :=
  match resultOf s asid va a e big with
  | .prot =>
    if eU first && ((a == .wr && eWr first) || (a == .ex && eX first)) then .stage2 0 out else .prot
  | r => r

/-- Translates without a TLB: a grid sequencer, a reeve, a peer. -/
def translateWalk (s : State) (asid va : Nat) (a : Acc) : XRes :=
  match walkVa s asid va with
  | .leaf e big _ first out => leafResult s asid va a e big first out
  | .invalid ft _ => .page ft false
  | .malformed => .prot
  | .stage2 l ipa => .stage2 l ipa

/-- What a TLB entry gives an access. In a function with a second stage, an entry that forbids the access leads to a walk,
which tells the stages apart. -/
def tlbResult (s : State) (asid va : Nat) (a : Acc) (t : TlbEnt) : XRes :=
  match resultOf s asid va a t.leaf t.big with
  | .prot => if (s.ctxs.get? asid).any fun c => twoStages c.vf then translateWalk s asid va a else .prot
  | r => r

/-- The leaf that a core's TLB gives, or a walk. -/
def translate (s : State) (core asid va : Nat) (a : Acc) : XRes :=
  match tlbHit asid va (s.coreD core).tlb with
  | some t => tlbResult s asid va a t
  | none => translateWalk s asid va a

/-- The same through the walk-ahead TLB of the copy engine (R269). -/
def translateCopy (s : State) (core asid va : Nat) (a : Acc) : XRes :=
  match tlbHit asid va (s.coreD core).wtlb with
  | some t => tlbResult s asid va a t
  | none => translateWalk s asid va a

/-- The TLB entry that a walk gives. -/
def walkEntry (s : State) (asid va : Nat) : Option TlbEnt :=
  match walkVa s asid va with
  | .leaf e big half _ _ => some ⟨asid, va / pageBytes big, big, e, half⟩
  | _ => none

/-- Fills the walk caches after a walk (R399: never an entry with V = 0). -/
def fillWalk (s : State) (asid va : Nat) : State :=
  match s.ctxs.get? asid with
  | none => s
  | some x =>
    let seen := cacheWalk s asid x.vf va 3 1 x.root
    { s with
      walk := (seen.1.filter fun w => !s.walk.contains w) ++ s.walk
      walk2 := (seen.2.eraseDups.filter fun w => !s.walk2.contains w) ++ s.walk2 }

/-- The same after a walk of the second stage alone. -/
def fillTwo (s : State) (vf ipa : Nat) : State :=
  { s with walk2 := ((seen2 s vf ipa).filter fun w => !s.walk2.contains w) ++ s.walk2 }

/-- The same for an address of a context, or of a function where the context is the firmware's own (R399). -/
def fillFor (s : State) (vf asid va : Nat) : State := if asid = 0 then fillTwo s vf va else fillWalk s asid va

/-- Fills the walk caches and a TLB of a core after a walk. -/
def fillTlb (s : State) (core asid va : Nat) (copy : Bool) : State :=
  let c := s.coreD core
  if (tlbHit asid va (if copy then c.wtlb else c.tlb)).isSome then s
  else
    match walkEntry s asid va with
    | some t => (fillWalk s asid va).updCore core fun c => if copy then { c with wtlb := t :: c.wtlb } else { c with tlb := t :: c.tlb }
    | none => s

/-- The contexts of a function. -/
def ctxsOf (s : State) (vf : Nat) : List Nat := (s.ctxs.filter fun c => c.2.vf == vf).map (·.1)

/-- The contexts that an invalidation concerns. -/
def InvalOf.asids (s : State) : InvalOf → List Nat
  | .page asid _ | .ctx asid => [asid]
  | .fn vf => ctxsOf s vf

/-- Whether the invalidation of a page names an entry: the leaf that maps the address, and of a 512 MiB leaf every piece. -/
def TlbEnt.maps (t : TlbEnt) (va : Nat) : Bool :=
  if t.big || t.half then t.vpn * pageBytes t.big / 2 ^ 29 == va / 2 ^ 29 else t.vpn == va / 65536

/-- Whether an invalidation names a translation (R400, R402). -/
def TlbEnt.named (s : State) (i : InvalOf) (t : TlbEnt) : Bool :=
  (i.asids s).contains t.asid && match i with | .page _ va => t.maps va | _ => true

/-- Drops translations (R349, R400, R402) from every TLB, with the walk-cache entries of the contexts and, of a function,
its second-stage entries. -/
def dropTlb (s : State) (i : InvalOf) : State :=
  let keep (t : TlbEnt) : Bool := !t.named s i
  { s with
    walk := s.walk.filter fun w => !(i.asids s).contains w.1
    walk2 := match i with | .fn vf => s.walk2.filter fun w => w.1 != vf | _ => s.walk2
    cores := s.cores.map fun p => (p.1, { p.2 with tlb := p.2.tlb.filter keep, wtlb := p.2.wtlb.filter keep }) }

/-- R454: the time page takes nothing but an aligned LD.B64 at offset 0. -/
def timeBarred (s : State) (x : Xlat) (ld64 : Bool) : Bool :=
  s.fab.timeFrame == some (frameOf x.pa) && !(ld64 && x.pa % 65536 == 0)

/-- The time page serves no fetch, copy, queue or reeve (R454). -/
def noTime (s : State) : XRes → XRes
  | .ok x => if timeBarred s x false then .prot else .ok x
  | r => r

end Sys2Proof.Machine
end

