-- ==== Sys2Proof/Machine/L1.lean ====
section
/-! DEFINITION. The L1 of a core: blocks and sectors (R221), byte masks (R319), grain states (R301, R321, R324), and
the choice of a way (R221, R222). -/

namespace Sys2Proof.Machine

open Sys2Proof

/-! ### A block -/

def gbase (gsz pa : Nat) : Nat := pa / gsz * gsz
def setOf (pa : Nat) : Nat := pa / 512 % 128

/-- The sectors of the grain that holds an address. -/
def Block.sectors (b : Block) (pa : Nat) : List Nat :=
  (List.range (b.gsz / 32)).map (pa % 512 / b.gsz * (b.gsz / 32) + ·)

def Block.grainNo (b : Block) (pa : Nat) : Nat := pa % 512 / b.gsz
def Block.st (b : Block) (pa : Nat) : Option GrainSt := b.gst.get? (b.grainNo pa)
def Block.setSt (b : Block) (pa : Nat) (x : GrainSt) : Block := { b with gst := b.gst.set (b.grainNo pa) x }
def Block.round (b : Block) (pa : Nat) : Option W32 := b.frnd.get? (b.grainNo pa)
def Block.read (b : Block) (pa n : Nat) : List Byte := (List.range n).map fun i => b.data.getD (pa % 512 + i) 0

def setBits (m : BitVec 16) (xs : List Nat) : BitVec 16 := xs.foldl (fun m i => m ||| ((1 : BitVec 16) <<< i)) m
def clrBits (m : BitVec 16) (xs : List Nat) : BitVec 16 := xs.foldl (fun m i => m &&& ~~~((1 : BitVec 16) <<< i)) m

def Block.put (b : Block) (off : Nat) : List Byte → Block
  | [] => b
  | x :: xs => Block.put { b with data := b.data.put 0 off x } (off + 1) xs

/-- One written byte: its data, its mask bit (R319), and SD of every sector of its grain (R221). -/
def Block.dirtyByte (b : Block) (off : Nat) (x : Byte) : Block :=
  { b with
    data := b.data.put 0 off x
    sd := setBits b.sd (b.sectors off)
    dm := b.dm.set (off / 32) (b.dm.getD (off / 32) 0 ||| (1 <<< (off % 32))) }

def Block.write (b : Block) (off : Nat) : List Byte → Block
  | [] => b
  | x :: xs => (b.dirtyByte off x).write (off + 1) xs

/-- The written bytes of a grain by address (R319). -/
def Block.dirty (b : Block) (pa : Nat) : Tab Byte :=
  (b.sectors pa).flatMap fun sec =>
    let m := b.dm.getD sec 0
    ((List.range 32).filter fun i => m.getLsbD i).map fun i =>
      (pa / 512 * 512 + sec * 32 + i, b.data.getD (sec * 32 + i) 0)

def Block.clean (b : Block) (pa : Nat) : Block :=
  let ss := b.sectors pa
  { b with sd := clrBits b.sd ss, dm := ss.foldl (fun t i => Tab.erase t i) b.dm }

/-- The grain leaves the block. -/
def Block.drop (b : Block) (pa : Nat) : Block :=
  let b := b.clean pa
  let lo := b.grainNo pa * b.gsz
  { b with
    sv := clrBits b.sv (b.sectors pa)
    data := b.data.filter fun p => !(decide (lo ≤ p.1) && decide (p.1 < lo + b.gsz))
    gst := b.gst.erase (b.grainNo pa)
    frnd := b.frnd.erase (b.grainNo pa) }

/-- The addresses of the grains that a block holds. -/
def Block.grains (b : Block) (base : Nat) : List Nat := b.gst.map fun p => base + p.1 * b.gsz

/-! ### The L1 of a core -/

/-- The key of the way that holds a block; one whose SV is all zero is free (R221). -/
def Core.way? (c : Core) (pa : Nat) : Option Nat :=
  ((List.range 24).map (setOf pa * 24 + ·)).find? fun k => match c.l1.get? k with
    | some b => b.tag == frameOf pa && b.sv != 0
    | none => false

def Core.block? (c : Core) (pa : Nat) : Option Block := (c.way? pa).bind c.l1.get?

/-- The grain state of an address; none is I. -/
def Core.grainSt (c : Core) (pa : Nat) : Option GrainSt := (c.block? pa).bind (·.st pa)

/-- Puts a block back; a block whose SV is all zero is free. -/
def Core.putBlock (c : Core) (k : Nat) (b : Block) : Core :=
  { c with l1 := if b.sv = 0 then c.l1.erase k else c.l1.set k b }

def Core.updBlock (c : Core) (pa : Nat) (f : Block → Block) : Core :=
  match c.way? pa with
  | some k => (match c.l1.get? k with | some b => c.putBlock k (f b) | none => c)
  | none => c

def Core.l1Read (c : Core) (pa n : Nat) : List Byte :=
  match c.block? pa with
  | some b => b.read pa n
  | none => []

def Core.dirtyOf (c : Core) (pa : Nat) : Tab Byte :=
  match c.block? pa with
  | some b => b.dirty pa
  | none => []

/-- The charge that a DU grain holds (R297). -/
def Core.duBytes (c : Core) (pa : Nat) : Nat :=
  match c.block? pa with
  | some b => (match b.st pa with | some .du => b.gsz | _ => 0)
  | none => 0

/-- The grain goes to I; a DU grain's charge is released. -/
def Core.dropGrain (c : Core) (pa : Nat) : Core :=
  { c.updBlock pa (·.drop pa) with charge := c.charge - c.duBytes pa }

def Core.setGrain (c : Core) (pa : Nat) (x : GrainSt) : Core :=
  { c.updBlock pa (·.setSt pa x) with charge := c.charge - (if x = .du then 0 else c.duBytes pa) }

/-- After a writeback the grain is clean in a state. -/
def Core.cleanTo (c : Core) (pa : Nat) (x : GrainSt) : Core := c.updBlock pa fun b => (b.clean pa).setSt pa x

/-- A load uses a grain: DU becomes DR (R301), and the block is the most recently used. -/
def Core.used (c : Core) (pa now : Nat) : Core :=
  let c := if c.grainSt pa = some .du then c.setGrain pa .dr else c
  c.updBlock pa fun b => { b with lru := now }

/-- Stores bytes into a grain that the core may write: its state becomes the written one of its protocol. -/
def Core.l1Write (c : Core) (pa : Nat) (bytes : List Byte) (x : GrainSt) (now : Nat) : Core :=
  (c.setGrain pa x).updBlock pa fun b => { b.write (pa % 512) bytes with lru := now }

/-- R222: a way of a gated or waking group of four is absent. -/
def Core.wayGated (c : Core) (way : Nat) : Bool := c.ways.has (way / 4)

def Core.missOn (c : Core) (set tag : Nat) : Bool :=
  c.misses.any fun m => setOf m.grain == set && frameOf m.grain == tag

/-- Whether a way of the set may be replaced: no DU grain, no pending miss (R221). -/
def Core.mayReplace (c : Core) (set : Nat) (b : Block) : Bool :=
  !(b.gst.any fun p => p.2 == .du) && !c.missOn set b.tag

/-- The way that a block of an address takes: its own, the lowest free one, or the least recently used (R221). -/
def Core.pickWay (c : Core) (pa : Nat) : Option Nat :=
  match c.way? pa with
  | some k => some k
  | none =>
    let set := setOf pa
    let keys := ((List.range 24).filter fun w => !c.wayGated w).map (set * 24 + ·)
    match keys.find? fun k => !c.l1.has k with
    | some k => some k
    | none =>
      let cand := keys.filter fun k => match c.l1.get? k with | some b => c.mayReplace set b | none => false
      let lru (k : Nat) : Nat := match c.l1.get? k with | some b => b.lru | none => 0
      match cand with
      | [] => none
      | k :: ks => some (ks.foldl (fun m k => if lru k < lru m then k else m) k)

/-- A block with no grain, under the attributes of a page or window. -/
def Block.empty (x : Miss) : Block :=
  ⟨frameOf x.grain, x.prot, x.gsz, x.bell, x.hs, x.asid, x.vf, 0, 0, [], [], [], [], 0⟩

/-- Bytes reach a copy in place, but for those that the core has written since (R299). -/
def Block.refresh (b : Block) (off : Nat) : List Byte → Block
  | [] => b
  | x :: xs =>
    Block.refresh (if (b.dm.getD (off / 32) 0).getLsbD (off % 32) then b else { b with data := b.data.put 0 off x }) (off + 1) xs

/-- Installs a grain's bytes in a way that is free or already holds its block, in a state, with its fill round. -/
def Core.installAt (c : Core) (k : Nat) (x : Miss) (bytes : List Byte) (st : GrainSt) (round : W32) (now : Nat) : Core :=
  let old := match c.l1.get? k with
    | some b => if b.tag = frameOf x.grain && b.gsz = x.gsz && b.prot = x.prot then b else Block.empty x
    | none => Block.empty x
  let b := (old.drop x.grain).put (x.grain % 512) bytes
  let b := { b with sv := setBits b.sv (b.sectors x.grain), frnd := b.frnd.set (b.grainNo x.grain) round, lru := now }
  { c with
    l1 := c.l1.set k (b.setSt x.grain st)
    charge := c.charge - c.duBytes x.grain + (if st = .du then x.gsz else 0) }

/-- Every grain that the L1 holds, as addresses with their blocks. -/
def Core.allGrains (c : Core) : List (Nat × Block) :=
  c.l1.flatMap fun p => (p.2.grains (p.2.tag * 65536 + p.1 / 24 * 512)).map fun a => (a, p.2)

/-- Whether a core holds a window's copy of a grain, which no home and no other core invalidates (R327). -/
def Core.windowed (c : Core) (pa : Nat) : Bool := match c.block? pa with | some b => b.prot == .w | none => false

/-- The view of a bell of a context (R332). -/
def Core.view (c : Core) (asid bell : Nat) : W32 := (c.views.getD asid []).getD bell 0

/-- A context's view table, loaded from its bell table (R332). The core had no view meanwhile: a copy that is left of an earlier
one, filled under a round whose bit 31 is not the view's, has lost that round (R333). -/
def Core.loadTable (c : Core) (asid : Nat) (bells : Tab W32) : Core :=
  if c.views.has asid then c
  else { c with
    views := c.views.set asid bells
    l1 := c.l1.map fun p =>
      if p.2.asid = asid then (p.1, { p.2 with frnd := p.2.frnd.filter fun r => r.2.msb == (bells.getD p.2.bell 0).msb }) else p }

/-- The grain of a fill loses its round where the view's bit 31 has changed since the request (R333); a D copy has the current
view for its round (R334). -/
def Core.keepRound (c : Core) (m : Miss) : Core :=
  if m.prot = .d || m.frnd.msb = (c.view m.asid m.bell).msb then c
  else c.updBlock m.grain fun b => { b with frnd := b.frnd.erase (b.grainNo m.grain) }

end Sys2Proof.Machine
end

