-- ==== Sys2Proof/Machine/Home.lean ====
section
/-! DEFINITION. Homes and their directory (R316 to R319, R322), and the accesses of parties that have no cache: the
grid sequencers, the reeves, the host, peers and the copy engine read and write at the home (R186, R346). -/

namespace Sys2Proof.Machine

open Sys2Proof

/-! ### Directory entries -/

def Dir.idle (d : Dir) : Bool :=
  (match d.st with | .un => true | _ => false) && d.ptrs.isEmpty && d.clbits.isEmpty && !d.hostown && !d.lock &&
    d.rel.isNone && d.held.isEmpty && d.cur.isNone

def State.dirD (s : State) (g gsz : Nat) : Dir := s.dirs.getD g (Dir.fresh gsz)

/-- Puts an entry back; one that says nothing is free. -/
def State.putDir (s : State) (g : Nat) (d : Dir) : State :=
  { s with dirs := if d.idle then s.dirs.erase g else s.dirs.set g { d with lru := s.clk } }

/-- Records a copy: up to four pointers, then a bit per cluster (R318). -/
def Dir.share (d : Dir) (core : Nat) (del : Bool) : Dir :=
  if d.ptrs.any fun p => p.1 == core then
    { d with ptrs := d.ptrs.map fun p => if p.1 = core then (core, del) else p }
  else if d.ptrs.length < 4 then { d with ptrs := d.ptrs ++ [(core, del)] }
  else if d.clbits.contains (core / 128) then d else { d with clbits := d.clbits ++ [core / 128] }

/-- Records a core's copy with its partition. -/
def State.shareDir (s : State) (d : Dir) (core : Nat) (del : Bool) : Dir := { d.share core del with part := (s.coreD core).vf }

def Dir.unshare (d : Dir) (core : Nat) : Dir := { d with ptrs := d.ptrs.filter fun p => p.1 != core }

/-- No copy is recorded. -/
def Dir.clear (d : Dir) : Dir := { d with st := .un, ptrs := [], clbits := [] }

/-- The cores that an invalidation goes to: those named, and every core of the partition in a marked cluster (R318). -/
def State.holders (s : State) (d : Dir) : List Nat :=
  let near := d.ptrs.map (·.1)
  let far := s.cores.keys.filter fun c => d.clbits.contains (c / 128) && (s.coreD c).vf == d.part && !near.contains c
  (match d.st with | .own c => if near.contains c then [] else [c] | _ => []) ++ near ++ far

/-! ### The mesh (R288, R290, R315) -/

def meshCol (core : Nat) : Nat := core % 16
def meshRow (core : Nat) : Nat := core % 128 / 16

/-- The copies that a router sends on, each with the next router: north and south along its column, then along the row. -/
def routed (core : Nat) (leg : Leg) : List (Nat × Leg) :=
  let part (next : Nat) (d : MDir) (p : Nat → Bool) : List (Nat × Leg) :=
    match leg.dests.filter p with
    | [] => []
    | ds => [(next, ⟨d, ds⟩)]
  let north := part (core - 16) .north fun k => meshCol k == meshCol core && decide (meshRow k < meshRow core)
  let south := part (core + 16) .south fun k => meshCol k == meshCol core && decide (meshRow core < meshRow k)
  let east := part (core + 1) .east fun k => decide (meshCol core < meshCol k)
  let west := part (core - 1) .west fun k => decide (meshCol k < meshCol core)
  match leg.dir with
  | .source => north ++ south ++ east ++ west
  | .east => north ++ south ++ east
  | .west => north ++ south ++ west
  | .north => north
  | .south => south

/-- Where a reply for a set of cores of a cluster enters the mesh: the router of its home slice where it lies in the cluster of the
cores it serves, else the cluster's entry router (the log says which). -/
def entryRouter (s : State) (cluster pa : Nat) : Nat :=
  let sl := servingSlice s.fw.slicesOut pa
  if !isRemote pa && sl / 64 = cluster then cluster * 128 + 2 * (sl % 64) else cluster * 128

/-! ### What a core does on an invalidation or recall (R301, R321, R323) -/

def markUseOnce (c : Core) (g : Nat) : Core :=
  { c with misses := c.misses.map fun m => if m.grain = g && m.prot != .w then { m with useOnce := true } else m }

/-- Invalidates a core's copy: its dirty bytes, and the state without it. A window's copy stays (R326, R327). -/
def coreInvalidate (s : State) (core g : Nat) : State × Tab Byte :=
  let c := s.coreD core
  if c.windowed g then (s, []) else (s.setCore core (markUseOnce (c.dropGrain g) g), c.dirtyOf g)

/-- Recalls a core's EX copy to SH. -/
def coreRecall (s : State) (core g : Nat) : State × Tab Byte :=
  let c := s.coreD core
  if c.grainSt g = some .ex then (s.setCore core (c.cleanTo g .sh), c.dirtyOf g) else (s, [])

/-- Merges written bytes at the home (R319). -/
def mergeHome (s : State) (bytes : Tab Byte) : State := s.homeMerge bytes

/-- Brings a D owner's bytes to the home; it keeps a shared copy. -/
def syncGrain (s : State) (g : Nat) : State :=
  match s.dirs.get? g with
  | none => s
  | some d =>
    match d.st with
    | .own c =>
      let (s, bs) := coreRecall s c g
      (mergeHome s bs).putDir g (s.shareDir { d with st := .shd } c false)
    | _ => s

/-- Deliveries of a grain that are still on their way install nothing: the grain is written after them (R300). -/
def overtake (g : Nat) : Instr → Instr
  | .deliveryArrival c grain n attr bytes r grp fl => .deliveryArrival c grain n attr (if grain = g then [] else bytes) r grp fl
  | .multicastPacket c leg (.dlv grain n attr r grp fl) bytes f =>
    .multicastPacket c leg (.dlv grain n attr r grp fl) (if grain = g then [] else bytes) f
  | i => i

/-- Invalidates every recorded copy of a grain and merges its bytes. -/
def exclGrain (s : State) (g : Nat) : State :=
  match s.dirs.get? g with
  | none => s
  | some d =>
    let s := { s with agenda := s.agenda.map (overtake g) }
    let s := foldS s (s.holders d) fun s c =>
      let (s, bs) := coreInvalidate s c g
      mergeHome s bs
    s.putDir g d.clear

/-- The entries whose grain meets a range. -/
def State.dirsIn (s : State) (pa n : Nat) : List Nat :=
  (s.dirs.filter fun p => decide (p.1 < pa + n) && decide (pa < p.1 + p.2.gsz)).map (·.1)

/-! ### Accesses at the home -/

/-- The bytes as every reader at the home is served them (R322, R344). -/
def devSync (s : State) (pa n : Nat) : State := foldS s (s.dirsIn pa n) syncGrain

def devRead (s : State) (pa n : Nat) : State × List Byte :=
  let s := (devSync s pa n).sendFlit pa 0
  (s, s.homeRead pa n)

/-- A write at the home: recorded copies are invalidated first (R300, R322). -/
def devWrite (s : State) (pa : Nat) (bytes : List Byte) : State :=
  let s := foldS s (s.dirsIn pa bytes.length) exclGrain
  (s.homeWrite pa bytes).clearPoison pa bytes.length

/-- Whether an entry keeps an access of a party without a cache from being served at once: requests of the grain are in
service or wait, or, for a write, LOCK or HOSTOWN is set; under LOCK a read passes what waits (R318, R322, R330). -/
def Dir.busy (d : Dir) (write : Bool) : Bool :=
  d.cur.isSome || (!d.held.isEmpty && (write || !d.lock)) || (write && (d.lock || d.hostown))

/-- Whether such an access must wait: for its grain, or for its path to another device (R449). -/
def State.busyAt (s : State) (pa n : Nat) (write : Bool) : Bool :=
  s.pathHeld pa 0 || (s.dirsIn pa n).any fun g => match s.dirs.get? g with
    | some d => d.busy write
    | none => false

/-- Whether an access at the home meets no data, once an owner's bytes are there (R408, R452). -/
def State.noDataAt (s : State) (pa n : Nat) : Bool := s.noData pa n && (devSync s pa n).noData pa n

/-- A writeback of bytes to grains that no directory entry owns; recorded deliveries are invalidated first (R300). -/
def devMerge (s : State) (core : Nat) (bytes : Tab Byte) : State :=
  match bytes with
  | [] => s
  | (a, _) :: _ =>
    let s := foldS s (s.dirsIn a 1) fun s g => match s.dirs.get? g with
      | some d => if d.st = .own core then s.putDir g d.clear else exclGrain (s.putDir g (d.unshare core)) g
      | none => s
    s.homeMerge bytes

/-- The rest of what is on its way, before everything else that is pending. -/
def State.postNow (s : State) (es : List Instr) : State := { s with agenda := es ++ s.agenda }

/-- A grain's written bytes reach the home: a window grain without the directory (R327), under LOCK into HELD (R322). A home
that cannot be reached takes none (R452); those for another device keep the order of their path (R449). -/
def mergeBack (s : State) (core g : Nat) (b : Block) (bytes : Tab Byte) : State :=
  if bytes.isEmpty then s
  else if s.cutOff g || s.pathHeld g 0 then s.post [.writeback core g bytes (if b.prot = .w then .window else .evict)]
  else if b.prot = .w then s.homeMerge bytes
  else match s.dirs.get? g with
    | some d => if d.lock then s.putDir g { d with held := d.held ++ [.merge core bytes] } else devMerge s core bytes
    | none => devMerge s core bytes

/-! ### Writing back what a core holds -/

/-- Replacement of one grain (R321, R324): written bytes go home, a clean sole copy gives notice. -/
def replaceGrain (s : State) (core g : Nat) (b : Block) : State :=
  let c := s.coreD core
  let s := s.setCore core (c.dropGrain g)
  match b.st g with
  | some .ex => s.post [if (b.dirty g).isEmpty then .cleanNotice core g else .writeback core g (b.dirty g) .evict]
  | some .vd => s.post [.writeback core g (b.dirty g) (if b.prot = .w then .window else .evict)]
  | _ => s

/-- Empties a way for a new block. -/
def evictWay (s : State) (core k tag : Nat) : State :=
  match (s.coreD core).l1.get? k with
  | none => s
  | some b => if b.tag = tag then s
    else foldS s (b.grains (b.tag * 65536 + k / 24 * 512)) fun s g => replaceGrain s core g b

/-- Installs a grain, or leaves it uninstalled where the set has no way for it (R221). -/
def installGrain (s : State) (core : Nat) (x : Miss) (bytes : List Byte) (st : GrainSt) : State :=
  match (s.coreD core).pickWay x.grain with
  | none => s
  | some k =>
    let s := evictWay s core k (frameOf x.grain)
    s.updCore core fun c => c.installAt k x bytes st x.frnd s.clk

/-- The written bytes of the owner of a D grain reach the home: under LOCK into HELD (R322). -/
def mergeOwner (s : State) (core g : Nat) (bytes : Tab Byte) : State :=
  match s.dirs.get? g with
  | some d => if d.lock then (if bytes.isEmpty then s else s.putDir g { d with held := d.held ++ [.merge core bytes] }) else mergeHome s bytes
  | none => mergeHome s bytes

/-- Writes a grain's dirty bytes to the home and keeps it clean (R193, R324). -/
def flushGrain (s : State) (core g : Nat) : State :=
  let c := s.coreD core
  match c.block? g, c.dirtyOf g with
  | some b, bs@(_ :: _) =>
    let keep := match c.grainSt g with | some .vd => GrainSt.v | some x => x | none => .v
    let s := s.setCore core (c.cleanTo g keep)
    if b.st g = some .ex then mergeOwner s core g bs else mergeBack s core g b bs
  | _, _ => s

/-- Writes a grain back and drops it. -/
def purgeGrain (s : State) (core g : Nat) : State :=
  let c := s.coreD core
  match c.block? g with
  | none => s
  | some b =>
    let bs := c.dirtyOf g
    let s := s.setCore core (c.dropGrain g)
    if b.st g = some .ex then
      let s := mergeOwner s core g bs
      match s.dirs.get? g with
      | some d => if d.lock then s else s.putDir g d.clear
      | none => s
    else mergeBack s core g b bs

/-- The grains of a core that pass a test. -/
def grainsOf (s : State) (core : Nat) (p : Nat → Block → Bool) : List Nat :=
  ((s.coreD core).allGrains.filter fun x => p x.1 x.2).map (·.1)

def isState (b : Block) (g : Nat) (x : GrainSt) : Bool := b.st g == some x

/-- R324: a release at .CLU or wider writes back every dirty S grain of the partition. -/
def releaseFlush (s : State) (core vf : Nat) : State :=
  foldS s (grainsOf s core fun g b => b.prot == .s && b.vf == vf && isState b g .vd) fun s g => flushGrain s core g

/-- R324: an acquire at .CLU or wider; a clean or written S grain goes to I, or to VB on a bell page. -/
def acquireDrop (s : State) (core vf : Nat) : State :=
  foldS s (grainsOf s core fun g b => b.prot == .s && b.vf == vf && (isState b g .vd || isState b g .v)) fun s g =>
    let bell := match (s.coreD core).block? g with | some b => b.bell | none => 0
    let s := flushGrain s core g
    if bell = 0 then s.updCore core fun c => c.dropGrain g
    else s.updCore core fun c => c.setGrain g .vb

/-- Every dirty byte of a partition in a core goes home (R230, R329). R329 names every dirty byte, while R327 keeps a window's
bytes in place but for replacement, CFLUSH, CINV and the end of a grid: a window grain goes home too (DESIGN CHOICE,
assumption 93). -/
def flushCore (s : State) (core vf : Nat) (drop : Bool) : State :=
  foldS s (grainsOf s core fun _ b => b.vf == vf) fun s g =>
    if drop then purgeGrain s core g else flushGrain s core g

/-- The dirty grains of host-shared pages that a core holds for a partition; window grains are not among them (R327). -/
def hostShared (s : State) (core vf : Nat) : List Nat :=
  grainsOf s core fun g b => b.hs && b.vf == vf && !(b.dirty g).isEmpty && b.prot != .w

/-- A .SYS release: every dirty host-memory grain of the partition, in whichever core, goes home, and what the homes hold
to the L3 (R191, R348, R368). -/
def releaseSys (s : State) (vf : Nat) : State :=
  (foldS s s.cores.keys fun s c => foldS s (hostShared s c vf) fun s g => flushGrain s c g).sysOut

/-- A .SYS release store of a reeve: what it carries is at the memory side, and so are its own bytes (R191, R368, R411). -/
def sysStore (s : State) (vf pa : Nat) (bytes : List Byte) : State :=
  foldS (devWrite (releaseSys s vf) pa bytes) (sectorsOf pa bytes.length) State.l2Out

/-- Where a frame that is being moved has been copied and its entry not yet rewritten, a reeve's bytes go to both frames: they
count as written before the instant of the move (R350, R403). -/
def movedTo (s : State) (pa : Nat) : Option Nat :=
  (s.moves.find? fun m => m.step == 4 && frameOf m.p0 == frameOf pa).map fun m => frameOf m.p1 * 65536 + pa % 65536

/-- A reeve's write at the home, at .SYS as a release. -/
def reeveStore (s : State) (vf pa : Nat) (bytes : List Byte) (sys : Bool) : State :=
  let put (s : State) (a : Nat) : State := if sys then sysStore s vf a bytes else devWrite s a bytes
  match movedTo s pa with
  | some a => put (put s pa) a
  | none => put s pa

/-! ### Mapping a first-touch page (R201, R401) -/

/-- The entry that maps a page of the pool: FRAME, V = 1 and FT = 0. -/
def mappedEntry (e : W64) (frame : Nat) : W64 :=
  BitVec.ofNat 64 (eBits e 63 52 * 2 ^ 52 + frame % 2 ^ 36 * 65536 + e.toNat % 65536 / 256 * 256 + eBits e 6 1 * 2 + 1)

/-- Maps the page of an address from the partition's pool: MAPF's status (R401). The entry changes by one write. -/
def mapPage (s0 : State) (asid va : Nat) : State × Nat :=
  let s := fillWalk s0 asid va
  match walkVa s asid va with
  | .leaf _ _ _ _ _ => (s, 1)
  | .malformed => (s, 3)
  | .stage2 _ _ => (s, 4)
  | .invalid false _ => (s, 3)
  | .invalid true ea =>
    let vf := match s.ctxs.get? asid with | some c => c.vf | none => 0
    match s.vfs.get? vf with
    | none => (s, 2)
    | some v =>
      match v.pool with
      | [] => (s, 2)
      | f :: fs =>
        let s := devWrite s ea (leBytes 8 (mappedEntry (s.home64 ea) f).toNat)
        ({ s with vfs := s.vfs.set vf { v with pool := fs } }, 0)

/-! ### Misses -/

/-- The miss record of an access. -/
def missOf (s : State) (core asid vf : Nat) (x : Xlat) (own : Bool) : Miss :=
  ⟨gbase x.gsz x.pa, x.gsz, x.prot, x.bell, x.hs, asid, vf, own, false, (s.coreD core).view asid x.bell, []⟩

/-- Whether the L1 serves a load of an address now. -/
def Core.hit (c : Core) (pa : Nat) : Bool :=
  match c.grainSt pa with
  | none | some .vb => false
  | some _ => true

/-- The state in which a protocol writes a grain. -/
def writtenSt (p : Prot) : GrainSt := if p = .d then .ex else .vd

end Sys2Proof.Machine
end

