-- ==== Sys2Proof/Machine/Records.lean ====
section
/-! DEFINITION. Fault records and the record rings they go to (R405, R406, R417), and the fields of a queue control
block that the device writes (R411, R412). -/

namespace Sys2Proof.Machine

open Sys2Proof

/-! ### A fault record (R406) -/

def FRec.bytes (r : FRec) : List Byte :=
  leBytes 1 r.cause ++ leBytes 1 r.src ++ leBytes 1 r.level ++
  leBytes 1 ((if r.wr then 1 else 0) + r.scope % 8 * 2) ++ leBytes 4 r.detail ++ leBytes 8 r.va.toNat ++
  leBytes 8 r.xaddr ++ leBytes 8 r.fpc.toNat ++ leBytes 2 r.vf ++ leBytes 2 r.asid ++ leBytes 2 r.core ++
  leBytes 1 r.team ++ leBytes 1 0 ++ leBytes 4 r.grid ++ List.replicate 20 0

/-- An empty record of a cause. -/
def FRec.of (cause src : Nat) : FRec := ⟨cause, src, 0, false, 0, 0, 0, 0, 0, 0, 0, 0, 0, 0⟩

/-- The location fields of a unit's record. -/
def unitRec (s : State) (u : UnitId) (r : FRec) : FRec :=
  let gr := match s.gridOf u with | some g => s.grid? g | none => none
  let r := match gr with | some g => { r with vf := g.vf, asid := g.asid, grid := g.num } | none => r
  match u with
  | .group k => match s.group? k with
    | some g => match s.team? g.team with
      | some t => { r with core := coreOfGroup k, team := t.slot % 16 + g.gid % 16 * 16 }
      | none => { r with core := coreOfGroup k }
    | none => r
  | .team k => { r with core := coreOfTeam k, team := k % 16 }
  | .engine c => { r with core := c }
  | .queue k => (match s.queues.get? k with | some q => { r with vf := q.vf, asid := q.asid } | none => r)
  | .copyq k => { r with core := k / 16 }
  | .grid _ => r

/-- The record of the fault that a unit's registers describe (R125, R405). -/
def faultRec (s : State) (u : UnitId) (wr fetch : Bool) : FRec :=
  let src := if fetch then 3 else match u with | .group _ => 0 | _ => 2
  match s.ctl? u with
  | none => FRec.of 0 src
  | some c =>
    { FRec.of (c.fcause.toNat % 256) src with
      wr := wr
      scope := bitsOf c.fcause.toNat 11 8
      detail := c.fcause.toNat / 2 ^ 32
      va := c.faddr
      fpc := c.fpc }

/-! ### Queue control blocks (R411, R412) -/

def Queue.qstat (q : Queue) : Nat :=
  (if q.err then 1 else 0) + (if q.parked then 2 else 0) + (if q.slot.isSome then 4 else 0) + q.ecode % 256 * 256

/-- Writes RPTR, EWPTR, QSTAT and EDROP of a queue, as .SYS release stores. -/
def writeQcb (s : State) (k : Nat) : State :=
  match s.queues.get? k with
  | none => s
  | some q =>
    let s := reeveStore s q.vf (q.qcb + 0x08) (leBytes 8 q.rptr) true
    let s := reeveStore s q.vf (q.qcb + 0x10) (leBytes 8 q.ewptr) true
    reeveStore s q.vf (q.qcb + 0x20) (leBytes 4 q.qstat ++ leBytes 4 q.edrop.toNat) true

def State.updQueue (s : State) (k : Nat) (f : Queue → Queue) : State :=
  writeQcb { s with queues := s.queues.modify k f } k

/-- ASID 0 is the firmware's own (R399): a function's address under its second stage alone. -/
def firmwareXlat (s : State) (vf va : Nat) (a : Acc) : XRes :=
  match stage2 s vf va with
  | none => .stage2 0 va
  | some t => if a = .wr && !t.wr then .prot else .ok ⟨t.pa, .n, 32, 0, false, false⟩

/-- What a reeve's access through a context meets. A page being moved is a valid one (R350); the time page is barred (R454). -/
def reeveXlat (s : State) (vf asid va : Nat) (a : Acc) : XRes :=
  match if asid = 0 then firmwareXlat s vf va a else translateWalk s asid va a with
  | .page false true => noTime s (translateWalk s asid va .rd)
  | r => noTime s r

/-- The address that a reeve accesses through a context; a first-touch page is mapped first (R460). -/
def reeveAddr (s : State) (vf asid va : Nat) (a : Acc) : State × XRes :=
  match reeveXlat s vf asid va a with
  | .page true _ =>
    let s := (mapPage s asid va).1
    (fillFor s vf asid va, reeveXlat s vf asid va a)
  | r => (fillFor s vf asid va, r)

/-- An event enters the hardware event queue, or merges into the one of its source and queue that is pending (R410). -/
def State.raise (s : State) (src : EvSrc) (vf : Nat) (q : Option Nat) : State :=
  if s.events.contains ⟨src, vf, q⟩ then s else { s with events := s.events ++ [⟨src, vf, q⟩] }

/-- The queue of a function's driver. -/
def State.adminOf (s : State) (vf : Nat) : Option Nat := (s.vfs.get? vf).bind (·.adminQ)

/-- The record of a reeve's access that a second-stage fault holds, and of one whose device cannot be reached (R398, R452). -/
def reeveRec2 (vf asid : Nat) (level ipa : Nat) (va : W64) (wr : Bool) : FRec :=
  { FRec.of 0x42 4 with level := level, xaddr := ipa, va := va, wr := wr, vf := vf, asid := asid }
def reeveRecCut (vf asid pa : Nat) (va : W64) (wr : Bool) : FRec :=
  { FRec.of 0x40 4 with xaddr := pa, va := va, wr := wr, vf := vf, asid := asid }

def dropRecord (s : State) (k : Nat) : State :=
  s.updQueue k fun q => { q with edrop := if q.edrop = BitVec.allOnes 32 then q.edrop else q.edrop + 1 }

/-- Places a record in a queue's ring, or drops it where the ring is full or does not translate (R417). It waits where a
second-stage fault holds the ring's page or a link drains; the record of what went wrong, for the physical function's driver,
comes with the state. -/
def tryRecord (s : State) (k : Nat) (r : FRec) : State × Option FRec :=
  match s.queues.get? k with
  | none => (s, none)
  | some q =>
    let (s, er) := devRead (s.raise .fault q.vf (some k)) (q.qcb + 0x18) 8
    let va := q.evbase.toNat + 64 * (q.ewptr % 2 ^ q.esize)
    let wait (s : State) (two : Bool) : State :=
      { s with reeveWaits := s.reeveWaits ++ [(⟨q.vf, BitVec.ofNat 64 va, two, .record k r⟩ : ReeveWait)] }
    if (q.ewptr + 2 ^ 64 - leNat er) % 2 ^ 64 = 2 ^ q.esize then (dropRecord s k, none)
    else match reeveAddr s q.vf q.asid va .wr with
      | (s, .ok x) =>
        if s.cutOff x.pa then (dropRecord s k, some (reeveRecCut q.vf q.asid x.pa (BitVec.ofNat 64 va) true))
        else if s.pathHeld x.pa 0 then (wait s false, none)
        else ((reeveStore s q.vf x.pa r.bytes false).updQueue k fun q => { q with ewptr := q.ewptr + 1 }, none)
      | (s, .stage2 l ipa) => (wait s true, some (reeveRec2 q.vf q.asid l ipa (BitVec.ofNat 64 va) true))
      | (s, _) => (dropRecord s k, none)

def putRecord (s : State) (k : Nat) (r : FRec) : State :=
  match tryRecord s k r with
  | (s, none) => s
  | (s, some e) => match s.adminOf 0 with
    | some a => if a = k then s else (tryRecord s a e).1
    | none => s

def recordTo (s : State) (q : Option Nat) (r : FRec) : State :=
  match q with
  | some k => putRecord s k r
  | none => s

/-- The queue that a grid's records go to: its packet's, or the function's admin queue once it is gone (R417). -/
def queueOfGrid (s : State) (g : Grid) : Option Nat :=
  if s.queues.has g.queue then some g.queue else s.adminOf g.vf

/-- A record of a unit to its partition's queue (R405). -/
def unitRecord (s : State) (u : UnitId) (r : FRec) : State :=
  match s.gridOf u with
  | none => s
  | some gk => match s.grid? gk with
    | none => s
    | some g => recordTo s (queueOfGrid s g) (unitRec s u r)

/-- The stop record of a debug stop (R129, R417). -/
def stopRecord (s : State) (u : UnitId) (wr fetch : Bool) : State := unitRecord s u (faultRec s u wr fetch)

/-- The scope that a record names: L with its lane, otherwise the unit's (R32). -/
def recScope (u : UnitId) (lane : Option Nat) : Nat :=
  match lane, u with
  | some _, _ => 0
  | none, .group _ => 1
  | none, .team _ => 2
  | none, .grid _ => 3
  | none, _ => 0

/-- The record of a second-stage fault, to the physical function's driver (R398, R406). -/
def stage2Record (s : State) (u : UnitId) (src level ipa : Nat) (va : W64) (wr : Bool) (lane : Option Nat) (fpc : W64) : State :=
  recordTo s (s.adminOf 0) (unitRec s u
    { FRec.of 0x42 src with
      level := level, xaddr := ipa, va := va, wr := wr, scope := recScope u lane, detail := lane.getD 0, fpc := fpc })

end Sys2Proof.Machine
end

