-- ==== Sys2Proof/Machine/Ops.lean ====
section
/-! DEFINITION. The operations that the meanings share: the order of checks before an instruction issues (R93),
issue and completion of an instruction of a group (R65, R67), scalar reads and writes of every sequencer (R101,
R225), and taking a fault, the one exception entry of the machine (R32, R123 to R126, R129), with the return from
it beside it (R128). -/

namespace Sys2Proof.Machine

open Sys2Proof

/-! ### Faults -/

/-- A fault found: cause (R33), DETAIL, data address, whether it is recorded with scope L (R32), and for its
fault record whether it was a write or a code fetch (R406). -/
structure Trap where
  cause : Nat
  detail : Nat
  addr : W64
  lane : Bool
  wr : Bool
  fetch : Bool
  deriving DecidableEq, Repr

def trap (cause : Nat) (detail : Nat := 0) (addr : W64 := 0) : Trap := ⟨cause, detail, addr, false, false, false⟩
def laneTrap (cause lane : Nat) (addr : W64) (wr : Bool := false) : Trap := ⟨cause, lane, addr, true, wr, false⟩

def cIllegal : Nat := 0x01
def cEncoding : Nat := 0x02
def cBound : Nat := 0x03
def cPace : Nat := 0x04
def cNuf : Nat := 0x05
def cFdt : Nat := 0x06
def cLoop : Nat := 0x07
def cOverflow : Nat := 0x08
def cCode : Nat := 0x09
def cRun : Nat := 0x0A
def cPage : Nat := 0x0B
def cProt : Nat := 0x0C
def cAlign : Nat := 0x0D
def cScratch : Nat := 0x0E
def cCopy : Nat := 0x0F
def cFeed : Nat := 0x10
def cTrap : Nat := 0x11
def cUnderflow : Nat := 0x12
def cMasked : Nat := 0x13

/-- The kernel's handler for a scope: 0 when it names none (R123). -/
def Kcb.handler (k : Kcb) : Lvl → W64
  | .g => k.handG
  | .t => k.handT
  | .d => k.handD

def frameKindOf (cause : Nat) : Option FrameKind :=
  if cause = cNuf then some .nuf else if cause = cFdt then some .fdt else if cause = cTrap then some .trap else none

/-- Where a fault goes (R123, R129): the kernel's handler for NUF, FDT and TRAP when it names one and no frame of
that scope is occupied, otherwise the debug agent. -/
def routeOf (s : State) (u : UnitId) (cause : Nat) : Route :=
  let inSup := match u with
    | .group k => (match s.group? k with | some g => g.sframe.isSome | none => false)
    | _ => false
  match s.ctl? u, s.kcb? u, frameKindOf cause with
  | some c, some k, some kind =>
    if c.frame.isNone && !inSup && k.handler (lvlOfUnit u) != 0 then .handler kind (k.handler (lvlOfUnit u))
    else .debug
  | _, _, _ => .debug

/-- The groups of a team that have not retired, and those of a grid. -/
def State.groupsOfTeam (s : State) (t : Nat) : List Nat :=
  match s.team? t with
  | some x => x.groups.filter fun k => (s.group? k).isSome
  | none => []

def State.teamsOfGrid (s : State) (g : Nat) : List Nat :=
  match s.grid? g with
  | some x => x.teams.filter fun k => (s.team? k).isSome
  | none => []

def State.groupsBelow (s : State) : UnitId → List Nat
  | .team k => s.groupsOfTeam k
  | .grid k => (s.teamsOfGrid k).flatMap s.groupsOfTeam
  | _ => []

/-- Places the fault record in the unit, and for T and D in every group beneath it (R125). -/
def writeRecord (s : State) (u : UnitId) (f : Ctl → Ctl) : State :=
  let s := s.updCtl u f
  foldS s (s.groupsBelow u) fun s k => s.updGroup k fun g => { g with ctl := f g.ctl }

/-- R129: every sequencer parks at its next slot boundary and every group at its next stop point, in the whole grid of a whole
grid, or in the team of a streamed one. -/
def debugPark (s : State) (u : UnitId) : State :=
  match s.gridOf u with
  | none => s
  | some gk =>
    match s.grid? gk with
    | none => s
    | some gr =>
      let teams := if gr.kcb.whole then s.teamsOfGrid gk else
        match u with
        | .group k => (match s.group? k with | some g => [g.team] | none => [])
        | .team k => [k]
        | _ => []
      let s := s.updGrid gk fun g => { g with debugStop := true }
      let s := foldS s teams fun s t =>
        let s := s.updSeq (.team t) fun q => { q with stopReq := .debug }
        let s := foldS s (s.groupsOfTeam t) fun s k => s.updGroup k fun g => { g with stopReq := .debug }
        s.post [.sequencerPark (.team t)]
      let s := if gr.kcb.whole && gr.kcb.gcode then
          (s.updSeq (.grid gk) fun q => { q with stopReq := .debug }).post [.sequencerPark (.grid gk)]
        else s
      s

/-- A debug stop (R129): the units park, and the stop record goes to the queue. -/
def debugStop (s : State) (u : UnitId) (wr fetch : Bool) : State := stopRecord (debugPark s u) u wr fetch

/-- The sequencer above a unit, which a NUF or FDT parks (R124). -/
def parentOf (s : State) : UnitId → Option UnitId
  | .group k => (s.group? k).map fun g => .team g.team
  | .team k =>
    match s.team? k with
    | some t => (match s.grid? t.grid with
      | some gr => if gr.kcb.whole then some (.grid t.grid) else none
      | none => none)
    | none => none
  | _ => none

/-- R124: the sequencer above S parks at its next slot boundary. -/
def stopTree (s : State) (u : UnitId) : State :=
  match parentOf s u with
  | none => s
  | some p =>
    let s := s.updSeq p fun q => { q with stopReq := if q.stopReq = .none then .tree else q.stopReq }
    s.post [.sequencerPark p]

/-- The states in which a sequencer parks because its parent does (R105). -/
def SeqSt.followsParent : SeqSt → Bool
  | .full | .vote => true
  | _ => false

/-- A sequencer in FULL or VOTE parks with its parent, keeping the reports that it has (R105, R283). -/
def Seq.follow (q : Seq) : Seq :=
  if q.stopReq = .none && q.st.followsParent then { q with stopReq := .tree, was := q.st, st := .park } else q

/-- The teams of a grid whose sequencer parks. -/
def parkFollowers (s : State) (g : Nat) : State := foldS s (s.teamsOfGrid g) fun s t => s.updSeq (.team t) Seq.follow

/-- Stops the unit at X with its route. A team or grid sequencer parks at once, and with a grid's its teams that follow it. -/
def stopUnit (s : State) (u : UnitId) (r : Route) (x : W64) : State :=
  let park (s : State) : State := s.updSeq u fun q =>
    { q with st := .park, was := .fetch, route := some r, voted := none, ctl := { q.ctl with pc := x } }
  match u with
  | .group k => s.updGroup k fun g => { g with st := .stopped r, ctl := { g.ctl with pc := x } }
  | .grid g => parkFollowers (park s) g
  | _ => park s

/-- An access or a fetch that returned no data (R408, R452): the unit stops as for a debug stop, and a data-error record goes
to the physical function's driver and to the partition's queue. -/
def dataStop (s : State) (u : UnitId) (r : FRec) : State :=
  let r := unitRec s u r
  let s := match u with
    | .group k => s.updGroup k fun g => { g with st := .stopped .debug }
    | u => stopUnit s u .debug r.fpc
  let s := match s.gridOf u with | some gk => s.updGrid gk fun g => { g with dataErr := true } | none => s
  debugPark (unitRecord (recordTo s (s.adminOf 0) r) u r) u

/-- The parent that a stop at scope S parks: that of a NUF or FDT (R124); that of a group which enters a TRAP handler, where it
is in VOTE (R105). -/
def parksParent (s : State) (u : UnitId) (cause : Nat) (r : Route) : Bool :=
  cause == cNuf || cause == cFdt || match u, r with
    | .group k, .handler _ _ => (match s.group? k with
        | some g => (match s.seq? (.team g.team) with | some q => q.st == .vote | none => false)
        | none => false)
    | _, _ => false

/-- Taking a fault: the fault record (R32, R125), the route (R123), the stop of the unit at X and of what lies above
it (R124, R129). Inside the supervisor handler the scope is G whatever the cause (R203). Entering the handler is the event HANDLER_ENTRY, once the unit has drained (R126). -/
def takeFault (s : State) (u : UnitId) (t : Trap) : State :=
  let inSup := match u with
    | .group k => (match s.group? k with | some g => g.sframe.isSome | none => false)
    | _ => false
  let scope := if t.lane && !inSup then 0 else scopeCode (lvlOfUnit u)
  let x := s.iss.fpc
  let route := routeOf s u t.cause
  let s := writeRecord s u fun c =>
    { c with fcause := fcauseWord t.cause scope t.detail, fpc := x, faddr := t.addr }
  let s := stopUnit s u route x
  let s := if parksParent s u t.cause route then stopTree s u else s
  match route with
  | .debug => debugStop s u t.wr t.fetch
  | _ => s

/-- Takes a fault of the unit that issues. -/
def faultNow (s : State) (t : Trap) : Out := .next (takeFault s s.iss.unit t)

/-! ### Handler frames (R126, R128) -/

/-- Opens the handler frame: saves the resume address and the depths, and sets the pc to the entry. -/
def Ctl.enter (c : Ctl) (kind : FrameKind) (entry x resume : W64) : Ctl :=
  { c with
    frame := some ⟨resume, c.calls.length + c.spill.length, c.loops.length, kind, x, true⟩
    pc := entry }

/-- Discards the call and loop entries pushed since a frame was opened. -/
def Ctl.cutTo (c : Ctl) (f : Frame) : Ctl :=
  let dropped := c.calls.length + c.spill.length - f.callDepth
  { c with
    calls := c.calls.drop dropped
    spill := c.spill.drop (dropped - c.calls.length)
    loops := c.loops.drop (c.loops.length - f.loopDepth) }

/-- Closes the frame and resumes at an address: what FRET and REVOTE share. -/
def Ctl.close (c : Ctl) (f : Frame) (pc : W64) : Ctl := { c.cutTo f with frame := none, pc := pc }

/-- Whether a group, or a team, still holds its parent parked (R126): stopped by a NUF or FDT or inside its handler. -/
def heldByFrame (c : Ctl) (stopped : Bool) : Bool :=
  stopped || (match c.frame with
    | some f => (match f.kind with | .trap => false | _ => true)
    | none => false)

def treeRoute : Option Route → Bool
  | some (.handler .nuf _) | some (.handler .fdt _) => true
  | _ => false

def Group.holdsTree (g : Group) : Bool :=
  heldByFrame g.ctl (match g.st with | .stopped r => treeRoute (some r) | _ => false)

def Seq.holdsTree (q : Seq) : Bool := heldByFrame q.ctl (treeRoute q.route)

/-- A group stopped by TRAP or inside its handler: it keeps a team parked that was in VOTE (R105). -/
def Group.holdsVote (g : Group) : Bool :=
  g.ctl.frame.isSome || match g.st with | .stopped (.handler _ _) => true | _ => false

/-- A frame below a sequencer, or the park of its parent, keeps it parked. -/
def keptParked (s : State) : UnitId → Bool
  | .team t =>
    let vote := match s.team? t with | some x => x.seq.was == .vote | none => false
    ((s.groupsOfTeam t).any fun k => (match s.group? k with | some g => g.holdsTree || (vote && g.holdsVote) | none => false)) ||
    match s.team? t with
    | some x => (match s.seq? (.grid x.grid) with
      | some q => (q.stopReq == .tree || q.route.isSome) && q.st == .park && x.seq.was.followsParent
      | none => false)
    | none => false
  | .grid g => (s.teamsOfGrid g).any fun k => (match s.team? k with | some t => t.seq.holdsTree | none => false)
  | _ => false

/-- A sequencer that parked for a lower frame returns to the state it held once nothing keeps it (R105, R126). -/
def unparkTree (s : State) (u : UnitId) : State :=
  if keptParked s u then s
  else s.updSeq u fun q =>
    if q.stopReq = .tree then
      { q with stopReq := .none, st := if q.st = .park && q.route.isNone then q.was else q.st }
    else q

/-- The teams that parked because their grid's sequencer did return with it. -/
def unparkFollowers (s : State) (g : Nat) : State := foldS s (s.teamsOfGrid g) fun s t => unparkTree s (.team t)

/-- The parent parked for a lower frame returns, and with it the members that parked because it did. -/
def unparkParent (s : State) (u : UnitId) : State :=
  match parentOf s u with
  | none => s
  | some (.grid g) => unparkFollowers (unparkTree s (.grid g)) g
  | some p => unparkTree s p

/-! ### The order of checks (R93) -/

/-- The features offered to a unit's function, and those its kernel requires (R94). -/
def featureTrap (s : State) (u : UnitId) (need : List Nat) : Option Trap :=
  match s.gridOf u with
  | none => none
  | some gk =>
    match s.grid? gk with
    | none => none
    | some gr =>
      let offered := match s.vfs.get? gr.vf with | some v => v.offered | none => 0
      if need.all fun f => offered.getLsbD f then
        if need.all fun f => gr.kcb.reqfeat.getLsbD f then none else some (trap cMasked)
      else some (trap cIllegal)

/-- A physical register that the group's allocation does not hold (R15); no allocation exceeds 256 registers a lane. -/
def Group.outOfBound (g : Group) (n : Nat) : Bool := decide (min g.alloc 256 ≤ g.vwb + n)

/-- The bound violation of the named registers (R15). Where several operands violate the bound the spec does not say which
register DETAIL names: the first in field order (DESIGN CHOICE, assumption 80). -/
def boundTrap (g : Group) (names : List Nat) : Option Trap :=
  (names.find? fun n => g.outOfBound n).map fun n => trap cBound (g.vwb + n)

/-- The governing mask's number, and its lanes that are live. -/
def maskNum (p : Option Prefix) : Nat := match p with | some q => q.mask.toNat | none => 0
def Group.active (g : Group) (mask : Nat) : W64 := g.mreg mask &&& g.live

/-- A name whose pending bit is set in one of the lanes. -/
def pendingIn (g : Group) (names lanes : List Nat) : Option Nat :=
  (names.find? fun n => lanes.any fun l => g.pendV.has (l * 256 + g.vwb + n)).map fun n => g.vwb + n

/-- The physical register, as DETAIL numbers it (R67), of an operand whose write is pending. Where several are, the spec does
not say which is named (DESIGN CHOICE, assumption 80): lane registers of active lanes in field order, those of the lowest
active lane, those of other live lanes, then s registers, then m registers with the governing mask last. -/
def pendingReg (g : Group) (u : Use) (mask : Nat) (mz : Bool) : Option Nat :=
  let act := g.active mask
  let live := lanesOf g.w g.live
  match pendingIn g u.va (lanesOf g.w act) with
  | some r => some r
  | none =>
  match pendingIn g u.vf ((lanesOf g.w act).take 1) with
  | some r => some r
  | none =>
    match pendingIn g (u.vl ++ if mz then u.vd else []) live with
    | some r => some r
    | none =>
      match pendingIn g u.vi (lanesOf g.w (g.live &&& ~~~act)) with
      | some r => some r
      | none =>
        match u.s.find? fun n => g.pendS.has n with
        | some n => some (256 + n)
        | none => ((u.m ++ if u.gov then [mask] else []).find? fun n => g.pendM.has n).map (320 + ·)

/-- R73: an earlier instruction has still a write to come, a zeroing one included, to a register that the instruction
reads or writes. -/
def writePending (g : Group) (u : Use) (mask : Nat) : Bool :=
  let v := u.v.map (g.vwb + ·)
  let m := u.m ++ if u.gov then [mask] else []
  g.flights.any fun f =>
    (f.pendV.any fun k => v.contains (k % 256)) || (f.pendS.any fun n => u.s.contains n) || (f.pendM.any fun n => m.contains n) ||
    f.writes.any fun w => match w with
      | .v _ p _ => v.contains p
      | .s n _ => u.s.contains n
      | .m n _ => m.contains n

/-- Step 5 where it depends on more than the word (R134, R172). -/
def operandTrap (g : Group) (i : Instr) (p : Option Prefix) : Option Trap :=
  let badLane := match i with
    | .bcast _ _ l => decide (g.w ≤ l.toNat)
    | _ => false
  let badD4 := match p with | some q => !d4Ok i q | none => false
  if badLane || badD4 then some (trap cIllegal) else none

def firstTrap : List (Option Trap) → Option Trap
  | [] => none
  | some t :: _ => some t
  | none :: ts => firstTrap ts

/-- R117: EXIT.L takes only the faults of steps 1 to 5. -/
def paceFree : Instr → Bool
  | .exit => true
  | _ => false

/-- R93, steps 1 to 8, for an instruction that a group issues. -/
def issueTrap (s : State) (x : GCtx) (i : Instr) : Option Trap :=
  let p := s.iss.pfx
  let use := useOf i (p.bind fun q => if (pfxRule i).d4 then some q.d4.toNat else none)
  let mz := match p with | some q => q.mz | none => false
  let lane := laneScope i
  (firstTrap [
    if s.iss.defect then some (trap cEncoding) else none,
    match p with
    | some q => if pfxOk i q then none else some (trap cEncoding)
    | none => none,
    if supervisorOnly i && x.g.sframe.isNone then some (trap cIllegal) else none,
    featureTrap s (.group x.k) (featuresAt i p),
    operandTrap x.g i p,
    if scopeOf i == .g then none else some (trap cRun),
    boundTrap x.g use.v,
    if x.gr.kcb.paced && !paceFree i then (pendingReg x.g use (maskNum p) mz).map fun r => trap cPace r else none]).map
    fun t => { t with lane := lane }

/-- R93 for a slot that a team or grid sequencer executes: features, then a slot of a scope that is not its own. -/
def seqTrap (s : State) (u : UnitId) (i : Instr) : Option Trap :=
  firstTrap [
    featureTrap s u (featuresOf i),
    if scopeOf i == lvlOfUnit u then none else some (trap cRun)]

/-! ### Issue and completion in a group -/

/-- What a group instruction sees as it issues. -/
structure IX where
  x : GCtx
  mask : Nat
  act : W64
  mz : Bool
  rnd : Nat
  d4 : Option Nat
  xmod : Nat
  deriving DecidableEq, Repr

def IX.of (s : State) (x : GCtx) : IX :=
  let p := s.iss.pfx
  { x := x
    mask := maskNum p
    act := x.g.active (maskNum p)
    mz := match p with | some q => q.mz | none => false
    rnd := match p with | some q => q.rnd.toNat | none => 7
    d4 := p.map fun q => q.d4.toNat
    xmod := match p with | some q => q.xmod.toNat | none => 0 }

def IX.lanes (ix : IX) : List Nat := lanesOf ix.x.g.w ix.act
def IX.live (ix : IX) : List Nat := lanesOf ix.x.g.w ix.x.g.live
def IX.isAct (ix : IX) (l : Nat) : Bool := ix.act.getLsbD l

/-- The effect of an instruction on its group: register writes that land at completion, flags of SR.FSTAT, new
generator states. -/
structure Eff where
  writes : List RegW
  fstat : Nat
  gens : List (Nat × W32)
  deriving DecidableEq, Repr

def Eff.w (ws : List RegW) : Eff := ⟨ws, 0, []⟩

/-- Writes registers: what a completion event does (R65). -/
def Group.write (g : Group) (w : RegW) : Group :=
  match w with
  | .v l p x => { g with v := g.v.put 0 (l * 256 + p) x }
  | .s n x => { g with sreg := g.sreg.put 0 n x }
  | .m n x => { g with m := g.m.put 0 n x }

def Group.writes (g : Group) (ws : List RegW) : Group := ws.foldl Group.write g

/-- The pending bits of a list of writes: those of active lanes, and every s and m register (R67). -/
def pendVOf (act : W64) (ws : List RegW) : List Nat :=
  ws.filterMap fun w => match w with | .v l p _ => if act.getLsbD l then some (l * 256 + p) else none | _ => none

def pendSOf (ws : List RegW) : List Nat := ws.filterMap fun w => match w with | .s n _ => some n | _ => none
def pendMOf (ws : List RegW) : List Nat := ws.filterMap fun w => match w with | .m n _ => some n | _ => none

def setAll (t : Tab Bool) (ks : List Nat) : Tab Bool := ks.foldl (fun t k => t.set k true) t
def clearAll (t : Tab Bool) (ks : List Nat) : Tab Bool := ks.foldl (fun t k => t.erase k) t

/-- An instruction issues: its flag rises, its pending bits are set and its flight begins (R65, R67). -/
def Group.launch (g : Group) (f : Flight) : Group :=
  let g := g.raiseFlag f.flag
  { g with
    pendV := setAll g.pendV f.pendV
    pendS := setAll g.pendS f.pendS
    pendM := setAll g.pendM f.pendM
    flights := g.flights ++ [{ f with id := g.nextFlight }]
    nextFlight := g.nextFlight + 1 }

/-- The completion of a flight: its results are written, its pending bits and its flag fall (R65, R67). -/
def Group.land (g : Group) (f : Flight) : Group :=
  let g := (g.writes f.writes).dropFlag f.flag
  { g with
    pendV := clearAll g.pendV f.pendV
    pendS := clearAll g.pendS f.pendS
    pendM := clearAll g.pendM f.pendM
    flights := g.flights.filter fun e => e.id != f.id
    hold := if g.hold = some f.id then none else g.hold }

/-- The flag that the issuing slot raises; none in interlocked mode (R73). -/
def issueFlag (s : State) (x : GCtx) : Nat := if x.gr.kcb.paced then s.iss.setf else 0

/-- What an issue leaves on record: a second group may issue beside one of 16 lanes in classes 2 to 4 (R213). -/
def issueRec (s : State) (g : Group) : IssueRec := ⟨s.clk, g.w == 16 && decide (2 ≤ s.iss.cls) && decide (s.iss.cls ≤ 4)⟩

/-- Marks a group as having issued now (R64, R212) and moves its pc. -/
def Group.issued (g : Group) (s : State) (pc : W64) : Group :=
  { g with lastIssue := s.clk, age := 2 * s.clk, issue := some (issueRec s g), ctl := { g.ctl with pc := pc } }

def State.bumpKey (s : State) : State := { s with nextKey := s.nextKey + 1 }

/-- A flight with register results alone. -/
def regFlight (flag : Nat) (due : Option Nat) (act : W64) (ws : List RegW) : Flight :=
  ⟨0, flag, due, 0, ws, pendVOf act ws, pendSOf ws, pendMOf ws, false, false, none, 0, false⟩

/-- An instruction of a group takes effect: flags, generators, a flight for its results, and the next slot. -/
def commit (s : State) (ix : IX) (i : Instr) (e : Eff) (pc : W64) : State :=
  let g := ix.x.g.raise e.fstat
  let g := { g with gen := e.gens.foldl (fun (t : Tab W32) (p : Nat × W32) => t.set p.1 p.2) g.gen }
  let flag := issueFlag s ix.x
  let g := if e.writes.isEmpty && flag == 0 then g
    else g.launch (regFlight flag ((latencyOf i).map (s.clk + ·)) ix.act e.writes)
  (s.setGroup ix.x.k (g.issued s pc)).bumpKey

/-- The pc after the issuing slot. -/
def State.nextPc (s : State) : W64 := nextSlot s.iss.slot

/-- Runs an instruction that only a group executes: the checks of R93, then its effect. -/
def withGroup (s : State) (i : Instr) (body : IX → Out) : Out :=
  match s.iss.unit with
  | .group k =>
    match s.gctx k with
    | none => .fault .noSuchUnit
    | some x =>
      match issueTrap s x i with
      | some t => .next (takeFault s (.group k) t)
      | none => body (IX.of s x)
  | u =>
    match seqTrap s u i with
    | some t => .next (takeFault s u t)
    | none => .fault .notPlaced

/-- A group instruction whose effect is register results and flags, or a fault of its own. -/
def groupOp (s : State) (i : Instr) (body : IX → Except Trap Eff) : Out :=
  withGroup s i fun ix =>
    match body ix with
    | .error t => .next (takeFault s (.group ix.x.k) t)
    | .ok e => .next (commit s ix i e s.nextPc)

/-! ### Scalars of every sequencer -/

/-- The position of a register in a list. -/
def indexIn (r : SReg) : List SReg → Nat → Nat
  | [], n => n
  | x :: xs, n => if x = r then n else indexIn r xs (n + 1)

/-- R101: a register as a team or grid sequencer reads it for an instruction whose voted values are agreed. -/
def seqRead (s : State) (u : UnitId) (i : Instr) (r : SReg) : W64 :=
  match s.seq? u with
  | none => 0
  | some q =>
    if r.lvl == lvlOfUnit u then (q.ver q.cur).regs.getD r.num 0
    else
      match u, r with
      | .team k, .g n =>
        match s.tctx k with
        | some x => (x.gr.seq.ver (match q.run with | some run => run.ver | none => (q.ver q.cur).pin)).regs.getD n.toNat 0
        | none => 0
      | _, r => ((q.voted.getD [])[indexIn r (votedRegs i) 0]?).getD 0

/-- The runs that name versions: those in a member's race and the one it executes (R225). -/
def runsOf (race : List RaceItem) (run : Option Run) : List Nat :=
  (race.filterMap fun i => match i with | .run r => some r.ver | .marker => none) ++
    (match run with | some r => [r.ver] | none => [])

def teamNames (s : State) (t : Nat) (v : Nat) : Bool :=
  (s.groupsOfTeam t).any fun k => (match s.group? k with | some g => (runsOf g.race g.run).contains v | none => false)

def gridNames (s : State) (g : Nat) (v : Nat) : Bool :=
  (s.teamsOfGrid g).any fun k => match s.team? k with
    | some t => (runsOf t.race t.seq.run).contains v ||
        t.seq.vers.any fun p => p.2.pin == v && (p.1 == t.seq.cur || teamNames s k p.1)
    | none => false

/-- Whether a run, or a pin, names a version of the unit's file. -/
def named (s : State) (u : UnitId) (v : Nat) : Bool :=
  match u with
  | .team t => teamNames s t v
  | .grid g => gridNames s g v
  | _ => false

def versionCount : UnitId → Nat
  | .team _ => 8
  | _ => 16

/-- A version that is not current and that nothing names; of several the lowest, for the rule says only that it is free
(R225; DESIGN CHOICE, assumption 80). -/
def freeVersion (s : State) (u : UnitId) (q : Seq) : Option Nat :=
  (List.range (versionCount u)).find? fun v => v != q.cur && !named s u v

/-- Puts a value into a register of the current version, or of a fresh copy (R225); none when no version is free. -/
def versWrite (s : State) (u : UnitId) (n : Nat) (x : W64) : Option State :=
  match s.seq? u with
  | none => none
  | some q =>
    let old := q.ver q.cur
    let new : Ver := { old with regs := old.regs.put 0 n x }
    if named s u q.cur then
      match freeVersion s u q with
      | none => none
      | some v => some (s.updSeq u fun q => { q with vers := q.vers.set v new, cur := v })
    else some (s.updSeq u fun q => { q with vers := q.vers.set q.cur new })

/-- A slot of a team or grid sequencer is done: the walk resumes at an address. -/
def seqDone (s : State) (u : UnitId) (pc : W64) : State :=
  s.updSeq u fun q => { q with voted := none, ctl := { q.ctl with pc := pc } }

/-- A write of k or g: at once, or held in VERS (R105, R136). -/
def seqWrite (s : State) (u : UnitId) (n : Nat) (x : W64) : State :=
  let s := seqDone s u s.nextPc
  match versWrite s u n x with
  | some s => s
  | none => s.updSeq u fun q => { q with st := .vers, heldWrite := some (n, x) }

/-- Runs an instruction that any sequencer may execute: the checks of R93, then its effect in a group or at a team
or grid sequencer. -/
def withUnit (s : State) (i : Instr) (group : IX → Out) (seq : UnitId → Out) : Out :=
  match s.iss.unit with
  | .group _ => withGroup s i group
  | u =>
    match s.seq? u, seqTrap s u i with
    | none, _ => .fault .noSuchUnit
    | _, some t => .next (takeFault s u t)
    | _, none => seq u

/-! ### Voted reads of lane data (R28) -/

/-- The result of a voted read: the agreed value with the vote's record, or none where the lanes disagree. An empty
active set takes no vote and gives zero. -/
inductive Voted where
  | empty | agree (x : W64) (r : VoteRec) | differ (r : VoteRec)
  deriving DecidableEq, Repr

def voteLanes (ix : IX) (f : Nat → W64) : Voted :=
  match ix.lanes with
  | [] => .empty
  | l :: ls =>
    let r := voteRecord 1 ((l :: ls).map fun l => (l, f l))
    if r.uniform then .agree (f l) r else .differ r

/-- Stores a vote's record in the group. -/
def State.setVoteG (s : State) (k : Nat) (r : VoteRec) : State :=
  s.updGroup k fun g => { g with ctl := g.ctl.setVote r }

end Sys2Proof.Machine
end

