-- ==== Sys2Proof/Machine/Fetch.lean ====
section
/-! DEFINITION. Fetching a slot: the code read through the translation (R395, R396), the sheaf and its pace word (R60,
R63, R70), prefixes (R78, R79), and the scan for the next slot of an upper scope (R98). -/

namespace Sys2Proof.Machine

open Sys2Proof

/-! ### Bytes of code -/

/-- A byte as a reader at the home is served it, with no change of state. -/
def peekByte (s : State) (a : Nat) : Byte :=
  match s.dirs.find? fun p => decide (p.1 ≤ a) && decide (a < p.1 + p.2.gsz) with
  | some (_, d) => match d.st with
    | .own c => if ((s.coreD c).grainSt a).isSome then ((s.coreD c).l1Read a 1).headD 0 else (s.homeRead a 1).headD 0
    | _ => (s.homeRead a 1).headD 0
  | none => (s.homeRead a 1).headD 0

def peek (s : State) (a n : Nat) : List Byte := (List.range n).map fun i => peekByte s (a + i)

/-- The core whose TLB serves a unit's fetches; a grid sequencer has none. -/
def coreOfUnit : UnitId → Option Nat
  | .group k => some (coreOfGroup k)
  | .team k => some (coreOfTeam k)
  | _ => none

def State.asidOf (s : State) (u : UnitId) : Nat :=
  match s.gridOf u with
  | some gk => (match s.grid? gk with | some g => g.asid | none => 0)
  | none => 0

/-- The translation of a code address. -/
def fetchXlat (s : State) (u : UnitId) (a : W64) : XRes :=
  match coreOfUnit u with
  | some c => noTime s (translate s c (s.asidOf u) a.toNat .ex)
  | none => noTime s (translateWalk s (s.asidOf u) a.toNat .ex)

/-- What a fetch, or an access of a team or grid sequencer, leaves in the TLB of its core and in the walk caches (R399). -/
def fetchFill (s : State) (u : UnitId) (a : W64) : State :=
  match coreOfUnit u with
  | some c => fillTlb s c (s.asidOf u) a.toNat false
  | none => fillWalk s (s.asidOf u) a.toNat

/-- What a fetch meets: a word, a fault of R396, poison (R408), or a second-stage fault (R398). -/
inductive Fetched where
  | word (w : W32) | fault (cause : Nat) (a : W64) | poison (a : W64) (pa : Nat) | stage2 (level ipa : Nat) (a : W64)
  deriving DecidableEq, Repr

def fetchWord (s : State) (u : UnitId) (a : W64) : Fetched :=
  match fetchXlat s u a with
  | .ok x => if s.noData x.pa 4 then .poison a x.pa else .word (wordOfBytes (peek s x.pa 4))
  | .prot => .fault cProt a
  | .page _ _ => .fault cPage a
  | .stage2 l i => .stage2 l i a

/-! ### Pace words (R63, R70) -/

def paceWait (p : W32) : Nat := bitsOf p.toNat 31 20
def paceWslot (p : W32) : Nat := bitsOf p.toNat 19 18
def paceDist (p : W32) (slot : Nat) : Nat := bitsOf p.toNat (23 - 6 * slot) (22 - 6 * slot)
def paceSetf (p : W32) (slot : Nat) : Nat := bitsOf p.toNat (21 - 6 * slot) (18 - 6 * slot)

/-- The clks that a distance code adds (R64). -/
def distClks (code : Nat) : Nat := if code = 3 then 4 else code

/-- A defect that R70 reports at a slot. -/
def paceDefect (p : W32) (slot : Nat) (isPrefix : Bool) : Bool :=
  decide (13 ≤ paceSetf p slot) ||
  (slot == 1 && paceWslot p == 0 && paceWait p != 0) ||
  (isPrefix && (paceWslot p == slot || paceDist p slot != 0 || paceSetf p slot != 0))

/-! ### A slot -/

def prefixOf (w : W32) : Prefix :=
  ⟨w.extractLsb' 17 4, w.extractLsb' 14 3, w.getLsbD 13, w.extractLsb' 6 7, w.extractLsb' 0 6⟩

/-- A slot ready to issue: its instruction, the issue record, and the pace that holds it. -/
structure Slot where
  instr : Instr
  iss : Issue
  dist : Nat
  wait : Nat
  deriving DecidableEq, Repr

inductive SlotRes where
  | ok (x : Slot) | fault (cause : Nat) (a : W64) | poison (a : W64) (pa : Nat) | stage2 (level ipa : Nat) (a : W64)
  deriving DecidableEq, Repr

/-- The instruction of a decoded slot; a word that is none is the step ILLEGAL_INSTRUCTION. -/
def instrOf : Decoded → Instr
  | .instr i => i
  | .prefixWord => .illegalInstruction .prefixPlace
  | .illegal y => .illegalInstruction y

/-- A slot from its words: the pace word, the word at the pc and the word after it. A prefix before a word that is no
instruction is an illegal encoding at the prefix (DESIGN CHOICE, assumption 93: R79 speaks of an instruction that takes none). -/
def slotOf (u : UnitId) (paced : Bool) (pc : W64) (runEnd : Option W64) (pace w w2 : W32) : Slot :=
  let n := slotIndex pc
  match decode w with
  | .prefixWord =>
    let bad := n == 3 || runEnd == some (pc + 4)
    let i := if bad then .illegalInstruction .prefixPlace
      else match decode w2 with
        | .illegal (.fields x) => .illegalInstruction (.fields x)
        | .instr i => i
        | _ => .illegalInstruction .prefixPlace
    let defect := paced && (paceDefect pace n true || (!bad && paceDefect pace (n + 1) false))
    ⟨i, ⟨u, pc, pc + 4, some (prefixOf w), if bad then 0 else paceSetf pace (n + 1), defect, opOf w2 / 256⟩,
      if bad then 0 else paceDist pace (n + 1), if !bad && paceWslot pace == n + 1 then paceWait pace else 0⟩
  | d =>
    ⟨instrOf d, ⟨u, pc, pc, none, paceSetf pace n, paced && paceDefect pace n false, opOf w / 256⟩, paceDist pace n,
      if paceWslot pace = n then paceWait pace else 0⟩

/-- Fetches the slot at a pc for a unit. -/
def fetchSlot (s : State) (u : UnitId) (paced : Bool) (pc : W64) (runEnd : Option W64) : SlotRes :=
  match fetchWord s u pc with
  | .fault c a => .fault c a
  | .poison x pa => .poison x pa
  | .stage2 l i a => .stage2 l i a
  | .word w =>
    match fetchWord s u (sheafBase pc) with
    | .fault c a => .fault c a
    | .poison x pa => .poison x pa
    | .stage2 l i a => .stage2 l i a
    | .word pace =>
      if opOf w = 0x7FE && slotIndex pc != 3 then
        match fetchWord s u (pc + 4) with
        | .fault c a => .fault c a
        | .poison x pa => .poison x pa
        | .stage2 l i a => .stage2 l i a
        | .word w2 => .ok (slotOf u paced pc runEnd pace w w2)
      else .ok (slotOf u paced pc runEnd pace w 0)

/-! ### The walk of an upper sequencer (R98) -/

/-- The scope of a slot's word, whatever else its fields hold. -/
def levelOf (w : W32) : Lvl :=
  match raw w with
  | some i => scopeOf i
  | none => .g

inductive Scan where
  /-- The next slot that holds an instruction of an upper scope. -/
  | slot (a : W64) (w : W32)
  /-- The end of the walk: the range's, or the sequencer's own run's. -/
  | stop (a : W64)
  | fault (cause : Nat) (a : W64)
  | poison (a : W64) (pa : Nat)
  | stage2 (level ipa : Nat) (a : W64)
  deriving DecidableEq, Repr

/-- Scans from a slot for one whose scope the sequencer's walk stops at. -/
def scanFrom (s : State) (u : UnitId) (k : Kcb) (own : Option W64) : Nat → W64 → Scan
  | 0, a => .stop a
  | fuel + 1, a =>
    if own = some a then .stop a
    else if !k.inRange a then .stop a
    else match fetchWord s u a with
      | .fault c x => .fault c x
      | .poison x pa => .poison x pa
      | .stage2 l i x => .stage2 l i x
      | .word w =>
        let stops := match lvlOfUnit u, levelOf w with
          | _, .d => true
          | .t, .t => true
          | _, _ => false
        if stops then .slot a w else scanFrom s u k own fuel (nextSlot a)

def scan (s : State) (u : UnitId) (k : Kcb) (own : Option W64) (pc : W64) : Scan :=
  scanFrom s u k own ((k.cend.toNat - k.cstart.toNat) / 4 + 2) pc

end Sys2Proof.Machine
end

