-- ==== Sys2Proof/Machine/Control.lean ====
section
/-! DEFINITION. The control instructions of every scope but the handler returns (R97 to R122): branches, calls,
loops, lane exit, ends, WIN, YIELD, TRAP, NOP. One effect on the control state serves the three scopes. -/

namespace Sys2Proof.Machine

open Sys2Proof

/-! ### Shared operations -/

/-- A transfer to a slot address: check_code(t), then PC := t (R131). -/
def Ctl.goto (c : Ctl) (k : Kcb) (t : W64) : Except Trap Ctl :=
  if k.inRange t then .ok { c with pc := t } else .error (trap cCode)

def Ctl.step (c : Ctl) (pc : W64) : Except Trap Ctl := .ok { c with pc := pc }

/-- A group instruction that changes its control state. -/
def commitCtl (s : State) (ix : IX) (i : Instr) (c : Ctl) : State :=
  commit s { ix with x := { ix.x with g := { ix.x.g with ctl := c } } } i (.w []) c.pc

/-- Runs a control effect at the scope of the issuing unit: a new control state with its pc, or a fault. -/
def ctlOp (s : State) (i : Instr) (f : (SReg → W64) → Kcb → Ctl → Except Trap Ctl) : Out :=
  withUnit s i
    (fun ix =>
      match f ix.x.rd ix.x.gr.kcb ix.x.g.ctl with
      | .error t => .next (takeFault s (.group ix.x.k) t)
      | .ok c => .next (commitCtl s ix i c))
    (fun u =>
      match s.ctl? u, s.kcb? u with
      | some c, some k =>
        match f (seqRead s u i) k c with
        | .error t => .next (takeFault s u t)
        | .ok c => .next (seqDone (s.updCtl u fun _ => c) u c.pc)
      | _, _ => .fault .noSuchUnit)

/-- A branch on a condition (R107). -/
def branchOp (s : State) (i : Instr) (d : BitVec 14) (cond : (SReg → W64) → Bool) : Out :=
  ctlOp s i fun rd k c => if cond rd then c.goto k (target s.iss.slot d) else c.step s.nextPc

/-! ### Branches -/

def execNop (sc : Lvl) (s : State) : Out := ctlOp s (.nop sc) fun _ _ c => c.step s.nextPc

def execBrZ (sc : Lvl) (a : SReg) (d : BitVec 14) (s : State) : Out :=
  branchOp s (.brZ sc a d) d fun rd => rd a == 0

def execBrNz (sc : Lvl) (a : SReg) (d : BitVec 14) (s : State) : Out :=
  branchOp s (.brNz sc a d) d fun rd => rd a != 0

/-- R104: the condition of one group for a mask. -/
def maskAny (m live : W64) : Bool := (m &&& live) != 0
def maskAll (m live : W64) : Bool := (m &&& live) == live

/-- BRM at T and D: the combined reports of the members as words [any, all, nonempty]. -/
def brmVoted (q : Seq) (all : Bool) : Bool × Bool :=
  let v := q.voted.getD []
  (if all then v[1]? == some 1 else v[0]? == some 1, v[2]? == some 1)

/-- R108. -/
def execBrm (sc : Lvl) (all not : Bool) (m : MReg) (d : BitVec 14) (s : State) : Out :=
  let i : Instr := .brm sc all not m d
  let go (cond : Bool × Bool) (k : Kcb) (c : Ctl) : Except Trap Ctl :=
    if cond.2 && (cond.1 != not) then c.goto k (target s.iss.slot d) else c.step s.nextPc
  withUnit s i
    (fun ix =>
      let g := ix.x.g
      let cond := if all then maskAll (g.mreg m.toNat) g.live else maskAny (g.mreg m.toNat) g.live
      match go (cond, g.live != 0) ix.x.gr.kcb g.ctl with
      | .error t => .next (takeFault s (.group ix.x.k) t)
      | .ok c => .next (commitCtl s ix i c))
    (fun u =>
      match s.seq? u, s.kcb? u with
      | some q, some k =>
        match go (brmVoted q all) k q.ctl with
        | .error t => .next (takeFault s u t)
        | .ok c => .next (seqDone (s.updCtl u fun _ => c) u c.pc)
      | _, _ => .fault .noSuchUnit)

def execJmp (sc : Lvl) (d : BitVec 14) (s : State) : Out :=
  ctlOp s (.jmp sc d) fun _ k c => c.goto k (target s.iss.slot d)

/-- R62, R109: a register-held target. -/
def Ctl.gotoReg (c : Ctl) (k : Kcb) (t : W64) : Except Trap Ctl :=
  if slot1 t then c.goto k t else .error (trap cCode)

def execJmpr (sc : Lvl) (b : SReg) (s : State) : Out :=
  ctlOp s (.jmpr sc b) fun rd k c => c.gotoReg k (rd b)

/-! ### Calls and returns (R22, R110 to R112) -/

/-- A call stack entry: return slot address in [54:0], loop depth in [57:55]. -/
def callEntry (ret : W64) (depth : Nat) : W64 := BitVec.ofNat 64 (ret.toNat % 2 ^ 55 + depth % 8 * 2 ^ 55)
def entryRet (e : W64) : W64 := e &&& BitVec.ofNat 64 (2 ^ 55 - 1)
def entryDepth (e : W64) : Nat := bitsOf e.toNat 57 55

def Ctl.callDepth (c : Ctl) : Nat := c.calls.length + c.spill.length

/-- Pushes an entry; a full hardware part spills its oldest. -/
def Ctl.push (c : Ctl) (e : W64) : Ctl :=
  if c.calls.length < 8 then { c with calls := e :: c.calls }
  else { c with calls := e :: c.calls.take 7, spill := c.calls.drop 7 ++ c.spill }

/-- The hardware part, refilled from the spill area where it is empty. -/
def Ctl.refill (c : Ctl) : Ctl :=
  match c.calls, c.spill with
  | [], e :: es => { c with calls := [e], spill := es }
  | _, _ => c

def Ctl.call (c : Ctl) (k : Kcb) (t next : W64) : Except Trap Ctl :=
  match c.goto k t with
  | .error e => .error e
  | .ok c' =>
    if c.callDepth = 40 then .error (trap cOverflow)
    else .ok (c'.push (callEntry next c.loops.length))

def execCall (sc : Lvl) (d : BitVec 14) (s : State) : Out :=
  ctlOp s (.call sc d) fun _ k c => c.call k (target s.iss.slot d) s.nextPc

def execCallr (sc : Lvl) (b : SReg) (s : State) : Out :=
  ctlOp s (.callr sc b) fun rd k c => if slot1 (rd b) then c.call k (rd b) s.nextPc else .error (trap cCode)

/-- R111: the check of the return address precedes the pop. -/
def Ctl.ret (c : Ctl) (k : Kcb) : Except Trap Ctl :=
  let r := c.refill
  match r.calls with
  | [] => .error (trap cUnderflow)
  | e :: es =>
    match r.goto k (entryRet e) with
    | .error t => .error t
    | .ok r => .ok { r with calls := es, loops := r.loops.drop (r.loops.length - entryDepth e) }

def execRet (sc : Lvl) (s : State) : Out := ctlOp s (.ret sc) fun _ k c => c.ret k

/-! ### Counted loops (R23, R113 to R115) -/

/-- R113; `next` is the slot after the LOOP, `exit` its exit. -/
def Ctl.loop (c : Ctl) (k : Kcb) (n exit next : W64) : Except Trap Ctl :=
  if n = 0 then c.goto k exit
  else if c.loops.length = 6 then .error (trap cLoop)
  else .ok { c with loops := ⟨n, next⟩ :: c.loops, pc := next }

def execLoop (sc : Lvl) (a : SReg) (d : BitVec 14) (s : State) : Out :=
  ctlOp s (.loop sc a d) fun rd k c => c.loop k (rd a) (target s.iss.slot d) s.nextPc

/-- The loop depth that the current call frame records. -/
def Ctl.frameDepth (c : Ctl) : Nat :=
  match c.calls ++ c.spill with
  | [] => 0
  | e :: _ => entryDepth e

/-- The loop entry that NEXT and BRK act on, with those below it. -/
def Ctl.topLoop (c : Ctl) : Option (LoopEnt × List LoopEnt) :=
  if c.loops.length ≤ c.frameDepth then none
  else match c.loops with
    | [] => none
    | l :: ls => some (l, ls)

def Ctl.next (c : Ctl) (next : W64) : Except Trap Ctl :=
  match c.topLoop with
  | none => .error (trap cLoop)
  | some (l, ls) =>
    if l.remaining = 1 then .ok { c with loops := ls, pc := next }
    else .ok { c with loops := { l with remaining := l.remaining - 1 } :: ls, pc := l.body }

def execNext (sc : Lvl) (s : State) : Out := ctlOp s (.next sc) fun _ _ c => c.next s.nextPc

def Ctl.brk (c : Ctl) (k : Kcb) (t : W64) : Except Trap Ctl :=
  match c.topLoop with
  | none => .error (trap cLoop)
  | some (_, ls) =>
    match c.goto k t with
    | .error e => .error e
    | .ok c => .ok { c with loops := ls }

def execBrk (sc : Lvl) (d : BitVec 14) (s : State) : Out :=
  ctlOp s (.brk sc d) fun _ k c => c.brk k (target s.iss.slot d)

/-! ### Lane scope (R116, R117) -/

def execSkip (m : MReg) (d : BitVec 14) (s : State) : Out :=
  withGroup s (.skip m d) fun ix =>
    let g := ix.x.g
    let r := if maskAny (g.mreg m.toNat) g.live then g.ctl.step s.nextPc
      else g.ctl.goto ix.x.gr.kcb (target s.iss.slot d)
    match r with
    | .error t => .next (takeFault s (.group ix.x.k) { t with lane := true })
    | .ok c => .next (commitCtl s ix (.skip m d) c)

/-- Retirement begins (R21): the group is no longer an active member, and its stacks, with a handler frame, go. -/
def beginRetire (s : State) (k : Nat) : State :=
  match s.group? k with
  | none => s
  | some g =>
    let s := s.updTeam g.team fun t => { t with activeG := t.activeG.filter (· != k) }
    let s := s.updGroup k fun g =>
      { g with st := .retiring, run := none, ctl := { g.ctl with calls := [], spill := [], loops := [], frame := none } }
    unparkParent s (.group k)

def execExit (s : State) : Out :=
  withGroup s .exit fun ix =>
    let live := ix.x.g.live &&& ~~~ix.act
    let ix' := { ix with x := { ix.x with g := { ix.x.g with live := live } } }
    let s' := commit s ix' .exit (.w []) s.nextPc
    .next (if live = 0 then beginRetire s' ix.x.k else s')

/-! ### Ends (R118) -/

/-- END.T: an end marker in the race of every group that has not retired; the team sequencer is DONE. -/
def endTeam (s : State) (t : Nat) : State :=
  let s := foldS s (match s.team? t with | some x => x.activeG | none => []) fun s k =>
    s.updGroup k fun g => { g with race := g.race ++ [.marker] }
  let s := s.updSeq (.team t) fun q => { q with st := .done, voted := none, ctl := { q.ctl with frame := none } }
  unparkParent s (.team t)

/-- END.D: an end marker in every team's race; the grid sequencer is DONE. -/
def endGrid (s : State) (g : Nat) : State :=
  let s := foldS s (s.teamsOfGrid g) fun s t => s.updTeam t fun x => { x with race := x.race ++ [.marker] }
  s.updSeq (.grid g) fun q => { q with st := .done, voted := none, ctl := { q.ctl with frame := none } }

def execEnd (sc : Lvl) (s : State) : Out :=
  withUnit s (.end_ sc)
    (fun ix => .next (beginRetire (commitCtl s ix (.end_ sc) { ix.x.g.ctl with pc := s.nextPc }) ix.x.k))
    (fun u =>
      let s := seqDone s u s.nextPc
      match u with
      | .team t => .next (endTeam s t)
      | .grid g => .next (endGrid s g)
      | _ => .fault .noSuchUnit)

/-! ### WIN, YIELD, TRAP (R119 to R121) -/

def execWin (i : BitVec 3) (s : State) : Out :=
  withGroup s (.win i) fun ix =>
    let base := i.toNat * 32
    if ix.x.g.alloc ≤ base then .next (takeFault s (.group ix.x.k) (trap cBound base))
    else
      let ix' := { ix with x := { ix.x with g := { ix.x.g with vwb := base } } }
      .next (commit s ix' (.win i) (.w []) s.nextPc)

/-- A pre-emption request takes effect at a YIELD. -/
def StopReq.yield : StopReq → StopReq
  | .preempt => .yielded
  | r => r

def execYield (sc : Lvl) (s : State) : Out :=
  withUnit s (.yield sc)
    (fun ix =>
      let g := { ix.x.g with stopReq := ix.x.g.stopReq.yield, ctl := { ix.x.g.ctl with pc := s.nextPc } }
      .next ((commit s { ix with x := { ix.x with g := g } } (.yield sc) (.w []) s.nextPc).updGroup ix.x.k fun g =>
        { g with age := 2 * s.clk + 1 }))
    (fun u =>
      let s := seqDone s u s.nextPc
      match s.seq? u with
      | some q => .next (if q.stopReq = .preempt then s.post [.sequencerPark u] else s)
      | none => .fault .noSuchUnit)

def execTrap (sc : Lvl) (c : BitVec 14) (s : State) : Out :=
  withUnit s (.trap sc c)
    (fun ix => .next (takeFault s (.group ix.x.k) (trap cTrap c.toNat)))
    (fun u => .next (takeFault s u (trap cTrap c.toNat)))

/-! ### Slots that hold no instruction (R92, R93) -/

/-- The fault of a word with a field that its entry does not allow: what R93 checks before it, on the raw fields. -/
def fieldsTrap (s : State) (u : UnitId) (w : W32) : Trap :=
  match raw w with
  | none => trap cIllegal
  | some i =>
    let inSup := match u with | .group k => (match s.group? k with | some g => g.sframe.isSome | none => false) | _ => false
    (firstTrap [
      (match s.iss.pfx with | some p => if pfxOk i p then none else some (trap cEncoding) | none => none),
      (if supervisorOnly i && !inSup then some (trap cIllegal) else none),
      featureTrap s u (featuresAt i s.iss.pfx)]).getD (trap cIllegal)

/-- R92: what each encoding that is not an instruction takes; a pace word defect comes first (R93). A word of SKIP.L or
EXIT.L faults at scope L whatever the cause (R32). -/
def illegalTrap (s : State) (u : UnitId) (why : IllegalWhy) : Trap :=
  match why with
  | .prefixPlace => trap cEncoding
  | .zeroWord | .opReserved | .unassigned => trap (if s.iss.defect then cEncoding else cIllegal)
  | .fields w =>
    { (if s.iss.defect then trap cEncoding else fieldsTrap s u w) with
      lane := (match raw w with | some i => laneScope i | none => false) }

def execIllegalInstruction (why : IllegalWhy) (s : State) : Out :=
  match s.ctl? s.iss.unit with
  | none => .fault .noSuchUnit
  | some _ => faultNow s (illegalTrap s s.iss.unit why)

end Sys2Proof.Machine
end

