-- ==== Sys2Proof/Machine/Float.lean ====
section
/-! DEFINITION. Number formats and rounding (R36 to R51): the named functions that the floating-point,
conversion and matrix instructions share. A value is exact: a sign, a magnitude m × 2^e, and a sticky bit that
says the true magnitude lies strictly between m × 2^e and (m + 1) × 2^e. -/

namespace Sys2Proof

/-! ### Integers (R37) -/

def satI (n : Nat) (x : Int) : Int := min (max x (-(2 ^ (n - 1) : Nat))) ((2 ^ (n - 1) : Nat) - 1)
def satN (n : Nat) (x : Int) : Int := min (max x 0) ((2 ^ n : Nat) - 1)
/-- x modulo 2^n as a natural number. -/
def wrapN (n : Nat) (x : Int) : Nat := (x % ((2 ^ n : Nat) : Int)).toNat
/-- The value of n bits read as two's complement. -/
def signed (n : Nat) (x : Nat) : Int := if x < 2 ^ (n - 1) then (x : Int) else (x : Int) - ((2 ^ n : Nat) : Int)

/-! ### Flags of SR.FSTAT (R31) as bits -/

def fNX : Nat := 1
def fUF : Nat := 2
def fOF : Nat := 4
def fDZ : Nat := 8
def fINV : Nat := 16

/-! ### Formats (R38 to R41, R56) -/

/-- A format: exponent bits, fraction bits, bias; whether it has an infinity and a signalling NaN. -/
structure Fmt where
  ebits : Nat
  frac : Nat
  bias : Nat
  hasInf : Bool
  hasSnan : Bool
  deriving DecidableEq, Repr

def Fmt.fp32 : Fmt := ⟨8, 23, 127, true, true⟩
def Fmt.fp16 : Fmt := ⟨5, 10, 15, true, true⟩
def Fmt.bf16 : Fmt := ⟨8, 7, 127, true, true⟩
def Fmt.e5m2 : Fmt := ⟨5, 2, 15, true, false⟩
def Fmt.e4m3 : Fmt := ⟨4, 3, 7, false, false⟩
def Fmt.a48 : Fmt := ⟨10, 37, 511, true, false⟩

def Fmt.signBit (f : Fmt) : Nat := f.ebits + f.frac
def Fmt.infCode (f : Fmt) : Nat := (2 ^ f.ebits - 1) * 2 ^ f.frac
/-- The encoding of the largest finite magnitude. -/
def Fmt.maxCode (f : Fmt) : Nat := if f.hasInf then f.infCode - 1 else f.infCode + 2 ^ f.frac - 2
def Fmt.nanCode (f : Fmt) : Nat := if f.hasInf then f.infCode + 2 ^ (f.frac - 1) else f.infCode + 2 ^ f.frac - 1
/-- The exponent of the last place of a subnormal. -/
def Fmt.qmin (f : Fmt) : Int := 1 - (f.bias : Int) - (f.frac : Int)

/-- An exact value (R44). -/
inductive FVal where
  | nan (signalling : Bool)
  | inf (neg : Bool)
  | fin (neg : Bool) (m : Nat) (e : Int)
  deriving DecidableEq, Repr

/-- Reading an encoding (R39, R40, R41, R56). -/
def Fmt.read (f : Fmt) (x : Nat) : FVal :=
  let neg := x / 2 ^ f.signBit % 2 == 1
  let code := x % 2 ^ f.signBit
  let e := code / 2 ^ f.frac
  let m := code % 2 ^ f.frac
  if f.hasInf && e == 2 ^ f.ebits - 1 then
    if m = 0 then .inf neg else .nan (f.hasSnan && m < 2 ^ (f.frac - 1))
  else if !f.hasInf && code == f.nanCode then .nan false
  else if e = 0 then .fin neg m f.qmin
  else .fin neg (2 ^ f.frac + m) (f.qmin + (e : Int) - 1)

def Fmt.withSign (f : Fmt) (neg : Bool) (code : Nat) : Nat := (if neg then 2 ^ f.signBit else 0) + code

/-! ### Rounding modes (R43) -/

inductive Rnd where
  | rne | rtz | rdn | rup | rna | sr
  deriving DecidableEq, Repr

/-- The mode that a prefix field names; code 7, and 6 where it is accepted, is the default (R43). -/
def rndOf (code : Nat) (dflt : Rnd) : Rnd :=
  match code with
  | 0 => .rne
  | 1 => .rtz
  | 2 => .rdn
  | 3 => .rup
  | 4 => .rna
  | 5 => .sr
  | _ => dflt

/-- Number of bits of a natural number. -/
def bitLen (n : Nat) : Nat := if n = 0 then 0 else Nat.log2 n + 1

/-- The choice between two neighbours (R43, R47): true for b. `odd` is the last bit of a, `rem` of `den` the distance
from a, `st` the sticky bit, `u` the value of the lane's generator. -/
def pickUp (mode : Rnd) (neg odd : Bool) (rem den : Nat) (st : Bool) (u : Nat) : Bool :=
  match mode with
  | .rtz => false
  | .rdn => neg
  | .rup => !neg
  | .rne => decide (den < 2 * rem) || (2 * rem == den && (st || odd))
  | .rna => decide (den ≤ 2 * rem)
  | .sr => decide (u < 2 ^ 32 * rem / den)

/-- m × 2^e, sticky, on the grid of last places 2^q: the integer multiple chosen and whether it is inexact. -/
def roundTo (mode : Rnd) (neg : Bool) (m : Nat) (e q : Int) (st : Bool) (u : Nat) : Nat × Bool :=
  if q ≤ e then
    let a := m * 2 ^ (e - q).toNat
    if st then (if pickUp mode neg (a % 2 == 1) 0 1 true u then a + 1 else a, true) else (a, false)
  else
    let den := 2 ^ (q - e).toNat
    let a := m / den
    let rem := m % den
    if rem = 0 && !st then (a, false)
    else (if pickUp mode neg (a % 2 == 1) rem den st u then a + 1 else a, true)

/-- What rounding gives before the format's own treatment of overflow. -/
inductive RVal where
  | nan | inf (neg : Bool) | code (neg : Bool) (c : Nat) | beyond (neg : Bool)
  deriving DecidableEq, Repr

/-- round_fmt up to overflow (R44). -/
def roundCore (f : Fmt) (mode : Rnd) (u : Nat) (st : Bool) : FVal → RVal × Nat
  | .nan _ => (.nan, 0)
  | .inf neg => (.inf neg, 0)
  | .fin neg m e =>
    if m = 0 && !st then (.code neg 0, 0)
    else
      let q := max (e + (bitLen m : Int) - 1 - (f.frac : Int)) f.qmin
      let (n, inexact) := roundTo mode neg m e q st u
      let c := (q - f.qmin).toNat * 2 ^ f.frac + n
      if f.maxCode < c then (.beyond neg, fOF + fNX)
      else (.code neg c, if inexact then (if c < 2 ^ f.frac then fNX + fUF else fNX) else 0)

/-- The value of an overflow (R45): true for the largest finite value. -/
def overFinite (mode : Rnd) (neg : Bool) : Bool :=
  match mode with
  | .rtz => true
  | .rdn => !neg
  | .rup => neg
  | _ => false

/-- round_fmt (R44, R45), for a format with an infinity. Encoding and flags. -/
def roundFmt (f : Fmt) (mode : Rnd) (u : Nat) (x : FVal) (st : Bool := false) : Nat × Nat :=
  match roundCore f mode u st x with
  | (.nan, g) => (f.nanCode, g)
  | (.inf neg, g) => (f.withSign neg f.infCode, g)
  | (.code neg c, g) => (f.withSign neg c, g)
  | (.beyond neg, g) => (f.withSign neg (if overFinite mode neg then f.maxCode else f.infCode), g)

/-- cvt8 (R48), to E4M3 or E5M2. -/
def cvt8 (f : Fmt) (mode : Rnd) (u : Nat) (sat : Bool) (x : FVal) : Nat × Nat :=
  match x with
  | .nan _ => (f.nanCode, 0)
  | .inf neg =>
    if sat then (f.withSign neg f.maxCode, fOF + fNX)
    else if f.hasInf then (f.withSign neg f.infCode, 0)
    else (f.nanCode, fINV)
  | x =>
    match roundCore f mode u false x with
    | (.beyond neg, g) =>
      if sat then (f.withSign neg f.maxCode, g)
      else if overFinite mode neg then (f.withSign neg f.maxCode, g)
      else if f.hasInf then (f.withSign neg f.infCode, g)
      else (f.nanCode, g)
    | (.code neg c, g) => (f.withSign neg c, g)
    | (.nan, g) => (f.nanCode, g)
    | (.inf neg, g) => (f.withSign neg f.infCode, g)

/-- round_int (R49, R55): a finite value to an integer, and whether it was inexact. -/
def roundInt (mode : Rnd) (u : Nat) (neg : Bool) (m : Nat) (e : Int) : Int × Bool :=
  let (n, inexact) := roundTo mode neg m e 0 false u
  (if neg then -(n : Int) else (n : Int), inexact)

/-- cvt_int (R49) to a signed or unsigned integer of n bits. -/
def cvtInt (n : Nat) (sgn : Bool) (mode : Rnd) (u : Nat) (x : FVal) : Nat × Nat :=
  let lo : Int := if sgn then -((2 ^ (n - 1) : Nat) : Int) else 0
  let hi : Int := if sgn then ((2 ^ (n - 1) : Nat) : Int) - 1 else ((2 ^ n : Nat) : Int) - 1
  match x with
  | .nan _ => (0, fINV)
  | .inf neg => (wrapN n (if neg then lo else hi), fINV)
  | .fin neg m e =>
    let (r, inexact) := roundInt mode u neg m e
    if r < lo then (wrapN n lo, fINV)
    else if hi < r then (wrapN n hi, fINV)
    else (wrapN n r, if inexact then fNX else 0)

/-- An exact integer as a value. -/
def intVal (x : Int) : FVal := .fin (decide (x < 0)) x.natAbs 0

/-! ### Exact arithmetic (R155 to R157) -/

def FVal.isNan : FVal → Bool
  | .nan _ => true
  | _ => false

def FVal.isSnan : FVal → Bool
  | .nan b => b
  | _ => false

/-- Flag of an operand list: INV when one is a signalling NaN (R41). -/
def snanFlag (xs : List FVal) : Nat := if xs.any (·.isSnan) then fINV else 0

def FVal.neg : FVal → FVal
  | .nan b => .nan b
  | .inf s => .inf (!s)
  | .fin s m e => .fin (!s) m e

/-- The exact sum; the zero rule of R155 depends on whether the mode is RDN. -/
def fsum (rdn : Bool) (x y : FVal) : FVal × Nat :=
  match x, y with
  | .nan a, y => (.nan false, if a || y.isSnan then fINV else 0)
  | _, .nan b => (.nan false, if b then fINV else 0)
  | .inf a, .inf b => if a = b then (.inf a, 0) else (.nan false, fINV)
  | .inf a, _ => (.inf a, 0)
  | _, .inf b => (.inf b, 0)
  | .fin s1 m1 e1, .fin s2 m2 e2 =>
    if m1 = 0 && m2 = 0 then (.fin (if s1 = s2 then s1 else rdn) 0 0, 0)
    else
      let e := min e1 e2
      let a : Int := (m1 * 2 ^ (e1 - e).toNat : Nat)
      let b : Int := (m2 * 2 ^ (e2 - e).toNat : Nat)
      let t := (if s1 then -a else a) + (if s2 then -b else b)
      if t = 0 then (.fin rdn 0 0, 0) else (.fin (decide (t < 0)) t.natAbs e, 0)

/-- The exact product. -/
def fprod (x y : FVal) : FVal × Nat :=
  match x, y with
  | .nan a, y => (.nan false, if a || y.isSnan then fINV else 0)
  | _, .nan b => (.nan false, if b then fINV else 0)
  | .inf a, .inf b => (.inf (a != b), 0)
  | .inf a, .fin s m _ => if m = 0 then (.nan false, fINV) else (.inf (a != s), 0)
  | .fin s m _, .inf b => if m = 0 then (.nan false, fINV) else (.inf (s != b), 0)
  | .fin s1 m1 e1, .fin s2 m2 e2 => (.fin (s1 != s2) (m1 * m2) (e1 + e2), 0)

/-- x × y + d in a format, with one rounding (R157). -/
def fmaFmt (f : Fmt) (mode : Rnd) (u : Nat) (x y d : FVal) : Nat × Nat :=
  let (p, g1) := fprod x y
  let (t, g2) := fsum (mode == .rdn) p d
  let (r, g3) := roundFmt f mode u t
  (r, g1 ||| g2 ||| g3 ||| snanFlag [x, y, d])

def addFmt (f : Fmt) (mode : Rnd) (u : Nat) (x y : FVal) : Nat × Nat :=
  let (t, g) := fsum (mode == .rdn) x y
  let (r, g') := roundFmt f mode u t
  (r, g ||| g')

def mulFmt (f : Fmt) (mode : Rnd) (u : Nat) (x y : FVal) : Nat × Nat :=
  let (t, g) := fprod x y
  let (r, g') := roundFmt f mode u t
  (r, g ||| g')

/-- Whether x is below y, neither a NaN; the two zeros are equal. -/
def FVal.lt (x y : FVal) : Bool :=
  match x, y with
  | .inf a, .inf b => a && !b
  | .inf a, _ => a
  | _, .inf b => !b
  | .fin s1 m1 e1, .fin s2 m2 e2 =>
    let e := min e1 e2
    let a : Int := (m1 * 2 ^ (e1 - e).toNat : Nat)
    let b : Int := (m2 * 2 ^ (e2 - e).toNat : Nat)
    decide ((if s1 then -a else a) < (if s2 then -b else b))
  | _, _ => false

def FVal.isNeg : FVal → Bool
  | .inf s => s
  | .fin s _ _ => s
  | .nan _ => false

/-- FMIN and FMAX on encodings (R158): one of the operands bit for bit, −0 below +0. -/
def minmaxFmt (f : Fmt) (max : Bool) (x y : Nat) : Nat × Nat :=
  let a := f.read x
  let b := f.read y
  if a.isNan || b.isNan then (f.nanCode, snanFlag [a, b])
  else
    let xLess := a.lt b || (!(b.lt a) && a.isNeg && !b.isNeg)
    (if xLess != max then x else y, 0)

/-- The relation of FCMP (R148): result and flags. -/
def fcompare (k : FCond) (x y : Nat) : Bool × Nat :=
  let a := Fmt.fp32.read x
  let b := Fmt.fp32.read y
  let un := a.isNan || b.isNan
  let quiet := snanFlag [a, b]
  let order := if un then fINV else 0
  match k with
  | .eq => (!un && !(a.lt b) && !(b.lt a), quiet)
  | .ne => (un || a.lt b || b.lt a, quiet)
  | .lt => (!un && a.lt b, order)
  | .le => (!un && !(b.lt a), order)
  | .gt => (!un && b.lt a, order)
  | .ge => (!un && !(a.lt b), order)
  | .un => (un, quiet)

/-- The class of a value for FTST and FCLASS (R39, R149, R160): NaN, infinity, normal, subnormal, zero as 0 to 4. -/
def Fmt.classOf (f : Fmt) (x : Nat) : Nat :=
  match f.read x with
  | .nan _ => 0
  | .inf _ => 1
  | .fin _ m _ => if m = 0 then 4 else if m < 2 ^ f.frac then 3 else 2

def Fmt.signOf (f : Fmt) (x : Nat) : Bool := x / 2 ^ f.signBit % 2 == 1

/-- FCLASS (R160): the bit number. -/
def fclassBit (x : Nat) : Nat :=
  let neg := Fmt.fp32.signOf x
  match Fmt.fp32.read x with
  | .nan s => if s then 8 else 9
  | .inf _ => if neg then 0 else 7
  | .fin _ m _ =>
    if m = 0 then (if neg then 3 else 4)
    else if m < 2 ^ 23 then (if neg then 2 else 5)
    else (if neg then 1 else 6)

/-- FRND (R159): the integral value that the mode chooses, the sign kept. -/
def frndFmt (mode : Rnd) (u : Nat) (x : Nat) : Nat × Nat :=
  match Fmt.fp32.read x with
  | .nan s => (Fmt.fp32.nanCode, if s then fINV else 0)
  | .inf _ => (x, 0)
  | .fin neg m e =>
    if 0 ≤ e then (x, 0)
    else
      let (n, _) := roundTo mode neg m e 0 false u
      ((roundFmt .fp32 .rne 0 (.fin neg n 0)).1, 0)

/-! ### The stochastic rounding generator (R47) -/

def nextRand (x : W32) : W32 :=
  let a := x ^^^ (x <<< 13)
  let b := a ^^^ (a >>> 17)
  b ^^^ (b <<< 5)

end Sys2Proof
end

