-- ==== Sys2Proof/Machine/Coherence.lean ====
section
/-! DEFINITION. The messages between L1s and homes (R318 to R330, R299 to R303): requests and their order at a grain,
fills, invalidations and recalls, operations executed at the home, deliveries, releaser records and flushes. -/

namespace Sys2Proof.Machine

open Sys2Proof

/-! ### Results that reach a group -/

/-- Adds register results to a flight and takes one part of its wait away. -/
def Group.arrive (g : Group) (flight : Nat) (ws : List RegW) : Group :=
  { g with flights := g.flights.map fun f =>
      if f.id = flight then { f with writes := f.writes ++ ws, wait := f.wait - 1 } else f }

def flightArrive (s : State) (grp flight : Nat) (ws : List RegW) : State := s.updGroup grp fun g => g.arrive flight ws

/-- extend (R180): the registers that a lane load writes. -/
def mtypeExtend (t : MType) (x : Nat) : List W32 :=
  match t with
  | .n8 => [BitVec.ofNat 32 (x % 2 ^ 8)]
  | .i8 => [BitVec.ofNat 32 (wrapN 32 (signed 8 (x % 2 ^ 8)))]
  | .n16 => [BitVec.ofNat 32 (x % 2 ^ 16)]
  | .i16 => [BitVec.ofNat 32 (wrapN 32 (signed 16 (x % 2 ^ 16)))]
  | .b32 => [BitVec.ofNat 32 x]
  | .b64 => [BitVec.ofNat 32 x, BitVec.ofNat 32 (x / 2 ^ 32)]
  | .b128 => [BitVec.ofNat 32 x, BitVec.ofNat 32 (x / 2 ^ 32), BitVec.ofNat 32 (x / 2 ^ 64), BitVec.ofNat 32 (x / 2 ^ 96)]

/-- A scalar load's 64-bit value (R185). -/
def stypeExtend (t : SType) (x : Nat) : W64 :=
  match t with
  | .n8 => BitVec.ofNat 64 (x % 2 ^ 8)
  | .i8 => BitVec.ofNat 64 (wrapN 64 (signed 8 (x % 2 ^ 8)))
  | .n16 => BitVec.ofNat 64 (x % 2 ^ 16)
  | .i16 => BitVec.ofNat 64 (wrapN 64 (signed 16 (x % 2 ^ 16)))
  | .n32 => BitVec.ofNat 64 (x % 2 ^ 32)
  | .i32 => BitVec.ofNat 64 (wrapN 64 (signed 32 (x % 2 ^ 32)))
  | .b64 => BitVec.ofNat 64 x

/-- Writes of consecutive physical registers of a lane. -/
def physWrites (lane phys : Nat) : List W32 → List RegW
  | [] => []
  | x :: xs => .v lane phys x :: physWrites lane (phys + 1) xs

/-- The lowest destination register of a lane in a flight, from its pending registers. -/
def Flight.destOf (f : Flight) (lane : Nat) : Nat :=
  match f.pendV.filter fun k => k / 256 == lane with
  | [] => 0
  | k :: ks => (ks.foldl min k) % 256

/-! ### Data errors (R408, R452) -/

/-- An access that returned no data: the lane's address, its physical address and whether it writes. -/
structure BadAcc where
  lane : Nat
  va : Nat
  pa : Nat
  wr : Bool
  deriving DecidableEq, Repr

/-- A group's access that returned no data: its flight ends with nothing written, the group stops as for a debug stop,
and a data-error record goes to the physical function and to the partition's queue. A store on another device may have ended
before (R451). -/
def dataErrorGroup (s : State) (grp flight : Nat) (b : BadAcc) : State :=
  match s.group? grp with
  | none => s
  | some g =>
    let f? := g.flights.find? fun f => f.id == flight
    if f?.isNone && !g.acks.contains flight then s
    else
      let s := s.updGroup grp fun g => { g with acks := g.acks.erase flight }
      let r : FRec := { FRec.of 0x40 0 with va := BitVec.ofNat 64 b.va, xaddr := b.pa, wr := b.wr, detail := b.lane }
      match f? with
      | none => dataStop s (.group grp) r
      | some f => dataStop (s.updGroup grp fun g => g.land { f with writes := [] }) (.group grp)
          { r with fpc := f.fpc, scope := if f.scalar then 1 else 0 }

/-! ### Pending misses of a core -/

def Core.miss? (c : Core) (g : Nat) : Option Miss := c.misses.find? fun m => m.grain == g

def Core.setMiss (c : Core) (m : Miss) : Core :=
  { c with misses := c.misses.map fun x => if x.grain = m.grain then m else x }

def Core.dropMiss (c : Core) (g : Nat) : Core := { c with misses := c.misses.filter fun m => m.grain != g }

/-- An access that the L1 cannot serve joins the pending miss of its grain, or opens one; a first request, or a first
request for ownership, is sent. -/
def addWaiter (s : State) (core : Nat) (m : Miss) (w : Waiter) : State :=
  let req (own : Bool) : Instr := if own && m.prot = .d then .ownershipRequest core m.grain else .readRequest core m.grain
  match (s.coreD core).miss? m.grain with
  | none =>
    (s.updCore core fun c => { c with misses := c.misses ++ [{ m with waiters := [w] }] }).post [req m.own]
  | some old =>
    let s := s.updCore core fun c => c.setMiss { old with waiters := old.waiters ++ [w], own := old.own || m.own }
    if m.own && !old.own && m.prot = .d then s.post [req true] else s

/-! ### The home's queue at a grain (R318) -/

def opWrites : HomeAct → Bool
  | .load _ | .loadS _ _ => false
  | _ => true

/-- Whether a request waits in HELD: under LOCK all but reads, under HOSTOWN ownership, executed operations and other
writes, and a request that takes the entry (R318, R322, R330). -/
def Dir.blocks (d : Dir) (r : HomeReq) : Bool :=
  match r with
  | .read _ | .after false _ | .record _ _ => false
  | .own _ | .op _ | .after true _ | .room _ _ => d.lock || d.hostown
  | .merge _ _ | .clean _ => d.lock

/-- The request that a grain serves next: the first, if it need not wait; under LOCK a read passes those that are held
(R318, R322). -/
def Dir.next (d : Dir) : Option HomeReq :=
  if d.lock then d.held.find? fun r => !d.blocks r
  else match d.held with
    | [] => none
    | r :: _ => if d.blocks r then none else some r

/-- A delivery of a grain to a core that the core has not answered. -/
def State.owesAnswer (s : State) (g core : Nat) : Bool := s.dlvs.any fun w => w.grain == g && w.cores.contains core

/-- The copies to invalidate before a request is served (R299, R300, R318, R322). A writeback's own core is among them where a
delivery to it is still due: it would install older bytes. -/
def mustDrop (s : State) (g : Nat) (d : Dir) : HomeReq → List Nat
  | .read _ | .clean _ | .after _ _ | .record _ _ => []
  | .own k => (s.holders d).filter (· != k)
  | .merge k _ => (s.holders d).filter fun c => c != k || s.owesAnswer g k
  | .room _ _ => s.holders d
  | .op o =>
    let all := s.holders d
    match o.act with
    | .dlv cores _ => all.filter fun c => !cores.contains c && c != o.core
    | a => if o.attr.dpage || opWrites a then all else []

def sliceEntries : Nat := 12288

/-- The entries of the slice that serves an address. -/
def sliceDirs (s : State) (pa : Nat) : List (Nat × Dir) :=
  let n := servingSlice s.fw.slicesOut pa
  s.dirs.filter fun p => servingSlice s.fw.slicesOut p.1 == n

/-- The core that flushes before a request is served: a releaser that a record names, before an acquire of another core (R329)
or the loss of the entry; the issuer of an atomic that releases at .GRP or .TEAM, where its record would displace another
core's (R329) or finds no entry (R343; DEDUCED, assumption 94). -/
def mustFlush (s : State) (g : Nat) (d : Dir) (r : HomeReq) : Option Nat :=
  match r, d.rel with
  | .op o, some (c, _) => if c == o.core then none else if o.acq.isSome then some c else if o.rel.isSome then some o.core else none
  | .op o, none => if o.rel.isSome && decide (sliceEntries < (sliceDirs s g).length) then some o.core else none
  | .room _ _, some (c, _) => some c
  | _, _ => none

/-- The messages that a request needs before it is served: none when it can be. -/
def needs (s : State) (g : Nat) (d : Dir) (r : HomeReq) : List Instr :=
  match mustFlush s g d r with
  | some c => [.flushRequest c g]
  | none =>
    match d.st, r with
    | .own c, .read _ => [.recall c g true]
    | .own c, .own _ | .own c, .op _ | .own c, .room _ _ => [.recall c g false]
    | _, _ => (mustDrop s g d r).map fun c => .invalidation c g

/-! ### Operations executed at the home (R187, R188, R328) -/

def atypeBits : AType → Nat
  | .i32 | .n32 => 32
  | _ => 64

/-- The new value of an atomic (R187). -/
def atomNew (o : AOp) (t : AType) (old x : Nat) : Nat :=
  let n := atypeBits t
  let sgn := match t with | .i32 | .i64 => true | _ => false
  let le := if sgn then decide (signed n old ≤ signed n x) else decide (old ≤ x)
  match o with
  | .add => (old + x) % 2 ^ n
  | .min => if le then old else x
  | .max => if le then x else old
  | .and => old &&& x
  | .or => old ||| x
  | .xor => old ^^^ x
  | .exch => x

/-- One lane's operation on the bytes at home: the new state and the value it returns. -/
def laneAct (s : State) (a : HomeAct) (l : LaneOp) : State × Nat :=
  let old := leNat (s.homeRead l.pa l.size)
  let put (x : Nat) : State := s.homeWrite l.pa (leBytes l.size x)
  match a with
  | .atom o t => (put (atomNew o t old (l.x.toNat % 2 ^ atypeBits t)), old)
  | .cas => (if old = l.cmp.toNat % 2 ^ (8 * l.size) then put (l.x.toNat % 2 ^ (8 * l.size)) else s, old)
  | .store | .storeS | .dlv _ _ => (put (l.x.toNat % 2 ^ (8 * l.size)), old)
  | .load _ | .loadS _ _ | .ring _ _ _ => (s, old)

/-- The lanes in increasing order, as one request. -/
def runLanes (s : State) (a : HomeAct) : List LaneOp → State × List (Nat × Nat)
  | [] => (s, [])
  | l :: ls =>
    let (s, x) := laneAct s a l
    let (s, xs) := runLanes s a ls
    (s, (l.lane, x) :: xs)

/-- The registers that a lane's returned value writes. -/
def resultRegs (a : HomeAct) (size x : Nat) : List W32 :=
  match a with
  | .load t => mtypeExtend t x
  | .atom _ _ | .cas => if size = 8 then mtypeExtend .b64 x else mtypeExtend .b32 x
  | _ => []

/-- Sends an operation's results to its group. -/
def opResults (s : State) (o : HomeOp) (xs : List (Nat × Nat)) : State :=
  match s.group? o.grp with
  | none => s
  | some g =>
    let dest (l : Nat) : Nat := match g.flights.find? fun f => f.id == o.flight with
      | some f => f.destOf l
      | none => 0
    let size := match o.lanes with | l :: _ => l.size | [] => 0
    flightArrive s o.grp o.flight (match o.act with
      | .loadS t n => xs.map fun p => .s n (stypeExtend t p.2)
      | a => xs.flatMap fun p => physWrites p.1 (dest p.1) (resultRegs a size p.2))

/-- The bytes of a grain that an operation's lanes write. -/
def writtenBytes (o : HomeOp) : Nat :=
  ((List.range o.gsize).filter fun i => o.lanes.any fun l =>
    decide (l.pa ≤ o.grain + i) && decide (o.grain + i < l.pa + l.size)).length

/-- Poison turns away a read, and a write that leaves a byte of a poisoned grain (R408). -/
def opPoisoned (s : State) (o : HomeOp) : Bool :=
  let partialW := match o.act with
    | .store | .storeS | .dlv _ _ => decide (writtenBytes o < o.gsize)
    | _ => true
  (partialW && o.lanes.any fun l => s.poisoned l.pa l.size) || s.cutOff o.grain

/-- RING at the bell counter's home (R335): the new round, sent to every view table of the context. -/
def ringAct (s : State) (o : HomeOp) (asid bell : Nat) (d : W32) : State :=
  match s.ctxs.get? asid with
  | none => flightArrive s o.grp o.flight []
  | some c =>
    let r := c.bells.getD bell 0 + d
    let s := { s with ctxs := s.ctxs.set asid { c with bells := c.bells.put 0 bell r } }
    let s := (s.homeWrite (c.bellBase + 4 * bell) (leBytes 4 r.toNat))
    let dest := match s.group? o.grp with
      | some g => (match g.flights.find? fun f => f.id == o.flight with | some f => f.pendS.headD 0 | none => 0)
      | none => 0
    let cores := if d = 0 then [] else s.cores.keys.filter fun k => ((s.coreD k).views.get? asid).isSome
    let done := RegW.s dest (r.setWidth 64)
    if cores.isEmpty then flightArrive s o.grp o.flight [done]
    else
      let s := s.updGroup o.grp fun g =>
        { g with flights := g.flights.map fun f => if f.id = o.flight then { f with writes := f.writes ++ [done] } else f }
      State.post { s with ringWaits := s.ringWaits ++ [(⟨o.grp, o.flight, cores.length⟩ : RingWait)] }
        (cores.map fun k => .roundBroadcast k asid bell r o.grp o.flight)

/-- The issuer's own copy of a delivered grain is updated in place, but for what its core has written since (R299). -/
def updateOwn (s : State) (core g n : Nat) : State :=
  if ((s.coreD core).grainSt g).isSome then
    s.updCore core fun c => c.updBlock g fun b => b.refresh (g % 512) (s.homeRead g n)
  else s

/-- A delivery after its write at the home: the grain goes to every core of the hamlet, as one packet (R290, R299, R300). -/
def deliver (s : State) (o : HomeOp) (cores : List Nat) (round : W32) : State :=
  let s := flightArrive (updateOwn s o.core o.grain o.gsize) o.grp o.flight []
  if cores.isEmpty then s
  else
    let bytes := if o.attr.cached then s.homeRead o.grain o.gsize else []
    let s := s.updGroup o.grp fun g => { g with unsettled := g.unsettled ++ [(o.flight, o.grain)] }
    State.post { s with dlvs := s.dlvs ++ [(⟨o.grp, o.flight, o.grain, cores⟩ : DlvWait)] }
      [.multicastPacket (entryRouter s (o.core / 128) o.grain) ⟨.source, cores⟩ (.dlv o.grain o.gsize o.attr round o.grp o.flight)
        bytes []]

/-- What an ST.B64 to a submit page, an N page, submits (R455): its collective group and the function of the store, and the
descriptor's address with the context and the grid of the store. -/
def submits (s : State) (o : HomeOp) : List Instr :=
  match o.act with
  | .store => o.lanes.flatMap fun l =>
      (s.fab.colls.filter fun c => !o.attr.cached && !o.attr.dpage && l.size == 8 && c.2.submit.map (· * 65536) == some l.pa).map fun c =>
        .collectiveSubmit c.1 o.attr.vf ⟨o.attr.asid, l.x.toNat, (s.gridOf (.group o.grp)).getD 0⟩
  | _ => []

/-- A store on another device (R451). -/
def remoteStore (o : HomeOp) : Bool :=
  isRemote o.grain && match o.act with | .store | .storeS => true | _ => false

/-- The results of an operation; a store on another device is acknowledged by its home (R451). -/
def storeDone (s : State) (o : HomeOp) (xs : List (Nat × Nat)) : State :=
  if remoteStore o then s.post [.remoteStoreAck o.grp o.flight] else opResults s o xs

/-- The access that a data error of an operation names. -/
def badOp (s : State) (o : HomeOp) : BadAcc :=
  match (o.lanes.filter fun l => s.poisoned l.pa l.size) ++ o.lanes with
  | l :: _ => ⟨l.lane, l.va, l.pa, opWrites o.act⟩
  | [] => ⟨0, 0, o.grain, opWrites o.act⟩

/-- The lanes of an operation at the home, the poison that they clear, and at .SYS the L3. -/
def homeLanesDone (s : State) (o : HomeOp) : State × List (Nat × Nat) :=
  let (s, xs) := runLanes s o.act o.lanes
  let s := match o.act with
    | .store | .storeS | .dlv _ _ => s.clearCovered fun a => o.lanes.any fun l => decide (l.pa ≤ a) && decide (a < l.pa + l.size)
    | _ => s
  (if o.sys then foldS s (o.lanes.flatMap fun l => sectorsOf l.pa l.size) State.l2Out else s, xs)

/-- Executes an operation at the home. -/
def finishOp (s : State) (o : HomeOp) : State :=
  if opPoisoned s o then dataErrorGroup s o.grp o.flight (badOp s o)
  else match o.act with
    | .ring asid bell d => ringAct s o asid bell d
    | .dlv cores round => deliver (homeLanesDone s o).1 o cores round
    | _ =>
      let (s, xs) := homeLanesDone (if opWrites o.act then s else s.sendFlit o.grain 0) o
      (storeDone s o xs).post (submits s o)

/-- The entry after a delivery: the issuer's own copy where it holds a recorded one, and every core of the hamlet as a DEL
pointer (R300, R322). -/
def deliveredDir (s : State) (o : HomeOp) (cores : List Nat) (d : Dir) : Dir :=
  let mine := match (s.coreD o.core).grainSt o.grain with
    | some .du | some .dr => true
    | some _ => o.attr.dpage
    | none => false
  let d := if mine then s.shareDir { d.clear with st := .shd } o.core false else d.clear
  if o.attr.cached then cores.foldl (fun d c => s.shareDir { d with st := .shd } c true) d else d

/-- A read at the home of a grain that the directory does not track: S, N and window grains (R324, R325, R327). -/
def replyRead (s : State) (core : Nat) (m : Miss) : State :=
  (s.sendFlit m.grain 0).post [.fill core m.grain (s.homeRead m.grain m.gsz) false]

def isStore (w : Waiter) : Bool := match w.act with | .store _ => true | _ => false

/-- One instruction's stores among those that wait write every byte of the grain (R408). -/
def coversGrain (m : Miss) (grp flight : Nat) : Bool :=
  (List.range m.gsz).all fun i => m.waiters.any fun w => w.grp == grp && w.flight == flight && match w.act with
    | .store bs => decide (w.pa ≤ m.grain + i) && decide (m.grain + i < w.pa + bs.length)
    | _ => false

/-- The waiting accesses that meet no data: all where the home cannot be reached (R452), and of a poisoned grain those before
a store of the whole grain (R408). -/
def noDataFor (s : State) (m : Miss) : List Waiter :=
  if s.cutOff m.grain then m.waiters
  else if s.poisoned m.grain m.gsz then m.waiters.takeWhile fun w => !coversGrain m w.grp w.flight
  else []

/-- Every group whose access meets no data stops with a data error; the other accesses wait on. -/
def poisonMiss (s : State) (core : Nat) (m : Miss) : State :=
  let bad := noDataFor s m
  if bad.isEmpty then s
  else
    let left := m.waiters.drop bad.length
    let s := s.updCore core fun c =>
      { c with misses := if left.isEmpty then c.misses.filter fun x => x.grain != m.grain
        else c.misses.map fun x => if x.grain = m.grain then { m with waiters := left } else x }
    foldS s bad fun s w => dataErrorGroup s w.grp w.flight ⟨w.lane, w.va, w.pa, isStore w⟩

/-- Nothing that waits on a miss can be served. -/
def noFill (s : State) (m : Miss) : Bool := decide ((noDataFor s m).length = m.waiters.length)

/-- Serves a request that needs nothing more (R322). -/
def finishReq (s : State) (g : Nat) (d : Dir) (r : HomeReq) : State :=
  match r with
  | .read k =>
    (match (s.coreD k).miss? g with
     | none => s.putDir g d
     | some m =>
       if noFill s m then poisonMiss (s.putDir g d) k m
       else if m.prot ≠ .d then replyRead (poisonMiss (s.putDir g d) k m) k m
       else
         let s := s.putDir g (match d.st with | .own _ => d | _ => s.shareDir { d with st := .shd } k false)
         (poisonMiss s k m).post [.fill k g (s.homeRead g d.gsz) false])
  | .own k =>
    (match (s.coreD k).miss? g with
     | none => s.putDir g d
     | some m =>
       if noFill s m then poisonMiss (s.putDir g d) k m
       else
         let s := s.putDir g { d.clear with st := .own k }
         (poisonMiss s k m).post [.fill k g (s.homeRead g d.gsz) true])
  | .record k sc => s.putDir g { d with rel := some (k, sc) }
  | .op o =>
    let d := if o.acq.isSome then { d with rel := none } else d
    let d := match o.rel with
      | some sc => { d with rel := some (o.core, sc) }
      | none => d
    let d := if !(o.attr.dpage || opWrites o.act) then d
      else match o.act with
        | .dlv cores _ => if opPoisoned s o then d.clear else deliveredDir s o cores d
        | _ => d.clear
    finishOp (s.putDir g d) o
  | .merge core bs => (s.putDir g (if d.st = .own core then d.clear else d.unshare core)).homeMerge bs
  | .clean core => s.putDir g (if d.st = .own core then d.clear else d)
  | .after _ i => (s.putDir g d).post [i]
  | .room _ i =>
    let later := d.held.filterMap fun r => match r with | .room _ j => some j | _ => none
    let rest := d.held.filter fun r => match r with | .room _ _ => false | _ => true
    (s.putDir g { d.clear with rel := none, held := rest }).post (i :: later)

/-- Serves the grain's requests in arrival order, as far as they can be (R318). -/
def serveFrom (s : State) (g : Nat) : Nat → State
  | 0 => s
  | fuel + 1 =>
    match s.dirs.get? g with
    | none => s
    | some d =>
      match d.cur with
      | some r =>
        if d.acks ≠ 0 then s
        else match needs s g d r with
          | [] => serveFrom (finishReq s g { d with cur := none } r) g fuel
          | ms => (s.putDir g { d with acks := ms.length }).post ms
      | none =>
        match d.next with
        | none => s
        | some r => serveFrom (s.putDir g { d with cur := some r, held := d.held.erase r }) g fuel

def serve (s : State) (g : Nat) : State :=
  serveFrom s g (2 * (match s.dirs.get? g with | some d => d.held.length | none => 0) + 4)

/-! ### Room in a slice (R318) -/

/-- Whether the slice has an entry for a grain, or a free one. -/
def dirRoom (s : State) (g : Nat) : Bool := s.dirs.has g || decide ((sliceDirs s g).length < sliceEntries)

/-- The least recently used entry of a full slice with no LOCK, no held request and no DEL pointer. -/
def victimEntry (s : State) (g : Nat) : Option Nat :=
  let cand := (sliceDirs s g).filter fun p =>
    !p.2.lock && p.2.held.isEmpty && p.2.cur.isNone && !(p.2.ptrs.any fun q => q.2)
  match cand with
  | [] => none
  | p :: ps => some (ps.foldl (fun (m : Nat × Dir) q => if q.2.lru < m.2.lru then q else m) p).1

/-- The entry that a request of a grain already waits for. -/
def roomAt (s : State) (g : Nat) : Option Nat :=
  (s.dirs.find? fun p => (p.2.held ++ p.2.cur.toList).any fun r => match r with | .room x _ => x == g | _ => false).map (·.1)

/-- A D request that finds no entry waits for one: the entry's record is flushed and its copies are invalidated or recalled
first (R318, R329). None when it need not wait; with no entry to take the slice holds one more (DESIGN CHOICE, assumption 80). -/
def awaitRoom (s : State) (g : Nat) (i : Instr) : Option State :=
  if dirRoom s g then none
  else match (match roomAt s g with | some v => some v | none => victimEntry s g) with
    | none => none
    | some v => (s.dirs.get? v).map fun d =>
        if (d.held ++ d.cur.toList).contains (.room g i) then s
        else serve (s.putDir v { d with held := d.held ++ [.room g i] }) v

/-- An event without an effect, for a request that asks again by itself once its entry is free. -/
def asksAgain (g : Nat) : Instr := .hostAccess g (.read 0)

/-- A request arrives at a grain. -/
def arriveReq (s : State) (g gsz : Nat) (r : HomeReq) : State :=
  let d := s.dirD g gsz
  serve (s.putDir g { d with held := d.held ++ [r] }) g

/-- A request of a D grain: it needs an entry, and where it must wait for one its event happens again. -/
def arriveD (s : State) (g gsz : Nat) (r : HomeReq) (i : Instr) : State :=
  match awaitRoom s g i with
  | some s => s
  | none => arriveReq s g gsz r

/-! ### The request events -/

/-- Whether requests of a grain are in service or wait. -/
def State.queued (s : State) (g : Nat) : Bool := match s.dirs.get? g with | some d => d.cur.isSome || !d.held.isEmpty | none => false

def execReadRequest (core grain : Nat) (s : State) : Out :=
  match (s.coreD core).miss? grain with
  | none => .next s
  | some m =>
    if s.cutOff grain then .next (poisonMiss s core m)
    else if m.prot = .d then .next (arriveD s grain m.gsz (.read core) (.readRequest core grain))
    else if m.prot ≠ .w && s.queued grain then .next (arriveReq s grain m.gsz (.read core))
    else if noFill s m then .next (poisonMiss s core m)
    else .next (replyRead (poisonMiss s core m) core m)

def execOwnershipRequest (core grain : Nat) (s : State) : Out :=
  match (s.coreD core).miss? grain with
  | none => .next s
  | some m =>
    if s.cutOff grain then .next (poisonMiss s core m)
    else .next (arriveD s grain m.gsz (.own core) (.ownershipRequest core grain))

/-- A request's answers: one fewer is awaited, and the grain's requests go on. -/
def answered (s : State) (g : Nat) (f : Dir → Dir) : State :=
  match s.dirs.get? g with
  | none => s
  | some d => serve (s.putDir g (f { d with acks := d.acks - 1 })) g

/-- Written bytes whose home cannot be reached are lost (R452). The spec names no unit that issues a write-back: the groups of
the core stop (the log says so). -/
def lostBytes (s : State) (core grain : Nat) (bytes : Tab Byte) : State :=
  let pa := match bytes with | (a, _) :: _ => a | [] => grain
  foldS s (s.groups.keys.filter fun k => coreOfGroup k == core) fun s k =>
    dataStop s (.group k) { FRec.of 0x40 0 with xaddr := pa, scope := 1, wr := true }

def execWriteback (core grain : Nat) (bytes : Tab Byte) (why : WbWhy) (s : State) : Out :=
  if s.cutOff grain then .next (lostBytes s core grain bytes) else
  match s.dirs.get? grain, why with
  | some d, .evict => .next (arriveReq s grain d.gsz (.merge core bytes))
  | none, .evict => .next (s.homeMerge bytes)
  | _, .recallShared =>
    .next (answered (s.homeMerge bytes) grain fun d => s.shareDir { d with st := .shd } core false)
  | _, .recallAll => .next (answered (s.homeMerge bytes) grain fun d => d.clear)
  | _, .invalidated | _, .window => .next (s.homeMerge bytes)

def execCleanNotice (core grain : Nat) (s : State) : Out :=
  match s.dirs.get? grain with
  | some d => .next (arriveReq s grain d.gsz (.clean core))
  | none => .next s

/-- R301, R321, R323: a core answers an invalidation at once; dirty bytes go home first. -/
def execInvalidation (core grain : Nat) (s : State) : Out :=
  let (s, bs) := coreInvalidate s core grain
  .next (s.post ((if bs.isEmpty then [] else [.writeback core grain bs .invalidated]) ++ [.invalidationAck core grain]))

/-- Once every core that an invalidation went to has answered, no cluster holds a copy that the request must drop. -/
def execInvalidationAck (core grain : Nat) (s : State) : Out :=
  .next (answered s grain fun d =>
    if d.cur.isSome && d.acks == 0 then { d.unshare core with clbits := [] } else d.unshare core)

def execRecall (core grain : Nat) (toShared : Bool) (s : State) : Out :=
  let (s, bs) := if toShared then coreRecall s core grain else coreInvalidate s core grain
  .next (s.post [.writeback core grain bs (if toShared then .recallShared else .recallAll)])

/-! ### Fills -/

/-- The registers that a load writes from its bytes (R180, R185). -/
def loadWrites (w : Waiter) (bytes : List Byte) : List RegW :=
  match w.act with
  | .loadV t phys | .loadB t phys _ => physWrites w.lane phys (mtypeExtend t (leNat bytes))
  | .loadS t n => [.s n (stypeExtend t (leNat bytes))]
  | .store _ => []

/-- Replaces bytes of a grain that is not installed. -/
def patchBytes (bytes : List Byte) (off : Nat) (new : List Byte) : List Byte :=
  bytes.take off ++ new ++ bytes.drop (off + new.length)

/-- The accesses that waited, in their order: in the L1 where the grain is held, otherwise loads from the fill and
stores at the home. -/
def serveWaiters (s : State) (core : Nat) (m : Miss) : List Waiter → List Byte → State
  | [], _ => s
  | w :: ws, bytes =>
    let held := ((s.coreD core).grainSt w.pa).isSome
    let off := w.pa - m.grain
    match w.act with
    | .store bs =>
      let s := if held then s.updCore core fun c => c.l1Write w.pa bs (writtenSt m.prot) s.clk else devWrite s w.pa bs
      serveWaiters (flightArrive s w.grp w.flight []) core m ws (patchBytes bytes off bs)
    | _ =>
      let got := if held then (s.coreD core).l1Read w.pa w.size else (bytes.drop off).take w.size
      serveWaiters (flightArrive s w.grp w.flight (loadWrites w got)) core m ws bytes

/-- ge32 (R333). -/
def ge32 (a c : W32) : Bool := decide ((a - c).toNat < 2 ^ 31)

/-- Whether a fill serves an access: a bounded load asks for its round, which a D copy that is installed always meets
(R334). -/
def fillServes (m : Miss) (kept : Bool) (w : Waiter) : Bool :=
  match w.act with
  | .loadB _ _ th => (kept && m.prot = .d) || ge32 m.frnd th
  | _ => true

/-- Accesses that a fill does not serve ask again, under the core's present view. -/
def askAgain (s : State) (core : Nat) (m : Miss) (ws : List Waiter) : State :=
  let view := (s.coreD core).view m.asid m.bell
  foldS s ws fun s w => addWaiter s core { m with own := isStore w, useOnce := false, frnd := view, waiters := [] } w

/-- A fill (R221, R321, R323, R324): installed unless it is use-once, on an N page or finds no way; then the accesses
that waited are served in order. A fill without ownership of a D grain serves only the loads before the first store. -/
def execFill (core grain : Nat) (bytes : List Byte) (own : Bool) (s : State) : Out :=
  match (s.coreD core).miss? grain with
  | none => .next s
  | some m =>
    let all := own || m.prot ≠ .d
    let mine := if all then m.waiters else m.waiters.takeWhile fun w => !isStore w
    let later := if all then [] else m.waiters.dropWhile fun w => !isStore w
    let s := s.updCore core fun c => if later.isEmpty then c.dropMiss grain else c.setMiss { m with waiters := later }
    let keep := (!m.useOnce || own) && m.prot ≠ .n
    let st := if m.prot = .d then (if own then GrainSt.ex else .sh) else .v
    let s := if keep then (installGrain s core m bytes st).updCore core (·.keepRound m) else s
    let kept := ((s.coreD core).grainSt grain).isSome
    let s := serveWaiters s core m (mine.takeWhile (fillServes m kept)) bytes
    .next (askAgain s core m (mine.dropWhile (fillServes m kept)))

/-! ### Operations, records, flushes (R326, R328, R329) -/

/-- An operation at the home of its grain. The windows come before the directory (R327); a delivery that finds no entry is
refused by every core of the hamlet (R300, R318). -/
def execHomeExecutedOperation (o : HomeOp) (s : State) : Out :=
  if (windowOf s o.attr.asid o.grain).isSome then .next (finishOp s o)
  else match o.act with
    | .dlv _ _ =>
      let o := if dirRoom s o.grain then o else { o with attr := { o.attr with cached := false } }
      .next (arriveReq s o.grain o.gsize (.op o))
    | _ =>
      if o.attr.dpage then .next (arriveD s o.grain o.gsize (.op o) (.homeExecutedOperation o))
      else .next (arriveReq s o.grain o.gsize (.op o))

/-- The grains that a release at .GRP or .TEAM writes, with their sizes: each has a record (R328). -/
def PendRel.grains (p : PendRel) : List (Nat × Nat) :=
  ((p.stores.filter fun r => r.miss.prot != .w).map (fun r => (r.miss.grain, r.miss.gsz)) ++
    (p.ops.filter fun o => match o.act with | .store | .storeS => true | _ => false).map fun o => (o.grain, o.gsize)).eraseDups

/-- A group whose oldest release has sent a record of a grain. -/
def Group.recorded (g : Group) (grain : Nat) : Option Nat :=
  match g.recs, g.rels with
  | some _, p :: _ => (p.grains.find? fun x => x.1 == grain).map (·.2)
  | _, _ => none

/-- A record of a releaser takes its turn at the grain (R318); where no entry is free it is refused, and the core completes
the release as at .CLU first (R328). -/
def execRecordMessage (core grain : Nat) (sc : MScope) (s : State) : Out :=
  let mine := s.groups.filter fun p => coreOfGroup p.1 == core && (p.2.recorded grain).isSome
  if dirRoom s grain then
    .next (arriveReq s grain ((mine.findSome? fun p => p.2.recorded grain).getD 32) (.record core sc))
  else .next (foldS s (Tab.keys mine) fun s k => s.updGroup k fun g => { g with recs := some true })

/-! ### Flushes (R329) -/

/-- Operations that are on their way, or wait or are in service at their home. -/
def State.opsAway (s : State) : List HomeOp :=
  (s.agenda.filterMap fun i => match i with | .homeExecutedOperation o => some o | _ => none) ++
  s.dirs.flatMap fun p => (p.2.held ++ p.2.cur.toList).filterMap fun r => match r with | .op o => some o | _ => none

/-- The home holds writes of a grain (R322). -/
def State.lockedAt (s : State) (g : Nat) : Bool := match s.dirs.get? g with | some d => d.lock | none => false

/-- The stores of a partition that a core has not yet performed at .DEV, by grain, group and flight: those that wait in its
L1, and those on their way to homes. Those that the home holds under LOCK wait for a move and are left out. -/
def storesAway (s : State) (core vf : Nat) : List (Nat × Nat × Nat) :=
  (((s.coreD core).misses.flatMap fun m =>
      if m.vf == vf then (m.waiters.filter isStore).map fun w => (m.grain, w.grp, w.flight) else []) ++
    ((s.opsAway.filter fun o => o.core == core && o.attr.vf == vf && opWrites o.act && !isRemote o.grain).map fun o =>
      (o.grain, o.grp, o.flight))).filter fun x => !s.lockedAt x.1

/-- The core whose flush a grain's home awaits. -/
def flushOf (s : State) (g : Nat) : Option Nat :=
  match s.dirs.get? g with
  | some d => d.cur.bind (mustFlush s g d)
  | none => none

/-- Whether a core's flush, through the stores that it waits for, waits for a flush of another. -/
def flushWaitsOn (s : State) (target : Nat) : Nat → Nat → Bool
  | 0, _ => false
  | fuel + 1, c => (s.flushes.filter fun f => f.core == c).any fun f =>
      (storesAway s c f.vf).any fun x => f.stores.contains x.2 && match flushOf s x.1 with
        | some d => d == target || flushWaitsOn s target fuel d
        | none => false

/-- The stores of a partition that are pending at a core, by group and flight. One that cannot be performed before the core's
own flush is done is not among them: the two would wait for each other for ever (assumption 77). -/
def pendingStores (s : State) (core vf : Nat) : List (Nat × Nat) :=
  (((storesAway s core vf).filter fun x => match flushOf s x.1 with
    | some c => c != core && !flushWaitsOn s core s.cores.length c
    | none => true).map (·.2)).eraseDups

/-- R329: the core writes back its dirty bytes, and acknowledges once the stores that are pending are performed. -/
def execFlushRequest (core grain : Nat) (s : State) : Out :=
  let vf := match (s.coreD core).vf with | some v => v | none => 0
  let s := flushCore s core vf false
  match pendingStores s core vf with
  | [] => .next (s.post [.flushAcknowledge core grain])
  | ps => .next { s with flushes := s.flushes ++ [⟨core, grain, vf, ps⟩] }

/-- The stores that a flush awaits are performed. -/
def flushReady (s : State) (f : FlushWait) : Bool :=
  let ps := pendingStores s f.core f.vf
  f.stores.all fun p => !ps.contains p

/-- The bytes of those stores go home too, and the core acknowledges. -/
def endFlush (s : State) (f : FlushWait) : State :=
  (flushCore { s with flushes := s.flushes.filter (· != f) } f.core f.vf false).post [.flushAcknowledge f.core f.grain]

/-- The home clears the record that names the core, and the atomic of the core that asked for the flush needs no record. -/
def flushedBy (core : Nat) (d : Dir) : Dir :=
  { d with
    rel := match d.rel with | some (c, sc) => if c = core then none else some (c, sc) | none => none
    cur := d.cur.map fun r => match r with | .op o => if o.core = core then .op { o with rel := none } else .op o | r => r }

def execFlushAcknowledge (core grain : Nat) (s : State) : Out :=
  .next (answered s grain (flushedBy core))

/-! ### Deliveries (R300 to R303) -/

def tithe (s : State) (vf : Nat) : Nat := match s.vfs.get? vf with | some v => v.tithe | none => 196608

/-- SR.REFUSED (R302): SAT is set when COUNT reaches its last value, where it stops. -/
def countRefused (c : Core) : Core :=
  let n := c.refused.toNat % 2 ^ 32
  { c with refused :=
      if n = 0xFFFFFFFF then c.refused
      else if n = 0xFFFFFFFE then (c.refused + 1) ||| BitVec.ofNat 64 (2 ^ 32)
      else c.refused + 1 }

/-- Whether a core installs an arriving delivery (R301). A DU or DR grain whose ownership is being asked for stands under two
columns of the table, a pending miss and DU or DR: it is refused (DESIGN CHOICE, assumption 93). -/
def mayInstall (s : State) (c : Core) (g gsz vf : Nat) (bytes : List Byte) : Bool :=
  let room := decide (c.charge + gsz ≤ tithe s vf) && (c.pickWay g).isSome
  !bytes.isEmpty && !(c.miss? g).isSome &&
  match c.grainSt g with
  | none | some .sh | some .v | some .vb | some .dr => room
  | some .du => true
  | some .ex => (c.dirtyOf g).isEmpty && room
  | some .vd => false

/-- The lanes of LDB.S that an installed delivery serves (R337). -/
def serveLdb (s : State) (core g : Nat) (round : W32) : State :=
  let c := s.coreD core
  let hit := c.ldbWaits.filter fun w => w.grain == g && ge32 round w.th
  if hit.isEmpty then s
  else
    let s := s.updCore core fun c =>
      { c.used g s.clk with ldbWaits := c.ldbWaits.filter fun w => !(w.grain == g && ge32 round w.th) }
    foldS s hit fun s w =>
      let x := leNat ((s.coreD core).l1Read w.pa w.size)
      flightArrive s w.grp w.flight (physWrites w.lane w.phys (mtypeExtend w.t x))

def DlvWait.is (d : DlvWait) (grp flight grain : Nat) : Bool := d.grp == grp && d.flight == flight && d.grain == grain

/-- A core answers a delivery. -/
def answerDelivery (s : State) (core grp flight grain : Nat) : State :=
  { s with dlvs := s.dlvs.map fun d => if d.is grp flight grain then { d with cores := d.cores.filter (· != core) } else d }

/-- The last answer settles a delivery. -/
def settleDelivery (s : State) (grp flight grain : Nat) : State :=
  if s.dlvs.any fun d => d.is grp flight grain && d.cores.isEmpty then s.post [.deliverySettled grp flight grain] else s

/-- A delivery arrives at a core (R301): it is installed and serves waiting lanes (R366), or it is refused; then the core's
dirty bytes of the grain go home, its copy goes, and the record of the delivery with it. -/
def execDeliveryArrival (core grain gsize : Nat) (attr : PageAttr) (bytes : List Byte) (round : W32) (grp flight : Nat)
    (s : State) : Out :=
  let c := s.coreD core
  let s := answerDelivery s core grp flight grain
  let s :=
    if mayInstall s c grain gsize attr.vf bytes then
      let m : Miss := ⟨grain, gsize, if attr.dpage then .d else .s, attr.bell, attr.hs, attr.asid, attr.vf, false, false, round, []⟩
      serveLdb (installGrain s core m bytes .du) core grain round
    else
      let dirty := c.dirtyOf grain
      let s := s.updCore core fun c => countRefused (c.dropGrain grain)
      let s := match s.dirs.get? grain with | some d => s.putDir grain (d.unshare core) | none => s
      if dirty.isEmpty then s else arriveReq s grain gsize (.merge core dirty)
  .next (settleDelivery s grp flight grain)

def execDeliverySettled (grp flight grain : Nat) (s : State) : Out :=
  let s := { s with dlvs := s.dlvs.filter fun d => !(d.grp == grp && d.flight == flight && d.grain == grain) }
  .next (s.updGroup grp fun g => { g with unsettled := g.unsettled.filter fun p => p != (flight, grain) })

/-! ### Host ownership and accesses (R330, R368) -/

/-- The grains that a 64-byte line touches. -/
def lineGrains (line gsz : Nat) : List Nat := if gsz < 64 then [line / 64 * 64, line / 64 * 64 + 32] else [gbase gsz line]

/-- A request of the host through CXL.cache: granted on a D page after every copy is recalled, where the physical function
has accepted that service (R422; DEDUCED, assumption 81); it waits its turn at a grain where requests are in service, and for
an entry as every D request (R318). -/
def execHostCxlCacheRequest (line gsz : Nat) (dpage : Bool) (s : State) : Out :=
  let again : Instr := .hostCxlCacheRequest line gsz dpage
  let gs := (lineGrains line gsz).filter fun g => match s.dirs.get? g with | some d => !d.hostown | none => true
  if !dpage || !s.accepts 0 0 then .next s
  else match gs.find? fun g => s.busyAt g gsz true with
    | some g => .next (match s.dirs.get? g with | some d => s.putDir g { d with held := d.held ++ [.after true again] } | none => s)
    | none => match gs.findSome? fun g => awaitRoom s g again with
      | some s => .next s
      | none => .next (foldS s gs fun s g =>
          let s := exclGrain s g
          s.putDir g { s.dirD g gsz with hostown := true })

/-- The host's response: merged by its byte mask; the grain goes to UN and what waited is served. -/
def execHostSnoopResponse (line : Nat) (bytes : Tab Byte) (s : State) : Out :=
  let gs := (s.dirs.filter fun p => p.2.hostown && decide (p.1 < line / 64 * 64 + 64) &&
    decide (line / 64 * 64 < p.1 + p.2.gsz)).map (·.1)
  let s := foldS s gs fun s g => exclGrain s g
  let s := s.homeMerge bytes
  .next (foldS s gs fun s g => match s.dirs.get? g with
    | some d => serve (s.putDir g { d with hostown := false, st := .un }) g
    | none => s)

/-- Poison turns away a read and a partial write (R408). -/
def extBad (s : State) (pa : Nat) (a : ExtAccess) : Bool :=
  match a with
  | .read n | .cas n _ _ => s.poisoned pa n
  | .atom _ t _ => s.poisoned pa (atypeBits t / 8)
  | .own _ | .contrib _ _ _ => false
  | .write bs => s.poison.any fun p => decide (pa < p.1 + p.2) && decide (p.1 < pa + bs.length) &&
      !(decide (pa ≤ p.1) && decide (p.1 + p.2 ≤ pa + bs.length))

/-- An access of the host or of another device at the home (R330, R451). -/
def extAct (s : State) (pa : Nat) (a : ExtAccess) : State :=
  if extBad s pa a then s else match a with
  | .read n => devSync s pa n
  | .write bs => devWrite s pa bs
  | .own _ | .contrib _ _ _ => s
  | .atom o t x =>
    let n := atypeBits t / 8
    let (s, old) := devRead s pa n
    devWrite s pa (leBytes n (atomNew o t (leNat old) (x.toNat % 2 ^ (8 * n))))
  | .cas n cmp new =>
    let (s, old) := devRead s pa n
    if leNat old = cmp.toNat % 2 ^ (8 * n) then devWrite s pa (leBytes n new.toNat) else s

/-- The bytes that an access names, and whether it may write them. -/
def extSpan : ExtAccess → Nat × Bool
  | .read n => (n, false)
  | .write bs => (bs.length, true)
  | .atom _ t _ => (atypeBits t / 8, true)
  | .cas n _ _ => (n, true)
  | .own _ | .contrib _ _ _ => (0, false)

/-- It waits its turn at a grain whose requests are in service, under LOCK and under HOSTOWN (R318, R322, R330). -/
def extAccess (s : State) (pa : Nat) (a : ExtAccess) : State :=
  let (n, w) := extSpan a
  match (s.dirsIn pa n).find? fun g => s.busyAt g 1 w with
  | some g => (match s.dirs.get? g with | some d => s.putDir g { d with held := d.held ++ [.after w (.hostAccess pa a)] } | none => s)
  | none => extAct s pa a

def execHostAccess (pa : Nat) (a : ExtAccess) (s : State) : Out := .next (extAccess s pa a)

/-! ### Accesses of a team sequencer through its core's L1 (R186) -/

/-- An access of a team sequencer that its L1 does not hold is served at the home in the same step, unless it must wait:
for a miss of the grain that is pending at the core, for requests in service at the grain (R318), for LOCK or HOSTOWN (R322,
R330), for an entry, or, where a window's grain lies at another device, for a path that is being drained (R449). -/
def seqWait (s : State) (core : Nat) (m : Miss) : Option State :=
  if ((s.coreD core).miss? m.grain).isSome then some s
  else if m.prot = .w then (if s.pathHeld m.grain 0 then some s else none)
  else if s.busyAt m.grain m.gsz (m.own && m.prot = .d) then some s
  else if m.prot = .d then awaitRoom s m.grain (asksAgain m.grain)
  else none

/-- A load of a team sequencer; no bytes where it must wait. -/
def l1LoadNow (s : State) (core asid vf : Nat) (x : Xlat) (n : Nat) : State × Option (List Byte) :=
  if x.prot = .n then
    if s.busyAt x.pa n false then (s, none) else ((devRead s x.pa n).1, some (devRead s x.pa n).2)
  else if (s.coreD core).hit x.pa then
    (s.updCore core (·.used x.pa s.clk), some ((s.coreD core).l1Read x.pa n))
  else
    let m := missOf s core asid vf x false
    match seqWait s core m with
    | some s => (s, none)
    | none =>
      let s := if x.prot = .w then s else devSync s m.grain m.gsz
      let bytes := s.homeRead x.pa n
      let s := if x.prot = .d then s.putDir m.grain (s.shareDir { s.dirD m.grain m.gsz with st := .shd } core false) else s
      (installGrain s core m (s.homeRead m.grain m.gsz) (if x.prot = .d then .sh else .v), some bytes)

/-- A store of a team sequencer, and whether it is made: otherwise it must wait. -/
def l1StoreNow (s : State) (core asid vf : Nat) (x : Xlat) (bytes : List Byte) : State × Bool :=
  let c := s.coreD core
  let m := missOf s core asid vf x true
  let ready := (c.miss? m.grain).isNone && match x.prot with
    | .d => c.grainSt x.pa == some GrainSt.ex
    | _ => c.hit x.pa
  if x.prot = .n then
    if s.busyAt x.pa bytes.length true then (s, false) else (devWrite s x.pa bytes, true)
  else if ready then (s.updCore core (·.l1Write x.pa bytes (writtenSt x.prot) s.clk), true)
  else match seqWait s core m with
    | some s => (s, false)
    | none =>
      let s := if x.prot = .d then
          let s := exclGrain s m.grain
          s.putDir m.grain { s.dirD m.grain m.gsz with st := .own core }
        else if x.prot = .w then s
        else devSync s m.grain m.gsz
      let s := installGrain s core m (s.homeRead m.grain m.gsz) (if x.prot = .d then .ex else .v)
      if ((s.coreD core).grainSt x.pa).isSome then (s.updCore core (·.l1Write x.pa bytes (writtenSt x.prot) s.clk), true)
      else (if x.prot = .w then s.homeWrite x.pa bytes else devWrite s x.pa bytes, true)

end Sys2Proof.Machine
end

