-- ==== Sys2Proof/Machine/Runs.lean ====
section
/-! DEFINITION. Runs, races, reports and votes: the events that move code from an upper sequencer to the lower ones
(R24 to R27, R98, R99, R102 to R105, R225, R226, R283, R372, R373). An event whose condition does not hold changes
nothing. -/

namespace Sys2Proof.Machine

open Sys2Proof

/-! ### Races (R99, R105) -/

def raceDepth : UnitId → Nat
  | .team _ => 8
  | _ => 16

/-- Runs that a member has not yet taken. -/
def runCount (race : List RaceItem) : Nat := (race.filter fun i => match i with | .run _ => true | .marker => false).length

/-- The members of a sequencer that have not retired: groups whose retirement has not begun, or teams. -/
def State.members (s : State) : UnitId → List UnitId
  | .team t => (match s.team? t with | some x => x.activeG.map .group | none => [])
  | .grid g => (s.teamsOfGrid g).map .team
  | _ => []

def State.raceOf (s : State) : UnitId → List RaceItem
  | .group k => (match s.group? k with | some g => g.race | none => [])
  | .team k => (match s.team? k with | some t => t.race | none => [])
  | _ => []

def State.updRace (s : State) (u : UnitId) (f : List RaceItem → List RaceItem) : State :=
  match u with
  | .group k => s.updGroup k fun g => { g with race := f g.race }
  | .team k => s.updTeam k fun t => { t with race := f t.race }
  | _ => s

/-- Some member's race is full. -/
def raceFull (s : State) (u : UnitId) : Bool := (s.members u).any fun m => decide (raceDepth u ≤ runCount (s.raceOf m))

/-- A handler's frame whose first run is still to come. -/
def Ctl.freshFrame (c : Ctl) : Bool := match c.frame with | some f => f.fresh | none => false

/-- Emits a run into the race of every member that has not retired (R98, R372); a handler's first is marked as such (R126). -/
def emitRun (s : State) (u : UnitId) (r : Run) : State :=
  let fresh := match s.ctl? u with | some c => c.freshFrame | none => false
  let s := s.updCtl u fun c => { c with frame := c.frame.map fun f => { f with fresh := false } }
  foldS s (s.members u) fun s m => s.updRace m (· ++ [.run { r with first := fresh }])

/-! ### Events for a sequencer above (R105) -/

/-- After a member takes a run: FULL may end. -/
def afterTake (s : State) (p : UnitId) : State :=
  match s.seq? p with
  | some q => if q.st = .full && !raceFull s p then s.post [.raceSpaceFreed p] else s
  | none => s

/-- After a member ends a run: a version may be free. -/
def afterEnd (s : State) (p : UnitId) : State :=
  match s.seq? p with
  | some q => if q.st = .vers && (!named s p q.cur || (freeVersion s p q).isSome) then s.post [.versionFreed p] else s
  | none => s

def execRaceSpaceFreed (u : UnitId) (s : State) : Out :=
  match s.seq? u with
  | none => .fault .noSuchUnit
  | some q =>
    if q.st = .full && !raceFull s u then .next (s.updSeq u fun q => { q with st := .fetch }) else .next s

/-- The current version takes a new pin, in a fresh copy where an emitted run names it (R226). -/
def repin (s : State) (t : Nat) (pin : Nat) : Option State :=
  match s.seq? (.team t) with
  | none => none
  | some q =>
    let new : Ver := { q.ver q.cur with pin := pin }
    if named s (.team t) q.cur then
      (freeVersion s (.team t) q).map fun v => s.updSeq (.team t) fun q => { q with vers := q.vers.set v new, cur := v }
    else some (s.updSeq (.team t) fun q => { q with vers := q.vers.set q.cur new })

/-- The held write of VERS, or the pin of a new run, takes the freed version (R105, R225, R226). -/
def execVersionFreed (u : UnitId) (s : State) : Out :=
  match s.seq? u with
  | none => .fault .noSuchUnit
  | some q =>
    if q.st ≠ .vers then .next s
    else
      let done (s : State) : State := s.updSeq u fun q => { q with st := .fetch, heldWrite := none }
      match q.heldWrite, u with
      | some (n, x), _ => match versWrite s u n x with
        | some s => .next (done s)
        | none => .next s
      | none, .team t => match repin s t (match q.run with | some r => r.ver | none => 0) with
        | some s => .next (done s)
        | none => .next s
      | none, _ => .next (done s)

/-! ### A group takes and ends runs (R24, R34) -/

/-- Members take no new run from a parked sequencer, nor from one that is done and is asked to park (R34, R105). -/
def Seq.parked (q : Seq) : Bool := q.st == .park || (q.st == .done && q.stopReq != .none)

def unitParked (s : State) (u : UnitId) : Bool :=
  match s.seq? u with
  | some q => q.parked
  | none => true

/-- A grid sequencer stopped by a fault of its own, until its handler is entered (R124, R126). -/
def Seq.stoppedSelf (q : Seq) : Bool := q.st == .park && q.route.isSome

/-- A team's groups take no new run: its sequencer is parked, or the sequencer of its whole grid has stopped at D scope. -/
def teamParked (s : State) (t : Nat) : Bool :=
  unitParked s (.team t) ||
  match s.team? t with
  | some x => (match s.grid? x.grid with | some g => g.kcb.whole && g.seq.stoppedSelf | none => false)
  | none => false

/-- A group has completed every instruction that it issued. -/
def Group.drained (g : Group) : Bool := g.flights.isEmpty && g.flags.isEmpty

/-- Every group of a team has taken and ended its runs, with nothing in flight. -/
def teamDrained (s : State) (t : Nat) : Bool :=
  (s.groupsOfTeam t).all fun k => match s.group? k with | some g => g.drained && g.run.isNone && runCount g.race == 0 | none => true

def execTakeRun (g : Nat) (s : State) : Out :=
  match s.group? g with
  | none => .fault .noSuchUnit
  | some x =>
    match x.st, x.race with
    | .idle, .run r :: rest =>
      if teamParked s x.team || (r.first && !x.drained) then .next s
      else
        let s := s.updGroup g fun x => { x with st := .running, run := some r, race := rest, ctl := { x.ctl with pc := r.start } }
        .next (afterTake s (.team x.team))
    | _, _ => .next s

/-- What a group reports for an ask: register values, or its mask with its live lanes (R27, R104). -/
def groupReport (x : Group) : Ask → List W64
  | .none => []
  | .regs ns => ns.map x.sregD
  | .mask m => [x.mreg m &&& x.live, x.live]

/-- R27: a write to a register that the group is to report is pending. -/
def reportPending (x : Group) : Ask → Bool
  | .none => false
  | .regs ns => ns.any fun n => x.pendS.has n
  | .mask m => x.pendM.has m

def execRunEnd (g : Nat) (s : State) : Out :=
  match s.group? g with
  | none => .fault .noSuchUnit
  | some x =>
    match x.st, x.run with
    | .running, some r =>
      if reportPending x r.ask then .next s
      else
        let s := s.updGroup g fun x => { x with st := .idle, run := none }
        let s := if r.ask = .none then s
          else s.updSeq (.team x.team) fun q => { q with reports := q.reports.set x.gid (groupReport x r.ask) }
        .next (afterEnd s (.team x.team))
    | _, _ => .next s

/-- Taking an end marker: a group retires, a team acts as if it had executed END.T (R118). -/
def execEndMarkerTaken (u : UnitId) (s : State) : Out :=
  match u with
  | .group k => match s.group? k with
    | none => .fault .noSuchUnit
    | some g => match g.st, g.race with
      | .idle, .marker :: rest => .next (beginRetire (s.updGroup k fun g => { g with race := rest }) k)
      | _, _ => .next s
  | .team t => match s.team? t with
    | none => .fault .noSuchUnit
    | some x => match x.seq.st, x.race with
      | .upwait, .marker :: rest => .next (endTeam (s.updTeam t fun x => { x with race := rest }) t)
      | _, _ => .next s
  | _ => .fault .noSuchUnit

/-- A team takes its next run from the grid (R105, R226, R372). -/
def execTeamTakeRun (t : Nat) (s : State) : Out :=
  match s.team? t with
  | none => .fault .noSuchUnit
  | some x =>
    match x.seq.st, x.race with
    | .upwait, .run r :: rest =>
      if unitParked s (.grid x.grid) || (r.first && !teamDrained s t) then .next s else
      let s := s.updTeam t fun x =>
        { x with race := rest, seq := { x.seq with run := some r, reports := [], st := .fetch, ctl := { x.seq.ctl with pc := r.start } } }
      let s := match repin s t r.ver with
        | some s => s
        | none => s.updSeq (.team t) fun q => { q with st := .vers, heldWrite := none }
      .next (afterEnd (afterTake s (.grid x.grid)) (.grid x.grid))
    | _, _ => .next s

/-! ### Votes above the group (R102 to R104, R373) -/

/-- The report of a group: the one its team holds, or what the idle group holds unchanged (R283, R231). -/
def reportOfGroup (s : State) (q : Seq) (ask : Ask) (k : Nat) : Option (Nat × List W64) :=
  match s.group? k with
  | none => none
  | some g =>
    match q.reports.get? g.gid with
    | some r => some (g.gid, r)
    | none =>
      if g.st = .idle && g.race.isEmpty && !reportPending g ask then some (g.gid, groupReport g ask) else none

/-- The report of every active member; none where one is missing. -/
def collect (xs : List (Option (Nat × List W64))) : Option (List (Nat × List W64)) :=
  if xs.all (·.isSome) then some (xs.filterMap id) else none

def teamReports (s : State) (t : Nat) (ask : Ask) : Option (List (Nat × List W64)) :=
  match s.team? t with
  | none => none
  | some x => collect (x.activeG.map (reportOfGroup s x.seq ask))

/-- The combination of masks [any, all, nonempty] over reports [bits, live] (R104). -/
def combineMasks (rs : List (Nat × List W64)) : List W64 :=
  let bits (r : Nat × List W64) : W64 := r.2.getD 0 0
  let live (r : Nat × List W64) : W64 := r.2.getD 1 0
  [if rs.any fun r => bits r != 0 then 1 else 0,
   if rs.all fun r => bits r == live r then 1 else 0,
   if rs.isEmpty then 0 else 1]

/-- A team at its run end: its k registers at once, its combined masks once its groups have reported (R102, R104). -/
def reportOfTeam (s : State) (ask : Ask) (t : Nat) : Option (Nat × List W64) :=
  match s.team? t with
  | none => none
  | some x =>
    if x.seq.st ≠ .upwait || !x.race.isEmpty then none
    else match ask with
      | .none => some (x.member, [])
      | .regs ns => some (x.member, ns.map fun n => (x.seq.ver x.seq.cur).regs.getD n 0)
      | .mask m => (teamReports s t (.mask m)).map fun rs => (x.member, combineMasks rs)

/-- Insertion by member number. -/
def insertMember (x : Nat × List W64) : List (Nat × List W64) → List (Nat × List W64)
  | [] => [x]
  | y :: ys => if x.1 ≤ y.1 then x :: y :: ys else y :: insertMember x ys

def sortMembers (xs : List (Nat × List W64)) : List (Nat × List W64) := xs.foldr insertMember []

/-- The reports of all active members, in rising member order. -/
def allReports (s : State) (u : UnitId) (ask : Ask) : Option (List (Nat × List W64)) :=
  (match u with
  | .team t => teamReports s t ask
  | .grid g => collect ((s.teamsOfGrid g).map (reportOfTeam s ask))
  | _ => none).map sortMembers

/-- The instruction at a sequencer's slot. -/
def instrAt (s : State) (u : UnitId) (a : W64) : Option Instr :=
  match fetchWord s u a with
  | .word w => (match decode w with | .instr i => some i | _ => none)
  | _ => none

/-- The votes on each register in field order: the first that differs, or the last (R102). -/
def voteRegs (scope : Nat) (rs : List (Nat × List W64)) (count : Nat) : Option VoteRec :=
  let votes := (List.range count).map fun j => voteRecord scope (rs.map fun r => (r.1, r.2.getD j 0))
  match votes.find? fun v => !v.uniform with
  | some v => some v
  | none => votes.getLast?

/-- BRM.D over teams: the combination of their combinations. -/
def combineTeams (rs : List (Nat × List W64)) : List W64 :=
  let rs := rs.filter fun r => r.2.getD 2 0 == 1
  [if rs.any fun r => r.2.getD 0 0 == 1 then 1 else 0,
   if rs.all fun r => r.2.getD 1 0 == 1 then 1 else 0,
   if rs.isEmpty then 0 else 1]

/-- The agreed values stand for the slot's voted reads; a REVOTE's vote closes the frame at X (R127). -/
def voteAgreed (s : State) (u : UnitId) (vals : List W64) : State :=
  match s.seq? u with
  | none => s
  | some q =>
    let close (c : Ctl) : Ctl := match q.revote, c.frame with
      | true, some f => c.close f f.x
      | _, _ => c
    let s := s.updSeq u fun q =>
      { q with st := .fetch, voted := some vals, reports := [], revote := false, ctl := close q.ctl }
    if q.revote then unparkParent s u else s

/-- A vote of an upper sequencer completes (R102, R103, R104). -/
def execVoteComplete (u : UnitId) (s : State) : Out :=
  match s.seq? u with
  | none => .fault .noSuchUnit
  | some q =>
    if q.st ≠ .vote then .next s
    else match instrAt s u q.ctl.pc with
      | none => .next s
      | some i =>
        match allReports s u (askOf i) with
        | none => .next s
        | some rs =>
          match askOf i with
          | .mask _ => .next (voteAgreed s u (match u with | .grid _ => combineTeams rs | _ => combineMasks rs))
          | _ =>
            match voteRegs (scopeCode (lvlOfUnit u)) rs (votedRegs i).length with
            | none => .next (voteAgreed s u [])
            | some v =>
              if v.uniform then .next (voteAgreed (s.updCtl u fun c => c.setVote v) u ((rs.headD (0, [])).2))
              else
                let s := writeRecord s u fun c => c.setVote v
                let s := { s with iss := ⟨u, q.ctl.pc, q.ctl.pc, none, 0, false, 0⟩ }
                let s := s.updSeq u fun q =>
                  { q with reports := [], revote := false, ctl := if q.revote then { q.ctl with frame := none } else q.ctl }
                .next (takeFault s u (trap cNuf))

/-! ### Parking (R105, R124, R129, R230) -/

/-- A pre-emption drops the reports that a sequencer holds, one that is parked included (R283). -/
def Seq.keepReports (q : Seq) : Tab (List W64) := if q.stopReq = .tree || q.stopReq = .debug then q.reports else []

def Seq.park (q : Seq) : Seq :=
  if q.stopReq = .none || q.st = .done then q
  else if q.st = .park then { q with reports := q.keepReports }
  else { q with st := .park, was := q.st, reports := q.keepReports }

/-- A sequencer parks where it stands. Where a grid parks for a frame below it, its teams in FULL and VOTE park with it. -/
def execSequencerPark (u : UnitId) (s : State) : Out :=
  match s.seq? u with
  | none => .fault .noSuchUnit
  | some q =>
    let s := s.updSeq u Seq.park
    match u with
    | .grid g => .next (if q.stopReq = .tree then parkFollowers s g else s)
    | _ => .next s

/-- The sequencer returns to the state that it held when it parked. -/
def unpark (s : State) (u : UnitId) : State :=
  s.updSeq u fun q => { q with stopReq := .none, st := if q.st = .park && q.route.isNone then q.was else q.st }

end Sys2Proof.Machine
end

