-- ==== Sys2Proof/Machine/Scalar.lean ====
section
/-! DEFINITION. The scalar integer instructions, class 1 (R136 to R140): one effect serves the group, with its
lane-source forms, and the team and grid sequencers. -/

namespace Sys2Proof.Machine

open Sys2Proof

/-! ### Shared operations -/

/-- The vote's record in the group that an instruction sees. -/
def IX.setVote (ix : IX) (r : VoteRec) : IX :=
  { ix with x := { ix.x with g := { ix.x.g with ctl := ix.x.g.ctl.setVote r } } }

/-- A non-uniformity fault at G scope: the record of the vote, then the fault (R28, R103). -/
def nufGroup (s : State) (k : Nat) (r : VoteRec) : State := takeFault (s.setVoteG k r) (.group k) (trap cNuf)

/-- The value of the lane source of a lane, sign-extended from 32 bits where it is one register (R139). -/
def laneVal (c : SSrc) (g : Group) (l : Nat) : W64 :=
  match c with
  | .s _ => 0
  | .v n => (g.vreg l n.toNat).signExtend 64
  | .vp n => g.vpair l n.toNat

/-- Reads the second source at G scope: a voted read for a lane source (R28, R139). -/
def readSrc (ix : IX) (c : SSrc) : Except VoteRec (W64 × IX) :=
  match c with
  | .s r => .ok (ix.x.rd r, ix)
  | c =>
    match voteLanes ix (laneVal c ix.x.g) with
    | .empty => .ok (0, ix)
    | .agree x r => .ok (x, ix.setVote r)
    | .differ r => .error r

/-- A group's scalar instruction with a second source that may be a lane source. -/
def scalarGroup (s : State) (i : Instr) (ix : IX) (a : SReg) (c : SSrc) (f : W64 → W64) : Out :=
  match readSrc ix c with
  | .error r => .next (nufGroup s ix.x.k r)
  | .ok (y, ix) => .next (commit s ix i (.w [.s a.num (f y)]) s.nextPc)

/-- The value of the second source at a team or grid sequencer; a lane source is illegal there (R101). -/
def seqVal (c : SSrc) (rd : SReg → W64) : W64 :=
  match c with
  | .s r => rd r
  | _ => 0

/-- sd := f(sb, sc) at the scope that owns sd. -/
def scalarOp (s : State) (i : Instr) (a b : SReg) (c : SSrc) (f : W64 → W64 → W64) : Out :=
  withUnit s i
    (fun ix => scalarGroup s i ix a c (f (ix.x.rd b)))
    (fun u => .next (seqWrite s u a.num (f (seqRead s u i b) (seqVal c (seqRead s u i)))))

/-- sd := f(registers), with scalar sources alone. -/
def scalarOf (s : State) (i : Instr) (a : SReg) (f : (SReg → W64) → W64) : Out :=
  withUnit s i
    (fun ix => .next (commit s ix i (.w [.s a.num (f ix.x.rd)]) s.nextPc))
    (fun u => .next (seqWrite s u a.num (f (seqRead s u i))))

/-! ### Results (R137) -/

/-- A relation of R85 on exact integers. -/
def cmpHolds (k : Cmp) (x y : Int) : Bool :=
  match k with
  | .eq => decide (x = y)
  | .ne => decide (x ≠ y)
  | .lt => decide (x < y)
  | .le => decide (x ≤ y)
  | .gt => decide (y < x)
  | .ge => decide (y ≤ x)

def mulhI (b c : W64) : W64 := BitVec.ofInt 64 (b.toInt * c.toInt / 2 ^ 64)
def mulhN (b c : W64) : W64 := BitVec.ofNat 64 (b.toNat * c.toNat / 2 ^ 64)
def shl64 (b c : W64) : W64 := if c.toNat < 64 then b <<< c.toNat else 0
def shr64 (b c : W64) : W64 := if c.toNat < 64 then b >>> c.toNat else 0
def sar64 (b c : W64) : W64 :=
  if c.toNat < 64 then BitVec.sshiftRight b c.toNat else if b.toInt < 0 then BitVec.allOnes 64 else 0
def minI64 (b c : W64) : W64 := if b.toInt ≤ c.toInt then b else c
def minN64 (b c : W64) : W64 := if b.toNat ≤ c.toNat then b else c
def maxI64 (b c : W64) : W64 := if c.toInt ≤ b.toInt then b else c
def maxN64 (b c : W64) : W64 := if c.toNat ≤ b.toNat then b else c
def boolW (b : Bool) : W64 := if b then 1 else 0

/-! ### The instructions -/

def execSadd (a b : SReg) (c : SSrc) (s : State) : Out := scalarOp s (.sadd a b c) a b c fun x y => x + y
def execSsub (a b : SReg) (c : SSrc) (s : State) : Out := scalarOp s (.ssub a b c) a b c fun x y => x - y
def execSmul (a b : SReg) (c : SSrc) (s : State) : Out := scalarOp s (.smul a b c) a b c fun x y => x * y
def execSmulhI64 (a b : SReg) (c : SSrc) (s : State) : Out := scalarOp s (.smulhI64 a b c) a b c mulhI
def execSmulhN64 (a b : SReg) (c : SSrc) (s : State) : Out := scalarOp s (.smulhN64 a b c) a b c mulhN
def execSand (a b : SReg) (c : SSrc) (s : State) : Out := scalarOp s (.sand a b c) a b c fun x y => x &&& y
def execSor (a b : SReg) (c : SSrc) (s : State) : Out := scalarOp s (.sor a b c) a b c fun x y => x ||| y
def execSxor (a b : SReg) (c : SSrc) (s : State) : Out := scalarOp s (.sxor a b c) a b c fun x y => x ^^^ y
def execSshl (a b : SReg) (c : SSrc) (s : State) : Out := scalarOp s (.sshl a b c) a b c shl64
def execSshr (a b : SReg) (c : SSrc) (s : State) : Out := scalarOp s (.sshr a b c) a b c shr64
def execSsar (a b : SReg) (c : SSrc) (s : State) : Out := scalarOp s (.ssar a b c) a b c sar64
def execSminI64 (a b : SReg) (c : SSrc) (s : State) : Out := scalarOp s (.sminI64 a b c) a b c minI64
def execSminN64 (a b : SReg) (c : SSrc) (s : State) : Out := scalarOp s (.sminN64 a b c) a b c minN64
def execSmaxI64 (a b : SReg) (c : SSrc) (s : State) : Out := scalarOp s (.smaxI64 a b c) a b c maxI64
def execSmaxN64 (a b : SReg) (c : SSrc) (s : State) : Out := scalarOp s (.smaxN64 a b c) a b c maxN64

def execScmpI64 (k : Cmp) (a b : SReg) (c : SSrc) (s : State) : Out :=
  scalarOp s (.scmpI64 k a b c) a b c fun x y => boolW (cmpHolds k x.toInt y.toInt)

def execScmpN64 (k : Cmp) (a b : SReg) (c : SSrc) (s : State) : Out :=
  scalarOp s (.scmpN64 k a b c) a b c fun x y => boolW (cmpHolds k x.toNat y.toNat)

/-- SSEL reads A before it writes it (R138). -/
def execSsel (a b c : SReg) (s : State) : Out :=
  scalarOf s (.ssel a b c) a fun rd => if rd a != 0 then rd b else rd c

def execSmov (a : SReg) (b : SSrc) (s : State) : Out :=
  withUnit s (.smov a b)
    (fun ix => scalarGroup s (.smov a b) ix a b id)
    (fun u => .next (seqWrite s u a.num (seqVal b (seqRead s u (.smov a b)))))

def execSmovi (a : SReg) (i : BitVec 14) (s : State) : Out := scalarOf s (.smovi a i) a fun _ => i.signExtend 64

def execSlui (a : SReg) (i : BitVec 14) (s : State) : Out :=
  scalarOf s (.slui a i) a fun rd => (rd a <<< 14) + i.setWidth 64

def execSaddi (a b : SReg) (i : BitVec 7) (s : State) : Out :=
  scalarOf s (.saddi a b i) a fun rd => rd b + i.signExtend 64

end Sys2Proof.Machine
end

