-- ==== Sys2Proof/Machine/Handler.lean ====
section
/-! DEFINITION. Entering and leaving handlers: the kernel's handler frames (R126 to R128, R284) and the supervisor
frame of a group (R200, R201). -/

namespace Sys2Proof.Machine

open Sys2Proof

/-! ### Page faults of a group (R200) -/

/-- A page fault of a group's access: the fault record, and the supervisor frame with the pages to examine. `mask` is
the value that m0 takes. A page fault inside the supervisor handler goes to the debug agent (R203). -/
def pageFault (s : State) (k : Nat) (t : Trap) (pages : List (Nat × W64)) (mask : W64) : State :=
  match s.group? k with
  | none => s
  | some g =>
    if g.sframe.isSome then takeFault s (.group k) t
    else
      let s := writeRecord s (.group k) fun c =>
        { c with fcause := fcauseWord t.cause (if t.lane then 0 else 1) t.detail, fpc := s.iss.fpc, faddr := t.addr }
      s.updGroup k fun g =>
        { g with
          st := .stopped .supervisor
          ctl := { g.ctl with pc := s.iss.fpc }
          sframe := some ⟨s.iss.fpc, mask, [], [], [], 0, 0, pages, none, [], t.wr, false⟩ }

/-- Entry of the supervisor handler, once the group has drained: registers saved, m0 the faulting lanes. -/
def enterSupervisor (s : State) (k : Nat) : State :=
  s.updGroup k fun g => match g.sframe with
    | none => g
    | some f =>
      { g with
        st := .running
        m := g.m.put 0 0 f.m0
        sframe := some { f with m0 := g.mreg 0, sreg := g.sreg, v := g.v, m := g.m, vote := g.ctl.vote, votex := g.ctl.votex } }

/-- Return from the supervisor handler: every register as at the fault, and the instruction executes again (R128). -/
def leaveSupervisor (s : State) (k : Nat) : State :=
  s.updGroup k fun g => match g.sframe with
    | none => g
    | some f =>
      { g with
        st := .running
        sreg := f.sreg
        v := f.v
        m := f.m.put 0 0 f.m0
        sframe := none
        ctl := { g.ctl with pc := f.resume, vote := f.vote, votex := f.votex } }

/-! ### HANDLER_ENTRY (R126) -/

/-- Every group below a stopped sequencer stands at a run's end with nothing in flight (R124, R126). -/
def membersDrained (s : State) (u : UnitId) : Bool :=
  (s.groupsBelow u).all fun k => match s.group? k with | some g => g.drained && g.run.isNone | none => true

/-- The resume address that a frame saves: past X for TRAP, otherwise X (R126). -/
def resumeOf (kind : FrameKind) (x : W64) : W64 :=
  match kind with
  | .trap => nextSlot x
  | _ => x

def execHandlerEntry (u : UnitId) (s : State) : Out :=
  match u with
  | .group k =>
    match s.group? k with
    | none => .fault .noSuchUnit
    | some g =>
      if !g.drained then .next s
      else match g.st with
        | .stopped (.handler kind entry) =>
          .next (s.updGroup k fun g =>
            { g with st := .running, ctl := g.ctl.enter kind entry g.ctl.pc (resumeOf kind g.ctl.pc) })
        | .stopped .supervisor => .next (enterSupervisor s k)
        | _ => .next s
  | u =>
    match s.seq? u with
    | none => .fault .noSuchUnit
    | some q =>
      match q.route with
      | some (.handler kind entry) =>
        if !membersDrained s u then .next s
        else
          let s := s.updSeq u fun q =>
            { q with st := .fetch, route := none, ctl := q.ctl.enter kind entry q.ctl.pc (resumeOf kind q.ctl.pc) }
          .next (match u with | .grid g => unparkFollowers s g | _ => s)
      | _ => .next s

/-! ### FRET (R128) -/

def execFret (sc : Lvl) (s : State) : Out :=
  withUnit s (.fret sc)
    (fun ix =>
      let k := ix.x.k
      let g := ix.x.g
      match g.sframe, g.ctl.frame with
      | some _, _ => .next (leaveSupervisor (commitCtl s ix (.fret sc) g.ctl) k)
      | none, some f => .next (unparkParent (commitCtl s ix (.fret sc) (g.ctl.close f f.resume)) (.group k))
      | none, none => .next (takeFault s (.group k) (trap cIllegal)))
    (fun u =>
      match s.seq? u with
      | none => .fault .noSuchUnit
      | some q =>
        match q.ctl.frame with
        | none => .next (takeFault s u (trap cIllegal))
        | some f =>
          let s := seqDone s u f.resume
          .next (unparkParent (s.updCtl u fun c => c.close f f.resume) u))

/-! ### Pool units (R215, R223) -/

/-- The spatial column of a team: the teams of all stages at one coordinate share it. -/
def columnOf (gr : Grid) (t : Team) : Nat := t.x + gr.x * (t.y + gr.y * t.z)

/-- The pool units that a span of bytes of a share covers, counted within the share. -/
def spanUnits (base n : Nat) : List Nat :=
  (List.range ((base + n + 65535) / 65536)).filter fun u => decide (base / 65536 ≤ u)

/-- The units that hold a team's registers, scratchpad and sums, and its column's rings, under a partition word. -/
def teamUnitsAt (s : State) (pw : Nat) (t : Team) : List Nat :=
  let rfu := bitsOf pw 5 0
  let mine := match s.grid? t.grid with
    | none => []
    | some g =>
      ((s.rings.filter fun r => r.grid == t.grid && r.column == columnOf g t).flatMap fun r =>
        (spanUnits r.base (r.size * r.bufs.length)).map (rfu + ·)) ++
      (List.range g.kcb.uacc).map (rfu + bitsOf pw 11 6 + t.accBase + ·)
  spanUnits t.rfBase t.rfSize ++ (spanUnits t.spBase t.spSize).map (rfu + ·) ++ mine

def teamUnits (s : State) (t : Team) : List Nat := teamUnitsAt s (s.coreD t.core).pw.toNat t

/-- Gated units begin to wake. -/
def wakeUnits (s : State) (core : Nat) (us : List Nat) : State :=
  s.updCore core fun c => { c with units := c.units.map fun (p : Nat × Gate) => if us.contains p.1 then (p.1, .waking) else p }

/-- The units of a partition word's three shares; those beyond them are gated (R215). -/
def shareUnits (pw : W64) : Nat := bitsOf pw.toNat 5 0 + bitsOf pw.toNat 11 6 + bitsOf pw.toNat 17 12

def gateBeyond (pw : W64) (t : Tab Gate) : Tab Gate :=
  ((List.range 48).filter fun u => decide (shareUnits pw ≤ u)).foldl (fun t u => t.set u .gated) t

/-- Units that are gated, or that still wake. -/
def sleeping (s : State) (core : Nat) (us : List Nat) : Bool := us.any fun u => (s.coreD core).units.has u

/-- An access to a team's storage stalls while a unit of it wakes (R223, R253). -/
def teamAsleep (s : State) (tk : Nat) : Bool :=
  match s.team? tk with
  | some t => sleeping s t.core (teamUnits s t)
  | none => false

/-! ### REVOTE (R127, R284) -/

/-- The lane source whose vote an instruction takes at G scope. -/
def voteSource : Instr → Option SSrc
  | .sadd _ _ c | .ssub _ _ c | .smul _ _ c | .smulhI64 _ _ c | .smulhN64 _ _ c | .sand _ _ c | .sor _ _ c
  | .sxor _ _ c | .sshl _ _ c | .sshr _ _ c | .ssar _ _ c | .sminI64 _ _ c | .sminN64 _ _ c | .smaxI64 _ _ c
  | .smaxN64 _ _ c | .scmpI64 _ _ _ c | .scmpN64 _ _ _ c | .smov _ c => some c
  | .mmloop a _ _ => some (.v a)
  | _ => none

def engineDepth : Nat := 16

/-- A group's scratchpad accesses, in its own core's banks and in others', have still to be served. -/
def spPending (g : Group) : Bool := !g.banks.isEmpty || !g.remotes.isEmpty

/-- The unit that X needs cannot accept it now: the engine's queue is full, earlier scratchpad accesses of the group are still
to be served, or a unit of its team wakes (R127, R223, R238). -/
def unitBusy (s : State) (k : Nat) : Instr → Bool
  | .mmloop _ _ _ => decide (engineDepth ≤ (s.coreD (coreOfGroup k)).engine.length) ||
      match s.group? k with
      | some g => spPending g || teamAsleep s g.team
      | none => false
  | _ => false

/-- The frame closes and X executes next, its WAIT not tested again. -/
def completeX (s : State) (k : Nat) (f : Frame) (x : Slot) : State :=
  let s := s.updGroup k fun g => { g with st := .running, lastIssue := s.clk, ctl := g.ctl.close f f.x }
  let s := unparkParent s (.group k)
  { s with iss := x.iss, agenda := x.instr :: s.agenda }

def revoteGroup (s : State) (ix : IX) (f : Frame) : Out :=
  let u := UnitId.group ix.x.k
  match fetchSlot s u ix.x.gr.kcb.paced f.x none with
  | .fault c a => .next (takeFault s u { trap c 0 a with fetch := true })
  | .poison _ pa => .next (dataStop s u { FRec.of 0x40 3 with scope := 1, xaddr := pa, fpc := f.x })
  | .stage2 l i a => .next { stage2Record s u 3 l i a false none f.x with s2waits := s.s2waits ++ [⟨ix.x.gr.vf, u, a, 0⟩] }
  | .ok x =>
    let s := commitCtl s ix (.revote .g) (ix.x.g.ctl.cutTo f)
    match voteSource x.instr with
    | none => .next (completeX s ix.x.k f x)
    | some src =>
      match voteLanes { ix with mask := 0, act := ix.x.g.active 0 } (laneVal src ix.x.g) with
      | .differ r =>
        let s := (s.setVoteG ix.x.k r).updGroup ix.x.k fun g => { g with ctl := { g.ctl with frame := none } }
        .next (takeFault { s with iss := x.iss } u (trap (match f.kind with | .fdt => cFdt | _ => cNuf)))
      | _ =>
        if unitBusy s ix.x.k x.instr then .next (s.updGroup ix.x.k fun g => { g with st := .revoteHeld })
        else .next (completeX s ix.x.k f x)

def voteFrame (c : Ctl) : Option Frame :=
  match c.frame with
  | some f => (match f.kind with | .trap => none | _ => some f)
  | none => none

def execRevote (sc : Lvl) (s : State) : Out :=
  withUnit s (.revote sc)
    (fun ix =>
      match ix.x.g.sframe, voteFrame ix.x.g.ctl with
      | none, some f => revoteGroup s ix f
      | _, _ => .next (takeFault s (.group ix.x.k) (trap cIllegal)))
    (fun u =>
      match s.seq? u with
      | none => .fault .noSuchUnit
      | some q =>
        match voteFrame q.ctl with
        | none => .next (takeFault s u (trap cIllegal))
        | some f =>
          .next (s.updSeq u fun q =>
            { q with st := .vote, revote := true, voted := none, reports := [], ctl := { q.ctl.cutTo f with pc := f.x } }))

/-- A held REVOTE whose unit now accepts X (R127). -/
def execRevoteAccepted (u : UnitId) (s : State) : Out :=
  match u with
  | .group k =>
    match s.gctx k with
    | none => .fault .noSuchUnit
    | some x =>
      match x.g.st, voteFrame x.g.ctl with
      | .revoteHeld, some f =>
        match fetchSlot s u x.gr.kcb.paced f.x none with
        | .ok slot => if unitBusy s k slot.instr then .next s else .next (completeX s k f slot)
        | _ => .next s
      | _, _ => .next s
  | _ => .fault .noSuchUnit

/-! ### Resuming an escalated fault (R201) -/

def execEscalatedFaultResume (g : Nat) (s : State) : Out :=
  match s.group? g with
  | none => .fault .noSuchUnit
  | some x => if x.st = .escalated then .next (leaveSupervisor s g) else .next s

end Sys2Proof.Machine
end

