-- ==== Sys2Proof/Machine/Lanes.lean ====
section
/-! DEFINITION. What the lane instructions share: the writing of a lane result under the governing mask (R132), the
generator of each lane (R47), elements of a width (R42, R133, R134), and mask destinations. -/

namespace Sys2Proof.Machine

open Sys2Proof

/-! ### Lane results -/

/-- The result of one lane: its registers from the destination up, and flags of SR.FSTAT. -/
structure LaneRes where
  vals : List W32
  flags : Nat
  deriving DecidableEq, Repr

/-- Writes of consecutive lane registers of a lane. -/
def laneWrites (g : Group) (l dst : Nat) : List W32 → Nat → List RegW
  | [], _ => []
  | x :: xs, n => .v l (g.vwb + dst + n) x :: laneWrites g l dst xs (n + 1)

/-- The live lanes outside the mask, which MZ zeroes (R132). -/
def IX.idle (ix : IX) : List Nat := lanesOf ix.x.g.w (ix.x.g.live &&& ~~~ix.act)

/-- Zero in the destination of the live lanes outside the mask under MZ. -/
def zeroWrites (ix : IX) (dst count : Nat) : List RegW :=
  if ix.mz then ix.idle.flatMap fun l => laneWrites ix.x.g l dst (List.replicate count 0) 0 else []

/-- The mode of a rounding instruction. -/
def IX.mode (ix : IX) (dflt : Rnd) : Rnd := rndOf ix.rnd dflt

/-- The generator state of a lane after `n` draws (R47). -/
def Group.genAfter (g : Group) (l : Nat) : Nat → W32
  | 0 => g.gen.getD l (BitVec.ofNat 32 (l + 1))
  | n + 1 => nextRand (g.genAfter l n)

/-- The value that the n-th rounding of a lane draws; only SR draws. -/
def IX.rand (ix : IX) (l n : Nat) : Nat := (ix.x.g.genAfter l (n + 1)).toNat

/-- New generator states where each active lane drew `n` values under SR. -/
def IX.gens (ix : IX) (mode : Rnd) (n : Nat) : List (Nat × W32) :=
  if mode = .sr then ix.lanes.map fun l => (l, ix.x.g.genAfter l n) else []

/-- A result in every active lane, zero where MZ asks for it. -/
def laneEff (ix : IX) (dst count : Nat) (f : Nat → LaneRes) : Eff :=
  let rs := ix.lanes.map fun l => (l, f l)
  { writes := (rs.flatMap fun r => laneWrites ix.x.g r.1 dst r.2.vals 0) ++ zeroWrites ix dst count
    fstat := rs.foldl (fun a r => a ||| r.2.flags) 0
    gens := [] }

/-- An instruction with one result per active lane. -/
def laneOp (s : State) (i : Instr) (dst : VReg) (count : Nat) (f : IX → Nat → LaneRes) : Out :=
  groupOp s i fun ix => .ok (laneEff ix dst.toNat count (f ix))

/-- One whose rounding may draw `draws` values a lane. -/
def roundOp (s : State) (i : Instr) (dst : VReg) (count draws : Nat) (dflt : Rnd) (f : IX → Rnd → Nat → LaneRes) : Out :=
  groupOp s i fun ix =>
    let mode := ix.mode dflt
    .ok { laneEff ix dst.toNat count (f ix mode) with gens := ix.gens mode draws }

/-! ### Elements of a width (R134) -/

def widthBits : Width → Nat
  | .w32 => 32
  | .w16 => 16
  | .w8 => 8
  | .w64 => 64

/-- How many elements a register, or the pair of W64, holds. -/
def widthCount : Width → Nat
  | .w16 => 2
  | .w8 => 4
  | _ => 1

def elemAt (n : Nat) (x : Nat) (i : Nat) : Nat := x / 2 ^ (n * i) % 2 ^ n

/-- Puts elements together, the first lowest. -/
def packElems (n : Nat) : List Nat → Nat
  | [] => 0
  | x :: xs => x % 2 ^ n + 2 ^ n * packElems n xs

/-- The value of a register, or of the pair under W64. -/
def Group.wide (g : Group) (w : Width) (l n : Nat) : Nat :=
  match w with
  | .w64 => (g.vpair l n).toNat
  | _ => (g.vreg l n).toNat

/-- The value that a scalar gives every lane (R133). -/
def scalarWide (w : Width) (x : W64) : Nat :=
  packElems (widthBits w) (List.replicate (widthCount w) x.toNat)

/-- The C operand of a lane. -/
def vsrcWide (ix : IX) (w : Width) (c : VSrc) (l : Nat) : Nat :=
  match c with
  | .v n => ix.x.g.wide w l n.toNat
  | .s r => scalarWide w (ix.x.rd r)

/-- The registers of a value: one, or the pair of W64. -/
def wideRegs (w : Width) (x : Nat) : List W32 :=
  match w with
  | .w64 => [BitVec.ofNat 32 x, BitVec.ofNat 32 (x / 2 ^ 32)]
  | _ => [BitVec.ofNat 32 x]

/-- f on each element. -/
def mapElems (w : Width) (f : Nat → Nat) : Nat := packElems (widthBits w) ((List.range (widthCount w)).map f)

/-! ### Mask destinations (R132) -/

/-- The bits of a mask result: a bit per active lane; other bits unchanged, or zero under MZ. -/
def maskRes (ix : IX) (old : W64) (f : Nat → Bool) : W64 :=
  let res := ix.lanes.foldl (fun m l => if f l then m ||| ((1 : W64) <<< l) else m) (0 : W64)
  if ix.mz then res else (old &&& ~~~ix.act) ||| res

/-- Lanes 0 to W − 1 (R19). -/
def widthMask (w : Nat) : W64 := BitVec.ofNat 64 (2 ^ w - 1)

/-- A compare or ballot: one bit per active lane, with flags. -/
def maskOp (s : State) (i : Instr) (a : MReg) (f : IX → Nat → Bool × Nat) : Out :=
  groupOp s i fun ix =>
    let r := ix.lanes.map fun l => (l, f ix l)
    .ok
      { writes := [.m a.toNat (maskRes ix (ix.x.g.mreg a.toNat) fun l => (f ix l).1)]
        fstat := r.foldl (fun a p => a ||| p.2.2) 0
        gens := [] }

/-- A group's register result outside the lanes. -/
def plainOp (s : State) (i : Instr) (f : IX → List RegW) : Out := groupOp s i fun ix => .ok (.w (f ix))

end Sys2Proof.Machine
end

