-- ==== Sys2Proof/Machine/GroupMem.lean ====
section
/-! DEFINITION. A group's access to memory (R179 to R200): the checks of every lane, the paths through the L1 or to
the home, releases, acquires and fences, cache maintenance, bounded loads, and the scalar accesses of every
sequencer. -/

namespace Sys2Proof.Machine

open Sys2Proof

/-! ### Sizes and data (R180) -/

def mtypeSize : MType → Nat
  | .n8 | .i8 => 1
  | .n16 | .i16 => 2
  | .b32 => 4
  | .b64 => 8
  | .b128 => 16

def stypeSize : SType → Nat
  | .n8 | .i8 => 1
  | .n16 | .i16 => 2
  | .n32 | .i32 => 4
  | .b64 => 8

def atypeSize (t : AType) : Nat := atypeBits t / 8

/-- The data of `count` registers of a lane, the lowest first. -/
def Group.laneData (g : Group) (l n : Nat) : Nat → Nat
  | 0 => 0
  | k + 1 => (g.vreg l n).toNat + 2 ^ 32 * g.laneData l (n + 1) k

def GCtx.core (x : GCtx) : Nat := coreOfGroup x.k
def GCtx.asid (x : GCtx) : Nat := x.gr.asid
def GCtx.vf (x : GCtx) : Nat := x.gr.vf

/-! ### Addresses and their checks (R179, R180, R199) -/

/-- A lane's access with its translation. -/
structure LaneX where
  lane : Nat
  va : W64
  x : Xlat
  deriving DecidableEq, Repr

inductive Checked where
  | ok (xs : List LaneX)
  | fault (t : Trap)
  /-- A page fault: the lanes that met it with their addresses, and their mask. -/
  | page (t : Trap) (pages : List (Nat × W64)) (mask : W64)
  deriving DecidableEq, Repr

def vaOk (va : W64) : Bool := decide (va.toNat < 2 ^ 55)

def maskOfLanes (ls : List Nat) : W64 := ls.foldl (fun m l => m ||| ((1 : W64) <<< l)) 0

/-- One address of a group or team: range, translation, and the time page. -/
def xlatOne (s : State) (core asid : Nat) (a : Acc) (ld64 : Bool) (va : W64) : XRes :=
  if !vaOk va then .prot
  else match translate s core asid va.toNat a with
    | .ok x => if timeBarred s x ld64 then .prot else .ok x
    | r => r

/-- R199: the cause is the first that any lane meets, and the lowest lane that met it is named. -/
def checkLanes (s : State) (c : GCtx) (a : Acc) (size : Nat) (ld64 : Bool) (las : List (Nat × W64)) : Checked :=
  match las.find? fun p => p.2.toNat % size != 0 with
  | some p => .fault (laneTrap cAlign p.1 p.2 (a == .wr))
  | none =>
    let xs := las.map fun p => (p, xlatOne s c.core c.asid a ld64 p.2)
    match xs.find? fun p => p.2 == .prot with
    | some p => .fault (laneTrap cProt p.1.1 p.1.2 (a == .wr))
    | none =>
      let bad := xs.filterMap fun p => match p.2 with | .ok _ => none | _ => some p.1
      match bad with
      | p :: _ => .page (laneTrap cPage p.1 p.2 (a == .wr)) bad (maskOfLanes (bad.map (·.1)))
      | [] => .ok (xs.filterMap fun p => match p.2 with | .ok x => some ⟨p.1.1, p.1.2, x⟩ | _ => none)

/-- The address pair that a lane supplies. -/
def IX.base (ix : IX) (b : VReg) (l : Nat) : W64 := ix.x.g.vpair l b.toNat

def IX.addrs (ix : IX) (f : Nat → W64) : List (Nat × W64) := ix.lanes.map fun l => (l, f l)

/-- Runs a lane memory instruction: the checks of R93 and R199, then its effect on the translated lanes. -/
def memLanes (s : State) (i : Instr) (a : Acc) (size : Nat) (ld64 : Bool) (addr : IX → Nat → W64)
    (body : IX → State → List LaneX → Out) : Out :=
  withGroup s i fun ix =>
    match checkLanes s ix.x a size ld64 (ix.addrs (addr ix)) with
    | .fault t => .next (takeFault s (.group ix.x.k) t)
    | .page t pages mask => .next (pageFault s ix.x.k t pages mask)
    | .ok xs => body ix (foldS s xs fun s x => fillTlb s ix.x.core ix.x.asid x.va.toNat false) xs

/-! ### Issue (R65, R190) -/

/-- A memory instruction issues: its flight, the pc past it, and the hold of an acquire. -/
def memIssue (s : State) (ix : IX) (f : Flight) : State × Nat :=
  let g := ix.x.g
  let g' := (g.launch { f with flag := issueFlag s ix.x, fpc := s.iss.fpc }).issued s s.nextPc
  let g' := { g' with hold := if f.acq.isSome then some g.nextFlight else g'.hold }
  ((s.setGroup ix.x.k g').bumpKey, g.nextFlight)

/-- A flight of a memory access with its pending lane registers and what MZ zeroes. -/
def memFlight (pendV : List Nat) (zero : List RegW) (acq : Option MScope) : Flight :=
  ⟨0, 0, none, 0, zero, pendV, [], [], true, false, acq, 0, false⟩

/-- The register keys that the active lanes write. -/
def IX.destKeys (ix : IX) (a : VReg) (count : Nat) : List Nat :=
  ix.lanes.flatMap fun l => (List.range count).map fun n => l * 256 + ix.x.g.vwb + a.toNat + n

/-- One more part of a flight is outstanding. -/
def awaitPart (s : State) (grp flight : Nat) : State :=
  s.updGroup grp fun g => { g with flights := g.flights.map fun f => if f.id = flight then { f with wait := f.wait + 1 } else f }

/-- Results that need no wait. -/
def giveNow (s : State) (grp flight : Nat) (ws : List RegW) : State :=
  s.updGroup grp fun g => { g with flights := g.flights.map fun f => if f.id = flight then { f with writes := f.writes ++ ws } else f }

/-! ### Through the L1 (R301, R321, R324, R327) -/

/-- Whether the L1 serves an access now: no miss of the grain is pending, and the grain's state serves it. -/
def readyFor (c : Core) (m : Miss) (w : Waiter) : Bool :=
  (c.miss? m.grain).isNone && if isStore w && m.prot = .d then c.grainSt w.pa == some .ex else c.hit w.pa

/-- One lane's load or store through the L1: served now, or waiting on a miss. -/
def accessPart (s : State) (core : Nat) (m : Miss) (w : Waiter) : State :=
  let c := s.coreD core
  if readyFor c m w then
    match w.act with
    | .store bs => s.updCore core fun c => c.l1Write w.pa bs (writtenSt m.prot) s.clk
    | _ => giveNow (s.updCore core fun c => c.used w.pa s.clk) w.grp w.flight (loadWrites w (c.l1Read w.pa w.size))
  else addWaiter (awaitPart s w.grp w.flight) core m w

/-! ### Operations that travel to a home (R326, R328) -/

def pageAttr (c : GCtx) (x : Xlat) : PageAttr :=
  ⟨x.prot == .d, (x.prot == .d || x.prot == .s) && !isRemote x.pa, x.bell, x.hs, c.asid, c.vf⟩

/-- One operation per grain, its lanes in increasing order. -/
def mkOps (c : GCtx) (flight : Nat) (act : HomeAct) (acq : Option MScope) (xs : List (Xlat × LaneOp))
    (rel : Option MScope := none) : List HomeOp :=
  (xs.map fun p => gbase p.1.gsz p.1.pa).eraseDups.filterMap fun g =>
    match xs.filter fun p => gbase p.1.gsz p.1.pa == g with
    | [] => none
    | p :: ps => some ⟨c.core, c.k, flight, g, p.1.gsz, act, acq, (p :: ps).map (·.2), pageAttr c p.1, false, rel⟩

/-- A D grain that its core owns is shared from now on: a later store of the core asks for it again, behind what has left. -/
def demote (s : State) (core g : Nat) : State :=
  if (s.coreD core).grainSt g ≠ some .ex then s
  else
    let s := s.updCore core fun c => c.setGrain g .sh
    match s.dirs.get? g with
    | some d => if d.lock || d.st ≠ .own core then s else s.putDir g (s.shareDir { d with st := .shd } core false)
    | none => s

/-- R326: what a core does with its own copy before an operation leaves it; a copy that the operation overtakes goes,
so that later accesses of the group return the operation's result. A delivery leaves the copy in place (R299), which its core
then does not own. -/
def beforeOp (s : State) (o : HomeOp) : State :=
  match o.act with
  | .load _ | .loadS _ _ => flushGrain s o.core o.grain
  | .dlv _ _ => demote (flushGrain s o.core o.grain) o.core o.grain
  | .ring _ _ _ => s
  | _ => purgeGrain s o.core o.grain

/-- What a group awaits of an operation that leaves: its end at the home; of a store on another device, which is performed at
.DEV when it leaves, its acknowledgement alone (R451). -/
def departs (s : State) (o : HomeOp) : State :=
  if remoteStore o then s.updGroup o.grp fun g => { g with acks := g.acks ++ [o.flight] } else awaitPart s o.grp o.flight

def sendOp (s : State) (o : HomeOp) : State := (beforeOp (departs s o) o).post [.homeExecutedOperation o]

/-- A miss of the grain is pending at the core: an operation on the grain follows it, so that no fill of it brings bytes older
than the operation's (R195, R326). -/
def grainBusy (c : Core) (g : Nat) : Bool := (c.miss? g).isSome

/-- A release, a fence or another action that waits for the group's earlier accesses. -/
def pendRel (s : State) (grp : Nat) (p : PendRel) : State :=
  (awaitPart s grp p.flight).updGroup grp fun g => { g with rels := g.rels ++ [p] }

/-- Sends operations at once, or after the group's earlier accesses where they release or follow a pending miss. -/
def sendOps (s : State) (c : GCtx) (flight : Nat) (sc : MScope) (rel : Bool) (ops : List HomeOp) : State :=
  if rel || ops.any fun o => grainBusy (s.coreD c.core) o.grain then
    pendRel s c.k ⟨flight, sc, rel, [], ops, []⟩
  else foldS s ops sendOp

/-- A release at a scope makes the core's writes visible there (R324, R348). -/
def releaseAt (s : State) (core vf : Nat) (sc : MScope) : State :=
  let s := if sc.wide then releaseFlush s core vf else s
  if sc = .sys then releaseSys s vf else s

/-- The lines of host-shared pages that an acquire at .SYS invalidates: all but window grains and delivered ones, which an
acquire leaves (R191, R301, R327). -/
def sysLines (s : State) (core vf : Nat) : List Nat :=
  grainsOf s core fun g b => b.hs && b.vf == vf && b.prot != .w && !isState b g .du && !isState b g .dr

/-- The acquire action at a scope (R191, R324). -/
def acquireAt (s : State) (core vf : Nat) (sc : MScope) : State :=
  let s := if sc.wide then acquireDrop s core vf else s
  if sc = .sys then foldS s (sysLines s core vf) fun s g => purgeGrain s core g else s

/-- Whether a pending release may be performed: every earlier access of the group is, at .SYS every earlier store on another
device is acknowledged (R451), and at .CLU or wider every earlier delivery has settled (R190, R303). -/
def relReady (g : Group) (p : PendRel) : Bool :=
  (g.flights.all fun f => !f.mem || decide (p.flight ≤ f.id) || f.wait == 0) &&
  (p.scope != .sys || g.acks.all fun a => decide (p.flight ≤ a)) &&
  (!(p.rel && p.scope.wide) || g.unsettled.all fun u => decide (p.flight < u.1))

/-- R328: the record messages of a release at .GRP or .TEAM. -/
def recordsOf (core : Nat) (p : PendRel) : List Instr :=
  if p.rel && !p.scope.wide then p.grains.map fun g => .recordMessage core g.1 p.scope else []

/-- The records of a release have still to be sent. -/
def recordsDue (g : Group) (core : Nat) (p : PendRel) : Bool := !(recordsOf core p).isEmpty && g.recs.isNone

/-- A record of the core for a grain is on its way, or waits at its home. -/
def recordOut (s : State) (core grain : Nat) : Bool :=
  (s.agenda.any fun i => match i with | .recordMessage c g _ => c == core && g == grain | _ => false) ||
  match s.dirs.get? grain with
  | some d => (d.held ++ d.cur.toList).any fun r => match r with | .record c _ => c == core | _ => false
  | none => false

/-- The homes have answered the records that the group's release has sent; where one was refused the core's pending stores
are performed first (R328). -/
def recordsAnswered (s : State) (x : GCtx) (p : PendRel) : Bool :=
  (recordsOf x.core p).isEmpty ||
  (!(p.grains.any fun g => recordOut s x.core g.1) && (x.g.recs != some true || (pendingStores s x.core x.vf).isEmpty))

/-- The memory part of a release: it is performed, then its own stores and operations. Where a record was refused the
release is first completed as at .CLU (R328). -/
def performMem (s : State) (x : GCtx) (p : PendRel) : State :=
  let s := if p.rel then releaseAt s x.core x.vf (if x.g.recs = some true then .clu else p.scope) else s
  let s := foldS s p.stores fun s r =>
    accessPart s x.core { r.miss with waiters := [] } ⟨x.k, p.flight, r.lane, r.va, r.pa, r.bytes.length, .store r.bytes⟩
  foldS s (p.ops.map fun o => { o with sys := p.rel && p.scope == .sys }) sendOp

/-! ### LD and ST (R183, R184) -/

def waiterOf (c : GCtx) (flight : Nat) (x : LaneX) (size : Nat) (act : WaitAct) : Waiter :=
  ⟨c.k, flight, x.lane, x.va.toNat, x.x.pa, size, act⟩

def laneOpOf (x : LaneX) (size : Nat) (v cmp : W128) : LaneOp := ⟨x.lane, x.va.toNat, x.x.pa, size, v, cmp⟩

/-- Lanes whose access goes to the home, and those that the L1 serves. -/
def homeLanes (xs : List LaneX) : List LaneX := xs.filter fun x => x.x.prot == .n
def l1Lanes (xs : List LaneX) : List LaneX := xs.filter fun x => x.x.prot != .n

def missAt (s : State) (c : GCtx) (x : LaneX) (own : Bool) : Miss := missOf s c.core c.asid c.vf x.x own

/-- Loads through the L1. -/
def l1Loads (s : State) (ix : IX) (flight : Nat) (t : MType) (a : VReg) (xs : List LaneX) : State :=
  foldS s xs fun s x =>
    accessPart s ix.x.core (missAt s ix.x x false)
      (waiterOf ix.x flight x (mtypeSize t) (.loadV t (ix.x.g.vwb + a.toNat)))

def loadOps (ix : IX) (flight : Nat) (t : MType) (acq : Option MScope) (xs : List LaneX) : List HomeOp :=
  mkOps ix.x flight (.load t) acq (xs.map fun x => (x.x, laneOpOf x (mtypeSize t) 0 0))

def loadFlight (ix : IX) (t : MType) (a : VReg) (acq : Option MScope) : Flight :=
  memFlight (ix.destKeys a t.regs) (zeroWrites ix a.toNat t.regs) acq

/-- A load that acts as a plain LD on its lanes. -/
def plainLoad (s : State) (ix : IX) (t : MType) (a : VReg) (acq : Option MScope) (xs : List LaneX) : State :=
  let (s, fl) := memIssue s ix (loadFlight ix t a acq)
  let s := l1Loads s ix fl t a (l1Lanes xs)
  sendOps s ix.x fl .grp false (loadOps ix fl t none (homeLanes xs))

/-- The effective address of a plain access (R179). -/
def offAddr (b : VReg) (size : Nat) (c : LdOff) (ix : IX) (l : Nat) : W64 :=
  match c with
  | .imm n => ix.base b l + BitVec.ofNat 64 (n.toNat * size)
  | .reg n => ix.base b l + ix.x.g.sregD n.toNat

def execLd (t : MType) (a b : VReg) (c : LdOff) (s : State) : Out :=
  memLanes s (.ld t a b c) .rd (mtypeSize t) (t == .b64) (offAddr b (mtypeSize t) c) fun ix s xs =>
    .next (plainLoad s ix t a none xs)

def execLdAcq (t : MType) (a b : VReg) (sc : MScope) (s : State) : Out :=
  memLanes s (.ldAcq t a b sc) .rd (mtypeSize t) false (fun ix => ix.base b) fun ix s xs =>
    if !sc.wide then .next (plainLoad s ix t a (some sc) xs)
    else
      let (s, fl) := memIssue s ix (loadFlight ix t a (some sc))
      let s := l1Loads s ix fl t a (xs.filter fun x => x.x.prot == .w)
      .next (sendOps s ix.x fl sc false (loadOps ix fl t (some sc) (xs.filter fun x => x.x.prot != .w)))

/-- The bytes that a lane stores. -/
def storeBytes (ix : IX) (t : MType) (a : VReg) (l : Nat) : List Byte :=
  leBytes (mtypeSize t) (ix.x.g.laneData l a.toNat t.regs)

def storeOps (ix : IX) (flight : Nat) (t : MType) (a : VReg) (xs : List LaneX) : List HomeOp :=
  mkOps ix.x flight .store none (xs.map fun x =>
    (x.x, laneOpOf x (mtypeSize t) (BitVec.ofNat 128 (ix.x.g.laneData x.lane a.toNat t.regs)) 0))

def execSt (t : MType) (a b : VReg) (c : LdOff) (s : State) : Out :=
  memLanes s (.st t a b c) .wr (mtypeSize t) false (offAddr b (mtypeSize t) c) fun ix s xs =>
    let (s, fl) := memIssue s ix (memFlight [] [] none)
    let s := foldS s (l1Lanes xs) fun s x =>
      accessPart s ix.x.core (missAt s ix.x x true)
        (waiterOf ix.x fl x (mtypeSize t) (.store (storeBytes ix t a x.lane)))
    .next (sendOps s ix.x fl .grp false (storeOps ix fl t a (homeLanes xs)))

/-- The lanes of a release that are written in the L1: all but N pages at .GRP and .TEAM, windows at every scope. -/
def relStores (s : State) (ix : IX) (t : MType) (a : VReg) (xs : List LaneX) : List RelStore :=
  xs.map fun x => ⟨missAt s ix.x x true, x.lane, x.va.toNat, x.x.pa, storeBytes ix t a x.lane⟩

def execStRel (t : MType) (a b : VReg) (sc : MScope) (s : State) : Out :=
  memLanes s (.stRel t a b sc) .wr (mtypeSize t) false (fun ix => ix.base b) fun ix s xs =>
    let (s, fl) := memIssue s ix (memFlight [] [] none)
    let inL1 (x : LaneX) : Bool := if sc.wide then x.x.prot == .w else x.x.prot != .n
    .next (pendRel s ix.x.k
      ⟨fl, sc, true, relStores s ix t a (xs.filter inL1), storeOps ix fl t a (xs.filter fun x => !inL1 x), []⟩)

/-! ### Atomics (R187 to R189) -/

/-- The scope at which an atomic releases, where an acquire of another core may promote it (R343). -/
def homeRel (r : Ord) (sc : MScope) : Option MScope := if r.releases && !sc.wide then some sc else none

/-- The scope that a home records an acquire with: .CLU or wider promotes (R329). -/
def homeAcq (r : Ord) (sc : MScope) : Option MScope := if r.acquires && sc.wide then some sc else none

def atomicOp (s : State) (ix : IX) (act : HomeAct) (r : Ord) (sc : MScope) (a : VReg) (count size : Nat)
    (x cmp : Nat → Nat) (xs : List LaneX) : Out :=
  let (s, fl) := memIssue s ix
    (memFlight (ix.destKeys a count) (zeroWrites ix a.toNat count) (if r.acquires then some sc else none))
  .next (sendOps s ix.x fl sc r.releases (mkOps ix.x fl act (homeAcq r sc) (xs.map fun l =>
    (l.x, laneOpOf l size (BitVec.ofNat 128 (x l.lane)) (BitVec.ofNat 128 (cmp l.lane)))) (homeRel r sc)))

def execAtom (o : AOp) (t : AType) (a b : VReg) (r : Ord) (sc : MScope) (s : State) : Out :=
  memLanes s (.atom o t a b r sc) .wr (atypeSize t) false (fun ix => ix.base b) fun ix s xs =>
    atomicOp s ix (.atom o t) r sc a t.regs (atypeSize t) (fun l => ix.x.g.laneData l a.toNat t.regs) (fun _ => 0) xs

def casOp (s : State) (i : Instr) (r : Ord) (sc : MScope) (a b c : VReg) (count : Nat) : Out :=
  memLanes s i .wr (4 * count) false (fun ix => ix.base b) fun ix s xs =>
    atomicOp s ix .cas r sc a count (4 * count) (fun l => ix.x.g.laneData l c.toNat count)
      (fun l => ix.x.g.laneData l a.toNat count) xs

def execCas (r : Ord) (sc : MScope) (a b c : VReg) (s : State) : Out := casOp s (.cas r sc a b c) r sc a b c 1
def execCasW64 (r : Ord) (sc : MScope) (a b c : VReg) (s : State) : Out := casOp s (.casW64 r sc a b c) r sc a b c 2

/-! ### FENCE, PREF, CINV, CFLUSH (R192 to R194) -/

def execFence (r : Ord) (sc : MScope) (s : State) : Out :=
  withGroup s (.fence r sc) fun ix =>
    if r = .plain then .next (takeFault s (.group ix.x.k) (trap cIllegal))
    else
      let (s, fl) := memIssue s ix (memFlight [] [] (if r.acquires then some sc else none))
      .next (pendRel s ix.x.k ⟨fl, sc, r.releases, [], [], []⟩)

def execPref (b : VReg) (l2 : Bool) (s : State) : Out :=
  withGroup s (.pref b l2) fun ix => .next (commit s ix (.pref b l2) (.w []) s.nextPc)

/-- The grains that CINV and CFLUSH act on, with their sizes; an address that does not translate is skipped. -/
def maintGrains (s : State) (ix : IX) (b : VReg) : List (Nat × Nat) :=
  (ix.lanes.filterMap fun l => match xlatOne s ix.x.core ix.x.asid .rd false (ix.base b l) with
    | .ok x => if x.prot = .n then none else some (gbase x.gsz x.pa, x.gsz)
    | _ => none).eraseDups

def maintOp (s : State) (i : Instr) (b : VReg) (sc : MScope) (inv : Bool) : Out :=
  withGroup s i fun ix =>
    let gs := if sc.wide then maintGrains s ix b else []
    let (s, fl) := memIssue s ix (memFlight [] [] none)
    .next (pendRel s ix.x.k ⟨fl, sc, false, [], [], gs.map fun g => .maint g.1 g.2 inv⟩)

def execCinv (b : VReg) (sc : MScope) (s : State) : Out := maintOp s (.cinv b sc) b sc true
def execCflush (b : VReg) (sc : MScope) (s : State) : Out := maintOp s (.cflush b sc) b sc false

/-! ### Bounded loads (R333, R334, R337) -/

/-- The fill round of a copy (R333, R334): the core's view for a valid D copy or a delivery that has not lost its round, the
recorded round otherwise. -/
def Core.fillRound (c : Core) (asid bell pa : Nat) : Option W32 :=
  match c.block? pa with
  | none => none
  | some b =>
    match b.st pa, b.round pa with
    | some .v, r | some .vb, r => r
    | some _, some _ => some (c.view asid bell)
    | _, _ => none

/-- Whether a copy serves a bounded load. -/
def Core.servesLdb (c : Core) (asid bell pa : Nat) (th : W32) : Bool :=
  match c.grainSt pa with
  | none => false
  | some .vd => true
  | some _ => match c.fillRound asid bell pa with
    | some f => ge32 f th
    | none => false

/-- A lane refetches from the home: it joins a pending miss, and asks again where that miss was requested under too old a
view (R337). -/
def refetch (s : State) (core : Nat) (m : Miss) (t : MType) (phys : Nat) (th : W32) (w : Waiter) : State :=
  addWaiter s core m { w with act := .loadB t phys th }

/-- An earlier store of the group to bytes of an access waits on a pending miss: program order holds the access back
(R195). -/
def behindStore (c : Core) (grp pa size : Nat) : Bool :=
  c.misses.any fun m => m.waiters.any fun w => w.grp == grp && isStore w && decide (w.pa < pa + size) && decide (pa < w.pa + w.size)

/-- SR.BELLTO's TIMEOUT (R339). -/
def Team.timeout (t : Team) : Nat := bitsOf t.bellto.toNat 23 0

def ldbPart (s : State) (ix : IX) (fl : Nat) (wait : Bool) (t : MType) (a : VReg) (n : Nat) (x : LaneX) : State :=
  let core := ix.x.core
  let c := s.coreD core
  let m := missAt s ix.x x false
  let w := waiterOf ix.x fl x (mtypeSize t) (.loadV t (ix.x.g.vwb + a.toNat))
  if x.x.bell = 0 || x.x.prot = .w || isRemote x.x.pa then accessPart s core m w
  else
    let th := c.view ix.x.asid x.x.bell - BitVec.ofNat 32 n
    if !behindStore c ix.x.k x.x.pa w.size && c.servesLdb ix.x.asid x.x.bell x.x.pa th then
      giveNow (s.updCore core fun c => c.used x.x.pa s.clk) ix.x.k fl (loadWrites w (c.l1Read x.x.pa w.size))
    else if !wait || ix.x.t.timeout = 0 then refetch (awaitPart s ix.x.k fl) core m t (ix.x.g.vwb + a.toNat) th w
    else
      let lw : LdbWait := ⟨ix.x.k, fl, x.lane, x.x.pa, w.size, t, ix.x.g.vwb + a.toNat, m.grain, th,
        s.clk + ix.x.t.timeout, { m with waiters := [w] }⟩
      (awaitPart s ix.x.k fl).updCore core fun c => { c with ldbWaits := c.ldbWaits ++ [lw] }

def ldbOp (s : State) (i : Instr) (wait : Bool) (t : MType) (a b : VReg) (n : BitVec 3) : Out :=
  memLanes s i .rd (mtypeSize t) false (fun ix => ix.base b) fun ix s xs =>
    let (s, fl) := memIssue s ix (loadFlight ix t a none)
    let s := foldS s (l1Lanes xs) fun s x => ldbPart s ix fl wait t a n.toNat x
    .next (sendOps s ix.x fl .grp false (loadOps ix fl t none (homeLanes xs)))

def execLdbR (t : MType) (a b : VReg) (n : BitVec 3) (s : State) : Out := ldbOp s (.ldbR t a b n) false t a b n
def execLdbS (t : MType) (a b : VReg) (n : BitVec 3) (s : State) : Out := ldbOp s (.ldbS t a b n) true t a b n

/-- A lane of LDB.S whose wait ends, by time or for a pre-emption: it refetches as .R. -/
def execLdbSTimeout (g flight lane : Nat) (s : State) : Out :=
  match s.gctx g with
  | none => .fault .noSuchUnit
  | some x =>
    match (s.coreD x.core).ldbWaits.find? fun w => w.grp == g && w.flight == flight && w.lane == lane with
    | none => .next s
    | some w =>
      let s := s.updCore x.core fun c => { c with ldbWaits := c.ldbWaits.filter fun e => e != w }
      let m := { w.miss with frnd := (s.coreD x.core).view w.miss.asid w.miss.bell, waiters := [] }
      match w.miss.waiters with
      | wt :: _ => .next (refetch s x.core m w.t w.phys w.th wt)
      | [] => .next (flightArrive s g flight [])

/-! ### LDS and STS (R185, R186) -/

/-- The scalar address: base and a signed offset in units of the size. -/
def scalarAddr (base : W64) (c : BitVec 7) (size : Nat) : W64 := base + c.signExtend 64 * BitVec.ofNat 64 size

/-- A scalar access of a group: R200 puts SR.LIVE in m0 on a page fault. -/
def memScalar (s : State) (a : Acc) (size : Nat) (ix : IX) (va : W64) (body : State → Xlat → Out) : Out :=
  let t (c : Nat) : Trap := { trap c 0 va with wr := a == .wr }
  if va.toNat % size ≠ 0 then .next (takeFault s (.group ix.x.k) (t cAlign))
  else match xlatOne s ix.x.core ix.x.asid a false va with
    | .prot => .next (takeFault s (.group ix.x.k) (t cProt))
    | .ok x => body (fillTlb s ix.x.core ix.x.asid va.toNat false) x
    | _ => .next (pageFault s ix.x.k (t cPage) [(0, va)] ix.x.g.live)

/-- A data error of a team or grid sequencer (R408). -/
def dataErrorSeq (s : State) (u : UnitId) (va : W64) (pa : Nat) (wr : Bool) : State :=
  dataStop s u { FRec.of 0x40 2 with va := va, xaddr := pa, fpc := s.iss.fpc, scope := recScope u none, wr := wr }

/-- A team sequencer's L1 serves an address without its home. -/
def servedByL1 (s : State) (u : UnitId) (x : Xlat) : Bool :=
  match coreOfUnit u with
  | some c => x.prot != .n && (s.coreD c).hit x.pa
  | none => false

def vfOf (s : State) (u : UnitId) : Nat :=
  match s.gridOf u with
  | some g => (match s.grid? g with | some x => x.vf | none => 0)
  | none => 0

/-- R186, R398: a scalar access of a team or grid sequencer. A first-touch page is mapped by a reeve, and a page being
moved or a second-stage fault holds the sequencer at its slot; any other fault stops it. -/
def memSeq (s : State) (u : UnitId) (a : Acc) (size : Nat) (va : W64) (body : State → Xlat → Out) : Out :=
  let t (c : Nat) : Trap := { trap c 0 va with wr := a == .wr }
  let res := match coreOfUnit u with
    | some c => xlatOne s c (s.asidOf u) a false va
    | none => if !vaOk va then .prot else noTime s (translateWalk s (s.asidOf u) va.toNat a)
  if va.toNat % size ≠ 0 then .next (takeFault s u (t cAlign))
  else match res with
    | .prot => .next (takeFault s u (t cProt))
    | .page true _ => .next (s.post [.reeveFirstTouchMap u])
    | .page false true => .next s
    | .page false false => .next (takeFault s u (t cPage))
    | .stage2 l ipa =>
      .next { stage2Record s u 2 l ipa va (a == .wr) none s.iss.fpc with s2waits := s.s2waits ++ [⟨vfOf s u, u, va, 0⟩] }
    | .ok x =>
      if !servedByL1 s u x && s.noDataAt x.pa size then .next (dataErrorSeq s u va x.pa (a == .wr))
      else body (fetchFill s u va) x

/-- A load of a team or grid sequencer of a translated address; no bytes where it must wait. -/
def seqLoad (s : State) (u : UnitId) (x : Xlat) (n : Nat) : State × Option (List Byte) :=
  match coreOfUnit u with
  | some core => l1LoadNow s core (s.asidOf u) (vfOf s u) x n
  | none => if s.busyAt x.pa n false then (s, none) else ((devRead s x.pa n).1, some (devRead s x.pa n).2)

/-- A store of a team or grid sequencer, and whether it is made. -/
def seqStore (s : State) (u : UnitId) (x : Xlat) (bs : List Byte) : State × Bool :=
  match coreOfUnit u with
  | some core => l1StoreNow s core (s.asidOf u) (vfOf s u) x bs
  | none => if s.busyAt x.pa bs.length true then (s, false) else (devWrite s x.pa bs, true)

def execLds (t : SType) (a b : SReg) (c : BitVec 7) (s : State) : Out :=
  let size := stypeSize t
  withUnit s (.lds t a b c)
    (fun ix =>
      memScalar s .rd size ix (scalarAddr (ix.x.rd b) c size) fun s x =>
        let (s, fl) := memIssue s ix { memFlight [] [] none with pendS := [a.num], scalar := true }
        let lx : LaneX := ⟨0, scalarAddr (ix.x.rd b) c size, x⟩
        if x.prot = .n then
          .next (sendOps s ix.x fl .grp false (mkOps ix.x fl (.loadS t a.num) none [(x, laneOpOf lx size 0 0)]))
        else .next (accessPart s ix.x.core (missAt s ix.x lx false) (waiterOf ix.x fl lx size (.loadS t a.num))))
    (fun u =>
      memSeq s u .rd size (scalarAddr (seqRead s u (.lds t a b c) b) c size) fun s x =>
        match seqLoad s u x size with
        | (s, none) => .next s
        | (s, some bs) => .next (seqWrite s u a.num (stypeExtend t (leNat bs))))

/-- The stored register of STS at a team or grid sequencer: its own current version. -/
def execSts (t : SType) (a b : SReg) (c : BitVec 7) (s : State) : Out :=
  let size := stypeSize t
  withUnit s (.sts t a b c)
    (fun ix =>
      memScalar s .wr size ix (scalarAddr (ix.x.rd b) c size) fun s x =>
        let (s, fl) := memIssue s ix { memFlight [] [] none with scalar := true }
        let lx : LaneX := ⟨0, scalarAddr (ix.x.rd b) c size, x⟩
        let v := ix.x.g.sregD a.num
        if x.prot = .n then
          .next (sendOps s ix.x fl .grp false
            (mkOps ix.x fl .storeS none [(x, laneOpOf lx size (BitVec.ofNat 128 v.toNat) 0)]))
        else .next (accessPart s ix.x.core (missAt s ix.x lx true)
          (waiterOf ix.x fl lx size (.store (leBytes size v.toNat)))))
    (fun u =>
      memSeq s u .wr size (scalarAddr (seqRead s u (.sts t a b c) b) c size) fun s x =>
        let bs := leBytes size (seqRead s u (.sts t a b c) a).toNat
        match seqStore s u x bs with
        | (s, true) => .next (seqDone s u s.nextPc)
        | (s, false) => .next s)

/-! ### Program order of overlapping bytes (R198) -/

/-- The addresses that an access of a group names, with their size. -/
def memAddrs (ix : IX) : Instr → List (Nat × Nat)
  | .ld t _ b c | .st t _ b c => ix.lanes.map fun l => ((offAddr b (mtypeSize t) c ix l).toNat, mtypeSize t)
  | .ldAcq t _ b _ | .stRel t _ b _ | .ldbR t _ b _ | .ldbS t _ b _ => ix.lanes.map fun l => ((ix.base b l).toNat, mtypeSize t)
  | .atom _ t _ b _ _ => ix.lanes.map fun l => ((ix.base b l).toNat, atypeSize t)
  | .cas _ _ _ b _ => ix.lanes.map fun l => ((ix.base b l).toNat, 4)
  | .casW64 _ _ _ b _ => ix.lanes.map fun l => ((ix.base b l).toNat, 8)
  | .lds t _ b c | .sts t _ b c => [((scalarAddr (ix.x.rd b) c (stypeSize t)).toNat, stypeSize t)]
  | _ => []

/-- The accesses of a group that wait under an address, by virtual and physical address and size: on misses, on their way to a
home, or held there. -/
def State.waitingAt (s : State) (core grp : Nat) : List (Nat × Nat × Nat) :=
  ((s.coreD core).misses.flatMap fun m => (m.waiters.filter fun w => w.grp == grp).map fun w => (w.va, w.pa, w.size)) ++
  (s.opsAway.filter fun o => o.grp == grp).flatMap fun o => o.lanes.map fun l => (l.va, l.pa, l.size)

/-- An access stays behind an earlier one of the group to bytes of the same address that still waits in the frame from which
the page moves (R198, R350). -/
def behindMove (s : State) (c : GCtx) (i : Instr) : Bool :=
  !s.moves.isEmpty && (memAddrs (IX.of s c) i).any fun p => (s.waitingAt c.core c.k).any fun w =>
    decide (p.1 < w.1 + w.2.2) && decide (w.1 < p.1 + p.2) && match translate s c.core c.asid w.1 .rd with
      | .ok x => x.pa != w.2.1
      | _ => true

/-- An access that overlaps the bytes of a lane of LDB.S that still waits stays behind it. -/
def behindLdb (s : State) (c : GCtx) (i : Instr) : Bool :=
  let ws := (s.coreD c.core).ldbWaits.filter fun w => w.grp == c.k
  !ws.isEmpty && (memAddrs (IX.of s c) i).any fun p => ws.any fun w =>
    match translate s c.core c.asid p.1 .rd with
    | .ok x => decide (x.pa < w.pa + w.size) && decide (w.pa < x.pa + p.2)
    | _ => false

/-! ### Completion and its acquire action (R65, R190) -/

/-- The completion of an instruction: its results are written and its flag falls; an acquire then acts. An event for
an instruction that is not ready to complete changes nothing. -/
def execCompletionEvent (g flight : Nat) (s : State) : Out :=
  match s.gctx g with
  | none => .fault .noSuchUnit
  | some x =>
    match x.g.flights.find? fun f => f.id == flight with
    | none => .next s
    | some f =>
      if f.wait ≠ 0 then .next s
      else
        let s := s.setGroup g (x.g.land f)
        match f.acq with
        | some sc => .next (acquireAt s x.core x.vf sc)
        | none => .next s

/-- The home on another device acknowledges a store (R451). -/
def execRemoteStoreAck (grp flight : Nat) (s : State) : Out :=
  .next (s.updGroup grp fun g => { g with acks := g.acks.erase flight })

/-! ### Retries of a move (R350, R404) -/

/-- The entry of the new frame: a held operation translates again. -/
def retryOp (s : State) (o : HomeOp) : State :=
  let lanes := o.lanes.map fun l => match translate s o.core o.attr.asid l.va (if opWrites o.act then .wr else .rd) with
    | .ok x => { l with pa := x.pa }
    | _ => l
  let g := match lanes with | l :: _ => gbase o.gsize l.pa | [] => o.grain
  s.post [.homeExecutedOperation { o with grain := g, lanes := lanes }]

def retryWaiter (s : State) (core : Nat) (m : Miss) (w : Waiter) : State :=
  match translate s core m.asid w.va (if isStore w then .wr else .rd) with
  | .ok x => addWaiter s core { m with grain := gbase x.gsz x.pa, waiters := [] } { w with pa := x.pa }
  | _ => addWaiter s core { m with waiters := [] } w

/-- What a core does on a retry of a grain: the accesses that waited translate again. -/
def execRetry (core grain : Nat) (s : State) : Out :=
  match (s.coreD core).miss? grain with
  | none => .next s
  | some m =>
    let s := s.updCore core fun c => c.dropMiss grain
    .next (foldS s m.waiters fun s w => retryWaiter s core m w)

end Sys2Proof.Machine
end

