-- ==== Sys2Proof/Machine/Bells.lean ====
section
/-! DEFINITION. Bells (R331 to R336): RING at the counter's home, the views of the cores, BELLR and BELLW. The home's
part of RING is `ringAct`. -/

namespace Sys2Proof.Machine

open Sys2Proof

/-! ### Waiting instructions (R35) -/

/-- A group waits in an instruction at its slot: the flight has one part outstanding. -/
def waitIn (s : State) (ix : IX) (pendS : List Nat) (w : Nat → Waiting) : State :=
  let (s, fl) := memIssue s ix { memFlight [] [] none with pendS := pendS, mem := false, wait := 1 }
  s.updGroup ix.x.k fun g => { g with st := .waiting (w fl), ctl := { g.ctl with pc := s.iss.fpc } }

/-- A waiting instruction completes: its results are written before the group issues again (R263, R275), and the group
goes on. -/
def waitDone (s : State) (k flight : Nat) (ws : List RegW) : State :=
  ((flightArrive s k flight ws).updGroup k fun g =>
    { g with st := .running, ctl := { g.ctl with pc := nextSlot g.ctl.pc } }).post [.completionEvent k flight]

/-! ### RING (R335) -/

/-- The operation that RING sends to the home of its bell's counter. -/
def ringOp (x : GCtx) (flight base bell : Nat) (d : W32) : HomeOp :=
  ⟨x.core, x.k, flight, gbase 32 (base + 4 * bell), 32, .ring x.asid bell d, none, [],
    ⟨false, false, 0, false, x.asid, x.vf⟩, false, none⟩

def execRing (a : SIdx) (b : SReg) (n : BitVec 6) (s : State) : Out :=
  withGroup s (.ring a b n) fun ix =>
    let (s, fl) := memIssue s ix { memFlight [] [] none with pendS := [a.toNat] }
    let base := match s.ctxs.get? ix.x.asid with | some c => c.bellBase | none => 0
    .next (pendRel s ix.x.k ⟨fl, .dev, true, [], [ringOp ix.x fl base n.toNat ((ix.x.rd b).setWidth 32)], []⟩)

/-! ### Views (R332, R333) -/

/-- Every copy on a bell's pages loses its fill round. -/
def Core.loseRounds (c : Core) (asid bell : Nat) : Core :=
  { c with l1 := c.l1.map fun p => if p.2.asid = asid && p.2.bell = bell then (p.1, { p.2 with frnd := [] }) else p }

/-- A new view of a bell. -/
def Core.setView (c : Core) (asid bell : Nat) (r : W32) : Core :=
  let old := c.view asid bell
  let c := { c with views := c.views.modify asid fun t => t.put 0 bell r }
  if r.msb != old.msb then c.loseRounds asid bell else c

def execRoundBroadcast (core asid bell : Nat) (round : W32) (grp flight : Nat) (s : State) : Out :=
  let c := s.coreD core
  let s := if (c.views.get? asid).isSome && ge32 round (c.view asid bell) && round != c.view asid bell then
      s.setCore core (c.setView asid bell round)
    else s
  .next (s.post [.viewAcknowledge core grp flight])

/-- An acknowledgement; the last one performs the RING. -/
def execViewAcknowledge (_core grp flight : Nat) (s : State) : Out :=
  let same (r : RingWait) : Bool := r.grp == grp && r.flight == flight
  let ws := s.ringWaits.map fun r => if same r then { r with left := r.left - 1 } else r
  let s := { s with ringWaits := ws.filter fun r => !(same r && r.left == 0) }
  if ws.any fun r => same r && r.left == 0 then .next (flightArrive s grp flight []) else .next s

/-! ### BELLR and BELLW (R336) -/

def execBellr (a : SIdx) (n : BitVec 6) (s : State) : Out :=
  plainOp s (.bellr a n) fun ix => [.s a.toNat (((s.coreD ix.x.core).view ix.x.asid n.toNat).setWidth 64)]

def execBellw (b : SReg) (n : BitVec 6) (s : State) : Out :=
  withGroup s (.bellw b n) fun ix =>
    let t : W32 := (ix.x.rd b).setWidth 32
    if ge32 ((s.coreD ix.x.core).view ix.x.asid n.toNat) t then .next (commit s ix (.bellw b n) (.w []) s.nextPc)
    else .next (waitIn s ix [] fun fl => .bellw n.toNat t fl)

def execBellwComplete (g : Nat) (s : State) : Out :=
  match s.gctx g with
  | none => .fault .noSuchUnit
  | some x =>
    match x.g.st with
    | .waiting (.bellw n t fl) =>
      if ge32 ((s.coreD x.core).view x.asid n) t then .next (waitDone s g fl []) else .next s
    | _ => .next s

end Sys2Proof.Machine
end

