-- ==== Sys2Proof/Machine/Scratch.lean ====
section
/-! DEFINITION. Scratchpads: offsets, swizzle and bounds (R219, R256, R273), LDP, STP and ATOMP (R257, R258), and the
remote accesses LDPR and STPR with the cores and teams that a cluster index names (R289, R291 to R294). -/

namespace Sys2Proof.Machine

open Sys2Proof

/-! ### Offsets (R219, R256, R273) -/

/-- R219: where the byte at an offset lies, relative to its allocation, under a swizzle mode. -/
def swizzle (m o : Nat) : Nat :=
  let bank := o / 8 % 64
  let bank := if m = 0 then bank else bank ^^^ (o / 2 ^ (8 + m) % 64)
  o / 512 * 512 + bank * 8 + o % 8

def isWindow (o : Nat) : Bool := o / 2 ^ 31 % 2 == 1
def winFeed (o : Nat) : Nat := bitsOf o 30 28
def winBuf (o : Nat) : Nat := bitsOf o 27 24
def winByte (o : Nat) : Nat := bitsOf o 23 0

def Ring.id (r : Ring) : RingId := ⟨r.grid, r.column, r.stage, r.feed⟩
def State.ring? (s : State) (i : RingId) : Option Ring := s.rings.find? fun r => r.id == i
def State.updRing (s : State) (i : RingId) (f : Ring → Ring) : State :=
  { s with rings := s.rings.map fun r => if r.id = i then f r else r }

/-- The outbound and inbound rings of a feed register in a team (R272). -/
def outRing (gr : Grid) (t : Team) (feed : Nat) : RingId := ⟨t.grid, columnOf gr t, t.stage, feed⟩
def inRing? (gr : Grid) (t : Team) (feed : Nat) : Option RingId :=
  if t.stage = 0 then none else some ⟨t.grid, columnOf gr t, t.stage - 1, feed⟩

def bufSt (s : State) (i : RingId) (buf : Nat) : Option FeedSt := (s.ring? i).bind fun r => r.bufs[buf]?

/-- The ring through which a window offset is open to a team: its outbound ring while the buffer fills, otherwise its
inbound ring while the buffer drains (R273). -/
def openRing (s : State) (gr : Grid) (t : Team) (o : Nat) : Option RingId :=
  let out := outRing gr t (winFeed o)
  if bufSt s out (winBuf o) = some .filling then some out
  else match inRing? gr t (winFeed o) with
    | some i => if bufSt s i (winBuf o) = some .draining then some i else none
    | none => none

/-- The ring that bytes of a window offset lie in, open or not: a buffer that has changed state still takes them. -/
def anyRing (s : State) (gr : Grid) (t : Team) (o : Nat) : Option RingId :=
  match openRing s gr t o with
  | some i => some i
  | none =>
    let out := outRing gr t (winFeed o)
    if (s.ring? out).isSome then some out else inRing? gr t (winFeed o)

/-! ### Checks (R258) -/

inductive SpErr where
  | align | bound | closed
  deriving DecidableEq, Repr

def SpErr.cause : SpErr → Nat
  | .align => cAlign
  | .bound => cScratch
  | .closed => cFeed

def barBytes (gr : Grid) : Nat := 16 * gr.kcb.nbar

/-- What an access of `size` bytes at an offset meets, in the order of R258. The offset of a feed that the kernel does not
declare is held against the size field of its control block first: the spec gives such a feed no size (DESIGN CHOICE,
assumption 93). -/
def spErr (s : State) (gr : Grid) (t : Team) (write : Bool) (o size : Nat) : Option SpErr :=
  if o % size ≠ 0 then some .align
  else if isWindow o then
    match gr.kcb.feeds[winFeed o]? with
    | none => some .closed
    | some f =>
      if f.2 ≤ winByte o + size then some .bound
      else if (openRing s gr t o).isNone then some .closed else none
  else if gr.kcb.spbytes < o + size then some .bound
  else if write && o < barBytes gr then some .bound
  else none

/-- The lanes' checks: the first cause in order that any lane meets, at the lowest lane that met it. -/
def spTrap (errs : List (Nat × W64 × Option SpErr)) (wr : Bool) : Option Trap :=
  match [SpErr.align, .bound, .closed].filterMap fun e => errs.find? fun p => p.2.2 == some e with
  | [] => none
  | p :: _ => p.2.2.map fun e => laneTrap e.cause p.1 p.2.1 wr

/-! ### Bytes -/

/-- The ring of a window offset: the one that the access has held since it started, otherwise the team's (R273). -/
def heldRing (s : State) (gr : Grid) (t : Team) (held : List (Nat × RingId)) (o : Nat) : Option RingId :=
  match held.find? fun p => p.1 == o / 2 ^ 24 with
  | some p => some p.2
  | none => anyRing s gr t o

def spRead (s : State) (gr : Grid) (tk m o n : Nat) (held : List (Nat × RingId) := []) : List Byte :=
  match s.team? tk with
  | none => []
  | some t =>
    if isWindow o then
      match (heldRing s gr t held o).bind s.ring? with
      | none => []
      | some r => (List.range n).map fun i => r.data.getD (winBuf o * r.size + swizzle m (winByte o + i)) 0
    else (List.range n).map fun i => t.sp.getD (swizzle m (o + i)) 0

/-- Puts bytes of consecutive offsets into a table through a key. -/
def putBytes (key : Nat → Nat) : Nat → List Byte → Tab Byte → Tab Byte
  | _, [], d => d
  | o, b :: bs, d => putBytes key (o + 1) bs (d.put 0 (key o) b)

def spWrite (s : State) (gr : Grid) (tk m o : Nat) (bytes : List Byte) (held : List (Nat × RingId) := []) : State :=
  match s.team? tk with
  | none => s
  | some t =>
    if isWindow o then
      match heldRing s gr t held o with
      | none => s
      | some i => s.updRing i fun r =>
          { r with data := putBytes (fun a => winBuf o * r.size + swizzle m a) (winByte o) bytes r.data }
    else s.updTeam tk fun t => { t with sp := putBytes (swizzle m) o bytes t.sp }

/-! ### Banks (R220) -/

/-- The 8-byte word of a core's scratchpad that an offset of a team lies in, after the swizzle. -/
def spWord (s : State) (tk m o : Nat) (ring : Option RingId) : Nat :=
  (if isWindow o then match ring.bind s.ring? with
    | some r => r.base + winBuf o * r.size + swizzle m (winByte o)
    | none => 0
  else match s.team? tk with
    | some t => t.spBase + swizzle m o
    | none => 0) / 8

/-- The 64 banks interleave by word. -/
def bankOf (word : Nat) : Nat := word % 64

/-- A bank has served no word in this clk. -/
def bankFree (s : State) (core bank : Nat) : Bool := decide ((s.coreD core).banks.getD bank 0 ≤ s.clk)

/-- Banks serve a word each in this clk. -/
def useBanks (s : State) (core : Nat) (bs : List Nat) : State :=
  s.updCore core fun c => { c with banks := bs.foldl (fun (t : Tab Nat) b => t.set b (s.clk + 1)) c.banks }

/-- The ring through which an offset is open to a team, fixed for the bytes of an access (R273). -/
def ringAt (s : State) (gr : Grid) (team off : Nat) : Option RingId :=
  if isWindow off then (s.team? team).bind fun t => openRing s gr t off else none

/-- The pieces of a lane's access, one for each word. -/
def piecesOf (lane team off size : Nat) (bytes : List Byte) (ring : Option RingId) : List SpPiece :=
  (List.range ((size + 7) / 8)).map fun i => ⟨lane, team, off + 8 * i, 8 * i, min 8 (size - 8 * i), (bytes.drop (8 * i)).take 8, ring⟩

/-- Where a piece lies. -/
def pieceWord (s : State) (m : Nat) (p : SpPiece) : Nat := spWord s p.team m p.off p.ring

/-- The pieces that the banks serve in one clk: in each bank that is free those of its lowest word. -/
def servedNow (s : State) (o : SpOp) : List SpPiece :=
  o.pieces.filter fun p =>
    let w := pieceWord s o.swz p
    bankFree s o.core (bankOf w) &&
    o.pieces.all fun q => bankOf (pieceWord s o.swz q) != bankOf w || decide (w ≤ pieceWord s o.swz q)

/-- The ring of a piece, by the feed and the buffer that its offset names. -/
def SpPiece.held (p : SpPiece) : List (Nat × RingId) :=
  match p.ring with
  | some i => [(p.off / 2 ^ 24, i)]
  | none => []

/-- One piece: a read gathers its bytes, a write stores them, an atomic does both. -/
def servePiece (s : State) (gr : Grid) (o : SpOp) (p : SpPiece) : State × Tab Byte :=
  let old := spRead s gr p.team o.swz p.off p.len p.held
  let got := putBytes id (p.lane * 16 + p.at_) old []
  match o.kind with
  | .load _ _ => (s, got)
  | .store => (spWrite s gr p.team o.swz p.off p.bytes p.held, [])
  | .atom op t _ => (spWrite s gr p.team o.swz p.off (leBytes 4 (atomNew op t (leNat old) (leNat p.bytes))) p.held, got)

/-- The pieces of one clk, lanes in increasing order. -/
def servePieces (s : State) (gr : Grid) (o : SpOp) : State × Tab Byte :=
  (servedNow s o).foldl (fun (r : State × Tab Byte) p =>
    let q := servePiece r.1 gr o p
    (q.1, q.2.foldl (fun (t : Tab Byte) b => t.set b.1 b.2) r.2)) (s, o.got)

/-- The registers that an access writes once its last word is served. -/
def spWrites (o : SpOp) (got : Tab Byte) : List RegW :=
  let datum (l : Nat) : Nat := leNat ((List.range o.size).map fun i => got.getD (l * 16 + i) 0)
  match o.kind with
  | .load t phys => o.lanes.flatMap fun l => physWrites l phys (mtypeExtend t (datum l))
  | .store => []
  | .atom _ _ phys => o.lanes.map fun l => .v l phys (BitVec.ofNat 32 (datum l))

/-- The banks serve an access for one clk: what is left of it, none when its last word is served and its registers have
joined the flight. -/
def bankStep (s : State) (gr : Grid) (grp : Nat) (o : SpOp) : State × Option SpOp :=
  let now := servedNow s o
  let r := servePieces s gr o
  let s := useBanks r.1 o.core (now.map fun p => bankOf (pieceWord s o.swz p)).eraseDups
  let left := o.pieces.filter fun p => !now.contains p
  if left.isEmpty then (flightArrive s grp o.flight (spWrites o r.2), none)
  else (s, some { o with pieces := left, got := r.2 })

/-! ### LDP, STP, ATOMP (R257, R258) -/

def IX.off (ix : IX) (b : VReg) (l : Nat) : Nat := (ix.x.g.vreg l b.toNat).toNat

/-- Runs a scratchpad instruction: the checks of every active lane, then its effect. -/
def spLanes (s : State) (i : Instr) (write : Bool) (size : Nat) (b : VReg) (body : IX → Out) : Out :=
  withGroup s i fun ix =>
    let errs := ix.lanes.map fun l =>
      (l, (ix.x.g.vreg l b.toNat).setWidth 64, spErr s ix.x.gr ix.x.t write (ix.off b l) size)
    match spTrap errs write with
    | some t => .next (takeFault s (.group ix.x.k) t)
    | none => body ix

/-- The access reaches the banks of the core: the words whose banks are free are served at once, the others clk by clk
(R220). -/
def toBanks (s : State) (ix : IX) (f : Flight) (m size : Nat) (kind : SpKind) (b : VReg) (data : Nat → List Byte) : State :=
  let (s, fl) := memIssue s ix f
  if ix.lanes.isEmpty then s
  else
    let o : SpOp := ⟨fl, ix.x.core, m, size, kind, ix.lanes,
      ix.lanes.flatMap fun l =>
        piecesOf l ix.x.g.team (ix.off b l) size (data l) (ringAt s ix.x.gr ix.x.g.team (ix.off b l)), []⟩
    match bankStep (awaitPart s ix.x.k fl) ix.x.gr ix.x.k o with
    | (s, none) => s
    | (s, some o) => s.updGroup ix.x.k fun g => { g with banks := g.banks ++ [o] }

def execLdp (t : MType) (a b : VReg) (w : BitVec 3) (s : State) : Out :=
  spLanes s (.ldp t a b w) false (mtypeSize t) b fun ix =>
    .next (toBanks s ix (loadFlight ix t a none) w.toNat (mtypeSize t) (.load t (ix.x.g.vwb + a.toNat)) b fun _ => [])

def execStp (t : MType) (a b : VReg) (w : BitVec 3) (s : State) : Out :=
  spLanes s (.stp t a b w) true (mtypeSize t) b fun ix =>
    .next (toBanks s ix (memFlight [] [] none) w.toNat (mtypeSize t) .store b (storeBytes ix t a))

def atompOp (s : State) (i : Instr) (o : AOp) (t : AType) (a b : VReg) (w : BitVec 3) : Out :=
  spLanes s i true 4 b fun ix =>
    .next (toBanks s ix (loadFlight ix .b32 a none) w.toNat 4 (.atom o t (ix.x.g.vwb + a.toNat)) b fun l =>
      leBytes 4 (ix.x.g.vreg l a.toNat).toNat)

def execAtompI32 (o : AOp) (a b : VReg) (w : BitVec 3) (s : State) : Out := atompOp s (.atompI32 o a b w) o .i32 a b w
def execAtompN32 (o : AOp) (a b : VReg) (w : BitVec 3) (s : State) : Out := atompOp s (.atompN32 o a b w) o .n32 a b w

/-- The banks serve the group's oldest access for one more clk. -/
def bankMore (s : State) (k : Nat) : State :=
  match s.gctx k with
  | none => s
  | some x => match x.g.banks with
    | [] => s
    | o :: os =>
      let s := s.updGroup k fun g => { g with banks := os }
      match bankStep s x.gr k o with
      | (s, none) => s
      | (s, some o) => s.updGroup k fun g => { g with banks := o :: g.banks }

/-! ### Cluster indices and target teams (R289, R291) -/

/-- The core of a partition in a cluster that a cluster index names. -/
def clusterCore (s : State) (core vf cidx : Nat) : Option Nat :=
  (s.cores.find? fun p => p.1 / 128 == core / 128 && p.2.vf == some vf &&
    (match p.2.vcore with | some v => v % 128 == cidx | none => false)).map (·.1)

/-- A cluster index names a core of the partition, or one whose teams are saved: its number is kept for the core that receives
them, and the hamlets of its peers name it again then (R231, R289). -/
def indexNamed (s : State) (core vf cidx : Nat) : Bool :=
  (clusterCore s core vf cidx).isSome ||
  s.saved.any fun p => p.2.vf == vf && p.2.core / 128 == core / 128 && p.2.vcore % 128 == cidx

/-- The cores of a hamlet map. -/
def hamletCores (s : State) (core vf : Nat) (h : W128) : List Nat :=
  ((List.range 128).filter fun i => h.getLsbD i).filterMap fun i => clusterCore s core vf i

/-- The team of a grid on a core that comes first in the walk order. -/
def firstTeamOn (s : State) (grid core : Nat) : Option Nat :=
  let ts := s.teams.filter fun p => p.2.core == core && p.2.grid == grid
  match ts with
  | [] => none
  | p :: ps => some ((ps.foldl (fun (m : Nat × Team) q => if q.2.member < m.2.member then q else m) p).1)

/-- The target team on a core: the issuing team on the issuer's own core. -/
def targetTeam (s : State) (x : GCtx) (core : Nat) : Option Nat :=
  if core = x.core then some x.g.team else firstTeamOn s x.t.grid core

/-! ### LDPR and STPR (R292 to R294) -/

/-- The target team of a lane's address. -/
def remoteTarget (s : State) (x : GCtx) (a : W64) : Option Nat :=
  if bitsOf a.toNat 63 39 ≠ 0 then none
  else (clusterCore s x.core x.vf (bitsOf a.toNat 38 32)).bind (targetTeam s x)

def remoteErr (s : State) (x : GCtx) (write : Bool) (size : Nat) (a : W64) : Option SpErr :=
  match (remoteTarget s x a).bind s.team? with
  | none => none
  | some t => spErr s x.gr t write (bitsOf a.toNat 31 0) size

/-- The parts of a remote access, one for each target core (R294). -/
def remoteParts (s : State) (ix : IX) (fl m size : Nat) (kind : SpKind) (addr : Nat → W64) (data : Nat → List Byte) : List SpOp :=
  let ts := ix.lanes.filterMap fun l => (remoteTarget s ix.x (addr l)).map fun t => (l, t)
  (ts.map fun p => coreOfTeam p.2).eraseDups.map fun c =>
    let mine := ts.filter fun p => coreOfTeam p.2 == c
    ⟨fl, c, m, size, kind, mine.map (·.1),
      mine.flatMap fun p =>
        let o := bitsOf (addr p.1).toNat 31 0
        piecesOf p.1 p.2 o size (data p.1) (ringAt s ix.x.gr p.2 o), []⟩

def remoteOp (s : State) (i : Instr) (a b : VReg) (w : BitVec 3) (size : Nat) (load : Option MType)
    (data : IX → Nat → List Byte) : Out :=
  withGroup s i fun ix =>
    let wr := load.isNone
    match ix.lanes.find? fun l => (remoteTarget s ix.x (ix.base b l)).isNone with
    | some l => .next (takeFault s (.group ix.x.k) (laneTrap cProt l (ix.base b l) wr))
    | none =>
      match spTrap (ix.lanes.map fun l => (l, ix.base b l, remoteErr s ix.x wr size (ix.base b l))) wr with
      | some t => .next (takeFault s (.group ix.x.k) t)
      | none =>
        let (s, fl) := memIssue s ix (match load with | some t => loadFlight ix t a none | none => memFlight [] [] none)
        let kind := match load with | some t => SpKind.load t (ix.x.g.vwb + a.toNat) | none => .store
        let ps := remoteParts s ix fl w.toNat size kind (ix.base b) (data ix)
        .next ((foldS s ps fun s _ => awaitPart s ix.x.k fl).updGroup ix.x.k fun g => { g with remotes := g.remotes ++ ps })

def execLdpr (t : MType) (a b : VReg) (w : BitVec 3) (s : State) : Out :=
  remoteOp s (.ldpr t a b w) a b w (mtypeSize t) (some t) fun _ _ => []

def execStpr (t : MType) (a b : VReg) (w : BitVec 3) (s : State) : Out :=
  remoteOp s (.stpr t a b w) a b w (mtypeSize t) none fun ix l => storeBytes ix t a l

/-- The remote accesses of a group that may be served now: the oldest to each target core, where a bank that it needs is
free. -/
def remotesDue (s : State) (g : Group) : List SpOp :=
  g.remotes.filter fun o => !(servedNow s o).isEmpty &&
    (match g.remotes.find? fun e => e.core == o.core with | some e => e == o | none => false)

/-- The banks of a target core serve a remote access for one clk. -/
def execRemoteScratchpadAccess (grp flight : Nat) (s : State) : Out :=
  match s.gctx grp with
  | none => .fault .noSuchUnit
  | some x =>
    match (remotesDue s x.g).find? fun o => o.flight == flight with
    | none => .next s
    | some o =>
      match bankStep s x.gr grp o with
      | (s, none) => .next (s.updGroup grp fun g => { g with remotes := g.remotes.erase o })
      | (s, some e) => .next (s.updGroup grp fun g => { g with remotes := g.remotes.map fun r => if r = o then e else r })

end Sys2Proof.Machine
end

