-- ==== Sys2Proof/Machine/Barrier.lean ====
section
/-! DEFINITION. Barrier objects and their unit (R260 to R264), and the barrier instructions (R262, R263). -/

namespace Sys2Proof.Machine

open Sys2Proof

/-! ### The object (R260) -/

structure Bar where
  gen : Nat
  poison : Bool
  carry : Nat
  pending : Nat
  expect : Nat
  outbound : W32
  inbound : W32
  deriving DecidableEq, Repr

def Bar.ofNat (x : Nat) : Bar :=
  ⟨bitsOf x 3 0, bitsOf x 4 4 == 1, bitsOf x 31 16, bitsOf x 47 32, bitsOf x 63 48,
    BitVec.ofNat 32 (bitsOf x 95 64), BitVec.ofNat 32 (bitsOf x 127 96)⟩

def Bar.toNat (b : Bar) : Nat :=
  b.gen % 16 + (if b.poison then 16 else 0) + b.carry % 2 ^ 16 * 2 ^ 16 + b.pending % 2 ^ 16 * 2 ^ 32 +
    b.expect % 2 ^ 16 * 2 ^ 48 + b.outbound.toNat * 2 ^ 64 + b.inbound.toNat * 2 ^ 96

def Team.bar (t : Team) (off : Nat) : Bar := Bar.ofNat (leNat ((List.range 16).map fun i => t.sp.getD (off + i) 0))

def Team.putBar (t : Team) (off : Nat) (b : Bar) : Team := { t with sp := putBytes id off (leBytes 16 b.toNat) t.sp }

/-- The test after each change (R261): whole phases that CARRY covers complete in turn. Where EXPECT is 0 no phase ends
the tests, and the GEN they leave is a free value. -/
def Bar.settle : Nat → Bar → Bar
  | 0, b => b
  | fuel + 1, b =>
    if b.pending = 0 && b.inbound = 0 && b.outbound = 0 && !b.poison then
      if b.expect = 0 then { b with gen := Config.barGen b.gen b.carry % 16 }
      else
        let m := min b.carry b.expect
        ({ b with gen := (b.gen + 1) % 16, pending := b.expect - m, carry := b.carry - m } : Bar).settle fuel
    else b

def Bar.test (b : Bar) : Bar := b.settle (b.carry + 2)

/-- A BARV that reaches the unit: the new object and the generation its first arrival counts in; none while CARRY has
no room for the remainder (R263). -/
def Bar.arrive (b : Bar) (n : Nat) : Option (Bar × Nat) :=
  let take := min n b.pending
  if 0xFFFF < b.carry + (n - take) then none
  else
    let first := if b.pending ≠ 0 then b.gen
      else if b.expect = 0 then Config.barvGen b.gen b.carry % 16
      else (b.gen + 1 + b.carry / b.expect) % 16
    some (({ b with pending := b.pending - take, carry := b.carry + (n - take) } : Bar).test, first)

/-! ### The unit (R261) -/

/-- The groups that wait on an object and whose wait its state ends. -/
def endedWaits (s : State) (tk off : Nat) (b : Bar) : List Instr :=
  (s.groupsOfTeam tk).filterMap fun k => match s.group? k with
    | some g => (match g.st with
      | .waiting (.bwait o gen _) => if o = off && (b.poison || b.gen != gen) then some (.bwaitComplete k) else none
      | _ => none)
    | none => none

def putBarrier (s : State) (tk off : Nat) (b : Bar) : State :=
  (s.updTeam tk fun t => t.putBar off b).post (endedWaits s tk off b)

/-- A change to an object, then the test of R261. -/
def barChange (s : State) (tk off : Nat) (f : Bar → Bar) : State :=
  match s.team? tk with
  | none => s
  | some t => putBarrier s tk off (f (t.bar off)).test

/-- A copy that failed poisons its object; the first record since the last BINIT stands (R269, R270). -/
def barPoison (s : State) (tk off : Nat) (addr : W64) (code : Nat) : State :=
  let s := s.updTeam tk fun t =>
    if t.barRec.has (off / 16) then t else { t with barRec := t.barRec.set (off / 16) (addr, code) }
  barChange s tk off fun b => { b with poison := true }

/-! ### The instructions (R262, R263) -/

/-- An offset that is misaligned, or past the slots of the team. -/
def barTrap (gr : Grid) (off : Nat) : Option Trap :=
  if off % 16 ≠ 0 then some (trap cAlign 0 (BitVec.ofNat 64 off))
  else if barBytes gr ≤ off then some (trap cScratch 0 (BitVec.ofNat 64 off))
  else none

def barOp (s : State) (i : Instr) (b : SReg) (illegal : IX → Bool) (body : IX → Nat → Out) : Out :=
  withGroup s i fun ix =>
    let off := (ix.x.rd b).toNat % 2 ^ 32
    if illegal ix then .next (takeFault s (.group ix.x.k) (trap cIllegal))
    else match barTrap ix.x.gr off with
      | some t => .next (takeFault s (.group ix.x.k) t)
      | none => body ix off

def execBinit (b c : SReg) (s : State) : Out :=
  barOp s (.binit b c) b (fun ix => (ix.x.rd c).toNat % 2 ^ 16 == 0) fun ix off =>
    let n := (ix.x.rd c).toNat % 2 ^ 16
    let s := commit s ix (.binit b c) (.w []) s.nextPc
    let s := s.updTeam ix.x.g.team fun t => { t with barRec := t.barRec.erase (off / 16) }
    .next (putBarrier s ix.x.g.team off ⟨(ix.x.t.bar off).gen, false, 0, n, n, 0, 0⟩)

def execBarv (a : SIdx) (b : SReg) (n : BitVec 7) (s : State) : Out :=
  barOp s (.barv a b n) b (fun _ => n == 0) fun ix off =>
    let (s, fl) := memIssue s ix { memFlight [] [] none with pendS := [a.toNat] }
    .next (pendRel s ix.x.k ⟨fl, .team, true, [], [], [.barv off n.toNat a.toNat]⟩)

def execBexp (b c : SReg) (s : State) : Out :=
  barOp s (.bexp b c) b (fun _ => false) fun ix off =>
    let s' := commit s ix (.bexp b c) (.w []) s.nextPc
    .next (barChange s' ix.x.g.team off fun o => { o with inbound := o.inbound + (ix.x.rd c).setWidth 32 })

def Team.barFault (t : Team) (off : Nat) : Trap :=
  let r := t.barRec.getD (off / 16) (0, 0)
  trap cCopy r.2 r.1

def execBwait (b c : SReg) (s : State) : Out :=
  barOp s (.bwait b c) b (fun _ => false) fun ix off =>
    let o := ix.x.t.bar off
    let gen := (ix.x.rd c).toNat % 16
    if o.poison then .next (takeFault s (.group ix.x.k) (ix.x.t.barFault off))
    else if o.gen ≠ gen then .next (commit s ix (.bwait b c) (.w []) s.nextPc)
    else .next (waitIn s ix [] fun fl => .bwait off gen fl)

def execBtest (a : SIdx) (b c : SReg) (s : State) : Out :=
  barOp s (.btest a b c) b (fun _ => false) fun ix off =>
    let o := ix.x.t.bar off
    let gen := (ix.x.rd c).toNat % 16
    .next (commit s ix (.btest a b c)
      (.w [.s a.toNat ((if o.gen ≠ gen then 1 else 0) + (if o.poison then 2 else 0))]) s.nextPc)

/-- A waiting instruction is withdrawn: no effect, and its flag falls (R35). -/
def Group.withdraw (g : Group) (flight : Nat) : Group :=
  match g.flights.find? fun f => f.id == flight with
  | some f => g.land { f with writes := [] }
  | none => g

/-- A BWAIT completes, or takes the copy fault at its slot where the object is poisoned. -/
def execBwaitComplete (g : Nat) (s : State) : Out :=
  match s.gctx g with
  | none => .fault .noSuchUnit
  | some x =>
    match x.g.st with
    | .waiting (.bwait off gen fl) =>
      let o := x.t.bar off
      if o.poison then
        let pc := x.g.ctl.pc
        let s := s.updGroup g fun g => g.withdraw fl
        let s := { s with iss := ⟨.group g, pc, pc, none, 0, false, 0⟩ }
        .next (takeFault s (.group g) (x.t.barFault off))
      else if o.gen ≠ gen then .next (waitDone s g fl [])
      else .next s
    | _ => .next s

end Sys2Proof.Machine
end

