-- ==== Sys2Proof/Machine/Feeds.lean ====
section
/-! DEFINITION. Feeds (R272 to R277): rings between the teams of neighbouring stages, and the feed instructions. -/

namespace Sys2Proof.Machine

open Sys2Proof

/-! ### Rings -/

/-- R273: the window offset of a buffer's first byte. -/
def windowOffset (feed buf : Nat) : W64 := BitVec.ofNat 64 (2 ^ 31 + feed % 8 * 2 ^ 28 + buf % 16 * 2 ^ 24)

def Ring.setBuf (r : Ring) (buf : Nat) (x : FeedSt) : Ring := { r with bufs := r.bufs.set buf x }
def Ring.nextGet (r : Ring) : Ring := { r.setBuf r.get .filling with get := (r.get + 1) % r.bufs.length }
def Ring.nextPop (r : Ring) : Ring := { r.setBuf r.pop .draining with pop := (r.pop + 1) % r.bufs.length }

/-- The team of a stage at a ring's coordinate that has not retired. -/
def stageTeam (s : State) (i : RingId) (stage : Nat) : Option Nat :=
  (s.teams.find? fun p => p.2.grid == i.grid && p.2.stage == stage &&
    (match s.grid? i.grid with | some gr => columnOf gr p.2 == i.column | none => false)).map (·.1)

def feedTrap : Trap := trap cFeed

/-- The ring that an instruction uses in a group's team: outbound for the producer's, inbound for the consumer's. -/
def ringFor (s : State) (x : GCtx) (feed : Nat) (out : Bool) : Option Ring :=
  if out then s.ring? (outRing x.gr x.t feed) else (inRing? x.gr x.t feed).bind s.ring?

def feedOp (s : State) (i : Instr) (f : FReg) (out : Bool) (body : IX → Ring → Out) : Out :=
  withGroup s i fun ix =>
    match ringFor s ix.x f.toNat out with
    | none => .next (takeFault s (.group ix.x.k) feedTrap)
    | some r => body ix r

/-! ### Taking a buffer (R274 to R276) -/

/-- The consumer team of a ring has retired. -/
def consumerGone (s : State) (r : Ring) : Bool := (stageTeam s r.id (r.stage + 1)).isNone

/-- A FEEDPOP at the end of the stream: the producer has retired and no buffer is filling or full. -/
def streamEnded (s : State) (r : Ring) : Bool :=
  (stageTeam s r.id r.stage).isNone && r.bufs.all fun b => b != .filling && b != .full

/-- What a FEEDGET takes now: the state and sA. -/
def takeGet (s : State) (r : Ring) : Option (State × W64) :=
  if r.bufs[r.get]? = some .free then some (s.updRing r.id Ring.nextGet, windowOffset r.feed r.get) else none

def takePop (s : State) (r : Ring) : Option (State × W64) :=
  if r.bufs[r.pop]? = some .full then some (s.updRing r.id Ring.nextPop, windowOffset r.feed r.pop)
  else if streamEnded s r then some (s, BitVec.allOnes 64)
  else none

/-- A FEEDGET or FEEDPOP: its buffer now, with sA written before the group issues again (R275), or a wait. -/
def takeOrWait (s : State) (ix : IX) (i : Instr) (a : SIdx) (got : Option (State × W64)) (w : Nat → Waiting) : Out :=
  match got with
  | some (s', x) => .next ((commit s' ix i (.w [.s a.toNat x]) s.nextPc).post [.completionEvent ix.x.k ix.x.g.nextFlight])
  | none => .next (waitIn s ix [a.toNat] w)

/-- A request joins the queue of a ring's unit (R274). -/
def Ring.enqueue (r : Ring) (get : Bool) (k : Nat) : Ring :=
  if get then { r with getQ := r.getQ ++ [k] } else { r with popQ := r.popQ ++ [k] }

/-- A group's request has been served, or is withdrawn. -/
def Ring.unqueue (k : Nat) (r : Ring) : Ring :=
  { r with getQ := r.getQ.filter (· != k), popQ := r.popQ.filter (· != k) }

def leaveQueues (s : State) (k : Nat) : State := { s with rings := s.rings.map (Ring.unqueue k) }

/-- The ring's unit serves requests in arrival order: one that finds others waiting waits behind them (R274). -/
def waitBehind (q : List Nat) (r : Ring) (get : Bool) (k : Nat) (s : State) (got : Option (State × W64)) :
    State × Option (State × W64) :=
  match q, got with
  | [], some p => (s, some p)
  | _, _ => (s.updRing r.id fun r => r.enqueue get k, none)

def execFeedget (a : SIdx) (f : FReg) (s : State) : Out :=
  feedOp s (.feedget a f) f true fun ix r =>
    if consumerGone s r then .next (takeFault s (.group ix.x.k) feedTrap)
    else
      let p := waitBehind r.getQ r true ix.x.k s (takeGet s r)
      takeOrWait p.1 ix (.feedget a f) a p.2 fun fl => .feedget f.toNat a.toNat fl

def execFeedpop (a : SIdx) (f : FReg) (s : State) : Out :=
  feedOp s (.feedpop a f) f false fun ix r =>
    let p := waitBehind r.popQ r false ix.x.k s (takePop s r)
    takeOrWait p.1 ix (.feedpop a f) a p.2 fun fl => .feedpop f.toNat a.toNat fl

/-- Whether a waiting group's request stands at the head of its queue. -/
def firstIn (q : List Nat) (k : Nat) : Bool := q.head? == some k

/-- A waiting FEEDGET or FEEDPOP, first in its queue, whose buffer is ready; a FEEDGET whose consumer has retired takes
its fault. -/
def execFeedBufferReady (g : Nat) (s : State) : Out :=
  match s.gctx g with
  | none => .fault .noSuchUnit
  | some x =>
    match x.g.st with
    | .waiting (.feedget feed dest fl) =>
      (match ringFor s x feed true with
       | none => .next s
       | some r =>
         if consumerGone s r then
           let pc := x.g.ctl.pc
           let s := (leaveQueues s g).updGroup g fun g => g.withdraw fl
           .next (takeFault { s with iss := ⟨.group g, pc, pc, none, 0, false, 0⟩ } (.group g) feedTrap)
         else if !firstIn r.getQ g then .next s
         else match takeGet s r with
           | some (s, v) => .next (waitDone (leaveQueues s g) g fl [.s dest v])
           | none => .next s)
    | .waiting (.feedpop feed dest fl) =>
      (match ringFor s x feed false with
       | none => .next s
       | some r =>
         if !firstIn r.popQ g then .next s
         else match takePop s r with
           | some (s, v) => .next (waitDone (leaveQueues s g) g fl [.s dest v])
           | none => .next s)
    | _ => .next s

/-- The groups that wait for a buffer of a ring, in arrival order. -/
def feedWaits (s : State) (i : RingId) : List Instr :=
  match s.ring? i with
  | some r => (r.getQ ++ r.popQ).map fun k => .feedBufferReady k
  | none => []

/-! ### Giving a buffer (R274, R275) -/

/-- The state in which a buffer can be given: filling by its producer, draining by its consumer. -/
def givenFrom (put : Bool) : FeedSt := if put then .filling else .draining

/-- A FEEDPUT or FEEDREL of a group of the team names the buffer, and its release is not yet performed. The ring's unit serves
it before one that comes after it (R274). -/
def beingGiven (s : State) (x : GCtx) (put : Bool) (feed buf : Nat) : Bool :=
  (s.groupsOfTeam x.g.team).any fun k => match s.group? k with
    | some g => g.rels.any fun p => p.acts.contains (.feed put feed buf)
    | none => false

/-- The fault of a FEEDPUT or FEEDREL: another feed's offset, an index past the count, or the wrong state, as it will be once
what came before is served. An offset that names no window is treated as another feed's (DESIGN CHOICE, assumption 93). -/
def giveBad (s : State) (x : GCtx) (r : Ring) (put : Bool) (o : Nat) : Bool :=
  !isWindow o || winFeed o != r.feed || r.bufs[winBuf o]? != some (givenFrom put) || beingGiven s x put r.feed (winBuf o)

/-- The buffer's change of state, once the release is performed; groups that wait for it are looked at. -/
def giveBuffer (s : State) (x : GCtx) (put : Bool) (feed buf : Nat) : State :=
  match ringFor s x feed put with
  | none => s
  | some r =>
    if r.bufs[buf]? = some (givenFrom put) then
      (s.updRing r.id fun r => r.setBuf buf (if put then .full else .free)).post (feedWaits s r.id)
    else s

def giveOp (s : State) (i : Instr) (f : FReg) (c : SReg) (put : Bool) : Out :=
  feedOp s i f put fun ix r =>
    let o := (ix.x.rd c).toNat % 2 ^ 32
    if giveBad s ix.x r put o then .next (takeFault s (.group ix.x.k) feedTrap)
    else
      let (s, fl) := memIssue s ix (memFlight [] [] none)
      .next (pendRel s ix.x.k ⟨fl, .team, true, [], [], [.feed put r.feed (winBuf o)]⟩)

def execFeedput (f : FReg) (c : SReg) (s : State) : Out := giveOp s (.feedput f c) f c true
def execFeedrel (f : FReg) (c : SReg) (s : State) : Out := giveOp s (.feedrel f c) f c false

end Sys2Proof.Machine
end

