-- ==== Sys2Proof/Machine/Copies.lean ====
section
/-! DEFINITION. The copy engine (R265 to R271): layout records, TCOPY and the multicast copies TCOPY.M (R304 to R307),
the moving of elements, first-touch pages mapped by a reeve (R186, R269), and the performing of releases with what they
do last. -/

namespace Sys2Proof.Machine

open Sys2Proof

/-! ### The layout record (R266) -/

structure Layout where
  base : Nat
  ctrl : Nat
  fill : List Byte
  ext : List Nat
  stride : List Nat
  tile : List Nat
  spitch : Nat
  deriving DecidableEq, Repr

def Layout.ndim (l : Layout) : Nat := bitsOf l.ctrl 2 0
def Layout.esize (l : Layout) : Nat := bitsOf l.ctrl 5 3
def Layout.es (l : Layout) : Nat := 2 ^ l.esize
def Layout.out (l : Layout) : Bool := bitsOf l.ctrl 6 6 == 1
def Layout.swz (l : Layout) : Nat := bitsOf l.ctrl 9 7
def Layout.oob (l : Layout) : Nat := bitsOf l.ctrl 11 10

/-- The record's fields; dimensions at or above NDIM count as extent 1 and tile 1. -/
def Layout.of (bs : List Byte) : Layout :=
  let n := bitsOf (fieldAt bs 0x08 4) 2 0
  let dims (f : Nat → Nat) : List Nat := (List.range 5).map fun d => if d < n then f d else 1
  { base := fieldAt bs 0 8
    ctrl := fieldAt bs 0x08 4
    fill := (bs.drop 0x0C).take 4
    ext := dims fun d => fieldAt bs (0x10 + 4 * d) 4
    stride := (List.range 5).map fun d => if 0 < d && d < n then fieldAt bs (0x20 + 4 * d) 4 else 0
    tile := dims fun d => fieldAt bs (0x34 + 2 * d) 2
    spitch := fieldAt bs 0x3E 2 }

def Layout.tileAt (l : Layout) (d : Nat) : Nat := l.tile.getD d 1
def Layout.elems (l : Layout) : Nat := l.tile.foldl (· * ·) 1
def Layout.pitch (l : Layout) : Nat := if l.spitch ≠ 0 then l.spitch * 16 else l.tileAt 0 * l.es

/-- The tile index of an element in each dimension. -/
def Layout.index (l : Layout) (pos d : Nat) : Nat :=
  pos / ((List.range d).map l.tileAt).foldl (· * ·) 1 % l.tileAt d

/-- The coordinate of an element: exact, possibly negative. -/
def Layout.coord (l : Layout) (c : List W32) (pos d : Nat) : Int :=
  (if d < l.ndim then (c.getD d 0).toInt else 0) + (l.index pos d : Int)

def Layout.inBounds (l : Layout) (c : List W32) (pos : Nat) : Bool :=
  (List.range l.ndim).all fun d => decide (0 ≤ l.coord c pos d) && decide (l.coord c pos d < (l.ext.getD d 1 : Int))

def Layout.maddr (l : Layout) (c : List W32) (pos : Nat) : Nat :=
  (l.base + (l.coord c pos 0).toNat * l.es +
    ((List.range 5).map fun d => if 0 < d && d < l.ndim then (l.coord c pos d).toNat * l.stride.getD d 0 * 16 else 0).foldl
      (· + ·) 0) % 2 ^ 64

/-- The row of an element within the tile. -/
def Layout.row (l : Layout) (pos : Nat) : Nat := pos / l.tileAt 0

def Layout.sp (l : Layout) (soff pos : Nat) : Nat := soff + l.index pos 0 * l.es + l.row pos * l.pitch

/-- The scratchpad bytes past the last of the tile. -/
def Layout.extent (l : Layout) : Nat := l.tileAt 0 * l.es + (l.elems / l.tileAt 0 - 1) * l.pitch

/-- FILL repeated to the element size. -/
def Layout.fillBytes (l : Layout) : List Byte := (List.range l.es).map fun i => l.fill.getD (i % 4) 0

/-! ### Record defects (R269, R270) -/

def firstSome {α : Type} : List (Option α) → Option α
  | [] => none
  | some x :: _ => some x
  | none :: xs => firstSome xs

/-- The first defect of a record: the address and the code that are recorded. An extent through a feed window must be open
to every team that the copy writes; that of an undeclared feed is held against its size field first (DESIGN CHOICE,
assumption 93). -/
def defect (gr : Grid) (ts : List Target) (c : Copy) (l : Layout) : Option (W64 × Nat) :=
  let a (n : Nat) : W64 := BitVec.ofNat 64 n
  let multi := match c.kind with | .plain => false | _ => true
  let size := if isWindow c.soff then (gr.kcb.feeds[winFeed c.soff]?).map (·.2) else some gr.kcb.spbytes
  let at0 := if isWindow c.soff then winByte c.soff else c.soff
  firstSome [
    (if l.ctrl / 2 ^ 12 ≠ 0 || l.ndim = 0 || 5 < l.ndim || 4 < l.esize || l.oob = 3 || l.tile.contains 0 ||
        (multi && l.out) then some (a c.recAddr, 0x01) else none),
    (if 2 ^ 55 ≤ l.base then some (a l.base, 0x0C) else none),
    (if l.base % l.es ≠ 0 then some (a l.base, 0x0D) else none),
    (if c.soff % l.es ≠ 0 then some (a c.soff, 0x0D) else none),
    (match size with
     | some n => if n < at0 + l.extent then some (a (c.soff - at0 + max at0 n), 0x0E) else none
     | none => none),
    (if !l.out && !isWindow c.soff && c.soff < barBytes gr then some (a c.soff, 0x0E) else none),
    (if isWindow c.soff && ts.any (fun t => t.ring.isNone) then some (a c.soff, 0x10) else none)]

/-! ### Queues (R265) -/

def State.copies (s : State) (q : Nat) : List Copy := ((s.coreD (q / 16)).copyq.get? (q % 16)).getD []

def State.setCopies (s : State) (q : Nat) (cs : List Copy) : State :=
  s.updCore (q / 16) fun c => { c with copyq := if cs.isEmpty then c.copyq.erase (q % 16) else c.copyq.set (q % 16) cs }

/-- Changes the copy at a position of a queue. -/
def State.updCopy (s : State) (q n : Nat) (f : Copy → Copy) : State :=
  s.setCopies q ((s.copies q).mapIdx fun i c => if i = n then f c else c)

/-- A copy leaves its queue. -/
def dropCopy (s : State) (q n : Nat) : State := s.setCopies q ((s.copies q).eraseIdx n)

def copyGrid (s : State) (c : Copy) : Option (Grid × Team) :=
  match s.team? c.team with
  | none => none
  | some t => (s.grid? t.grid).map fun g => (g, t)

/-! ### The teams that a copy writes (R305, R307) -/

/-- A team as a target, with the ring through which a window offset is open to it. -/
def targetOf (s : State) (gr : Grid) (soff tk : Nat) : Option Target :=
  (s.team? tk).map fun t => ⟨tk, t.grid, t.member, if isWindow soff then openRing s gr t soff else none⟩

/-- The issuing team, or the target team of each core of the hamlet that has one (R291). -/
def targetsOf (s : State) (q : Nat) (gr : Grid) (c : Copy) : List Target :=
  let ks := match c.kind, s.team? c.team with
    | .all h, some t => (hamletCores s (q / 16) gr.vf h).filterMap fun k => if k = q / 16 then some c.team else firstTeamOn s t.grid k
    | _, _ => [c.team]
  ks.filterMap (targetOf s gr c.soff)

/-- The targets as they were fixed when the engine took the copy, or as they are. -/
def Copy.served (s : State) (q : Nat) (gr : Grid) (c : Copy) : List Target :=
  match c.targets with
  | some ts => ts
  | none => targetsOf s q gr c

/-- The team that a target names is still there: bytes of one that has retired are discarded (R305). -/
def targetLives (s : State) (t : Target) : Bool :=
  match s.team? t.team with
  | some x => x.grid == t.grid && x.member == t.member
  | none => false

/-- Step 6 of R267 is done: the TCOPY's part for it ends. A TCOPY.M completes when its copy is in the queue (R304). -/
def readPart (s : State) (c : Copy) : State :=
  match c.kind with
  | .plain => if c.readDone then s else flightArrive s c.grp c.flight []
  | _ => s

/-- A copy aborts: POISON with its record in every object it serves, and its queue moves on (R269, R307). -/
def abortCopy (s : State) (q n : Nat) (c : Copy) (addr : W64) (code : Nat) : State :=
  let ts := match copyGrid s c with | some (gr, _) => (c.served s q gr).filter (targetLives s) | none => []
  let s := foldS s ts fun s t => barPoison s t.team c.bar addr code
  readPart (dropCopy s q n) c

/-- The location fields of a copy's record (R406), with the queue of its partition. -/
def copyRec (s : State) (q : Nat) (c : Copy) (r : FRec) : Option (Grid × FRec) :=
  (copyGrid s c).map fun p =>
    (p.1, { r with vf := p.1.vf, asid := p.1.asid, core := q / 16, team := p.2.slot, grid := p.1.num })

/-- A copy's record, to its partition's queue (R405). -/
def copyRecord (s : State) (q : Nat) (c : Copy) (cause : Nat) (va : W64) (wr : Bool) : State :=
  match copyRec s q c { FRec.of cause 1 with wr := wr, va := va } with
  | none => s
  | some (gr, r) => recordTo s (queueOfGrid s gr) r

/-- A copy whose home returns no data: it aborts as for a protection fault, and a data-error record goes to the physical
function and to its partition's queue (R405, R408, R452). -/
def copyNoData (s : State) (q n : Nat) (c : Copy) (va : W64) (pa : Nat) (wr : Bool) : State :=
  let s := match copyRec s q c { FRec.of 0x40 1 with wr := wr, va := va, xaddr := pa } with
    | none => s
    | some (gr, r) => recordTo (recordTo s (s.adminOf 0) r) (queueOfGrid s gr) r
  abortCopy s q n c va 0x0C

/-- A second-stage fault of a copy: reported to the physical function, and the copy stalls (R398). -/
def copyStage2 (s : State) (q n : Nat) (c : Copy) (level ipa : Nat) (va : W64) (wr : Bool) : State :=
  match copyRec s q c { FRec.of 0x42 1 with level := level, xaddr := ipa, wr := wr, va := va } with
  | none => s
  | some (gr, r) =>
    let s := recordTo s (s.adminOf 0) r
    let s := { s with s2waits := s.s2waits ++ [(⟨gr.vf, .copyq q, va, 0⟩ : S2Wait)] }
    s.updCopy q n fun c => { c with st := .escalated va }

/-- The translation of a copy's address, with the time page barred (R454). -/
def copyXlat (s : State) (q asid va : Nat) (a : Acc) : XRes :=
  if 2 ^ 55 ≤ va then .prot
  else match translateCopy s (q / 16) asid va a with
    | .ok x => if timeBarred s x false then .prot else .ok x
    | r => r

/-- What a copy does where an address does not translate. -/
def copyFault (s : State) (q n : Nat) (c : Copy) (va : Nat) (wr : Bool) : XRes → State
  | .page true _ => (s.updCopy q n fun c => { c with st := .stalled (BitVec.ofNat 64 va) }).post [.reeveFirstTouchMap (.copyq q)]
  | .page false true => s.updCopy q n fun c => { c with st := .escalated (BitVec.ofNat 64 va) }
  | .page false false => abortCopy s q n c (BitVec.ofNat 64 va) 0x0B
  | .stage2 l ipa => copyStage2 s q n c l ipa (BitVec.ofNat 64 va) wr
  | _ => abortCopy s q n c (BitVec.ofNat 64 va) 0x0C

/-! ### Reading the record (R267, step 6) -/

/-- A sound record takes effect: OUTBOUND rises for DIR 1, and the instruction completes. -/
def acceptRecord (s : State) (q n : Nat) (c : Copy) (ts : List Target) (bs : List Byte) (l : Layout) : State :=
  let s := s.updCopy q n fun c => { c with record := bs, readDone := true, st := .run, targets := some ts }
  let s := if l.out then barChange s c.team c.bar fun b => { b with outbound := b.outbound + BitVec.ofNat 32 (l.elems * l.es) } else s
  readPart s c

def readRecord (s : State) (q n : Nat) : State :=
  match (s.copies q)[n]? with
  | none => s
  | some c =>
    match copyGrid s c with
    | none => s
    | some (gr, _) =>
      match copyXlat s q gr.asid c.recAddr .rd with
      | .ok x =>
        if s.noDataAt x.pa 64 then copyNoData s q n c (BitVec.ofNat 64 c.recAddr) x.pa false
        else
          let (s, bs) := devRead (fillTlb s (q / 16) gr.asid c.recAddr true) x.pa 64
          let ts := targetsOf s q gr c
          match defect gr ts c (Layout.of bs) with
          | some (a, code) => abortCopy s q n c a code
          | none => acceptRecord s q n c ts bs (Layout.of bs)
      | r => copyFault s q n c c.recAddr false r

/-- The home of a copy's record, whose requests in service come first (R318). -/
def recordBusy (s : State) (q : Nat) (c : Copy) : Bool :=
  match copyGrid s c with
  | none => false
  | some (gr, _) => match copyXlat s q gr.asid c.recAddr .rd with
    | .ok x => s.busyAt x.pa 64 false
    | _ => false

/-- The release of a copy is performed: the copy has joined its queue, in issue order, and its record is read. -/
def joinQueue (s : State) (x : GCtx) (flight : Nat) : State :=
  let q := x.core * 16 + x.t.slot
  match (s.copies q).findIdx? fun c => c.grp == x.k && c.flight == flight with
  | none => s
  | some n =>
    let s := s.updCopy q n fun c => { c with st := .run }
    match (s.copies q)[n]? with
    | some c => if recordBusy s q c then s else readRecord s q n
    | none => s

/-! ### What a copy does next (R267, R314) -/

/-- The next work of a copy: an element outside the tensor, a grain of memory by the address of its first element not yet
moved, or nothing more. -/
inductive CopyWork where
  | outside (pos : Nat) | grain (va : Nat) | done
  deriving DecidableEq, Repr

/-- The elements of a tile in memory, by position, that a copy has still to move. -/
def Layout.toMove (l : Layout) (c : Copy) : List Nat :=
  (List.range l.elems).filter fun p => l.inBounds c.coords p && decide (c.next ≤ l.maddr c.coords p)

/-- DIR 0 takes the grains in increasing address order (R314), and before each the elements outside the tensor that come
before every element not yet moved (R269); DIR 1, whose order is open, takes the elements in tile order. -/
def Layout.work (l : Layout) (c : Copy) : CopyWork :=
  if l.out then
    if l.elems ≤ c.pos then .done else if l.inBounds c.coords c.pos then .grain (l.maddr c.coords c.pos) else .outside c.pos
  else
    let left := l.toMove c
    match (List.range (left.headD l.elems)).find? fun p => decide (c.pos ≤ p) && !l.inBounds c.coords p with
    | some p => .outside p
    | none => match left.map (l.maddr c.coords) with
      | [] => .done
      | a :: as => .grain (as.foldl min a)

/-! ### Elements that land (R267, R305) -/

/-- The rings that a copy has held for a target since it started (R273). -/
def Target.held (t : Target) (soff : Nat) : List (Nat × RingId) :=
  match t.ring with
  | some r => [(soff / 2 ^ 24, r)]
  | none => []

/-- A copy's words take their turn at the banks of a target's core: a bank serves one word per clk (R220). -/
def landWords (s : State) (t : Target) (c : Copy) (l : Layout) (ps : List Nat) : State :=
  let ws := (ps.flatMap fun p => (List.range ((l.es + 7) / 8)).map fun i => spWord s t.team l.swz (l.sp c.soff p + 8 * i) t.ring).eraseDups
  s.updCore (coreOfTeam t.team) fun k =>
    { k with banks := ws.foldl (fun (b : Tab Nat) w => b.set (bankOf w) (max (b.getD (bankOf w) 0) s.clk + 1)) k.banks }

/-- One element reaches a target: its bytes, none for one outside the tensor, and their count. -/
def landElement (s : State) (gr : Grid) (t : Target) (c : Copy) (l : Layout) (pos : Nat) (bytes : Option (List Byte)) : State :=
  if !targetLives s t then s
  else
    let so := l.sp c.soff pos
    let put (bs : List Byte) : State := spWrite s gr t.team l.swz so bs (t.held c.soff)
    let s := match bytes with
      | some bs => put bs
      | none => if l.oob = 0 then put (List.replicate l.es 0) else if l.oob = 1 then put l.fillBytes else s
    barChange s t.team c.bar fun b => { b with inbound := b.inbound - BitVec.ofNat 32 l.es }

/-- The address at which a copy stops in a grain: its end, or the first of the tile's elements that meets no data (R408,
R452). `va` and `pa` are the grain's addresses. -/
def grainStop (s : State) (c : Copy) (l : Layout) (va pa gsz : Nat) : Nat :=
  (((l.toMove c).map (l.maddr c.coords)).filter fun a =>
    decide (a < va + gsz) && s.noData (pa + (a - va)) l.es).foldl min (va + gsz)

/-- The elements of a grain of memory below an address reach a target: `va` is the grain's address, `bytes` its bytes. -/
def landGrain (s : State) (gr : Grid) (t : Target) (c : Copy) (l : Layout) (va stop : Nat) (bytes : List Byte) : State :=
  if !targetLives s t then s
  else
    let ps := (l.toMove c).filter fun p => decide (l.maddr c.coords p < stop)
    foldS (landWords s t c l ps) ps fun s p => landElement s gr t c l p (some ((bytes.drop (l.maddr c.coords p - va)).take l.es))

/-- The head copy has moved the grain at an address: it goes on after it, or leaves its queue. -/
def afterGrain (s : State) (q : Nat) (c : Copy) (l : Layout) (next : Nat) : State :=
  match l.work { c with next := next } with
  | .done => dropCopy s q 0
  | _ => s.updCopy q 0 fun c => { c with next := next, st := .run, line := none }

/-- The head copy has dealt with the element at a position. -/
def afterElement (s : State) (q : Nat) (c : Copy) (l : Layout) (pos : Nat) : State :=
  match l.work { c with pos := pos + 1 } with
  | .done => dropCopy s q 0
  | _ => s.updCopy q 0 fun c => { c with pos := pos + 1 }

/-- An element outside the tensor: DIR 0 fills its place at every target, DIR 1 only counts it. -/
def moveOutside (s : State) (q : Nat) (gr : Grid) (c : Copy) (l : Layout) (pos : Nat) : State :=
  if l.out then
    afterElement (barChange s c.team c.bar fun b => { b with outbound := b.outbound - BitVec.ofNat 32 l.es }) q c l pos
  else
    afterElement (foldS s (c.served s q gr) fun s t =>
      landElement (if l.oob = 2 then s else landWords s t c l [pos]) gr t c l pos none) q c l pos

/-! ### Grains of memory (R305, R306, R314) -/

def mergeKey (c : Copy) (line gsz : Nat) (h : W128) : MergeKey := ⟨c.recAddr, c.coords, h, line, gsz⟩

/-- A grain of memory for a copy of DIR 0: `va` and `pa` are the grain's addresses. How many grains of a copy may be on request
at once the spec leaves open: the next is requested once this one has landed (DESIGN CHOICE, assumption 93). -/
def moveIn (s : State) (q : Nat) (gr : Grid) (c : Copy) (l : Layout) (va pa gsz : Nat) : State :=
  match c.kind, c.alone with
  | .all h, _ =>
    let (s, bs) := devRead s pa gsz
    let dests := ((c.served s q gr).map fun t => coreOfTeam t.team).eraseDups
    if dests.isEmpty then afterGrain s q c l (va + gsz)
    else (s.updCopy q 0 fun c => { c with st := .line, line := some (va, gsz, dests.length) }).post
      [.multicastPacket (entryRouter s (q / 16 / 128) pa) ⟨.source, dests⟩ (.copy (mergeKey c pa gsz h)) bs [q]]
  | .join h, false =>
    (s.updCopy q 0 fun c => { c with st := .line, line := some (va, gsz, 1) }).post
      [.joinRequest (q / 16) (q % 16) (mergeKey c pa gsz h)]
  | _, _ =>
    let (s, bs) := devRead s pa gsz
    let stop := grainStop s c l va pa gsz
    afterGrain (foldS s (c.served s q gr) fun s t => landGrain s gr t c l va stop bs) q c l stop

/-- One element of a copy of DIR 1: written at its home, and counted. The core's own copy of the grain goes first, so that
no later access of its teams returns older bytes (R344, R346); a window grain is written as the windows have it (R327). -/
def moveOut (s : State) (q : Nat) (gr : Grid) (c : Copy) (l : Layout) (x : Xlat) : State :=
  let held := match c.served s q gr with | t :: _ => t.held c.soff | [] => []
  let bytes := spRead s gr c.team l.swz (l.sp c.soff c.pos) l.es held
  let s := if x.prot = .w then (s.homeWrite x.pa bytes).clearPoison x.pa bytes.length
    else devWrite (purgeGrain s (q / 16) (gbase x.gsz x.pa)) x.pa bytes
  let s := barChange s c.team c.bar fun b => { b with outbound := b.outbound - BitVec.ofNat 32 l.es }
  afterElement s q c l c.pos

/-- The grain that a copy touches next must wait: requests of it are in service at its home, or, for a write, LOCK or HOSTOWN
is set (R318, R322, R330). -/
def copyBlocked (s : State) (q : Nat) : Bool :=
  match s.copies q with
  | [] => false
  | c :: _ =>
    match copyGrid s c, (Layout.of c.record).work c with
    | some (gr, _), .grain va =>
      let l := Layout.of c.record
      (match copyXlat s q gr.asid va (if l.out then .wr else .rd) with
       | .ok x => x.prot != .w && s.busyAt (gbase x.gsz x.pa) x.gsz l.out
       | _ => false)
    | _, _ => false

/-- The head copy moves on: an element outside the tensor, a grain, or for DIR 1 an element. -/
def execCopyElementMoved (q : Nat) (s : State) : Out :=
  match s.copies q with
  | [] => .next s
  | c :: _ =>
    match copyGrid s c with
    | none => .fault .noSuchUnit
    | some (gr, _) =>
      if !c.readDone || c.st ≠ .run || copyBlocked s q then .next s
      else
        let l := Layout.of c.record
        match l.work c with
        | .done => .next (dropCopy s q 0)
        | .outside pos => .next (moveOutside s q gr c l pos)
        | .grain va =>
          match copyXlat s q gr.asid va (if l.out then .wr else .rd) with
          | .ok x =>
            if s.noDataAt x.pa l.es then .next (copyNoData s q 0 c (BitVec.ofNat 64 va) x.pa l.out)
            else
              let s := fillTlb s (q / 16) gr.asid va true
              .next (if l.out then moveOut s q gr c l x
                else moveIn s q gr c l (va - x.pa % x.gsz) (gbase x.gsz x.pa) x.gsz)
          | r => .next (copyFault s q 0 c va l.out r)

/-! ### Multicast packets (R290, R315) -/

/-- A packet for a set of cores at a router: one copy for its own core where that is named, before and apart from those that
go on; a router whose core is not named passes it on (R315). `from_` names the copies that await it. -/
def execMulticastPacket (core : Nat) (leg : Leg) (what : PacketFor) (bytes : List Byte) (from_ : List Nat) (s : State) : Out :=
  let mine := match from_ with | [f] => [f] | fs => fs.filter fun f => f / 16 == core
  let own : List Instr := if leg.dests.contains core then (match what with
    | .copy key => mine.map fun f => .multicastReply core key bytes f
    | .dlv grain n attr round grp flight => [.deliveryArrival core grain n attr bytes round grp flight]) else []
  .next (s.postNow (own ++ (routed core leg).map fun r => .multicastPacket r.1 r.2 what bytes from_))

/-- A grain reaches a core: its engine writes the target team's part of the copy that awaits it (R305, R306). -/
def execMulticastReply (core : Nat) (key : MergeKey) (bytes : List Byte) (from_ : Nat) (s : State) : Out :=
  match s.copies from_ with
  | [] => .next s
  | c :: _ =>
    match copyGrid s c, c.line with
    | some (gr, _), some (va, gsz, left) =>
      if c.st ≠ .line || c.recAddr ≠ key.recAddr || c.coords ≠ key.coords then .next s
      else
        let l := Layout.of c.record
        let ts := (c.served s from_ gr).filter fun t => coreOfTeam t.team == core
        let stop := grainStop s c l va key.line gsz
        let s := foldS s ts fun s t => landGrain s gr t c l va stop bytes
        .next (if left ≤ 1 then afterGrain s from_ c l stop
          else s.updCopy from_ 0 fun c => { c with line := some (va, gsz, left - 1) })
    | _, _ => .next s

/-! ### Join entries (R306) -/

def joinSlots : Nat := 64

/-- The home reads a grain once, and its reply goes to the cores of some members. -/
def joinReply (s : State) (key : MergeKey) (members : List Nat) : State :=
  match members with
  | [] => s
  | q :: _ =>
    let (s, bs) := devRead s key.line key.gsz
    s.post [.multicastPacket (entryRouter s (q / 16 / 128) key.line) ⟨.source, members.map (· / 16)⟩ (.copy key) bs members]

/-- A request served alone: the bytes at its own read. -/
def replyAlone (s : State) (core queue : Nat) (key : MergeKey) : State := joinReply s key [core * 16 + queue]

/-- The home replies to the members that have joined. -/
def serveJoin (s : State) (e : JoinEnt) : State := joinReply s e.key e.joined

def sameEnt (a b : JoinEnt) : Bool := a.slice == b.slice && a.idx == b.idx
def State.setJoin (s : State) (e : JoinEnt) : State := { s with joins := s.joins.map fun x => if sameEnt x e then e else x }
def State.dropJoin (s : State) (e : JoinEnt) : State := { s with joins := s.joins.filter fun x => !sameEnt x e }

def JoinEnt.has (e : JoinEnt) (core : Nat) : Bool := e.joined.any fun q => q / 16 == core
def JoinEnt.full (e : JoinEnt) : Bool := e.expected.all e.has

/-- The lowest free entry of a slice. -/
def freeJoin (s : State) (slice : Nat) : Option Nat :=
  (List.range joinSlots).find? fun i => !(s.joins.any fun e => e.slice == slice && e.idx == i)

def execJoinRequest (core queue : Nat) (key : MergeKey) (s : State) : Out :=
  let slice := servingSlice s.fw.slicesOut key.line
  let vf := match (s.coreD core).vf with | some v => v | none => 0
  let expected := hamletCores s core vf key.ham
  match s.joins.find? fun e => e.slice == slice && e.key == key with
  | some e =>
    if !e.expected.contains core || e.has core || e.served.contains core then .next (replyAlone s core queue key)
    else if e.timedOut then
      let e := { e with served := e.served ++ [core] }
      let s := replyAlone s core queue key
      .next (if e.expected.all e.served.contains then s.dropJoin e else s.setJoin e)
    else
      let e := { e with joined := e.joined ++ [core * 16 + queue] }
      .next (if e.full then (serveJoin s e).dropJoin e else s.setJoin e)
  | none =>
    match freeJoin s slice with
    | none => .next (replyAlone s core queue key)
    | some i =>
      if !expected.contains core then .next (replyAlone s core queue key)
      else
        let e : JoinEnt := ⟨slice, i, key, expected, [core * 16 + queue], [], s.clk, false⟩
        .next (if e.full then serveJoin s e else { s with joins := s.joins ++ [e] })

def joinTimeoutClks : Nat := 512
def joinExpiryClks : Nat := 4096

def execJoinEntryTimeout (slice idx : Nat) (s : State) : Out :=
  match s.joins.find? fun e => e.slice == slice && e.idx == idx && !e.timedOut with
  | none => .next s
  | some e => .next ((serveJoin s e).setJoin { e with timedOut := true, served := e.joined.map (· / 16) })

def execJoinEntryExpiry (slice idx : Nat) (s : State) : Out :=
  .next { s with joins := s.joins.filter fun e => !(e.slice == slice && e.idx == idx && e.timedOut) }

/-! ### TCOPY and TCOPY.M (R267, R304) -/

/-- Checks 3 and 4 of R267 for a record address and a barrier offset. -/
def tcopyTrap (gr : Grid) (rec : W64) (bar : Nat) : Option Trap :=
  if rec.toNat % 64 ≠ 0 then some (trap cAlign 0 rec)
  else if !vaOk rec then some (trap cProt 0 rec)
  else barTrap gr bar

def tcopyOp (s : State) (i : Instr) (a b : VReg) (kind : IX → CopyKind) : Out :=
  withGroup s i fun ix =>
    match ix.lanes with
    | [] => .next (commit s ix i (.w []) s.nextPc)
    | l :: _ =>
      let v (n : Nat) : W32 := ix.x.g.vreg l (a.toNat + n)
      match tcopyTrap ix.x.gr (ix.base b l) (v 6).toNat with
      | some t => .next (takeFault s (.group ix.x.k) t)
      | none =>
        let (s, fl) := memIssue s ix (memFlight [] [] none)
        let c : Copy :=
          { team := ix.x.g.team, grp := ix.x.k, kind := kind ix, recAddr := (ix.base b l).toNat, record := [],
            coords := (List.range 5).map v, soff := (v 5).toNat, bar := (v 6).toNat, pos := 0, next := 0, st := .release,
            readDone := false, flight := fl, line := none, targets := none, alone := false }
        let q := ix.x.core * 16 + ix.x.t.slot
        let s := s.setCopies q (s.copies q ++ [c])
        let s := match c.kind with | .plain => awaitPart s ix.x.k fl | _ => s
        .next (pendRel s ix.x.k ⟨fl, .clu, true, [], [], [.copy]⟩)

def IX.ham (ix : IX) (h : HReg) : W128 := ix.x.t.ham.getD h.toNat 0

def execTcopy (a b : VReg) (s : State) : Out := tcopyOp s (.tcopy a b) a b fun _ => .plain
def execTcopyMAll (a b : VReg) (h : HReg) (s : State) : Out := tcopyOp s (.tcopyMAll a b h) a b fun ix => .all (ix.ham h)
def execTcopyMJoin (a b : VReg) (h : HReg) (s : State) : Out := tcopyOp s (.tcopyMJoin a b h) a b fun ix => .join (ix.ham h)

/-! ### Releases are performed (R190, R263, R267, R275) -/

/-- Whether what a release does last can be done: a BARV finds room in CARRY. -/
def actReady (x : GCtx) : RelAct → Bool
  | .barv off n _ => ((x.t.bar off).arrive n).isSome
  | _ => true

/-- What a release does last. A CFLUSH or CINV at .SYS takes the grain's bytes on to the L3 (R191, R193, R368). -/
def performAct (s : State) (x : GCtx) (flight : Nat) (sc : MScope) : RelAct → State
  | .maint g gsz inv =>
    let s := if inv then purgeGrain s x.core g else flushGrain s x.core g
    if sc = .sys then foldS s (sectorsOf g gsz) State.l2Out else s
  | .feed put feed buf => giveBuffer s x put feed buf
  | .copy => joinQueue s x flight
  | .barv off n dest =>
    match (s.team? x.g.team).bind fun t => (t.bar off).arrive n with
    | none => s
    | some (b, gen) => giveNow (putBarrier s x.g.team off b) x.k flight [.s dest (BitVec.ofNat 64 gen)]

/-- The oldest pending release of a group whose turn has come: what the group did before it is performed, no miss of a grain
that its operations touch is pending at the core (R195, R326), and no path to another device is being drained (R449). -/
def relFirst (s : State) (k : Nat) : Option (GCtx × PendRel) :=
  match s.gctx k with
  | none => none
  | some x => match x.g.rels with
    | p :: _ =>
      if relReady x.g p && p.ops.all (fun o => !grainBusy (s.coreD x.core) o.grain) &&
        !(p.scope.wide && s.fab.links.any fun l => l.2.draining) then some (x, p) else none
    | [] => none

/-- A release at .GRP or .TEAM sends its records before it is performed (R328). -/
def recordsTurn (s : State) (k : Nat) : Bool :=
  match relFirst s k with
  | some (x, p) => recordsDue x.g x.core p
  | none => false

def sendRecords (s : State) (k : Nat) : State :=
  match relFirst s k with
  | some (x, p) => (s.updGroup k fun g => { g with recs := some false }).post (recordsOf x.core p)
  | none => s

/-- The oldest pending release of a group that may be performed. -/
def relDue (s : State) (k : Nat) : Option (GCtx × PendRel) :=
  match relFirst s k with
  | some (x, p) =>
    if !recordsDue x.g x.core p && recordsAnswered s x p && p.acts.all (actReady x) then some (x, p) else none
  | none => none

/-- Performs the oldest pending release of a group: the writes it carries, its own stores and operations, and what it
does last; then its part of the flight is done. -/
def performRel (s : State) (k : Nat) : State :=
  match relDue s k with
  | none => s
  | some (x, p) =>
    let s := s.updGroup k fun g => { g with rels := g.rels.drop 1, recs := none }
    let s := performMem s x p
    let s := foldS s p.acts fun s a => performAct s x p.flight p.scope a
    flightArrive s k p.flight []

/-- A BARV that the unit held: CARRY has room (R263). -/
def execBarvCarryRoom (g : Nat) (s : State) : Out :=
  match relDue s g with
  | none => .next s
  | some (_, p) => if p.acts.any fun a => match a with | .barv _ _ _ => true | _ => false then .next (performRel s g) else .next s

/-! ### First touch by a reeve (R186, R269) -/

/-- The address at which a stalled team or grid sequencer touches memory. -/
def touchAddr (s : State) (u : UnitId) : Option W64 :=
  match s.ctl? u with
  | none => none
  | some c => match instrAt s u c.pc with
    | some (.lds t a b o) => some (scalarAddr (seqRead s u (.lds t a b o) b) o (stypeSize t))
    | some (.sts t a b o) => some (scalarAddr (seqRead s u (.sts t a b o) b) o (stypeSize t))
    | some (.launchT b) => some (seqRead s u (.launchT b) b)
    | some (.launchD b) => some (seqRead s u (.launchD b) b)
    | _ => none

def isStalled (c : Copy) : Option W64 := match c.st with | .stalled va => some va | _ => none

/-- The page of a stalled copy: mapped, or escalated with a record where the pool is empty. -/
def mapForCopy (s : State) (q n : Nat) (c : Copy) (va : W64) : State :=
  let asid := match copyGrid s c with | some (g, _) => g.asid | none => 0
  let (s, st) := mapPage s asid va.toNat
  if st = 2 then
    let wr := c.readDone && (Layout.of c.record).out
    copyRecord (s.updCopy q n fun c => { c with st := .escalated va }) q c 0x0B va wr
  else s.updCopy q n fun c => { c with st := .run }

/-- A reeve maps the page. Where the pool is empty the spec gives escalation for groups and copies alone; a team or grid
sequencer then takes the page fault, which goes to the debug agent (DESIGN CHOICE, assumption 80). -/
def execReeveFirstTouchMap (u : UnitId) (s : State) : Out :=
  match u with
  | .copyq q =>
    (match ((s.copies q).zipIdx.find? fun p => (isStalled p.1).isSome) with
     | some (c, n) => (match isStalled c with | some va => .next (mapForCopy s q n c va) | none => .next s)
     | none => .next s)
  | u =>
    match touchAddr s u with
    | none => .next s
    | some va =>
      let (s, st) := mapPage s (s.asidOf u) va.toNat
      let pc := match s.ctl? u with | some c => c.pc | none => 0
      if st = 2 || st = 3 then .next (takeFault { s with iss := ⟨u, pc, pc, none, 0, false, 0⟩ } u (trap cPage 0 va)) else .next s

/-- A reeve resumes an escalated copy (R269). -/
def execCopyResume (q : Nat) (s : State) : Out :=
  .next (s.setCopies q ((s.copies q).map fun c => match c.st with | .escalated _ => { c with st := .run } | _ => c))

end Sys2Proof.Machine
end

