-- ==== Sys2Proof/Machine/Invalidate.lean ====
section
/-! DEFINITION. Invalidations of translations (R349, R402): what they drop, the accesses that they wait for, and TLBI. -/

namespace Sys2Proof.Machine

open Sys2Proof

/-! ### Accesses that have translated and are not performed -/

/-- The lanes of an operation that is not performed. -/
def opAccs (sel : Nat → Nat → Bool) (o : HomeOp) : List (Nat × Nat × Nat) :=
  if remoteStore o then [] else (o.lanes.filter fun l => sel o.attr.asid l.va).map fun l => (o.grp, o.flight, l.lane)

/-- Accesses that wait in a core: on misses, and on deliveries. One that the home holds under LOCK is not among them: it is
made to translate again (R350). -/
def coreAccs (s : State) (sel : Nat → Nat → Bool) (c : Core) : List (Nat × Nat × Nat) :=
  (c.misses.flatMap fun m =>
    if m.own && s.lockedAt m.grain then []
    else (m.waiters.filter fun w => sel m.asid w.va).map fun w => (w.grp, w.flight, w.lane)) ++
  ((c.ldbWaits.filter fun w => w.miss.waiters.any fun x => sel w.miss.asid x.va).map fun w => (w.grp, w.flight, w.lane))

/-- What a release of a group is still to store. -/
def relAccs (s : State) (sel : Nat → Nat → Bool) (k : Nat) (p : PendRel) : List (Nat × Nat × Nat) :=
  (p.stores.filter fun r => !s.lockedAt r.miss.grain && sel r.miss.asid r.va).map (fun r => (k, p.flight, r.lane)) ++
  (p.ops.filter fun o => !s.lockedAt o.grain).flatMap (opAccs sel)

/-- The accesses, by group, flight and lane, whose context and address pass a test. A write of a grain under LOCK is not
among them: the move of its page gives it the new frame (R350, R404). -/
def pendingAccs (s : State) (sel : Nat → Nat → Bool) : List (Nat × Nat × Nat) :=
  s.cores.flatMap (fun p => coreAccs s sel p.2) ++
  ((s.opsAway.filter fun o => !s.lockedAt o.grain).flatMap (opAccs sel)) ++
  s.groups.flatMap fun g => g.2.rels.flatMap (relAccs s sel g.1)

/-- Whether an invalidation drops a 512 MiB leaf. -/
def dropsHalf (s : State) (i : InvalOf) : Bool :=
  s.cores.any fun p => (p.2.tlb ++ p.2.wtlb).any fun t => (t.big || t.half) && t.named s i

/-- Whether an invalidation names the page of an address of a context. -/
def InvalOf.covers (s : State) (i : InvalOf) (asid va : Nat) : Bool :=
  (i.asids s).contains asid && match i with
    | .page _ v => va / 65536 == v / 65536 || (dropsHalf s i && va / 2 ^ 29 == v / 2 ^ 29)
    | _ => true

/-! ### Copies -/

/-- The queues of copies. -/
def State.queuesOf (s : State) : List Nat := s.cores.flatMap fun p => p.2.copyq.map fun q => p.1 * 16 + q.1

def copyAsid (s : State) (c : Copy) : Option Nat := (copyGrid s c).map (·.1.asid)

/-- The queues with a copy that awaits a grain of a page. -/
def linesIn (s : State) (sel : Nat → Nat → Bool) : List Nat :=
  s.queuesOf.filter fun q => (s.copies q).any fun c => match c.st, c.line, copyAsid s c with
    | .line, some (va, _, _), some a => sel a va
    | _, _, _ => false

/-- A stalled copy translates again: it goes on, aborts, or stays where its page is still to be mapped or moved. -/
def retryCopy (s : State) (q n : Nat) (c : Copy) (va : W64) : State :=
  match copyGrid s c with
  | none => s
  | some (gr, _) =>
    let wr := c.readDone && (Layout.of c.record).out
    match copyXlat s q gr.asid va.toNat (if wr then .wr else .rd) with
    | .ok _ => s.updCopy q n fun c => { c with st := .run }
    | .page true _ | .page false true | .stage2 _ _ => s
    | r => copyFault s q n c va.toNat wr r

/-- The address at which a copy is stalled, where an invalidation names its context and, for a page, its 512 MiB. -/
def namedStall (s : State) (i : InvalOf) (c : Copy) : Option W64 :=
  match c.st with
  | .stalled a | .escalated a =>
    if (match copyAsid s c with | some x => (i.asids s).contains x | none => false) &&
        (match i with | .page _ v => a.toNat / 2 ^ 29 == v / 2 ^ 29 | _ => true) then some a else none
  | _ => none

/-- The stalled copies translate again, the last of a queue first, so that one that aborts moves no other. -/
def retryCopies (s : State) (i : InvalOf) : State :=
  foldS s s.queuesOf fun s q => foldS s (s.copies q).zipIdx.reverse fun s p => match namedStall s i p.1 with
    | some a => retryCopy s q p.2 p.1 a
    | none => s

/-! ### An invalidation -/

/-- The entries go at once; what translated through them is awaited. -/
def startInval (s : State) (i : InvalOf) (done : InvalDone) : State :=
  let inv : Inval := ⟨i, pendingAccs s (i.covers s), linesIn s (i.covers s), done⟩
  let s := dropTlb s i
  { s with invals := s.invals ++ [inv] }

/-- Every access that an invalidation awaits is performed. -/
def invalReady (s : State) (v : Inval) : Bool :=
  let now := pendingAccs s fun _ _ => true
  (v.accs.all fun a => !now.contains a) && v.copies.all fun q => !(linesIn s fun _ _ => true).contains q

/-- The written S grains of a context are performed at .DEV (R324). -/
def flushAsid (s : State) (asid : Nat) : State :=
  foldS s s.cores.keys fun s c =>
    foldS s (grainsOf s c fun g b => b.asid == asid && b.prot == .s && isState b g .vd) fun s g => flushGrain s c g

/-- The invalidation completes: stores made through what it dropped are at .DEV, and stalled copies translate again. -/
def settleInval (s : State) (v : Inval) : State :=
  let s := { s with invals := s.invals.erase v }
  retryCopies (foldS s (v.of.asids s) flushAsid) v.of

/-! ### TLBI (R402) -/

/-- TLBI completes with its invalidation, and the group's later accesses wait for it. -/
def tlbiOp (s : State) (ix : IX) (i : InvalOf) : State :=
  let (s, fl) := memIssue s ix (memFlight [] [] none)
  startInval ((awaitPart s ix.x.k fl).updGroup ix.x.k fun g => { g with hold := some fl }) i (.flight ix.x.k fl)

def execTlbiPage (b : SReg) (s : State) : Out :=
  withGroup s (.tlbiPage b) fun ix => .next (tlbiOp s ix (.page ix.x.asid (ix.x.rd b).toNat))

def execTlbiCtx (s : State) : Out :=
  withGroup s .tlbiCtx fun ix => .next (tlbiOp s ix (.ctx ix.x.asid))

end Sys2Proof.Machine
end

