-- ==== Sys2Proof/Machine/Delivery.lean ====
section
/-! DEFINITION. Hamlets (R295, R296) and DLV (R298, R299, R326). The home's part of a delivery is `deliver`, a core's
part is the event of its arrival. -/

namespace Sys2Proof.Machine

open Sys2Proof

/-- Bits that name no core of the partition in the cluster are cleared (R295). -/
def maskHamlet (s : State) (core vf : Nat) (h : W128) : W128 :=
  ((List.range 128).filter fun i => h.getLsbD i && indexNamed s core vf i).foldl
    (fun m i => m ||| ((1 : W128) <<< i)) 0

def setHam (s : State) (t n : Nat) (h : W128) : State := s.updTeam t fun t => { t with ham := t.ham.put 0 n h }

def execHamset (a : HReg) (b c : SReg) (s : State) : Out :=
  withGroup s (.hamset a b c) fun ix =>
    let h : W128 := ix.x.rd c ++ ix.x.rd b
    .next (setHam (commit s ix (.hamset a b c) (.w []) s.nextPc) ix.x.g.team a.toNat
      (maskHamlet s ix.x.core ix.x.vf h))

def execHamand (a b c : HReg) (s : State) : Out :=
  withGroup s (.hamand a b c) fun ix =>
    let h (n : HReg) : W128 := ix.x.t.ham.getD n.toNat 0
    .next (setHam (commit s ix (.hamand a b c) (.w []) s.nextPc) ix.x.g.team a.toNat (h b &&& h c))

/-- The operations of a delivery: one per grain, with the deliverer's view of the page's bell (R334). -/
def dlvOps (s : State) (ix : IX) (fl : Nat) (t : MType) (a : VReg) (cores : List Nat) (xs : List LaneX) : List HomeOp :=
  (mkOps ix.x fl (.dlv cores 0) none (xs.map fun x =>
    (x.x, laneOpOf x (mtypeSize t) (BitVec.ofNat 128 (ix.x.g.laneData x.lane a.toNat t.regs)) 0))).map fun o =>
      { o with act := .dlv cores ((s.coreD ix.x.core).view ix.x.asid o.attr.bell) }

/-- The issuer's own clean copy takes a lane's bytes at once, so that its later loads return them (R195, R299). -/
def patchOwn (s : State) (core : Nat) (pa : Nat) (bytes : List Byte) : State :=
  if ((s.coreD core).grainSt pa).isSome then s.updCore core fun c => c.updBlock pa fun b => b.put (pa % 512) bytes else s

def execDlv (t : MType) (a b : VReg) (h : HReg) (s : State) : Out :=
  memLanes s (.dlv t a b h) .wr (mtypeSize t) false (fun ix => ix.base b) fun ix s xs =>
    let cores := hamletCores s ix.x.core ix.x.vf (ix.x.t.ham.getD h.toNat 0)
    let plain (x : LaneX) : Bool := x.x.prot == .w || (cores.isEmpty && x.x.prot != .n)
    let (s, fl) := memIssue s ix (memFlight [] [] none)
    let s := foldS s (xs.filter plain) fun s x =>
      accessPart s ix.x.core (missAt s ix.x x true)
        (waiterOf ix.x fl x (mtypeSize t) (.store (storeBytes ix t a x.lane)))
    let rest := xs.filter fun x => !plain x
    let s := sendOps s ix.x fl .grp false (dlvOps s ix fl t a cores rest)
    .next (foldS s rest fun s x => patchOwn s ix.x.core x.x.pa (storeBytes ix t a x.lane))

end Sys2Proof.Machine
end

