-- ==== Sys2Proof/Machine/Matrix.lean ====
section
/-! DEFINITION. BX blocks (R52 to R55), the A48 sums (R56 to R59), and the matrix instructions (R232 to R253): their
checks at issue, and the engine that gives each its whole effect in arrival order. -/

namespace Sys2Proof.Machine

open Sys2Proof

/-! ### BX blocks (R52 to R55) -/

/-- A block as read: its exponent and its 32 mantissas. -/
structure Bx where
  e : Nat
  m : List Int
  deriving DecidableEq, Repr

def blkBytes (w : Nat) : Nat := 1 + 4 * w

def Bx.ofBytes (w : Nat) (bs : List Byte) : Bx :=
  let x := leNat (bs.drop 1)
  ⟨fieldAt bs 0 1, (List.range 32).map fun i => signed w (x / 2 ^ (i * w) % 2 ^ w)⟩

def Bx.bytes (w : Nat) (b : Bx) : List Byte :=
  leBytes 1 b.e ++ leBytes (4 * w) (packElems w (b.m.map (wrapN w)))

def Bx.poison : Bx := ⟨0xFF, List.replicate 32 0⟩

/-- The exact value of element `i` of a block (R52, R54). -/
def Bx.val (w : Nat) (b : Bx) (i : Nat) : FVal :=
  if b.e = 0xFF then .nan false
  else
    let m := b.m.getD i 0
    .fin (decide (m < 0)) m.natAbs ((b.e : Int) - 127 - ((w : Int) - 1))

/-- floor(log2) of the greatest magnitude of finite values; none where all are zero. -/
def maxLog (vs : List FVal) : Option Int :=
  let logs := vs.filterMap fun v => match v with
    | .fin _ m e => if m = 0 then none else some ((bitLen m : Int) - 1 + e)
    | _ => none
  match logs with
  | [] => none
  | x :: xs => some (xs.foldl max x)

/-- bx_quantise (R55): the block and the flags raised. -/
def bxQuantise (vs : List FVal) (w : Nat) (mode : Rnd) : Bx × Nat :=
  if vs.any fun v => match v with | .fin _ _ _ => false | _ => true then (.poison, fINV)
  else match maxLog vs with
    | none => (⟨0, List.replicate 32 0⟩, 0)
    | some l =>
      let e := (min (max (l + 128) 0) 254).toNat
      let qs := vs.map fun v => match v with
        | .fin neg m x =>
          let r := roundInt mode 0 neg m (x + ((w : Int) - 1) + 127 - (e : Int))
          let c := satI w r.1
          (c, r.2 || c != r.1)
        | _ => (0, false)
      (⟨e, qs.map (·.1)⟩, if qs.any (·.2) then fNX else 0)

/-! ### Sums (R57, R58, R59) -/

/-- One block of mm_accumulate. -/
def mmBlock (wA wB : Nat) (a b : Bx) (acc : Nat) : Nat :=
  if a.e = 0xFF || b.e = 0xFF then Fmt.a48.nanCode
  else
    let v := Fmt.a48.read acc
    match v with
    | .fin _ _ _ =>
      let p := ((a.m.zip b.m).map fun x => x.1 * x.2).foldl (· + ·) 0
      let sc : Int := (a.e : Int) + (b.e : Int) - 254 - ((wA : Int) - 1) - ((wB : Int) - 1)
      let t := (fsum false v (.fin (decide (p < 0)) p.natAbs sc)).1
      (match t with
       | .fin _ 0 _ => 0
       | t => (roundFmt .a48 .rne 0 t).1)
    | _ => acc

/-- narrow_acc (R59): the encoding and the flags raised. -/
def narrowAcc (acc ts : Nat) (fmt : Nat) (mode : Rnd) (u : Nat) (sat : Bool) : Nat × Nat :=
  let x := Fmt.a48.read acc
  let t := Fmt.fp32.read ts
  let f := match fmt with | 0 => Fmt.fp32 | 1 => .fp16 | 2 => .bf16 | 3 => .e4m3 | _ => .e5m2
  let sn := if t.isSnan then fINV else 0
  let p := fprod x t
  if x.isNan || t.isNan then (f.nanCode, sn)
  else if p.1.isNan then (f.nanCode, fINV)
  else if 3 ≤ fmt then cvt8 f mode u sat p.1
  else roundFmt f mode u p.1

/-! ### The engine's queue (R237) -/

def nbit (x : W64) (hi lo : Nat) : Nat := bitsOf x.toNat hi lo

/-- The rings of the windows that an instruction names, fixed as it issues (R273). -/
def EngineAct.rings (s : State) (x : GCtx) (act : EngineAct) : List (Nat × RingId) :=
  let offs : List Nat := match act with
    | .mmldb _ soff _ _ => [soff]
    | .mmloop _ d0 _ _ _ => [nbit d0 31 0]
    | .qtile _ d0 d1 _ => [nbit d0 31 0, nbit d1 63 32, nbit d1 31 0]
    | .rqt _ d s => [nbit s 31 0, nbit d 31 0]
    | _ => []
  (offs.filter isWindow).filterMap fun o => (openRing s x.gr x.t o).map fun i => (o / 2 ^ 24, i)

/-- An instruction joins the engine's queue behind those that came before it, and in one clk behind those of lower-numbered
quadrants (R237). -/
def joinEngine (op : EngineOp) (q : List EngineOp) : List EngineOp :=
  let later (o : EngineOp) : Bool := decide (op.grp / 16 < o.grp / 16) && o.clk == op.clk
  let back := (q.reverse.takeWhile later).reverse
  q.take (q.length - back.length) ++ op :: back

/-- A matrix instruction reaches the engine with its operands as read. -/
def toEngine (s : State) (ix : IX) (f : Flight) (act : EngineAct) (gens : List (Nat × W32)) : State :=
  let ix := { ix with x := { ix.x with g := { ix.x.g with gen := gens.foldl (fun (t : Tab W32) p => t.set p.1 p.2) ix.x.g.gen } } }
  let (s, fl) := memIssue s ix { f with mem := false, wait := 1 }
  let op : EngineOp := ⟨ix.x.g.team, ix.x.k, fl, s.clk, act, act.rings s ix.x⟩
  s.updCore ix.x.core fun c => { c with engine := joinEngine op c.engine }

def engineFlight (raises : Bool) : Flight := { memFlight [] [] none with raises := raises }

/-- A scratchpad extent of the team: beyond its bound or its buffer, over the barrier region, or closed. The offset of an
undeclared feed is held against its size field first (DESIGN CHOICE, assumption 93). The spec gives the fault no address:
SR.FADDR is 0 (DESIGN CHOICE, assumption 48). -/
def extentTrap (s : State) (x : GCtx) (write : Bool) (o len : Nat) : Option Trap :=
  if isWindow o then
    match x.gr.kcb.feeds[winFeed o]? with
    | none => some (trap cFeed)
    | some f => if f.2 ≤ winByte o + len then some (trap cScratch)
      else if (openRing s x.gr x.t o).isNone then some (trap cFeed) else none
  else if x.gr.kcb.spbytes < o + len then some (trap cScratch)
  else if write && o < barBytes x.gr then some (trap cScratch)
  else none

def illIf (b : Bool) : Option Trap := if b then some (trap cIllegal) else none
def boundIf (b : Bool) : Option Trap := if b then some (trap cScratch) else none

def matrixOp (s : State) (i : Instr) (checks : IX → List (Option Trap)) (body : IX → State) : Out :=
  withGroup s i fun ix =>
    match firstTrap (checks ix) with
    | some t => .next (takeFault s (.group ix.x.k) t)
    | none => .next (body ix)

def widthOk (w : Nat) : Bool := decide (2 ≤ w) && decide (w ≤ 8)

/-! ### MMLDB (R240) -/

structure LdbDesc where
  cstride : Nat
  nc : Nat
  kb : Nat
  wb : Nat
  deriving DecidableEq, Repr

def LdbDesc.of (d : W64) : LdbDesc := ⟨nbit d 31 16, nbit d 14 8 + 1, nbit d 7 4 + 1, nbit d 3 0⟩

def execMmldb (a b : SReg) (m n : BitVec 3) (s : State) : Out :=
  matrixOp s (.mmldb a b m n)
    (fun ix =>
      let d := LdbDesc.of (ix.x.rd b)
      [illIf (nbit (ix.x.rd b) 63 32 != 0 || nbit (ix.x.rd b) 15 15 != 0 || !widthOk d.wb),
        extentTrap s ix.x false (nbit (ix.x.rd a) 31 0) ((d.nc - 1) * d.cstride + d.kb * blkBytes d.wb)])
    (fun ix => toEngine s ix (engineFlight false) (.mmldb n.toNat (nbit (ix.x.rd a) 31 0) (ix.x.rd b) m.toNat) [])

/-! ### MMLOOP (R241 to R245) -/

structure LoopDesc where
  accRow : Nat
  accBase : Nat
  rstride : Nat
  aoff : Nat
  nsn : Nat
  kb : Nat
  nk : Nat
  nt : Nat
  nm : Nat
  tstride : Nat
  deriving DecidableEq, Repr

def LoopDesc.of (d0 d1 : W64) : LoopDesc :=
  ⟨nbit d0 61 56, nbit d0 55 52, nbit d0 51 32, nbit d0 31 0, nbit d1 43 41 + 1, nbit d1 40 37 + 1, nbit d1 36 34 + 1,
    nbit d1 33 30 + 1, nbit d1 29 24 + 1, nbit d1 23 0⟩

/-- KS and NS of a gang (R234). -/
def gangKs (g : Nat) : Nat := 2 ^ g
def gangNs (g : Nat) : Nat := 8 / 2 ^ g
def fmtWa (f : W32) : Nat := bitsOf f.toNat 3 0
def fmtGang (f : W32) : Nat := bitsOf f.toNat 5 4

/-- The checks of R242 and R245 on agreed values. -/
def mmloopChecks (s : State) (x : GCtx) (f : W32) (d0 d1 : W64) : List (Option Trap) :=
  let d := LoopDesc.of d0 d1
  [illIf (!widthOk (fmtWa f) || bitsOf f.toNat 31 6 != 0),
    illIf (nbit d0 63 62 != 0 || nbit d1 63 44 != 0 || decide (gangKs (fmtGang f) < d.nk) ||
      decide (gangNs (fmtGang f) < d.nsn) || decide (64 < d.accRow + d.nm)),
    boundIf (decide (x.gr.kcb.uacc < d.accBase + d.nt * d.nsn)),
    extentTrap s x false d.aoff
      ((d.nt - 1) * d.tstride + (d.nm - 1) * d.rstride + d.nk * d.kb * blkBytes (fmtWa f))]

def execMmloop (a : VReg) (b : SReg) (m : BitVec 3) (s : State) : Out :=
  withGroup s (.mmloop a b m) fun ix =>
    match voteLanes ix (laneVal (.v a) ix.x.g) with
    -- It completes the clk after issue, as a NOP does.
    | .empty => .next (commit s ix (.nop .g) (.w []) s.nextPc)
    | .differ r => .next (takeFault (s.setVoteG ix.x.k r) (.group ix.x.k) (trap cFdt))
    | .agree v r =>
      let ix := ix.setVote r
      let f : W32 := v.setWidth 32
      match firstTrap (mmloopChecks s ix.x f (ix.x.rd b) (ix.x.rd b.next)) with
      | some t => .next (takeFault (s.setVoteG ix.x.k r) (.group ix.x.k) t)
      | none => .next (toEngine s ix (engineFlight false) (.mmloop f (ix.x.rd b) (ix.x.rd b.next) m.toNat 0) [])

/-! ### MMZERO, AMOV, ANRW (R248 to R250) -/

def accUnit (i : W32) : Nat := bitsOf i.toNat 16 13
/-- The key of an accumulator element: unit, row and column. -/
def accKey (i : W32) : Nat := bitsOf i.toNat 16 0

def execMmzero (u n : BitVec 4) (s : State) : Out :=
  matrixOp s (.mmzero u n)
    (fun ix => [boundIf (decide (ix.x.gr.kcb.uacc < u.toNat + (n.toNat + 1)))])
    (fun ix => toEngine s ix (engineFlight false) (.mmzero u.toNat (n.toNat + 1)) [])

/-- The lowest active lane whose index names a unit that the team does not hold. -/
def unitTrap (ix : IX) (a : VReg) : Option Trap :=
  (ix.lanes.find? fun l => decide (ix.x.gr.kcb.uacc ≤ accUnit (ix.x.g.vreg l a.toNat))).map fun l => laneTrap cScratch l 0

def execAmov (a b : VReg) (s : State) : Out :=
  matrixOp s (.amov a b) (fun ix => [unitTrap ix a])
    (fun ix => toEngine s ix (engineFlight true)
      (.amov (ix.lanes.map fun l => (l, ix.x.g.vreg l a.toNat, ix.x.g.vreg l b.toNat))) [])

def anrwFmt (c : W64) : Nat := nbit c 34 32
def anrwMode (c : W64) : Nat := nbit c 37 35

def execAnrw (a b : VReg) (c : SReg) (s : State) : Out :=
  matrixOp s (.anrw a b c)
    (fun ix =>
      let w := ix.x.rd c
      [illIf (nbit w 63 40 != 0 || decide (5 ≤ anrwFmt w) || anrwMode w == 6 ||
          (nbit w 38 38 == 1 && anrwFmt w != 3 && anrwFmt w != 4)),
        unitTrap ix b])
    (fun ix =>
      let w := ix.x.rd c
      let mode := rndOf (anrwMode w) .rne
      toEngine s ix { engineFlight true with pendV := ix.destKeys a 1 }
        (.anrw (ix.x.g.vwb + a.toNat)
          (ix.lanes.map fun l => (l, ix.x.g.vreg l b.toNat, ix.x.g.genAfter l 1)) w) (ix.gens mode 1))

/-! ### QTILE and RQT (R251, R252) -/

/-- Byte offset of a block in a layout of R × C (R239). -/
def rowBlk (base cols w r b : Nat) : Nat := base + (r * (cols / 32) + b) * blkBytes w
def colBlk (base rows w c k : Nat) : Nat := base + (c * (rows / 32) + k) * blkBytes w
def tileBytes (rows cols w : Nat) : Nat := rows * cols / 32 * blkBytes w

structure QDesc where
  mode : Nat
  cols : Nat
  rows : Nat
  sfmt : Nat
  sstride : Nat
  soff : Nat
  db : Nat
  da : Nat
  wa : Nat
  wb : Nat
  deriving DecidableEq, Repr

def QDesc.of (w d0 d1 : W64) : QDesc :=
  ⟨nbit d0 61 59, 32 * (nbit d0 58 55 + 1), 32 * (nbit d0 54 51 + 1), nbit d0 50 48, nbit d0 47 32, nbit d0 31 0,
    nbit d1 63 32, nbit d1 31 0, nbit w 3 0, nbit w 7 4⟩

def srcSize (f : Nat) : Nat := match f with | 0 => 4 | 1 | 2 => 2 | _ => 1
def srcFmt (f : Nat) : Fmt := match f with | 0 => .fp32 | 1 => .fp16 | 2 => .bf16 | 3 => .e4m3 | _ => .e5m2
def zeroOrWidth (w : Nat) : Bool := w == 0 || widthOk w

/-- The checks of R253 take each extent wholly before the next: the rule does not say where a feed-state fault stands among its
steps (DESIGN CHOICE, assumption 93). -/
def execQtile (a b : SReg) (m : BitVec 3) (s : State) : Out :=
  matrixOp s (.qtile a b m)
    (fun ix =>
      let d := QDesc.of (ix.x.rd a) (ix.x.rd b) (ix.x.rd b.next)
      [illIf (nbit (ix.x.rd a) 63 8 != 0 || nbit (ix.x.rd b) 63 62 != 0 || !zeroOrWidth d.wa || !zeroOrWidth d.wb ||
          (d.wa == 0 && d.wb == 0) || d.mode == 5 || d.mode == 6 || decide (5 ≤ d.sfmt)),
        extentTrap s ix.x false d.soff ((d.rows - 1) * d.sstride + d.cols * srcSize d.sfmt),
        if d.wa = 0 then none else extentTrap s ix.x true d.da (tileBytes d.rows d.cols d.wa),
        if d.wb = 0 then none else extentTrap s ix.x true d.db (tileBytes d.rows d.cols d.wb)])
    (fun ix => toEngine s ix (engineFlight true) (.qtile (ix.x.rd a) (ix.x.rd b) (ix.x.rd b.next) m.toNat) [])

structure RDesc where
  mode : Nat
  cols : Nat
  rows : Nat
  ws : Nat
  soff : Nat
  wd : Nat
  doff : Nat
  deriving DecidableEq, Repr

def RDesc.of (d s : W64) : RDesc :=
  ⟨nbit s 46 44, 32 * (nbit s 43 40 + 1), 32 * (nbit s 39 36 + 1), nbit s 35 32, nbit s 31 0, nbit d 35 32, nbit d 31 0⟩

def execRqt (a b : SReg) (row : Bool) (s : State) : Out :=
  matrixOp s (.rqt a b row)
    (fun ix =>
      let d := RDesc.of (ix.x.rd a) (ix.x.rd b)
      [illIf (nbit (ix.x.rd a) 63 36 != 0 || nbit (ix.x.rd b) 63 47 != 0 || !widthOk d.wd || !widthOk d.ws ||
          d.mode == 5 || d.mode == 6),
        extentTrap s ix.x false d.soff (tileBytes d.rows d.cols d.ws),
        extentTrap s ix.x true d.doff (tileBytes d.rows d.cols d.wd)])
    (fun ix => toEngine s ix (engineFlight true) (.rqt row (ix.x.rd a) (ix.x.rd b)) [])

/-! ### The engine's effects -/

def State.stone (s : State) (core n : Nat) : Stone := (s.coreD core).stones.getD n Stone.zero
def Stone.m (t : Stone) (row col : Nat) : Int := signed 8 (t.cell.getD (row * 128 + col) 0).toNat

/-- Block row `k` of a column. -/
def Stone.blk (t : Stone) (k col : Nat) : Bx :=
  ⟨(t.exp.getD (k * 128 + col) 0).toNat, (List.range 32).map fun i => t.m (32 * k + i) col⟩

/-- A block written into a stone, its mantissas sign-extended to a byte. -/
def Stone.putBlk (t : Stone) (k col : Nat) (b : Bx) : Stone :=
  { t with
    exp := t.exp.put 0 (k * 128 + col) (BitVec.ofNat 8 b.e)
    cell := (b.m.zipIdx).foldl (fun c p => Tab.put 0 c ((32 * k + p.2) * 128 + col) (BitVec.ofNat 8 (wrapN 8 p.1))) t.cell }

/-- The rings that an instruction in the engine holds. -/
abbrev Held := List (Nat × RingId)

def readBlk (s : State) (gr : Grid) (h : Held) (team m w o : Nat) : Bx := Bx.ofBytes w (spRead s gr team m o (blkBytes w) h)

/-- MMLDB: the columns and block rows named, in an otherwise zero stone. -/
def engMmldb (s : State) (gr : Grid) (h : Held) (team core n soff : Nat) (desc : W64) (m : Nat) : State :=
  let d := LdbDesc.of desc
  let t := (List.range (min d.nc 128)).foldl (fun (t : Stone) col => (List.range d.kb).foldl (fun (t : Stone) k =>
    t.putBlk k col (readBlk s gr h team m d.wb (soff + col * d.cstride + k * blkBytes d.wb))) t) ⟨[], [], d.wb⟩
  s.updCore core fun c => { c with stones := c.stones.set n t }

/-- One K-step of MMLOOP (R244). -/
def engStep (s : State) (gr : Grid) (h : Held) (team core : Nat) (f : W32) (d : LoopDesc) (m step : Nat) : State :=
  let wA := fmtWa f
  let ns := gangNs (fmtGang f)
  let tile := step / d.nk / d.nm
  let r := step / d.nk % d.nm
  let j := step % d.nk
  let ablks := (List.range d.kb).map fun b =>
    readBlk s gr h team m wA (d.aoff + tile * d.tstride + r * d.rstride + (j * d.kb + b) * blkBytes wA)
  let stones := (List.range d.nsn).map fun n => s.stone core (j * ns + n)
  let old := match s.team? team with | some t => t.acc | none => []
  let acc := (List.range (128 * d.nsn)).foldl (fun (acc : Tab (BitVec 48)) col =>
    let st := stones.getD (col / 128) Stone.zero
    let key := (d.accBase + tile * d.nsn + col / 128) * 8192 + (d.accRow + r) * 128 + col % 128
    let x := (ablks.zipIdx).foldl (fun x p => mmBlock wA st.tag p.1 (st.blk p.2 (col % 128)) x) (acc.getD key 0).toNat
    Tab.put 0 acc key (BitVec.ofNat 48 x)) old
  s.updTeam team fun t => { t with acc := acc }

def LoopDesc.steps (d : LoopDesc) : Nat := d.nt * d.nm * d.nk

/-- Flags that the engine raises in the issuing group. -/
def raiseIn (s : State) (grp flags : Nat) : State := s.updGroup grp fun g => g.raise flags

def engAmov (s : State) (team : Nat) (lanes : List (Nat × W32 × W32)) : State × Nat :=
  let vals := lanes.map fun l => (accKey l.2.1, Fmt.fp32.read l.2.2.toNat)
  let s := s.updTeam team fun t =>
    { t with acc := vals.foldl (fun (a : Tab (BitVec 48)) v => Tab.put 0 a v.1 (BitVec.ofNat 48 (roundFmt .a48 .rne 0 v.2).1)) t.acc }
  (s, snanFlag (vals.map (·.2)))

/-- ANRW: all reads first, then the results, then CLR. -/
def engAnrw (s : State) (team dest : Nat) (lanes : List (Nat × W32 × W32)) (w : W64) : State × List RegW × Nat :=
  match s.team? team with
  | none => (s, [], 0)
  | some t =>
    let mode := rndOf (anrwMode w) .rne
    let rs := lanes.map fun l =>
      (l.1, narrowAcc (t.acc.getD (accKey l.2.1) 0).toNat (nbit w 31 0) (anrwFmt w) mode l.2.2.toNat (nbit w 38 38 == 0))
    let s := if nbit w 39 39 = 1 then
        s.updTeam team fun t => { t with acc := lanes.foldl (fun (a : Tab (BitVec 48)) l => a.erase (accKey l.2.1)) t.acc }
      else s
    (s, rs.map fun r => .v r.1 dest (BitVec.ofNat 32 r.2.1), rs.foldl (fun a r => a ||| r.2.2) 0)

/-- Blocks to write: their offsets and bytes, with the flags raised. -/
def blocksOf (w : Nat) (mode : Rnd) (src : List (Nat × List FVal)) : List (Nat × List Byte) × Nat :=
  let qs := src.map fun p => (p.1, bxQuantise p.2 w mode)
  (qs.map fun q => (q.1, q.2.1.bytes w), qs.foldl (fun a q => a ||| q.2.2) 0)

/-- The vectors along rows of a tile, with their block offsets at a base; and along columns. -/
def rowVecs (rows cols base w : Nat) (val : Nat → Nat → FVal) : List (Nat × List FVal) :=
  (List.range rows).flatMap fun r => (List.range (cols / 32)).map fun b =>
    (rowBlk base cols w r b, (List.range 32).map fun i => val r (32 * b + i))

def colVecs (rows cols base w : Nat) (val : Nat → Nat → FVal) : List (Nat × List FVal) :=
  (List.range cols).flatMap fun c => (List.range (rows / 32)).map fun k =>
    (colBlk base rows w c k, (List.range 32).map fun i => val (32 * k + i) c)

def writeBlocks (s : State) (gr : Grid) (h : Held) (team : Nat) (bs : List (Nat × List Byte)) : State :=
  foldS s bs fun s b => spWrite s gr team 0 b.1 b.2 h

/-- Bytes that copies share with their source or with each other hold unspecified values (R251, R252). -/
def freeBytes (s : State) (gr : Grid) (h : Held) (team : Nat) (offs : List Nat) : State :=
  foldS s offs fun s o => let (bs, s) := s.drawBytes 1; spWrite s gr team 0 o bs h

def inRange (base len o : Nat) : Bool := decide (base ≤ o) && decide (o < base + len)

/-- The same for an offset's swizzled place: the swizzle is its own inverse. -/
def unswizzle (m o : Nat) : Nat := if isWindow o then o - winByte o + swizzle m (winByte o) else swizzle m o

def engQtile (s : State) (gr : Grid) (h : Held) (team : Nat) (w d0 d1 : W64) (m : Nat) : State × Nat :=
  let d := QDesc.of w d0 d1
  let mode := rndOf d.mode .rne
  let n := srcSize d.sfmt
  let val (r c : Nat) : FVal := (srcFmt d.sfmt).read (leNat (spRead s gr team m (d.soff + r * d.sstride + c * n) n h))
  let lenA := if d.wa = 0 then 0 else tileBytes d.rows d.cols d.wa
  let lenB := if d.wb = 0 then 0 else tileBytes d.rows d.cols d.wb
  let qa := if d.wa = 0 then ([], 0) else blocksOf d.wa mode (rowVecs d.rows d.cols d.da d.wa val)
  let qb := if d.wb = 0 then ([], 0) else blocksOf d.wb mode (colVecs d.rows d.cols d.db d.wb val)
  let inSrc (o : Nat) : Bool :=
    let u := unswizzle m o
    (List.range d.rows).any fun r => inRange (d.soff + r * d.sstride) (d.cols * n) u
  let offs := ((List.range lenA).map (d.da + ·)).filter (fun o => inRange d.db lenB o || inSrc o) ++
    ((List.range lenB).map (d.db + ·)).filter inSrc
  let s := writeBlocks s gr h team (qa.1 ++ qb.1)
  (freeBytes s gr h team offs, qa.2 ||| qb.2)

/-- RQT: decoded exactly, re-formed along the other direction; poison passes without a flag. -/
def engRqt (s : State) (gr : Grid) (h : Held) (team : Nat) (row : Bool) (dw sw : W64) : State × Nat :=
  let d := RDesc.of dw sw
  let mode := rndOf d.mode .rne
  let blk (o : Nat) : Bx := readBlk s gr h team 0 d.ws o
  let val (r c : Nat) : FVal :=
    if row then (blk (colBlk d.soff d.rows d.ws c (r / 32))).val d.ws (r % 32)
    else (blk (rowBlk d.soff d.cols d.ws r (c / 32))).val d.ws (c % 32)
  let vecs := if row then rowVecs d.rows d.cols d.doff d.wd val else colVecs d.rows d.cols d.doff d.wd val
  let q := blocksOf d.wd mode vecs
  let lenS := tileBytes d.rows d.cols d.ws
  let offs := ((List.range (tileBytes d.rows d.cols d.wd)).map (d.doff + ·)).filter fun o => inRange d.soff lenS o
  let s := writeBlocks s gr h team q.1
  (freeBytes s gr h team offs, q.2 &&& fNX)

/-- One move of the engine: the whole effect of its head instruction, or one K-step of an MMLOOP (R237, R246). -/
def engineStep (s : State) (core : Nat) : State :=
  match (s.coreD core).engine with
  | [] => s
  | op :: rest =>
    let pop (s : State) : State := s.updCore core fun c => { c with engine := rest }
    match (s.team? op.team).bind fun t => s.grid? t.grid with
    | none => pop s
    | some gr =>
      let done (s : State) (ws : List RegW) (flags : Nat) : State :=
        flightArrive (raiseIn (pop s) op.grp flags) op.grp op.flight ws
      match op.act with
      | .mmldb n soff desc m => done (engMmldb s gr op.rings op.team core n soff desc m) [] 0
      | .mmloop f d0 d1 m t =>
        let d := LoopDesc.of d0 d1
        let s := engStep s gr op.rings op.team core f d m t
        if t + 1 < d.steps then s.updCore core fun c => { c with engine := { op with act := .mmloop f d0 d1 m (t + 1) } :: rest }
        else done s [] 0
      | .mmzero u n =>
        done (s.updTeam op.team fun t =>
          { t with acc := t.acc.keep fun k _ => !(decide (u * 8192 ≤ k) && decide (k < (u + n) * 8192)) }) [] 0
      | .amov lanes => let (s, fl) := engAmov s op.team lanes; done s [] fl
      | .anrw dest lanes w => let (s, ws, fl) := engAnrw s op.team dest lanes w; done s ws fl
      | .qtile w d0 d1 m => let (s, fl) := engQtile s gr op.rings op.team w d0 d1 m; done s [] fl
      | .rqt row d sr => let (s, fl) := engRqt s gr op.rings op.team row d sr; done s [] fl

end Sys2Proof.Machine
end

