-- ==== Sys2Proof/Machine/Kcb.lean ====
section
/-! DEFINITION. The kernel control block (R433), the loader's checks of it (R434), and how teams share the resources of
a core (R13, R211, R217, R272): one account of what a core has in use serves the loader, the dispatcher and the weir. -/

namespace Sys2Proof.Machine

open Sys2Proof

/-! ### Reading a block (R433) -/

def kcbBytes : Nat := 256

/-- The fields of a kernel control block. -/
def Kcb.of (bs : List Byte) : Kcb :=
  let w (off : Nat) : W64 := BitVec.ofNat 64 (fieldAt bs off 8)
  { step := fieldAt bs 0x06 2
    entry := w 0x08
    cstart := w 0x10
    cend := w 0x18
    handG := w 0x20
    handT := w 0x28
    handD := w 0x30
    reqfeat := BitVec.ofNat 128 (fieldAt bs 0x38 16)
    width := fieldAt bs 0x48 1
    groups := fieldAt bs 0x49 1
    vregs := fieldAt bs 0x4A 2
    stages := fieldAt bs 0x4C 1
    whole := fieldAt bs 0x4D 1 % 2 == 1
    gcode := fieldAt bs 0x4D 1 / 2 % 2 == 1
    nbar := fieldAt bs 0x4E 1
    nfeed := fieldAt bs 0x4F 1
    pw := w 0x50
    spbytes := fieldAt bs 0x58 4
    uacc := fieldAt bs 0x5C 1
    txmax := fieldAt bs 0x60 2
    tymax := fieldAt bs 0x62 2
    tzmax := fieldAt bs 0x64 2
    vgrid := fieldAt bs 0x68 4
    feeds := (List.range 8).map fun n => (fieldAt bs (0x70 + 8 * n) 1, fieldAt bs (0x72 + 8 * n) 2 * 512)
    bells := w 0xB0 }

def Kcb.rfu (k : Kcb) : Nat := bitsOf k.pw.toNat 5 0
def Kcb.spu (k : Kcb) : Nat := bitsOf k.pw.toNat 11 6
def Kcb.accu (k : Kcb) : Nat := bitsOf k.pw.toNat 17 12

/-! ### The checks of R434 -/

def zeroAt (bs : List Byte) (off n : Nat) : Bool := fieldAt bs off n == 0

/-- A declared feed's fields; an undeclared one has a count of 0. -/
def feedOk (bs : List Byte) (n : Nat) : Bool :=
  let o := 0x70 + 8 * n
  let size := fieldAt bs (o + 2) 2
  zeroAt bs (o + 1) 1 && zeroAt bs (o + 4) 4 &&
  (fieldAt bs o 1 == 0 || (decide (fieldAt bs o 1 ≤ 16) && decide (1 ≤ size) && decide (size ≤ 2048)))

/-- `NFEED` is the highest declared feed plus 1. -/
def Kcb.nfeedOk (k : Kcb) : Bool :=
  let used := (List.range 8).filter fun n => match k.feeds[n]? with | some f => f.1 != 0 | none => false
  k.nfeed == (match used.getLast? with | some n => n + 1 | none => 0)

def between (lo hi x : Nat) : Bool := decide (lo ≤ x) && decide (x ≤ hi)

/-- Check 1: the constants, the reserved bytes, and every field in its range. -/
def kcbFields (bs : List Byte) (k : Kcb) : Bool :=
  fieldAt bs 0 4 == 0x3142434B && fieldAt bs 4 2 == 1 &&
  zeroAt bs 0x5D 3 && zeroAt bs 0x66 2 && zeroAt bs 0x6C 4 && zeroAt bs 0xB8 72 &&
  k.cstart.toNat % 16 == 4 && k.cend.toNat % 16 == 0 &&
  (k.width == 16 || k.width == 32 || k.width == 64) && between 1 16 k.groups &&
  k.vregs % 32 == 0 && between 32 256 k.vregs && between 1 8 k.stages &&
  decide (fieldAt bs 0x4D 1 < 4) && decide (k.nbar ≤ 64) && decide (k.nfeed ≤ 8) && k.nfeedOk &&
  k.spbytes % 16 == 0 && decide (k.uacc ≤ k.accu) &&
  between 1 65535 k.txmax && between 1 65535 k.tymax && between 1 65535 k.tzmax && decide (k.vgrid ≤ 512) &&
  (List.range 8).all (feedOk bs) && !k.bells.getLsbD 0

/-- Check 2: the range, the entry and the handlers, within the object's text. -/
def Kcb.codeOk (k : Kcb) (textLo textHi : Nat) : Bool :=
  let at0 (a : W64) : Bool := decide (k.cstart.toNat ≤ a.toNat) && decide (a.toNat < k.cend.toNat) && slot1 a
  at0 k.entry && [k.handG, k.handT, k.handD].all (fun h => h == 0 || at0 h) &&
  decide (textLo ≤ k.cstart.toNat) && decide (k.cend.toNat ≤ textHi)

/-- R216. -/
def Kcb.pwOk (k : Kcb) : Bool :=
  k.pw.toNat / 2 ^ 18 == 0 && between 1 24 k.rfu && decide (k.accu ≤ 16) && decide (k.rfu + k.spu + k.accu ≤ 48)

def round4k (n : Nat) : Nat := (n + 4095) / 4096 * 4096

/-- The bytes of a team in each share (R14, R217). -/
def Kcb.rfNeed (k : Kcb) : Nat := round4k (k.groups * k.width * k.vregs * 4)
def Kcb.spNeed (k : Kcb) : Nat := round4k (k.spbytes + 256 * k.groups + 256)

/-- The storage of a column's rings: one ring per declared feed between neighbouring stages (R272). -/
def Kcb.ringNeed (k : Kcb) : Nat :=
  (k.stages - 1) * (k.feeds.map fun f => f.1 * f.2).foldl (· + ·) 0

/-- The words of a code range, in which check 6 looks for D-scope slots. -/
def noGridSlot (text : Nat → W32) (k : Kcb) : Bool :=
  (List.range ((k.cend.toNat - k.cstart.toNat) / 4 + 1)).all fun i =>
    let a := k.cstart.toNat + 4 * i
    a % 16 == 0 || decide (k.cend.toNat ≤ a) || !(levelOf (text a) == .d)

/-- The checks of R434 in their order, on a relocated block; `text` reads the object's code. -/
def kcbOk (bs : List Byte) (textLo textHi : Nat) (text : Nat → W32) : Bool :=
  let k := Kcb.of bs
  kcbFields bs k && k.codeOk textLo textHi &&
  decide (k.groups * k.width * k.vregs * 4 ≤ k.rfu * 65536) && k.pwOk &&
  decide (k.spNeed ≤ k.spu * 65536) && decide (16 * k.nbar ≤ k.spbytes) &&
  ((!k.gcode && k.nfeed == 0) || k.whole) && (k.gcode || noGridSlot text k) &&
  (k.stages == 1 || k.nfeed != 0 || k.whole) &&
  decide (k.stages * k.rfNeed ≤ k.rfu * 65536) && decide (k.stages * k.spNeed + k.ringNeed ≤ k.spu * 65536)

/-! ### What a core has in use (R13, R211, R217) -/

/-- A core's resources in use: team slots, group sequencers with their widths, and the intervals of each share. -/
structure CoreUse where
  slots : List Nat
  groups : List (Nat × Nat)
  rf : List (Nat × Nat)
  sp : List (Nat × Nat)
  acc : List (Nat × Nat)
  bars : Nat
  deriving DecidableEq, Repr

def CoreUse.empty : CoreUse := ⟨[], [], [], [], [], 0⟩

/-- Where a team's parts lie on its core. -/
structure Spot where
  slot : Nat
  seqs : List Nat
  rf : Nat
  sp : Nat
  acc : Nat
  deriving DecidableEq, Repr

def overlaps (a n b m : Nat) : Bool := decide (a < b + m) && decide (b < a + n)

/-- First fit from the lowest address (R217). -/
def firstFit (size n : Nat) (used : List (Nat × Nat)) : Option Nat :=
  let cand := 0 :: used.map fun u => u.1 + u.2
  let free := cand.filter fun a => decide (a + n ≤ size) && !(used.any fun u => overlaps a n u.1 u.2)
  match free with
  | [] => none
  | a :: as => some (as.foldl min a)

/-- Lane slots in use on a quadrant, and its lowest free sequencer. -/
def quadUsed (gs : List (Nat × Nat)) (q : Nat) : Nat :=
  ((gs.filter fun g => g.1 / 16 == q).map (·.2)).foldl (· + ·) 0

def quadFree (gs : List (Nat × Nat)) (q : Nat) : Option Nat :=
  ((List.range 16).map (q * 16 + ·)).find? fun n => !(gs.any fun g => g.1 == n)

/-- The quadrant with the most free lane slots that has a free sequencer and room for a group (R211). -/
def pickSeq (gs : List (Nat × Nat)) (w : Nat) : Option Nat :=
  let cand := (List.range 4).filter fun q => (quadFree gs q).isSome && decide (quadUsed gs q + w ≤ 384)
  match cand with
  | [] => none
  | q :: qs => quadFree gs (qs.foldl (fun b q => if quadUsed gs q < quadUsed gs b then q else b) q)

def pickSeqs (w : Nat) : Nat → List (Nat × Nat) → Option (List Nat × List (Nat × Nat))
  | 0, gs => some ([], gs)
  | n + 1, gs =>
    match pickSeq gs w with
    | none => none
    | some q => (pickSeqs w n (gs ++ [(q, w)])).map fun r => (q :: r.1, r.2)

/-- One team more on a core (R217). The spec does not say which free team sequencer, with its copy queue, the team takes: the
lowest (DESIGN CHOICE, assumption 80). -/
def CoreUse.add (u : CoreUse) (k : Kcb) : Option (CoreUse × Spot) :=
  match (List.range 16).find? fun n => !u.slots.contains n, pickSeqs k.width k.groups u.groups,
      firstFit (k.rfu * 65536) k.rfNeed u.rf, firstFit (k.spu * 65536) k.spNeed u.sp, firstFit k.accu k.uacc u.acc with
  | some slot, some (seqs, gs), some rf, some sp, some acc =>
    if 256 < u.bars + k.nbar then none
    else
      some (⟨u.slots ++ [slot], gs, u.rf ++ [(rf, k.rfNeed)], u.sp ++ [(sp, k.spNeed)],
        if k.uacc = 0 then u.acc else u.acc ++ [(acc, k.uacc)], u.bars + k.nbar⟩, ⟨slot, seqs, rf, sp, acc⟩)
  | _, _, _, _, _ => none

def CoreUse.addTeams (k : Kcb) : Nat → CoreUse → Option (CoreUse × List Spot)
  | 0, u => some (u, [])
  | n + 1, u =>
    match u.add k with
    | none => none
    | some (u, p) => (CoreUse.addTeams k n u).map fun r => (r.1, p :: r.2)

/-- Storage for rings of the given sizes. -/
def CoreUse.addRings (size : Nat) : List Nat → CoreUse → Option (CoreUse × List Nat)
  | [], u => some (u, [])
  | n :: ns, u =>
    match firstFit size n u.sp with
    | none => none
    | some a => (CoreUse.addRings size ns { u with sp := u.sp ++ [(a, n)] }).map fun r => (r.1, a :: r.2)

/-- The rings of a column: stage and feed with the ring's size. -/
def Kcb.ringList (k : Kcb) : List (Nat × Nat × Nat) :=
  (List.range (k.stages - 1)).flatMap fun s => k.feeds.zipIdx.filterMap fun f =>
    if f.1.1 = 0 then none else some (s, f.2, f.1.1 * f.1.2)

/-- A whole column on a core: the spots of its stages and the places of its rings (R272, R380). -/
def CoreUse.addColumn (u : CoreUse) (k : Kcb) : Option (CoreUse × List Spot × List Nat) :=
  match CoreUse.addTeams k k.stages u with
  | none => none
  | some (u, ps) => (u.addRings (k.spu * 65536) (k.ringList.map (·.2.2))).map fun r => (r.1, ps, r.2)

/-- How many columns an empty core holds, at most 16. -/
def columnsFrom (k : Kcb) : Nat → CoreUse → Nat
  | 0, _ => 0
  | n + 1, u => match u.addColumn k with
    | none => 0
    | some r => columnsFrom k n r.1 + 1

def Kcb.columnsPerCore (k : Kcb) : Nat := columnsFrom k 16 CoreUse.empty

/-- The teams on a core, with their keys. -/
def teamsOn (s : State) (core : Nat) : Tab Team := s.teams.filter fun p => p.2.core == core

/-- The groups that a team's sequencers hold on a core. -/
def groupsOn (s : State) (core : Nat) : Tab Group := s.groups.filter fun p => coreOfGroup p.1 == core

/-- What a core has in use now. -/
def coreUse (s : State) (core : Nat) : CoreUse :=
  let ts := teamsOn s core
  let kcbOf (t : Team) : Option Kcb := (s.grid? t.grid).map (·.kcb)
  let here (r : Ring) : Bool := ts.any fun p => p.2.grid == r.grid &&
    (match s.grid? r.grid with | some g => columnOf g p.2 == r.column | none => false)
  { slots := ts.map (·.2.slot)
    groups := (groupsOn s core).map fun p => (p.1 % 64, p.2.w)
    rf := ts.map fun p => (p.2.rfBase, p.2.rfSize)
    sp := (ts.map fun p => (p.2.spBase, p.2.spSize)) ++
      ((s.rings.filter here).map fun r => (r.base, r.bufs.length * r.size))
    acc := ts.filterMap fun p => match kcbOf p.2 with
      | some k => if k.uacc = 0 then none else some (p.2.accBase, k.uacc)
      | none => none
    bars := (ts.map fun p => match kcbOf p.2 with | some k => k.nbar | none => 0).foldl (· + ·) 0 }

end Sys2Proof.Machine
end

