-- ==== Sys2Proof/Machine/Weir.lean ====
section
/-! DEFINITION. Partitions and the weir (R387 to R390), the numbering of their cores (R443, R444), and pre-emption with
context save and restore (R35, R230, R231, R246, R247, R271, R374). -/

namespace Sys2Proof.Machine

open Sys2Proof

/-! ### Partitions (R387, R388) -/

/-- The cores of a partition, in increasing physical number. -/
def partCores (s : State) (vf : Nat) : List Nat := (s.cores.filter fun p => p.2.vf == some vf).map (·.1)

def clusterOf (core : Nat) : Nat := core / 128

def savedOf (s : State) (vf : Nat) : List Saved := s.saved.vals.filter fun x => x.vf == vf

/-- The partition holds no resident team and no saved team. -/
def partIdle (s : State) (vf : Nat) : Bool :=
  (savedOf s vf).isEmpty && !(s.teams.any fun p => (s.coreD p.2.core).vf == some vf)

def sumOf {α : Type} (f : α → Nat) (xs : List α) : Nat := (xs.map f).foldl (· + ·) 0

/-- The virtual functions' entries. -/
def vfEntries (s : State) : List Vf := Tab.vals (s.vfs.filter fun (p : Nat × Vf) => p.1 != 0)

def enabledCores (s : State) : Nat := s.cores.length

def floorOf (s : State) (vf : Nat) : Nat :=
  if vf = 0 then enabledCores s - sumOf Vf.floor (vfEntries s)
  else match s.vfs.get? vf with | some v => v.floor | none => 0

def shareOf (s : State) (vf : Nat) : Nat :=
  if vf = 0 then 65536 - sumOf Vf.share (vfEntries s)
  else match s.vfs.get? vf with | some v => v.share | none => 0

def gsmaxOf (s : State) (vf : Nat) : Nat :=
  if vf = 0 then 64 else match s.vfs.get? vf with | some v => v.gsmax | none => 0

def deadlineOf (s : State) (vf : Nat) : Nat :=
  if vf = 0 then 0 else match s.vfs.get? vf with | some v => v.deadline | none => 0

/-- d(p) of R389, in units of 1/65,536 of a core-clk: exact. -/
def deficit (s : State) (vf : Nat) : Int :=
  let t := sumOf Vf.used s.vfs.vals
  let u := match s.vfs.get? vf with | some v => v.used | none => 0
  (shareOf s vf * t : Nat) - (65536 * u : Nat)

/-! ### Numbering (R443, R444) -/

/-- R443: die, cluster and physical number order is the order of SR.CORE. -/
def renumber (s : State) (vf : Nat) : State :=
  let s := foldS s (partCores s vf).zipIdx fun s p => s.updCore p.1 fun c => { c with vcore := some p.2 }
  { s with vfs := s.vfs.modify vf fun v => { v with freeNums := [] } }

/-- Numbers in use or reserved, each with its cluster. -/
def numbers (s : State) (vf : Nat) : List (Nat × Nat) :=
  ((partCores s vf).filterMap fun c => (s.coreD c).vcore.map fun v => (clusterOf c, v)) ++
  ((savedOf s vf).map fun x => (clusterOf x.core, x.vcore)) ++
  (match s.vfs.get? vf with | some v => v.freeNums | none => [])

/-- The lowest number above every number whose cluster index is free in the cluster. -/
def freshNumber (s : State) (vf cluster : Nat) : Option Nat :=
  let ns := numbers s vf
  let top := match ns with | [] => 0 | _ => (ns.map (·.2)).foldl max 0 + 1
  ((List.range 128).map (top + ·)).find? fun n => !(ns.any fun p => p.1 == cluster && p.2 % 128 == n % 128)

/-- A core takes a number (R444): a free reserved one of its cluster, or a fresh one. -/
def takeNumber (s : State) (vf core : Nat) : State :=
  let all : List (Nat × Nat) := match s.vfs.get? vf with | some v => v.freeNums | none => []
  let free := all.filter fun p => p.1 == clusterOf core
  match free with
  | p :: ps =>
    let n := (ps.map (·.2)).foldl min p.2
    let s := { s with vfs := s.vfs.modify vf fun v => { v with freeNums := v.freeNums.filter fun q => q != (clusterOf core, n) } }
    s.updCore core fun c => { c with vcore := some n }
  | [] => s.updCore core fun c => { c with vcore := freshNumber s vf (clusterOf core) }

/-- A number that becomes a free reserved number of its cluster. -/
def reserveNumber (s : State) (vf core : Nat) : Option Nat → State
  | none => s
  | some n => { s with vfs := s.vfs.modify vf fun v => { v with freeNums := v.freeNums ++ [(clusterOf core, n)] } }

/-- Numbers a partition after a change, wholly where it is idle (R444). -/
def numberPart (s : State) (vf : Nat) : State :=
  if partIdle s vf then renumber s vf
  else foldS s ((partCores s vf).filter fun c => (s.coreD c).vcore.isNone) fun s c => takeNumber s vf c

/-- The bits of hamlets that no longer name a core of the partition are cleared (R295). -/
def maskHams (s : State) (vf : Nat) : State :=
  { s with teams := s.teams.map fun (p : Nat × Team) =>
      if (s.coreD p.2.core).vf = some vf then (p.1, { p.2 with ham := p.2.ham.map fun h => (h.1, maskHamlet s p.2.core vf h.2) }) else p }

/-! ### A core changes partition (R387) -/

/-- The core leaves its partition: grains written back and dropped, views and stones gone, its number reserved. -/
def leavePart (s : State) (core : Nat) : State :=
  match (s.coreD core).vf with
  | none => s
  | some p =>
    let s := flushCore s core p true
    let n := (s.coreD core).vcore
    let s := s.updCore core fun c => { c with vf := none, vcore := none, views := [], stones := [], stonesVf := none, preempt := false, giveTo := none }
    maskHams (numberPart (reserveNumber s p core n) p) p

def moveCore (s : State) (core vf : Nat) : State :=
  let s := leavePart s core
  numberPart (s.updCore core fun c => { c with vf := some vf }) vf

/-! ### Grids that wait for placement (R379 to R381) -/

def Grid.total (g : Grid) : Nat := g.x * g.y * g.z * g.kcb.stages

/-- Grids of one source are dispatched in their order: a host queue's, or a partition's device-launch queue. -/
def sameSource (a b : Grid) : Bool :=
  a.vf == b.vf && a.host == b.host && (!a.host || a.queue == b.queue)

/-- A grid whose walk is not complete and that no earlier grid of its source holds back. -/
def mayPlace (s : State) (k : Nat) (g : Grid) : Bool :=
  decide (g.nextTeam < g.total) && g.abortCode.isNone &&
  !(s.grids.any fun p => decide (p.1 < k) && sameSource p.2 g && decide (p.2.nextTeam < p.2.total) && p.2.abortCode.isNone)

/-- A partition has a team that waits to be placed, or saved teams that wait for a core. -/
def hasWaiting (s : State) (vf : Nat) : Bool :=
  !(savedOf s vf).isEmpty || s.grids.any fun p => p.2.vf == vf && mayPlace s p.1 p.2

/-! ### The decision on a freed core (R389) -/

/-- A partition has a team that a freed core would take: a saved one goes back into its own cluster (R231). -/
def waitsFor (s : State) (core vf : Nat) : Bool :=
  (savedOf s vf).any (fun x => clusterOf x.core == clusterOf core) || s.grids.any fun p => p.2.vf == vf && mayPlace s p.1 p.2

/-- The candidate with the largest deficit; the lowest function number on a tie. -/
def bestCandidate (s : State) (core : Nat) : Option Nat :=
  match s.vfs.keys.filter (waitsFor s core) with
  | [] => none
  | v :: vs => some (vs.foldl (fun b v => if deficit s b < deficit s v then v else b) v)

def weirDecide (s : State) (core : Nat) : State :=
  match (s.coreD core).vf, (s.coreD core).giveTo with
  | none, _ => s
  | some _, some q => moveCore s core q
  | some p, none =>
    match bestCandidate s core with
    | none => s
    | some q => if q = p || (partCores s p).length ≤ floorOf s p then s else moveCore s core q

/-! ### Pre-emption (R230) -/

/-- The cores that a pre-emption takes in: with a team of a whole grid, every core of that grid (R374). -/
def preemptSet (s : State) : Nat → List Nat → List Nat
  | 0, cs => cs
  | n + 1, cs =>
    let gs := ((s.teams.filter fun p => cs.contains p.2.core).map (·.2.grid)).filter fun g =>
      match s.grid? g with | some x => x.kcb.whole | none => false
    match ((s.teams.filter fun p => gs.contains p.2.grid).map (·.2.core)).eraseDups.filter fun c => !cs.contains c with
    | [] => cs
    | more => preemptSet s n (cs ++ more)

def StopReq.ask : StopReq → StopReq
  | .debug => .debug
  | .yielded => .yielded
  | _ => .preempt

/-- The units of a core are asked to stop. -/
def preemptCore (s : State) (core : Nat) : State :=
  let s := s.updCore core fun c => { c with preempt := true }
  foldS s (teamsOn s core) fun s p =>
    let s := s.updSeq (.team p.1) fun q => { q with stopReq := q.stopReq.ask }
    let s := foldS s (s.groupsOfTeam p.1) fun s k => s.updGroup k fun g => { g with stopReq := g.stopReq.ask }
    let s := match s.grid? p.2.grid with
      | some g => if g.kcb.whole then
          (s.updSeq (.grid p.2.grid) fun q => { q with stopReq := q.stopReq.ask }).post [.sequencerPark (.grid p.2.grid)]
        else s
      | none => s
    s.post [.sequencerPark (.team p.1)]

def preemptCores (s : State) (cores : List Nat) : State := foldS s (preemptSet s s.cores.length cores) preemptCore

def execPreemptionRequest (vf core : Nat) (s : State) : Out :=
  if (s.coreD core).vf ≠ some vf then .next s else .next (preemptCores s [core])

/-! ### Stop points (R35, R129, R230) -/

def EngineOp.isLoop (o : EngineOp) : Bool := match o.act with | .mmloop _ _ _ _ _ => true | _ => false

/-- The flights whose flags stay raised when a pre-emption stops a group: its MMLOOPs (R246). -/
def keptFlights (s : State) (k : Nat) : List Nat :=
  ((s.coreD (coreOfGroup k)).engine.filter fun o => o.grp == k && o.isLoop).map (·.flight)

/-- The group's pace flags have drained (R35, R129). -/
def stopDrained (s : State) (k : Nat) (g : Group) : Bool :=
  let kept := if g.stopReq = .debug then [] else keptFlights s k
  let waits := match g.st with
    | .waiting (.bwait _ _ f) | .waiting (.feedget _ _ f) | .waiting (.feedpop _ _ f) | .waiting (.bellw _ _ f) => [f]
    | _ => []
  g.flights.all fun f => kept.contains f.id || waits.contains f.id

/-- The group stands at a stop point. -/
def atStopPoint (g : Group) : Bool :=
  match g.st with
  | .running => g.sframe.isSome || slotIndex g.ctl.pc == 1 || g.stopReq == .yielded
  | .waiting _ | .idle => true
  | _ => false

/-- The group parks; a waiting instruction is withdrawn. -/
def Group.park (g : Group) : Group :=
  let g' := match g.st with
    | .waiting (.bwait _ _ f) | .waiting (.feedget _ _ f) | .waiting (.feedpop _ _ f) | .waiting (.bellw _ _ f) => g.withdraw f
    | _ => g
  { g' with st := .parked }

def mustStop (r : StopReq) : Bool :=
  match r with
  | .preempt | .yielded | .debug => true
  | _ => false

def execGroupStopPoint (g : Nat) (s : State) : Out :=
  match s.group? g with
  | none => .fault .noSuchUnit
  | some x =>
    if mustStop x.stopReq && atStopPoint x && stopDrained s g x then .next (leaveQueues (s.setGroup g x.park) g) else .next s

/-! ### Continuing -/

/-- A parked group continues where it parked. -/
def Group.unpark (g : Group) : Group :=
  { g with
    stopReq := .none
    st := match g.st with
      | .parked => if g.run.isSome || g.sframe.isSome then .running else .idle
      | x => x }

/-- A parked sequencer returns to the state it held, unless a frame still keeps it. -/
def resumeSeq (s : State) (u : UnitId) : State :=
  if keptParked s u then s.updSeq u fun q => { q with stopReq := .tree }
  else unpark s u

/-! ### Context save (R230, step 5) -/

def seqStopped (q : Seq) : Bool :=
  match q.st with
  | .park | .done => true
  | _ => false

/-- What a team's last retirement still waits for: copies in its queue (R130). -/
def teamBusy (s : State) (t : Nat) : Bool :=
  match s.team? t with
  | some x => !(s.copies (x.core * 16 + x.slot)).isEmpty
  | none => false

/-- The last group of its team, which waits for the team's copies. -/
def awaitsCopies (s : State) (k : Nat) (g : Group) : Bool := (s.groupsOfTeam g.team).all (· == k) && teamBusy s g.team

/-- A group has stopped; one that retires waits with its MMLOOPs or with its team's copies. -/
def groupStopped (s : State) (k : Nat) (g : Group) : Bool :=
  g.acks.isEmpty && match g.st with
  | .parked | .escalated | .revoteHeld => true
  | .stopped _ => stopDrained s k g
  | .retiring => stopDrained s k g && g.unsettled.isEmpty && (!g.flights.isEmpty || awaitsCopies s k g)
  | _ => false

def teamStopped (s : State) (t : Nat) : Bool :=
  (match s.team? t with | some x => seqStopped x.seq | none => true) &&
  (s.groupsOfTeam t).all fun k => match s.group? k with | some g => groupStopped s k g | none => true

/-- Every group of a core that a pre-emption stops has reached a stop point: its MMLOOPs and copies stop only then, for a group
within a sheaf may still wait for one of them (R230, steps 2 and 3). -/
def groupsAtStop (s : State) (core : Nat) : Bool := (groupsOn s core).all fun p => p.2.st != .running || atStopPoint p.2

/-- Every unit on a core has stopped: its teams, with those of its whole grids, its engine, its L1. -/
def coreStopped (s : State) (core : Nat) : Bool :=
  let c := s.coreD core
  let ts := teamsOn s core
  let whole := (ts.map (·.2.grid)).filter fun g => match s.grid? g with | some x => x.kcb.whole | none => false
  c.preempt && c.misses.isEmpty && c.ldbWaits.isEmpty && c.engine.all EngineOp.isLoop &&
  (c.copyq.vals.flatten.all fun x => x.st != .line) &&
  (ts.all fun p => teamStopped s p.1) &&
  whole.all fun g => (s.teamsOfGrid g).all (teamStopped s) &&
    (match s.grid? g with | some x => seqStopped x.seq | none => true)

/-- A copy as it is saved: a stall or a line in flight starts anew. -/
def Copy.saved (c : Copy) : Copy :=
  { c with st := match c.st with | .escalated va => .escalated va | _ => .run, line := none }

/-- The delivered lines of a core go, not counted (R301). -/
def dropDelivered (s : State) (core vf : Nat) : State :=
  foldS s (grainsOf s core fun g b => b.vf == vf && (isState b g .du || isState b g .dr)) fun s g =>
    s.updCore core fun c => c.dropGrain g

/-- The units of a core. -/
def unitOn (core : Nat) : UnitId → Bool
  | .group k => coreOfGroup k == core
  | .team k => coreOfTeam k == core
  | .copyq k => k / 16 == core
  | .engine k => k == core
  | .grid _ | .queue _ => false

/-- The context of a core's teams as it is saved (R230): the model holds the save area as data of its own. Reports already
received are dropped (R283). -/
def Saved.of (s : State) (core vf n : Nat) : Saved :=
  let c := s.coreD core
  ⟨core, n, vf, c.pw, (teamsOn s core).map fun (p : Nat × Team) => (p.1, { p.2 with seq := { p.2.seq with reports := [] } }),
    groupsOn s core, c.stones, c.engine,
    c.copyq.map fun (p : Nat × List Copy) => (p.1, p.2.map Copy.saved), s.s2waits.filter fun w => unitOn core w.unit⟩

/-- The core's units are gone, its stones with them (R247); a whole grid gives up its grid sequencer. -/
def clearCore (s : State) (core : Nat) : State :=
  let ts := teamsOn s core
  let s := { s with
    grids := s.grids.map fun (p : Nat × Grid) =>
      let left := p.2.teams.filter fun t => coreOfTeam t != core
      (p.1, { p.2 with teams := left, gsNum := if left.isEmpty && left != p.2.teams then none else p.2.gsNum })
    teams := s.teams.filter fun (p : Nat × Team) => !ts.has p.1
    groups := s.groups.filter fun (p : Nat × Group) => coreOfGroup p.1 != core
    s2waits := s.s2waits.filter fun w => !unitOn core w.unit }
  s.updCore core fun c => { c with engine := [], copyq := [], views := [], preempt := false, stones := [], stonesVf := none }

def execContextSave (core : Nat) (s : State) : Out :=
  let c := s.coreD core
  match c.vf with
  | none => .next s
  | some vf =>
    if !coreStopped s core then .next s
    else
      let s := dropDelivered (flushCore s core vf false) core vf
      if (teamsOn s core).isEmpty then .next (weirDecide (s.updCore core fun c => { c with preempt := false }) core)
      else
        let sv := Saved.of s core vf (match c.vcore with | some n => n | none => 0)
        let s := clearCore s core
        let s := { s with saved := s.saved.set s.nextKey sv, nextKey := s.nextKey + 1 }
        let s := s.updCore core fun c => { c with vcore := none }
        .next (match c.giveTo with
          | some q => moveCore s core q
          | none => maskHams (numberPart s vf) vf)

/-! ### Restore (R231) -/

def moveKey (width new k : Nat) : Nat := new * width + k % width

def moveUnit (new : Nat) : UnitId → UnitId
  | .group k => .group (moveKey 64 new k)
  | .team k => .team (moveKey 16 new k)
  | .copyq k => .copyq (moveKey 16 new k)
  | .engine _ => .engine new
  | u => u

def Team.moved (new : Nat) (t : Team) : Team :=
  { t with core := new, groups := t.groups.map (moveKey 64 new), activeG := t.activeG.map (moveKey 64 new) }

def EngineOp.moved (new : Nat) (o : EngineOp) : EngineOp := { o with team := moveKey 16 new o.team, grp := moveKey 64 new o.grp }

/-- A copy goes on with its team. The targets of a multicast are resolved again, and a join copy is served alone (R305,
R307); a plain copy keeps the rings that it holds (R273). -/
def Copy.moved (new : Nat) (c : Copy) : Copy :=
  { c with
    team := moveKey 16 new c.team
    grp := moveKey 64 new c.grp
    alone := true
    targets := match c.kind with
      | .plain => c.targets.map fun ts => ts.map fun t => { t with team := moveKey 16 new t.team }
      | _ => none }

def Group.moved (new : Nat) (g : Group) : Group := { g with team := moveKey 16 new g.team }

/-- A core that may receive saved teams. -/
def mayRestore (s : State) (x : Saved) (core : Nat) : Bool :=
  (s.coreD core).vf == some x.vf && clusterOf core == clusterOf x.core && (teamsOn s core).isEmpty && !(s.coreD core).preempt &&
    (s.coreD core).giveTo.isNone

/-- Whether other saved teams of a grid are still to be restored. -/
def gridSaved (s : State) (g : Nat) : Bool := s.saved.any fun p => p.2.teams.any fun t => t.2.grid == g

/-- A free grid sequencer (R370). -/
def freeGridSeq (s : State) : Option Nat := (List.range 64).find? fun n => !(s.grids.any fun p => p.2.gsNum == some n)

/-- The views of the saved teams' contexts are loaded from the bells' homes. -/
def loadViews (s : State) (core : Nat) : State :=
  foldS s (teamsOn s core) fun s p => match s.grid? p.2.grid with
    | none => s
    | some g =>
      let bells := match s.ctxs.get? g.asid with | some c => c.bells | none => []
      s.updCore core fun c => c.loadTable g.asid bells

/-- A unit that only a pre-emption stopped continues; a debug stop stays. -/
def continueTeam (s : State) (t : Nat) : State :=
  let s := foldS s (s.groupsOfTeam t) fun s k => s.updGroup k fun g => if g.stopReq = .debug then g else g.unpark
  match s.seq? (.team t) with
  | some q => if q.stopReq = .debug then s else resumeSeq s (.team t)
  | none => s

/-- Teams restored to some cores continue: of a streamed grid those alone, of a whole grid all, with its sequencer (R231,
R374). -/
def continueGrid (s : State) (cores : List Nat) (g : Nat) : State :=
  match s.grid? g with
  | none => s
  | some x =>
    let s := foldS s ((s.teamsOfGrid g).filter fun t => x.kcb.whole || cores.contains (coreOfTeam t)) continueTeam
    if x.kcb.whole && x.seq.stopReq != .debug then resumeSeq s (.grid g) else s

/-- Groups and copies parked on a page being moved go on (R403, step 6). -/
def resumeMoved (s : State) : State :=
  let waits (u : UnitId) : Bool := s.s2waits.any fun w => w.unit == u
  foldS s s.groups fun s (p : Nat × Group) =>
    match p.2.st, p.2.sframe with
    | .escalated, some f => if f.quiet && !waits (.group p.1) then leaveSupervisor s p.1 else s
    | _, _ => s

/-- The grid sequencers that a partition's grids hold. -/
def seqsHeld (s : State) (vf : Nat) : Nat := (s.grids.filter fun p => p.2.vf == vf && p.2.gsNum.isSome).length

/-- The whole grids with teams among those saved under some keys. -/
def wholeSaved (s : State) (ks : List Nat) : List Nat :=
  ((ks.filterMap s.saved.get?).flatMap fun x => x.teams.map fun t => t.2.grid).eraseDups.filter fun g =>
    match s.grid? g with | some gr => gr.kcb.whole | none => false

/-- The saved cores that go back together: those that whole grids link (R231). -/
def restoreSet (s : State) : Nat → List Nat → List Nat
  | 0, ks => ks
  | n + 1, ks =>
    let gs := wholeSaved s ks
    match s.saved.keys.filter fun k => !ks.contains k && (wholeSaved s [k]).any gs.contains with
    | [] => ks
    | more => restoreSet s n (ks ++ more)

/-- A receiving core of its own for each of some saved cores. The spec does not say which eligible core: the first in physical
order (DESIGN CHOICE, assumption 80). -/
def assignCores (s : State) : List Nat → List Nat → Option (List (Nat × Nat))
  | [], _ => some []
  | k :: ks, used =>
    match s.saved.get? k with
    | none => none
    | some x => match (partCores s x.vf).find? fun c => !used.contains c && mayRestore s x c with
      | none => none
      | some c => (assignCores s ks (c :: used)).map ((k, c) :: ·)

/-- Whole grids find grid sequencers: each has all its teams saved, and GSMAX allows as many (R370, R374). -/
def seqsReady (s : State) (vf : Nat) (gs : List Nat) : Bool :=
  let need := gs.filter fun g => match s.grid? g with | some gr => gr.gsNum.isNone | none => false
  let free := (List.range 64).filter fun n => !(s.grids.any fun p => p.2.gsNum == some n)
  (gs.all fun g => (s.teamsOfGrid g).isEmpty) &&
    (need.isEmpty || (decide (need.length ≤ free.length) && decide (seqsHeld s vf + need.length ≤ gsmaxOf s vf)))

/-- The receiving cores of a restore that begins with a saved core on a core; none while it has to wait. -/
def restorePlan (s : State) (saved core : Nat) : Option (List (Nat × Nat)) :=
  match s.saved.get? saved with
  | none => none
  | some x =>
    let ks := restoreSet s s.saved.length [saved]
    if !mayRestore s x core || !seqsReady s x.vf (wholeSaved s ks) then none
    else (assignCores s (ks.filter (· != saved)) [core]).map ((saved, core) :: ·)

def takeSeqs (s : State) (gs : List Nat) : State :=
  foldS s gs fun s g => s.updGrid g fun x => { x with gsNum := match x.gsNum with | some n => some n | none => freeGridSeq s }

/-- One saved core goes onto its receiving core. -/
def restoreCore (s : State) (saved core : Nat) : State :=
  match s.saved.get? saved with
  | none => s
  | some x =>
    let s := flushCore s core x.vf true
    let s := reserveNumber s x.vf core (s.coreD core).vcore
    let s := s.updCore core fun c => { c with units := gateBeyond x.pw c.units }
    let s := { s with saved := s.saved.erase saved }
    let s := foldS s x.teams fun s p =>
      let t := { (p.2.moved core) with vcore := x.vcore }
      let k := moveKey 16 core p.1
      (s.setTeam k t).updGrid t.grid fun g =>
        { g with teams := g.teams ++ [k], cores := if g.cores.contains core then g.cores else g.cores ++ [core] }
    let s := foldS s x.groups fun s p => s.setGroup (moveKey 64 core p.1) (p.2.moved core)
    let s := s.updCore core fun c =>
      { c with
        vcore := some x.vcore
        pw := x.pw
        stones := x.stones
        stonesVf := some x.vf
        engine := x.engine.map (EngineOp.moved core)
        copyq := x.copyq.map fun (p : Nat × List Copy) => (p.1, p.2.map (Copy.moved core))
        wtlb := [] }
    let s := { s with s2waits := s.s2waits ++ x.waits.map fun w => { w with unit := moveUnit core w.unit } }
    loadViews (maskHams (numberPart s x.vf) x.vf) core

/-- The units that a saved core's teams lie in. -/
def savedUnits (s : State) (x : Saved) : List Nat := x.teams.vals.flatMap (teamUnitsAt s x.pw.toNat)

/-- The receiving cores of a plan whose units are gated or still wake (R223). -/
def asleepIn (s : State) (ps : List (Nat × Nat)) : List (Nat × List Nat) :=
  (ps.filterMap fun p => (s.saved.get? p.1).map fun x => (p.2, savedUnits s x)).filter fun p => sleeping s p.1 p.2

/-- The targets of the multicasts in a core's queues are fixed again (R305, R307). -/
def fixTargets (s : State) (core : Nat) : State :=
  s.updCore core fun c => { c with copyq := c.copyq.map fun (p : Nat × List Copy) => (p.1, p.2.map fun x =>
    match x.targets, copyGrid s x with
    | none, some (gr, _) => if x.readDone then { x with targets := some (targetsOf s (core * 16 + p.1) gr x) } else x
    | _, _ => x) }

/-- A restore of a saved core, with every other core that a whole grid of it needs; it waits for units that wake. -/
def execRestore (saved core : Nat) (s : State) : Out :=
  match restorePlan s saved core with
  | none => .next s
  | some ps =>
    if !(asleepIn s ps).isEmpty then .next (foldS s (asleepIn s ps) fun s p => wakeUnits s p.1 p.2)
    else
    let gs := ((ps.filterMap fun p => s.saved.get? p.1).flatMap fun x => x.teams.map fun t => t.2.grid).eraseDups
    let s := takeSeqs s (wholeSaved s (ps.map (·.1)))
    let s := foldS (foldS s ps fun s p => restoreCore s p.1 p.2) (ps.map (·.2)) fixTargets
    .next (resumeMoved (foldS s gs fun s g => continueGrid s (ps.map (·.2)) g))

/-! ### The deadline (R390) -/

/-- 10 µs, in ns. -/
def ns10us : Nat := 10000

/-- A partition below its floor that has a team waiting. -/
def isShort (s : State) (vf : Nat) : Bool :=
  decide ((partCores s vf).length < floorOf s vf) && hasWaiting s vf

/-- Whether DEADLINE has passed since a partition fell short. -/
def deadlineDue (s : State) (vf : Nat) : Bool :=
  isShort s vf && deadlineOf s vf != 0 &&
  match (s.vfs.get? vf).bind (·.shortSince) with
  | some t => decide (t + deadlineOf s vf * ns10us ≤ s.now)
  | none => false

/-- The cores of a partition that no other is to receive. -/
def keptCores (s : State) (vf : Nat) : List Nat := (partCores s vf).filter fun c => (s.coreD c).giveTo.isNone

def excess (s : State) (vf : Nat) : Nat := (keptCores s vf).length - floorOf s vf

/-- The cores that are to go to a partition once their teams are saved. -/
def coming (s : State) (vf : Nat) : Nat := (s.cores.filter fun p => p.2.giveTo == some vf).length

/-- The partition with the most cores above its floor; the lowest deficit on a tie. -/
def donor (s : State) (q : Nat) : Option Nat :=
  match s.vfs.keys.filter fun p => p != q && excess s p != 0 with
  | [] => none
  | v :: vs => some (vs.foldl (fun b v =>
      if excess s b < excess s v || (excess s b = excess s v && deficit s v < deficit s b) then v else b) v)

/-- Cores of donors, one donor after the other, until a partition is to reach its floor. -/
def takeCores (s : State) (vf : Nat) : Nat → State × List Nat
  | 0 => (s, [])
  | n + 1 =>
    let need := floorOf s vf - (partCores s vf).length - coming s vf
    if need = 0 then (s, [])
    else match donor s vf with
      | none => (s, [])
      | some p =>
        let cores := (keptCores s p).take (min need (excess s p))
        let (s, more) := takeCores (foldS s cores fun s c => s.updCore c fun x => { x with giveTo := some vf }) vf n
        (s, cores ++ more)

/-- R390. The spec does not say which cores of the donor: those of the lowest physical numbers (DESIGN CHOICE, assumption 80). -/
def meetDeadline (s : State) (vf : Nat) : State :=
  if !deadlineDue s vf then s
  else
    let (s, cores) := takeCores s vf s.vfs.length
    preemptCores { s with vfs := s.vfs.modify vf fun v => { v with shortSince := some s.now } } cores

end Sys2Proof.Machine
end

