-- ==== Sys2Proof/Machine/Launch.lean ====
section
/-! DEFINITION. Launching: completion and refusal words (R418, R460), launch records and their checks (R384, R385, R434),
the acceptance of a grid (R101, R371, R421), LAUNCH.T and LAUNCH.D (R383), and the device-launch queue. -/

namespace Sys2Proof.Machine

open Sys2Proof

/-! ### Words at SIGADDR (R460) -/

def refusalWord (code : Nat) : W64 := BitVec.ofNat 64 (2 ^ 63 + code)

def signalFault (s : State) (c : SigCtx) (addr : W64) (code cause : Nat) : State :=
  recordTo s c.queue
    { FRec.of cause 4 with wr := true, va := addr, detail := code, grid := c.grid, vf := c.vf, asid := c.asid }

/-- A word waits: for the repair of a second-stage fault, or for a link that is being drained. -/
def signalWaits (s : State) (c : SigCtx) (addr val : W64) (code : Nat) (two : Bool) : State :=
  { s with reeveWaits := s.reeveWaits ++ [⟨c.vf, addr, two, .word c val code⟩] }

/-- A word for a device that cannot be reached is lost, with its records (R405, R452). -/
def signalCut (s : State) (c : SigCtx) (addr : W64) (pa : Nat) : State :=
  let r := { reeveRecCut c.vf c.asid pa addr true with grid := c.grid }
  recordTo (recordTo s (s.adminOf 0) r) c.queue r

/-- Writes a completion, refusal or abort word, as a release store at the word's scope; where the address does not serve, a fault
record goes instead. A second-stage fault is reported to the physical function alone, and the word waits (R398). -/
def signalWord (s : State) (c : SigCtx) (addr val : W64) (code : Nat) : State :=
  if addr.toNat % 8 ≠ 0 then signalFault s c addr code 0x0D
  else if !vaOk addr then signalFault s c addr code 0x0B
  else
    let (s, r) := reeveAddr s c.vf c.asid addr.toNat .wr
    match r with
    | .ok x =>
      if s.cutOff x.pa then signalCut s c addr x.pa
      else if s.pathHeld x.pa 0 then signalWaits s c addr val code false
      else reeveStore s c.vf x.pa (leBytes 8 val.toNat) c.sys
    | .prot => signalFault s c addr code 0x0C
    | .page _ _ => signalFault s c addr code 0x0B
    | .stage2 l ipa =>
      signalWaits (recordTo s (s.adminOf 0) { reeveRec2 c.vf c.asid l ipa addr true with grid := c.grid }) c addr val code true

/-! ### Launch records (R384) -/

structure LaunchRec where
  kcb : Nat
  x : Nat
  y : Nat
  z : Nat
  flags : Nat
  sigaddr : W64
  sigval : W64
  args : List W64
  deriving DecidableEq, Repr

def LaunchRec.of (bs : List Byte) : LaunchRec :=
  { kcb := fieldAt bs 0x00 8
    x := fieldAt bs 0x08 2
    y := fieldAt bs 0x0A 2
    z := fieldAt bs 0x0C 2
    flags := fieldAt bs 0x0E 2
    sigaddr := BitVec.ofNat 64 (fieldAt bs 0x10 8)
    sigval := BitVec.ofNat 64 (fieldAt bs 0x18 8)
    args := (List.range 8).map fun i => BitVec.ofNat 64 (fieldAt bs (0x40 + 8 * i) 8) }

def LaunchRec.sig (r : LaunchRec) : Bool := r.flags % 2 == 1

/-- Code 0x01: bytes 0x20 to 0x3F belong to the packet of a host launch. -/
def recDefect (bs : List Byte) (host : Bool) : Bool :=
  let r := LaunchRec.of bs
  decide (2 ≤ r.flags) || r.x == 0 || r.y == 0 || r.z == 0 || r.sigval.msb || r.kcb % 64 != 0 || r.sigaddr.toNat % 8 != 0 ||
    (!host && !zeroAt bs 0x20 32)

/-! ### The checks of a launch (R385, R434) -/

/-- The control block at an address of a context: one that a loaded object defines there. An object is loaded once the invalidation
of its load is complete (R441, R442). -/
def loadedKcb (s : State) (vf asid addr : Nat) : Option Kcb :=
  if s.objs.any fun o => o.2.vf == vf && o.2.asid == asid && o.2.kcbs.contains addr && !(s.invals.any fun v => v.done == .load o.1) then
    match translateWalk s asid addr .rd with
    | .ok x => some (Kcb.of (peek s x.pa kcbBytes))
    | _ => none
  else none

/-- A whole grid fits the partition's floor with those cores empty (R376). -/
def fitsFloor (s : State) (vf : Nat) (k : Kcb) (x y z : Nat) : Bool :=
  decide (x * y * z ≤ floorOf s vf * k.columnsPerCore)

/-- The refusal code of a launch, or what it launches. Where several refusals apply the spec does not say which code is given:
the first of 0x01, 0x02, 0x03 and 0x04 (DESIGN CHOICE, assumption 80). -/
def launchCheck (s : State) (vf asid : Nat) (bs : List Byte) (host : Bool) : Except Nat (LaunchRec × Kcb) :=
  let r := LaunchRec.of bs
  if recDefect bs host then .error 0x01
  else match loadedKcb s vf asid r.kcb with
    | none => .error 0x02
    | some k =>
      if k.txmax < r.x || k.tymax < r.y || k.tzmax < r.z || decide ((partCores s vf).length < k.vgrid) then .error 0x02
      else if k.whole && !fitsFloor s vf k r.x r.y r.z then .error 0x03
      else if k.reqfeat &&& ~~~(match s.vfs.get? vf with | some v => v.accepted | none => 0) != 0 then .error 0x04
      else .ok (r, k)

/-! ### Accepting a grid -/

/-- A sequencer with its first version. -/
def Seq.start (st : SeqSt) (pc : W64) (regs : Tab W64) : Seq :=
  ⟨Ctl.start pc, st, st, .none, none, [(0, ⟨regs, 0⟩)], 0, none, [], none, false, none, none⟩

/-- g0 to g7 hold the arguments, g8 to g31 zero (R101, R371). -/
def argRegs (args : List W64) : Tab W64 := (args.zipIdx.filter fun (p : W64 × Nat) => p.1 != 0).map fun p => (p.2, p.1)

/-- A number that no grid of the function that has not ended carries (R421). -/
def gridNumber (s : State) (vf start : Nat) : Nat → Nat
  | 0 => start
  | n + 1 =>
    if start = 0 || s.grids.any fun p => p.2.vf == vf && p.2.num == start then gridNumber s vf ((start + 1) % 2 ^ 32) n else start

def newGrid (vf asid num : Nat) (r : LaunchRec) (k : Kcb) (host : Bool) (queue : Nat) : Grid :=
  { num := num, vf := vf, asid := asid, kcb := k, kcbAddr := r.kcb, x := r.x, y := r.y, z := r.z, args := r.args
    sig := r.sig, sigaddr := r.sigaddr, sigval := r.sigval, host := host, queue := queue, st := .waiting, gsNum := none
    seq := Seq.start .fetch k.entry (argRegs r.args), nextTeam := 0, lastV := none, teams := [], cores := [], retired := 0
    debugStop := false, dataErr := false, abortCode := none }

/-- The dispatcher accepts a grid: the new state and the grid's key, in order of acceptance. -/
def acceptGrid (s : State) (vf asid : Nat) (r : LaunchRec) (k : Kcb) (host : Bool) (queue : Nat) : State × Nat :=
  let next := match s.vfs.get? vf with | some v => v.nextGrid | none => 1
  let num := gridNumber s vf next (s.grids.length + 2)
  let s' := s.setGrid s.nextKey (newGrid vf asid num r k host queue)
  let s' := { s' with vfs := s'.vfs.modify vf fun v => { v with nextGrid := (num + 1) % 2 ^ 32 } }
  (s'.bumpKey, s.nextKey)

/-! ### LAUNCH (R383) -/

/-- The issuing group: the lowest-numbered of a team that has not retired. -/
def issuingGroup (s : State) (t : Nat) : Option Nat :=
  match s.team? t with
  | none => none
  | some x =>
    let gid (k : Nat) : Nat := match s.group? k with | some g => g.gid | none => 0
    match x.activeG with
    | [] => none
    | k :: ks => some (ks.foldl (fun b k => if gid k < gid b then k else b) k)

/-- The lowest-numbered team of a grid that has not retired. -/
def lowestTeam (s : State) (g : Nat) : Option Nat :=
  let num (t : Nat) : Nat := match s.team? t with | some x => x.member | none => 0
  match s.teamsOfGrid g with
  | [] => none
  | t :: ts => some (ts.foldl (fun b t => if num t < num b then t else b) t)

def issuingTeam (s : State) : UnitId → Option Nat
  | .team t => some t
  | .grid g => lowestTeam s g
  | _ => none

/-- The team has reported its run end to the grid (R383). -/
def teamAtEnd (s : State) (t : Nat) : Bool :=
  match s.team? t with
  | some x => x.seq.st == .upwait && x.race.isEmpty
  | none => true

/-- The issuing group has ended its run, and its accesses and deliveries are performed (R190, R303). -/
def launchReady (s : State) (u : UnitId) : Bool :=
  match issuingTeam s u with
  | none => true
  | some t =>
    (match u with | .grid _ => teamAtEnd s t | _ => true) &&
    match (issuingGroup s t).bind s.group? with
    | none => true
    | some g => g.st == .idle && g.race.isEmpty && g.rels.isEmpty && g.unsettled.isEmpty &&
        g.flights.all fun f => !f.mem || f.wait == 0

def launchRelease (s : State) (u : UnitId) : State :=
  match issuingTeam s u with
  | none => s
  | some t => releaseAt s (coreOfTeam t) (vfOf s u) .dev

/-- The 128 bytes of the record, through the sequencer's core or at the home; none where it must wait. -/
def readRec (s : State) (u : UnitId) (x : Xlat) : State × Option (List Byte) :=
  (List.range 4).foldl (fun (r : State × Option (List Byte)) i =>
    match r with
    | (s, none) => (s, none)
    | (s, some bs) => match seqLoad s u { x with pa := x.pa + 32 * i } 32 with
      | (s, some b) => (s, some (bs ++ b))
      | (s, none) => (s, none)) (s, some [])

def launchEntries : Nat := 32

/-- The record takes an entry of the partition's device-launch queue, or waits for one. -/
def placeRecord (s : State) (u : UnitId) (bs : List Byte) : State :=
  let vf := vfOf s u
  let q := match s.gridOf u with | some g => (match s.grid? g with | some x => x.queue | none => 0) | none => 0
  match s.vfs.get? vf with
  | none => s
  | some v =>
    if v.launchq.length < launchEntries then
      let e : LaunchEnt := ⟨bs, s.asidOf u, q, none⟩
      (seqDone { s with vfs := s.vfs.set vf { v with launchq := v.launchq ++ [e] } } u
        (match s.ctl? u with | some c => nextSlot c.pc | none => 0)).post [.launchRecordValidation vf]
    else s.updSeq u fun q => { q with st := .launch, heldRec := some bs }

def launchOp (s : State) (i : Instr) (b : SReg) : Out :=
  withUnit s i
    (fun ix => .next (takeFault s (.group ix.x.k) (trap cRun)))
    (fun u =>
      if !launchReady s u then .next s
      else
        let a := seqRead s u i b
        memSeq (launchRelease s u) u .rd 128 a fun s x =>
          match readRec s u x with
          | (s, some bs) => .next (placeRecord s u bs)
          | (s, none) => .next s)

def execLaunchT (b : SReg) (s : State) : Out := launchOp s (.launchT b) b
def execLaunchD (b : SReg) (s : State) : Out := launchOp s (.launchD b) b

/-! ### The device-launch queue (R383, R385) -/

/-- The LAUNCH that takes a freed entry. The spec does not say which of several that wait: team sequencers by key, then grid
sequencers (DESIGN CHOICE, assumption 80). -/
def waitingLaunch (s : State) (vf : Nat) : Option UnitId :=
  let here (q : Seq) (gk : Nat) : Bool := q.st == .launch && (match s.grid? gk with | some g => g.vf == vf | none => false)
  match s.teams.find? fun p => here p.2.seq p.2.grid with
  | some p => some (.team p.1)
  | none => (s.grids.find? fun p => here p.2.seq p.1).map fun p => .grid p.1

/-- When an entry frees the spec does not say: once its grid is wholly placed, aborted or ended (DESIGN CHOICE, assumption
80). -/
def entryPlaced (s : State) (e : LaunchEnt) : Bool :=
  match e.grid with
  | none => false
  | some k => match s.grid? k with
    | some g => decide (g.total ≤ g.nextTeam) || g.abortCode.isSome
    | none => true

/-- Entries that are free leave; a LAUNCH that waits then places its record. -/
def execLaunchQueueEntryFreed (vf : Nat) (s : State) : Out :=
  match s.vfs.get? vf with
  | none => .next s
  | some v =>
    let s := { s with vfs := s.vfs.set vf { v with launchq := v.launchq.filter fun e => !entryPlaced s e } }
    match waitingLaunch s vf with
    | none => .next s
    | some u =>
      match (s.seq? u).bind (·.heldRec) with
      | none => .next s
      | some bs => .next (placeRecord (s.updSeq u fun q => { q with st := .fetch, heldRec := none }) u bs)

/-- Validates the oldest record that has not been: the child is accepted, or refused with its code. -/
def execLaunchRecordValidation (vf : Nat) (s : State) : Out :=
  match s.vfs.get? vf with
  | none => .next s
  | some v =>
    match v.launchq.zipIdx.find? fun e => e.1.grid.isNone with
    | none => .next s
    | some (e, i) =>
      let s := fillFor s vf e.asid (LaunchRec.of e.bytes).kcb
      match launchCheck s vf e.asid e.bytes false with
      | .ok (r, k) =>
        let (s, g) := acceptGrid s vf e.asid r k false e.queue
        .next { s with vfs := s.vfs.modify vf fun v =>
          { v with launchq := v.launchq.mapIdx fun n e => if n = i then { e with grid := some g } else e } }
      | .error code =>
        let r := LaunchRec.of e.bytes
        let s := { s with vfs := s.vfs.modify vf fun v => { v with launchq := v.launchq.eraseIdx i } }
        let q := if s.queues.has e.queue then some e.queue else s.adminOf vf
        let s := if r.sig then signalWord s ⟨q, vf, e.asid, 0, false⟩ r.sigaddr (refusalWord code) code else s
        .next (s.post [.launchQueueEntryFreed vf])

end Sys2Proof.Machine
end

