-- ==== Sys2Proof/Machine/Placement.lean ====
section
/-! DEFINITION. The dispatcher (R375 to R381): starting teams and groups (R16 to R20, R211 to R218, R295, R332, R386),
their retirement (R21, R118, R272), and the end of a grid (R370, R382). -/

namespace Sys2Proof.Machine

open Sys2Proof

/-! ### A group and a team at their start -/

/-- A register of W ones. -/
def onesW (w : Nat) : W64 := BitVec.ofNat 64 (2 ^ w - 1)

/-- A group as it starts: registers zero, m0 and SR.LIVE of W ones, window 0, flags 0. Its instruction numbers follow
every number used before under its key. -/
def Group.start (team gid : Nat) (k : Kcb) (now key : Nat) : Group :=
  { team := team, gid := gid, w := k.width, alloc := k.vregs, v := [], sreg := [], m := [(0, onesW k.width)]
    live := onesW k.width, vwb := 0, ctl := Ctl.start k.entry, st := .idle, stopReq := .none, run := none, race := []
    flags := [], pendV := [], pendS := [], pendM := [], flights := [], nextFlight := key, lastIssue := now, age := 2 * now, issue := none
    fstat := 0, gen := [], sframe := none, hold := none, rels := [], recs := none, acks := [], unsettled := [], banks := [], remotes := [] }

/-- Coordinates and stage of a member number (R375). -/
def Grid.coord (g : Grid) (n : Nat) : Nat × Nat × Nat × Nat :=
  (n % g.x, n / g.x % g.y, n / (g.x * g.y) % g.z, n / (g.x * g.y * g.z))

/-- h0 at the start of a team: every core of the partition in the cluster (R295). -/
def fullHamlet (s : State) (core vf : Nat) : W128 :=
  ((List.range 128).filter fun i => (clusterCore s core vf i).isSome).foldl (fun m i => m ||| ((1 : W128) <<< i)) 0

/-- The run that a team of a streamed grid receives: the whole code range (R377). -/
def Grid.wholeRun (g : Grid) : Run := ⟨g.kcb.entry, g.kcb.rangeEnd, 0, .none, false⟩

def Team.start (s : State) (gk : Nat) (g : Grid) (core : Nat) (p : Spot) (n : Nat) : Team :=
  let (x, y, z, st) := g.coord n
  let ks := p.seqs.map (core * 64 + ·)
  { core := core, slot := p.slot, grid := gk, member := n, x := x, y := y, z := z, stage := st
    vcore := match (s.coreD core).vcore with | some v => v | none => 0
    seq := if g.kcb.whole then Seq.start .upwait g.kcb.entry []
      else { Seq.start .fetch g.kcb.entry [] with run := some g.wholeRun }
    race := [], groups := ks, activeG := ks, ham := [(0, fullHamlet s core g.vf)], bellto := 0x1000
    sp := [], spBase := p.sp, spSize := g.kcb.spNeed, rfBase := p.rf, rfSize := g.kcb.rfNeed, acc := [], accBase := p.acc
    barRec := [] }

/-- A core that has no resident team takes the partition word, beyond whose shares units are gated (R215), and clears its
stones for another partition (R216, R233). -/
def takeCore (s : State) (core vf : Nat) (k : Kcb) : State :=
  if !(teamsOn s core).isEmpty then s
  else s.updCore core fun c =>
    { c with
      pw := k.pw
      units := gateBeyond k.pw c.units
      stones := if c.stonesVf = some vf then c.stones else []
      stonesVf := some vf }

/-- The context's view table, loaded from the bell table (R332). -/
def takeViews (s : State) (core asid : Nat) : State :=
  let bells : Tab W32 := match s.ctxs.get? asid with | some c => c.bells | none => []
  s.updCore core fun c => c.loadTable asid bells

/-- Places one team with its groups; a device-launched child's core acquires at .DEV first (R386). -/
def placeTeam (s : State) (gk core : Nat) (p : Spot) (n : Nat) : State :=
  match s.grid? gk with
  | none => s
  | some g =>
    let s := takeViews (takeCore s core g.vf g.kcb) core g.asid
    let s := if g.host then s else acquireAt s core g.vf .dev
    let tk := core * 16 + p.slot
    let t := Team.start s gk g core p n
    let s := s.setTeam tk t
    let s := foldS s t.groups.zipIdx fun s (e : Nat × Nat) =>
      (s.setGroup e.1 (Group.start tk e.2 g.kcb s.clk s.nextKey)).bumpKey
    s.updGrid gk fun g =>
      { g with teams := g.teams ++ [tk], cores := if g.cores.contains core then g.cores else g.cores ++ [core] }

/-! ### Where a team fits (R216, R217, R223, R332) -/

/-- What a core offers a kernel: its use, or none where it may not take the kernel's teams at all. -/
def offerOf (s : State) (core asid : Nat) (k : Kcb) : Option CoreUse :=
  let c := s.coreD core
  if c.vcore.isNone || c.preempt || c.giveTo.isSome then none
  else if !(teamsOn s core).isEmpty && c.pw != k.pw then none
  else if !c.views.has asid && decide (4 ≤ c.views.length) then none
  else some (coreUse s core)

/-- The pool units that a placement covers (R215). -/
def unitsOf (k : Kcb) (p : Spot) : List Nat :=
  spanUnits p.rf k.rfNeed ++ (spanUnits p.sp k.spNeed).map (k.rfu + ·) ++ (List.range k.uacc).map (k.rfu + k.spu + p.acc + ·)

/-! ### TEAM_PLACEMENT (R379) -/

def insertPair (x : Nat × Nat) : List (Nat × Nat) → List (Nat × Nat)
  | [] => [x]
  | y :: ys => if x.1 ≤ y.1 then x :: y :: ys else y :: insertPair x ys

/-- The partition's numbered cores in the order of the search: from the number after the last one, cyclically. -/
def searchOrder (s : State) (vf : Nat) (last : Option Nat) : List Nat :=
  let all : List (Nat × Nat) := (partCores s vf).filterMap fun c => (s.coreD c).vcore.map fun v => (v, c)
  let sorted : List (Nat × Nat) := all.foldr insertPair []
  let after : List (Nat × Nat) := match last with
    | none => sorted
    | some l => (sorted.filter fun p => decide (l < p.1)) ++ sorted.filter fun p => decide (p.1 ≤ l)
  after.map (·.2)

/-- The first core that fits, with the place on it. -/
def findCore (s : State) (asid : Nat) (k : Kcb) : List Nat → Option (Nat × Spot)
  | [] => none
  | c :: cs =>
    match (offerOf s c asid k).bind fun u => u.add k with
    | some (_, p) => some (c, p)
    | none => findCore s asid k cs

/-- Saved teams of a streamed grid, whose member numbers are lower, go back before more of it are placed (R378). -/
def execTeamPlacement (grid : Nat) (s : State) : Out :=
  match s.grid? grid with
  | none => .fault .noSuchUnit
  | some g =>
    if g.kcb.whole || !mayPlace s grid g || gridSaved s grid then .next s
    else match findCore s g.asid g.kcb (searchOrder s g.vf g.lastV) with
      | none => .next s
      | some (core, p) =>
        if sleeping s core (unitsOf g.kcb p) then .next (wakeUnits s core (unitsOf g.kcb p))
        else
          let n := g.nextTeam
          let s := s.updGrid grid fun g => { g with st := .running, nextTeam := n + 1, lastV := (s.coreD core).vcore }
          let s := placeTeam s grid core p n
          .next (if n + 1 = g.total && !g.host then s.post [.launchQueueEntryFreed g.vf] else s)

/-! ### WHOLE_GRID_PLACEMENT (R370, R376, R380) -/

/-- The place of a column: its core, the spots of its stages, its rings' storage. -/
structure ColSpot where
  core : Nat
  spots : List Spot
  rings : List Nat
  deriving DecidableEq, Repr

/-- The units that a column covers, its rings included. -/
def ColSpot.units (k : Kcb) (p : ColSpot) : List Nat :=
  p.spots.flatMap (unitsOf k) ++ (k.ringList.zip p.rings).flatMap fun e => (spanUnits e.2 e.1.2.2).map (k.rfu + ·)

/-- The lowest-numbered core that holds a column, with what is in use then. -/
def findColumn (k : Kcb) : List (Nat × CoreUse) → Option (ColSpot × Nat × CoreUse)
  | [] => none
  | (c, u) :: cs =>
    match u.addColumn k with
    | some (u', ps, rs) => some (⟨c, ps, rs⟩, c, u')
    | none => findColumn k cs

/-- Places for a number of columns, in walk order. -/
def findColumns (k : Kcb) : Nat → List (Nat × CoreUse) → Option (List ColSpot)
  | 0, _ => some []
  | n + 1, us =>
    match findColumn k us with
    | none => none
    | some (p, c, u) => (findColumns k n (us.map fun e => if e.1 = c then (c, u) else e)).map (p :: ·)

def newRing (gk col : Nat) (k : Kcb) (base : Nat) (e : Nat × Nat × Nat) : Ring :=
  let f := k.feeds.getD e.2.1 (0, 0)
  ⟨gk, col, e.1, e.2.1, f.2, List.replicate f.1 .free, 0, 0, [], [], [], base⟩

/-- Places every team of a whole grid: member numbers run through the columns of each stage in turn. -/
def placeColumns (s : State) (gk : Nat) (g : Grid) (ps : List ColSpot) : State :=
  let s := { s with rings := s.rings ++ ps.zipIdx.flatMap fun (p : ColSpot × Nat) =>
    (g.kcb.ringList.zip p.1.rings).map fun e => newRing gk p.2 g.kcb e.2 e.1 }
  foldS s (List.range g.kcb.stages) fun s st =>
    foldS s ps.zipIdx fun s (p : ColSpot × Nat) =>
      match p.1.spots[st]? with
      | some sp => placeTeam s gk p.1.core sp (p.2 + g.x * g.y * g.z * st)
      | none => s

def execWholeGridPlacement (grid : Nat) (s : State) : Out :=
  match s.grid? grid with
  | none => .fault .noSuchUnit
  | some g =>
    let cols := g.x * g.y * g.z
    if !g.kcb.whole || !mayPlace s grid g || gsmaxOf s g.vf ≤ seqsHeld s g.vf || 8192 < cols then .next s
    else match freeGridSeq s, findColumns g.kcb cols ((searchOrder s g.vf none).filterMap fun c =>
        (offerOf s c g.asid g.kcb).map fun u => (c, u)) with
      | some n, some ps =>
        let asleep := ps.filter fun p => sleeping s p.core (p.units g.kcb)
        if !asleep.isEmpty then .next (foldS s asleep fun s p => wakeUnits s p.core (p.units g.kcb))
        else
          let s := s.updGrid grid fun g => { g with st := .running, gsNum := some n, nextTeam := g.total }
          let s := placeColumns s grid g ps
          .next (if g.host then s else s.post [.launchQueueEntryFreed g.vf])
      | _, _ => .next s

/-! ### The end of a grid (R382) -/

/-- Step 1: a core writes back its dirty S, window and host-memory grains of the partition. -/
def endCore (s : State) (vf core : Nat) : State :=
  foldS s (grainsOf s core fun g b => b.vf == vf && !(b.dirty g).isEmpty && (b.prot == .s || b.prot == .w || b.hs))
    fun s g => flushGrain s core g

/-- Every team has been placed and has retired, here or among the saved. -/
def gridOver (s : State) (gk : Nat) (g : Grid) : Bool :=
  decide (g.total ≤ g.nextTeam) && g.teams.isEmpty && !gridSaved s gk

/-- The cores of a grid whose last team has retired report: an event, whose handler ends the grid. -/
def endGridIfOver (s : State) (gk : Nat) : State :=
  match s.grid? gk with
  | none => s
  | some g =>
    if g.st = .running && gridOver s gk g then
      (foldS (s.updGrid gk fun g => { g with st := .ending }) g.cores fun s c => endCore s g.vf c).raise .gridEnd g.vf (some g.queue)
    else s

/-- The grid's word, its sequencer and its place in the queues are done with (R382, R418, R421). -/
def closeGrid (s : State) (gk : Nat) (g : Grid) : State :=
  let val := match g.abortCode with | some c => refusalWord c | none => g.sigval
  let code := match g.abortCode with | some c => c | none => 0
  let s := if g.sig then signalWord s ⟨queueOfGrid s g, g.vf, g.asid, g.num, g.host⟩ g.sigaddr val code else s
  let s := { s with grids := s.grids.erase gk, rings := s.rings.filter fun r => r.grid != gk }
  if g.host then s else s.post [.launchQueueEntryFreed g.vf]

/-! ### Retirement (R21, R118) -/

/-- The rings of a column go with the last of its teams (R272). -/
def dropRings (s : State) (gk col : Nat) : State :=
  let inUse := s.teams.any fun p => p.2.grid == gk && (match s.grid? gk with | some g => columnOf g p.2 == col | none => false)
  if inUse then s else { s with rings := s.rings.filter fun r => !(r.grid == gk && r.column == col) }

/-- A context's view table goes with the last of its teams on the core (R332). -/
def dropViews (s : State) (core asid : Nat) : State :=
  let inUse := (teamsOn s core).any fun p => match s.grid? p.2.grid with | some g => g.asid == asid | none => false
  if inUse then s else s.updCore core fun c => { c with views := c.views.erase asid }

/-- What a team's end leaves on its core: nothing resident leads to the weir's decision. -/
def freeCore (s : State) (core : Nat) : State :=
  if (teamsOn s core).isEmpty then
    let vf := (s.coreD core).vf
    let s := weirDecide s core
    match vf with
    | some v => if partIdle s v then renumber s v else s
    | none => s
  else s

/-- A team whose last group has retired retires: its resources are free. -/
def retireTeam (s : State) (tk : Nat) : State :=
  match s.team? tk with
  | none => s
  | some t =>
    let g? := s.grid? t.grid
    let s := unparkParent (s.updSeq (.team tk) fun q => { q with st := .done, route := none, ctl := { q.ctl with frame := none } }) (.team tk)
    let s := { s with teams := s.teams.erase tk }
    let s := s.updGrid t.grid fun g => { g with teams := g.teams.filter (· != tk), retired := g.retired + 1 }
    let s := match g? with
      | some g => dropViews (dropRings (s.post ((s.rings.filter fun r => r.grid == t.grid && r.column == columnOf g t).flatMap
          fun r => feedWaits s r.id)) t.grid (columnOf g t)) t.core g.asid
      | none => s
    let s := afterEnd (afterTake s (.grid t.grid)) (.grid t.grid)
    freeCore (endGridIfOver s t.grid) t.core

/-- Its flags are zero, and its stores and deliveries performed. R21 asks for .GRP; stores to other devices are waited for until
they are acknowledged, so that the end of the grid has them performed (R382; DEDUCED, assumption 93). -/
def retireReady (g : Group) : Bool := g.drained && g.rels.isEmpty && g.unsettled.isEmpty && g.acks.isEmpty

/-- The clks in which a group's last slot occupies its quadrant are over: its sequencer is free then (R212, R213). -/
def slotOver (s : State) (g : Group) : Bool :=
  match g.issue with
  | some r => decide (r.clk + (if g.w = 64 then 1 else 0) < s.clk)
  | none => true

def execGroupRetirement (g : Nat) (s : State) : Out :=
  match s.gctx g with
  | none => .fault .noSuchUnit
  | some x =>
    let last := (s.groupsOfTeam x.g.team).all (· == g)
    if x.g.st ≠ .retiring || !retireReady x.g || !slotOver s x.g || awaitsCopies s g x.g then .next s
    else
      let s := leaveQueues { s with groups := s.groups.erase g } g
      let s := s.updTeam x.g.team fun t => { t with groups := t.groups.filter (· != g) }
      let s := afterEnd (afterTake s (.team x.g.team)) (.team x.g.team)
      .next (if last then retireTeam s x.g.team else s)

end Sys2Proof.Machine
end

