-- ==== Sys2Proof/Machine/Queues.lean ====
section
/-! DEFINITION. User queues (R410 to R420): control blocks, doorbells, packets, errors, slots, parking and waking. -/

namespace Sys2Proof.Machine

open Sys2Proof

/-! ### Mapping (R412, R420) -/

/-- 2 ms and 100 µs, in ns. -/
def ns2ms : Nat := 2000000
def ns100us : Nat := 100000

/-- The privileged part of a control block (R411). -/
def Queue.priv (q : Queue) : List Byte :=
  leBytes 8 q.rbase.toNat ++ leBytes 1 q.rsize ++ leBytes 1 q.prio ++ leBytes 2 q.asid ++ leBytes 2 q.dbidx ++ leBytes 2 q.vf ++
    leBytes 8 q.evbase.toNat ++ leBytes 1 q.esize ++ List.replicate 39 0

/-- R412: the copy in memory is compared, a difference is logged, and the part is rewritten. -/
def checkTamper (s : State) (k : Nat) (q : Queue) : State :=
  let (s, bs) := devRead s (q.qcb + 0x40) 64
  let diff := (List.range 64).filter fun i => bs.getD i 0 != q.priv.getD i 0
  if diff.isEmpty then s
  else
    let s := { s with fw := { s.fw with tamper := s.fw.tamper ++ [(q.vf, k, diff.map (· + 0x40))] } }
    devWrite s (q.qcb + 0x40) q.priv

/-- R420: a pending queue's effective priority. -/
def effPrio (s : State) (q : Queue) : Nat :=
  match q.pending with
  | some t => min 15 (q.prio + (s.now - t) / ns2ms)
  | none => q.prio

/-- A queue goes into error (R415). -/
def queueError (s : State) (k code : Nat) : State :=
  let s := s.updQueue k fun q => { q with err := true, ecode := code, slot := none, pending := none, unmapReq := false }
  match s.queues.get? k with
  | some q => s.raise .fault q.vf (some k)
  | none => s

/-- The slot reads WPTR with an acquire at .SYS (R414); too far ahead is an error. -/
def readWptr (s : State) (k : Nat) : State :=
  match s.queues.get? k with
  | none => s
  | some q =>
    let (s, bs) := devRead s q.qcb 8
    let w := leNat bs
    if 2 ^ q.rsize < (w + 2 ^ 64 - q.rptr) % 2 ^ 64 then queueError s k 0x02
    else { s with queues := s.queues.set k { q with wptr := w } }

/-- A queue takes a slot. -/
def mapQueue (s : State) (k : Nat) (slot : Nat) : State :=
  match s.queues.get? k with
  | none => s
  | some q =>
    let s := checkTamper s k q
    readWptr (s.updQueue k fun q => { q with slot := some slot, pending := none, mappedAt := s.now, resident := false, parked := false, watch := none }) k

/-- Whether packets are left in a queue. -/
def Queue.holds (q : Queue) : Bool := q.rptr != q.wptr

/-- A queue gives up its slot; one that holds packets is pending at once. -/
def unmapQueue (s : State) (k : Nat) : State :=
  s.updQueue k fun q => { q with slot := none, unmapReq := false, pending := if q.holds then some s.now else none, levels := 0 }

def mappedOf (s : State) (vf : Nat) : Tab Queue := s.queues.filter fun p => p.2.vf == vf && p.2.slot.isSome

def quotaOf (s : State) (vf : Nat) : Nat := match s.vfs.get? vf with | some v => v.quota | none => 0

def freeSlot (s : State) : Option Nat := (List.range 128).find? fun n => !(s.queues.any fun p => p.2.slot == some n)

/-- The victim among a function's mapped queues: empty ones first, then the lowest priority (R420, step 3). -/
def victim (s : State) (vf : Nat) : Option (Nat × Queue) :=
  let all := mappedOf s vf
  let empty := all.filter fun p => !p.2.holds
  let old := all.filter fun p => decide (p.2.mappedAt + ns2ms ≤ s.now)
  match (if empty.isEmpty then old else empty) with
  | [] => none
  | p :: ps => some (ps.foldl (fun (b : Nat × Queue) q => if q.2.prio < b.2.prio then q else b) p)

/-- Maps one pending queue, or asks its victim to be unmapped. -/
def mapOne (s : State) (k : Nat) : State :=
  match s.queues.get? k with
  | none => s
  | some q =>
    match q.pending with
    | none => s
    | some _ =>
      if (mappedOf s q.vf).length < quotaOf s q.vf then
        match freeSlot s with
        | some n => mapQueue s k n
        | none => s
      else match victim s q.vf with
        | some (v, x) => if x.prio < effPrio s q then { s with queues := s.queues.modify v fun x => { x with unmapReq := true } } else s
        | none => s

/-- The pending queues: highest effective priority first, then the one pending longest. -/
def pendingOrder (s : State) : List Nat :=
  let before (a b : Nat × Queue) : Bool :=
    decide (effPrio s b.2 < effPrio s a.2) || (effPrio s a.2 == effPrio s b.2 && decide (a.2.pending.getD 0 ≤ b.2.pending.getD 0))
  let rec put (x : Nat × Queue) : List (Nat × Queue) → List (Nat × Queue)
    | [] => [x]
    | y :: ys => if before x y then x :: y :: ys else y :: put x ys
  ((s.queues.filter fun p => p.2.pending.isSome).foldr put []).map (·.1)

/-- What a reeve does on every event: maps pending queues, one at a time (R420). -/
def mapQueues (s : State) : State := foldS s (pendingOrder s) mapOne

def setPending (s : State) (k : Nat) : State :=
  s.updQueue k fun q => if q.pending.isSome then q else { q with pending := some s.now, levels := 0 }

/-! ### Doorbells (R419) -/

/-- A function that the device serves (R425, R427). -/
def State.serves (s : State) (vf : Nat) : Bool :=
  s.fw.stage == 5 && (match s.vfs.get? vf with | some v => v.ready | none => false)

def execDoorbell (vf d : Nat) (s : State) : Out :=
  if !s.serves vf then .next s
  else match s.queues.find? fun p => p.2.vf == vf && p.2.dbidx == d with
    | none => .next s
    | some (k, q) =>
      if q.err then .next s
      else if q.slot.isSome then .next (readWptr s k)
      else .next ((setPending s k).raise .kick vf (some k))

/-! ### Packets (R413, R415) -/

/-- The address of the packet at the head. -/
def Queue.headVa (q : Queue) : Nat := (q.rbase.toNat + 128 * (q.rptr % 2 ^ q.rsize)) % 2 ^ 64

/-- The translation of an address of a queue's context. -/
def queueXlat (s : State) (q : Queue) (va : Nat) : XRes :=
  if q.asid = 0 then firmwareXlat s q.vf va .rd else noTime s (translateWalk s q.asid va .rd)

/-- A second-stage fault that a queue meets: reported to the physical function's driver, and the queue waits (R398). -/
def queueStage2 (s : State) (k : Nat) (q : Queue) (level ipa va : Nat) (wr : Bool) : State :=
  { stage2Record s (.queue k) 4 level ipa (BitVec.ofNat 64 va) wr none 0 with
    s2waits := s.s2waits ++ [⟨q.vf, .queue k, BitVec.ofNat 64 va, 0⟩] }

def pktType (bs : List Byte) : Nat := fieldAt bs 0x20 1
def pktBar (bs : List Byte) : Bool := fieldAt bs 0x21 1 % 2 == 1

/-- ECODE 0x01. -/
def pktBad (q : Queue) (bs : List Byte) : Bool :=
  let t := pktType bs
  !([0x01, 0x02, 0x03, 0x04, 0x20].contains t) || decide (2 ≤ fieldAt bs 0x21 3) ||
  (if t = 0x20 then q.dbidx != 0 || !zeroAt bs 0x26 2 || !zeroAt bs 0x30 16 else !zeroAt bs 0x24 28)

/-- A mapped queue's head packet. -/
inductive Head where
  | none | defect (code : Nat) | stage2 (q : Queue) (level ipa : Nat) | packet (q : Queue) (pa : Nat) (bs : List Byte)
  deriving DecidableEq, Repr

def headOf (s : State) (k : Nat) : Head :=
  match s.queues.get? k with
  | none => .none
  | some q =>
    if q.slot.isNone || q.err || !q.holds || s.s2waits.any (fun w => w.unit == .queue k) then .none
    else match queueXlat s q q.headVa with
      | .stage2 l ipa => .stage2 q l ipa
      | .ok x =>
        let bs := peek s x.pa 128
        if s.pathHeld x.pa 0 then .none
        else if s.noData x.pa 128 then .defect 0x03 else if pktBad q bs then .defect 0x01 else .packet q x.pa bs
      | _ => .defect 0x03

/-- Grids that packets of a queue launched and that have not ended. -/
def openGrids (s : State) (k : Nat) : Bool := s.grids.any fun p => p.2.host && p.2.queue == k

/-- RPTR advances past a consumed packet (R414); a queue that is then empty becomes a candidate (R420). -/
def consume (s : State) (k : Nat) : State :=
  let s := s.updQueue k fun q => { q with rptr := (q.rptr + 1) % 2 ^ 64 }
  match s.queues.get? k with
  | some q => if q.holds then s else s.raise .emptied q.vf (some k)
  | none => s

/-- The walk of the head's address leaves its entries in the walk caches (R399, R400). -/
def fillQueue (s : State) (k : Nat) : State :=
  match s.queues.get? k with
  | some q => fillFor s q.vf q.asid q.headVa
  | none => s

/-- Handles the head packet where it is of a type; a defective one puts the queue into error, one held by BAR waits. -/
def onPacket (s : State) (k t : Nat) (body : State → Queue → Nat → List Byte → Out) : Out :=
  match headOf s k with
  | .none => .next s
  | .defect c => .next (queueError (fillQueue s k) k c)
  | .stage2 q l ipa => .next (queueStage2 (fillQueue s k) k q l ipa q.headVa false)
  | .packet q pa bs => if pktType bs ≠ t || (pktBar bs && openGrids s k) then .next s else body (fillQueue s k) q pa bs

def execNopPacket (q : Nat) (s : State) : Out := onPacket s q 0x01 fun s _ _ _ => .next (consume s q)

/-- A host launch: accepted into the dispatcher's queue, or refused with its code (R385, R414). -/
def execLaunchPacket (q : Nat) (s : State) : Out :=
  onPacket s q 0x02 fun s x _ bs =>
    let s := fillFor s x.vf x.asid (LaunchRec.of bs).kcb
    match launchCheck s x.vf x.asid bs true with
    | .ok (r, k) => .next (consume (acceptGrid s x.vf x.asid r k true q).1 q)
    | .error code =>
      let r := LaunchRec.of bs
      let s := if r.sig then signalWord s ⟨some q, x.vf, x.asid, 0, true⟩ r.sigaddr (refusalWord code) code else s
      .next (consume s q)

/-! ### WAIT (R416) -/

/-- The word of a WAIT, read with an acquire at .SYS; none where it does not serve. -/
def waitWord (s : State) (q : Queue) (a : W64) : Option W64 :=
  if a.toNat % 8 ≠ 0 || !vaOk a then none
  else match queueXlat s q a.toNat with
    | .ok x => if s.noData x.pa 8 then none else some (le64 (peek s x.pa 8))
    | _ => none

/-- The second-stage fault of a WAIT's word. -/
def waitStage2 (s : State) (q : Queue) (a : W64) : Option (Nat × Nat) :=
  if a.toNat % 8 ≠ 0 || !vaOk a then none
  else match queueXlat s q a.toNat with
    | .stage2 l ipa => some (l, ipa)
    | _ => none

def waitMet (v w : W64) : Bool := decide (w.toNat ≤ v.toNat) || v.msb

def watchEntries : Nat := 512

def watchFree (s : State) : Bool :=
  decide ((s.queues.filter fun p => match p.2.watch with | some (_, _, e) => e | none => false).length < watchEntries)

def execWaitPacket (q : Nat) (s : State) : Out :=
  onPacket s q 0x03 fun s x _ bs =>
    let a : W64 := BitVec.ofNat 64 (fieldAt bs 0x00 8)
    let w : W64 := BitVec.ofNat 64 (fieldAt bs 0x08 8)
    let s := if vaOk a then fillFor s x.vf x.asid a.toNat else s
    match waitStage2 s x a, waitWord s x a with
    | some (l, ipa), _ => .next (queueStage2 s q x l ipa a.toNat false)
    | none, none => .next (queueError s q 0x03)
    | none, some v =>
      if v.msb then .next (queueError (consume s q) q 0x06)
      else if waitMet v w then .next (consume s q)
      else
        let s := s.updQueue q fun x => { x with parked := true, slot := none, unmapReq := false, watch := some (a, w, watchFree s) }
        .next (s.raise .emptied x.vf (some q))

/-- The word of a parked queue satisfies its WAIT, or can no longer be read: the queue is to be woken. `entry` says whether
the signal unit watches it, or a reeve polls it. -/
def watchMet (s : State) (k : Nat) (entry : Bool) : Bool :=
  match s.queues.get? k with
  | none => false
  | some q => match q.watch with
    | none => false
    | some (a, w, e) => e == entry && match waitWord s q a with | some v => waitMet v w | none => true

/-- The event of a satisfied WAIT (R410). -/
def raiseMet (s : State) (k : Nat) : State :=
  match s.queues.get? k with
  | some q => s.raise .waitMet q.vf (some k)
  | none => s

/-- The handler of that event: the queue becomes pending at its base priority. -/
def execWaitWake (q : Nat) (s : State) : Out :=
  match s.queues.get? q with
  | none => .next s
  | some x => .next (mapQueues (if x.parked then setPending (s.updQueue q fun x => { x with parked := false, watch := none }) q else s))

/-- A reeve's poll of a parked queue for which the signal unit has no entry. -/
def execWaitPoll (q : Nat) (s : State) : Out := .next (if watchMet s q false then raiseMet s q else s)

/-! ### Grid completions and weir deadlines (R382, R390) -/

def execGridCompletion (grid : Nat) (s : State) : Out :=
  match s.grid? grid with
  | none => .fault .noSuchUnit
  | some g => if g.st = .ending then .next (mapQueues (closeGrid s grid g)) else .next s

def execWeirDeadline (vf : Nat) (s : State) : Out := .next (mapQueues (meetDeadline s vf))

/-! ### SIGNAL and BAR (R414) -/

def execSignalPacket (q : Nat) (s : State) : Out :=
  onPacket s q 0x04 fun s x _ bs =>
    if openGrids s q then .next s
    else
      let r := LaunchRec.of bs
      .next (consume (signalWord s ⟨some q, x.vf, x.asid, 0, true⟩ r.sigaddr r.sigval 0) q)

/-- A packet held by BAR proceeds once the grids before it have ended. -/
def execBarPacketRelease (q : Nat) (s : State) : Out :=
  match headOf s q with
  | .packet _ _ bs =>
    if !pktBar bs || openGrids s q then .next s
    else match pktType bs with
      | 0x01 => execNopPacket q s
      | 0x02 => execLaunchPacket q s
      | 0x03 => execWaitPacket q s
      | 0x04 => execSignalPacket q s
      | _ => .next s
  | _ => .next s

/-! ### Time and victims (R420) -/

/-- The levels that a pending queue has gained, up to the highest priority. -/
def levelsNow (s : State) (q : Queue) : Nat := effPrio s q - q.prio

/-- Gained levels and full residence raise their events. -/
def raiseTime (s : State) (k : Nat) (q : Queue) : State :=
  if q.pending.isSome && q.levels < levelsNow s q then
    { s with queues := s.queues.modify k fun x => { x with levels := levelsNow s x } }.raise .ageing q.vf (some k)
  else if q.slot.isSome && !q.resident && q.mappedAt + ns2ms ≤ s.now then
    { s with queues := s.queues.modify k fun x => { x with resident := true } }.raise .residence q.vf (some k)
  else s

def execAgeingTick (_q : Nat) (s : State) : Out := .next (mapQueues s)
def execResidenceEvent (_q : Nat) (s : State) : Out := .next (mapQueues s)

def execVictimUnmap (q : Nat) (s : State) : Out :=
  match s.queues.get? q with
  | none => .next s
  | some x => if x.unmapReq && x.slot.isSome then .next (mapQueues (unmapQueue s q)) else .next s

end Sys2Proof.Machine
end

