-- ==== Sys2Proof/Machine/Reset.lean ====
section
/-! DEFINITION. Frames and pools (R401, R403, R425), freeing teams without a save (R409, R421, R425), and the reset of a
function (R425). -/

namespace Sys2Proof.Machine

open Sys2Proof

/-! ### Frames -/

def frameBytes : Nat := 65536

/-- Grains of a frame in a core's L1. -/
def frameGrains (s : State) (core pa : Nat) : List Nat := grainsOf s core fun g _ => frameOf g == frameOf pa

/-- Every copy of a frame is written back and invalidated, in every core. -/
def purgeFrame (s : State) (pa : Nat) : State :=
  let s := foldS s s.cores.keys fun s c => foldS s (frameGrains s c pa) fun s g => purgeGrain s c g
  foldS s (s.dirsIn (frameOf pa * frameBytes) frameBytes) exclGrain

/-- Releaser records of a frame go: they are about bytes that are no longer there. -/
def dropRecords (s : State) (pa : Nat) : State :=
  foldS s (s.dirsIn (frameOf pa * frameBytes) frameBytes) fun s g =>
    match s.dirs.get? g with
    | some d => s.putDir g { d with rel := none }
    | none => s

/-- A frame of zeros (R401). -/
def zeroFrame (s0 : State) (pa : Nat) : State :=
  let s : State := dropRecords (purgeFrame s0 pa) pa
  let inF (a : Nat) : Bool := frameOf a == frameOf pa
  { s with
    mem := s.mem.filter fun (c : Host.Cell) => !inF c.1
    poison := s.poison.filter fun (p : Nat × Nat) => !inF p.1
    l2 := s.l2.keep fun a _ => !inF a
    l3 := s.l3.map fun (t : Nat × Tab Bool) => (t.1, t.2.keep fun a _ => !inF a) }

/-- The physical address of a function's frame. -/
def framePa (s : State) (vf frame : Nat) : Option Nat := (stage2 s vf (frame * frameBytes)).map (·.pa)

/-- Zeroed frames join a partition's pool. -/
def poolAdd (s : State) (vf : Nat) (frames : List Nat) : State :=
  let s := foldS s frames fun s f =>
    let s := fillTwo s vf (f * frameBytes)
    match framePa s vf f with | some pa => zeroFrame s pa | none => s
  { s with vfs := s.vfs.modify vf fun v => { v with pool := v.pool ++ frames } }

/-- The bytes of a frame move to another, with its poison (R403, R404). -/
def copyFrame (s : State) (src dst : Nat) : State :=
  let at' (a : Nat) : Nat := dst / frameBytes * frameBytes + a % frameBytes
  let cells : List Host.Cell := s.mem.filter fun (c : Host.Cell) => frameOf c.1 == frameOf src
  let bad : List (Nat × Nat) := s.poison.filter fun (p : Nat × Nat) => frameOf p.1 == frameOf src
  let z := zeroFrame s dst
  { z with
    mem := memMerge z.mem (cells.map fun (c : Host.Cell) => (at' c.1, c.2))
    l2 := cells.foldl (fun (t : Tab Bool) (c : Host.Cell) => t.set (at' c.1 / 32 * 32) true) z.l2
    poison := bad.foldl (fun (t : Tab Nat) (p : Nat × Nat) => t.set (at' p.1) p.2) z.poison }

/-! ### Freeing teams without a save -/

/-- A group's accesses that still wait are forgotten. -/
def forgetGroups (s : State) (core : Nat) (ks : List Nat) : State :=
  let s := s.updCore core fun c =>
    { c with
      misses := c.misses.map fun m => { m with waiters := m.waiters.filter fun w => !ks.contains w.grp }
      ldbWaits := c.ldbWaits.filter fun w => !ks.contains w.grp
      engine := c.engine.filter fun o => !ks.contains o.grp }
  let s := foldS s ks leaveQueues
  { s with
    groups := s.groups.filter fun (p : Nat × Group) => !ks.contains p.1
    dlvs := s.dlvs.filter fun (d : DlvWait) => !ks.contains d.grp
    ringWaits := s.ringWaits.filter fun (r : RingWait) => !ks.contains r.grp
    s2waits := s.s2waits.filter fun (w : S2Wait) => match w.unit with | .group k => !ks.contains k | _ => true }

/-- A team goes with its groups and its copies; its core is free of it. -/
def freeTeam (s : State) (tk : Nat) : State :=
  match s.team? tk with
  | none => s
  | some t =>
    let s := forgetGroups s t.core (s.groupsOfTeam tk)
    let s := s.setCopies (t.core * 16 + t.slot) []
    let s := { s with
      teams := s.teams.erase tk
      s2waits := s.s2waits.filter fun (w : S2Wait) => w.unit != UnitId.team tk && w.unit != UnitId.copyq (t.core * 16 + t.slot) }
    let s := s.updGrid t.grid fun g => { g with teams := g.teams.filter (· != tk) }
    let s := match s.grid? t.grid with
      | some g => dropViews (dropRings s t.grid (columnOf g t)) t.core g.asid
      | none => s
    freeCore s t.core

/-- The saved teams of a grid go; a save that holds no other is gone, its number reserved. -/
def freeSaved (s : State) (gk : Nat) : State :=
  foldS s s.saved fun s p =>
    let gone := Tab.keys (p.2.teams.filter fun (t : Nat × Team) => t.2.grid == gk)
    let left := p.2.teams.filter fun (t : Nat × Team) => !gone.contains t.1
    if left.isEmpty then
      maskHams (numberPart (reserveNumber { s with saved := s.saved.erase p.1 } p.2.vf p.2.core (some p.2.vcore)) p.2.vf) p.2.vf
    else
      let kept : Saved :=
        { p.2 with
          teams := left
          groups := p.2.groups.filter fun (g : Nat × Group) => !gone.contains g.2.team
          engine := p.2.engine.filter fun o => !gone.contains o.team
          copyq := p.2.copyq.filter fun (q : Nat × List Copy) => !(q.2.any fun c => gone.contains c.team) }
      { s with saved := s.saved.set p.1 kept }

/-- A grid is aborted: its teams are freed without a save and its word carries the code (R418). -/
def abortGrid (s : State) (gk code : Nat) : State :=
  let s := s.updGrid gk fun g => { g with abortCode := some code, st := .ending }
  let s := freeSaved (foldS s (s.teamsOfGrid gk) freeTeam) gk
  match s.grid? gk with
  | some g => closeGrid s gk g
  | none => s

/-! ### Contexts (R399) -/

/-- Whether a grid or a queue uses a context. -/
def ctxUsed (s : State) (asid : Nat) : Bool :=
  (s.grids.any fun p => p.2.asid == asid) || s.queues.any fun p => p.2.asid == asid

/-- The step of a page's move that is not carried out: its context has gone. -/
def cancelled : Nat := 8

/-- A context goes with its bell table and view tables; nothing is invalidated. -/
def destroyCtx (s : State) (asid : Nat) : State :=
  { s with
    ctxs := s.ctxs.erase asid
    objs := s.objs.filter fun (o : Nat × Obj) => o.2.asid != asid
    moves := s.moves.map fun (m : PageMove) => if m.asid = asid then { m with step := cancelled } else m
    cores := s.cores.map fun (p : Nat × Core) => (p.1, { p.2 with views := p.2.views.erase asid }) }

/-! ### Function reset (R425) -/

/-- A grid of a function under reset goes without a word. -/
def dropGrid (s : State) (gk : Nat) : State :=
  let s := s.updGrid gk fun g => { g with abortCode := some 0, sig := false, st := .ending }
  let s := freeSaved (foldS s (s.teamsOfGrid gk) freeTeam) gk
  { s with grids := s.grids.erase gk, rings := s.rings.filter fun (r : Ring) => r.grid != gk }

/-- The frames of a virtual function's pool return, zeroed, to the physical function's. -/
def returnPool (s : State) (vf : Nat) : State :=
  match s.vfs.get? vf with
  | none => s
  | some v =>
    let frames := v.pool.filterMap fun f => (framePa s vf f).map frameOf
    poolAdd { s with vfs := s.vfs.set vf { v with pool := [] } } 0 frames

/-- The steps of R425, for a virtual function. -/
def resetFunction (s : State) (vf : Nat) : State :=
  let s := { s with vfs := s.vfs.modify vf fun v => { v with ready := false, adminQ := none, accepted := 0, launchq := [] } }
  let s := { s with
    queues := s.queues.filter fun (p : Nat × Queue) => p.2.vf != vf
    s2waits := s.s2waits.filter fun (w : S2Wait) => w.vf != vf
    reeveWaits := s.reeveWaits.filter fun (w : ReeveWait) => w.vf != vf
    events := s.events.filter fun (e : QEvent) => e.vf != vf
    moves := s.moves.map fun (m : PageMove) => if m.vf = vf then { m with step := cancelled } else m }
  let s := foldS s (Tab.keys (s.grids.filter fun (p : Nat × Grid) => p.2.vf == vf)) dropGrid
  let s := { s with fab := { s.fab with colls := s.fab.colls.filter fun (c : Nat × Coll) => c.2.vf != vf } }
  let s := foldS s (Tab.keys (s.ctxs.filter fun (c : Nat × Ctx) => c.2.vf == vf)) destroyCtx
  mapQueues (returnPool s vf)

def execFunctionLevelReset (vf : Nat) (s : State) : Out := if vf = 0 then .next s else .next (resetFunction s vf)

/-! ### Debug stops end (R421) -/

/-- A unit parked by R129 continues; a faulting instruction executes again. -/
def Group.resume (g : Group) : Group :=
  match g.st with
  | .stopped .debug => { g with st := .running, stopReq := .none }
  | _ => if g.stopReq = .debug then g.unpark else g

def Seq.resume (q : Seq) : Seq :=
  match q.route with
  | some .debug => { q with route := none, stopReq := .none, st := if q.st = .park then q.was else q.st }
  | _ =>
    if q.stopReq = .debug then
      { q with stopReq := .none, st := if q.st = .park && q.route.isNone then q.was else q.st }
    else q

/-- After a debug stop a sequencer that a lower frame keeps stays parked. -/
def resumeUnit (s : State) (u : UnitId) : State :=
  match s.seq? u with
  | none => s
  | some q =>
    if q.stopReq = .debug && q.route.isNone && keptParked s u then s.updSeq u fun q => { q with stopReq := .tree }
    else s.updSeq u Seq.resume

def resumeGrid (s : State) (gk : Nat) : State :=
  let s := s.updGrid gk fun g => { g with debugStop := false, dataErr := false }
  let s := foldS s (s.teamsOfGrid gk) fun s t =>
    resumeUnit (foldS s (s.groupsOfTeam t) fun s k => s.updGroup k Group.resume) (.team t)
  let s := resumeUnit s (.grid gk)
  let mine (x : Saved) (t : Nat) : Bool := match x.teams.get? t with | some y => y.grid == gk | none => false
  { s with saved := s.saved.map fun (p : Nat × Saved) => (p.1,
      { p.2 with
        teams := p.2.teams.map fun (t : Nat × Team) => (t.1, if t.2.grid = gk then { t.2 with seq := t.2.seq.resume } else t.2)
        groups := p.2.groups.map fun (g : Nat × Group) => (g.1, if mine p.2 g.2.team then g.2.resume else g.2) }) }

end Sys2Proof.Machine
end

