-- ==== Sys2Proof/Machine/Commands.lean ====
section
/-! DEFINITION. The commands of the admin queue (R421 to R426, R388, R398, R400, R403). Where the spec gives a command's
arguments no place, their offsets are the model's choice (the log names them). -/

namespace Sys2Proof.Machine

open Sys2Proof

/-! ### A command packet (R421) -/

/-- What a command answers: the state, its status, and results written into the packet. -/
structure Answer where
  s : State
  status : Nat
  results : List (Nat × List Byte)

def done (s : State) : Answer := ⟨s, 0, []⟩
def refuse (s : State) (status : Nat) : Answer := ⟨s, status, []⟩

/-- Where a reeve writes into the packet at the head: its results and its status. -/
def packetXlat (s : State) (q : Queue) : XRes := reeveXlat s q.vf q.asid q.headVa .wr

/-- Results and status are written before RPTR passes the packet. A packet that no longer takes them is consumed without; a
second-stage fault is reported (R398). -/
def finishCmd (k : Nat) (x : Queue) (a : Answer) : State :=
  let put (s : State) (y : Xlat) (r : Nat × List Byte) : State := reeveStore s x.vf (y.pa + r.1) r.2 false
  consume (match packetXlat a.s x with
    | .ok y => put (foldS a.s a.results fun s r => put s y r) y (0x28, leBytes 8 a.status)
    | .stage2 l ipa => recordTo a.s (a.s.adminOf 0) (reeveRec2 x.vf x.asid l ipa (BitVec.ofNat 64 x.headVa) true)
    | _ => a.s) k

def cmdCode (bs : List Byte) : Nat := fieldAt bs 0x24 2

/-- The handler of a command packet's event ends: the command is answered, and pending queues are mapped (R410, R420). -/
def answerCmd (k : Nat) (x : Queue) (a : Answer) : Out := .next (mapQueues (finishCmd k x a))

/-- A command that has waited is answered, where its packet still stands at the head. -/
def endCommand (s : State) (k status : Nat) : State :=
  match headOf s k with
  | .packet x _ _ => mapQueues (finishCmd k x (refuse s status))
  | _ => s

/-- A command packet of a code at the head. Where the second stage keeps its answer from being written, the queue waits before
the command begins (R398). -/
def onCommand (s : State) (k code : Nat) (body : State → Queue → List Byte → Out) : Out :=
  onPacket s k 0x20 fun s x _ bs =>
    if cmdCode bs ≠ code then .next s
    else match packetXlat s x with
      | .stage2 l ipa => .next (queueStage2 s k x l ipa x.headVa true)
      | _ => body s x bs

/-- Runs one command; a command of the physical function from another gives status 3. -/
def cmdOp (s : State) (k code : Nat) (pf : Bool) (body : State → Queue → List Byte → Answer) : Out :=
  onCommand s k code fun s x bs =>
    if pf && x.vf ≠ 0 then answerCmd k x (refuse s 3)
    else answerCmd k x (body s x bs)

/-- A command code that the table does not list: status 1. -/
def unknownCmd (s : State) (k : Nat) : State := endCommand s k 1

def arg (bs : List Byte) (off n : Nat) : Nat := fieldAt bs off n

/-- A virtual function may name only its own objects. -/
def owns (x : Queue) (vf : Nat) : Bool := x.vf == 0 || x.vf == vf

/-! ### Features (R422 to R424) -/

/-- Bits 0 to 15: all that the stepping implements. -/
def steppingFeatures : W128 := 0xFFFF

/-- The vector offered to a function from its next FEATURES command on. -/
def offerFor (s : State) (vf : Nat) : W128 :=
  if vf = 0 then steppingFeatures
  else steppingFeatures &&& (match s.vfs.get? vf with | some v => v.mask | none => 0)

/-- FEATURES: the vector at 0x40, the offer written at 0x50. -/
def execFeatures (q : Nat) (s : State) : Out :=
  cmdOp s q 0x01 false fun s x bs =>
    let offer := offerFor s x.vf
    let want : W128 := BitVec.ofNat 128 (arg bs 0x40 16)
    let report := [(0x50, leBytes 16 offer.toNat)]
    if want &&& ~~~offer != 0 then ⟨s, 1, report⟩
    else ⟨{ s with vfs := s.vfs.modify x.vf fun v => { v with offered := offer, accepted := want } }, 0, report⟩

/-! ### Contexts (R331, R399) -/

/-- The bell tables lie at the top of the device's memory, one per ASID (the log says so). -/
def bellTable (asid : Nat) : Nat := 2 ^ 39 - 2 ^ 24 + 256 * asid

/-- CREATE_CTX: the root at 0x00; the ASID is written at 0x40. -/
def execCreateCtx (q : Nat) (s : State) : Out :=
  cmdOp s q 0x02 false fun s x bs =>
    let root := arg bs 0x00 8
    let asid := s.ctxs.freeFrom s.ctxs.length 1
    if root % frameBytes ≠ 0 || 2 ^ 52 ≤ root then refuse s 1
    else if 65535 < asid then refuse s 2
    else
      let s := dropTlb s (.ctx asid)
      let s := devWrite s (bellTable asid) (List.replicate 256 0)
      ⟨{ s with ctxs := s.ctxs.set asid ⟨x.vf, root, bellTable asid, [], []⟩ }, 0, [(0x40, leBytes 2 asid)]⟩

/-- DESTROY_CTX: the ASID at 0x00. -/
def execDestroyCtx (q : Nat) (s : State) : Out :=
  cmdOp s q 0x03 false fun s x bs =>
    let asid := arg bs 0x00 2
    match s.ctxs.get? asid with
    | none => refuse s 1
    | some c => if !owns x c.vf then refuse s 3 else if ctxUsed s asid then refuse s 4 else done (destroyCtx s asid)

/-! ### Queues (R411, R412) -/

/-- The queue that a control block's privileged part describes. -/
def Queue.of (qcb : Nat) (bs : List Byte) : Queue :=
  { qcb := qcb, rbase := BitVec.ofNat 64 (fieldAt bs 0x00 8), rsize := fieldAt bs 0x08 1, prio := fieldAt bs 0x09 1
    asid := fieldAt bs 0x0A 2, dbidx := fieldAt bs 0x0C 2, vf := fieldAt bs 0x0E 2, evbase := BitVec.ofNat 64 (fieldAt bs 0x10 8)
    esize := fieldAt bs 0x18 1, wptr := 0, rptr := 0, ewptr := 0, edrop := 0, err := false, ecode := 0, parked := false
    slot := none, pending := none, levels := 0, mappedAt := 0, resident := false, watch := none, unmapReq := false }

/-- The fields of a control block in their ranges. -/
def qcbOk (q : Queue) (bs : List Byte) : Bool :=
  q.rbase.toNat % 128 == 0 && between 4 16 q.rsize && decide (q.prio ≤ 15) && decide (q.dbidx ≤ 255) &&
  q.evbase.toNat % 64 == 0 && between 4 12 q.esize && zeroAt bs 0x19 39

/-- The physical address of a function's own address. -/
def ownPa (s : State) (vf a : Nat) : Option Nat := (stage2 s vf a).map (·.pa)

/-- Reads the privileged part and adds the queue, unmapped. -/
def addQueue (s : State) (q : Queue) : State :=
  writeQcb { s with queues := s.queues.set s.nextKey q, nextKey := s.nextKey + 1 } s.nextKey

/-- CREATE_QUEUE: the control block's address at 0x00. -/
def execCreateQueue (q : Nat) (s : State) : Out :=
  cmdOp s q 0x04 false fun s x bs =>
    let s := fillTwo s x.vf (arg bs 0x00 8)
    match ownPa s x.vf (arg bs 0x00 8) with
    | none => refuse s 1
    | some pa =>
      let (s, priv) := devRead s (pa + 0x40) 64
      let n := Queue.of pa priv
      if pa % 128 ≠ 0 || !qcbOk n priv || n.dbidx = 0 then refuse s 1
      else if n.vf ≠ x.vf then refuse s 3
      else match s.ctxs.get? n.asid with
        | none => refuse s 1
        | some c =>
          if c.vf ≠ x.vf then refuse s 3
          else if s.queues.any fun p => p.2.vf == x.vf && p.2.dbidx == n.dbidx then refuse s 4
          else done (addQueue s n)

/-- DESTROY_QUEUE: the doorbell index at 0x00; the admin queue itself stays. -/
def execDestroyQueue (q : Nat) (s : State) : Out :=
  cmdOp s q 0x05 false fun s x bs =>
    match s.queues.find? fun p => p.2.vf == x.vf && p.2.dbidx == arg bs 0x00 2 with
    | none => refuse s 1
    | some (k, n) => if n.dbidx = 0 then refuse s 3 else done { s with queues := s.queues.erase k, s2waits := s.s2waits.filter fun (w : S2Wait) => w.unit != .queue k }

/-! ### Memory (R201, R327, R400, R403) -/

/-- A frame of a function that its pool may take: it lies in the device's own memory (R401, R421). -/
def localFrame (s : State) (vf f : Nat) : Bool :=
  match framePa s vf f with
  | some pa => decide (pa + frameBytes ≤ 2 ^ 39)
  | none => false

/-- POOL_ADD: the first frame's address at 0x00, the count at 0x08. -/
def execPoolAdd (q : Nat) (s : State) : Out :=
  cmdOp s q 0x06 false fun s x bs =>
    let a := arg bs 0x00 8
    let n := arg bs 0x08 4
    let frames := (List.range n).map (frameOf a + ·)
    if a % frameBytes ≠ 0 || n = 0 || 2 ^ 52 < a + n * frameBytes || 2 ^ 39 < n * frameBytes then refuse s 1
    else if !frames.all (localFrame s x.vf) then refuse s 1
    else done (poolAdd s x.vf frames)

/-- A window register's fields (R327); GRAIN 3 disables the window. -/
def Window.of (x : Nat) : Window :=
  ⟨bitsOf x 51 16, bitsOf x 115 80, grainBytes (bitsOf x 65 64), bitsOf x 63 63 == 1 && bitsOf x 65 64 != 3⟩

def Window.covers (w : Window) (g : Nat) : Bool := decide (w.base ≤ frameOf g) && decide (frameOf g ≤ w.last)

/-- The context's grains in a range are written back and invalidated, and the directory no longer names the core for them. -/
def purgeRange (s : State) (asid : Nat) (w : Window) : State :=
  foldS s s.cores.keys fun s c =>
    foldS s (grainsOf s c fun g b => b.asid == asid && w.covers g) fun s g =>
      let s := purgeGrain s c g
      match s.dirs.get? g with
      | some d => s.putDir g (d.unshare c)
      | none => s

/-- SET_WINDOW: the ASID at 0x00, the register's number at 0x02, its value at 0x40. -/
def execSetWindow (q : Nat) (s : State) : Out :=
  cmdOp s q 0x07 false fun s x bs =>
    let asid := arg bs 0x00 2
    let n := arg bs 0x02 1
    match s.ctxs.get? asid with
    | none => refuse s 1
    | some c =>
      if !owns x c.vf then refuse s 3
      else if 16 ≤ n then refuse s 1
      else
        let w := Window.of (arg bs 0x40 16)
        let s := match c.windows.get? n with | some old => if old.en then purgeRange s asid old else s | none => s
        let s := purgeRange s asid w
        done { s with ctxs := s.ctxs.modify asid fun c => { c with windows := c.windows.set n w } }

/-- Whether a command of a queue is being carried out: an invalidation, or the move of a page. -/
def cmdRuns (s : State) (k : Nat) : Bool := (s.invals.any fun v => v.done == .command k) || s.moves.any fun m => m.q == k

/-- INVAL_FN: the function at 0x00; a second-stage root at 0x08, where it is not 0. The command is answered once its
invalidation completes (R349, R400). -/
def execInvalFn (q : Nat) (s : State) : Out :=
  onCommand s q 0x0A fun s x bs =>
    let vf := arg bs 0x00 2
    let root := arg bs 0x08 8
    if cmdRuns s q then .next s
    else if x.vf ≠ 0 then answerCmd q x (refuse s 3)
    else if vf = 0 || !s.vfs.has vf || root % frameBytes ≠ 0 || 2 ^ 52 ≤ root then answerCmd q x (refuse s 1)
    else
      let s := if root = 0 then s else { s with vfs := s.vfs.modify vf fun v => { v with s2root := some root } }
      .next (startInval s (.fn vf) (.command q))

/-- The unit that a second-stage fault holds goes on: the access translates again, or takes a protection fault. -/
def endWait (s : State) (w : S2Wait) (repaired : Bool) : State :=
  let prot : Trap := trap cProt 0 w.va
  match w.unit with
  | .group k =>
    match s.group? k with
    | none => s
    | some g =>
      let fetch := g.sframe.isNone
      let s := if g.st = .escalated then leaveSupervisor s k else s
      if repaired then s
      else
        let pc := match s.ctl? (.group k) with | some c => c.pc | none => 0
        let lane := !fetch && g.ctl.fcause.toNat / 256 % 16 == 0
        takeFault { s with iss := ⟨.group k, pc, pc, none, 0, false, 0⟩ } (.group k)
          { prot with lane := lane, detail := if lane then w.lane else 0, fetch := fetch }
  | .copyq q =>
    match (s.copies q).zipIdx.find? fun p => match p.1.st with | .escalated va => va == w.va | _ => false with
    | none => s
    | some (c, n) => if repaired then s.updCopy q n fun c => { c with st := .run } else abortCopy s q n c w.va 0x0C
  | .queue k => if repaired then s else queueError s k 0x03
  | u =>
    if repaired then s
    else
      -- A wait that is not at the data address of the sequencer's slot is a fetch's, at the slot fetched (R396).
      let fetch := touchAddr s u != some w.va
      let pc := if fetch then w.va else match s.ctl? u with | some c => c.pc | none => 0
      takeFault { s with iss := ⟨u, pc, pc, none, 0, false, 0⟩ } u { prot with fetch := fetch }

/-- A reeve's access that waited is made again (R398, R449). -/
def reeveAgain (s : State) (w : ReeveWait) : State :=
  match w.what with
  | .word c val code => signalWord s c w.va val code
  | .record k r => putRecord s k r
  | .coll _ => s

/-- An access of a reeve that a second-stage fault holds is unrepairable: a protection fault (R398). -/
def reeveFails (s : State) (w : ReeveWait) : State :=
  match w.what with
  | .word c _ code => signalFault s c w.va code 0x0C
  | .record k _ => dropRecord s k
  | .coll g => { s with fab := { s.fab with colls := s.fab.colls.modify g fun c => { c with bad := true } } }

/-- REPAIR: the function at 0x00, 1 for repaired at 0x02, the virtual address of the record at 0x08. Units that are
saved translate again after their restore. -/
def execRepair (q : Nat) (s : State) : Out :=
  cmdOp s q 0x09 true fun s _ bs =>
    let vf := arg bs 0x00 2
    let va : W64 := BitVec.ofNat 64 (arg bs 0x08 8)
    let repaired := arg bs 0x02 1 == 1
    let hit (w : S2Wait) : Bool := w.vf == vf && w.va == va
    let reeve (w : ReeveWait) : Bool := w.vf == vf && w.va == va && w.stage2
    if s.s2waits.any hit || s.reeveWaits.any reeve then
      let ws := s.s2waits.filter hit
      let rs := s.reeveWaits.filter reeve
      let s := { s with s2waits := s.s2waits.filter fun w => !hit w, reeveWaits := s.reeveWaits.filter fun w => !reeve w }
      done (foldS (foldS s ws fun s w => endWait s w repaired) rs fun s w => if repaired then reeveAgain s w else reeveFails s w)
    else if s.saved.any fun (p : Nat × Saved) => p.2.waits.any hit then refuse s 4
    else refuse s 1

/-- The level-3 entry of a valid 64 KiB page: its address and value. -/
def pageEntry (s : State) (asid va : Nat) : Option (Nat × W64) :=
  match s.ctxs.get? asid with
  | none => none
  | some c =>
    let rec go (fuel lvl base : Nat) : Option (Nat × W64) :=
      match fuel with
      | 0 => none
      | fuel + 1 => match stage2 s c.vf (base + 8 * vaIndex va lvl) with
        | none => none
        | some t =>
          let e := s.home64 t.pa
          if !eV e || malformed e lvl then none
          else if eLeaf e then (if lvl = 3 then some (t.pa, e) else none)
          else go fuel (lvl + 1) (eFrame e * frameBytes)
    go 3 1 c.root

/-- MIGRATE: the ASID at 0x00, the virtual address at 0x08; the new frame comes from the partition's pool. The move then runs
step by step (R403), and the command is answered at its end. -/
def execMigrate (q : Nat) (s : State) : Out :=
  onCommand s q 0x10 fun s x bs =>
    if cmdRuns s q then .next s
    else if x.vf ≠ 0 then answerCmd q x (refuse s 3)
    else
      let asid := arg bs 0x00 2
      let va := arg bs 0x08 8
      let s := fillWalk s asid va
      let vf := match s.ctxs.get? asid with | some c => c.vf | none => 0
      match pageEntry s asid va, s.vfs.get? vf with
      | some (ea, e), some v =>
        (match v.pool with
         | [] => answerCmd q x (refuse s 2)
         | f1 :: rest => match framePa s vf (eFrame e), framePa s vf f1 with
           | some p0, some p1 =>
             if isRemote p0 then answerCmd q x (refuse s 1)
             else if s.moves.any fun m => m.p0 == p0 then .next s
             else
               .next { s with
                 vfs := s.vfs.modify vf fun v => { v with pool := rest }
                 moves := s.moves ++ [⟨q, asid, vf, va, ea, e, p0, p1, f1, eProt e == 0 && (windowOf s asid p0).isNone, 1, 0⟩] }
           | _, _ => answerCmd q x (refuse s 1))
      | _, _ => answerCmd q x (refuse s 1)

/-! ### Stopped grids (R421) -/

def stoppedGrid (s : State) (vf num : Nat) : Option Nat :=
  (s.grids.find? fun p => p.2.vf == vf && p.2.num == num && p.2.debugStop).map (·.1)

def execResume (q : Nat) (s : State) : Out :=
  cmdOp s q 0x08 false fun s x bs =>
    match stoppedGrid s x.vf (arg bs 0x00 4) with
    | none => refuse s 1
    | some k => done (resumeGrid s k)

/-- ABORT: the code is 0x11, or 0x12 where a data error stopped the grid (R418). -/
def execAbort (q : Nat) (s : State) : Out :=
  cmdOp s q 0x11 false fun s x bs =>
    match stoppedGrid s x.vf (arg bs 0x00 4) with
    | none => refuse s 1
    | some k => done (abortGrid s k (match s.grid? k with | some g => if g.dataErr then 0x12 else 0x11 | none => 0x11))

/-! ### Partitions (R297, R388, R420, R424) -/

def isVf (s : State) (vf : Nat) : Bool := vf != 0 && s.vfs.has vf

/-- Writing any entry restarts the weir's accounting. -/
def restartWeir (s : State) : State := { s with vfs := s.vfs.map fun (p : Nat × Vf) => (p.1, { p.2 with used := 0 }) }

/-- SET_WEIR: the function at 0x00, the entry at 0x08. -/
def execSetWeir (q : Nat) (s : State) : Out :=
  cmdOp s q 0x0B true fun s _ bs =>
    let vf := arg bs 0x00 2
    let e := arg bs 0x08 8
    let s' := { s with vfs := s.vfs.modify vf fun v =>
      { v with floor := bitsOf e 9 0, share := bitsOf e 31 16, deadline := bitsOf e 47 32, gsmax := bitsOf e 55 48, shortSince := none } }
    if !isVf s vf || !between 1 64 (bitsOf e 55 48) || 512 < bitsOf e 9 0 then refuse s 1
    else if enabledCores s < sumOf Vf.floor (vfEntries s') || 65536 < sumOf Vf.share (vfEntries s') then refuse s 1
    else done (restartWeir s')

/-- SET_TITHE: the function at 0x00, the bytes at 0x08. -/
def execSetTithe (q : Nat) (s : State) : Out :=
  cmdOp s q 0x0C true fun s _ bs =>
    let vf := arg bs 0x00 2
    let n := arg bs 0x08 8
    if !s.vfs.has vf || n % 32768 ≠ 0 || 786432 < n then refuse s 1
    else done { s with vfs := s.vfs.modify vf fun v => { v with tithe := n } }

/-- SET_SLOTS: the function at 0x00, the quota at 0x02, the feature mask at 0x40. -/
def execSetSlots (q : Nat) (s : State) : Out :=
  cmdOp s q 0x0D true fun s _ bs =>
    let vf := arg bs 0x00 2
    let n := arg bs 0x02 2
    let mask : W128 := BitVec.ofNat 128 (arg bs 0x40 16)
    match s.vfs.get? vf with
    | none => refuse s 1
    | some v =>
      let s' := { s with vfs := s.vfs.set vf { v with quota := n, mask := if vf = 0 then v.mask else mask } }
      if 128 < sumOf Vf.quota s'.vfs.vals then refuse s 1
      else if vf ≠ 0 && mask != v.mask && s.grids.any fun p => p.2.vf == vf then refuse s 4
      else done s'

/-- VF_RESET: the function at 0x00. -/
def execVfReset (q : Nat) (s : State) : Out :=
  cmdOp s q 0x0E true fun s _ bs =>
    let vf := arg bs 0x00 2
    if !isVf s vf then refuse s 1 else done (resetFunction s vf)

/-! ### Attestation (R426) -/

def attestWords (from0 n : Nat) : List Byte := (List.range n).flatMap fun i => leBytes 8 (Config.attestWord (from0 + i)).toNat

/-- CFGHASH: of the fuses and of the units that self-test took out of service (R427). -/
def configWords (s : State) (n : Nat) : List Byte :=
  (List.range n).flatMap fun i => leBytes 8 (Config.configWord s.fw.cfg.1 s.fw.cfg.2.1 s.fw.cfg.2.2 i).toNat

/-- Bytes 0x000 to 0x0FF of the report. -/
def reportBody (s : State) (vf : Nat) (nonce : List Byte) : List Byte :=
  leBytes 2 steppingA1 ++ leBytes 2 (if s.fw.grade7384 then 7384 else 7512) ++ List.replicate 12 0 ++ attestWords 0 6 ++
    configWords s 6 ++ leBytes 16 (match s.vfs.get? vf with | some v => v.offered | none => 0).toNat ++ nonce ++ List.replicate 80 0

/-- What a reeve's access of several pieces meets before it is made: nothing, a fault, a second-stage fault, a device that
cannot be reached, or a path that is being drained. -/
inductive ReeveRes where
  | ok | bad | two (level ipa va : Nat) | cut (pa va : Nat) | wait (va : Nat)
  deriving DecidableEq, Repr

/-- Looks at each piece of an access in turn; first-touch pages are mapped (R460). -/
def reeveCheck (s : State) (vf asid : Nat) (a : Acc) : Nat → List Nat → State × ReeveRes
  | _, [] => (s, .ok)
  | va, n :: ns =>
    match reeveAddr s vf asid va a with
    | (s, .ok x) =>
      if s.cutOff x.pa then (s, .cut x.pa va)
      else if s.pathHeld x.pa 0 then (s, .wait va)
      else if a = .rd && s.noData x.pa n then (s, .bad)
      else reeveCheck s vf asid a (va + n) ns
    | (s, .stage2 l ipa) => (s, .two l ipa va)
    | (s, _) => (s, .bad)

/-- Writes bytes at a virtual address, piece by piece, once they have been looked at. -/
def reeveWrite (s : State) (vf asid : Nat) : Nat → List (List Byte) → State
  | _, [] => s
  | va, w :: ws =>
    match reeveXlat s vf asid va .wr with
    | .ok x => reeveWrite (reeveStore s vf x.pa w false) vf asid (va + w.length) ws
    | _ => s

def chunk8 (bs : List Byte) : List (List Byte) := (List.range (bs.length / 8)).map fun i => (bs.drop (8 * i)).take 8

/-- ATTEST: the report's address at 0x00. A second-stage fault of a word of the report holds the queue (R398); an address that
does not take the report gives status 1. -/
def execAttest (q : Nat) (s : State) : Out :=
  onCommand s q 0x0F fun s x bs =>
    let a := arg bs 0x00 8
    if a % 64 ≠ 0 || 2 ^ 55 ≤ a then answerCmd q x (refuse s 1)
    else
      let body := reportBody s x.vf ((bs.drop 0x40).take 48)
      match reeveCheck s x.vf x.asid .wr a (List.replicate 44 8) with
      | (s, .ok) =>
        let (sig, s) := s.drawBytes 96
        answerCmd q x (done (reeveWrite s x.vf x.asid a (chunk8 (body ++ sig))))
      | (s, .two l ipa va) => .next (queueStage2 s q x l ipa va true)
      | (s, .cut pa va) =>
        answerCmd q x (refuse (recordTo s (s.adminOf 0) (reeveRecCut x.vf x.asid pa (BitVec.ofNat 64 va) true)) 1)
      | (s, .wait _) => .next s
      | (s, .bad) => answerCmd q x (refuse s 1)

end Sys2Proof.Machine
end

