-- ==== Sys2Proof/Machine/Migrate.lean ====
section
/-! DEFINITION. The move of a page (R350, R403, R404), a step at a time, and what the completion of an invalidation goes on
with. -/

namespace Sys2Proof.Machine

open Sys2Proof

/-! ### The page -/

/-- An entry with another frame and MOV = 0. -/
def movedEntry (e : W64) (frame : Nat) : W64 :=
  BitVec.ofNat 64 (eBits e 63 58 * 2 ^ 58 + eBits e 56 52 * 2 ^ 52 + frame % 2 ^ 36 * 65536 + e.toNat % 65536)

def movingEntry (e : W64) : W64 := e ||| BitVec.ofNat 64 (2 ^ 57)

def PageMove.base0 (m : PageMove) : Nat := frameOf m.p0 * frameBytes
def PageMove.base1 (m : PageMove) : Nat := frameOf m.p1 * frameBytes
def PageMove.gsz (m : PageMove) : Nat := grainBytes (eGrain m.e)
def PageMove.inOld (m : PageMove) (a : Nat) : Bool := frameOf a == frameOf m.p0

/-- An address of the old frame, in the new one. -/
def PageMove.shift (m : PageMove) (a : Nat) : Nat := if m.inOld a then m.base1 + a % frameBytes else a

def State.setMove (s : State) (m : PageMove) : State :=
  { s with moves := s.moves.map fun (x : PageMove) => if x.q = m.q then m else x }

def moveTo (s : State) (m : PageMove) (step : Nat) : State := s.setMove { m with step := step }

/-- The directory entries of the old frame. -/
def State.oldDirs (s : State) (m : PageMove) : List Nat := s.dirsIn m.base0 frameBytes

def State.updDir (s : State) (g : Nat) (f : Dir → Dir) : State :=
  match s.dirs.get? g with
  | some d => s.putDir g (f d)
  | none => s

/-! ### Steps 1 and 2 -/

/-- LOCK for one more grain of the frame; a grain without an entry takes one (R318). None where it still waits for it. -/
def lockNext (s : State) (m : PageMove) : Option State :=
  let g := m.base0 + m.grains * m.gsz
  if frameBytes ≤ m.grains * m.gsz then some (moveTo s m 2)
  else if (roomAt s g).isSome then none
  else match awaitRoom s g (asksAgain g) with
    | some s => some s
    | none => some ((s.putDir g { s.dirD g m.gsz with lock := true }).setMove { m with grains := m.grains + 1 })

/-- The host holds a grain of the frame: the move waits for its response (R330, R404). -/
def hostHolds (s : State) (m : PageMove) : Bool :=
  (s.oldDirs m).any fun g => match s.dirs.get? g with | some d => d.hostown | none => false

/-- A request of the frame is in service. -/
def serving (s : State) (m : PageMove) : Bool :=
  (s.oldDirs m).any fun g => match s.dirs.get? g with | some d => d.cur.isSome | none => false

/-- The bytes of an owner whose writeback already waits at the home are merged with those of the recalls. -/
def absorb (s : State) (g : Nat) : State :=
  match s.dirs.get? g with
  | none => s
  | some d =>
    foldS (s.putDir g { d with held := d.held.filter fun r => match r with | .merge _ _ => false | _ => true }) d.held fun s r =>
      match r with
      | .merge c bs => (mergeHome s bs).updDir g fun d => if d.st = .own c then d.clear else d.unshare c
      | _ => s

/-- Owners are recalled to SH; a window's copies, which no directory knows, are written back. -/
def recallFrame (s : State) (m : PageMove) : State :=
  let s := foldS s (s.oldDirs m) fun s g => syncGrain (absorb s g) g
  foldS s s.cores.keys fun s c => foldS s (grainsOf s c fun g b => m.inOld g && b.prot == .w) fun s g => purgeGrain s c g

/-! ### Steps 4 to 7 -/

/-- A releaser record goes with its grain; where the new grain finds no entry, or has another core's record by then, its core
completes the release (R328). -/
def moveRecord (m : PageMove) (s : State) (g : Nat) : State :=
  match s.dirs.get? g with
  | none => s
  | some d =>
    match d.rel with
    | none => s
    | some (c, sc) =>
      let s := s.putDir g { d with rel := none }
      let g1 := m.shift g
      let complete : State := flushCore s c (match (s.coreD c).vf with | some v => v | none => 0) false
      if !dirRoom s g1 then complete
      else match (s.dirD g1 d.gsz).rel with
        | some (c1, _) => if c1 = c then s else complete
        | none => s.putDir g1 { s.dirD g1 d.gsz with rel := some (c, sc) }

def moveRecords (s : State) (m : PageMove) : State := foldS s (s.oldDirs m) (moveRecord m)

/-- The instant of the move (R350): the entry changes by one write, and its translations go. -/
def rewrite (s : State) (m : PageMove) (e : W64) : State :=
  startInval (devWrite s m.ea (leBytes 8 e.toNat)) (.page m.asid m.va) (.move m.q)

/-- The answer to a request that was held (R404). -/
def answerHeld (m : PageMove) (s : State) (g : Nat) (r : HomeReq) : State :=
  match r with
  | .read k | .own k => s.post [.retry k g]
  | .op o => retryOp s o
  | .merge _ bs => mergeHome s (bs.foldl (fun (t : Tab Byte) (b : Nat × Byte) => t.set (m.shift b.1) b.2) [])
  | .record k sc => s.post [.recordMessage k (m.shift g) sc]
  | .clean _ => s
  | .after _ i | .room _ i => s.post [i]

def unlockGrain (m : PageMove) (s : State) (g : Nat) : State :=
  match s.dirs.get? g with
  | none => s
  | some d => foldS (s.putDir g { d with lock := false, held := [] }) d.held fun s r => answerHeld m s g r

/-- What still names the old frame names the new one: the stores and operations of releases that are not performed, and
operations on their way. -/
def PageMove.op (m : PageMove) (o : HomeOp) : HomeOp :=
  { o with grain := m.shift o.grain, lanes := o.lanes.map fun l => { l with pa := m.shift l.pa } }

def PageMove.relStore (m : PageMove) (r : RelStore) : RelStore :=
  { r with pa := m.shift r.pa, miss := { r.miss with grain := m.shift r.miss.grain } }

def PageMove.act (m : PageMove) : RelAct → RelAct
  | .maint g gsz inv => .maint (m.shift g) gsz inv
  | a => a

def PageMove.rel (m : PageMove) (p : PendRel) : PendRel :=
  { p with stores := p.stores.map m.relStore, ops := p.ops.map m.op, acts := p.acts.map m.act }

def PageMove.message (m : PageMove) : Instr → Instr
  | .homeExecutedOperation o => .homeExecutedOperation (m.op o)
  | .recordMessage k g sc => .recordMessage k (m.shift g) sc
  | i => i

def shiftPending (s : State) (m : PageMove) : State :=
  { s with
    agenda := s.agenda.map m.message
    groups := s.groups.map fun (p : Nat × Group) => (p.1, { p.2 with rels := p.2.rels.map m.rel }) }

/-- Misses of the old frame translate again. -/
def retryMisses (s : State) (m : PageMove) : State :=
  s.post (s.cores.flatMap fun p => (p.2.misses.filter fun x => m.inOld x.grain).map fun x => .retry p.1 x.grain)

def unlockFrame (s : State) (m : PageMove) : State :=
  let gs := s.oldDirs m
  retryMisses (foldS (moveRecords (shiftPending s m) m) gs (unlockGrain m)) m

def dropMove (s : State) (m : PageMove) : State := { s with moves := s.moves.filter fun (x : PageMove) => x.q != m.q }

/-- The invalidation of a move is complete. -/
def invalidated (s : State) (m : PageMove) : Bool := !s.invals.any fun v => v.done == .move m.q

/-- Step 7, and the answer of the command. -/
def endMove (s : State) (m : PageMove) : State := endCommand (dropMove (poolAdd s m.vf [eFrame m.e]) m) m.q 0

/-- A move whose context has gone: its grains are served again, and the new frame returns to a pool. -/
def cancelMove (s : State) (m : PageMove) : State :=
  let s := foldS s (s.oldDirs m) fun s g => serve (s.updDir g fun d => { d with lock := false }) g
  let ready := match s.vfs.get? m.vf with | some v => v.ready | none => false
  let s := if ready then poolAdd s m.vf [m.f1] else poolAdd s 0 [frameOf m.p1]
  endCommand (dropMove s m) m.q 1

/-- The next step of a move, where it need not wait (R403). The table has a column for D pages and one for S pages: a page of
protocol N takes the S page's steps, and so does a D page that lies in a window of its context, whose grains have no directory
(DESIGN CHOICE, assumption 93). -/
def moveStep (s : State) (m : PageMove) : Option State :=
  match m.step with
  | 1 => if m.locks then lockNext s m else some (moveTo (rewrite s m (movingEntry m.e)) m 2)
  | 2 =>
    if hostHolds s m || (m.locks && serving s m) || !invalidated s m then none
    else some (moveTo (if m.locks then recallFrame s m else purgeFrame s m.p0) m 3)
  | 3 => some (moveTo (copyFrame s m.p0 m.p1) m 4)
  | 4 => some (moveTo (rewrite (moveRecords s m) m (movedEntry m.e m.f1)) m 5)
  | 5 => if invalidated s m then some (moveTo s m 6) else none
  | 6 => some (moveTo (if m.locks then unlockFrame s m else resumeMoved (moveRecords (shiftPending s m) m)) m 7)
  | 7 => some (endMove s m)
  | _ => some (cancelMove s m)

/-! ### The completion of an invalidation (R349) -/

/-- What a load or an unload answers: the status, and a load's KCB addresses (R421, R441, R442). -/
def answerLoader (s : State) (status : Nat) (kcbs : List Nat) : State := { s with fw := { s.fw with loader := some (status, kcbs) } }

/-- An unloaded object's frames go back to the pool, zeroed. -/
def endUnload (s : State) (obj : Nat) : State :=
  match s.objs.get? obj with
  | none => s
  | some o => answerLoader (poolAdd { s with objs := s.objs.erase obj } o.vf o.freed) 0 []

/-- What awaited an invalidation goes on. -/
def endInval (s : State) (v : Inval) : State :=
  let s := settleInval s v
  match v.done with
  | .flight k fl => flightArrive s k fl []
  | .command q => endCommand s q 0
  | .load obj => answerLoader s 0 (match s.objs.get? obj with | some o => o.kcbs | none => [])
  | .unload obj => endUnload s obj
  | .move _ => s

end Sys2Proof.Machine
end

