-- ==== Sys2Proof/Machine/Loader.lean ====
section
/-! DEFINITION. Code objects (R428 to R432) and the loader: its checks, the virtual space and frames it takes, relocation,
the control blocks it patches, and the pages it makes valid (R441, R442). A load takes effect as one instant, and is answered once its invalidation is complete. -/

namespace Sys2Proof.Machine

open Sys2Proof

/-! ### The ELF file (R428, R429) -/

def asciiBytes (s : String) : List Byte := s.toList.map fun c => BitVec.ofNat 8 c.toNat

/-- A section of the file with its contents; a NOBITS section has zeros of its size. -/
structure Sect where
  name : List Byte
  type : Nat
  flags : Nat
  link : Nat
  info : Nat
  align : Nat
  size : Nat
  bytes : List Byte
  deriving DecidableEq, Repr

def elfIdent : List Byte := leBytes 9 (0x7F + 0x45 * 2 ^ 8 + 0x4C * 2 ^ 16 + 0x46 * 2 ^ 24 + 2 * 2 ^ 32 + 2 ^ 40 + 2 ^ 48)

/-- R428. -/
def elfHeaderOk (f : List Byte) : Bool :=
  f.take 9 == elfIdent && fieldAt f 16 2 == 1 && fieldAt f 18 2 == 0xDA50 && fieldAt f 20 4 == 1 &&
  fieldAt f 24 8 == 0 && fieldAt f 32 8 == 0 && fieldAt f 56 2 == 0 && fieldAt f 48 4 == 0 &&
  fieldAt f 58 2 == 64 && between 1 (fieldAt f 60 2 - 1) (fieldAt f 62 2) &&
  decide (fieldAt f 40 8 + 64 * fieldAt f 60 2 ≤ f.length)

/-- A string of a string table. -/
def cString (tab : List Byte) (off : Nat) : List Byte := (tab.drop off).takeWhile (· != 0)

def rawSect (f : List Byte) (i : Nat) : List Byte := (f.drop (fieldAt f 40 8 + 64 * i)).take 64

def sectOf (f names : List Byte) (i : Nat) : Option Sect :=
  let h := rawSect f i
  let size := fieldAt h 32 8
  let off := fieldAt h 24 8
  let nobits := fieldAt h 4 4 == 8
  if !nobits && f.length < off + size then none
  else some ⟨cString names (fieldAt h 0 4), fieldAt h 4 4, fieldAt h 8 8, fieldAt h 40 4, fieldAt h 44 4, fieldAt h 48 8,
    size, if nobits then [] else (f.drop off).take size⟩

/-- Every section but the empty one at index 0, under its index. -/
def sectsOf (f : List Byte) : Option (Tab Sect) :=
  let strh := rawSect f (fieldAt f 62 2)
  let names := (f.drop (fieldAt strh 24 8)).take (fieldAt strh 32 8)
  ((List.range (fieldAt f 60 2)).drop 1).mapM fun i => (sectOf f names i).map fun x => (i, x)

def isPow2 (n : Nat) : Bool := n != 0 && 2 ^ Nat.log2 n == n

/-- The sections of R429: type, flags, and a test of the alignment. -/
def sectRules : List (List Byte × Nat × Nat × (Nat → Bool)) :=
  [(asciiBytes ".text", 1, 6, fun a => decide (16 ≤ a) && isPow2 a), (asciiBytes ".rodata", 1, 2, isPow2),
   (asciiBytes ".data", 1, 3, isPow2), (asciiBytes ".bss", 8, 3, isPow2), (asciiBytes ".rela.text", 4, 0, (· == 8)),
   (asciiBytes ".rela.data", 4, 0, (· == 8)), (asciiBytes ".symtab", 2, 0, (· == 8)), (asciiBytes ".strtab", 3, 0, (· == 1)),
   (asciiBytes ".note.enerran", 7, 0, (· == 4))]

/-- R429: a section is one that the table lists, as listed, or one that is not allocated and has another name. -/
def sectOk (x : Sect) : Bool :=
  match sectRules.find? fun r => r.1 == x.name with
  | some (_, t, fl, al) => x.type == t && x.flags == fl && al x.align && (x.name != asciiBytes ".text" || x.size % 16 == 0)
  | none => x.flags / 2 % 2 == 0

def named? (ss : Tab Sect) (n : String) : Option (Nat × Sect) := ss.find? fun p => p.2.name == asciiBytes n

/-- The sections that are mapped, each with the permission bits of its page entries (R393). -/
def permsOf (x : Sect) : Option Nat :=
  if x.name = asciiBytes ".text" then some 0x40 else if x.name = asciiBytes ".rodata" then some 0
  else if x.name = asciiBytes ".data" || x.name = asciiBytes ".bss" then some 0x20 else none

/-! ### Symbols (R430) -/

structure Sym where
  name : List Byte
  type : Nat
  glob : Bool
  sect : Nat
  value : Nat
  size : Nat
  deriving DecidableEq, Repr

def shnAbs : Nat := 0xFFF1

def symsOf (tab str : List Byte) : List Sym :=
  (List.range (tab.length / 24)).map fun i =>
    let e := (tab.drop (24 * i)).take 24
    ⟨cString str (fieldAt e 0 4), fieldAt e 4 1 % 16, fieldAt e 4 1 / 16 == 1, fieldAt e 6 2, fieldAt e 8 8, fieldAt e 16 8⟩

def Sym.undef (x : Sym) : Bool := x.sect == 0 && !x.name.isEmpty
def kcbName (n : List Byte) : List Byte := n ++ asciiBytes ".kcb"

/-- The kernels, in the order of the symbol table. -/
def kernelsOf (text : Nat) (ys : List Sym) : List Sym := ys.filter fun y => y.type == 2 && y.sect == text

/-- The global names that an object defines. -/
def globalsOf (text : Nat) (ys : List Sym) : List (List Byte) :=
  (ys.filter fun y => y.glob && y.sect != 0).map (·.name) ++ (kernelsOf text ys).map fun y => kcbName y.name

/-! ### Notes (R432) -/

structure Note where
  name : List Byte
  type : Nat
  /-- Where the descriptor lies in the section. -/
  off : Nat
  desc : List Byte
  deriving DecidableEq, Repr

def pad4 (n : Nat) : Nat := (n + 3) / 4 * 4

def notesFrom : Nat → Nat → List Byte → Option (List Note)
  | 0, _, bs => if bs.isEmpty then some [] else none
  | fuel + 1, off, bs =>
    if bs.isEmpty then some []
    else
      let n := fieldAt bs 0 4
      let d := fieldAt bs 4 4
      let at0 := 12 + pad4 n
      if bs.length < at0 + d then none
      else (notesFrom fuel (off + at0 + pad4 d) (bs.drop (at0 + pad4 d))).map fun ns =>
        ⟨(bs.drop 12).take n, fieldAt bs 8 4, off + at0, (bs.drop at0).take d⟩ :: ns

def notesOf (bs : List Byte) : Option (List Note) := notesFrom bs.length 0 bs

def ofType (ns : List Note) (t : Nat) : List Note := ns.filter fun n => n.type == t

/-- The notes as R432 has them; a type 2 note holds every KCB's features (bits beyond them are the object's own). -/
def notesOk (ns : List Note) (kernels rodata : Nat) : Bool :=
  let feats : W128 := (ofType ns 1).foldl (fun m n => m ||| BitVec.ofNat 128 (fieldAt n.desc 0x38 16)) 0
  ns.all (fun n => n.name == asciiBytes "Enerran" ++ [0] && n.type != 0 && !between 5 15 n.type) &&
  (ofType ns 1).all (fun n => n.desc.length == 256) && (ofType ns 1).length == kernels &&
  decide ((ofType ns 2).length ≤ 1) &&
  (ofType ns 2).all (fun n => n.desc.length == 16 && feats &&& ~~~(BitVec.ofNat 128 (leNat n.desc)) == 0) &&
  (match ofType ns 3 with | [n] => n.desc.length == 4 && zeroAt n.desc 2 2 | _ => false) &&
  (ofType ns 4).all fun n => n.desc.length == 16 && zeroAt n.desc 12 4 && decide (fieldAt n.desc 0 8 + 64 ≤ rodata)

/-! ### Relocations (R431) -/

structure Rela where
  text : Bool
  /-- Section whose contents a data relocation changes. -/
  target : Nat
  off : Nat
  type : Nat
  sym : Nat
  add : Int
  deriving DecidableEq, Repr

def relasOf (ss : Tab Sect) : List Rela :=
  ss.flatMap fun p =>
    let text := p.2.name == asciiBytes ".rela.text"
    if text || p.2.name == asciiBytes ".rela.data" then
      (List.range (p.2.bytes.length / 24)).map fun i =>
        let e := (p.2.bytes.drop (24 * i)).take 24
        ⟨text, p.2.info, fieldAt e 0 8, fieldAt e 8 4, fieldAt e 12 4, signed 64 (fieldAt e 16 8)⟩
    else []

/-- The contents that relocation changes: sections by index, the notes under their section's index. -/
abbrev Image := Tab (List Byte)

def patch (bs : List Byte) (off : Nat) (new : List Byte) : List Byte := bs.take off ++ new ++ bs.drop (off + new.length)

/-- An FB control opcode (R84). -/
def fbOp (w : W32) : Bool :=
  let op := opOf w
  op == 0x034 || (op % 4 != 0 && [2, 3, 4, 5, 7, 10, 12].contains (op / 4))

/-- The field that an entry relocates: section, offset and length. -/
structure Field where
  sect : Nat
  off : Nat
  len : Nat
  deriving DecidableEq, Repr

def Field.meets (a b : Field) : Bool := a.sect == b.sect && overlaps a.off a.len b.off b.len

/-- What the linker knows: where each section lies, the symbols with their final values, and the special sections. -/
structure Link0 where
  base : Tab Nat
  value : Nat → Option Int
  inText : Nat → Bool
  text : Nat
  rodata : Option Nat
  data : Option Nat
  note : Nat

/-- One entry applied, with the field it wrote. -/
def applyOne (l : Link0) (im : Image) (r : Rela) : Option (Image × Option Field) :=
  let put (sect len : Nat) (new : Int → List Byte) : Option (Image × Option Field) :=
    match im.get? sect, l.value r.sym with
    | some bs, some v =>
      if bs.length < r.off + len then none
      else some (im.set sect (patch bs r.off (new (v + r.add))), some ⟨sect, r.off, len⟩)
    | _, _ => none
  match r.type, r.text with
  | 0, _ => some (im, none)
  | 1, false =>
    if some r.target = l.data || some r.target = l.rodata then put r.target 8 fun x => leBytes 8 (wrapN 64 x) else none
  | 2, true =>
    match im.get? l.text, l.base.get? l.text, l.value r.sym with
    | some bs, some b, some v =>
      let t := v + r.add
      let p := b + r.off
      let d := (t - 4 - ((p - p % 16 : Nat) : Int)) / 16
      let w := BitVec.ofNat 32 (fieldAt bs r.off 4)
      if t % 16 ≠ 4 || d < -8192 || 8191 < d || p % 4 ≠ 0 || p % 16 = 0 || !fbOp w then none
      else put l.text 4 fun _ => leBytes 4 (w.toNat / 2 ^ 14 * 2 ^ 14 + wrapN 14 d)
    | _, _, _ => none
  | 3, true => if l.inText r.sym then put l.note 8 fun x => leBytes 8 (wrapN 64 x) else none
  | _, _ => none

/-- Every entry in file order; no relocated field overlaps another. -/
def applyAll (l : Link0) : List Rela → List Field → Image → Option Image
  | [], _, im => some im
  | r :: rs, done, im =>
    match applyOne l im r with
    | none => none
    | some (im, none) => applyAll l rs done im
    | some (im, some f) => if done.any f.meets then none else applyAll l rs (f :: done) im

/-! ### Virtual space and frames (R441, steps 2, 3 and 6) -/

/-- Where the loader looks for free space: regions of 2^39 bytes from 2^54 up (the log says so). -/
def regionBytes : Nat := 2 ^ 39
def regionBase (i : Nat) : Nat := 2 ^ 54 + i * regionBytes

def roundUp (n a : Nat) : Nat := (n + a - 1) / a * a

def pagesOf (n : Nat) : Nat := (n + frameBytes - 1) / frameBytes

/-- A page is free where the context maps nothing at it. -/
def pageFree (s : State) (asid va : Nat) : Bool :=
  match walkVa s asid va with
  | .invalid false _ => true
  | _ => false

/-- Sections one after another, each at its alignment on pages of its own: their addresses and the end. -/
def layout : Nat → List (Nat × Sect) → Tab Nat × Nat
  | from0, [] => ([], from0)
  | from0, (i, x) :: xs =>
    let a := roundUp from0 (max x.align frameBytes)
    let r := layout (roundUp (a + x.size) frameBytes) xs
    (r.1.set i a, r.2)

def stretchFree (s : State) (asid va size : Nat) : Bool :=
  decide (va + size ≤ 2 ^ 55) && (List.range (pagesOf size)).all fun n => pageFree s asid (va + n * frameBytes)

/-- The first region in which the sections, at their alignments, and the page of the control blocks are free: the address
of each section, and that of the blocks. -/
def findRegion (s : State) (asid : Nat) (xs : List (Nat × Sect)) (kcbBytes : Nat) : Nat → Nat → Option (Tab Nat × Nat)
  | 0, _ => none
  | fuel + 1, i =>
    let r := layout (regionBase i) xs
    if (xs.all fun x => stretchFree s asid (r.1.getD x.1 0) x.2.size) && stretchFree s asid r.2 kcbBytes then some r
    else findRegion s asid xs kcbBytes fuel (i + 1)

def takeFrame (s : State) (vf : Nat) : Option (Nat × State) :=
  match s.vfs.get? vf with
  | none => none
  | some v => match v.pool with
    | [] => none
    | f :: fs => some (f, { s with vfs := s.vfs.set vf { v with pool := fs } })

/-- The address of a level-3 entry; missing tables are frames of the pool. -/
def leafAddr (s : State) (vf va : Nat) : Nat → Nat → Nat → Option (Nat × State)
  | 0, _, _ => none
  | fuel + 1, lvl, base =>
    match stage2 s vf (base + 8 * vaIndex va lvl) with
    | none => none
    | some t =>
      let s := fillTwo s vf (base + 8 * vaIndex va lvl)
      if lvl = 3 then some (t.pa, s)
      else
        let e := s.home64 t.pa
        if eV e then
          (if malformed e lvl || eLeaf e then none else leafAddr s vf va fuel (lvl + 1) (eFrame e * frameBytes))
        else match takeFrame s vf with
          | none => none
          | some (f, s) => leafAddr (devWrite s t.pa (leBytes 8 (f * frameBytes + 1))) vf va fuel (lvl + 1) (f * frameBytes)

/-- The entry of a loaded page: PROT S, GRAIN 128, BELL 0 (R429). -/
def loadedEntry (frame perms : Nat) : Nat := frame * frameBytes + 0x400 + 0x100 + perms + 0x10 + 3

/-- Maps one page on a frame of the pool with its contents. -/
def loadPage (s : State) (vf root va perms : Nat) (bytes : List Byte) : Option State :=
  match takeFrame s vf with
  | none => none
  | some (f, s) =>
    let s := fillTwo s vf (f * frameBytes)
    match framePa s vf f, leafAddr s vf va 3 1 root with
    | some pa, some (ea, s) => some (devWrite (devWrite s pa bytes) ea (leBytes 8 (loadedEntry f perms)))
    | _, _ => none

/-- Maps the pages of a section. -/
def loadPages (vf root perms : Nat) : Nat → Nat → List Byte → State → Option State
  | 0, _, _, s => some s
  | n + 1, va, bytes, s =>
    match loadPage s vf root va perms (bytes.take frameBytes) with
    | none => none
    | some s => loadPages vf root perms n (va + frameBytes) (bytes.drop frameBytes) s

/-- One stretch of pages to map: address, permissions, size and contents. -/
structure Stretch where
  va : Nat
  perms : Nat
  size : Nat
  bytes : List Byte
  deriving DecidableEq, Repr

def Stretch.pages (x : Stretch) : List Nat := (List.range (pagesOf x.size)).map fun n => x.va + n * frameBytes

def mapStretches (vf root : Nat) : List Stretch → State → Option State
  | [], s => some s
  | x :: xs, s =>
    match loadPages vf root x.perms (pagesOf x.size) x.va x.bytes s with
    | none => none
    | some s => mapStretches vf root xs s

/-! ### Loading (R441) -/

/-- The objects loaded into a context. -/
def objsIn (s : State) (asid : Nat) : Tab Obj := s.objs.filter fun p => p.2.asid == asid && p.2.freed.isEmpty

/-- An object that defines a global name, with the name's value. -/
def lookupObj (s : State) (asid : Nat) (n : List Byte) : Option (Nat × W64) :=
  (objsIn s asid).findSome? fun (p : Nat × Obj) => (p.2.syms.find? fun y => y.1 == n).map fun y => (p.1, y.2)

/-- The control block of each kernel: the note whose ENTRY is the kernel's (R430, R432); none where one has no note. -/
def kcbOfKernels (ks : List Sym) (notes : List Note) (im : Image) (note textBase kcbBase : Nat) :
    Option (List (List Byte × W64)) :=
  let entry (n : Note) : Nat := fieldAt ((im.getD note []).drop n.off) 0x08 8
  ks.mapM fun k => (notes.findIdx? fun n => entry n == textBase + k.value).map fun i =>
    (kcbName k.name, BitVec.ofNat 64 (kcbBase + 256 * i))

/-- What a load makes: the pages to map, the names, the KCBs, and the objects it rests on. -/
structure Plan where
  stretches : List Stretch
  syms : List (List Byte × W64)
  kcbs : List Nat
  deps : List Nat
  deriving DecidableEq, Repr

/-- Steps 1 to 5 of a load: every check, and the relocated contents. -/
def planLoad (s : State) (asid : Nat) (f : List Byte) : Option Plan :=
  if !elfHeaderOk f then none
  else match sectsOf f with
  | none => none
  | some ss =>
    match named? ss ".text", named? ss ".symtab", named? ss ".strtab", named? ss ".note.enerran" with
    | some (ti, _), some (_, symtab), some (_, strtab), some (ni, note) =>
      let ys := symsOf symtab.bytes strtab.bytes
      let ks := kernelsOf ti ys
      let rodata := named? ss ".rodata"
      match notesOf note.bytes with
      | none => none
      | some ns =>
        let globals := globalsOf ti ys
        let known (n : List Byte) : Option (Nat × W64) := lookupObj s asid n
        let wanted := (ys.filter Sym.undef).map (·.name)
        let ours := ks.map fun k => kcbName k.name
        if !(ss.all fun p => sectOk p.2) || !notesOk ns ks.length (match rodata with | some r => r.2.size | none => 0) ||
            globals.eraseDups.length != globals.length || globals.any (fun n => (known n).isSome) ||
            wanted.any (fun n => !ours.contains n && (known n).isNone) then none
        else
          let mapped := ss.filter fun p => (permsOf p.2).isSome
          match findRegion s asid mapped (256 * ks.length) 32768 0 with
          | none => none
          | some (base, kcbBase) =>
            let tb := base.getD ti 0
            let kcbs := (List.range ks.length).map fun n => kcbBase + 256 * n
            let valueOf (own : List (List Byte × W64)) (y : Sym) : Option Int :=
              if y.sect = shnAbs then some (y.value : Int)
              else if y.sect = 0 then
                (match own.find? fun p => p.1 == y.name with
                 | some p => some (p.2.toNat : Int)
                 | none => (known y.name).map fun p => (p.2.toNat : Int))
              else (base.get? y.sect).map fun a => ((a + y.value : Nat) : Int)
            let relocate (rs : List Rela) (own : List (List Byte × W64)) : Option Image :=
              applyAll
                { base := base, value := fun i => ys[i]?.bind (valueOf own)
                  inText := fun i => match ys[i]? with | some y => y.sect == ti | none => false
                  text := ti, rodata := rodata.map (·.1), data := (named? ss ".data").map (·.1), note := ni }
                rs [] (ss.map fun p => (p.1, p.2.bytes))
            -- Entries of type 3 alone change a note: they find the kernels' notes, and so the addresses of their control blocks.
            let pass := (relasOf ss).filter fun r => r.text && r.type == 3
            match (relocate pass []).bind fun im => (kcbOfKernels ks (ofType ns 1) im ni tb kcbBase).bind fun own =>
                (relocate (relasOf ss) own).map fun im => (own, im) with
            | none => none
            | some (kcbSyms, im) =>
              let textBytes := im.getD ti []
              let blocks := (ofType ns 1).map fun n => ((im.getD ni []).drop n.off).take 256
              let word (a : Nat) : W32 := BitVec.ofNat 32 (fieldAt textBytes (a - tb) 4)
              if !(blocks.all fun k => kcbOk k tb (tb + textBytes.length) word) then none
              else some
                { stretches := (mapped.filterMap fun (p : Nat × Sect) => (permsOf p.2).map fun perms =>
                    ⟨base.getD p.1 0, perms, p.2.size, if p.2.type = 8 then [] else im.getD p.1 []⟩) ++
                    [⟨kcbBase, 0, 256 * ks.length, blocks.flatten⟩]
                  syms := ((ys.filter fun y => y.glob && y.sect != 0).filterMap fun y =>
                    (valueOf kcbSyms y).map fun v => (y.name, BitVec.ofInt 64 v)) ++ kcbSyms
                  kcbs := kcbs
                  deps := ((relasOf ss).filterMap fun r => match ys[r.sym]? with
                    | some y => if r.type = 0 || !y.undef || ours.contains y.name then none else (known y.name).map (·.1)
                    | none => none).eraseDups }
    | _, _, _, _ => none

/-- A load: all of its steps, and then its invalidation; a failure has no effect but its status (R421, R441). -/
def loadNow (s : State) (vf asid : Nat) (f : List Byte) : State :=
  match s.ctxs.get? asid with
  | none => answerLoader s 1 []
  | some c =>
    if c.vf ≠ vf then answerLoader s 3 []
    else match planLoad s asid f with
      | none => answerLoader s 1 []
      | some p =>
        match mapStretches vf c.root p.stretches s with
        | none => answerLoader s 2 []
        | some s =>
          let k := s.nextKey
          startInval { s with
            objs := s.objs.set k ⟨vf, asid, p.stretches.flatMap Stretch.pages, p.syms, p.kcbs, p.deps, []⟩
            nextKey := k + 1 } (.ctx asid) (.load k)

/-- LOAD_OBJECT (R441): a failure frees everything the load took. -/
def execLoadObject (vf asid : Nat) (bytes : List Byte) (s : State) : Out := .next (loadNow s vf asid bytes)

/-! ### Unloading (R442) -/

/-- A KCB of an object named by a grid that is queued or running. -/
def objInUse (s : State) (o : Obj) : Bool :=
  s.grids.any fun p => p.2.asid == o.asid && p.2.st != .done && o.kcbs.contains p.2.kcbAddr

/-- The pages' entries are written invalid; their frames, for the pool. -/
def unmapPages (s : State) (asid : Nat) (pages : List Nat) : State × List Nat :=
  pages.foldl (fun (r : State × List Nat) va =>
    let s := fillWalk r.1 asid va
    match pageEntry s asid va with
    | none => (s, r.2)
    | some (ea, e) => (devWrite s ea (leBytes 8 0), r.2 ++ [eFrame e])) (s, [])

/-- An unload: status 4 while a grid or another object needs the object; its frames go back once the invalidation of the
context is complete. -/
def execUnloadObject (vf obj : Nat) (s : State) : Out :=
  match s.objs.get? obj with
  | none => .next (answerLoader s 1 [])
  | some o =>
    if o.vf ≠ vf then .next (answerLoader s 3 [])
    else if objInUse s o || (s.objs.any fun p => p.1 != obj && p.2.deps.contains obj) || !o.freed.isEmpty then
      .next (answerLoader s 4 [])
    else
      let (s, frames) := unmapPages s o.asid o.pages
      .next (startInval { s with objs := s.objs.set obj { o with freed := frames } } (.ctx o.asid) (.unload obj))

end Sys2Proof.Machine
end

