-- ==== Sys2Proof/Machine/Bringup.lean ====
section
/-! DEFINITION. Bring-up from module reset to the driver's handshake (R427), the registers of BAR 0 that a host writes
(R427, R449, R453), and the throttle of the arithmetic clock (R391). -/

namespace Sys2Proof.Machine

open Sys2Proof

/-! ### Stages (R427) -/

def stageStopped : Nat := 0x80000000
def stageReady : W32 := 4
def stageRunning : W32 := 5

/-- The cores that the fuses disable: none of an ENR-7512, 32 of each cluster of an ENR-7384 (R1). -/
def fusedOff (fw : Firmware) : List Nat :=
  if !fw.grade7384 then []
  else if (List.range 4).all fun k => ((List.range 128).filter fun p => fw.fused.contains (128 * k + p)).length == 32 then fw.fused
  else (List.range 512).filter fun c => decide (96 ≤ c % 128)

/-- The cores in service, in SR.CORE order. -/
def coresIn (s : State) : List Nat :=
  (List.range 512).filter fun c => !(fusedOff s.fw).contains c && !s.fw.coresOut.contains c

/-- Every core in service belongs to the physical function, numbered by R443 (R388). -/
def firstCores (s : State) : Tab Core :=
  (coresIn s).zipIdx.map fun p => (p.1, { Core.empty with vf := some 0, vcore := some p.2 })

/-- A function as it stands before its driver: the weir entry's reset values (R388), the default tithe (R297), and a
slot quota and feature mask of the model's choice (the log says so). -/
def Vf.start (pf : Bool) : Vf :=
  { mask := BitVec.allOnes 128, offered := 0xFFFF, accepted := 0, quota := if pf then 64 else 1, tithe := 196608, pool := []
    s2root := none, floor := 0, share := 0, deadline := 0, gsmax := 0, used := 0, shortSince := none, freeNums := []
    launchq := [], nextGrid := 1, adminAddr := 0, adminQ := none, ready := false }

def firstVfs : Tab Vf := (List.range 64).map fun v => (v, Vf.start (v == 0))

def Link.start : Link := ⟨true, false, 0, 0, [], [], none, []⟩

def linkCount : Nat := 24

/-- The words of the public key and the certificate chain that the identity's configuration space shows (R426). -/
def identityWords : Nat := 256

/-- Self-test takes a unit out of service from the start (R427): a mesh takes its cluster, a die-to-die link its die (R409). -/
def failUnit (fw : Firmware) : ErrUnit → Firmware
  | .core c => { fw with coresOut := fw.coresOut ++ [c] }
  | .slice die n => { fw with slicesOut := fw.slicesOut ++ [die * 128 + n] }
  | .link l => { fw with linksOut := fw.linksOut ++ [l] }
  | .mesh die cl =>
    { fw with
      coresOut := fw.coresOut ++ (List.range 128).map (die * 256 + cl * 128 + ·)
      slicesOut := fw.slicesOut ++ (List.range 64).map (die * 128 + cl * 64 + ·) }
  | .die d =>
    { fw with
      coresOut := fw.coresOut ++ (List.range 256).map (d * 256 + ·)
      slicesOut := fw.slicesOut ++ (List.range 128).map (d * 128 + ·) }
  | .line _ => fw

/-- A die is out of service once the four slices of a group are (R317). -/
def deadDie (fw : Firmware) (d : Nat) : Bool :=
  (List.range 32).any fun g => (List.range 4).all fun i => fw.slicesOut.contains (d * 128 + 4 * g + i)

/-- What self-test leaves; a die that its slices take out of service goes as a whole. -/
def selfTest (fw : Firmware) (us : List ErrUnit) : Firmware :=
  let fw := us.foldl failUnit fw
  let fw := [0, 1].foldl (fun fw d => if deadDie fw d then failUnit fw (.die d) else fw) fw
  { fw with coresOut := fw.coresOut.eraseDups, slicesOut := fw.slicesOut.eraseDups, linksOut := fw.linksOut.eraseDups }

/-- What the device holds once it is ready for the driver. -/
def readyDevice (s : State) : State :=
  { s with
    cores := firstCores s
    vfs := firstVfs
    fab := { s.fab with links := (List.range linkCount).map fun n =>
      (n, { Link.start with inService := !s.fw.linksOut.contains n }) }
    fw := { s.fw with stage := stageReady, identity := (List.range identityWords).map fun n => Config.attestWord (6 + n) } }

def atStage (s : State) (n : Nat) : State := { s with fw := { s.fw with stage := BitVec.ofNat 32 n } }

/-- The configuration that the fuses and the self-tests have left, which CFGHASH hashes (R426, R427). -/
def configure (s : State) : State :=
  { s with fw := { s.fw with cfg := (fusedOff s.fw ++ s.fw.coresOut, s.fw.slicesOut, s.fw.linksOut) } }

/-- Stages 1 to 3 end in the next stage or in the stop value: stage 1 with the units that fail its self-test, and stopped
where no compute die is left. Stage 4 has no failure, and later values stay. -/
def execBringUpStageComplete (r : StageResult) (s : State) : Out :=
  let n := s.fw.stage.toNat
  if n = 0 || 3 < n then .next s
  else match r with
    | .fail => .next (atStage s (stageStopped + n))
    | .ok failed =>
      if n = 1 then
        let s := { s with fw := selfTest s.fw failed }
        .next (atStage s (if deadDie s.fw 0 && deadDie s.fw 1 then stageStopped + 1 else 2))
      else if n = 3 then .next (readyDevice (configure s)) else .next (atStage s (n + 1))

/-- Module reset: the ROM starts anew, and its self-test finds what is out of service. The fuses, the device number and the
world outside stay. -/
def execModuleReset (s : State) : Out :=
  .next { State.reset with
    inputs := s.inputs
    sched := s.sched
    fresh := s.fresh
    fab := { State.reset.fab with dev := s.fab.dev, remote := s.fab.remote }
    fw := { State.reset.fw with grade7384 := s.fw.grade7384, fused := s.fw.fused } }

/-! ### BAR 0 (R427) -/

/-- The stage at offset 0. -/
def bar0Stage (s : State) : W32 := s.fw.stage

/-- The core map at offset 0x100: bit c is set when core c is in service. -/
def coreMap (s : State) : BitVec 512 :=
  if s.fw.stage = stageReady || s.fw.stage = stageRunning then
    s.cores.keys.foldl (fun m c => m ||| ((1 : BitVec 512) <<< c)) 0
  else 0

/-- The admin queue that the ROM creates: the driver's control block with PRIO 15 and doorbell 0. -/
def adminQueue (s : State) (vf pa : Nat) : State :=
  let (s, priv) := devRead s (pa + 0x40) 64
  let q : Queue := { Queue.of pa priv with prio := 15, dbidx := 0, vf := vf }
  let s := devWrite s (pa + 0x40) q.priv
  let k := s.nextKey
  let s := addQueue s q
  { s with vfs := s.vfs.modify vf fun v => { v with adminQ := some k, ready := true } }

/-- Writing 1 to offset 0x10: of the physical function at stage 4, of a virtual one while the device runs. -/
def execDriverHandshake (vf : Nat) (s : State) : Out :=
  match s.vfs.get? vf with
  | none => .next s
  | some v =>
    if v.ready || s.fw.stage != (if vf = 0 then stageReady else stageRunning) then .next s
    else match ownPa s vf v.adminAddr with
      | none => .next s
      | some pa =>
        let s := adminQueue (fillTwo s vf v.adminAddr) vf pa
        .next { s with fw := { s.fw with stage := stageRunning } }

/-- The writable bits of an ingest window (R453, R7). -/
def ingestMask : W128 :=
  BitVec.ofNat 128 (2 ^ 116 - 2 ^ 64 + (2 ^ 64 - 2 ^ 55) + (2 ^ 52 - 2 ^ 16))

/-- A path of the routing table changes. -/
def setRoute (s : State) (path : Nat) (x : Nat × Nat) : State :=
  { s with fab := { s.fab with route := s.fab.route.set path x, reroute := s.fab.reroute.erase path } }

/-- REGISTER_WRITE: registers with no behaviour of their own; a path on which a transfer is in flight changes later (R449). -/
def execRegisterWrite (r : HostReg) (value : W128) (s : State) : Out :=
  match r with
  | .adminQcb vf => .next { s with vfs := s.vfs.modify vf fun v => { v with adminAddr := value.toNat % 2 ^ 64 } }
  | .ingest i =>
    if i < 16 then .next { s with fab := { s.fab with ingest := s.fab.ingest.put 0 i (value &&& ingestMask) } } else .next s
  | .route dest cls link alt =>
    if dest < 512 ∧ cls < 3 ∧ link < linkCount ∧ alt < linkCount then
      .next (if s.pathIdle (dest * 3 + cls) then setRoute s (dest * 3 + cls) (link, alt)
        else { s with fab := { s.fab with reroute := s.fab.reroute.set (dest * 3 + cls) (link, alt) } })
    else .next s
  | .timePage =>
    .next { s with fab := { s.fab with timeFrame := if value = 0 then none else some (value.toNat % 2 ^ 36) } }
  | .coll grp vf rank submit members =>
    if between 2 512 members.length && decide (rank < members.length) && s.vfs.has vf then
      let c : Coll := ⟨vf, rank, members.length, members, [], some submit, [], [], false⟩
      .next { s with fab := { s.fab with colls := s.fab.colls.set grp c } }
    else .next s

/-! ### The throttle (R391) -/

def mhzMax : Nat := 2700
def mhzMin : Nat := 1350

/-- A sample of module power and of a die's temperature: above a limit the clock is lowered, below both it is raised. A change is a
throttle event, with its clk. -/
def execThrottleSample (x : Sample) (s : State) : Out :=
  let hot := decide (s.fw.limits.1 < x.watts) || decide (s.fw.limits.2 < x.celsius)
  let cool := decide (x.watts < s.fw.limits.1) && decide (x.celsius < s.fw.limits.2)
  let f := if hot then max mhzMin (s.fw.mhz - 100) else if cool then min mhzMax (s.fw.mhz + 100) else s.fw.mhz
  if f = s.fw.mhz then .next s
  else .next { s with fw := { s.fw with mhz := f, epoch := (s.clk, s.now), throttles := s.fw.throttles ++ [(s.clk, f)] } }

end Sys2Proof.Machine
end

