-- ==== Sys2Proof/Machine/VecInt.lean ====
section
/-! DEFINITION. The vector integer instructions, class 2 (R141 to R146). -/

namespace Sys2Proof.Machine

open Sys2Proof

/-! ### Element results (R142) -/

/-- `vd := f n x y` on every element: B from a register, C from a register or a scalar. -/
def vecOp (s : State) (i : Instr) (w : Width) (a b : VReg) (c : VSrc) (f : Nat → Nat → Nat → Nat) : Out :=
  laneOp s i a w.regs fun ix l =>
    let x := ix.x.g.wide w l b.toNat
    let y := vsrcWide ix w c l
    let n := widthBits w
    ⟨wideRegs w (mapElems w fun j => f n (elemAt n x j) (elemAt n y j)), 0⟩

/-- The same with one source. -/
def vecOp1 (s : State) (i : Instr) (w : Width) (a b : VReg) (f : Nat → Nat → Nat) : Out :=
  laneOp s i a w.regs fun ix l =>
    let x := ix.x.g.wide w l b.toNat
    let n := widthBits w
    ⟨wideRegs w (mapElems w fun j => f n (elemAt n x j)), 0⟩

def eSub (n x y : Nat) : Nat := wrapN n ((x : Int) - (y : Int))
def eAddsI (n x y : Nat) : Nat := wrapN n (satI n (signed n x + signed n y))
def eAddsN (n x y : Nat) : Nat := wrapN n (satN n ((x : Int) + (y : Int)))
def eSubsI (n x y : Nat) : Nat := wrapN n (satI n (signed n x - signed n y))
def eSubsN (n x y : Nat) : Nat := wrapN n (satN n ((x : Int) - (y : Int)))
def eMulhI (n x y : Nat) : Nat := wrapN n (signed n x * signed n y / ((2 ^ n : Nat) : Int))
def eMinI (n x y : Nat) : Nat := if signed n x ≤ signed n y then x else y
def eMaxI (n x y : Nat) : Nat := if signed n y ≤ signed n x then x else y
def eAbs (n x : Nat) : Nat := wrapN n ((signed n x).natAbs : Int)
def eShl (n x y : Nat) : Nat := if y < n then x * 2 ^ y else 0
def eShr (n x y : Nat) : Nat := if y < n then x / 2 ^ y else 0
def eSar (n x y : Nat) : Nat :=
  if y < n then wrapN n (signed n x / ((2 ^ y : Nat) : Int)) else if signed n x < 0 then 2 ^ n - 1 else 0

def execIadd (w : Width) (a b : VReg) (c : VSrc) (s : State) : Out := vecOp s (.iadd w a b c) w a b c fun _ x y => x + y
def execIsub (w : Width) (a b : VReg) (c : VSrc) (s : State) : Out := vecOp s (.isub w a b c) w a b c eSub
def execIaddsI (w : Width) (a b : VReg) (c : VSrc) (s : State) : Out := vecOp s (.iaddsI w a b c) w a b c eAddsI
def execIaddsN (w : Width) (a b : VReg) (c : VSrc) (s : State) : Out := vecOp s (.iaddsN w a b c) w a b c eAddsN
def execIsubsI (w : Width) (a b : VReg) (c : VSrc) (s : State) : Out := vecOp s (.isubsI w a b c) w a b c eSubsI
def execIsubsN (w : Width) (a b : VReg) (c : VSrc) (s : State) : Out := vecOp s (.isubsN w a b c) w a b c eSubsN
def execImul (w : Width) (a b : VReg) (c : VSrc) (s : State) : Out := vecOp s (.imul w a b c) w a b c fun _ x y => x * y
def execImulhI (w : Width) (a b : VReg) (c : VSrc) (s : State) : Out := vecOp s (.imulhI w a b c) w a b c eMulhI

def execImulhN (w : Width) (a b : VReg) (c : VSrc) (s : State) : Out :=
  vecOp s (.imulhN w a b c) w a b c fun n x y => x * y / 2 ^ n

/-- R143: the addend is A, or the register that D4 names (R82). -/
def execImad (w : Width) (a b : VReg) (c : VSrc) (s : State) : Out :=
  laneOp s (.imad w a b c) a w.regs fun ix l =>
    let n := widthBits w
    let x := ix.x.g.wide w l b.toNat
    let y := vsrcWide ix w c l
    let d := ix.x.g.wide w l (ix.d4.getD a.toNat)
    ⟨wideRegs w (mapElems w fun j => elemAt n x j * elemAt n y j + elemAt n d j), 0⟩

def execIminI (w : Width) (a b : VReg) (c : VSrc) (s : State) : Out := vecOp s (.iminI w a b c) w a b c eMinI
def execIminN (w : Width) (a b : VReg) (c : VSrc) (s : State) : Out := vecOp s (.iminN w a b c) w a b c fun _ x y => min x y
def execImaxI (w : Width) (a b : VReg) (c : VSrc) (s : State) : Out := vecOp s (.imaxI w a b c) w a b c eMaxI
def execImaxN (w : Width) (a b : VReg) (c : VSrc) (s : State) : Out := vecOp s (.imaxN w a b c) w a b c fun _ x y => max x y
def execIabs (w : Width) (a b : VReg) (s : State) : Out := vecOp1 s (.iabs w a b) w a b eAbs
def execAnd (w : Width) (a b : VReg) (c : VSrc) (s : State) : Out := vecOp s (.and w a b c) w a b c fun _ x y => x &&& y
def execOr (w : Width) (a b : VReg) (c : VSrc) (s : State) : Out := vecOp s (.or w a b c) w a b c fun _ x y => x ||| y
def execXor (w : Width) (a b : VReg) (c : VSrc) (s : State) : Out := vecOp s (.xor w a b c) w a b c fun _ x y => x ^^^ y
def execShl (w : Width) (a b : VReg) (c : VSrc) (s : State) : Out := vecOp s (.shl w a b c) w a b c eShl
def execShr (w : Width) (a b : VReg) (c : VSrc) (s : State) : Out := vecOp s (.shr w a b c) w a b c eShr
def execSar (w : Width) (a b : VReg) (c : VSrc) (s : State) : Out := vecOp s (.sar w a b c) w a b c eSar

/-! ### Bit fields (R144) -/

/-- pos and the effective length of a control register. -/
def bfxField (n : Nat) (ctl : W32) : Nat × Nat :=
  let pos := ctl.toNat % 64
  let len := ctl.toNat / 256 % 128
  (pos, if pos < n then min len (n - pos) else 0)

def bfxVal (n : Nat) (sgn : Bool) (x : Nat) (ctl : W32) : Nat :=
  let (pos, len) := bfxField n ctl
  let f := x / 2 ^ pos % 2 ^ len
  if len = 0 then 0 else if sgn then wrapN n (signed len f) else f

def bfiVal (n x ins : Nat) (ctl : W32) : Nat :=
  let (pos, len) := bfxField n ctl
  if len = 0 then x
  else x / 2 ^ (pos + len) * 2 ^ (pos + len) + ins % 2 ^ len * 2 ^ pos + x % 2 ^ pos

def bfxOp (s : State) (i : Instr) (w : Width) (a b c : VReg) (sgn : Bool) : Out :=
  laneOp s i a w.regs fun ix l =>
    ⟨wideRegs w (bfxVal (widthBits w) sgn (ix.x.g.wide w l b.toNat) (ix.x.g.vreg l c.toNat)), 0⟩

def execBfxI (w : Width) (a b c : VReg) (s : State) : Out := bfxOp s (.bfxI w a b c) w a b c true
def execBfxN (w : Width) (a b c : VReg) (s : State) : Out := bfxOp s (.bfxN w a b c) w a b c false

def execBfi (w : Width) (a b c : VReg) (s : State) : Out :=
  laneOp s (.bfi w a b c) a w.regs fun ix l =>
    ⟨wideRegs w (bfiVal (widthBits w) (ix.x.g.wide w l b.toNat) (ix.x.g.wide w l (ix.d4.getD a.toNat))
      (ix.x.g.vreg l c.toNat)), 0⟩

/-! ### Counts, selection, moves (R145) -/

def popCount (n x : Nat) : Nat := ((List.range n).filter fun i => x.testBit i).length

def execPopc (w : Width) (a b : VReg) (s : State) : Out := vecOp1 s (.popc w a b) w a b popCount
def execClz (w : Width) (a b : VReg) (s : State) : Out := vecOp1 s (.clz w a b) w a b fun n x => n - bitLen x

/-- SEL writes every live lane, whatever MZ says. -/
def execSel (w : Width) (a b : VReg) (c : VSrc) (s : State) : Out :=
  plainOp s (.sel w a b c) fun ix =>
    ix.live.flatMap fun l =>
      let x := if ix.isAct l then ix.x.g.wide w l b.toNat else vsrcWide ix w c l
      laneWrites ix.x.g l a.toNat (wideRegs w x) 0

def execMov (w : Width) (a b : VReg) (s : State) : Out := vecOp1 s (.mov w a b) w a b fun _ x => x

def execMovVs (w : Width) (a : VReg) (c : SReg) (s : State) : Out :=
  laneOp s (.movVs w a c) a w.regs fun ix _ => ⟨wideRegs w (scalarWide w (ix.x.rd c)), 0⟩

def execMovi (a : VReg) (i : BitVec 14) (s : State) : Out :=
  laneOp s (.movi a i) a 1 fun _ _ => ⟨[i.signExtend 32], 0⟩

end Sys2Proof.Machine
end

