-- ==== Sys2Proof/Machine/Mask.lean ====
section
/-! DEFINITION. Compares, mask logic and mask transfer, class 3 (R147 to R152). -/

namespace Sys2Proof.Machine

open Sys2Proof

/-- R147: the element that XMOD selects, or the whole register or pair. -/
def execIcmp (k : Cmp) (n : Bool) (w : Width) (a : MReg) (b : VReg) (c : VSrc) (s : State) : Out :=
  maskOp s (.icmp k n w a b c) a fun ix l =>
    let bits := widthBits w
    let x := elemAt bits (ix.x.g.wide w l b.toNat) (ix.xmod % 4)
    let y := elemAt bits (vsrcWide ix w c l) (ix.xmod % 4)
    (if n then cmpHolds k x y else cmpHolds k (signed bits x) (signed bits y), 0)

def execFcmp (k : FCond) (a : MReg) (b : VReg) (c : VSrc) (s : State) : Out :=
  maskOp s (.fcmp k a b c) a fun ix l => fcompare k (ix.x.g.wide .w32 l b.toNat) (vsrcWide ix .w32 c l)

/-- R149: C[4:0] the classes, C[5] a clear and C[6] a set sign bit. -/
def ftstHolds (c : BitVec 7) (x : Nat) : Bool :=
  c.getLsbD (Fmt.fp32.classOf x) && (if Fmt.fp32.signOf x then c.getLsbD 6 else c.getLsbD 5)

def execFtst (a : MReg) (b : VReg) (c : BitVec 7) (s : State) : Out :=
  maskOp s (.ftst a b c) a fun ix l => (ftstHolds c (ix.x.g.wide .w32 l b.toNat), 0)

/-! ### Mask logic (R150) -/

def maskLogic (s : State) (i : Instr) (a : MReg) (f : Group → W64) : Out :=
  plainOp s i fun ix => [.m a.toNat (f ix.x.g &&& widthMask ix.x.g.w)]

def execMand (a b c : MReg) (s : State) : Out :=
  maskLogic s (.mand a b c) a fun g => g.mreg b.toNat &&& g.mreg c.toNat
def execMor (a b c : MReg) (s : State) : Out :=
  maskLogic s (.mor a b c) a fun g => g.mreg b.toNat ||| g.mreg c.toNat
def execMxor (a b c : MReg) (s : State) : Out :=
  maskLogic s (.mxor a b c) a fun g => g.mreg b.toNat ^^^ g.mreg c.toNat
def execMandn (a b c : MReg) (s : State) : Out :=
  maskLogic s (.mandn a b c) a fun g => g.mreg b.toNat &&& ~~~(g.mreg c.toNat)
def execMnot (a b : MReg) (s : State) : Out := maskLogic s (.mnot a b) a fun g => ~~~(g.mreg b.toNat)
def execMmov (a b : MReg) (s : State) : Out := maskLogic s (.mmov a b) a fun g => g.mreg b.toNat

/-! ### Mask transfer (R151) -/

def execMset (a : MReg) (b : SReg) (s : State) : Out :=
  plainOp s (.mset a b) fun ix => [.m a.toNat (ix.x.rd b &&& widthMask ix.x.g.w)]

def execMget (a : SIdx) (b : MReg) (s : State) : Out :=
  plainOp s (.mget a b) fun ix => [.s a.toNat (ix.x.g.mreg b.toNat)]

def execMpop (a : SIdx) (b : MReg) (s : State) : Out :=
  plainOp s (.mpop a b) fun ix =>
    [.s a.toNat (BitVec.ofNat 64 (lanesOf ix.x.g.w (ix.x.g.mreg b.toNat &&& ix.x.g.live)).length)]

def execMfirst (a : SIdx) (b : MReg) (s : State) : Out :=
  plainOp s (.mfirst a b) fun ix =>
    [.s a.toNat (BitVec.ofNat 64 ((lanesOf ix.x.g.w (ix.x.g.mreg b.toNat &&& ix.x.g.live)).headD ix.x.g.w))]

end Sys2Proof.Machine
end

