-- ==== Sys2Proof/Machine/Special.lean ====
section
/-! DEFINITION. The special functions of R168 and R169: each exact function value, held as an integer at a scale
of 2^-384 with a sticky bit, is rounded once by round_fmt(·, FP32, RNE), and flush_sf (R51) applies. A value that
is not listed as exact in R169 is irrational, so the sticky bit is set; that no FP32 input brings such a value
within 2^-300 of a rounding boundary is assumption 21. -/

namespace Sys2Proof

/-- The scale of the fixed-point values. -/
def sfP : Nat := 384

/-- floor(ln 2 × 2^384) and floor(π × 2^384). -/
def sfLn2 : Nat := 0xb17217f7d1cf79abc9e3b39803f2f6af40f343267298b62d8a0d175b8baafa2be7b876206debac98559552fb4afa1b10
def sfPi : Nat := 0x3243f6a8885a308d313198a2e03707344a4093822299f31d0082efa98ec4e6c89452821e638d01377be5466cf34e90c6c

/-- floor(√n), by binary digits from bit `k` down. -/
def isqrtFrom (n : Nat) : Nat → Nat → Nat
  | 0, r => r
  | k + 1, r =>
    let r' := r + 2 ^ k
    isqrtFrom n k (if r' * r' ≤ n then r' else r)

def isqrt (n : Nat) : Nat := isqrtFrom n (bitLen n / 2 + 1) 0

/-- Taylor sum of e^y, 0 ≤ y < 1, at scale 2^p. -/
def expSeries (p y : Nat) : Nat → Nat → Nat → Nat → Nat
  | 0, _, _, acc => acc
  | fuel + 1, k, t, acc =>
    let t' := t * y / 2 ^ p / k
    expSeries p y fuel (k + 1) t' (acc + t')

def expFix (p y : Nat) : Nat := expSeries p y 100 1 (2 ^ p) (2 ^ p)

/-- Taylor sum of sin y, 0 ≤ y < 2, at scale 2^p. -/
def sinSeries (p yy : Nat) : Nat → Nat → Bool → Nat → Int → Int
  | 0, _, _, _, acc => acc
  | fuel + 1, k, neg, t, acc =>
    let t' := t * yy / 2 ^ p / (k * (k + 1))
    sinSeries p yy fuel (k + 2) (!neg) t' (if neg then acc - (t' : Int) else acc + (t' : Int))

def sinFix (p y : Nat) : Nat := (sinSeries p (y * y / 2 ^ p) 60 2 true y (y : Int)).toNat

/-- Rounds a nonzero exact value m × 2^e (strictly above it when `st`), with flush_sf (R51). -/
def sfRound (neg : Bool) (m : Nat) (e : Int) (st : Bool) : Nat × Nat :=
  if e + (bitLen m : Int) - 1 < -126 then (Fmt.fp32.withSign neg 0, fUF + fNX)
  else roundFmt .fp32 .rne 0 (.fin neg m e) st

def sfNan : Nat × Nat := (Fmt.fp32.nanCode, fINV)
def sfInf (neg : Bool) (g : Nat) : Nat × Nat := (Fmt.fp32.withSign neg Fmt.fp32.infCode, g)
def sfOne (neg : Bool) : Nat × Nat := (Fmt.fp32.withSign neg 0x3F800000, 0)
def sfZero (neg : Bool) : Nat × Nat := (Fmt.fp32.withSign neg 0, 0)

/-- 2^x (EXP2). -/
def sfExp2 (x : Nat) : Nat × Nat :=
  match Fmt.fp32.read x with
  | .nan s => (Fmt.fp32.nanCode, if s then fINV else 0)
  | .inf neg => if neg then sfZero false else sfInf false 0
  | .fin neg m e =>
    if m = 0 then sfOne false
    else
      let big := FVal.fin false m e
      if !neg && !(big.lt (.fin false 128 0)) then sfInf false (fOF + fNX)
      else if neg && FVal.lt (.fin false 126 0) big then (0, fUF + fNX)
      else
        let den : Nat := 2 ^ (-e).toNat
        let num : Int := (m * 2 ^ e.toNat : Nat)
        let v := if neg then -num else num
        let n := v / (den : Int)
        let r := (v % (den : Int)).toNat
        if r = 0 then sfRound false 1 n false
        else
          let y := expFix sfP (r * sfLn2 / den)
          sfRound false (if 2 ^ (sfP + 1) ≤ y then 2 ^ (sfP + 1) - 1 else y) (n - (sfP : Int)) true

/-- The binary digits of log2 of y / 2^p, 1 ≤ y / 2^p < 2. -/
def log2Digits (p : Nat) : Nat → Nat → Nat → Nat
  | 0, _, acc => acc
  | k + 1, y, acc =>
    let z := y * y / 2 ^ p
    if 2 ^ (p + 1) ≤ z then log2Digits p k (z / 2) (2 * acc + 1) else log2Digits p k z (2 * acc)

/-- log2 x (LOG2). -/
def sfLog2 (x : Nat) : Nat × Nat :=
  match Fmt.fp32.read x with
  | .nan s => (Fmt.fp32.nanCode, if s then fINV else 0)
  | .inf neg => if neg then sfNan else sfInf false 0
  | .fin neg m e =>
    if m = 0 then sfInf true fDZ
    else if neg then sfNan
    else
      let l := bitLen m
      let n : Int := e + (l : Int) - 1
      if m = 2 ^ (l - 1) then roundFmt .fp32 .rne 0 (intVal n)
      else
        let digits := log2Digits sfP 160 (m * 2 ^ (sfP - (l - 1))) 0
        let t : Int := n * ((2 ^ 160 : Nat) : Int) + (digits : Int)
        if 0 ≤ t then sfRound false t.natAbs (-160) true else sfRound true (t.natAbs - 1) (-160) true

/-- 1/x (RCP). -/
def sfRcp (x : Nat) : Nat × Nat :=
  match Fmt.fp32.read x with
  | .nan s => (Fmt.fp32.nanCode, if s then fINV else 0)
  | .inf neg => sfZero neg
  | .fin neg m e =>
    if m = 0 then sfInf neg fDZ
    else sfRound neg (2 ^ 80 / m) (-80 - e) (2 ^ 80 % m != 0)

/-- 1/√x (RSQ). -/
def sfRsq (x : Nat) : Nat × Nat :=
  match Fmt.fp32.read x with
  | .nan s => (Fmt.fp32.nanCode, if s then fINV else 0)
  | .inf neg => if neg then sfNan else sfZero false
  | .fin neg m e =>
    if m = 0 then sfInf neg fDZ
    else if neg then sfNan
    else
      let m' := if e % 2 = 0 then m else 2 * m
      let e' := if e % 2 = 0 then e else e - 1
      let y := isqrt (2 ^ 120 / m')
      sfRound false y (-60 - e' / 2) (m' * (y * y) != 2 ^ 120)

/-- √x (SQRT). -/
def sfSqrt (x : Nat) : Nat × Nat :=
  match Fmt.fp32.read x with
  | .nan s => (Fmt.fp32.nanCode, if s then fINV else 0)
  | .inf neg => if neg then sfNan else sfInf false 0
  | .fin neg m e =>
    if m = 0 then sfZero neg
    else if neg then sfNan
    else
      let m' := (if e % 2 = 0 then m else 2 * m) * 2 ^ 60
      let e' := if e % 2 = 0 then e else e - 1
      let y := isqrt m'
      sfRound false y (e' / 2 - 30) (y * y != m')

/-- sin(2π · num/den) for 0 < num/den ≤ 1/4, num/den dyadic; exact at 1/4. -/
def sinQuarter (neg : Bool) (num den : Nat) : Nat × Nat :=
  if 4 * num = den then sfOne neg
  else
    let y := sinFix sfP (2 * num * sfPi / den)
    sfRound neg (if 2 ^ sfP ≤ y then 2 ^ sfP - 1 else y) (-(sfP : Int)) true

/-- The fraction of a finite magnitude modulo 1 as a numerator over 2^k (R169: the reduction is exact). -/
def turnOf (m : Nat) (e : Int) : Nat × Nat :=
  if 0 ≤ e then (0, 4) else (m * 4 % (2 ^ (-e).toNat * 4), 2 ^ (-e).toNat * 4)

/-- sin(2πx) (SINT). -/
def sfSint (x : Nat) : Nat × Nat :=
  match Fmt.fp32.read x with
  | .nan s => (Fmt.fp32.nanCode, if s then fINV else 0)
  | .inf _ => sfNan
  | .fin neg m e =>
    let (num, den) := turnOf m e
    if 2 * num % den = 0 then sfZero neg
    else
      let half := decide (den < 2 * num)
      let r := if half then num - den / 2 else num
      sinQuarter (neg != half) (if den < 4 * r then den / 2 - r else r) den

/-- cos(2πx) (COST). -/
def sfCost (x : Nat) : Nat × Nat :=
  match Fmt.fp32.read x with
  | .nan s => (Fmt.fp32.nanCode, if s then fINV else 0)
  | .inf _ => sfNan
  | .fin _ m e =>
    let (num, den) := turnOf m e
    let r := if den < 2 * num then den - num else num
    if r = 0 then sfOne false
    else if 4 * r = den then sfZero false
    else if den < 4 * r then sinQuarter true (r - den / 4) den
    else sinQuarter false (den / 4 - r) den

/-- tanh x (TANH). -/
def sfTanh (x : Nat) : Nat × Nat :=
  match Fmt.fp32.read x with
  | .nan s => (Fmt.fp32.nanCode, if s then fINV else 0)
  | .inf neg => sfOne neg
  | .fin neg m e =>
    if m = 0 then sfZero neg
    else if (bitLen m : Int) + e < -60 then sfRound neg (m * 2 ^ 100 - 1) (e - 100) true
    else if 6 < (bitLen m : Int) + e then sfRound neg (2 ^ 100 - 1) (-100) true
    else
      -- y = e^(-2|x|) at scale 2^384
      let z := if 0 ≤ e then 2 * m * 2 ^ e.toNat * 2 ^ sfP else 2 * m * 2 ^ sfP / 2 ^ (-e).toNat
      let n := z / sfLn2
      let y := 2 ^ (2 * sfP) / expFix sfP (z % sfLn2) / 2 ^ n
      sfRound neg ((2 ^ sfP - y) * 2 ^ sfP / (2 ^ sfP + y)) (-(sfP : Int)) true

end Sys2Proof
end

