-- ==== Sys2Proof/Machine/FloatOps.lean ====
section
/-! DEFINITION. Floating-point arithmetic, class 4, conversions and special functions (R154 to R169). -/

namespace Sys2Proof.Machine

open Sys2Proof

/-! ### FP32 (R154 to R160) -/

def resOf (r : Nat × Nat) : LaneRes := ⟨[BitVec.ofNat 32 r.1], r.2⟩

/-- Two FP32 sources and one rounding. -/
def fpOp (s : State) (i : Instr) (a b : VReg) (c : VSrc) (f : Rnd → Nat → Nat → Nat → Nat × Nat) : Out :=
  roundOp s i a 1 1 .rne fun ix mode l =>
    resOf (f mode (ix.rand l 0) (ix.x.g.wide .w32 l b.toNat) (vsrcWide ix .w32 c l))

def fAddVal (mode : Rnd) (u x y : Nat) : Nat × Nat := addFmt .fp32 mode u (Fmt.fp32.read x) (Fmt.fp32.read y)
def fSubVal (mode : Rnd) (u x y : Nat) : Nat × Nat := addFmt .fp32 mode u (Fmt.fp32.read x) (Fmt.fp32.read y).neg
def fMulVal (mode : Rnd) (u x y : Nat) : Nat × Nat := mulFmt .fp32 mode u (Fmt.fp32.read x) (Fmt.fp32.read y)

def execFadd (a b : VReg) (c : VSrc) (s : State) : Out := fpOp s (.fadd a b c) a b c fAddVal
def execFsub (a b : VReg) (c : VSrc) (s : State) : Out := fpOp s (.fsub a b c) a b c fSubVal
def execFmul (a b : VReg) (c : VSrc) (s : State) : Out := fpOp s (.fmul a b c) a b c fMulVal

/-- R157: the addend is A, or the register that D4 names (R82). -/
def execFfma (a b : VReg) (c : VSrc) (s : State) : Out :=
  roundOp s (.ffma a b c) a 1 1 .rne fun ix mode l =>
    resOf (fmaFmt .fp32 mode (ix.rand l 0) (Fmt.fp32.read (ix.x.g.wide .w32 l b.toNat))
      (Fmt.fp32.read (vsrcWide ix .w32 c l)) (Fmt.fp32.read (ix.x.g.wide .w32 l (ix.d4.getD a.toNat))))

def execFmin (a b : VReg) (c : VSrc) (s : State) : Out :=
  laneOp s (.fmin a b c) a 1 fun ix l =>
    resOf (minmaxFmt .fp32 false (ix.x.g.wide .w32 l b.toNat) (vsrcWide ix .w32 c l))

def execFmax (a b : VReg) (c : VSrc) (s : State) : Out :=
  laneOp s (.fmax a b c) a 1 fun ix l =>
    resOf (minmaxFmt .fp32 true (ix.x.g.wide .w32 l b.toNat) (vsrcWide ix .w32 c l))

/-- R159. Under SR the mode draws from each active lane's generator (R43), also where the value is returned unchanged: R159 names
none of R47's rounding functions (DESIGN CHOICE, assumption 80). -/
def execFrnd (a b : VReg) (s : State) : Out :=
  roundOp s (.frnd a b) a 1 1 .rne fun ix mode l => resOf (frndFmt mode (ix.rand l 0) (ix.x.g.wide .w32 l b.toNat))

def execFclass (a b : VReg) (s : State) : Out :=
  laneOp s (.fclass a b) a 1 fun ix l => resOf (2 ^ fclassBit (ix.x.g.wide .w32 l b.toNat), 0)

/-! ### Packed 16-bit arithmetic (R161) -/

def pfmtFmt : PFmt → Fmt
  | .fp16 => .fp16
  | .bf16 => .bf16

/-- Two elements, element 0 first; each with the lane's next value of the generator. -/
def packed2 (f : Nat → Nat × Nat) : LaneRes :=
  let r0 := f 0
  let r1 := f 1
  ⟨[BitVec.ofNat 32 (packElems 16 [r0.1, r1.1])], r0.2 ||| r1.2⟩

def halfOp (s : State) (i : Instr) (a b c : VReg) (f : Rnd → Nat → Nat → Nat → Nat × Nat) : Out :=
  roundOp s i a 1 2 .rne fun ix mode l =>
    let x := ix.x.g.wide .w32 l b.toNat
    let y := ix.x.g.wide .w32 l c.toNat
    packed2 fun j => f mode (ix.rand l j) (elemAt 16 x j) (elemAt 16 y j)

def execHadd2 (f : PFmt) (a b c : VReg) (s : State) : Out :=
  halfOp s (.hadd2 f a b c) a b c fun mode u x y => addFmt (pfmtFmt f) mode u ((pfmtFmt f).read x) ((pfmtFmt f).read y)

def execHmul2 (f : PFmt) (a b c : VReg) (s : State) : Out :=
  halfOp s (.hmul2 f a b c) a b c fun mode u x y => mulFmt (pfmtFmt f) mode u ((pfmtFmt f).read x) ((pfmtFmt f).read y)

def execHfma2 (f : PFmt) (a b c : VReg) (s : State) : Out :=
  roundOp s (.hfma2 f a b c) a 1 2 .rne fun ix mode l =>
    let x := ix.x.g.wide .w32 l b.toNat
    let y := ix.x.g.wide .w32 l c.toNat
    let d := ix.x.g.wide .w32 l (ix.d4.getD a.toNat)
    let rd (v j : Nat) : FVal := (pfmtFmt f).read (elemAt 16 v j)
    packed2 fun j => fmaFmt (pfmtFmt f) mode (ix.rand l j) (rd x j) (rd y j) (rd d j)

def execHmax2 (f : PFmt) (a b c : VReg) (s : State) : Out :=
  laneOp s (.hmax2 f a b c) a 1 fun ix l =>
    let x := ix.x.g.wide .w32 l b.toNat
    let y := ix.x.g.wide .w32 l c.toNat
    packed2 fun j => minmaxFmt (pfmtFmt f) true (elemAt 16 x j) (elemAt 16 y j)

/-! ### CVT (R163, R164) -/

/-- The floating format of a conversion type, its bits, and whether an integer type is signed. -/
def cvtFmt : CvtTy → Option Fmt
  | .fp32 => some .fp32
  | .fp16 => some .fp16
  | .bf16 => some .bf16
  | .e4m3 => some .e4m3
  | .e5m2 => some .e5m2
  | _ => none

def cvtBits : CvtTy → Nat
  | .fp32 | .i32 | .n32 => 32
  | .fp16 | .bf16 => 16
  | .e4m3 | .e5m2 => 8
  | .i64 | .n64 => 64

def cvtSigned : CvtTy → Bool
  | .i32 | .i64 => true
  | _ => false

/-- The exact value of a source element. -/
def cvtRead (t : CvtTy) (x : Nat) : FVal :=
  match cvtFmt t with
  | some f => f.read x
  | none => intVal (if cvtSigned t then signed (cvtBits t) x else (x : Int))

/-- The converted element and its flags; `sat` is XMOD[0] = 0. -/
def cvtVal (dst src : CvtTy) (mode : Rnd) (u : Nat) (sat : Bool) (x : Nat) : Nat × Nat :=
  let v := cvtRead src x
  match dst, cvtFmt dst with
  | .e4m3, some f | .e5m2, some f =>
    let r := cvt8 f mode u sat v
    (r.1, r.2 ||| snanFlag [v])
  | _, some f =>
    let r := roundFmt f mode u v
    (r.1, r.2 ||| snanFlag [v])
  | _, none => cvtInt (cvtBits dst) (cvtSigned dst) mode u v

/-- Replaces one element of a register. -/
def setElem (n x j v : Nat) : Nat := x - elemAt n x j * 2 ^ (n * j) + v % 2 ^ n * 2 ^ (n * j)

/-- The registers of the destination with the result in place; an element of 8 or 16 bits leaves the others (R164). -/
def cvtPut (g : Group) (dst : CvtTy) (a : VReg) (l sel v : Nat) : List W32 :=
  match cvtBits dst with
  | 64 => wideRegs .w64 v
  | 32 => wideRegs .w32 v
  | n => [BitVec.ofNat 32 (setElem n (g.wide .w32 l a.toNat) sel v)]

def execCvt (dst src : CvtTy) (a b : VReg) (s : State) : Out :=
  groupOp s (.cvt dst src a b) fun ix =>
    let dflt := if (cvtFmt dst).isSome then Rnd.rne else .rtz
    let mode := ix.mode dflt
    let ssel := ix.xmod / 2 % 4
    let dsel := ix.xmod / 8 % 4
    let rs := ix.lanes.map fun l =>
      let x := if src.is64 then (ix.x.g.vpair l b.toNat).toNat else elemAt (cvtBits src) (ix.x.g.wide .w32 l b.toNat) ssel
      (l, cvtVal dst src mode (ix.rand l 0) (ix.xmod % 2 == 0) x)
    let zeros := if ix.mz then ix.idle.flatMap fun l => laneWrites ix.x.g l a.toNat (cvtPut ix.x.g dst a l dsel 0) 0
      else []
    .ok
      { writes := (rs.flatMap fun r => laneWrites ix.x.g r.1 a.toNat (cvtPut ix.x.g dst a r.1 dsel r.2.1) 0) ++ zeros
        fstat := rs.foldl (fun f r => f ||| r.2.2) 0
        gens := ix.gens mode 1 }

/-! ### PACK and UNPK (R166, R167) -/

/-- One element of PACK. -/
def packVal (k : PackFmt) (mode : Rnd) (u : Nat) (sat : Bool) (x : Nat) : Nat × Nat :=
  match k with
  | .fp16 => cvtVal .fp16 .fp32 mode u sat x
  | .bf16 => cvtVal .bf16 .fp32 mode u sat x
  | .e4m3 => cvtVal .e4m3 .fp32 mode u sat x
  | .e5m2 => cvtVal .e5m2 .fp32 mode u sat x
  | .i16 => (wrapN 16 (satI 16 (signed 32 x)), 0)
  | .n16 => (wrapN 16 (satN 16 (x : Int)), 0)
  | .i8 => (wrapN 8 (satI 8 (signed 32 x)), 0)
  | .n8 => (wrapN 8 (satN 8 (x : Int)), 0)

def packIsFloat : PackFmt → Bool
  | .fp16 | .bf16 | .e4m3 | .e5m2 => true
  | _ => false

def packBits (k : PackFmt) : Nat := if k.is16 then 16 else 8

def execPack (k : PackFmt) (a b : VReg) (s : State) : Out :=
  roundOp s (.pack k a b) a 1 (if packIsFloat k then k.count else 0) .rne fun ix mode l =>
    let rs := (List.range k.count).map fun j =>
      packVal k mode (ix.rand l j) (ix.xmod % 2 == 0) (ix.x.g.wide .w32 l (b.toNat + j))
    ⟨[BitVec.ofNat 32 (packElems (packBits k) (rs.map (·.1)))], rs.foldl (fun f r => f ||| r.2) 0⟩

def unpkVal (k : PackFmt) (x : Nat) : Nat × Nat :=
  match k with
  | .fp16 => cvtVal .fp32 .fp16 .rne 0 true x
  | .bf16 => cvtVal .fp32 .bf16 .rne 0 true x
  | .e4m3 => cvtVal .fp32 .e4m3 .rne 0 true x
  | .e5m2 => cvtVal .fp32 .e5m2 .rne 0 true x
  | .i16 => (wrapN 32 (signed 16 x), 0)
  | .i8 => (wrapN 32 (signed 8 x), 0)
  | .n16 | .n8 => (x, 0)

def execUnpk (k : PackFmt) (a b : VReg) (s : State) : Out :=
  laneOp s (.unpk k a b) a k.count fun ix l =>
    let x := ix.x.g.wide .w32 l b.toNat
    let rs := (List.range k.count).map fun j => unpkVal k (elemAt (packBits k) x j)
    ⟨rs.map fun r => BitVec.ofNat 32 r.1, rs.foldl (fun f r => f ||| r.2) 0⟩

/-! ### Special functions (R168, R169) -/

def specialOp (s : State) (i : Instr) (a b : VReg) (f : Nat → Nat × Nat) : Out :=
  laneOp s i a 1 fun ix l => resOf (f (ix.x.g.wide .w32 l b.toNat))

def execExp2 (a b : VReg) (s : State) : Out := specialOp s (.exp2 a b) a b sfExp2
def execLog2 (a b : VReg) (s : State) : Out := specialOp s (.log2 a b) a b sfLog2
def execRcp (a b : VReg) (s : State) : Out := specialOp s (.rcp a b) a b sfRcp
def execRsq (a b : VReg) (s : State) : Out := specialOp s (.rsq a b) a b sfRsq
def execSqrt (a b : VReg) (s : State) : Out := specialOp s (.sqrt a b) a b sfSqrt
def execSint (a b : VReg) (s : State) : Out := specialOp s (.sint a b) a b sfSint
def execCost (a b : VReg) (s : State) : Out := specialOp s (.cost a b) a b sfCost
def execTanh (a b : VReg) (s : State) : Out := specialOp s (.tanh a b) a b sfTanh

end Sys2Proof.Machine
end

