-- ==== Sys2Proof/Machine/CrossLane.lean ====
section
/-! DEFINITION. The cross-lane instructions and SAMPLE (R170 to R177). -/

namespace Sys2Proof.Machine

open Sys2Proof

/-- R171: the lane that SHFL names, none outside 0 to W − 1. -/
def shflLane (m : ShflMode) (l c : Nat) : Option Nat :=
  match m with
  | .idx => some c
  | .up => if c ≤ l then some (l - c) else none
  | .down => some (l + c)
  | .xor => some (l ^^^ c)

def execShfl (m : ShflMode) (a b : VReg) (c : VSrc) (s : State) : Out :=
  laneOp s (.shfl m a b c) a 1 fun ix l =>
    let g := ix.x.g
    let j := match shflLane m l (vsrcWide ix .w32 c l) with
      | some j => if j < g.w && g.isLive j then j else l
      | none => l
    ⟨[g.vreg j b.toNat], 0⟩

def execBcast (a b : VReg) (n : BitVec 7) (s : State) : Out :=
  laneOp s (.bcast a b n) a 1 fun ix _ =>
    ⟨[if ix.x.g.isLive n.toNat then ix.x.g.vreg n.toNat b.toNat else 0], 0⟩

/-! ### RED and SCAN (R173, R174) -/

def ropIdentity : Rop → Nat
  | .addI32 | .maxN32 | .or | .xor => 0
  | .minI32 => 0x7FFFFFFF
  | .maxI32 => 0x80000000
  | .minN32 | .and => 0xFFFFFFFF
  | .fadd => 0x80000000
  | .fmin => 0x7F800000
  | .fmax => 0xFF800000

/-- One step of a reduction: the new accumulator and flags. -/
def ropStep (r : Rop) (acc x : Nat) : Nat × Nat :=
  match r with
  | .addI32 => ((acc + x) % 2 ^ 32, 0)
  | .minI32 => (eMinI 32 acc x, 0)
  | .maxI32 => (eMaxI 32 acc x, 0)
  | .minN32 => (min acc x, 0)
  | .maxN32 => (max acc x, 0)
  | .and => (acc &&& x, 0)
  | .or => (acc ||| x, 0)
  | .xor => (acc ^^^ x, 0)
  | .fadd => fAddVal .rne 0 acc x
  | .fmin => minmaxFmt .fp32 false acc x
  | .fmax => minmaxFmt .fp32 true acc x

/-- The walk over values: the accumulator before and after each, with the flags so far. -/
def ropWalk (r : Rop) : List Nat → Nat → Nat → List (Nat × Nat) × Nat
  | [], _, flags => ([], flags)
  | x :: xs, acc, flags =>
    let (y, f) := ropStep r acc x
    let (rest, flags) := ropWalk r xs y (flags ||| f)
    ((acc, y) :: rest, flags)

def IX.walk (ix : IX) (r : Rop) (b : VReg) : List (Nat × Nat) × Nat :=
  ropWalk r (ix.lanes.map fun l => ix.x.g.wide .w32 l b.toNat) (ropIdentity r) 0

def execRed (r : Rop) (a b : VReg) (s : State) : Out :=
  groupOp s (.red r a b) fun ix =>
    let w := ix.walk r b
    let acc := match w.1.getLast? with | some p => p.2 | none => ropIdentity r
    .ok { laneEff ix a.toNat 1 fun _ => ⟨[BitVec.ofNat 32 acc], 0⟩ with fstat := w.2 }

def execScan (r : Rop) (a b : VReg) (s : State) : Out :=
  groupOp s (.scan r a b) fun ix =>
    let w := ix.walk r b
    let ys := ix.lanes.zip (w.1.map fun p => if ix.xmod % 2 = 1 then p.1 else p.2)
    .ok { writes := (ys.flatMap fun p => laneWrites ix.x.g p.1 a.toNat [BitVec.ofNat 32 p.2] 0) ++ zeroWrites ix a.toNat 1
          fstat := w.2, gens := [] }

/-! ### VOTE and BALLOT (R175, R176) -/

def voteOp (s : State) (i : Instr) (a : SIdx) (b : VReg) (f : List W32 → Bool) : Out :=
  plainOp s i fun ix => [.s a.toNat (boolW (f (ix.lanes.map fun l => ix.x.g.vreg l b.toNat)))]

def execVoteAny (a : SIdx) (b : VReg) (s : State) : Out := voteOp s (.voteAny a b) a b fun xs => xs.any (· != 0)

def execVoteAll (a : SIdx) (b : VReg) (s : State) : Out :=
  voteOp s (.voteAll a b) a b fun xs => !xs.isEmpty && xs.all (· != 0)

def execVoteEq (a : SIdx) (b : VReg) (s : State) : Out :=
  voteOp s (.voteEq a b) a b fun xs => match xs with | [] => false | y :: ys => ys.all (· == y)

def execBallot (a : MReg) (b : VReg) (s : State) : Out :=
  maskOp s (.ballot a b) a fun ix l => (ix.x.g.vreg l b.toNat != 0, 0)

/-! ### SAMPLE (R177) -/

/-- A weight: a NaN or a negative counts as +0 with INV, −0 as +0. -/
def sampleWeight (x : Nat) : Nat × Nat :=
  match Fmt.fp32.read x with
  | .nan _ => (0, fINV)
  | .inf true => (0, fINV)
  | .inf false => (x, 0)
  | .fin neg m _ => if m = 0 then (0, 0) else if neg then (0, fINV) else (x, 0)

/-- The prefix sums of the weights, in lane order. -/
def samplePrefix : List Nat → Nat → Nat → List Nat × Nat
  | [], _, flags => ([], flags)
  | w :: ws, total, flags =>
    let (p, f) := fAddVal .rne 0 total w
    let (rest, flags) := samplePrefix ws p (flags ||| f)
    (p :: rest, flags)

/-- The lowest index of a list that passes a test. -/
def indexOf (p : Nat → Bool) : List Nat → Nat → Option Nat
  | [], _ => none
  | x :: xs, n => if p x then some n else indexOf p xs (n + 1)

def lastIndexOf (p : Nat → Bool) (xs : List Nat) : Option Nat :=
  ((List.range xs.length).filter fun i => p (xs.getD i 0)).getLast?

/-- The lane chosen and the flags, from the lanes' weights and u. -/
def sampleVal (ws : List Nat) (u : Nat) : Nat × Nat :=
  let (ps, f) := samplePrefix ws 0 0
  let total := ps.getLastD 0
  if total = 0 then (0xFFFFFFFF, f)
  else if total = Fmt.fp32.infCode then ((indexOf (· == Fmt.fp32.infCode) ps 0).getD 0xFFFFFFFF, f)
  else
    let (t, f') := roundFmt .fp32 .rne 0 (fprod (.fin false u (-32)) (Fmt.fp32.read total)).1
    let above (p : Nat) : Bool := (Fmt.fp32.read t).lt (Fmt.fp32.read p)
    match indexOf above ps 0 with
    | some l => (l, f ||| f')
    | none => ((lastIndexOf (· != 0) ws).getD 0xFFFFFFFF, f ||| f')

def execSample (a b : VReg) (c : SReg) (s : State) : Out :=
  groupOp s (.sample a b c) fun ix =>
    let ws := (List.range ix.x.g.w).map fun l => if ix.isAct l then sampleWeight (ix.x.g.wide .w32 l b.toNat) else (0, 0)
    let (res, f) := sampleVal (ws.map (·.1)) ((ix.x.rd c).toNat % 2 ^ 32)
    .ok { laneEff ix a.toNat 1 fun _ => ⟨[BitVec.ofNat 32 res], 0⟩ with
            fstat := ws.foldl (fun g w => g ||| w.2) f }

end Sys2Proof.Machine
end

