-- ==== Sys2Proof/Machine/Fabric.lean ====
section
/-! DEFINITION. The fabric (R448 to R457): flits and links, accesses of other devices and of peers, fabric time, and
collectives. What other devices do reaches this one as events and as the state's data. -/

namespace Sys2Proof.Machine

open Sys2Proof

/-! ### Links (R448, R449) -/

/-- A device stops answering (R452). -/
def cutDevice (s : State) (dev : Nat) : State :=
  if s.fab.unreachable.contains dev then s
  else { s with fab := { s.fab with unreachable := s.fab.unreachable ++ [dev] } }

/-- A lasting failure: the reeves of both ends begin to drain the link (R449). -/
def failLink (s : State) (l : Nat) : State :=
  { s with fab := { s.fab with links := s.fab.links.modify l fun x =>
    if x.inService then { x with draining := true, crcFail := [], asked := none } else x } }

/-- A flit arrives: acknowledged in sequence order, and with a good CRC (`crc`) it acknowledges those below a number itself; a
CRC error or a gap is reported, and a second failure of one flit is lasting. -/
def execFlitReceive (link seq : Nat) (crc : Option Nat) (s : State) : Out :=
  match s.fab.links.get? link with
  | none => .next s
  | some x =>
    let put (y : Link) : State := { s with fab := { s.fab with links := s.fab.links.set link y } }
    if !x.inService then .next s
    else match crc with
    | none =>
      if x.crcFail.contains seq then .next (failLink s link)
      else .next (put { x with crcFail := x.crcFail ++ [seq], asked := some x.rxNext })
    | some ack =>
      let x := { x with unacked := x.unacked.filter fun n => decide (ack ≤ n) }
      if x.rxNext < seq then .next (put { x with asked := some x.rxNext })
      else if seq < x.rxNext then .next (put x)
      else
        let s := put { x with rxNext := seq + 1, asked := none, crcFail := x.crcFail.filter (· != seq) }
        .next (if x.crcFail.contains seq then { s with fw := { s.fw with transient := s.fw.transient + 1 } } else s)

/-- The sender replays every unacknowledged flit from the one reported. -/
def execReplayRequest (link seq : Nat) (s : State) : Out :=
  .next { s with fab := { s.fab with links := s.fab.links.modify link fun x =>
    if x.inService then { x with replays := x.unacked.filter fun n => decide (seq ≤ n) } else x } }

/-! ### Remote and peer accesses (R450 to R453) -/

/-- The rank of a device in a collective group. -/
def Coll.rankOf (c : Coll) (dev : Nat) : Option Nat := c.members.findIdx? fun d => d == dev

/-- Another member submits: its part joins those of its rank, unless it belongs to a collective that has ended here. After the
reset of its function, which its empty shape tells, no part is owed any more. -/
def Coll.submitBy (c : Coll) (r : Nat) (part : List Byte × List Byte) : Coll :=
  let owed := c.owed.getD r 0
  if part.2.isEmpty then { c with contrib := c.contrib.set r (c.contrib.getD r [] ++ [part]), owed := c.owed.put 0 r 0 }
  else if owed = 0 then { c with contrib := c.contrib.set r (c.contrib.getD r [] ++ [part]) }
  else { c with owed := c.owed.put 0 r (owed - 1) }

/-- What answers another device: a reply with data, or the acknowledgement of a write (R288, R451). -/
def replyClass : ExtAccess → Nat
  | .write _ => 2
  | _ => 1

/-- What another device does: an access at this device's home, served as the host's, where its offset names the byte; a write
of its own memory; its submission to a collective. -/
def execRemoteAccess (dev pa : Nat) (a : ExtAccess) (s : State) : Out :=
  if dev = s.fab.dev then .next s
  else match a with
    | .own bs =>
      .next { s with fab := { s.fab with remote := memWrite s.fab.remote (2 ^ 51 + dev % 512 * 2 ^ 39 + pa % 2 ^ 39) bs } }
    | .contrib grp bytes shape =>
      (match s.fab.colls.get? grp with
       | none => .next s
       | some c => match c.rankOf dev with
         | none => .next s
         | some r => .next { s with fab := { s.fab with colls := s.fab.colls.set grp (c.submitBy r (bytes, shape)) } })
    | a => .next ((extAccess s (pa % 2 ^ 39) a).sendFlit (2 ^ 51 + dev % 512 * 2 ^ 39) (replyClass a))

def execUnreachableDevice (dev : Nat) (s : State) : Out := .next (cutDevice s dev)

/-- An ingest window's fields admit a source and a range (R453). -/
def ingestAdmits (w : W128) (queby : Bool) (src pa n : Nat) : Bool :=
  let f (hi lo : Nat) : Nat := bitsOf w.toNat hi lo
  let src' := f 79 64
  f 63 63 == 1 && (f 62 62 == 1) == queby && !isRemote pa &&
  (f 61 61 == 1 || (if queby then src' % 512 == src % 512 else src' == src)) &&
  decide (f 51 16 ≤ frameOf pa) && decide (frameOf (pa + n - 1) ≤ f 115 80)

/-- A window admits the access, and its owning function has accepted the service: peer ingest at the peer port, the fabric on
the links (R422; DEDUCED, assumption 81). -/
def admitted (s : State) (queby : Bool) (src pa n : Nat) : Bool :=
  decide (0 < n) && s.fab.ingest.any fun w =>
    ingestAdmits w.2 queby src pa n && s.accepts (bitsOf w.2.toNat 60 55) (if queby then 8 else 7)

/-- Whether an admitted access waits: for its grains (R322, R330), or behind what its source sent before it. Sources carry no
mutual order (R347). -/
def postedWaits (s : State) (before : List (Bool × Nat × Nat × ExtAccess)) (x : Bool × Nat × Nat × ExtAccess) : Bool :=
  (before.any fun y => y.1 == x.1 && y.2.1 == x.2.1) || s.busyAt x.2.2.1 (extSpan x.2.2.2).1 (extSpan x.2.2.2).2

def ingest (s : State) (queby : Bool) (src pa : Nat) (a : ExtAccess) : State :=
  if postedWaits s s.fab.posted (queby, src, pa, a) then { s with fab := { s.fab with posted := s.fab.posted ++ [(queby, src, pa, a)] } }
  else extAct s pa a

/-- The first waiting access that need wait no longer is performed. -/
def postedNext (s : State) : Option State :=
  (s.fab.posted.zipIdx.find? fun p => !postedWaits s (s.fab.posted.take p.2) p.1).map fun p =>
    extAct { s with fab := { s.fab with posted := s.fab.posted.eraseIdx p.2 } } p.1.2.2.1 p.1.2.2.2

/-- A peer write, in the order of its source; any other is discarded and counted. -/
def execPeerWrite (queby : Bool) (src pa : Nat) (bytes : List Byte) (s : State) : Out :=
  if admitted s queby src pa bytes.length then .next (ingest s queby src pa (.write bytes))
  else .next { s with fab := { s.fab with discards := s.fab.discards + 1 } }

/-- A peer read inside a window; any other completes with Unsupported Request and changes nothing. -/
def execPeerRead (queby : Bool) (src pa size : Nat) (s : State) : Out :=
  if admitted s queby src pa size then .next (ingest s queby src pa (.read size)) else .next s

/-! ### Fabric time (R454) -/

/-- FTS comes within 50 ns of the reference, and never decreases. -/
def execTimestampExchange (ref : Nat) (s : State) : Out :=
  let (d, s) := s.draw
  let t := ref + d.toNat % 101 - 50
  .next { s with fab := { s.fab with fts := BitVec.ofNat 64 (max s.fab.fts.toNat (min t (2 ^ 64 - 1))) } }

/-! ### Collectives (R455 to R457) -/

/-- Reads bytes at a virtual address, in pieces that lie in one page, once they have been looked at. -/
def reeveRead (s : State) (vf asid : Nat) : Nat → Nat → Nat → State × List Byte
  | 0, _, _ => (s, [])
  | count + 1, va, n =>
    match reeveXlat s vf asid va .rd with
    | .ok x =>
      let (s, bs) := devRead s x.pa n
      let r := reeveRead s vf asid count (va + n) n
      (r.1, bs ++ r.2)
    | _ => (s, [])

def collWord (code : Nat) : W64 := refusalWord code

/-- The element size of an ETYPE. -/
def etypeSize (t : Nat) : Nat := if t = 3 then 8 else 4

structure Desc where
  src : Nat
  dst : Nat
  cmpl : Nat
  count : Nat
  op : Nat
  etype : Nat
  root : Nat
  /-- What the members must agree on. -/
  shape : List Byte
  deriving DecidableEq, Repr

def Desc.of (bs : List Byte) : Desc :=
  ⟨fieldAt bs 0 8, fieldAt bs 8 8, fieldAt bs 0x10 8, fieldAt bs 0x18 4, fieldAt bs 0x1C 1, fieldAt bs 0x1D 1, fieldAt bs 0x1E 2,
    (bs.drop 0x18).take 8⟩

/-- The layout of R456, which asks an alignment of SRC and of CMPL alone. -/
def descOk (bs : List Byte) (n : Nat) : Bool :=
  let d := Desc.of bs
  d.src % etypeSize d.etype == 0 && d.cmpl % 8 == 0 && between 1 (2 ^ 20) d.count && decide (d.op ≤ 3) &&
  decide (d.etype ≤ 3) && (d.op != 3 || decide (d.root < n)) && zeroAt bs 0x20 32

/-- What an access of a collective meets. An address past the space is a fault; so is a second-stage fault that the driver has
answered with unrepairable (R398). -/
def collCheck (s : State) (c : Coll) (u : Submission) (a : Acc) (va : Nat) (ns : List Nat) : State × ReeveRes :=
  if 2 ^ 55 ≤ va then (s, .bad)
  else match reeveCheck s c.vf u.asid a va ns with
    | (s, .two l ipa va) => (s, if c.bad then .bad else .two l ipa va)
    | r => r

/-- The pieces of a descriptor: 64 bytes at once where it is aligned. -/
def descPieces (a : Nat) : Nat × Nat := if a % 64 = 0 then (1, 64) else (64, 1)

/-- A descriptor at a virtual address, in the context of the store that submitted it. -/
def readDesc (s : State) (c : Coll) (u : Submission) : State × ReeveRes × List Byte :=
  match collCheck s c u .rd u.desc (List.replicate (descPieces u.desc).1 (descPieces u.desc).2) with
  | (s, .ok) => let (s, bs) := reeveRead s c.vf u.asid (descPieces u.desc).1 u.desc (descPieces u.desc).2; (s, .ok, bs)
  | (s, r) => (s, r, [])

/-- Elements written at an address: each as a whole where it is aligned, otherwise byte by byte. -/
def elemPieces (a n : Nat) (xs : List (List Byte)) : List (List Byte) := if a % n = 0 then xs else xs.flatten.map fun b => [b]

/-- What the write of a collective's result meets. -/
def dstCheck (s : State) (c : Coll) (u : Submission) (d : Desc) : State × ReeveRes :=
  let n := etypeSize d.etype
  collCheck s c u .wr d.dst (if d.dst % n = 0 then List.replicate d.count n else List.replicate (d.count * n) 1)

/-- The completion word, as a .SYS release store: a reeve's word, with no queue for a record where its address does not serve. -/
def complete (s : State) (c : Coll) (u : Submission) (d : Desc) (v : W64) : State :=
  signalWord s ⟨none, c.vf, u.asid, 0, true⟩ (BitVec.ofNat 64 d.cmpl) v 0

/-- A failure leaves DST unspecified; a grid whose collective a peer's reset aborted ends with code 0x13 (R418). -/
def failColl (s : State) (c : Coll) (u : Submission) (d : Desc) (code : Nat) : State :=
  let s :=
    if between 1 (2 ^ 20) d.count then
      let (bs, s) := s.drawBytes (d.count * etypeSize d.etype)
      let words := (List.range d.count).map fun i => (bs.drop (i * etypeSize d.etype)).take (etypeSize d.etype)
      match dstCheck s c u d with
      | (s, .ok) => reeveWrite s c.vf u.asid d.dst (elemPieces d.dst (etypeSize d.etype) words)
      | (s, _) => s
    else s
  let s := complete s c u d (collWord code)
  if code = 0x13 then abortGrid s u.grid 0x13 else s

/-- The record of a second-stage fault or of an unreachable device that an access of a collective meets (R398, R452). -/
def collRecord (s : State) (c : Coll) (u : Submission) (r : ReeveRes) (wr : Bool) : State :=
  match r with
  | .two l ipa va => recordTo s (s.adminOf 0) (reeveRec2 c.vf u.asid l ipa (BitVec.ofNat 64 va) wr)
  | .cut pa va => recordTo s (s.adminOf 0) (reeveRecCut c.vf u.asid pa (BitVec.ofNat 64 va) wr)
  | _ => s

/-- A collective waits for what an access of it meets: a repair, or a path. -/
def collWaits (s : State) (grp : Nat) (c : Coll) (va : Nat) (two : Bool) : State :=
  { s with reeveWaits := s.reeveWaits ++ [⟨c.vf, BitVec.ofNat 64 va, two, .coll grp⟩] }

/-- COLLECTIVE_SUBMIT of the group's function, where it has accepted the fabric (R422; DEDUCED, assumption 81): queued behind at
most 15 others; a seventeenth completes at once. -/
def execCollectiveSubmit (grp vf : Nat) (u : Submission) (s : State) : Out :=
  match s.fab.colls.get? grp with
  | none => .next s
  | some c =>
    if c.vf ≠ vf || !s.accepts vf 8 then .next s
    else if c.queue.length < 16 then
      .next { s with fab := { s.fab with colls := s.fab.colls.set grp { c with queue := c.queue ++ [u] } } }
    else match readDesc s c u with
      | (s, .ok, bs) => .next (failColl s c u (Desc.of bs) 0x02)
      | (s, r, _) => .next (collRecord s c u r false)

/-- One combination of two elements (R457): wrapping sums, FP32 by R155 and R158, and the lesser or greater. -/
def combine (op etype x y : Nat) : Nat :=
  let n := 8 * etypeSize etype
  let sgn := etype != 1
  let le := if sgn then decide (signed n x ≤ signed n y) else decide (x ≤ y)
  if etype = 2 then
    (if op = 0 then (addFmt .fp32 .rne 0 (Fmt.fp32.read x) (Fmt.fp32.read y)).1 else (minmaxFmt .fp32 (op == 2) x y).1)
  else if op = 0 then (x + y) % 2 ^ n
  else if (op == 1) == le then x else y

/-- One level of the tree: neighbours combine, an unpaired operand passes up. -/
def treeLevel (f : Nat → Nat → Nat) : List Nat → List Nat
  | x :: y :: xs => f x y :: treeLevel f xs
  | xs => xs

def treeReduce (f : Nat → Nat → Nat) : Nat → List Nat → Nat
  | 0, xs => xs.headD 0
  | fuel + 1, xs => if xs.length ≤ 1 then xs.headD 0 else treeReduce f fuel (treeLevel f xs)

/-- Element j of the result over the members' vectors in rank order. -/
def collElem (d : Desc) (vs : List (List Byte)) (j : Nat) : Nat :=
  let n := etypeSize d.etype
  let xs := vs.map fun v => fieldAt v (n * j) n
  if d.op = 3 then xs.getD d.root 0 else treeReduce (combine d.op d.etype) 10 xs

/-- The members' vectors in rank order: this device's own, and those that the others have submitted; a member whose
function was reset leaves an empty shape. -/
def collParts (c : Coll) (own shape : List Byte) : List (Option (List Byte × List Byte)) :=
  (List.range c.n).map fun r => if r = c.rank then some (own, shape) else (c.contrib.getD r []).head?

def Coll.others (c : Coll) : List Nat := (List.range c.n).filter fun r => r != c.rank

/-- The head descriptor is done with: so is the part of every other member, also of one that has yet to submit it. -/
def Coll.pop (c : Coll) : Coll :=
  let late := c.others.filter fun r => (c.contrib.getD r []).isEmpty
  { c with
    queue := c.queue.drop 1
    bad := false
    contrib := (c.contrib.map fun p => (p.1, p.2.drop 1)).filter fun p => !p.2.isEmpty
    owed := late.foldl (fun t r => t.set r (t.getD r 0 + 1)) c.owed }

def popColl (s : State) (grp : Nat) : State := { s with fab := { s.fab with colls := s.fab.colls.modify grp Coll.pop } }

def isReset (p : Option (List Byte × List Byte)) : Bool := match p with | some (_, sh) => sh.isEmpty | none => false

/-- Whether the head descriptor's outcome is known, and none of its accesses waits. -/
def collDue (s : State) (grp : Nat) (c : Coll) : Bool :=
  !(s.reeveWaits.any fun w => w.what == .coll grp) &&
  match c.queue with
  | [] => false
  | u :: _ => match readDesc s c u with
    | (_, .ok, bs) =>
      let ps := collParts c [] (Desc.of bs).shape
      u.desc % 64 != 0 || !descOk bs c.n || c.members.any s.devCut || ps.all (·.isSome) || ps.any isReset
    | _ => true

/-- An access that cannot be made: the collective waits for a repair or for a path, or it ends with a code. -/
def collStops (s : State) (grp : Nat) (c : Coll) (u : Submission) (r : ReeveRes) (wr : Bool) (fail : State → Nat → State) : State :=
  match r with
  | .two _ _ va => collWaits (collRecord s c u r wr) grp c va true
  | .wait va => collWaits s grp c va false
  | .cut _ _ => fail (collRecord s c u r wr) 0x40
  | .ok | .bad => fail s 0x01

/-- A descriptor that has been read: a defect, an unreachable member, a peer's reset, members that disagree, or the result. It waits
while a member has not submitted. -/
def endColl (s : State) (grp : Nat) (c : Coll) (u : Submission) (bs : List Byte) : State :=
  let d := Desc.of bs
  let n := etypeSize d.etype
  let fail (s : State) (code : Nat) : State := popColl (failColl s c u d code) grp
  if u.desc % 64 ≠ 0 || !descOk bs c.n then fail s 0x01
  else if c.members.any s.devCut then fail s 0x40
  else match collCheck s c u .rd d.src (List.replicate d.count n) with
    | (s, .ok) =>
      let (s, own) := reeveRead s c.vf u.asid d.count d.src n
      let ps := collParts c own d.shape
      if ps.any isReset then fail s 0x13
      else if ps.any (·.isNone) then s
      else if ps.any fun p => match p with | some (_, sh) => sh != d.shape | none => false then fail s 0x03
      else
        let vs := ps.filterMap fun p => p.map (·.1)
        let res := (List.range d.count).map fun j => leBytes n (collElem d vs j)
        (match dstCheck s c u d with
         | (s, .ok) => popColl (complete (reeveWrite s c.vf u.asid d.dst (elemPieces d.dst n res)) c u d 1) grp
         | (s, r) => collStops s grp c u r true fail)
    | (s, r) => collStops s grp c u r false fail

/-- Ends the head descriptor once its outcome is known; one that cannot be read has no place for a completion word. -/
def execCollectiveCompletion (grp : Nat) (s : State) : Out :=
  match s.fab.colls.get? grp with
  | none => .next s
  | some c =>
    match c.queue with
    | [] => .next s
    | u :: _ =>
      match readDesc s c u with
      | (s, .ok, bs) => .next (endColl s grp c u bs)
      | (s, r, _) => .next (collStops s grp c u r false fun s _ => popColl s grp)

end Sys2Proof.Machine
end

