-- ==== Sys2Proof/Machine/Failure.lean ====
section
/-! DEFINITION. Failures (R317, R340, R407 to R409) and power gating (R222, R223). -/

namespace Sys2Proof.Machine

open Sys2Proof

/-! ### Unit removal (R405, R409) -/

/-- The record of a removed unit, to the physical function's driver and the queue of an affected partition. -/
def removedRecord (s : State) (vf core : Nat) : State :=
  let r := { FRec.of 0x41 4 with vf := vf, core := core }
  let s := recordTo s (s.adminOf 0) r
  if vf = 0 then s else recordTo s (s.adminOf vf) r

/-- FLOOR is lowered by one where the remaining cores fall below it. -/
def lowerFloor (s : State) (vf : Nat) : State :=
  if (partCores s vf).length < floorOf s vf then
    { s with vfs := s.vfs.modify vf fun v => { v with floor := v.floor - 1 } }
  else s

/-- A core leaves service: grids with a team on it end with code 0x10, and it leaves its partition for good. -/
def coreOut (s : State) (core : Nat) : State :=
  match s.cores.get? core with
  | none => s
  | some c =>
    let gs := ((teamsOn s core).map fun p => p.2.grid).eraseDups
    let s := foldS s gs fun s g => abortGrid s g 0x10
    let vf := match (s.coreD core).vf with | some v => some v | none => c.vf
    let s := leavePart s core
    let s := { s with cores := s.cores.erase core, fw := { s.fw with coresOut := s.fw.coresOut ++ [core] } }
    match vf with
    | some v => removedRecord (lowerFloor s v) v core
    | none => s

def coresOut (s : State) (p : Nat → Bool) : State := foldS s (s.cores.keys.filter p) coreOut

/-- Every copy of a grain homed at a slice is flushed and invalidated. -/
def flushSlice (s : State) (n : Nat) : State :=
  let mine (pa : Nat) : Bool := !isRemote pa && servingSlice s.fw.slicesOut pa == n
  let s := foldS s s.cores.keys fun s c => foldS s (grainsOf s c fun g _ => mine g) fun s g => purgeGrain s c g
  foldS s (s.dirs.keys.filter mine) exclGrain

/-- The largest view of a bell that any core holds. -/
def topView (s : State) (asid bell : Nat) : Option W32 :=
  let vs := s.cores.filterMap fun p => (p.2.views.get? asid).map fun t => t.getD bell 0
  match vs with
  | [] => none
  | v :: vs => some (vs.foldl (fun m v => if ge32 v m then v else m) v)

/-- R340: a counter is rebuilt from the largest view plus 1, and the round is broadcast. -/
def rebuildBell (s : State) (asid bell : Nat) : State :=
  match topView s asid bell, s.ctxs.get? asid with
  | some v, some c =>
    let r := v + 1
    let s := { s with ctxs := s.ctxs.set asid { c with bells := c.bells.put 0 bell r } }
    let s := s.homeWrite (c.bellBase + 4 * bell) (leBytes 4 r.toNat)
    foldS s (s.cores.keys.filter fun k => ((s.coreD k).views.get? asid).isSome) fun s k =>
      s.setCore k ((s.coreD k).setView asid bell r)
  | _, _ => s

/-- The grain that a directory or an L1 knows at an address, otherwise its sector, the smallest grain (DESIGN CHOICE, assumption
93). -/
def grainAt (s : State) (a : Nat) : Nat × Nat :=
  let dirs := s.dirs.map fun (p : Nat × Dir) => (p.1, p.2.gsz)
  let held := s.cores.flatMap fun p => p.2.allGrains.map fun x => (x.1, x.2.gsz)
  ((dirs ++ held).find? fun p => decide (p.1 ≤ a) && decide (a < p.1 + p.2)).getD (a / 32 * 32, 32)

/-- A core holds a sector in its L1. -/
def sectorHeld (s : State) (a : Nat) : Bool :=
  s.cores.any fun p => p.2.allGrains.any fun x => decide (x.1 ≤ a) && decide (a < x.1 + x.2.gsz)

/-- Dirty bytes that only the slice held become poisoned grains at their new home (R409); those of which a core has a copy, or which
came home from one, do not. The counters of bells are rebuilt instead (R340). `old` is the state before the L1s were flushed. -/
def slicePoison (old s : State) (n : Nat) : State :=
  let bells (a : Nat) : Bool := s.ctxs.any fun c => decide (c.2.bellBase ≤ a) && decide (a < c.2.bellBase + 256)
  let lost := old.l2.keys.filter fun a => servingSlice s.fw.slicesOut a == n && !sectorHeld old a
  { s with
    l2 := s.l2.filter fun (p : Nat × Bool) => !lost.contains p.1
    poison := (lost.filter fun a => !bells a).foldl (fun (t : Tab Nat) a => t.set (grainAt old a).1 (grainAt old a).2) s.poison }

/-- A slice leaves service: its homes pass on (R317), and the counters of bells are rebuilt (R340). -/
def sliceLeave (s : State) (k : Nat) : State :=
  if s.fw.slicesOut.contains k then s
  else
    let lost := s.ctxs.filter fun (c : Nat × Ctx) => servingSlice s.fw.slicesOut c.2.bellBase == k
    let s := slicePoison s (flushSlice s k) k
    let s := { s with fw := { s.fw with slicesOut := s.fw.slicesOut ++ [k] } }
    foldS s (Tab.keys lost) fun s a => foldS s ((List.range 64).drop 1) fun s b => rebuildBell s a b

/-- A die leaves service with its cores and slices. -/
def dieOut (s : State) (d : Nat) : State :=
  foldS (coresOut s fun c => c / 256 == d) ((List.range 128).map (d * 128 + ·)) sliceLeave

/-- Dies whose slices of a group are all out go with them (R317). -/
def dropDies (s : State) : State := foldS s [0, 1] fun s d => if deadDie s.fw d then dieOut s d else s

/-- A unit that every partition may use is gone: the record goes to the physical function's driver and to the queue of each
partition with cores (R405). -/
def sharedRecord (s : State) : State :=
  let r := FRec.of 0x41 4
  let s := recordTo s (s.adminOf 0) r
  foldS s (s.vfs.keys.filter fun v => v != 0 && !(partCores s v).isEmpty) fun s v => recordTo s (s.adminOf v) { r with vf := v }

def sliceOut (s : State) (die n : Nat) : State :=
  if s.fw.slicesOut.contains (die * 128 + n) then s else dropDies (sharedRecord (sliceLeave s (die * 128 + n)))

/-- A mesh takes its cluster out of service: its cores and its slices (R409). -/
def meshOut (s : State) (die cluster : Nat) : State :=
  let s := coresOut s fun c => c / 256 == die && c / 128 % 2 == cluster
  dropDies (sharedRecord (foldS s ((List.range 64).map (die * 128 + cluster * 64 + ·)) sliceLeave))

/-- A link is drained, and is out of service: traffic moves to the table's alternate path (R409, R449). -/
def drainLink (s : State) (l : Nat) : State :=
  match s.fab.links.get? l with
  | some x =>
    if x.draining then
      sharedRecord { s with
        fab := { s.fab with links := s.fab.links.set l { x with inService := false, draining := false, unacked := [] } }
        fw := { s.fw with linksOut := s.fw.linksOut ++ [l] } }
    else s
  | none => s

/-! ### Lasting errors (R407, R408) -/

/-- The grains that a line holds: those a directory or an L1 knows, otherwise sectors. The spec says neither how long a line is, 64
bytes here, nor which grain it holds that nothing knows (DESIGN CHOICE, assumption 93). -/
def lineHolds (s : State) (pa : Nat) : Tab Nat :=
  let l := pa / 64 * 64
  let meets (g gsz : Nat) : Bool := decide (g < l + 64) && decide (l < g + gsz)
  let known : List (Nat × Nat) := (s.dirs.map fun (p : Nat × Dir) => (p.1, p.2.gsz)) ++
    s.cores.flatMap fun p => p.2.allGrains.map fun x => (x.1, x.2.gsz)
  let hit : List (Nat × Nat) := known.filter fun (p : Nat × Nat) => meets p.1 p.2
  let rest : List Nat := [l, l + 32].filter fun a => !(hit.any fun (p : Nat × Nat) => decide (p.1 ≤ a) && decide (a < p.1 + p.2))
  (hit ++ rest.map fun a => (a, 32)).foldl (fun (t : Tab Nat) (p : Nat × Nat) => t.set p.1 p.2) []

/-- An event that does not recur is logged; one that does is lasting. -/
def execErrorEvent (u : ErrUnit) (recurs : Bool) (s : State) : Out :=
  if !recurs then .next { s with fw := { s.fw with transient := s.fw.transient + 1 } }
  else .next (match u with
    | .line pa => { s with poison := (lineHolds s pa).foldl (fun (t : Tab Nat) p => t.set p.1 p.2) s.poison }
    | .core c => coreOut s c
    | .slice die n => sliceOut s die n
    | .link l => failLink s l
    | .mesh die cluster => meshOut s die cluster
    | .die d => sharedRecord (dieOut s d))

/-! ### L1 ways (R222) -/

/-- A grain of a way that is to be gated: written back; a delivered line is treated as refused (R222, R301), and so is one that a
load has used: it counts too (DESIGN CHOICE, assumption 80). -/
def gateGrain (s : State) (core g : Nat) (b : Block) : State :=
  match b.st g with
  | some .du | some .dr =>
    let s := s.updCore core fun c => countRefused (c.dropGrain g)
    match s.dirs.get? g with | some d => s.putDir g (d.unshare core) | none => s
  | _ => purgeGrain s core g

/-- Ways 0 to 3 are never gated. -/
def execL1WayGating (core quad : Nat) (s : State) : Out :=
  if !(between 1 5 quad) || !s.cores.has core || (s.coreD core).ways.has quad then .next s
  else
    let blocks := (s.coreD core).l1.filter fun p => p.1 % 24 / 4 == quad
    let s := foldS s blocks fun s p => foldS s (p.2.grains (p.2.tag * 65536 + p.1 / 24 * 512)) fun s g => gateGrain s core g p.2
    .next (s.updCore core fun c => { c with ways := c.ways.set quad .gated })

/-- A gated unit begins to wake. -/
def beginWake (t : Tab Gate) (n : Nat) : Tab Gate := t.modify n fun _ => .waking

def endWake (t : Tab Gate) (n : Nat) : Tab Gate := if t.get? n = some .waking then t.erase n else t

def execL1WayWake (core quad : Nat) (s : State) : Out :=
  .next (s.updCore core fun c => { c with ways := beginWake c.ways quad })

def execWayWakeEnd (core quad : Nat) (s : State) : Out :=
  .next (s.updCore core fun c => { c with ways := endWake c.ways quad })

/-! ### Pool units (R215, R223) -/

/-- The units that a core's teams and rings lie in. -/
def unitsUsed (s : State) (core : Nat) : List Nat :=
  (teamsOn s core).flatMap fun p => match s.grid? p.2.grid with
    | none => []
    | some g =>
      unitsOf g.kcb ⟨p.2.slot, [], p.2.rfBase, p.2.spBase, p.2.accBase⟩ ++
      ((s.rings.filter fun r => r.grid == p.2.grid && r.column == columnOf g p.2).flatMap fun r =>
        (List.range ((r.base + r.bufs.length * r.size + 65535) / 65536)).filterMap fun u =>
          if r.base / 65536 ≤ u then some (g.kcb.rfu + u) else none)

def execPoolUnitGating (core unit : Nat) (s : State) : Out :=
  if 48 ≤ unit || !s.cores.has core || (s.coreD core).units.has unit || (unitsUsed s core).contains unit then .next s
  else .next (s.updCore core fun c => { c with units := c.units.set unit .gated })

/-- A unit beyond those of the partition word stays gated while a team is resident (R215). -/
def execPoolUnitWake (core unit : Nat) (s : State) : Out :=
  if shareUnits (s.coreD core).pw ≤ unit && !(teamsOn s core).isEmpty then .next s
  else .next (s.updCore core fun c => { c with units := beginWake c.units unit })

def execPoolUnitWakeEnd (core unit : Nat) (s : State) : Out :=
  .next (s.updCore core fun c => { c with units := endWake c.units unit })

end Sys2Proof.Machine
end

