-- ==== Sys2Proof/Machine/SpecialRegs.lean ====
section
/-! DEFINITION. Special registers (R29, R204 to R207), and MAPF (R401). -/

namespace Sys2Proof.Machine

open Sys2Proof

/-! ### What a selector reads (R29, R205) -/

/-- Registers held by a team or by its core. -/
def teamReg (s : State) (t : Team) (core : Nat) (sel : Nat) : W64 :=
  match sel with
  | 0x03 => BitVec.ofNat 64 t.x
  | 0x04 => BitVec.ofNat 64 t.y
  | 0x05 => BitVec.ofNat 64 t.z
  | 0x06 => BitVec.ofNat 64 t.stage
  | 0x07 => BitVec.ofNat 64 t.vcore
  | 0x08 => BitVec.ofNat 64 core
  | 0x09 => BitVec.ofNat 64 (core / 128 % 2)
  | 0x0A => BitVec.ofNat 64 (core / 256)
  | 0x12 => (s.coreD core).pw
  | 0x13 => Config.cycSkew core + BitVec.ofNat 64 s.clk
  | 0x20 => (s.coreD core).refused
  | 0x21 => t.bellto
  | _ => 0

/-- The vote and fault records of a sequencer. -/
def ctlReg (c : Ctl) (sel : Nat) : W64 :=
  match sel with
  | 0x18 => c.vote
  | 0x19 => c.votex
  | 0x1A => c.fcause
  | 0x1B => c.faddr
  | 0x1C => c.fpc
  | _ => 0

def isCtlReg (sel : Nat) : Bool := decide (0x18 ≤ sel) && decide (sel ≤ 0x1C)

/-- A register as a lane of a group reads it; SR.SEED reads as zero. -/
def groupReg (s : State) (x : GCtx) (sel lane : Nat) : W64 :=
  match sel with
  | 0x00 => BitVec.ofNat 64 lane
  | 0x01 => BitVec.ofNat 64 x.g.w
  | 0x02 => BitVec.ofNat 64 x.g.gid
  | 0x10 => x.g.live
  | 0x11 => BitVec.ofNat 64 x.g.vwb
  | 0x14 => x.g.fstat
  | n => if isCtlReg n then ctlReg x.g.ctl n else teamReg s x.t x.core n

/-- A read of SR.REFUSED clears it (R205). -/
def afterRead (s : State) (core sel : Nat) : State :=
  if sel = 0x20 then s.updCore core fun c => { c with refused := 0 } else s

def illegalHere (s : State) (u : UnitId) : Out := .next (takeFault s u (trap cIllegal))

def execRdsrV (pair : Bool) (a : VReg) (n : BitVec 7) (s : State) : Out :=
  withGroup s (.rdsrV pair a n) fun ix =>
    if !selKnown n then illegalHere s (.group ix.x.k)
    else
      let val (l : Nat) : List W32 :=
        let x := groupReg s ix.x n.toNat l
        if pair then [x.setWidth 32, (x >>> 32).setWidth 32] else [x.setWidth 32]
      let e := laneEff ix a.toNat (if pair then 2 else 1) fun l => ⟨val l, 0⟩
      let s := commit s ix (.rdsrV pair a n) e s.nextPc
      .next (if ix.lanes.isEmpty then s else afterRead s ix.x.core n.toNat)

def execRdsrS (a : SReg) (n : BitVec 7) (s : State) : Out :=
  withUnit s (.rdsrS a n)
    (fun ix =>
      if !selAt n a.lvl then illegalHere s (.group ix.x.k)
      else
        let s' := commit s ix (.rdsrS a n) (.w [.s a.num (groupReg s ix.x n.toNat 0)]) s.nextPc
        .next (afterRead s' ix.x.core n.toNat))
    (fun u =>
      match s.seq? u with
      | none => .fault .noSuchUnit
      | some q =>
        if !selAt n a.lvl then illegalHere s u
        else if isCtlReg n.toNat then .next (seqWrite s u a.num (ctlReg q.ctl n.toNat))
        else match u with
          | .team k => match s.team? k with
            | some t =>
              .next (seqWrite (afterRead s (coreOfTeam k) n.toNat) u a.num (teamReg s t (coreOfTeam k) n.toNat))
            | none => .fault .noSuchUnit
          | _ => illegalHere s u)

/-! ### Writes (R47, R206) -/

/-- A lane's generator after a write of SR.SEED: zero becomes 1. -/
def seedState (x : W32) : W32 := if x = 0 then 1 else x

def execWrsrV (b : VReg) (n : BitVec 7) (s : State) : Out :=
  withGroup s (.wrsrV b n) fun ix =>
    if n.toNat ≠ 0x22 then illegalHere s (.group ix.x.k)
    else
      let gens := ix.lanes.map fun l => (l, seedState (ix.x.g.vreg l b.toNat))
      .next (commit s ix (.wrsrV b n) ⟨[], 0, gens⟩ s.nextPc)

def execWrsrS (b : SReg) (n : BitVec 7) (s : State) : Out :=
  withGroup s (.wrsrS b n) fun ix =>
    let v := ix.x.rd b
    match n.toNat with
    | 0x14 =>
      let ix' := { ix with x := { ix.x with g := { ix.x.g with fstat := v &&& 31 } } }
      .next (commit s ix' (.wrsrS b n) (.w []) s.nextPc)
    | 0x21 =>
      .next ((commit s ix (.wrsrS b n) (.w []) s.nextPc).updTeam ix.x.g.team fun t => { t with bellto := v &&& 0xFFFFFF })
    | _ => illegalHere s (.group ix.x.k)

/-! ### MAPF (R401) -/

/-- The second-stage fault of a group's access to an address, as its supervisor handler reports it: of the lane that met the
page, or of the group where a scalar access did, and of the instruction that faulted (R32, R398, R406). -/
def supStage2 (s : State) (g : Group) (k level ipa : Nat) (va : W64) : State :=
  let lane := if g.ctl.fcause.toNat / 256 % 16 = 0 then
      g.sframe.bind fun f => ((f.pages ++ f.mapped.toList).find? fun p => p.2 == va).map (·.1)
    else none
  let wr := match g.sframe with | some f => f.write | none => false
  stage2Record s (.group k) 0 level ipa va wr lane g.ctl.fpc

/-- The entry of a first-touch page changes as CAS.ACQREL.DEV changes a word (R401). -/
def mapFirst (s : State) (x : GCtx) (va : Nat) : State × Nat :=
  let (s, st) := mapPage (releaseAt s x.core x.vf .dev) x.asid va
  (acquireAt s x.core x.vf .dev, st)

/-- The status of MAPF, with the report of a second-stage fault. -/
def mapfStatus (s : State) (x : GCtx) (va : W64) : State × Nat :=
  if !vaOk va then (s, 3)
  else match walkVa s x.asid va.toNat with
    | .stage2 l ipa => (supStage2 s x.g x.k l ipa va, 4)
    | .invalid true _ => mapFirst s x va.toNat
    | _ => mapPage s x.asid va.toNat

def execMapf (a : SIdx) (b : SReg) (s : State) : Out :=
  withGroup s (.mapf a b) fun ix =>
    let (s, st) := mapfStatus s ix.x (ix.x.rd b)
    .next (commit s ix (.mapf a b) (.w [.s a.toNat (BitVec.ofNat 64 st)]) s.nextPc)

end Sys2Proof.Machine
end

