-- ==== Sys2Proof/Machine/Dispatch.lean ====
section
/-! DEFINITION. The dispatch: one arm per operation, each one call of its meaning. -/

namespace Sys2Proof.Machine

open Sys2Proof

def exec (i : Instr) (s : State) : Host.Outcome State Fault Refusal :=
  match i with
  -- Control (R84)
  | .nop sc => Sys2Proof.Machine.execNop sc s
  | .brZ sc a d => Sys2Proof.Machine.execBrZ sc a d s
  | .brNz sc a d => Sys2Proof.Machine.execBrNz sc a d s
  | .brm sc all not m d => Sys2Proof.Machine.execBrm sc all not m d s
  | .jmp sc d => Sys2Proof.Machine.execJmp sc d s
  | .jmpr sc b => Sys2Proof.Machine.execJmpr sc b s
  | .call sc d => Sys2Proof.Machine.execCall sc d s
  | .callr sc b => Sys2Proof.Machine.execCallr sc b s
  | .ret sc => Sys2Proof.Machine.execRet sc s
  | .loop sc a d => Sys2Proof.Machine.execLoop sc a d s
  | .next sc => Sys2Proof.Machine.execNext sc s
  | .brk sc d => Sys2Proof.Machine.execBrk sc d s
  | .skip m d => Sys2Proof.Machine.execSkip m d s
  | .exit => Sys2Proof.Machine.execExit s
  | .end_ sc => Sys2Proof.Machine.execEnd sc s
  | .revote sc => Sys2Proof.Machine.execRevote sc s
  | .fret sc => Sys2Proof.Machine.execFret sc s
  | .win i0 => Sys2Proof.Machine.execWin i0 s
  | .yield sc => Sys2Proof.Machine.execYield sc s
  | .trap sc c => Sys2Proof.Machine.execTrap sc c s
  -- Scalar integer (R85, R137, R139)
  | .sadd a b c => Sys2Proof.Machine.execSadd a b c s
  | .ssub a b c => Sys2Proof.Machine.execSsub a b c s
  | .smul a b c => Sys2Proof.Machine.execSmul a b c s
  | .smulhI64 a b c => Sys2Proof.Machine.execSmulhI64 a b c s
  | .smulhN64 a b c => Sys2Proof.Machine.execSmulhN64 a b c s
  | .sand a b c => Sys2Proof.Machine.execSand a b c s
  | .sor a b c => Sys2Proof.Machine.execSor a b c s
  | .sxor a b c => Sys2Proof.Machine.execSxor a b c s
  | .sshl a b c => Sys2Proof.Machine.execSshl a b c s
  | .sshr a b c => Sys2Proof.Machine.execSshr a b c s
  | .ssar a b c => Sys2Proof.Machine.execSsar a b c s
  | .sminI64 a b c => Sys2Proof.Machine.execSminI64 a b c s
  | .sminN64 a b c => Sys2Proof.Machine.execSminN64 a b c s
  | .smaxI64 a b c => Sys2Proof.Machine.execSmaxI64 a b c s
  | .smaxN64 a b c => Sys2Proof.Machine.execSmaxN64 a b c s
  | .scmpI64 k a b c => Sys2Proof.Machine.execScmpI64 k a b c s
  | .scmpN64 k a b c => Sys2Proof.Machine.execScmpN64 k a b c s
  | .ssel a b c => Sys2Proof.Machine.execSsel a b c s
  | .smov a b => Sys2Proof.Machine.execSmov a b s
  | .smovi a i0 => Sys2Proof.Machine.execSmovi a i0 s
  | .slui a i0 => Sys2Proof.Machine.execSlui a i0 s
  | .saddi a b i0 => Sys2Proof.Machine.execSaddi a b i0 s
  -- Vector integer (R86, R142)
  | .iadd w a b c => Sys2Proof.Machine.execIadd w a b c s
  | .isub w a b c => Sys2Proof.Machine.execIsub w a b c s
  | .iaddsI w a b c => Sys2Proof.Machine.execIaddsI w a b c s
  | .iaddsN w a b c => Sys2Proof.Machine.execIaddsN w a b c s
  | .isubsI w a b c => Sys2Proof.Machine.execIsubsI w a b c s
  | .isubsN w a b c => Sys2Proof.Machine.execIsubsN w a b c s
  | .imul w a b c => Sys2Proof.Machine.execImul w a b c s
  | .imulhI w a b c => Sys2Proof.Machine.execImulhI w a b c s
  | .imulhN w a b c => Sys2Proof.Machine.execImulhN w a b c s
  | .imad w a b c => Sys2Proof.Machine.execImad w a b c s
  | .iminI w a b c => Sys2Proof.Machine.execIminI w a b c s
  | .iminN w a b c => Sys2Proof.Machine.execIminN w a b c s
  | .imaxI w a b c => Sys2Proof.Machine.execImaxI w a b c s
  | .imaxN w a b c => Sys2Proof.Machine.execImaxN w a b c s
  | .iabs w a b => Sys2Proof.Machine.execIabs w a b s
  | .and w a b c => Sys2Proof.Machine.execAnd w a b c s
  | .or w a b c => Sys2Proof.Machine.execOr w a b c s
  | .xor w a b c => Sys2Proof.Machine.execXor w a b c s
  | .shl w a b c => Sys2Proof.Machine.execShl w a b c s
  | .shr w a b c => Sys2Proof.Machine.execShr w a b c s
  | .sar w a b c => Sys2Proof.Machine.execSar w a b c s
  | .bfxI w a b c => Sys2Proof.Machine.execBfxI w a b c s
  | .bfxN w a b c => Sys2Proof.Machine.execBfxN w a b c s
  | .bfi w a b c => Sys2Proof.Machine.execBfi w a b c s
  | .popc w a b => Sys2Proof.Machine.execPopc w a b s
  | .clz w a b => Sys2Proof.Machine.execClz w a b s
  | .sel w a b c => Sys2Proof.Machine.execSel w a b c s
  | .mov w a b => Sys2Proof.Machine.execMov w a b s
  | .movVs w a c => Sys2Proof.Machine.execMovVs w a c s
  | .movi a i0 => Sys2Proof.Machine.execMovi a i0 s
  -- Mask and compare (R87)
  | .icmp k n w a b c => Sys2Proof.Machine.execIcmp k n w a b c s
  | .fcmp k a b c => Sys2Proof.Machine.execFcmp k a b c s
  | .ftst a b c => Sys2Proof.Machine.execFtst a b c s
  | .mand a b c => Sys2Proof.Machine.execMand a b c s
  | .mor a b c => Sys2Proof.Machine.execMor a b c s
  | .mxor a b c => Sys2Proof.Machine.execMxor a b c s
  | .mandn a b c => Sys2Proof.Machine.execMandn a b c s
  | .mnot a b => Sys2Proof.Machine.execMnot a b s
  | .mmov a b => Sys2Proof.Machine.execMmov a b s
  | .mset a b => Sys2Proof.Machine.execMset a b s
  | .mget a b => Sys2Proof.Machine.execMget a b s
  | .mpop a b => Sys2Proof.Machine.execMpop a b s
  | .mfirst a b => Sys2Proof.Machine.execMfirst a b s
  -- Floating point (R88)
  | .fadd a b c => Sys2Proof.Machine.execFadd a b c s
  | .fsub a b c => Sys2Proof.Machine.execFsub a b c s
  | .fmul a b c => Sys2Proof.Machine.execFmul a b c s
  | .ffma a b c => Sys2Proof.Machine.execFfma a b c s
  | .fmin a b c => Sys2Proof.Machine.execFmin a b c s
  | .fmax a b c => Sys2Proof.Machine.execFmax a b c s
  | .frnd a b => Sys2Proof.Machine.execFrnd a b s
  | .fclass a b => Sys2Proof.Machine.execFclass a b s
  | .hadd2 f a b c => Sys2Proof.Machine.execHadd2 f a b c s
  | .hmul2 f a b c => Sys2Proof.Machine.execHmul2 f a b c s
  | .hfma2 f a b c => Sys2Proof.Machine.execHfma2 f a b c s
  | .hmax2 f a b c => Sys2Proof.Machine.execHmax2 f a b c s
  -- Conversion, special functions, cross-lane (R89)
  | .cvt dst src a b => Sys2Proof.Machine.execCvt dst src a b s
  | .pack k a b => Sys2Proof.Machine.execPack k a b s
  | .unpk k a b => Sys2Proof.Machine.execUnpk k a b s
  | .exp2 a b => Sys2Proof.Machine.execExp2 a b s
  | .log2 a b => Sys2Proof.Machine.execLog2 a b s
  | .rcp a b => Sys2Proof.Machine.execRcp a b s
  | .rsq a b => Sys2Proof.Machine.execRsq a b s
  | .sqrt a b => Sys2Proof.Machine.execSqrt a b s
  | .sint a b => Sys2Proof.Machine.execSint a b s
  | .cost a b => Sys2Proof.Machine.execCost a b s
  | .tanh a b => Sys2Proof.Machine.execTanh a b s
  | .shfl m a b c => Sys2Proof.Machine.execShfl m a b c s
  | .bcast a b l => Sys2Proof.Machine.execBcast a b l s
  | .red r a b => Sys2Proof.Machine.execRed r a b s
  | .scan r a b => Sys2Proof.Machine.execScan r a b s
  | .voteAny a b => Sys2Proof.Machine.execVoteAny a b s
  | .voteAll a b => Sys2Proof.Machine.execVoteAll a b s
  | .voteEq a b => Sys2Proof.Machine.execVoteEq a b s
  | .ballot a b => Sys2Proof.Machine.execBallot a b s
  | .sample a b c => Sys2Proof.Machine.execSample a b c s
  -- Memory (R90)
  | .ld t a b c => Sys2Proof.Machine.execLd t a b c s
  | .ldAcq t a b s0 => Sys2Proof.Machine.execLdAcq t a b s0 s
  | .st t a b c => Sys2Proof.Machine.execSt t a b c s
  | .stRel t a b s0 => Sys2Proof.Machine.execStRel t a b s0 s
  | .atom o t a b r s0 => Sys2Proof.Machine.execAtom o t a b r s0 s
  | .cas r s0 a b c => Sys2Proof.Machine.execCas r s0 a b c s
  | .casW64 r s0 a b c => Sys2Proof.Machine.execCasW64 r s0 a b c s
  | .ldbR t a b n => Sys2Proof.Machine.execLdbR t a b n s
  | .ldbS t a b n => Sys2Proof.Machine.execLdbS t a b n s
  | .lds t a b c => Sys2Proof.Machine.execLds t a b c s
  | .sts t a b c => Sys2Proof.Machine.execSts t a b c s
  | .fence r s0 => Sys2Proof.Machine.execFence r s0 s
  | .pref b l2 => Sys2Proof.Machine.execPref b l2 s
  | .cinv b s0 => Sys2Proof.Machine.execCinv b s0 s
  | .cflush b s0 => Sys2Proof.Machine.execCflush b s0 s
  | .ldp t a b w => Sys2Proof.Machine.execLdp t a b w s
  | .stp t a b w => Sys2Proof.Machine.execStp t a b w s
  | .atompI32 o a b w => Sys2Proof.Machine.execAtompI32 o a b w s
  | .atompN32 o a b w => Sys2Proof.Machine.execAtompN32 o a b w s
  | .ldpr t a b w => Sys2Proof.Machine.execLdpr t a b w s
  | .stpr t a b w => Sys2Proof.Machine.execStpr t a b w s
  -- Matrix, copies, barriers, feeds, delivery, bells, system (R91)
  | .mmldb a b m n => Sys2Proof.Machine.execMmldb a b m n s
  | .mmloop a b m => Sys2Proof.Machine.execMmloop a b m s
  | .mmzero u n => Sys2Proof.Machine.execMmzero u n s
  | .amov a b => Sys2Proof.Machine.execAmov a b s
  | .anrw a b c => Sys2Proof.Machine.execAnrw a b c s
  | .qtile a b m => Sys2Proof.Machine.execQtile a b m s
  | .rqt a b row => Sys2Proof.Machine.execRqt a b row s
  | .tcopy a b => Sys2Proof.Machine.execTcopy a b s
  | .tcopyMAll a b h => Sys2Proof.Machine.execTcopyMAll a b h s
  | .tcopyMJoin a b h => Sys2Proof.Machine.execTcopyMJoin a b h s
  | .binit b c => Sys2Proof.Machine.execBinit b c s
  | .barv a b n => Sys2Proof.Machine.execBarv a b n s
  | .bexp b c => Sys2Proof.Machine.execBexp b c s
  | .bwait b c => Sys2Proof.Machine.execBwait b c s
  | .btest a b c => Sys2Proof.Machine.execBtest a b c s
  | .feedget a f => Sys2Proof.Machine.execFeedget a f s
  | .feedput f c => Sys2Proof.Machine.execFeedput f c s
  | .feedpop a f => Sys2Proof.Machine.execFeedpop a f s
  | .feedrel f c => Sys2Proof.Machine.execFeedrel f c s
  | .dlv t a b h => Sys2Proof.Machine.execDlv t a b h s
  | .hamset a b c => Sys2Proof.Machine.execHamset a b c s
  | .hamand a b c => Sys2Proof.Machine.execHamand a b c s
  | .ring a b n => Sys2Proof.Machine.execRing a b n s
  | .bellr a n => Sys2Proof.Machine.execBellr a n s
  | .bellw b n => Sys2Proof.Machine.execBellw b n s
  | .rdsrV pair a s0 => Sys2Proof.Machine.execRdsrV pair a s0 s
  | .rdsrS a s0 => Sys2Proof.Machine.execRdsrS a s0 s
  | .wrsrV b s0 => Sys2Proof.Machine.execWrsrV b s0 s
  | .wrsrS b s0 => Sys2Proof.Machine.execWrsrS b s0 s
  | .launchT b => Sys2Proof.Machine.execLaunchT b s
  | .launchD b => Sys2Proof.Machine.execLaunchD b s
  | .mapf a b => Sys2Proof.Machine.execMapf a b s
  | .tlbiPage b => Sys2Proof.Machine.execTlbiPage b s
  | .tlbiCtx => Sys2Proof.Machine.execTlbiCtx s
  -- The step of a slot that holds no instruction (R92)
  | .illegalInstruction why => Sys2Proof.Machine.execIllegalInstruction why s
  -- Events of groups, teams and grids
  | .takeRun g => Sys2Proof.Machine.execTakeRun g s
  | .runEnd g => Sys2Proof.Machine.execRunEnd g s
  | .endMarkerTaken u => Sys2Proof.Machine.execEndMarkerTaken u s
  | .groupRetirement g => Sys2Proof.Machine.execGroupRetirement g s
  | .completionEvent g flight => Sys2Proof.Machine.execCompletionEvent g flight s
  | .handlerEntry u => Sys2Proof.Machine.execHandlerEntry u s
  | .voteComplete u => Sys2Proof.Machine.execVoteComplete u s
  | .teamTakeRun t => Sys2Proof.Machine.execTeamTakeRun t s
  | .versionFreed u => Sys2Proof.Machine.execVersionFreed u s
  | .raceSpaceFreed u => Sys2Proof.Machine.execRaceSpaceFreed u s
  | .sequencerPark u => Sys2Proof.Machine.execSequencerPark u s
  | .groupStopPoint g => Sys2Proof.Machine.execGroupStopPoint g s
  | .revoteAccepted u => Sys2Proof.Machine.execRevoteAccepted u s
  | .bwaitComplete g => Sys2Proof.Machine.execBwaitComplete g s
  | .barvCarryRoom g => Sys2Proof.Machine.execBarvCarryRoom g s
  | .feedBufferReady g => Sys2Proof.Machine.execFeedBufferReady g s
  | .bellwComplete g => Sys2Proof.Machine.execBellwComplete g s
  | .ldbSTimeout g flight lane => Sys2Proof.Machine.execLdbSTimeout g flight lane s
  -- Events of L1s and homes
  | .deliveryArrival core grain gsize attr bytes round grp flight => Sys2Proof.Machine.execDeliveryArrival core grain gsize attr bytes round grp flight s
  | .deliverySettled grp flight grain => Sys2Proof.Machine.execDeliverySettled grp flight grain s
  | .readRequest core grain => Sys2Proof.Machine.execReadRequest core grain s
  | .ownershipRequest core grain => Sys2Proof.Machine.execOwnershipRequest core grain s
  | .writeback core grain bytes why => Sys2Proof.Machine.execWriteback core grain bytes why s
  | .cleanNotice core grain => Sys2Proof.Machine.execCleanNotice core grain s
  | .invalidation core grain => Sys2Proof.Machine.execInvalidation core grain s
  | .invalidationAck core grain => Sys2Proof.Machine.execInvalidationAck core grain s
  | .recall core grain toShared => Sys2Proof.Machine.execRecall core grain toShared s
  | .fill core grain bytes own => Sys2Proof.Machine.execFill core grain bytes own s
  | .homeExecutedOperation o => Sys2Proof.Machine.execHomeExecutedOperation o s
  | .recordMessage core grain s0 => Sys2Proof.Machine.execRecordMessage core grain s0 s
  | .flushRequest core grain => Sys2Proof.Machine.execFlushRequest core grain s
  | .flushAcknowledge core grain => Sys2Proof.Machine.execFlushAcknowledge core grain s
  | .retry core grain => Sys2Proof.Machine.execRetry core grain s
  | .roundBroadcast core asid bell round grp flight => Sys2Proof.Machine.execRoundBroadcast core asid bell round grp flight s
  | .viewAcknowledge core grp flight => Sys2Proof.Machine.execViewAcknowledge core grp flight s
  | .remoteScratchpadAccess grp flight => Sys2Proof.Machine.execRemoteScratchpadAccess grp flight s
  -- Events of copies and multicast
  | .multicastPacket core leg what bytes from0 => Sys2Proof.Machine.execMulticastPacket core leg what bytes from0 s
  | .joinRequest core queue key => Sys2Proof.Machine.execJoinRequest core queue key s
  | .multicastReply core key bytes from0 => Sys2Proof.Machine.execMulticastReply core key bytes from0 s
  | .copyElementMoved q => Sys2Proof.Machine.execCopyElementMoved q s
  | .reeveFirstTouchMap u => Sys2Proof.Machine.execReeveFirstTouchMap u s
  -- Events of the dispatcher, the weir and the reeves
  | .gridCompletion grid => Sys2Proof.Machine.execGridCompletion grid s
  | .launchQueueEntryFreed vf => Sys2Proof.Machine.execLaunchQueueEntryFreed vf s
  | .launchRecordValidation vf => Sys2Proof.Machine.execLaunchRecordValidation vf s
  | .teamPlacement grid => Sys2Proof.Machine.execTeamPlacement grid s
  | .wholeGridPlacement grid => Sys2Proof.Machine.execWholeGridPlacement grid s
  | .nopPacket q => Sys2Proof.Machine.execNopPacket q s
  | .launchPacket q => Sys2Proof.Machine.execLaunchPacket q s
  | .waitPacket q => Sys2Proof.Machine.execWaitPacket q s
  | .signalPacket q => Sys2Proof.Machine.execSignalPacket q s
  | .barPacketRelease q => Sys2Proof.Machine.execBarPacketRelease q s
  | .waitWake q => Sys2Proof.Machine.execWaitWake q s
  | .bringUpStageComplete r => Sys2Proof.Machine.execBringUpStageComplete r s
  -- Events of the fabric, of failures and of power
  | .remoteStoreAck grp flight => Sys2Proof.Machine.execRemoteStoreAck grp flight s
  | .collectiveSubmit grp vf sub => Sys2Proof.Machine.execCollectiveSubmit grp vf sub s
  -- Accesses of the host and of other devices
  | .hostCxlCacheRequest line gsz dpage => Sys2Proof.Machine.execHostCxlCacheRequest line gsz dpage s
  | .hostAccess pa a => Sys2Proof.Machine.execHostAccess pa a s
  | .peerWrite queby src pa bytes => Sys2Proof.Machine.execPeerWrite queby src pa bytes s
  | .remoteAccess dev pa a => Sys2Proof.Machine.execRemoteAccess dev pa a s
  -- Events whose cause lies outside the units: the host, peers, timers, the reeves' own requests, failures
  | .features q => Sys2Proof.Machine.execFeatures q s
  | .createCtx q => Sys2Proof.Machine.execCreateCtx q s
  | .destroyCtx q => Sys2Proof.Machine.execDestroyCtx q s
  | .createQueue q => Sys2Proof.Machine.execCreateQueue q s
  | .destroyQueue q => Sys2Proof.Machine.execDestroyQueue q s
  | .poolAdd q => Sys2Proof.Machine.execPoolAdd q s
  | .setWindow q => Sys2Proof.Machine.execSetWindow q s
  | .resume q => Sys2Proof.Machine.execResume q s
  | .repair q => Sys2Proof.Machine.execRepair q s
  | .invalFn q => Sys2Proof.Machine.execInvalFn q s
  | .setWeir q => Sys2Proof.Machine.execSetWeir q s
  | .setTithe q => Sys2Proof.Machine.execSetTithe q s
  | .setSlots q => Sys2Proof.Machine.execSetSlots q s
  | .vfReset q => Sys2Proof.Machine.execVfReset q s
  | .attest q => Sys2Proof.Machine.execAttest q s
  | .migrate q => Sys2Proof.Machine.execMigrate q s
  | .abort q => Sys2Proof.Machine.execAbort q s
  | .moduleReset => Sys2Proof.Machine.execModuleReset s
  | .driverHandshake vf => Sys2Proof.Machine.execDriverHandshake vf s
  | .registerWrite r value => Sys2Proof.Machine.execRegisterWrite r value s
  | .loadObject vf asid bytes => Sys2Proof.Machine.execLoadObject vf asid bytes s
  | .unloadObject vf obj => Sys2Proof.Machine.execUnloadObject vf obj s
  | .functionLevelReset vf => Sys2Proof.Machine.execFunctionLevelReset vf s
  | .doorbell vf d => Sys2Proof.Machine.execDoorbell vf d s
  | .throttleSample x => Sys2Proof.Machine.execThrottleSample x s
  | .hostSnoopResponse line bytes => Sys2Proof.Machine.execHostSnoopResponse line bytes s
  | .peerRead queby src pa size => Sys2Proof.Machine.execPeerRead queby src pa size s
  | .flitReceive link seq crc => Sys2Proof.Machine.execFlitReceive link seq crc s
  | .replayRequest link seq => Sys2Proof.Machine.execReplayRequest link seq s
  | .unreachableDevice dev => Sys2Proof.Machine.execUnreachableDevice dev s
  | .timestampExchange ref => Sys2Proof.Machine.execTimestampExchange ref s
  | .errorEvent u recurs => Sys2Proof.Machine.execErrorEvent u recurs s
  | .l1WayGating core quad => Sys2Proof.Machine.execL1WayGating core quad s
  | .wayWakeEnd core quad => Sys2Proof.Machine.execWayWakeEnd core quad s
  | .poolUnitGating core unit => Sys2Proof.Machine.execPoolUnitGating core unit s
  | .poolUnitWakeEnd core unit => Sys2Proof.Machine.execPoolUnitWakeEnd core unit s
  | .l1WayWake core quad => Sys2Proof.Machine.execL1WayWake core quad s
  | .poolUnitWake core unit => Sys2Proof.Machine.execPoolUnitWake core unit s
  | .preemptionRequest vf core => Sys2Proof.Machine.execPreemptionRequest vf core s
  | .contextSave core => Sys2Proof.Machine.execContextSave core s
  | .restore saved core => Sys2Proof.Machine.execRestore saved core s
  | .weirDeadline vf => Sys2Proof.Machine.execWeirDeadline vf s
  | .residenceEvent q => Sys2Proof.Machine.execResidenceEvent q s
  | .ageingTick q => Sys2Proof.Machine.execAgeingTick q s
  | .waitPoll q => Sys2Proof.Machine.execWaitPoll q s
  | .joinEntryTimeout slice idx => Sys2Proof.Machine.execJoinEntryTimeout slice idx s
  | .joinEntryExpiry slice idx => Sys2Proof.Machine.execJoinEntryExpiry slice idx s
  | .collectiveCompletion grp => Sys2Proof.Machine.execCollectiveCompletion grp s
  | .escalatedFaultResume g => Sys2Proof.Machine.execEscalatedFaultResume g s
  | .copyResume q => Sys2Proof.Machine.execCopyResume q s
  | .victimUnmap q => Sys2Proof.Machine.execVictimUnmap q s

end Sys2Proof.Machine
end

