-- ==== Sys2Proof/Machine/Sched.lean ====
section
/-! DEFINITION. What happens next: answers that are due at once, then what the schedule names: a unit's move, one of the
messages on their way, an input, a write-back; without it the first message, the next input, or the next unit that can move.
A unit's move is the execution of its slot or one of its events; where nothing can move, a clk passes. The order among units
and among messages is the schedule's; the spec leaves it open. -/

namespace Sys2Proof.Machine

open Sys2Proof

/-- The next step: an instruction or event executes in a state, an effect of its own, or a clk passes. -/
inductive Move where
  | run (i : Instr) (s : State)
  | out (o : Out)
  | idle

def firstMove : List (Option Move) → Option Move
  | [] => none
  | some m :: _ => some m
  | none :: ms => firstMove ms

def moveIf (c : Bool) (m : Move) : Option Move := if c then some m else none

/-! ### Flights of a group (R65) -/

/-- A result whose latency has passed lands. -/
def landMove (s : State) (k : Nat) (g : Group) : Option Move :=
  (g.flights.find? fun f => f.wait == 0 && (match f.due with | some d => decide (d ≤ s.clk) | none => false)).map
    fun f => .run (.completionEvent k f.id) s

/-- The oldest flag-completed flight that is ready completes, once something waits for it (the log says so). -/
def lazyMove (s : State) (k : Nat) (g : Group) (p : Flight → Bool) : Option Move :=
  (g.flights.find? fun f => f.wait == 0 && f.due.isNone && p f).map fun f => .run (.completionEvent k f.id) s

def drainMove (s : State) (k : Nat) (g : Group) : Option Move := lazyMove s k g fun _ => true

/-- A BARV that waits for room (R263). -/
def hasBarv (p : PendRel) : Bool := p.acts.any fun a => match a with | .barv _ _ _ => true | _ => false

/-- The group's oldest release: its records first (R328), then its performance. -/
def relMove (s : State) (k : Nat) : Option Move :=
  if recordsTurn s k then some (.out (.next (sendRecords s k)))
  else (relDue s k).map fun r => if hasBarv r.2 then .run (.barvCarryRoom k) s else .out (.next (performRel s k))

/-- The banks serve the group's oldest scratchpad access for one more clk (R220); a unit that wakes stalls it (R223). -/
def bankMove (s : State) (k : Nat) (g : Group) : Option Move :=
  match g.banks with
  | o :: _ => moveIf (!(servedNow s o).isEmpty && !teamAsleep s g.team) (.out (.next (bankMore s k)))
  | [] => none

/-- A remote scratchpad access that its target core may serve now (R294). -/
def remoteMove (s : State) (k : Nat) (g : Group) : Option Move :=
  ((remotesDue s g).find? fun o => !(o.pieces.any fun p => teamAsleep s p.team)).map fun o =>
    .run (.remoteScratchpadAccess k o.flight) s

/-- A lane of LDB.S whose time is up, or whose core is being pre-empted (R230, R337). -/
def ldbMove (s : State) (k : Nat) : Option Move :=
  let c := s.coreD (coreOfGroup k)
  (c.ldbWaits.find? fun w => w.grp == k && (decide (w.deadline ≤ s.clk) || c.preempt)).map
    fun w => .run (.ldbSTimeout k w.flight w.lane) s

/-! ### Readiness of a slot (R64 to R66, R73, R190, R212) -/

/-- The memory accesses that an acquire or a release not yet performed holds. -/
def touchesMemory : Instr → Bool
  | .ld _ _ _ _ | .ldAcq _ _ _ _ | .st _ _ _ _ | .stRel _ _ _ _ | .atom _ _ _ _ _ _ | .cas _ _ _ _ _ | .casW64 _ _ _ _ _
  | .ldbR _ _ _ _ | .ldbS _ _ _ _ | .lds _ _ _ _ | .sts _ _ _ _ | .fence _ _ | .pref _ _ | .cinv _ _ | .cflush _ _
  | .ldp _ _ _ _ | .stp _ _ _ _ | .atompI32 _ _ _ _ | .atompN32 _ _ _ _ | .ldpr _ _ _ _ | .stpr _ _ _ _
  | .tcopy _ _ | .tcopyMAll _ _ _ | .tcopyMJoin _ _ _ | .binit _ _ | .barv _ _ _ | .bexp _ _ | .bwait _ _ | .btest _ _ _
  | .feedget _ _ | .feedput _ _ | .feedpop _ _ | .feedrel _ _ | .dlv _ _ _ _ | .ring _ _ _ => true
  | _ => false

/-- SR.FSTAT is read or written (R46). -/
def usesFstat : Instr → Bool
  | .rdsrV _ _ n | .rdsrS _ n | .wrsrV _ n | .wrsrS _ n => n.toNat == 0x14
  | _ => false

def isMatrix : Instr → Bool
  | .mmldb _ _ _ _ | .mmloop _ _ _ | .mmzero _ _ | .amov _ _ | .anrw _ _ _ | .qtile _ _ _ | .rqt _ _ _ => true
  | _ => false

def isCopy : Instr → Bool
  | .tcopy _ _ | .tcopyMAll _ _ _ | .tcopyMJoin _ _ _ => true
  | _ => false

/-- The matrix instructions that read scratchpad: an acquire holds them too. -/
def readsTile : Instr → Bool
  | .mmldb _ _ _ _ | .mmloop _ _ _ | .qtile _ _ _ | .rqt _ _ _ => true
  | _ => false

/-- The scratchpad instructions of the group's own banks: they reach them in program order (R220). -/
def usesBanks : Instr → Bool
  | .ldp _ _ _ _ | .stp _ _ _ _ | .atompI32 _ _ _ _ | .atompN32 _ _ _ _ => true
  | i => readsTile i

def copyDepth : Nat := 32

/-- The unit that a slot needs accepts nothing now (R237, R265). -/
def unitFull (s : State) (x : GCtx) (i : Instr) : Bool :=
  (isMatrix i && decide (engineDepth ≤ (s.coreD x.core).engine.length)) ||
  (isCopy i && decide (copyDepth ≤ (s.copies (x.core * 16 + x.t.slot)).length))

/-- The banks still serve an access of the group, for an instruction that reads tiles one in another core's banks too (R238), or
a unit of its team wakes (R220, R223, R253). -/
def banksBusy (s : State) (x : GCtx) (i : Instr) : Bool :=
  usesBanks i && !x.g.banks.isEmpty || readsTile i && spPending x.g || (usesBanks i || isMatrix i) && teamAsleep s x.g.team

/-- The engine has yet to read the record of a copy that the group issued: its barrier instructions wait (R267). -/
def recordUnread (s : State) (x : GCtx) : Bool :=
  (s.copies (x.core * 16 + x.t.slot)).any fun c => c.grp == x.k && !c.readDone

def isBarrier : Instr → Bool
  | .binit _ _ | .barv _ _ _ | .bexp _ _ | .bwait _ _ | .btest _ _ _ => true
  | _ => false

/-- What still holds a slot: a flight to complete first, or time. -/
inductive Ready where
  | yes | time | flight (p : Flight → Bool)

/-- R64 to R66 in paced mode. -/
def paceReady (s : State) (g : Group) (x : Slot) : Ready :=
  if s.clk < g.lastIssue + 1 + distClks x.dist then .time
  else if (List.range 12).any fun n => x.wait.testBit n && g.flag (n + 1) != 0 then
    .flight fun f => f.flag != 0 && x.wait.testBit (f.flag - 1)
  else if x.iss.setf ≠ 0 && x.iss.setf ≤ 12 && 7 ≤ g.flag x.iss.setf then .flight fun f => f.flag == x.iss.setf
  else .yes

/-- R73. -/
def lockReady (s : State) (g : Group) (x : Slot) : Ready :=
  let use := useOf x.instr (x.iss.pfx.bind fun q => if (pfxRule x.instr).d4 then some q.d4.toNat else none)
  if s.clk < g.lastIssue + (if g.w = 64 then 3 else 2) then .time
  else if writePending g use (maskNum x.iss.pfx) then .flight fun _ => true
  else .yes

def slotReady (s : State) (c : GCtx) (x : Slot) : Ready :=
  let g := c.g
  match if c.gr.kcb.paced then paceReady s g x else lockReady s g x with
  | .yes =>
    if (touchesMemory x.instr || readsTile x.instr) && g.hold.isSome then .flight fun f => g.hold == some f.id
    else if touchesMemory x.instr && (g.rels.any (!hasBarv ·) || (relDue s c.k).isSome) then .time
    else if behindMove { s with iss := x.iss } c x.instr then .time
    else if behindLdb { s with iss := x.iss } c x.instr then .time
    else if usesFstat x.instr && g.flights.any (·.raises) then .flight fun f => f.raises
    else if unitFull s c x.instr || banksBusy s c x.instr || (isBarrier x.instr && recordUnread s c) then .time
    else .yes
  | r => r

/-! ### Fetching for a group and for an upper sequencer -/

/-- The record of the slot at which a unit stands. -/
def Issue.at (u : UnitId) (pc : W64) : Issue := ⟨u, pc, pc, none, 0, false, 0⟩

/-- A code-fetch fault (R396): the debug agent. -/
def fetchFault (s : State) (u : UnitId) (pc : W64) (cause : Nat) (a : W64) : Move :=
  .out (.next (takeFault { s with iss := Issue.at u pc } u { trap cause 0 a with fetch := true }))

/-- A second-stage fault of a fetch holds the unit (R398). -/
def fetchStage2 (s : State) (u : UnitId) (level ipa : Nat) (a : W64) (pc : W64) : Move :=
  .out (.next { stage2Record s u 3 level ipa a false none pc with s2waits := s.s2waits ++ [⟨vfOf s u, u, a, 0⟩] })

/-- A fetch that returned no data (R408). -/
def fetchPoison (s : State) (u : UnitId) (pa : Nat) (pc : W64) : Move :=
  .out (.next (dataStop s u { FRec.of 0x40 3 with scope := recScope u none, xaddr := pa, fpc := pc }))

def held2 (s : State) (u : UnitId) : Bool := s.s2waits.any fun w => w.unit == u

/-! ### Issue on a quadrant (R212 to R214) -/

def slotAt (s : State) (c : GCtx) : SlotRes := fetchSlot s (.group c.k) c.gr.kcb.paced c.g.ctl.pc (c.g.run.map (·.end_))

/-- A group whose next slot is its own to take: it runs a run, and nothing stops or holds it. -/
def mayRun (s : State) (c : GCtx) : Bool :=
  c.g.st == .running && !(mustStop c.g.stopReq && atStopPoint c.g) && c.g.sframe.isNone && !held2 s (.group c.k) &&
  c.gr.kcb.inRange c.g.ctl.pc && match c.g.run with | some r => c.g.ctl.pc != r.end_ | none => false

/-- A write fault on a page that is being moved (R201, R395). -/
def movedPage (s : State) (asid : Nat) (f : SFrame) (va : W64) : Bool :=
  f.write && (match walkVa s asid va.toNat with | .leaf e _ _ _ _ => eMov e && eWr e | _ => false)

/-- The second stage alone refuses the write of a page that the first stage maps (R398). -/
def refused2 (s : State) (asid : Nat) (f : SFrame) (va : W64) : Option (Nat × Nat) :=
  if f.write then match translateWalk s asid va.toNat .wr with | .stage2 l ipa => some (l, ipa) | _ => none
  else none

/-- The instruction of the ROM supervisor handler that comes next (R200, R201). -/
def romNext (s : State) (c : GCtx) (f : SFrame) : Option Instr :=
  match f.mapped, f.pages with
  | some (_, va), _ => if (c.g.sregD 62).toNat ≤ 1 && (refused2 s c.asid f va).isNone then some (.tlbiPage (.s 63)) else none
  | none, (_, va) :: _ => if movedPage s c.asid f va then none else some (.mapf 62 (.s 63))
  | none, [] => if f.esc.isEmpty && !f.quiet then some (.fret .g) else none

/-- The group as it stands once the results whose latency has passed have landed. -/
def Group.landed (g : Group) (clk : Nat) : Group :=
  (g.flights.filter fun f => f.wait == 0 && match f.due with | some d => decide (d ≤ clk) | none => false).foldl Group.land g

/-- A group in the ROM handler has its next slot ready: nothing of it is in flight, and it has not issued in this clk. -/
def romReady (s : State) (c : GCtx) (f : SFrame) : Bool :=
  c.g.st == .running && !mustStop c.g.stopReq && c.g.flights.isEmpty && decide (c.g.lastIssue < s.clk) && (romNext s c f).isSome

/-- The group is ready (R212). -/
def isReady (s : State) (k : Nat) : Bool :=
  match s.gctx k with
  | none => false
  | some c0 =>
    let c := { c0 with g := c0.g.landed s.clk }
    match c.g.sframe with
    | some f => romReady s c f
    | none => mayRun s c && match slotAt s c with
      | .ok x => (match slotReady s c x with | .yes => true | _ => false)
      | _ => false

/-- The other groups of a group's quadrant. -/
def quadOthers (s : State) (k : Nat) : List (Nat × Group) := s.groups.filter fun p => p.1 / 16 == k / 16 && p.1 != k

def issuedAt (g : Group) (clk : Nat) : Bool := match g.issue with | some r => r.clk == clk | none => false

/-- Classes 2 to 4 with 16 lanes: two such slots may issue in one clk (R213). -/
def pairs (g : Group) (cls : Nat) : Bool := g.w == 16 && decide (2 ≤ cls) && decide (cls ≤ 4)

/-- The quadrant has a place in this clk: none has issued, or one beside which this slot may; and no group of 64 lanes issued
in the clk before. -/
def quadAdmits (s : State) (c : GCtx) (cls : Nat) : Bool :=
  (match (quadOthers s c.k).filter fun p => issuedAt p.2 s.clk with
    | [] => true
    | [p] => (match p.2.issue with | some r => r.pair | none => false) && pairs c.g cls
    | _ => false) &&
  !((c.k, c.g) :: quadOthers s c.k).any fun p => p.2.w == 64 && decide (0 < s.clk) && issuedAt p.2 (s.clk - 1)

/-- The group comes before another: longer without issuing, or of the lower sequencer on a tie. -/
def goesFirst (k : Nat) (g : Group) (p : Nat × Group) : Bool :=
  decide (g.age < p.2.age) || (g.age == p.2.age && decide (k < p.1))

/-- No ready group of the quadrant that has not issued in this clk comes before (R212). -/
def isNext (s : State) (k : Nat) (g : Group) : Bool :=
  (quadOthers s k).all fun p => goesFirst k g p || issuedAt p.2 s.clk || !isReady s p.1

def issueMove (s : State) (c : GCtx) : Option Move :=
  let u := UnitId.group c.k
  let pc := c.g.ctl.pc
  match slotAt s c with
  | .fault cause a => some (fetchFault s u pc cause a)
  | .poison _ pa => some (fetchPoison s u pa pc)
  | .stage2 l i a => some (fetchStage2 s u l i a pc)
  | .ok x =>
    match slotReady s c x with
    | .yes => moveIf (quadAdmits s c x.iss.cls && isNext s c.k c.g) (.run x.instr { fetchFill s u pc with iss := x.iss })
    | .time => none
    | .flight p => lazyMove s c.k c.g p

/-! ### The ROM supervisor handler (R200, R201): MAPF and TLBI on each page, then FRET or a parked group -/

def setFrame (s : State) (k : Nat) (f : SFrame → SFrame) : State :=
  s.updGroup k fun g => { g with sframe := g.sframe.map f }

/-- An instruction of the ROM handler issues as the group's next slot, in the quadrant's turn (R212); it pairs with no other. -/
def romRun (s : State) (c : GCtx) (s' : State) (i : Instr) : Option Move :=
  moveIf (decide (c.g.lastIssue < s.clk) && quadAdmits s c 0 && isNext s c.k c.g)
    (.run i { s' with iss := Issue.at (.group c.k) c.g.ctl.pc })

def escalate (s : State) (k : Nat) (f : SFrame) : State :=
  let lowest := match f.esc with
    | [] => none
    | p :: ps => some (ps.foldl (fun (b : Nat × W64) q => if q.1 < b.1 then q else b) p)
  let s := match lowest with
    | some (lane, va) => unitRecord s (.group k) { faultRec s (.group k) f.write false with va := va, detail := lane }
    | none => s
  s.updGroup k fun g => { g with st := .escalated }

def supMove (s : State) (c : GCtx) (f : SFrame) : Option Move :=
  let k := c.k
  match f.mapped, f.pages with
  | some (lane, va), _ =>
    let st := (c.g.sregD 62).toNat
    let s0 := s
    let s := setFrame s k fun f => { f with mapped := none, pages := f.pages.drop 1 }
    let wait (s : State) : Move :=
      .out (.next (setFrame { s with s2waits := s.s2waits ++ [⟨c.vf, .group k, va, lane⟩] } k fun f => { f with quiet := true }))
    if st ≤ 1 then
      (match refused2 s c.asid f va with
       | some (l, ipa) =>
         some (wait (setFrame (supStage2 s0 c.g k l ipa va) k fun f => { f with mapped := none, pages := f.pages.drop 1 }))
       | none => romRun s0 c s (.tlbiPage (.s 63)))
    else if st = 4 then some (wait s)
    else some (.out (.next (setFrame s k fun f => { f with esc := f.esc ++ [(lane, va)] })))
  | none, (lane, va) :: rest =>
    if movedPage s c.asid f va then some (.out (.next (setFrame s k fun f => { f with pages := rest, quiet := true })))
    else
      let s' := s.updGroup k fun g => { g with sreg := g.sreg.put 0 63 va }
      romRun s c (setFrame s' k fun f => { f with mapped := some (lane, va) }) (.mapf 62 (.s 63))
  | none, [] =>
    if f.esc.isEmpty && !f.quiet then romRun s c s (.fret .g) else some (.out (.next (escalate s k f)))

/-! ### A group's move (R105, R124 to R131, R212) -/

def stopMove (s : State) (k : Nat) (g : Group) : Option Move :=
  if stopDrained s k g then some (.run (.groupStopPoint k) s) else drainMove s k g

def waitMove (s : State) (c : GCtx) (w : Waiting) : Option Move :=
  match w with
  | .bwait off gen _ =>
    let o := c.t.bar off
    moveIf (o.poison || o.gen != gen) (.run (.bwaitComplete c.k) s)
  | .feedget feed _ _ => match ringFor s c feed true with
    | some r => moveIf (consumerGone s r || (firstIn r.getQ c.k && (takeGet s r).isSome)) (.run (.feedBufferReady c.k) s)
    | none => none
  | .feedpop feed _ _ => match ringFor s c feed false with
    | some r => moveIf (firstIn r.popQ c.k && (takePop s r).isSome) (.run (.feedBufferReady c.k) s)
    | none => none
  | .bellw bell t _ => moveIf (ge32 ((s.coreD c.core).view c.asid bell) t) (.run (.bellwComplete c.k) s)

def runningMove (s : State) (c : GCtx) : Option Move :=
  let g := c.g
  let u := UnitId.group c.k
  if mustStop g.stopReq && atStopPoint g then stopMove s c.k g
  else match g.sframe with
    | some f => if g.flights.isEmpty then supMove s c f else drainMove s c.k g
    | none =>
      if held2 s u then none
      else if !c.gr.kcb.inRange g.ctl.pc then
        some (.out (.next (takeFault { s with iss := Issue.at u g.ctl.pc } u (trap cCode))))
      else match g.run with
        | none => none
        | some r =>
          if g.ctl.pc = r.end_ then
            (if reportPending g r.ask then drainMove s c.k g else some (.run (.runEnd c.k) s))
          else issueMove s c

def idleMove (s : State) (c : GCtx) : Option Move :=
  if mustStop c.g.stopReq then stopMove s c.k c.g
  else match c.g.race with
    | .marker :: _ => some (.run (.endMarkerTaken (.group c.k)) s)
    | .run r :: _ =>
      if teamParked s c.g.team || (r.first && !c.g.drained) then drainMove s c.k c.g else some (.run (.takeRun c.k) s)
    | [] => drainMove s c.k c.g

def stateMove (s : State) (c : GCtx) : Option Move :=
  let k := c.k
  match c.g.st with
  | .stopped r =>
    if !c.g.drained then drainMove s k c.g
    else if r = .debug then none
    else moveIf (c.g.stopReq == .none) (.run (.handlerEntry (.group k)) s)
  | .waiting w => firstMove [waitMove s c w, if mustStop c.g.stopReq then stopMove s k c.g else none]
  | .revoteHeld => match voteFrame c.g.ctl with
    | some f => match fetchSlot s (.group k) c.gr.kcb.paced f.x none with
      | .ok x => moveIf (!unitBusy s k x.instr) (.run (.revoteAccepted (.group k)) s)
      | _ => none
    | none => none
  | .retiring =>
    if retireReady c.g then moveIf (slotOver s c.g && !awaitsCopies s k c.g) (.run (.groupRetirement k) s) else drainMove s k c.g
  | .idle => idleMove s c
  | .running => runningMove s c
  | .parked | .escalated => none

def groupMove (s : State) (k : Nat) : Option Move :=
  match s.gctx k with
  | none => none
  | some c => firstMove [landMove s k c.g, relMove s k, ldbMove s k, bankMove s k c.g, remoteMove s k c.g, stateMove s c]

/-! ### The move of a team or grid sequencer (R98 to R105, R372, R373) -/

/-- Emits the run that ends at a slot, or waits for room (R98, R99). -/
def emitMove (s : State) (u : UnitId) (q : Seq) (a : W64) (ask : Ask) : Move :=
  if raceFull s u then .out (.next (s.updSeq u fun q => { q with st := .full }))
  else .out (.next ((emitRun s u ⟨q.ctl.pc, a, q.cur, ask, false⟩).updSeq u fun q => { q with ctl := { q.ctl with pc := a } }))

def isLaunch : Instr → Bool
  | .launchT _ | .launchD _ => true
  | _ => false

/-- The slot at which the walk stands, of the sequencer's own scope: a vote first where it needs one (R102). A feature that is
missing comes before the vote (R93, R94). -/
def ownSlot (s : State) (u : UnitId) (q : Seq) (a : W64) (w : W32) : Option Move :=
  let i := instrOf (decode w)
  if askOf i ≠ .none && q.voted.isNone && (featureTrap s u (featuresOf i)).isNone then
    some (.out (.next (s.updSeq u fun q => { q with st := .vote })))
  else if isLaunch i && !launchReady s u then none
  else some (.run i { fetchFill s u a with iss := Issue.at u a })

/-- A walk that reaches the end of its own run waits for the next; at the range's end it only stands (R98, R131). -/
def endOfWalk (s : State) (u : UnitId) (own : Option W64) (a : W64) : Option Move :=
  match u with
  | .team _ => moveIf (own == some a) (.out (.next (s.updSeq u fun q => { q with st := .upwait })))
  | _ => none

def walkMove (s : State) (u : UnitId) (k : Kcb) (q : Seq) : Option Move :=
  let own := if q.ctl.frame.isNone then q.run.map (·.end_) else none
  let pc := q.ctl.pc
  -- A slot that cannot be fetched ends the run before it; the fault is taken at the slot (R396).
  let at' (a : W64) (m : Move) : Option Move := some (if a = pc then m else emitMove s u q a .none)
  match scan s u k own pc with
  | .fault c a => at' a (fetchFault s u pc c a)
  | .poison a pa => at' a (fetchPoison s u pa pc)
  | .stage2 l i a => at' a (fetchStage2 s u l i a pc)
  | .stop a => if a = pc then endOfWalk s u own a else some (emitMove s u q a .none)
  | .slot a w =>
    let mine := levelOf w == lvlOfUnit u
    if a ≠ pc then some (emitMove s u q a (if mine then askOf (instrOf (decode w)) else .none))
    else if mine then ownSlot s u q a w
    else some (.run (instrOf (decode w)) { fetchFill s u a with iss := Issue.at u a })

/-- The held write of VERS, or its pin, now finds a version. -/
def versReady (s : State) (u : UnitId) (q : Seq) : Bool :=
  match q.heldWrite, u with
  | some (n, x), _ => (versWrite s u n x).isSome
  | none, .team t => (repin s t (match q.run with | some r => r.ver | none => 0)).isSome
  | none, _ => true

def upwaitMove (s : State) (t : Nat) (x : Team) : Option Move :=
  match x.race with
  | .marker :: _ => some (.run (.endMarkerTaken (.team t)) s)
  | .run r :: _ => moveIf (!unitParked s (.grid x.grid) && (!r.first || teamDrained s t)) (.run (.teamTakeRun t) s)
  | [] => none

def seqMove (s : State) (u : UnitId) (k : Kcb) (q : Seq) : Option Move :=
  match q.st with
  | .done | .launch => none
  | .park =>
    match q.route with
    | some (.handler _ _) => moveIf (q.stopReq == .none && membersDrained s u) (.run (.handlerEntry u) s)
    | _ => none
  | st =>
    if q.stopReq ≠ .none then some (.run (.sequencerPark u) s)
    else if held2 s u then none
    else match st with
      | .full => moveIf (!raceFull s u) (.run (.raceSpaceFreed u) s)
      | .vote => moveIf (match instrAt s u q.ctl.pc with
          | some i => (allReports s u (askOf i)).isSome
          | none => false) (.run (.voteComplete u) s)
      | .vers => moveIf (versReady s u q) (.run (.versionFreed u) s)
      | .upwait => (match u with
          | .team t => (match s.team? t with | some x => upwaitMove s t x | none => none)
          | _ => none)
      | _ => walkMove s u k q

def teamMove (s : State) (t : Nat) : Option Move :=
  match s.tctx t with
  | none => none
  | some c => seqMove s (.team t) c.gr.kcb c.t.seq

/-- A whole grid's sequencer walks once the grid is placed (R370, R376). -/
def gridMove (s : State) (g : Nat) : Option Move :=
  match s.grid? g with
  | none => none
  | some x => if x.kcb.whole && x.st = .running && x.gsNum.isSome then seqMove s (.grid g) x.kcb x.seq else none

/-! ### Engines and copy queues -/

/-- The instruction reached the engine in this clk: those of lower quadrants may still come before it (R237). -/
def justJoined (s : State) (o : EngineOp) : Bool := o.clk == s.clk

/-- A pre-emption takes an MMLOOP between two K-steps once the groups of the core have reached their stop points (R230), unless other
instructions behind it are to complete first (R246). -/
def engineMove (s : State) (core : Nat) : Option Move :=
  let c := s.coreD core
  match c.engine with
  | [] => none
  | o :: rest =>
    let stopped := c.preempt && groupsAtStop s core && o.isLoop && rest.all EngineOp.isLoop
    moveIf (!stopped && !justJoined s o && !teamAsleep s o.team) (.out (.next (engineStep s core)))

/-- A unit of a team that a copy reads or writes wakes (R223). -/
def copyAsleep (s : State) (q : Nat) (c : Copy) : Bool :=
  teamAsleep s c.team || match copyGrid s c with
    | some (gr, _) => (c.served s q gr).any fun t => teamAsleep s t.team
    | none => false

/-- A pre-emption has stopped the copies of a core. -/
def copiesHalted (s : State) (core : Nat) : Bool := (s.coreD core).preempt && groupsAtStop s core

/-- A queue reads the records of the copies that have joined it, and moves its head; a pre-emption stops the head once the groups of
the core have reached their stop points (R230). -/
def copyMove (s : State) (q : Nat) : Option Move :=
  let cs := s.copies q
  match cs.zipIdx.find? fun p => !p.1.readDone && p.1.st == .run && !recordBusy s q p.1 with
  | some (_, n) => some (.out (.next (readRecord s q n)))
  | none => match cs with
    | c :: _ =>
      moveIf (c.readDone && c.st == .run && !copiesHalted s (q / 16) && !copyBlocked s q && !copyAsleep s q c)
        (.run (.copyElementMoved q) s)
    | [] => none

def unitMove (s : State) : UnitId → Option Move
  | .group k => groupMove s k
  | .team t => teamMove s t
  | .grid g => gridMove s g
  | .engine c => engineMove s c
  | .copyq q => copyMove s q
  | .queue _ => none

/-! ### Homes: flushes, invalidations, moves of pages -/

/-- A core whose pending stores a flush awaited acknowledges it (R329). -/
def flushMove (s : State) (f : FlushWait) : Option Move := moveIf (flushReady s f) (.out (.next (endFlush s f)))

def invalMove (s : State) (v : Inval) : Option Move := moveIf (invalReady s v) (.out (.next (endInval s v)))

def migMove (s : State) (m : PageMove) : Option Move := (moveStep s m).map fun s => .out (.next s)

/-- A path changes once nothing is in flight on it (R449). -/
def routeMove (s : State) : Option Move :=
  (s.fab.reroute.find? fun p => s.pathIdle p.1).map fun p => .out (.next (setRoute s p.1 p.2))

/-- Accesses of ingest windows that waited (R347, R453). -/
def postedMove (s : State) : Option Move := (postedNext s).map fun s => .out (.next s)

/-- Some path to another device may be held. -/
def pathsHeld (s : State) : Bool :=
  (s.fab.links.any fun l => l.2.draining) || !s.fab.reroute.isEmpty || s.agenda.any fun i => (List.range 512).any fun d => toDevice d i

/-- What a reeve could not do because of a path is tried again once no path is held (R449). -/
def reeveRetry (s : State) : Option Move :=
  let ws := s.reeveWaits.filter fun w => !w.stage2
  moveIf (!ws.isEmpty && !pathsHeld s) (.out (.next (foldS { s with reeveWaits := s.reeveWaits.filter (·.stage2) } ws reeveAgain)))

/-- A link that is being drained goes out of service (R449). -/
def linkMove (s : State) (l : Nat) (x : Link) : Option Move := moveIf x.draining (.out (.next (drainLink s l)))

/-! ### The dispatcher, the weir and the reeves -/

/-- Bring-up goes on by itself where nothing fails (R427). -/
def bringUpMove (s : State) : Option Move :=
  moveIf (decide (s.fw.stage.toNat < 4) && s.fw.stage != 0) (.run (.bringUpStageComplete (.ok [])) s)

/-- Sleeping units of a placement: gated ones can begin to wake. -/
def canWake (s : State) (core : Nat) (us : List Nat) : Bool :=
  !sleeping s core us || us.any fun u => (s.coreD core).units.get? u == some .gated

def placeMove (s : State) (gk : Nat) (g : Grid) : Option Move :=
  if !mayPlace s gk g || gridSaved s gk then none
  else if g.kcb.whole then
    (if gsmaxOf s g.vf ≤ seqsHeld s g.vf || 8192 < g.x * g.y * g.z || (freeGridSeq s).isNone then none
    else match findColumns g.kcb (g.x * g.y * g.z) ((searchOrder s g.vf none).filterMap fun c =>
        (offerOf s c g.asid g.kcb).map fun u => (c, u)) with
      | some ps => moveIf (ps.all fun p => canWake s p.core (p.units g.kcb)) (.run (.wholeGridPlacement gk) s)
      | none => none)
  else match findCore s g.asid g.kcb (searchOrder s g.vf g.lastV) with
    | some (core, p) => moveIf (canWake s core (unitsOf g.kcb p)) (.run (.teamPlacement gk) s)
    | none => none

def launchMove (s : State) (vf : Nat) (v : Vf) : Option Move :=
  if v.launchq.any fun e => e.grid.isNone then some (.run (.launchRecordValidation vf) s)
  else moveIf (v.launchq.any (entryPlaced s) || (decide (v.launchq.length < launchEntries) && (waitingLaunch s vf).isSome))
    (.run (.launchQueueEntryFreed vf) s)

def saveMove (s : State) (core : Nat) (c : Core) : Option Move :=
  moveIf (c.preempt && coreStopped s core) (.out (execContextSave core s))

/-- The saved teams of a core go back once every core of the plan can take them; units that sleep begin to wake. -/
def restoreMove (s : State) (k : Nat) (x : Saved) : Option Move :=
  match (partCores s x.vf).find? fun c => (restorePlan s k c).isSome with
  | none => none
  | some c => match restorePlan s k c with
    | none => none
    | some ps => moveIf ((asleepIn s ps).all fun p => canWake s p.1 p.2) (.out (execRestore k c s))

/-- Gated ways and units that wake come back; how long a wake takes is open. -/
def wakeMove (s : State) (core : Nat) (c : Core) : Option Move :=
  match c.ways.find? fun p => p.2 == .waking with
  | some p => some (.out (execWayWakeEnd core p.1 s))
  | none => (c.units.find? fun p => p.2 == .waking).map fun p => .out (execPoolUnitWakeEnd core p.1 s)

def joinMove (s : State) (e : JoinEnt) : Option Move :=
  if !e.timedOut then moveIf (decide (e.opened + joinTimeoutClks ≤ s.clk)) (.out (execJoinEntryTimeout e.slice e.idx s))
  else moveIf (decide (e.opened + joinTimeoutClks + joinExpiryClks ≤ s.clk)) (.out (execJoinEntryExpiry e.slice e.idx s))

def collMove (s : State) (k : Nat) (c : Coll) : Option Move := moveIf (collDue s k c) (.out (execCollectiveCompletion k s))

/-! ### Queues (R410 to R420) -/

/-- The command that a code names; one that names none is answered with status 1 (R421). A reeve runs it as the handler of its
event. -/
def commandMove (s : State) (k code : Nat) : Move :=
  match code with
  | 0x01 => .out (execFeatures k s)
  | 0x02 => .out (execCreateCtx k s)
  | 0x03 => .out (execDestroyCtx k s)
  | 0x04 => .out (execCreateQueue k s)
  | 0x05 => .out (execDestroyQueue k s)
  | 0x06 => .out (execPoolAdd k s)
  | 0x07 => .out (execSetWindow k s)
  | 0x08 => .out (execResume k s)
  | 0x09 => .out (execRepair k s)
  | 0x0A => .out (execInvalFn k s)
  | 0x0B => .out (execSetWeir k s)
  | 0x0C => .out (execSetTithe k s)
  | 0x0D => .out (execSetSlots k s)
  | 0x0E => .out (execVfReset k s)
  | 0x0F => .out (execAttest k s)
  | 0x10 => .out (execMigrate k s)
  | 0x11 => .out (execAbort k s)
  | _ => .out (.next (unknownCmd s k))

def packetMove (s : State) (k : Nat) : Option Move :=
  match headOf s k with
  | .none => none
  | .defect _ | .stage2 _ _ _ => some (.run (.nopPacket k) s)
  | .packet _ _ bs =>
    let open_ := openGrids s k
    if pktBar bs && open_ then none
    else if pktType bs = 0x20 then none
    else if pktType bs = 0x04 && open_ then none
    else if pktBar bs then some (.run (.barPacketRelease k) s)
    else match pktType bs with
      | 0x01 => some (.run (.nopPacket k) s)
      | 0x02 => some (.run (.launchPacket k) s)
      | 0x03 => some (.run (.waitPacket k) s)
      | _ => some (.run (.signalPacket k) s)

def raised (s : State) (src : EvSrc) (vf : Nat) (q : Option Nat) : Bool := s.events.contains ⟨src, vf, q⟩

/-- A reeve polls every 100 µs: a clk in which such a period ends (R416). -/
def pollClk (s : State) : Bool := s.clk != 0 && s.now / ns100us != State.now { s with clk := s.clk - 1 } / ns100us

/-- A parked WAIT whose word is met raises its event; a reeve polls one without an entry (R416). -/
def watchMove (s : State) (k : Nat) (q : Queue) : Option Move :=
  if raised s .waitMet q.vf (some k) then none
  else if watchMet s k true then some (.out (.next (raiseMet s k)))
  else moveIf (watchMet s k false && pollClk s) (.out (execWaitPoll k s))

/-- A gain of a priority level and 2 ms of residence raise their events (R420). -/
def timeMove (s : State) (k : Nat) (q : Queue) : Option Move :=
  moveIf ((q.pending.isSome && decide (q.levels < levelsNow s q)) ||
    (q.slot.isSome && !q.resident && decide (q.mappedAt + ns2ms ≤ s.now))) (.out (.next (raiseTime s k q)))

/-- A command packet at the head raises its event (R410). -/
def askMove (s : State) (k : Nat) (q : Queue) : Option Move :=
  match headOf s k with
  | .packet _ _ bs =>
    moveIf (pktType bs == 0x20 && !(pktBar bs && openGrids s k) && !cmdRuns s k && !raised s .command q.vf (some k))
      (.out (.next (s.raise .command q.vf (some k))))
  | _ => none

def queueMove (s : State) (k : Nat) (q : Queue) : Option Move :=
  firstMove [
    moveIf (q.unmapReq && q.slot.isSome) (.out (execVictimUnmap k s)),
    packetMove s k,
    askMove s k q,
    watchMove s k q,
    timeMove s k q]

/-- A deadline that cores of another partition can meet raises its event (R390). -/
def deadlineMove (s : State) (vf : Nat) : Option Move :=
  moveIf (deadlineDue s vf && decide ((partCores s vf).length + coming s vf < floorOf s vf) && (donor s vf).isSome &&
    !raised s .deadline vf none) (.out (.next (s.raise .deadline vf none)))

/-! ### The reeves (R410) -/

/-- The first event that a reeve can take: each queue's events are handled one at a time, in their order, and a command that
is still being carried out holds its queue's lock. -/
def takeEvent (s : State) : List QEvent → List QEvent → Option QEvent
  | _, [] => none
  | seen, e :: es =>
    let locked := match e.queue with
      | some q => cmdRuns s q || seen.any fun x => x.queue == some q
      | none => false
    if locked then takeEvent s (seen ++ [e]) es else some e

/-- The grids of a queue that have ended, and whose handler has yet to run. -/
def endedGrids (s : State) (vf : Nat) (q : Option Nat) : List Nat :=
  Tab.keys (s.grids.filter fun p => p.2.st == .ending && p.2.vf == vf && some p.2.queue == q)

/-- The handler of a command packet's event. -/
def handleCommand (s : State) (k : Nat) : Move :=
  match headOf s k with
  | .packet _ _ bs => if pktType bs = 0x20 then commandMove s k (cmdCode bs) else .out (.next (mapQueues s))
  | _ => .out (.next (mapQueues s))

/-- The handler of an event. Grids that end while a queue's event is pending have merged into it: it stays for the next. -/
def handle (s : State) (e : QEvent) : Move :=
  let s' := { s with events := s.events.erase e }
  match e.src, e.queue with
  | .waitMet, some q => .run (.waitWake q) s'
  | .ageing, some q => .out (execAgeingTick q s')
  | .residence, some q => .out (execResidenceEvent q s')
  | .command, some q => handleCommand s' q
  | .deadline, _ => .out (execWeirDeadline e.vf s')
  | .gridEnd, q => (match endedGrids s e.vf q with
    | [] => .out (.next (mapQueues s'))
    | [g] => .run (.gridCompletion g) s'
    | g :: _ => .run (.gridCompletion g) s)
  | _, _ => .out (.next (mapQueues s'))

def reeveMove (s : State) : Option Move := (takeEvent s [] s.events).map (handle s)

/-! ### The order of units -/

/-- Groups, those that have gone longest without issuing first (R212). -/
def insertAge (x : Nat × Group) : List (Nat × Group) → List (Nat × Group)
  | [] => [x]
  | y :: ys => if x.2.age ≤ y.2.age then x :: y :: ys else y :: insertAge x ys

def groupOrder (s : State) : List Nat := (s.groups.foldr insertAge []).map (·.1)

/-- Everything else that can move, each at most once in a clk. -/
def otherMoves (s : State) : List (State → Option Move) :=
  (s.teams.keys.map fun t s => teamMove s t) ++ (s.grids.keys.map fun g s => gridMove s g) ++
  (s.cores.keys.map fun c s => engineMove s c) ++
  (s.flushes.map fun f s => flushMove s f) ++ (s.invals.map fun v s => invalMove s v) ++ (s.moves.map fun m s => migMove s m) ++
  (s.cores.flatMap fun p => p.2.copyq.keys.map fun q s => copyMove s (p.1 * 16 + q)) ++
  [bringUpMove, routeMove, postedMove, reeveRetry] ++ (s.fab.links.map fun p s => linkMove s p.1 p.2) ++
  (s.saved.map fun p s => restoreMove s p.1 p.2) ++ (s.grids.map fun p s => placeMove s p.1 p.2) ++
  (s.vfs.flatMap fun p => [fun s => launchMove s p.1 p.2, fun s => deadlineMove s p.1]) ++
  (s.cores.flatMap fun p => [fun s => saveMove s p.1 p.2, fun s => wakeMove s p.1 p.2]) ++
  (s.joins.map fun e s => joinMove s e) ++ (s.fab.colls.map fun p s => collMove s p.1 p.2) ++
  (s.queues.map fun p s => queueMove s p.1 p.2) ++ (s.events.map fun _ s => reeveMove s)

/-- The first that can move, from a position on; the turn passes it. -/
def nextOther (s : State) : Nat → List (State → Option Move) → Option Move
  | _, [] => none
  | n, f :: fs =>
    if n < s.turn then nextOther s (n + 1) fs
    else match f { s with turn := n + 1 } with
      | some m => some m
      | none => nextOther s (n + 1) fs

def groupsMove (s : State) : List Nat → Option Move
  | [] => none
  | k :: ks => match groupMove s k with
    | some m => some m
    | none => groupsMove s ks

/-! ### Inputs -/

/-- The events whose cause lies outside the units; nothing else is taken from the outside. -/
def fromOutside : Instr → Bool
  | .bringUpStageComplete _ | .moduleReset | .driverHandshake _ | .registerWrite _ _ | .loadObject _ _ _ | .unloadObject _ _
  | .functionLevelReset _ | .doorbell _ _ | .throttleSample _ | .hostCxlCacheRequest _ _ _ | .hostSnoopResponse _ _
  | .hostAccess _ _ | .peerWrite _ _ _ _ | .peerRead _ _ _ _ | .flitReceive _ _ _ | .replayRequest _ _ | .remoteAccess _ _ _
  | .unreachableDevice _ | .timestampExchange _ | .errorEvent _ _ | .l1WayGating _ _ | .poolUnitGating _ _ | .l1WayWake _ _
  | .poolUnitWake _ _ | .preemptionRequest _ _ | .escalatedFaultResume _ | .copyResume _ => true
  | _ => false

/-- An access of another device waits while the link that carries its answer is being drained (R449). -/
def inputWaits (s : State) : Instr → Bool
  | .remoteAccess dev _ a => s.linkDraining (dev % 512) (replyClass a)
  | _ => false

def inputMove (s : State) : Option Move :=
  match s.inputs with
  | [] => none
  | i :: rest =>
    if inputWaits s i then none
    else some (if fromOutside i then .run i { s with inputs := rest } else .out (.next { s with inputs := rest }))

/-! ### A clk passes -/

/-- Nanoseconds that a clk adds to FTS at the current clock (R454). -/
def nsOf (s : State) : Nat := State.now { s with clk := s.clk + 1 } - s.now

/-- Accounting of a partition (R389, R390). -/
def accountVf (s : State) (vf : Nat) (v : Vf) : Vf :=
  { v with
    used := v.used + ((partCores s vf).filter fun c => !(teamsOn s c).isEmpty).length
    shortSince := if isShort s vf then (if v.shortSince.isSome then v.shortSince else some s.now) else none }

/-- FTS never decreases: it stops at its last value (R454). -/
def ftsAfter (fts : W64) (ns : Nat) : W64 := BitVec.ofNat 64 (min (fts.toNat + ns) (2 ^ 64 - 1))

def tick (s : State) : State :=
  { s with
    turn := 0
    clk := s.clk + 1
    vfs := s.vfs.map fun p => (p.1, accountVf s p.1 p.2)
    fab := { s.fab with fts := if s.fw.stage = stageRunning then ftsAfter s.fab.fts (nsOf s) else s.fab.fts } }

/-! ### Messages on their way (R288, R332, R369, R449) -/

/-- The messages between a core and a home, and between devices, that others may overtake: requests, operations executed at
the home, packets of the mesh, rounds of bells, and acknowledgements of other devices. What they lead to happens in the order it is
posted. -/
def delayable : Instr → Bool
  | .readRequest _ _ | .ownershipRequest _ _ | .homeExecutedOperation _ | .roundBroadcast _ _ _ _ _ _ | .multicastPacket _ _ _ _ _
  | .remoteStoreAck _ _ => true
  | _ => false

/-- The router of a grain's home: its slice's, or beyond the last slice another device's. -/
def homeOf (s : State) (pa : Nat) : Nat := if isRemote pa then 1000 + remoteDev pa else servingSlice s.fw.slicesOut pa

/-- The path of a core's requests to a home; to another device all of this device's requests take one (R449). -/
def requestPath (s : State) (core pa : Nat) : Nat × Nat × Nat := (0, if isRemote pa then 1000 else core, homeOf s pa)

/-- The path of a home's replies, deliveries, invalidations and rounds to a core (R288, R332). -/
def replyPath (s : State) (pa core : Nat) : Nat × Nat × Nat := (1, homeOf s pa, core)

/-- The address of a bell's counter (R331). -/
def bellAddr (s : State) (asid bell : Nat) : Nat := (match s.ctxs.get? asid with | some c => c.bellBase | none => 0) + 4 * bell

def packetLine : PacketFor → Nat
  | .copy key => key.line
  | .dlv grain _ _ _ _ _ => grain

/-- The paths that a message takes: those of one path keep their order. -/
def pathsOf (s : State) : Instr → List (Nat × Nat × Nat)
  | .readRequest c g | .ownershipRequest c g | .recordMessage c g _ | .writeback c g _ _ | .cleanNotice c g => [requestPath s c g]
  | .homeExecutedOperation o => [requestPath s o.core o.grain]
  | .joinRequest c _ key => [requestPath s c key.line]
  | .fill c g _ _ | .invalidation c g | .recall c g _ | .deliveryArrival c g _ _ _ _ _ _ => [replyPath s g c]
  | .roundBroadcast c asid bell _ _ _ => [replyPath s (bellAddr s asid bell) c]
  | .multicastPacket _ leg what _ _ => leg.dests.map (replyPath s (packetLine what))
  | .multicastReply c key _ _ => [replyPath s key.line c]
  | .invalidationAck c g | .flushAcknowledge c g => [(2, c, homeOf s g)]
  | _ => []

def meet (ps qs : List (Nat × Nat × Nat)) : Bool := ps.any qs.contains

/-- The path of a message to another device is held (R449). -/
def messageHeld (s : State) : Instr → Bool
  | .readRequest _ g | .ownershipRequest _ g | .writeback _ g _ _ => s.pathDraining g 0
  | .homeExecutedOperation o => s.pathDraining o.grain 0
  | _ => false

/-- The message at a position may arrive: none before it shares a path with it, and its path is not held. -/
def mayArrive (s : State) (n : Nat) (i : Instr) : Bool :=
  (s.agenda.take n).all (fun j => !meet (pathsOf s i) (pathsOf s j)) && !messageHeld s i

def deliverAt (s : State) (n : Nat) : Option Move :=
  match s.agenda[n]? with
  | some i => moveIf (mayArrive s n i) (.run i { s with agenda := s.agenda.eraseIdx n })
  | none => none

/-- The first of the messages that keep one back, each sharing a path with the next. -/
def foremost (s : State) : Nat → Nat → Nat
  | 0, n => n
  | fuel + 1, n =>
    match s.agenda[n]? with
    | none => n
    | some i =>
      match (s.agenda.take n).findIdx? fun j => meet (pathsOf s i) (pathsOf s j) with
      | some m => foremost s fuel m
      | none => n

/-- The first message that may arrive. -/
def firstMessage (s : State) : Option Move :=
  (s.agenda.zipIdx.find? fun p => mayArrive s p.2 p.1).bind fun p => deliverAt s p.2

/-! ### The choice -/

/-- Any unit in turn, or a clk. -/
def freeMove (s : State) : Move :=
  match groupsMove s (groupOrder s) with
  | some m => m
  | none => match nextOther s 0 (otherMoves s) with
    | some m => m
    | none => .idle

/-- What the schedule names, where it can happen. -/
def pickMove (s : State) : Pick → Option Move
  | .unit u => unitMove s u
  | .msg n => deliverAt s n
  | .input => inputMove s
  | .other => some (freeMove s)
  | .l2Out pa => some (.out (.next (s.l2Out pa)))
  | .l3Out pa => some (.out (.next (s.l3Out pa)))

def scheduled (s : State) : Option Move :=
  match s.sched with
  | [] => none
  | p :: ps => pickMove { s with sched := ps } p

/-- What happens at once, whatever the schedule names: the first event that is no message on its way, after the messages that it
may not overtake. -/
def atOnce (s : State) : Option Move :=
  s.agenda.zipIdx.findSome? fun p => if delayable p.1 then none else deliverAt s (foremost s s.agenda.length p.2)

def choose (s : State) : Move :=
  match atOnce s with
  | some m => m
  | none => match scheduled s with
    | some m => m
    | none =>
      let s := { s with sched := s.sched.drop 1 }
      match firstMessage s with
      | some m => m
      | none => match inputMove s with
        | some m => m
        | none => freeMove s

end Sys2Proof.Machine
end

