-- ==== Sys2Proof/Machine/Step.lean ====
section
/-! DEFINITION. One step of the machine: the instruction or event that happens next executes, or a clk passes. With it
the placement of one instruction where a step fetches it (assumption 4). -/

namespace Sys2Proof.Machine

open Sys2Proof

/-- One step. -/
def step (s : State) : Out :=
  match choose s with
  | .run i s => exec i s
  | .out o => o
  | .idle => .next (tick s)

/-! ### One instruction placed for the next step (assumption 4) -/

/-- Where the placed slot lies: virtual address and physical address of its sheaf. -/
def bootVa : Nat := 0x10000
def bootPa : Nat := 0x50000

/-- The kernel of the placed slot: one sheaf of code, a whole grid of one team of one group of 16 lanes, which requires
every feature. -/
def bootKcb : Kcb :=
  { step := steppingA1, entry := 0x10004, cstart := 0x10004, cend := 0x10010, handG := 0, handT := 0, handD := 0
    reqfeat := BitVec.allOnes 128, width := 16, groups := 1, vregs := 256, stages := 1, whole := true, gcode := true
    nbar := 4, nfeed := 0, pw := 0x4081, spbytes := 4096, uacc := 1, txmax := 1, tymax := 1, tzmax := 1, vgrid := 0
    feeds := [], bells := 0 }

/-- The run that the placed unit executes. -/
def bootRun : Run := ⟨0x10004, 0x10014, 0, .none, false⟩

def bootUnit : Lvl → UnitId
  | .g => .group 0
  | .t => .team 0
  | .d => .grid 0

def bootGrid (now : Lvl) : Grid :=
  { num := 1, vf := 0, asid := 1, kcb := bootKcb, kcbAddr := 0, x := 1, y := 1, z := 1, args := [], sig := false
    sigaddr := 0, sigval := 0, host := true, queue := 0, st := .running, gsNum := some 0
    seq := { Seq.start (if now = .d then .fetch else .launch) 0x10004 [] with voted := some [] }
    nextTeam := 1, lastV := none, teams := [0], cores := [0], retired := 0, debugStop := false, dataErr := false, abortCode := none }

def bootTeam (now : Lvl) : Team :=
  { core := 0, slot := 0, grid := 0, member := 0, x := 0, y := 0, z := 0, stage := 0, vcore := 0
    seq := { Seq.start (if now = .t then .fetch else .upwait) 0x10004 [] with run := some bootRun, voted := some [] }
    race := [], groups := [0], activeG := [0], ham := [], bellto := 0x1000, sp := [], spBase := 0, spSize := 8192
    rfBase := 0, rfSize := 16384, acc := [], accBase := 0, barRec := [] }

def bootGroup (now : Lvl) (clk : Nat) : Group :=
  { Group.start 0 0 bootKcb clk 0 with
    st := if now = .g then .running else .idle
    run := if now = .g then some bootRun else none }

def bootCore : Core :=
  { Core.empty with vf := some 0, vcore := some 0, pw := bootKcb.pw, stonesVf := some 0, views := [(1, [])] }

/-- The page table of context 1: one level-3 leaf at virtual address 0x10000, readable, writable and executable. -/
def bootTables (m : Memory) : Memory :=
  memWrite (memWrite (memWrite m 0x20000 (leBytes 8 0x30001)) 0x30000 (leBytes 8 0x40001)) 0x40008 (leBytes 8 0x50573)

/-- The state in which the next step fetches and executes the word `w`: what bring-up, the handshake, a load and a
launch leave, in small. Only 32-bit slots exist. -/
def State.withFetchWord (s : State) (nbits w : Nat) : State :=
  let word : W32 := BitVec.ofNat 32 (w % 2 ^ nbits)
  let l := levelOf word
  { s with
    agenda := []
    inputs := []
    sched := [.unit (bootUnit l)]
    groups := s.groups.set 0 (bootGroup l s.clk)
    teams := s.teams.set 0 (bootTeam l)
    grids := s.grids.set 0 (bootGrid l)
    cores := s.cores.set 0 bootCore
    mem := memWrite (bootTables s.mem) bootPa (leBytes 4 0 ++ wordBytes word ++ leBytes 8 0)
    poison := []
    dirs := []
    walk := []
    walk2 := []
    flushes := []
    invals := []
    moves := []
    events := []
    ctxs := s.ctxs.set 1 ⟨0, 0x20000, 0, [], []⟩
    vfs := s.vfs.set 0 { Vf.start true with offered := BitVec.allOnes 128, accepted := BitVec.allOnes 128, ready := true }
    s2waits := []
    reeveWaits := []
    clk := s.clk + 100
    fab := { s.fab with timeFrame := none, posted := [], reroute := [] }
    fw := { s.fw with stage := stageRunning } }

end Sys2Proof.Machine
end

