-- ==== Sys2Proof/Safety.lean ====
section
/-! DEFINITION. The terms in which the statements speak of the machine: a sound memory, the issue of an instruction
with nothing against it (R93), what its issue leaves and what its completion writes (R65, R67). -/

namespace Sys2Proof.Machine

open Sys2Proof

/-- Device memory and the memory of other devices are in their canonical form. -/
def MemInv (s : State) : Prop := Memory.wf s.mem = true ∧ Memory.wf s.fab.remote = true

/-! ### Issue -/

/-- Group `k`, with its team and grid `x`, issues `i` and none of the checks of R93 finds a fault. -/
structure Issues (s : State) (k : Nat) (x : GCtx) (i : Instr) : Prop where
  unit : s.iss.unit = .group k
  ctx : s.gctx k = some x
  clear : issueTrap s x i = none

/-- The team or grid sequencer `u` executes `i` and none of the checks of R93 finds a fault. -/
structure SeqIssues (s : State) (u : UnitId) (q : Seq) (i : Instr) : Prop where
  unit : s.iss.unit = u
  seq : s.seq? u = some q
  clear : seqTrap s u i = none

/-- What the issue of an instruction by group `k` leaves: every part of the state but the group's own entry and the key
counter is as it was, and of the group only its pc, its sticky flags, its generators, its pace flags, pending bits and
flights, and the record of when it issued. `g` is the group before; `flags` are those that the instruction raises. -/
structure Issued (s t : State) (k : Nat) (g g' : Group) (pc : W64) (flags : Nat) : Prop where
  state : t = { s with groups := s.groups.set k g', nextKey := s.nextKey + 1 }
  frame : g' = { g with
    ctl := { g.ctl with pc := pc }
    fstat := g.fstat ||| BitVec.ofNat 64 (flags % 32)
    gen := g'.gen
    flags := g'.flags
    pendV := g'.pendV
    pendS := g'.pendS
    pendM := g'.pendM
    flights := g'.flights
    nextFlight := g'.nextFlight
    lastIssue := s.clk
    age := 2 * s.clk
    issue := some (issueRec s g) }

/-- The group once the instructions that it has issued since `g` complete (R65). -/
def Group.settled (g' g : Group) : Group := (g'.flights.drop g.flights.length).foldl Group.land g'

/-- No register of any kind changes. -/
structure RegsSame (g h : Group) : Prop where
  v : ∀ l p, h.vget l p = g.vget l p
  s : ∀ m, h.sregD m = g.sregD m
  m : ∀ m, h.mreg m = g.mreg m

/-! ### Control instructions at any scope (R97, R101) -/

/-- The unit that issues executes the control instruction `i` with no fault of R93: `rd` is what it reads (R101), `k` the
kernel and `c` its control state. -/
def CtlIssues (s : State) (i : Instr) (rd : SReg → W64) (k : Kcb) (c : Ctl) : Prop :=
  match s.iss.unit with
  | .group n => ∃ x, Issues s n x i ∧ rd = x.rd ∧ k = x.gr.kcb ∧ c = x.g.ctl
  | u => ∃ q, SeqIssues s u q i ∧ rd = seqRead s u i ∧ s.kcb? u = some k ∧ c = q.ctl

/-- The control instruction is done and leaves the control state `c`: no register changes, and nothing else but what an
issue leaves in a group; at a team or grid sequencer the slot's voted values are used up. -/
def CtlDone (s t : State) (c : Ctl) : Prop :=
  match s.iss.unit with
  | .group n => ∃ x g', s.gctx n = some x ∧ Issued s t n { x.g with ctl := c } g' c.pc 0 ∧ g'.gen = x.g.gen ∧
      RegsSame x.g (g'.settled x.g)
  | u => t = s.updSeq u fun q => { q with voted := none, ctl := c }

/-- What the issue of a memory instruction by group `k` leaves of the units: every other group, every team and every grid is
as it was, and of the group only its pc, its pace flags, pending bits and flights, what it waits for, and the record of when
it issued. No register, mask or flag of SR.FSTAT changes at issue. -/
structure MemIssued (s t : State) (k : Nat) (g g' : Group) : Prop where
  own : t.group? k = some g'
  others : ∀ j, j ≠ k → t.group? j = s.group? j
  units : t.teams = s.teams ∧ t.grids = s.grids
  frame : g' = { g with
    ctl := { g.ctl with pc := s.nextPc }
    flags := g'.flags
    pendV := g'.pendV
    pendS := g'.pendS
    pendM := g'.pendM
    flights := g'.flights
    nextFlight := g'.nextFlight
    lastIssue := s.clk
    age := 2 * s.clk
    issue := some (issueRec s g)
    hold := g'.hold
    rels := g'.rels
    acks := g'.acks
    unsettled := g'.unsettled
    banks := g'.banks
    remotes := g'.remotes }

/-! ### Results -/

/-- The scalar registers read as before but `n`, which holds `v`; lane and mask registers read as before. -/
structure ScalarIs (g h : Group) (n : Nat) (v : W64) : Prop where
  s : ∀ m, h.sregD m = if m = n then v else g.sregD m
  v : ∀ l p, h.vget l p = g.vget l p
  m : ∀ m, h.mreg m = g.mreg m

/-- The mask registers read as before but `n`, which holds `v`; lane and scalar registers read as before. -/
structure MaskIs (g h : Group) (n : Nat) (v : W64) : Prop where
  m : ∀ m, h.mreg m = if m = n then v else g.mreg m
  v : ∀ l p, h.vget l p = g.vget l p
  s : ∀ m, h.sregD m = g.sregD m

/-- R132: the `count` lane registers from `d` hold `val l j` in each active lane, zero in the other live lanes under MZ,
and what they held in every other lane; every other lane register, and every scalar and mask register, reads as before. -/
structure LanesAre (ix : IX) (h : Group) (d count : Nat) (val : Nat → Nat → W32) : Prop where
  v : ∀ l p, p < 256 → h.vget l p =
    if l < ix.x.g.w ∧ ix.x.g.vwb + d ≤ p ∧ p < ix.x.g.vwb + d + count then
      if ix.act.getLsbD l then val l (p - (ix.x.g.vwb + d))
      else if ix.mz ∧ ix.x.g.live.getLsbD l then 0
      else ix.x.g.vget l p
    else ix.x.g.vget l p
  s : ∀ m, h.sregD m = ix.x.g.sregD m
  m : ∀ m, h.mreg m = ix.x.g.mreg m

end Sys2Proof.Machine
end

