-- ==== Sys2Proof/Certificates/Slice0/Obligations.lean ====
section
/-! DEFINITION. The statements for the provers. Each cites the rules of spec/ that it states. A rule table (such as
`scalarRule`) gives, for each instruction of a shape, its operands and the result that its rule gives; the statement
after it says that executing the instruction gives a next state with that result and changes nothing else. -/

open Sys2Proof Sys2Proof.Machine

/-! ### Scalar integer (R136 to R139) -/

/-- The relations of R85 on I64 and N64. -/
def Sys2Proof.Machine.relI (k : Cmp) (x y : W64) : Bool :=
  match k with
  | .eq => x == y
  | .ne => x != y
  | .lt => x.slt y
  | .le => x.sle y
  | .gt => y.slt x
  | .ge => y.sle x

def Sys2Proof.Machine.relN (k : Cmp) (x y : W64) : Bool :=
  match k with
  | .eq => x == y
  | .ne => x != y
  | .lt => x.ult y
  | .le => x.ule y
  | .gt => y.ult x
  | .ge => y.ule x

/-- R137: destination, first source, second source and result of the class 1 instructions with two sources, and of SMOV,
whose only source counts as the second. -/
def Sys2Proof.Machine.twoRule : Instr → Option (SReg × SReg × SSrc × (W64 → W64 → W64))
  | .sadd a b c => some (a, b, c, fun x y => x + y)
  | .ssub a b c => some (a, b, c, fun x y => x - y)
  | .smul a b c => some (a, b, c, fun x y => x * y)
  | .smulhI64 a b c => some (a, b, c, fun x y => BitVec.ofInt 64 (x.toInt * y.toInt / 2 ^ 64))
  | .smulhN64 a b c => some (a, b, c, fun x y => BitVec.ofNat 64 (x.toNat * y.toNat / 2 ^ 64))
  | .sand a b c => some (a, b, c, fun x y => x &&& y)
  | .sor a b c => some (a, b, c, fun x y => x ||| y)
  | .sxor a b c => some (a, b, c, fun x y => x ^^^ y)
  | .sshl a b c => some (a, b, c, fun x y => x <<< y.toNat)
  | .sshr a b c => some (a, b, c, fun x y => x >>> y.toNat)
  | .ssar a b c => some (a, b, c, fun x y => x.sshiftRight y.toNat)
  | .sminI64 a b c => some (a, b, c, fun x y => if x.sle y then x else y)
  | .sminN64 a b c => some (a, b, c, fun x y => if x.ule y then x else y)
  | .smaxI64 a b c => some (a, b, c, fun x y => if y.sle x then x else y)
  | .smaxN64 a b c => some (a, b, c, fun x y => if y.ule x then x else y)
  | .scmpI64 k a b c => some (a, b, c, fun x y => if relI k x y then 1 else 0)
  | .scmpN64 k a b c => some (a, b, c, fun x y => if relN k x y then 1 else 0)
  | .smov a b => some (a, a, b, fun _ y => y)
  | _ => none

/-- R137: destination and result of the class 1 instructions whose sources are scalars alone. -/
def Sys2Proof.Machine.scalarRule : Instr → Option (SReg × ((SReg → W64) → W64))
  | .ssel a b c => some (a, fun rd => if rd a ≠ 0 then rd b else rd c)
  | .smovi a i => some (a, fun _ => i.signExtend 64)
  | .slui a i => some (a, fun rd => rd a * 2 ^ 14 + i.zeroExtend 64)
  | .saddi a b i => some (a, fun rd => rd b + i.signExtend 64)
  | i => match twoRule i with
    | some (a, b, .s c, f) => some (a, fun rd => f (rd b) (rd c))
    | _ => none

/-- R137: a class 1 instruction with scalar sources, executed by a group, writes its result to its s register and changes
no other register. -/
def Obligations.ScalarResult : Prop :=
  ∀ (s : State) (k : Nat) (x : GCtx) (i : Instr) (a : SReg) (f : (SReg → W64) → W64),
    scalarRule i = some (a, f) → Issues s k x i →
      ∃ t g', exec i s = .next t ∧ Issued s t k x.g g' s.nextPc 0 ∧ g'.gen = x.g.gen ∧
        ScalarIs x.g (g'.settled x.g) a.num (f x.rd)

/-- R139, R28: a class 1 instruction with a lane source v, executed by a group. Over an empty active set of m0 it uses
zero and takes no vote; where the active lanes agree it uses their value and records the vote; where two differ it takes a
NUF, and its only other effect is the vote's record. -/
def Obligations.LaneSourceResult : Prop :=
  ∀ (s : State) (k : Nat) (x : GCtx) (i : Instr) (a b : SReg) (c : SSrc) (f : W64 → W64 → W64) (val : Nat → W64),
    twoRule i = some (a, b, c, f) → Issues s k x i →
    ((∃ n, c = .v n ∧ val = fun l => (x.g.vreg l n.toNat).signExtend 64) ∨ (∃ n, c = .vp n ∧ val = fun l => x.g.vpair l n.toNat)) →
      match lanesOf x.g.w (x.g.active 0) with
      | [] => ∃ t g', exec i s = .next t ∧ Issued s t k x.g g' s.nextPc 0 ∧ g'.gen = x.g.gen ∧
          ScalarIs x.g (g'.settled x.g) a.num (f (x.rd b) 0)
      | l :: ls =>
        let r := voteRecord 1 ((l :: ls).map fun j => (j, val j))
        if ∀ j ∈ ls, val j = val l then
          ∃ t g', exec i s = .next t ∧ Issued s t k { x.g with ctl := x.g.ctl.setVote r } g' s.nextPc 0 ∧ g'.gen = x.g.gen ∧
            ScalarIs x.g (g'.settled x.g) a.num (f (x.rd b) (val l))
        else exec i s = .next (takeFault (s.updGroup k fun g => { g with ctl := g.ctl.setVote r }) (.group k) (trap cNuf))

/-- R136, R225, R105: a class 1 instruction executed by a team or grid sequencer writes its result at once into its current
version where no run names that version, otherwise into a copy of it in a free version, which becomes current; where no
version is free the sequencer holds the write in VERS. -/
def Obligations.SequencerWrite : Prop :=
  ∀ (s : State) (u : UnitId) (q : Seq) (i : Instr) (a : SReg) (f : (SReg → W64) → W64),
    scalarRule i = some (a, f) → SeqIssues s u q i →
      let new : Ver := { q.ver q.cur with regs := (q.ver q.cur).regs.put 0 a.num (f (seqRead s u i)) }
      let next (q : Seq) : Seq := { q with voted := none, ctl := { q.ctl with pc := s.nextPc } }
      if named s u q.cur = false then
        exec i s = .next (s.updSeq u fun q => { next q with vers := q.vers.set q.cur new })
      else match freeVersion s u q with
        | some v => exec i s = .next (s.updSeq u fun q => { next q with vers := q.vers.set v new, cur := v })
        | none => exec i s =
            .next (s.updSeq u fun q => { next q with st := .vers, heldWrite := some (a.num, f (seqRead s u i)) })

/-- R30, R103: the record of a vote over members in rising order, each with its value. The reference is the lowest member's
value; SR.VOTE has a bit for each member of the block from BASE whose value differs from it. -/
def Obligations.VoteRecord : Prop :=
  ∀ (scope r : Nat) (v : W64) (rest : List (Nat × W64)), scope < 16 → r < 2 ^ 16 →
    ((r, v) :: rest).Pairwise (fun p q => p.1 < q.1) → (∀ p ∈ rest, p.1 < 2 ^ 16) →
      let rec_ := voteRecord scope ((r, v) :: rest)
      let base := match rest.find? fun p => p.2 != v with | some p => p.1 / 64 * 64 | none => r / 64 * 64
      (rec_.uniform = true ↔ ∀ p ∈ rest, p.2 = v) ∧
      (∀ j, j < 64 → (rec_.vote.getLsbD j = true ↔ ∃ p ∈ rest, p.1 = base + j ∧ p.2 ≠ v)) ∧
      rec_.votex.getLsbD 63 = rec_.uniform ∧
      rec_.votex.extractLsb' 48 8 = (if base ≤ r then BitVec.ofNat 8 (r - base) else 0xFF) ∧
      rec_.votex.extractLsb' 32 16 = BitVec.ofNat 16 base ∧
      rec_.votex.extractLsb' 16 16 = BitVec.ofNat 16 r ∧
      rec_.votex.extractLsb' 0 4 = BitVec.ofNat 4 scope ∧
      rec_.votex.extractLsb' 4 12 = 0 ∧ rec_.votex.extractLsb' 56 7 = 0

/-! ### Vector integer (R133, R134, R141 to R145) -/

/-- Element `e` of `n` bits of a register, or of a pair (R42, R16). -/
def Sys2Proof.Machine.elemOf (n : Nat) (pair : W64) (e : Nat) : BitVec n := pair.extractLsb' (n * e) n

/-- Element `e` of the C operand in a lane: of a register or pair, or the low bits of a scalar for every element (R133). -/
def Sys2Proof.Machine.elemC (x : GCtx) (n l : Nat) (c : VSrc) (e : Nat) : BitVec n :=
  match c with
  | .v r => elemOf n (x.g.vpair l r.toNat) e
  | .s r => (x.rd r).extractLsb' 0 n

/-- The register that a fourth operand names: D4 of the prefix, else the destination (R82, R143). -/
def Sys2Proof.Machine.fourth (s : State) (a : VReg) : VReg := match s.iss.pfx with | some p => p.d4 | none => a

def Sys2Proof.Machine.clampI (n : Nat) (x : Int) : BitVec n :=
  BitVec.ofInt n (if x < -2 ^ (n - 1) then -2 ^ (n - 1) else if 2 ^ (n - 1) ≤ x then 2 ^ (n - 1) - 1 else x)

/-- R144: the mask of the bits [pos + len' − 1 : pos] that a control register names, with pos and len'. -/
def Sys2Proof.Machine.fieldMask (n : Nat) (ctl : W32) : BitVec n × Nat × Nat :=
  let pos := (ctl.extractLsb' 0 6).toNat
  let len := if pos < n then min (ctl.extractLsb' 8 7).toNat (n - pos) else 0
  (((BitVec.allOnes len).zeroExtend n) <<< pos, pos, len)

/-- The leading zeros of an element. -/
def Sys2Proof.Machine.leadingZeros {n : Nat} (x : BitVec n) : Nat :=
  ((List.range n).takeWhile fun j => !x.getLsbD (n - 1 - j)).length

/-- R142 to R145: width, destination, sources B and C, and the element result from x, y, the fourth operand's element d and
the control register of BFX and BFI. A unary instruction ignores y. -/
def Sys2Proof.Machine.vecRule : Instr →
    Option (Width × VReg × VReg × VSrc × ((n : Nat) → BitVec n → BitVec n → BitVec n → W32 → BitVec n))
  | .iadd w a b c => some (w, a, b, c, fun _ x y _ _ => x + y)
  | .isub w a b c => some (w, a, b, c, fun _ x y _ _ => x - y)
  | .iaddsI w a b c => some (w, a, b, c, fun n x y _ _ => clampI n (x.toInt + y.toInt))
  | .iaddsN w a b c => some (w, a, b, c, fun n x y _ _ => BitVec.ofNat n (min (x.toNat + y.toNat) (2 ^ n - 1)))
  | .isubsI w a b c => some (w, a, b, c, fun n x y _ _ => clampI n (x.toInt - y.toInt))
  | .isubsN w a b c => some (w, a, b, c, fun n x y _ _ => BitVec.ofNat n (x.toNat - y.toNat))
  | .imul w a b c => some (w, a, b, c, fun _ x y _ _ => x * y)
  | .imulhI w a b c => some (w, a, b, c, fun n x y _ _ => BitVec.ofInt n (x.toInt * y.toInt / 2 ^ n))
  | .imulhN w a b c => some (w, a, b, c, fun n x y _ _ => BitVec.ofNat n (x.toNat * y.toNat / 2 ^ n))
  | .imad w a b c => some (w, a, b, c, fun _ x y d _ => x * y + d)
  | .iminI w a b c => some (w, a, b, c, fun _ x y _ _ => if x.sle y then x else y)
  | .iminN w a b c => some (w, a, b, c, fun _ x y _ _ => if x.ule y then x else y)
  | .imaxI w a b c => some (w, a, b, c, fun _ x y _ _ => if y.sle x then x else y)
  | .imaxN w a b c => some (w, a, b, c, fun _ x y _ _ => if y.ule x then x else y)
  | .iabs w a b => some (w, a, b, .v b, fun _ x _ _ _ => if x.msb then -x else x)
  | .and w a b c => some (w, a, b, c, fun _ x y _ _ => x &&& y)
  | .or w a b c => some (w, a, b, c, fun _ x y _ _ => x ||| y)
  | .xor w a b c => some (w, a, b, c, fun _ x y _ _ => x ^^^ y)
  | .shl w a b c => some (w, a, b, c, fun _ x y _ _ => x <<< y.toNat)
  | .shr w a b c => some (w, a, b, c, fun _ x y _ _ => x >>> y.toNat)
  | .sar w a b c => some (w, a, b, c, fun _ x y _ _ => x.sshiftRight y.toNat)
  | .bfxN w a b c => some (w, a, b, .v c, fun n x _ _ ctl =>
      let (_, pos, len) := fieldMask n ctl
      (x.extractLsb' pos len).zeroExtend n)
  | .bfxI w a b c => some (w, a, b, .v c, fun n x _ _ ctl =>
      let (_, pos, len) := fieldMask n ctl
      (x.extractLsb' pos len).signExtend n)
  | .bfi w a b c => some (w, a, b, .v c, fun n x _ d ctl =>
      let (m, pos, _) := fieldMask n ctl
      (x &&& ~~~m) ||| ((d <<< pos) &&& m))
  | .popc w a b => some (w, a, b, .v b, fun n x _ _ _ => BitVec.ofNat n ((List.range n).countP fun j => x.getLsbD j))
  | .clz w a b => some (w, a, b, .v b, fun n x _ _ _ => BitVec.ofNat n (leadingZeros x))
  | .mov w a b => some (w, a, b, .v b, fun _ x _ _ _ => x)
  | .movVs w a c => some (w, a, a, .s c, fun _ _ y _ _ => y)
  | .movi a i => some (.w32, a, a, .v a, fun n _ _ _ _ => i.signExtend n)
  | _ => none

/-- R132 to R134, R142 to R145: a class 2 instruction but SEL, executed by a group, gives each element of each active
lane's destination its result, and changes no other register but the idle lanes' destinations under MZ. -/
def Obligations.VectorResult : Prop :=
  ∀ (s : State) (k : Nat) (x : GCtx) (i : Instr) (w : Width) (a b : VReg) (c : VSrc)
    (f : (n : Nat) → BitVec n → BitVec n → BitVec n → W32 → BitVec n),
    vecRule i = some (w, a, b, c, f) → i.wf = true → Issues s k x i →
      let n := widthBits w
      ∃ t g' val, exec i s = .next t ∧ Issued s t k x.g g' s.nextPc 0 ∧ g'.gen = x.g.gen ∧
        LanesAre (IX.of s x) (g'.settled x.g) a.toNat w.regs val ∧
        ∀ l ∈ (IX.of s x).lanes, ∀ e < widthCount w,
          elemOf n (val l 1 ++ val l 0) e =
            f n (elemOf n (x.g.vpair l b.toNat) e) (elemC x n l c e) (elemOf n (x.g.vpair l (fourth s a).toNat) e)
              (match c with | .v r => x.g.vreg l r.toNat | .s _ => 0)

/-- R145: SEL writes every live lane whatever MZ says, B where the governing mask's bit is 1 and C where it is 0; no other
register changes. -/
def Obligations.SelectResult : Prop :=
  ∀ (s : State) (k : Nat) (x : GCtx) (w : Width) (a b : VReg) (c : VSrc),
    (Instr.sel w a b c).wf = true → Issues s k x (.sel w a b c) →
      let ix := IX.of s x
      let n := widthBits w
      ∃ t g' val, exec (.sel w a b c) s = .next t ∧ Issued s t k x.g g' s.nextPc 0 ∧ g'.gen = x.g.gen ∧
        LanesAre { ix with act := x.g.live, mz := false } (g'.settled x.g) a.toNat w.regs val ∧
        ∀ l ∈ ix.live, elemOf n (val l 1 ++ val l 0) 0 =
          if ix.act.getLsbD l then elemOf n (x.g.vpair l b.toNat) 0 else elemC x n l c 0

/-! ### Masks, compares and votes (R147 to R151, R175, R176) -/

/-- R132: a mask result: a bit for each active lane, the other bits as before, or zero under MZ. -/
def Sys2Proof.Machine.BitsAre (ix : IX) (old new : W64) (p : Nat → Prop) : Prop :=
  ∀ l, new.getLsbD l = true ↔
    if ix.act.getLsbD l then l < ix.x.g.w ∧ p l else ix.mz = false ∧ old.getLsbD l = true

/-- Whether one exact value is below another; the zeros are equal (R148). -/
def Sys2Proof.Machine.fpRel (k : FCond) (x y : FVal) : Bool :=
  let un := x.isNan || y.isNan
  match k with
  | .eq => !un && !(x.lt y) && !(y.lt x)
  | .ne => un || x.lt y || y.lt x
  | .lt => !un && x.lt y
  | .le => !un && !(y.lt x)
  | .gt => !un && y.lt x
  | .ge => !un && !(x.lt y)
  | .un => un

/-- R148: INV of a compare: a signalling NaN, or any NaN for the ordered relations. -/
def Sys2Proof.Machine.fpRelInv (k : FCond) (x y : FVal) : Bool :=
  match k with
  | .lt | .le | .gt | .ge => x.isNan || y.isNan
  | _ => x.isSnan || y.isSnan

/-- R147 to R149, R176: destination and, for each lane, the bit and whether INV is raised. -/
def Sys2Proof.Machine.maskRule (s : State) (x : GCtx) : Instr → Option (MReg × (Nat → Bool) × (Nat → Bool))
  | .icmp k n w a b c =>
    let e := match s.iss.pfx with | some p => p.xmod.toNat % 4 | none => 0
    let m := widthBits w
    some (a, fun l =>
      let p := elemOf m (x.g.vpair l b.toNat) e
      let q := elemC x m l c e
      match k, n with
      | .eq, _ => p == q
      | .ne, _ => p != q
      | .lt, false => p.slt q
      | .le, false => p.sle q
      | .gt, false => q.slt p
      | .ge, false => q.sle p
      | .lt, true => p.ult q
      | .le, true => p.ule q
      | .gt, true => q.ult p
      | .ge, true => q.ule p, fun _ => false)
  | .fcmp k a b c =>
    let p (l : Nat) : FVal := Fmt.fp32.read (x.g.vreg l b.toNat).toNat
    let q (l : Nat) : FVal := Fmt.fp32.read (elemC x 32 l c 0).toNat
    some (a, fun l => fpRel k (p l) (q l), fun l => fpRelInv k (p l) (q l))
  | .ftst a b c => some (a, fun l =>
      let y := x.g.vreg l b.toNat
      c.getLsbD (Fmt.fp32.classOf y.toNat) && (if y.msb then c.getLsbD 6 else c.getLsbD 5), fun _ => false)
  | .ballot a b => some (a, fun l => x.g.vreg l b.toNat != 0, fun _ => false)
  | _ => none

/-- R132, R147 to R149, R176: a compare, FTST or BALLOT, executed by a group, writes its mask register, raises INV where its
rule says, and changes no other register. -/
def Obligations.MaskResult : Prop :=
  ∀ (s : State) (k : Nat) (x : GCtx) (i : Instr) (a : MReg) (p inv : Nat → Bool),
    maskRule s x i = some (a, p, inv) → i.wf = true → Issues s k x i →
      ∃ t g' m, exec i s = .next t ∧
        Issued s t k x.g g' s.nextPc (if (IX.of s x).lanes.any inv then fINV else 0) ∧ g'.gen = x.g.gen ∧
        MaskIs x.g (g'.settled x.g) a.toNat m ∧ BitsAre (IX.of s x) (x.g.mreg a.toNat) m (fun l => p l = true)

/-- R150, R151: mask logic on the W bits of the masks, and the scalar that MSET moves in. -/
def Sys2Proof.Machine.maskMove (x : GCtx) : Instr → Option (MReg × W64)
  | .mand a b c => some (a, x.g.mreg b.toNat &&& x.g.mreg c.toNat)
  | .mor a b c => some (a, x.g.mreg b.toNat ||| x.g.mreg c.toNat)
  | .mxor a b c => some (a, x.g.mreg b.toNat ^^^ x.g.mreg c.toNat)
  | .mandn a b c => some (a, x.g.mreg b.toNat &&& ~~~(x.g.mreg c.toNat))
  | .mnot a b => some (a, ~~~(x.g.mreg b.toNat))
  | .mmov a b => some (a, x.g.mreg b.toNat)
  | .mset a b => some (a, x.rd b)
  | _ => none

/-- R151, R175: the scalar that a mask, or the active lanes' values, give. -/
def Sys2Proof.Machine.countRule (s : State) (x : GCtx) : Instr → Option (SIdx × Nat)
  | .mget a b => some (a, (x.g.mreg b.toNat).toNat)
  | .mpop a b => some (a, (List.range x.g.w).countP fun l => (x.g.mreg b.toNat).getLsbD l && x.g.live.getLsbD l)
  | .mfirst a b => some (a,
      ((List.range x.g.w).find? fun l => (x.g.mreg b.toNat).getLsbD l && x.g.live.getLsbD l).getD x.g.w)
  | .voteAny a b => some (a, if (IX.of s x).lanes.any fun l => x.g.vreg l b.toNat != 0 then 1 else 0)
  | .voteAll a b => some (a,
      if (IX.of s x).lanes ≠ [] ∧ ∀ l ∈ (IX.of s x).lanes, x.g.vreg l b.toNat ≠ 0 then 1 else 0)
  | .voteEq a b => some (a,
      if (IX.of s x).lanes ≠ [] ∧ ∀ l ∈ (IX.of s x).lanes, ∀ j ∈ (IX.of s x).lanes, x.g.vreg l b.toNat = x.g.vreg j b.toNat
      then 1 else 0)
  | _ => none

/-- R150, R151: mask logic and MSET write bits W − 1 to 0 of their mask register, zero the bits above, and change no other
register. R151, R175: MGET, MPOP, MFIRST and VOTE write their s register and change no other register. -/
def Obligations.MaskMoves : Prop :=
  (∀ (s : State) (k : Nat) (x : GCtx) (i : Instr) (a : MReg) (v : W64),
      maskMove x i = some (a, v) → Issues s k x i →
        ∃ t g' m, exec i s = .next t ∧ Issued s t k x.g g' s.nextPc 0 ∧ g'.gen = x.g.gen ∧
          MaskIs x.g (g'.settled x.g) a.toNat m ∧
          ∀ l, m.getLsbD l = (decide (l < x.g.w) && v.getLsbD l)) ∧
  (∀ (s : State) (k : Nat) (x : GCtx) (i : Instr) (a : SIdx) (v : Nat),
      countRule s x i = some (a, v) → Issues s k x i →
        ∃ t g', exec i s = .next t ∧ Issued s t k x.g g' s.nextPc 0 ∧ g'.gen = x.g.gen ∧
          ScalarIs x.g (g'.settled x.g) a.toNat (BitVec.ofNat 64 v))

/-! ### Floating point, conversion and cross-lane (R154 to R177) -/

/-- Elements 0 and 1 of 16 bits, each with its flags. -/
def Sys2Proof.Machine.halves (f : Nat → Nat × Nat) : Nat × Nat :=
  ((f 0).1 % 2 ^ 16 + 2 ^ 16 * ((f 1).1 % 2 ^ 16), (f 0).2 ||| (f 1).2)

/-- The FP16 or BF16 value of element `e`. -/
def Sys2Proof.Machine.halfOf (f : PFmt) (x e : Nat) : FVal := (pfmtFmt f).read (x / 2 ^ (16 * e) % 2 ^ 16)

/-- R156 to R161, R168: destination, sources, how many values of the lane's generator it may draw, and the 32-bit result with
its flags from the mode, the values drawn, x, y and the fourth operand. -/
def Sys2Proof.Machine.fpRule : Instr →
    Option (VReg × VReg × VSrc × Nat × (Rnd → (Nat → Nat) → Nat → Nat → Nat → Nat × Nat))
  | .fadd a b c => some (a, b, c, 1, fun r u x y _ => addFmt .fp32 r (u 0) (Fmt.fp32.read x) (Fmt.fp32.read y))
  | .fsub a b c => some (a, b, c, 1, fun r u x y _ => addFmt .fp32 r (u 0) (Fmt.fp32.read x) (Fmt.fp32.read y).neg)
  | .fmul a b c => some (a, b, c, 1, fun r u x y _ => mulFmt .fp32 r (u 0) (Fmt.fp32.read x) (Fmt.fp32.read y))
  | .ffma a b c => some (a, b, c, 1, fun r u x y d =>
      fmaFmt .fp32 r (u 0) (Fmt.fp32.read x) (Fmt.fp32.read y) (Fmt.fp32.read d))
  | .fmin a b c => some (a, b, c, 0, fun _ _ x y _ => minmaxFmt .fp32 false x y)
  | .fmax a b c => some (a, b, c, 0, fun _ _ x y _ => minmaxFmt .fp32 true x y)
  | .frnd a b => some (a, b, .v b, 1, fun r u x _ _ => frndFmt r (u 0) x)
  | .fclass a b => some (a, b, .v b, 0, fun _ _ x _ _ => (2 ^ fclassBit x, 0))
  | .hadd2 f a b c => some (a, b, .v c, 2, fun r u x y _ => halves fun e => addFmt (pfmtFmt f) r (u e) (halfOf f x e) (halfOf f y e))
  | .hmul2 f a b c => some (a, b, .v c, 2, fun r u x y _ => halves fun e => mulFmt (pfmtFmt f) r (u e) (halfOf f x e) (halfOf f y e))
  | .hfma2 f a b c => some (a, b, .v c, 2, fun r u x y d =>
      halves fun e => fmaFmt (pfmtFmt f) r (u e) (halfOf f x e) (halfOf f y e) (halfOf f d e))
  | .hmax2 f a b c => some (a, b, .v c, 0, fun _ _ x y _ =>
      halves fun e => minmaxFmt (pfmtFmt f) true (x / 2 ^ (16 * e) % 2 ^ 16) (y / 2 ^ (16 * e) % 2 ^ 16))
  | .exp2 a b => some (a, b, .v b, 0, fun _ _ x _ _ => sfExp2 x)
  | .log2 a b => some (a, b, .v b, 0, fun _ _ x _ _ => sfLog2 x)
  | .rcp a b => some (a, b, .v b, 0, fun _ _ x _ _ => sfRcp x)
  | .rsq a b => some (a, b, .v b, 0, fun _ _ x _ _ => sfRsq x)
  | .sqrt a b => some (a, b, .v b, 0, fun _ _ x _ _ => sfSqrt x)
  | .sint a b => some (a, b, .v b, 0, fun _ _ x _ _ => sfSint x)
  | .cost a b => some (a, b, .v b, 0, fun _ _ x _ _ => sfCost x)
  | .tanh a b => some (a, b, .v b, 0, fun _ _ x _ _ => sfTanh x)
  | _ => none

/-- R47: each active lane's generator has stepped `n` times where the mode is SR, and every other lane's is as it was. -/
def Sys2Proof.Machine.Drew (ix : IX) (g' : Group) (mode : Rnd) (n : Nat) : Prop :=
  ∀ l, g'.genAfter l 0 = if mode = .sr ∧ l ∈ ix.lanes then ix.x.g.genAfter l n else ix.x.g.genAfter l 0

/-- R132, R47, R154 to R161, R168: a class 4 instruction or a special function, executed by a group, gives each active lane
its result, raises the flags of the active lanes and steps their generators under SR, and changes no other register but the
idle lanes' destinations under MZ. That FRND draws once from each active lane's generator under SR is the model's choice
(assumption 80): R159 names none of the rounding functions of R47. -/
def Obligations.FloatResult : Prop :=
  ∀ (s : State) (k : Nat) (x : GCtx) (i : Instr) (a b : VReg) (c : VSrc) (n : Nat)
    (f : Rnd → (Nat → Nat) → Nat → Nat → Nat → Nat × Nat),
    fpRule i = some (a, b, c, n, f) → Issues s k x i →
      let ix := IX.of s x
      let mode := rndOf ix.rnd .rne
      let res (l : Nat) : Nat × Nat :=
        f mode (fun j => (x.g.genAfter l (j + 1)).toNat) (x.g.vreg l b.toNat).toNat (elemC x 32 l c 0).toNat
          (x.g.vreg l (fourth s a).toNat).toNat
      ∃ t g', exec i s = .next t ∧ Issued s t k x.g g' s.nextPc (ix.lanes.foldl (fun m l => m ||| (res l).2) 0) ∧
        Drew ix g' mode n ∧ LanesAre ix (g'.settled x.g) a.toNat 1 fun l _ => BitVec.ofNat 32 (res l).1

/-- R163, R164: CVT converts the selected source element of each active lane. A result of 32 or 64 bits fills its registers;
one of 8 or 16 bits replaces the selected element alone, and MZ zeroes that element alone in an idle lane. -/
def Obligations.ConvertResult : Prop :=
  ∀ (s : State) (k : Nat) (x : GCtx) (dst src : CvtTy) (a b : VReg), Issues s k x (.cvt dst src a b) →
    (Instr.cvt dst src a b).wf = true →
      let ix := IX.of s x
      let mode := rndOf ix.rnd (if (cvtFmt dst).isSome then .rne else .rtz)
      let n := cvtBits dst
      let from_ (l : Nat) : Nat := (elemOf (cvtBits src) (x.g.vpair l b.toNat) (ix.xmod / 2 % 4)).toNat
      let res (l : Nat) : Nat × Nat := cvtVal dst src mode (x.g.genAfter l 1).toNat (ix.xmod % 2 == 0) (from_ l)
      ∃ t g', exec (.cvt dst src a b) s = .next t ∧
        Issued s t k x.g g' s.nextPc (ix.lanes.foldl (fun m l => m ||| (res l).2) 0) ∧ Drew ix g' mode 1 ∧
        (if 32 ≤ n then LanesAre ix (g'.settled x.g) a.toNat dst.regs fun l j => BitVec.ofNat 32 ((res l).1 / 2 ^ (32 * j))
        else ∃ val, LanesAre { ix with act := x.g.live, mz := false } (g'.settled x.g) a.toNat 1 val ∧
          ∀ l ∈ ix.live, ∀ e < 32 / n, elemOf n ((0 : W32) ++ val l 0) e =
            if e = ix.xmod / 8 % 4 then
              if ix.act.getLsbD l then BitVec.ofNat n (res l).1
              else if ix.mz then 0 else elemOf n ((0 : W32) ++ x.g.vreg l a.toNat) e
            else elemOf n ((0 : W32) ++ x.g.vreg l a.toNat) e)

/-- R166: the target element of PACK for a source register. -/
def Sys2Proof.Machine.packRule (k : PackFmt) (r : Rnd) (u : Nat) (sat : Bool) (x : W32) : Nat × Nat :=
  match k with
  | .fp16 => let v := Fmt.fp32.read x.toNat; ((roundFmt .fp16 r u v).1, (roundFmt .fp16 r u v).2 ||| snanFlag [v])
  | .bf16 => let v := Fmt.fp32.read x.toNat; ((roundFmt .bf16 r u v).1, (roundFmt .bf16 r u v).2 ||| snanFlag [v])
  | .e4m3 => let v := Fmt.fp32.read x.toNat; ((cvt8 .e4m3 r u sat v).1, (cvt8 .e4m3 r u sat v).2 ||| snanFlag [v])
  | .e5m2 => let v := Fmt.fp32.read x.toNat; ((cvt8 .e5m2 r u sat v).1, (cvt8 .e5m2 r u sat v).2 ||| snanFlag [v])
  | .i16 => ((clampI 16 x.toInt).toNat, 0)
  | .n16 => (min x.toNat (2 ^ 16 - 1), 0)
  | .i8 => ((clampI 8 x.toInt).toNat, 0)
  | .n8 => (min x.toNat (2 ^ 8 - 1), 0)

/-- R166, R47: PACK puts each source register's converted element into the destination; the float formats draw for element 0
first under SR. -/
def Obligations.PackResult : Prop :=
  ∀ (s : State) (k : Nat) (x : GCtx) (f : PackFmt) (a b : VReg), Issues s k x (.pack f a b) →
    let ix := IX.of s x
    let mode := rndOf ix.rnd .rne
    let res (l j : Nat) : Nat × Nat :=
      packRule f mode (x.g.genAfter l (j + 1)).toNat (ix.xmod % 2 == 0) (x.g.vreg l (b.toNat + j))
    ∃ t g' val, exec (.pack f a b) s = .next t ∧
      Issued s t k x.g g' s.nextPc
        (ix.lanes.foldl (fun m l => m ||| (List.range f.count).foldl (fun n j => n ||| (res l j).2) 0) 0) ∧
      Drew ix g' mode (if packIsFloat f then f.count else 0) ∧ LanesAre ix (g'.settled x.g) a.toNat 1 val ∧
      ∀ l ∈ ix.lanes, ∀ j < f.count, elemOf (packBits f) ((0 : W32) ++ val l 0) j = BitVec.ofNat (packBits f) (res l j).1

/-- R167: the widened value of an element. -/
def Sys2Proof.Machine.unpkRule (k : PackFmt) (x : Nat) : Nat × Nat :=
  let wide (f : Fmt) : Nat × Nat :=
    ((roundFmt .fp32 .rne 0 (f.read x)).1, (roundFmt .fp32 .rne 0 (f.read x)).2 ||| snanFlag [f.read x])
  match k with
  | .fp16 => wide .fp16
  | .bf16 => wide .bf16
  | .e4m3 => wide .e4m3
  | .e5m2 => wide .e5m2
  | .i16 => (((BitVec.ofNat 16 x).signExtend 32).toNat, 0)
  | .i8 => (((BitVec.ofNat 8 x).signExtend 32).toNat, 0)
  | .n16 | .n8 => (x, 0)

/-- R167: UNPK widens element j of the source into register A + j. -/
def Obligations.UnpackResult : Prop :=
  ∀ (s : State) (k : Nat) (x : GCtx) (f : PackFmt) (a b : VReg), Issues s k x (.unpk f a b) →
    let ix := IX.of s x
    let res (l j : Nat) : Nat × Nat := unpkRule f (elemOf (packBits f) (x.g.vpair l b.toNat) j).toNat
    ∃ t g', exec (.unpk f a b) s = .next t ∧
      Issued s t k x.g g' s.nextPc
        (ix.lanes.foldl (fun m l => m ||| (List.range f.count).foldl (fun n j => n ||| (res l j).2) 0) 0) ∧
      g'.gen = x.g.gen ∧
      LanesAre ix (g'.settled x.g) a.toNat f.count fun l j => BitVec.ofNat 32 (if j < f.count then (res l j).1 else 0)

/-- R171 to R173, R177: the result that an active lane of a cross-lane instruction receives, with the flags that all raise. -/
def Sys2Proof.Machine.crossRule (s : State) (x : GCtx) : Instr → Option (VReg × (Nat → W32) × Nat)
  | .shfl m a b c => some (a, fun l =>
      let y : Int := (elemC x 32 l c 0).toNat
      let j : Int := match m with
        | .idx => y
        | .up => l - y
        | .down => l + y
        | .xor => (l ^^^ y.toNat : Nat)
      x.g.vreg (if 0 ≤ j ∧ j < x.g.w ∧ x.g.live.getLsbD j.toNat then j.toNat else l) b.toNat, 0)
  | .bcast a b n => some (a, fun _ => if x.g.live.getLsbD n.toNat then x.g.vreg n.toNat b.toNat else 0, 0)
  | .red r a b =>
    let acc := (IX.of s x).lanes.foldl
      (fun (q : Nat × Nat) l => let z := ropStep r q.1 (x.g.vreg l b.toNat).toNat; (z.1, q.2 ||| z.2)) (ropIdentity r, 0)
    some (a, fun _ => BitVec.ofNat 32 acc.1, acc.2)
  | .scan r a b =>
    let upTo (ls : List Nat) : Nat × Nat := ls.foldl
      (fun (q : Nat × Nat) l => let z := ropStep r q.1 (x.g.vreg l b.toNat).toNat; (z.1, q.2 ||| z.2)) (ropIdentity r, 0)
    let excl := (match s.iss.pfx with | some p => p.xmod.getLsbD 0 | none => false)
    some (a, fun l => BitVec.ofNat 32 (upTo ((IX.of s x).lanes.filter fun j => j < l || (j == l && !excl))).1,
      (upTo (IX.of s x).lanes).2)
  | _ => none

/-- R177: one lane's weight and flags: a NaN and a negative count as +0 with INV, −0 as +0. -/
def Sys2Proof.Machine.weightOf (x : Nat) : Nat × Nat :=
  if (Fmt.fp32.read x).isNan || (Fmt.fp32.read x).lt (.fin false 0 0) then (0, fINV)
  else (if x % 2 ^ 31 = 0 then 0 else x, 0)

/-- R132, R171 to R174: SHFL, BCAST, RED and SCAN give each active lane its result and change no other register but the idle
lanes' destinations under MZ. R177: SAMPLE gives every active lane the lane index that its weights and u choose. -/
def Obligations.CrossLaneResult : Prop :=
  (∀ (s : State) (k : Nat) (x : GCtx) (i : Instr) (a : VReg) (val : Nat → W32) (fl : Nat),
      crossRule s x i = some (a, val, fl) → Issues s k x i →
        ∃ t g', exec i s = .next t ∧ Issued s t k x.g g' s.nextPc fl ∧ g'.gen = x.g.gen ∧
          LanesAre (IX.of s x) (g'.settled x.g) a.toNat 1 fun l _ => val l) ∧
  (∀ (s : State) (k : Nat) (x : GCtx) (a b : VReg) (c : SReg), Issues s k x (.sample a b c) →
      let ix := IX.of s x
      let w (l : Nat) : Nat × Nat := if l < x.g.w ∧ ix.act.getLsbD l then weightOf (x.g.vreg l b.toNat).toNat else (0, 0)
      let sumTo (n : Nat) : Nat × Nat := (List.range n).foldl
        (fun (q : Nat × Nat) l => let z := addFmt .fp32 .rne 0 (Fmt.fp32.read q.1) (Fmt.fp32.read (w l).1); (z.1, q.2 ||| z.2)) (0, 0)
      let p (l : Nat) : Nat := (sumTo (l + 1)).1
      let total := (sumTo x.g.w).1
      let t := (roundFmt .fp32 .rne 0 (fprod (.fin false ((x.rd c).toNat % 2 ^ 32) (-32)) (Fmt.fp32.read total)).1)
      let lanes := List.range x.g.w
      let res : Nat :=
        if total = 0 then 0xFFFFFFFF
        else if total = 0x7F800000 then (lanes.find? fun l => p l == 0x7F800000).getD 0xFFFFFFFF
        else match lanes.find? fun l => (Fmt.fp32.read t.1).lt (Fmt.fp32.read (p l)) with
          | some l => l
          | none => (lanes.reverse.find? fun l => (w l).1 != 0).getD 0xFFFFFFFF
      let fl := lanes.foldl (fun m l => m ||| (w l).2)
        ((sumTo x.g.w).2 ||| (if total = 0 ∨ total = 0x7F800000 then 0 else t.2))
      ∃ st g', exec (.sample a b c) s = .next st ∧ Issued s st k x.g g' s.nextPc fl ∧ g'.gen = x.g.gen ∧
        LanesAre ix (g'.settled x.g) a.toNat 1 fun _ _ => BitVec.ofNat 32 res)

/-! ### Control (R61, R62, R101, R107 to R122, R131) -/

/-- R131: a slot address in the kernel's code range. -/
def Sys2Proof.Machine.codeOk (k : Kcb) (t : W64) : Prop := k.cstart.toNat ≤ t.toNat ∧ t.toNat < k.cend.toNat

/-- R61: the slot that a sheaf displacement names. -/
def Sys2Proof.Machine.sheafTarget (slot : W64) (d : BitVec 14) : W64 := (slot &&& ~~~(15 : W64)) + d.signExtend 64 * 16 + 4

/-- R107, R109, R122: where a branch, a jump or a NOP goes: the next slot, or a target, with whether the target is
register-held (R62). -/
def Sys2Proof.Machine.jumpRule (slot : W64) (rd : SReg → W64) : Instr → Option (Option (W64 × Bool))
  | .nop _ => some none
  | .brZ _ a d => some (if rd a = 0 then some (sheafTarget slot d, false) else none)
  | .brNz _ a d => some (if rd a ≠ 0 then some (sheafTarget slot d, false) else none)
  | .jmp _ d => some (some (sheafTarget slot d, false))
  | .jmpr _ b => some (some (rd b, true))
  | _ => none

/-- A target that the transfer may take: in the code range, and slot 1 when it is register-held. -/
def Sys2Proof.Machine.targetOk (k : Kcb) (t : W64 × Bool) : Prop := codeOk k t.1 ∧ (t.2 = true → t.1 &&& 15 = 4)

/-- R62, R107, R109, R122, R131: BR.Z, BR.NZ, JMP, JMPR and NOP at any scope. They change the pc alone; a taken target that
may not be taken is a code-range fault, with the pc at the instruction. -/
def Obligations.BranchesAndJumps : Prop :=
  ∀ (s : State) (i : Instr) (rd : SReg → W64) (k : Kcb) (c : Ctl) (dest : Option (W64 × Bool)),
    CtlIssues s i rd k c → jumpRule s.iss.slot rd i = some dest →
      match dest with
      | none => ∃ t, exec i s = .next t ∧ CtlDone s t { c with pc := s.nextPc }
      | some a =>
        (targetOk k a → ∃ t, exec i s = .next t ∧ CtlDone s t { c with pc := a.1 }) ∧
        (¬ targetOk k a → exec i s = .next (takeFault s s.iss.unit (trap cCode)))

/-- R104, R108: BRM.G tests the group's own mask under SR.LIVE; with no live lane it is not taken. At T and D it acts on the
combined reports of the vote, kept as [any, all, nonempty]. -/
def Obligations.BranchOnMask : Prop :=
  ∀ (s : State) (sc : Lvl) (all not : Bool) (m : MReg) (d : BitVec 14) (rd : SReg → W64) (k : Kcb) (c : Ctl),
    CtlIssues s (.brm sc all not m d) rd k c →
    ∀ taken : Bool,
      (match s.iss.unit with
        | .group n => ∃ x, s.gctx n = some x ∧
            taken = (x.g.live != 0 && (not != if all then x.g.mreg m.toNat &&& x.g.live == x.g.live
              else x.g.mreg m.toNat &&& x.g.live != 0))
        | u => ∃ q any_ all_ ne, s.seq? u = some q ∧ q.voted = some [any_, all_, ne] ∧
            taken = (ne == 1 && (not != if all then all_ == 1 else any_ == 1))) →
      if taken then
        (codeOk k (sheafTarget s.iss.slot d) →
          ∃ t, exec (.brm sc all not m d) s = .next t ∧ CtlDone s t { c with pc := sheafTarget s.iss.slot d }) ∧
        (¬ codeOk k (sheafTarget s.iss.slot d) →
          exec (.brm sc all not m d) s = .next (takeFault s s.iss.unit (trap cCode)))
      else ∃ t, exec (.brm sc all not m d) s = .next t ∧ CtlDone s t { c with pc := s.nextPc }

/-- R22: the entries of a call stack, the latest first: the hardware part, then the spill area. -/
def Sys2Proof.Machine.callStack (c : Ctl) : List W64 := c.calls ++ c.spill

/-- R22, R62, R110, R112: CALL and CALLR at any scope push the next slot's address with the loop depth and go to the target.
A target that may not be taken is a code-range fault; with 40 entries in use a call-stack overflow. R22, R23, R111, R112: RET at any scope. With no entry in use it takes a call-stack underflow; a return address outside
the code range is a code-range fault; otherwise it pops the entry, discards the loop entries above its depth and goes to
its address. -/
def Obligations.CallsAndReturns : Prop :=
  (∀ (s : State) (i : Instr) (rd : SReg → W64) (k : Kcb) (c : Ctl) (t : W64 × Bool), CtlIssues s i rd k c →
      ((∃ sc d, i = .call sc d ∧ t = (sheafTarget s.iss.slot d, false)) ∨ (∃ sc b, i = .callr sc b ∧ t = (rd b, true))) →
        (¬ targetOk k t → exec i s = .next (takeFault s s.iss.unit (trap cCode))) ∧
        (targetOk k t → (callStack c).length = 40 → exec i s = .next (takeFault s s.iss.unit (trap cOverflow))) ∧
        (targetOk k t → (callStack c).length ≠ 40 → ∃ st c' e, exec i s = .next st ∧ CtlDone s st c' ∧
          c' = { c with pc := t.1, calls := c'.calls, spill := c'.spill } ∧ callStack c' = e :: callStack c ∧
          c'.calls.length ≤ 8 ∧ e.extractLsb' 0 55 = s.nextPc.extractLsb' 0 55 ∧
          e.extractLsb' 55 3 = BitVec.ofNat 3 c.loops.length ∧ e.extractLsb' 58 6 = 0)) ∧
  (∀ (s : State) (sc : Lvl) (rd : SReg → W64) (k : Kcb) (c : Ctl), CtlIssues s (.ret sc) rd k c →
      match callStack c with
      | [] => exec (.ret sc) s = .next (takeFault s s.iss.unit (trap cUnderflow))
      | e :: es =>
        let r := (e.extractLsb' 0 55).zeroExtend 64
        (¬ codeOk k r → exec (.ret sc) s = .next (takeFault s s.iss.unit (trap cCode))) ∧
        (codeOk k r → ∃ st c', exec (.ret sc) s = .next st ∧ CtlDone s st c' ∧ callStack c' = es ∧
          c' = { c with
            pc := r
            calls := c'.calls
            spill := c'.spill
            loops := c.loops.drop (c.loops.length - (e.extractLsb' 55 3).toNat) }))

/-- The loop depth that the current call frame records, 0 outside any call (R114). -/
def Sys2Proof.Machine.recordedDepth (c : Ctl) : Nat :=
  match callStack c with
  | [] => 0
  | e :: _ => (e.extractLsb' 55 3).toNat

/-- R113 at any scope: LOOP with a count of zero goes to its exit; otherwise it pushes the count and the next slot, or takes
a loop-depth fault at depth 6. R114, R115 at any scope: NEXT and BRK act on the top loop entry above the depth of the current call frame, and take a
loop-depth fault where there is none. -/
def Obligations.Loops : Prop :=
  (∀ (s : State) (sc : Lvl) (a : SReg) (d : BitVec 14) (rd : SReg → W64) (k : Kcb) (c : Ctl),
      CtlIssues s (.loop sc a d) rd k c →
        (rd a = 0 → codeOk k (sheafTarget s.iss.slot d) →
          ∃ t, exec (.loop sc a d) s = .next t ∧ CtlDone s t { c with pc := sheafTarget s.iss.slot d }) ∧
        (rd a = 0 → ¬ codeOk k (sheafTarget s.iss.slot d) →
          exec (.loop sc a d) s = .next (takeFault s s.iss.unit (trap cCode))) ∧
        (rd a ≠ 0 → c.loops.length = 6 → exec (.loop sc a d) s = .next (takeFault s s.iss.unit (trap cLoop))) ∧
        (rd a ≠ 0 → c.loops.length ≠ 6 → ∃ t, exec (.loop sc a d) s = .next t ∧
          CtlDone s t { c with pc := s.nextPc, loops := ⟨rd a, s.nextPc⟩ :: c.loops })) ∧
  (∀ (s : State) (sc : Lvl) (rd : SReg → W64) (k : Kcb) (c : Ctl),
      (CtlIssues s (.next sc) rd k c →
        (c.loops.length ≤ recordedDepth c → exec (.next sc) s = .next (takeFault s s.iss.unit (trap cLoop))) ∧
        ∀ l ls, recordedDepth c < c.loops.length → c.loops = l :: ls →
          ∃ t, exec (.next sc) s = .next t ∧
            CtlDone s t (if l.remaining - 1 ≠ 0
              then { c with pc := l.body, loops := ⟨l.remaining - 1, l.body⟩ :: ls }
              else { c with pc := s.nextPc, loops := ls })) ∧
      ∀ d, CtlIssues s (.brk sc d) rd k c →
        (c.loops.length ≤ recordedDepth c → exec (.brk sc d) s = .next (takeFault s s.iss.unit (trap cLoop))) ∧
        ∀ l ls, recordedDepth c < c.loops.length → c.loops = l :: ls →
          (codeOk k (sheafTarget s.iss.slot d) → ∃ t, exec (.brk sc d) s = .next t ∧
            CtlDone s t { c with pc := sheafTarget s.iss.slot d, loops := ls }) ∧
          (¬ codeOk k (sheafTarget s.iss.slot d) → exec (.brk sc d) s = .next (takeFault s s.iss.unit (trap cCode))))

/-- R116, R119, R120: SKIP.L goes to its target when no live lane has its mask bit, and faults at scope L where the target
is out of range; WIN sets the window base, or takes a register-bound fault when it is not below the allocation; YIELD.G
changes no architectural state but that a pre-emption request takes effect and the group becomes the last of its quadrant. R120: YIELD.T moves the team sequencer on, and asks it to park where a pre-emption request is pending. -/
def Obligations.SkipWindowYield : Prop :=
  (∀ (s : State) (k : Nat) (x : GCtx),
      (∀ m d, Issues s k x (.skip m d) →
        let go := x.g.mreg m.toNat &&& x.g.live = 0
        let t := sheafTarget s.iss.slot d
        (go → ¬ codeOk x.gr.kcb t → exec (.skip m d) s = .next (takeFault s (.group k) { trap cCode with lane := true })) ∧
        ((go → codeOk x.gr.kcb t) → ∃ st g', exec (.skip m d) s = .next st ∧
          Issued s st k x.g g' (if go then t else s.nextPc) 0 ∧ g'.gen = x.g.gen ∧ RegsSame x.g (g'.settled x.g))) ∧
      (∀ i : BitVec 3, Issues s k x (.win i) →
        (x.g.alloc ≤ 32 * i.toNat → exec (.win i) s = .next (takeFault s (.group k) (trap cBound (32 * i.toNat)))) ∧
        (32 * i.toNat < x.g.alloc → ∃ st g', exec (.win i) s = .next st ∧
          Issued s st k { x.g with vwb := 32 * i.toNat } g' s.nextPc 0 ∧ g'.gen = x.g.gen ∧ RegsSame x.g (g'.settled x.g))) ∧
      (Issues s k x (.yield .g) → ∃ st g', exec (.yield .g) s = .next (st.updGroup k fun g => { g with age := 2 * s.clk + 1 }) ∧
        Issued s st k { x.g with stopReq := if x.g.stopReq = .preempt then .yielded else x.g.stopReq } g' s.nextPc 0 ∧
        g'.gen = x.g.gen ∧ RegsSame x.g (g'.settled x.g))) ∧
  (∀ (s : State) (u : UnitId) (q : Seq), SeqIssues s u q (.yield .t) →
      let t := s.updSeq u fun q => { q with voted := none, ctl := { q.ctl with pc := s.nextPc } }
      exec (.yield .t) s = .next (if q.stopReq = .preempt then { t with agenda := t.agenda ++ [.sequencerPark u] } else t))

/-- R21: the group has begun to retire: it holds no stacks, no frame and no run, its registers are as they were, its team no
longer counts it as an active member, and every other group, the cores and memory are as they were. -/
def Sys2Proof.Machine.Retiring (s t : State) (k : Nat) (x : GCtx) (live : W64) : Prop :=
  (∃ g', t.group? k = some g' ∧ g'.st = .retiring ∧ g'.run = none ∧ g'.live = live ∧ callStack g'.ctl = [] ∧
    g'.ctl.loops = [] ∧ g'.ctl.frame = none ∧ RegsSame x.g (g'.settled x.g)) ∧
  (∀ tm, t.team? x.g.team = some tm → k ∉ tm.activeG) ∧ (∀ j, j ≠ k → t.group? j = s.group? j) ∧
  t.cores = s.cores ∧ t.mem = s.mem

/-- R20, R21, R117: EXIT.L clears the governing mask's lanes from SR.LIVE; when none is left the group begins to retire. -/
def Obligations.Exit : Prop :=
  ∀ (s : State) (k : Nat) (x : GCtx), Issues s k x .exit →
    let live := x.g.live &&& ~~~(x.g.mreg (IX.of s x).mask)
    (live ≠ 0 → ∃ t g', exec .exit s = .next t ∧ Issued s t k { x.g with live := live } g' s.nextPc 0 ∧
      g'.gen = x.g.gen ∧ RegsSame x.g (g'.settled x.g)) ∧
    (live = 0 → ∃ t, exec .exit s = .next t ∧ Retiring s t k x 0)

/-- R118: END.G begins the group's retirement; END.T puts an end marker into the race of every group that has not retired and
leaves the team sequencer DONE; END.D puts one into every team's race and leaves the grid sequencer DONE. -/
def Obligations.Ends : Prop :=
  ∀ s : State,
    (∀ k x, Issues s k x (.end_ .g) → ∃ t, exec (.end_ .g) s = .next t ∧ Retiring s t k x x.g.live) ∧
    (∀ n q tm, SeqIssues s (.team n) q (.end_ .t) → s.team? n = some tm → tm.activeG.Nodup →
      ∃ t q', exec (.end_ .t) s = .next t ∧ t.seq? (.team n) = some q' ∧ q'.st = .done ∧
        (∀ k g, s.group? k = some g → t.group? k = some (if k ∈ tm.activeG then { g with race := g.race ++ [.marker] } else g)) ∧
        t.cores = s.cores ∧ t.mem = s.mem) ∧
    (∀ n q gr, SeqIssues s (.grid n) q (.end_ .d) → s.grid? n = some gr → gr.teams.Nodup →
      ∃ t q', exec (.end_ .d) s = .next t ∧ t.seq? (.grid n) = some q' ∧ q'.st = .done ∧
        (∀ j tm, s.team? j = some tm →
          t.team? j = some (if j ∈ gr.teams then { tm with race := tm.race ++ [.marker] } else tm)) ∧
        t.groups = s.groups ∧ t.cores = s.cores ∧ t.mem = s.mem)

/-! ### Faults and handlers (R32, R92, R121, R123 to R128) -/

/-- R121, R92: TRAP takes the TRAP fault with its code; a slot that holds no instruction takes an illegal instruction 0x01, or
an illegal encoding 0x02 for a prefix out of place or not accepted and for a pace word defect. A word with a field that its
entry does not allow is an illegal instruction, unless it lacks a feature (R94); one of SKIP.L or EXIT.L faults at scope L
(R32). -/
def Obligations.TrapAndIllegal : Prop :=
  ∀ s : State,
    (∀ sc c rd k ctl, CtlIssues s (.trap sc c) rd k ctl →
      exec (.trap sc c) s = .next (takeFault s s.iss.unit (trap cTrap c.toNat))) ∧
    (∀ why ctl, s.ctl? s.iss.unit = some ctl →
      ∃ f, exec (.illegalInstruction why) s = .next (takeFault s s.iss.unit f) ∧ f.addr = 0 ∧ f.detail = 0 ∧
        (s.iss.defect = true → f.cause = cEncoding) ∧
        (s.iss.defect = false →
          (why = .prefixPlace → f.cause = cEncoding) ∧
          (why = .zeroWord ∨ why = .opReserved ∨ why = .unassigned → f.cause = cIllegal) ∧
          (∀ w, why = .fields w → raw w = none → f.cause = cIllegal) ∧
          (∀ w i p, why = .fields w → raw w = some i → s.iss.pfx = some p → pfxOk i p = false → f.cause = cEncoding) ∧
          (∀ w i, why = .fields w → raw w = some i → (∀ p, s.iss.pfx = some p → pfxOk i p = true) →
            featureTrap s s.iss.unit (featuresAt i s.iss.pfx) = none → f.cause = cIllegal)) ∧
        (∀ w i, why = .fields w → raw w = some i → f.lane = laneScope i))

/-- R123, R129: where a fault of a unit goes: NUF, FDT and TRAP to the handler that the kernel names for the scope, when it
names one and no frame of the scope, nor the supervisor's, is occupied; else to the debug agent. -/
def Sys2Proof.Machine.goesTo (k : Kcb) (l : Lvl) (c : Ctl) (sup : Bool) (cause : Nat) : Route :=
  let entry := match l with | .g => k.handG | .t => k.handT | .d => k.handD
  if c.frame = none ∧ sup = false ∧ entry ≠ 0 then
    (if cause = 0x05 then .handler .nuf entry else if cause = 0x06 then .handler .fdt entry
      else if cause = 0x11 then .handler .trap entry else .debug)
  else .debug

/-- R125: a fault at T or D scope: the sequencer parks at the slot with its record, and every group beneath it that has not
retired holds the same record; R124: what it meant to vote is dropped, its stacks stay. -/
def Obligations.SequencerFault : Prop :=
  ∀ (s : State) (u : UnitId) (q : Seq) (k : Kcb) (f : Trap), s.seq? u = some q → s.kcb? u = some k →
    f.lane = false → f.cause < 256 → f.detail < 2 ^ 32 →
      let scope : Nat := match u with | .team _ => 2 | _ => 3
      let word : W64 := BitVec.ofNat 32 f.detail ++ (BitVec.ofNat 20 0 ++ (BitVec.ofNat 4 scope ++ BitVec.ofNat 8 f.cause))
      (∃ q', (takeFault s u f).seq? u = some q' ∧ q'.st = .park ∧ q'.route = some (goesTo k (lvlOfUnit u) q.ctl false f.cause) ∧
        q'.ctl = { q.ctl with pc := s.iss.fpc, fpc := s.iss.fpc, faddr := f.addr, fcause := word } ∧ q'.voted = none) ∧
      ∀ n ∈ s.groupsBelow u, ∀ g, s.group? n = some g → ∃ g', (takeFault s u f).group? n = some g' ∧
        g'.ctl = { g.ctl with fpc := s.iss.fpc, faddr := f.addr, fcause := word } ∧ RegsSame g g' ∧ g'.st = g.st

/-- R32, R123, R125, R129: a fault taken by a group: it stops at the faulting slot, or at its prefix, with the fault record in
its registers (at scope L when it is the lanes' and the group is in no supervisor handler, R203) and its route chosen; its registers, masks, SR.LIVE, SR.VWB, stacks and votes are as they were. R124: a NUF or FDT of a group asks its team sequencer to park at its next slot boundary. -/
def Obligations.GroupFault : Prop :=
  (∀ (s : State) (k : Nat) (x : GCtx) (f : Trap), s.gctx k = some x → f.cause < 256 → f.detail < 2 ^ 32 →
      ∃ g', (takeFault s (.group k) f).group? k = some g' ∧
        g'.st = .stopped (goesTo x.gr.kcb .g x.g.ctl x.g.sframe.isSome f.cause) ∧
        g' = { x.g with st := g'.st, stopReq := g'.stopReq, ctl := { x.g.ctl with
          pc := s.iss.fpc, fpc := s.iss.fpc, faddr := f.addr, fcause := g'.ctl.fcause } } ∧
        g'.ctl.fcause.extractLsb' 0 8 = BitVec.ofNat 8 f.cause ∧
        g'.ctl.fcause.extractLsb' 8 4 = (if f.lane ∧ x.g.sframe = none then 0 else 1) ∧ g'.ctl.fcause.extractLsb' 12 20 = 0 ∧
        g'.ctl.fcause.extractLsb' 32 32 = BitVec.ofNat 32 f.detail) ∧
  (∀ (s : State) (k : Nat) (x : GCtx) (f : Trap) (kind : FrameKind) (entry : W64), s.gctx k = some x →
      (f.cause = 0x05 ∨ f.cause = 0x06) → routeOf s (.group k) f.cause = .handler kind entry → x.t.seq.stopReq = .none →
        (∃ q, (takeFault s (.group k) f).seq? (.team x.g.team) = some q ∧ q.stopReq = .tree) ∧
        .sequencerPark (.team x.g.team) ∈ (takeFault s (.group k) f).agenda)

/-- R126: the slot at which a handler's return resumes: past X for TRAP, else X. -/
def Sys2Proof.Machine.resumeAt (kind : FrameKind) (x : W64) : W64 := if kind = .trap then nextSlot x else x

/-- R126: HANDLER_ENTRY of a unit that a fault stopped, once it, or every group below it at a run's end, has drained: the frame saves the
resume address and both depths, the pc is the handler's entry, and the unit runs; the teams that a grid's sequencer had parked
with it return (R105). R200: a group bound for the supervisor
handler saves its registers and takes the faulting lanes into m0. -/
def Obligations.HandlerEntry : Prop :=
  ∀ (s : State) (kind : FrameKind) (entry : W64),
    (∀ k g, s.group? k = some g → g.flights = [] → g.flags = [] → g.st = .stopped (.handler kind entry) →
      exec (.handlerEntry (.group k)) s = .next (s.updGroup k fun g => { g with
        st := .running
        ctl := { g.ctl with
          pc := entry
          frame := some ⟨resumeAt kind g.ctl.pc, (callStack g.ctl).length, g.ctl.loops.length, kind, g.ctl.pc, true⟩ } })) ∧
    (∀ u q, s.seq? u = some q → q.route = some (.handler kind entry) →
      (∀ k ∈ s.groupsBelow u, ∀ g, s.group? k = some g → g.flights = [] ∧ g.flags = [] ∧ g.run = none) →
      let t := s.updSeq u fun q => { q with
        st := .fetch
        route := none
        ctl := { q.ctl with
          pc := entry
          frame := some ⟨resumeAt kind q.ctl.pc, (callStack q.ctl).length, q.ctl.loops.length, kind, q.ctl.pc, true⟩ } }
      exec (.handlerEntry u) s = .next (match u with | .grid g => unparkFollowers t g | _ => t)) ∧
    (∀ k g f, s.group? k = some g → g.flights = [] → g.flags = [] → g.st = .stopped .supervisor → g.sframe = some f →
      ∃ t g', exec (.handlerEntry (.group k)) s = .next t ∧ t.group? k = some g' ∧ g'.st = .running ∧
        (∀ n, g'.mreg n = if n = 0 then f.m0 else g.mreg n) ∧ g'.v = g.v ∧ g'.sreg = g.sreg ∧
        g'.sframe = some { f with m0 := g.mreg 0, sreg := g.sreg, v := g.v, m := g.m, vote := g.ctl.vote, votex := g.ctl.votex })

/-- R126, R128: the stacks of a unit after a handler frame closes: no entry pushed since it opened. -/
def Sys2Proof.Machine.Unwound (c c' : Ctl) (f : Frame) : Prop :=
  callStack c' = (callStack c).drop ((callStack c).length - f.callDepth) ∧
  c'.loops = c.loops.drop (c.loops.length - f.loopDepth) ∧ c'.frame = none ∧
  c' = { c with pc := c'.pc, calls := c'.calls, spill := c'.spill, loops := c'.loops, frame := none }

/-- R128: FRET discards what was pushed since entry, closes the frame and goes to the saved resume address; outside a frame it
is an illegal instruction. In the supervisor handler FRET.G restores every register, m0 and the pc, and leaves an occupied
kernel frame as it stands. -/
def Obligations.FaultReturn : Prop :=
  ∀ s : State,
    (∀ k x f, Issues s k x (.fret .g) → x.g.sframe = none → x.g.ctl.frame = some f →
      ∃ t g', exec (.fret .g) s = .next t ∧ t.group? k = some g' ∧ Unwound x.g.ctl g'.ctl f ∧ g'.ctl.pc = f.resume ∧
        g'.st = x.g.st ∧ RegsSame x.g (g'.settled x.g) ∧ t.cores = s.cores ∧ t.mem = s.mem) ∧
    (∀ u q f, SeqIssues s u q (.fret (lvlOfUnit u)) → q.ctl.frame = some f →
      ∃ t q', exec (.fret (lvlOfUnit u)) s = .next t ∧ t.seq? u = some q' ∧ Unwound q.ctl q'.ctl f ∧ q'.ctl.pc = f.resume ∧
        t.groups = s.groups ∧ t.cores = s.cores ∧ t.mem = s.mem) ∧
    (∀ k x, Issues s k x (.fret .g) → x.g.sframe = none → x.g.ctl.frame = none →
      exec (.fret .g) s = .next (takeFault s (.group k) (trap cIllegal))) ∧
    (∀ u q, SeqIssues s u q (.fret (lvlOfUnit u)) → q.ctl.frame = none →
      exec (.fret (lvlOfUnit u)) s = .next (takeFault s u (trap cIllegal))) ∧
    (∀ k x f, Issues s k x (.fret .g) → x.g.sframe = some f →
      ∃ t g', exec (.fret .g) s = .next t ∧ t.group? k = some g' ∧ g'.st = .running ∧ g'.sframe = none ∧ g'.v = f.v ∧
        g'.sreg = f.sreg ∧ (∀ n, g'.mreg n = if n = 0 then f.m0 else f.m.getD n 0) ∧ g'.ctl.pc = f.resume ∧
        g'.ctl.vote = f.vote ∧ g'.ctl.votex = f.votex ∧ g'.ctl.frame = x.g.ctl.frame ∧
        g'.ctl.calls = x.g.ctl.calls ∧ g'.ctl.loops = x.g.ctl.loops)

/-- R127: REVOTE outside a frame of a NUF or FDT is an illegal instruction. REVOTE.G collects X's lane source again: where it
is uniform over m0's active lanes, or no lane is active, the frame closes and X executes next; where X reads none, X executes
next. At T and D the sequencer drops what was pushed since entry, goes back to X and votes again. -/
def Obligations.Revote : Prop :=
  ∀ s : State,
    (∀ k x, Issues s k x (.revote .g) → (∀ f, x.g.sframe = none → x.g.ctl.frame = some f → f.kind = .trap) →
      exec (.revote .g) s = .next (takeFault s (.group k) (trap cIllegal))) ∧
    (∀ u q, SeqIssues s u q (.revote (lvlOfUnit u)) → (∀ f, q.ctl.frame = some f → f.kind = .trap) →
      exec (.revote (lvlOfUnit u)) s = .next (takeFault s u (trap cIllegal))) ∧
    (∀ k x f slot, Issues s k x (.revote .g) → x.g.sframe = none → x.g.ctl.frame = some f → f.kind ≠ .trap →
      fetchSlot s (.group k) x.gr.kcb.paced f.x none = .ok slot → unitBusy s k slot.instr = false →
      (∀ src, voteSource slot.instr = some src → ∀ i ∈ lanesOf x.g.w (x.g.active 0), ∀ j ∈ lanesOf x.g.w (x.g.active 0),
        laneVal src x.g i = laneVal src x.g j) →
      ∃ t g', exec (.revote .g) s = .next t ∧ t.group? k = some g' ∧ Unwound x.g.ctl g'.ctl f ∧ g'.ctl.pc = f.x ∧
        g'.st = .running ∧ t.iss = slot.iss ∧ (∃ rest, t.agenda = slot.instr :: rest)) ∧
    (∀ u q f, SeqIssues s u q (.revote (lvlOfUnit u)) → q.ctl.frame = some f → f.kind ≠ .trap →
      ∃ t q', exec (.revote (lvlOfUnit u)) s = .next t ∧ t.seq? u = some q' ∧ q'.st = .vote ∧ q'.revote = true ∧
        q'.ctl.pc = f.x ∧ callStack q'.ctl = (callStack q.ctl).drop ((callStack q.ctl).length - f.callDepth) ∧
        q'.ctl.frame = some f ∧ t.groups = s.groups)

/-! ### Memory (R179 to R200) -/

/-- R179, R180: what a lane memory instruction asks of each lane: whether it writes, its size, whether it is an LD.B64 (which
the time page serves, R454), and the lane's effective address. -/
def Sys2Proof.Machine.laneAccess (x : GCtx) : Instr → Option (Acc × Nat × Bool × (Nat → W64))
  | .ld t _ b c => some (.rd, mtypeSize t, t == .b64, fun l => x.g.vpair l b.toNat +
      match c with | .imm n => n.zeroExtend 64 * BitVec.ofNat 64 (mtypeSize t) | .reg n => x.g.sregD n.toNat)
  | .st t _ b c => some (.wr, mtypeSize t, false, fun l => x.g.vpair l b.toNat +
      match c with | .imm n => n.zeroExtend 64 * BitVec.ofNat 64 (mtypeSize t) | .reg n => x.g.sregD n.toNat)
  | .ldAcq t _ b _ => some (.rd, mtypeSize t, false, fun l => x.g.vpair l b.toNat)
  | .ldbR t _ b _ | .ldbS t _ b _ => some (.rd, mtypeSize t, false, fun l => x.g.vpair l b.toNat)
  | .stRel t _ b _ => some (.wr, mtypeSize t, false, fun l => x.g.vpair l b.toNat)
  | .atom _ t _ b _ _ => some (.wr, if t.is64 then 8 else 4, false, fun l => x.g.vpair l b.toNat)
  | .cas _ _ _ b _ => some (.wr, 4, false, fun l => x.g.vpair l b.toNat)
  | .casW64 _ _ _ b _ => some (.wr, 8, false, fun l => x.g.vpair l b.toNat)
  | _ => none

/-- How one lane's address translates for the group's core and context (R180, R395). -/
def Sys2Proof.Machine.laneXlat (s : State) (x : GCtx) (a : Acc) (ld64 : Bool) (va : W64) : XRes :=
  xlatOne s (coreOfGroup x.k) x.gr.asid a ld64 va

/-- Every active lane's access is aligned and translates. -/
def Sys2Proof.Machine.LanesOk (s : State) (x : GCtx) (i : Instr) : Prop :=
  ∃ a size ld64 addr, laneAccess x i = some (a, size, ld64, addr) ∧ ∀ l ∈ (IX.of s x).lanes,
    (addr l).toNat % size = 0 ∧ ∃ y, laneXlat s x a ld64 (addr l) = .ok y

/-- R180, R199, R200: the faults of a lane memory instruction. A misaligned lane comes before any protection fault, and that
before any page fault; the record names the lowest lane that met the cause, with its address. A page fault stops the group
for the supervisor handler, which will find in m0 the lanes that met it. -/
def Obligations.LaneAccessFaults : Prop :=
  ∀ (s : State) (k : Nat) (x : GCtx) (i : Instr) (a : Acc) (size : Nat) (ld64 : Bool) (addr : Nat → W64),
    laneAccess x i = some (a, size, ld64, addr) → Issues s k x i →
      let lanes := (IX.of s x).lanes
      let res (l : Nat) : XRes := laneXlat s x a ld64 (addr l)
      let aligned (l : Nat) : Prop := (addr l).toNat % size = 0
      (∀ l ∈ lanes, ¬ aligned l → (∀ j ∈ lanes, j < l → aligned j) →
        exec i s = .next (takeFault s (.group k) ⟨0x0D, l, addr l, true, a == .wr, false⟩)) ∧
      ((∀ l ∈ lanes, aligned l) → ∀ l ∈ lanes, res l = .prot → (∀ j ∈ lanes, j < l → res j ≠ .prot) →
        exec i s = .next (takeFault s (.group k) ⟨0x0C, l, addr l, true, a == .wr, false⟩)) ∧
      ((∀ l ∈ lanes, aligned l ∧ res l ≠ .prot) → ∀ l ∈ lanes, (∀ y, res l ≠ .ok y) →
        (∀ j ∈ lanes, j < l → ∃ y, res j = .ok y) → x.g.sframe = none →
        ∃ t g' f, exec i s = .next t ∧ t.group? k = some g' ∧ g'.st = .stopped .supervisor ∧ g'.ctl.fpc = s.iss.fpc ∧
          g'.ctl.pc = s.iss.fpc ∧ g'.ctl.faddr = addr l ∧ g'.ctl.fcause = fcauseWord 0x0B 0 l ∧ g'.sframe = some f ∧
          (∀ j, f.m0.getLsbD j = true ↔ j ∈ lanes ∧ j < 64 ∧ ∀ y, res j ≠ .ok y) ∧ RegsSame x.g g')

/-- Byte `n` of an access, and register `j` of the value that a load of a type writes (R180). -/
def Sys2Proof.Machine.loadReg (t : MType) (bs : List Byte) (j : Nat) : W32 :=
  let b (n : Nat) : Byte := bs.getD n 0
  match t with
  | .n8 => (b 0).zeroExtend 32
  | .i8 => (b 0).signExtend 32
  | .n16 => (b 1 ++ b 0).zeroExtend 32
  | .i16 => (b 1 ++ b 0).signExtend 32
  | .b32 | .b64 | .b128 => b (4 * j + 3) ++ (b (4 * j + 2) ++ (b (4 * j + 1) ++ b (4 * j)))

/-- A load that the L1 may serve as a plain load: LD, LD.ACQ at .GRP and .TEAM, and LDB away from bell pages (R334). -/
def Sys2Proof.Machine.l1Load (y : Xlat) : Instr → Option (MType × VReg)
  | .ld t a _ _ => some (t, a)
  | .ldAcq t a _ sc => if sc = .grp ∨ sc = .team then some (t, a) else none
  | .ldbR t a _ _ | .ldbS t a _ _ => if y.bell = 0 ∨ y.prot = .w then some (t, a) else none
  | _ => none

/-- R132, R180, R183, R301: a load whose every active lane finds its grain in the core's L1 gives each active lane the bytes
there, extended by its type. It changes no byte of memory or of the L1, and no other register but the idle lanes'
destinations under MZ. -/
def Obligations.LoadFromL1 : Prop :=
  ∀ (s : State) (k : Nat) (x : GCtx) (i : Instr) (t : MType) (a : VReg) (acc : Acc) (size : Nat) (ld64 : Bool)
    (addr : Nat → W64) (y : Nat → Xlat),
    Issues s k x i → i.wf = true → laneAccess x i = some (acc, size, ld64, addr) →
    (∀ l ∈ (IX.of s x).lanes, (addr l).toNat % size = 0 ∧ laneXlat s x acc ld64 (addr l) = .ok (y l) ∧
      (y l).prot ≠ .n ∧ ((s.coreD (coreOfGroup k)).miss? (gbase (y l).gsz (y l).pa)).isNone ∧
      (s.coreD (coreOfGroup k)).hit (y l).pa = true) →
    (∀ z ∈ ((IX.of s x).lanes.map y), l1Load z i = some (t, a)) → l1Load ⟨0, .w, 32, 0, false, false⟩ i = some (t, a) →
      ∃ st g', exec i s = .next st ∧ MemIssued s st k x.g g' ∧
        LanesAre (IX.of s x) (g'.settled x.g) a.toNat t.regs
          (fun l j => loadReg t ((s.coreD (coreOfGroup k)).l1Read (y l).pa size) j) ∧
        (∀ f ∈ g'.flights.drop x.g.flights.length, f.wait = 0) ∧
        st.mem = s.mem ∧ ∀ p, (st.coreD (coreOfGroup k)).l1Read p 1 = (s.coreD (coreOfGroup k)).l1Read p 1

/-- Byte `n` of the data that a lane stores (R184). -/
def Sys2Proof.Machine.dataByte (g : Group) (a : VReg) (l n : Nat) : Byte :=
  (g.vreg l (a.toNat + n / 4)).extractLsb' (8 * (n % 4)) 8

/-- R184, R321, R324: a plain ST whose every active lane may write its grain in the core's L1, where a page has one protocol
in every mapping that the lanes use. Where lanes write a byte in
common the highest lane's byte remains; every other byte of the L1, every byte of memory and every register is as it was. -/
def Obligations.StoreToL1 : Prop :=
  ∀ (s : State) (k : Nat) (x : GCtx) (t : MType) (a b : VReg) (c : LdOff) (acc : Acc) (size : Nat) (ld64 : Bool)
    (addr : Nat → W64) (y : Nat → Xlat),
    Issues s k x (.st t a b c) → laneAccess x (.st t a b c) = some (acc, size, ld64, addr) →
    (∀ l ∈ (IX.of s x).lanes, (addr l).toNat % size = 0 ∧ laneXlat s x acc ld64 (addr l) = .ok (y l) ∧
      (y l).prot ≠ .n ∧ ((s.coreD (coreOfGroup k)).miss? (gbase (y l).gsz (y l).pa)).isNone ∧
      (if (y l).prot = .d then (s.coreD (coreOfGroup k)).grainSt (y l).pa = some .ex
        else (s.coreD (coreOfGroup k)).hit (y l).pa = true) ∧ (y l).pa % size = 0) →
    (∀ l ∈ (IX.of s x).lanes, ∀ j ∈ (IX.of s x).lanes, frameOf (y l).pa = frameOf (y j).pa → (y l).prot = (y j).prot) →
      let covers (p l : Nat) : Bool := decide ((y l).pa ≤ p) && decide (p < (y l).pa + size)
      ∃ st g', exec (.st t a b c) s = .next st ∧ MemIssued s st k x.g g' ∧ RegsSame x.g (g'.settled x.g) ∧
        st.mem = s.mem ∧
        ∀ p, (st.coreD (coreOfGroup k)).l1Read p 1 = match (IX.of s x).lanes.reverse.find? (covers p) with
          | some l => [dataByte x.g a l (p - (y l).pa)]
          | none => (s.coreD (coreOfGroup k)).l1Read p 1

/-- The memory instructions of a group that name no address, or whose addresses are never checked (R192 to R194). -/
def Sys2Proof.Machine.unchecked : Instr → Bool
  | .fence r _ => r != .plain
  | .cinv _ _ | .cflush _ _ => true
  | _ => false

/-- R187 to R189, R326, R328: what a lane memory instruction sends to the homes: the operation, the scope that the home
records its acquire with, whether it releases, its scope, and the registers of its data and of its compare value. -/
def Sys2Proof.Machine.homeRule : Instr → Option (HomeAct × Option MScope × Bool × MScope × Option VReg × Option VReg)
  | .atom o t a _ r sc => some (.atom o t, if r.acquires && sc.wide then some sc else none, r.releases, sc, some a, none)
  | .cas r sc a _ c | .casW64 r sc a _ c =>
    some (.cas, if r.acquires && sc.wide then some sc else none, r.releases, sc, some c, some a)
  | .ldAcq t _ _ sc => if sc.wide then some (.load t, some sc, false, sc, none, none) else none
  | .stRel _ a _ sc => some (.store, none, true, sc, some a, none)
  | _ => none

/-- The lanes of such an instruction that the L1 serves: the stores of a release at .GRP and .TEAM but to an N page, and the
window accesses of ST.REL and LD.ACQ (R326 to R328). -/
def Sys2Proof.Machine.throughL1 (y : Xlat) : Instr → Bool
  | .stRel _ _ _ sc => if sc.wide then y.prot == .w else y.prot != .n
  | .ldAcq _ _ _ _ => y.prot == .w
  | _ => false

/-- One operation for each grain, from the group's core and for its newest flight, which holds each lane's address with its
data and compare value. -/
def Sys2Proof.Machine.OpsFor (x : GCtx) (ops : List HomeOp) (lanes : List Nat) (addr : Nat → W64) (y : Nat → Xlat) (size : Nat)
    (data cmp : Option VReg) : Prop :=
  (ops.map (·.grain)).Nodup ∧
  (∀ o ∈ ops, o.core = coreOfGroup x.k ∧ o.grp = x.k ∧ o.flight = x.g.nextFlight ∧ ∀ p ∈ o.lanes, p.lane ∈ lanes) ∧
  ∀ l ∈ lanes, ∃ o ∈ ops, o.grain = gbase (y l).gsz (y l).pa ∧ ∃ p ∈ o.lanes, p.lane = l ∧ p.va = (addr l).toNat ∧
    p.pa = (y l).pa ∧ p.size = size ∧
    (∀ d, data = some d → ∀ n < size, p.x.extractLsb' (8 * n) 8 = dataByte x.g d l n) ∧
    (∀ d, cmp = some d → ∀ n < size, p.cmp.extractLsb' (8 * n) 8 = dataByte x.g d l n)

/-- R32, R65, R183 to R194: every lane memory instruction whose active lanes are aligned and translate, and every FENCE, CINV
and CFLUSH, issues: its flight begins, the pc moves on, an acquire holds the group's later accesses, and no register changes
before its completion. R194, R68: PREF changes no register and completes the clk after issue. R187 to R190, R326, R328: ATOM,
CAS, LD.ACQ at .CLU or wider and ST.REL send one operation for each grain with its lanes' addresses, data and compare values;
a release waits in the group's pending list at its scope, with what it is to store through the L1. -/
def Obligations.MemoryIssues : Prop :=
  (∀ (s : State) (k : Nat) (x : GCtx) (i : Instr), Issues s k x i → (LanesOk s x i ∨ unchecked i = true) →
      ∃ t g' f, exec i s = .next t ∧ MemIssued s t k x.g g' ∧ g'.flights.getLast? = some f ∧ f.mem = true ∧
        f.id = x.g.nextFlight ∧ (f.acq.isSome → g'.hold = some f.id)) ∧
  (∀ (s : State) (k : Nat) (x : GCtx) (b : VReg) (l2 : Bool), Issues s k x (.pref b l2) →
      ∃ t g', exec (.pref b l2) s = .next t ∧ Issued s t k x.g g' s.nextPc 0 ∧ g'.gen = x.g.gen ∧
        RegsSame x.g (g'.settled x.g)) ∧
  (∀ (s : State) (k : Nat) (x : GCtx) (i : Instr) (act : HomeAct) (acq : Option MScope) (rel : Bool) (sc : MScope)
    (data cmp : Option VReg) (a : Acc) (size : Nat) (ld64 : Bool) (addr : Nat → W64) (y : Nat → Xlat),
    homeRule i = some (act, acq, rel, sc, data, cmp) → laneAccess x i = some (a, size, ld64, addr) → i.wf = true →
    Issues s k x i →
    (∀ l ∈ (IX.of s x).lanes, (addr l).toNat % size = 0 ∧ laneXlat s x a ld64 (addr l) = .ok (y l)) →
      let lanes := (IX.of s x).lanes
      ∃ t g' ops, exec i s = .next t ∧ MemIssued s t k x.g g' ∧
        OpsFor x ops (lanes.filter fun l => !throughL1 (y l) i) addr y size data cmp ∧
        (∀ o ∈ ops, o.act = act ∧ o.acq = acq) ∧
        (rel = true → ∃ stores, g'.rels = x.g.rels ++ [⟨x.g.nextFlight, sc, true, stores, ops, []⟩] ∧
          ∀ l ∈ lanes, throughL1 (y l) i = true → ∀ d, data = some d → ∃ r ∈ stores, r.lane = l ∧ r.va = (addr l).toNat ∧
            r.pa = (y l).pa ∧ r.bytes = (List.range size).map (dataByte x.g d l)) ∧
        (rel = false → g'.rels = x.g.rels ++ [⟨x.g.nextFlight, sc, false, [], ops, []⟩] ∨
          g'.rels = x.g.rels ∧ (ops.map Instr.homeExecutedOperation).Sublist t.agenda ∧
            ((∀ o ∈ ops, isRemote o.grain = false) → ops.map Instr.homeExecutedOperation <:+ t.agenda)))

/-- R185: the value of a scalar load. -/
def Sys2Proof.Machine.scalarLoad (t : SType) (bs : List Byte) : W64 :=
  let b (n : Nat) : Byte := bs.getD n 0
  match t with
  | .n8 => (b 0).zeroExtend 64
  | .i8 => (b 0).signExtend 64
  | .n16 => (b 1 ++ b 0).zeroExtend 64
  | .i16 => (b 1 ++ b 0).signExtend 64
  | .n32 => (b 3 ++ (b 2 ++ (b 1 ++ b 0))).zeroExtend 64
  | .i32 => (b 3 ++ (b 2 ++ (b 1 ++ b 0))).signExtend 64
  | .b64 => b 7 ++ (b 6 ++ (b 5 ++ (b 4 ++ (b 3 ++ (b 2 ++ (b 1 ++ b 0))))))

/-- R185, R179, R199: LDS and STS of a group through the L1 at sB + n × size: LDS writes its register with the extended bytes;
STS writes the low bytes of its register and changes no other byte; a misaligned address faults. -/
def Obligations.ScalarMemory : Prop :=
  ∀ (s : State) (k : Nat) (x : GCtx) (t : SType) (a b : SReg) (n : BitVec 7) (y : Xlat),
    let size := stypeSize t
    let va : W64 := x.rd b + n.signExtend 64 * BitVec.ofNat 64 size
    let c := s.coreD (coreOfGroup k)
    (∀ i, (i = .lds t a b n ∨ i = .sts t a b n) → Issues s k x i → va.toNat % size ≠ 0 →
      exec i s = .next (takeFault s (.group k) ⟨0x0D, 0, va, false, i == .sts t a b n, false⟩)) ∧
    (Issues s k x (.lds t a b n) → va.toNat % size = 0 → laneXlat s x .rd false va = .ok y → y.prot ≠ .n →
      (c.miss? (gbase y.gsz y.pa)).isNone → c.hit y.pa = true →
      ∃ st g', exec (.lds t a b n) s = .next st ∧ MemIssued s st k x.g g' ∧
        ScalarIs x.g (g'.settled x.g) a.num (scalarLoad t (c.l1Read y.pa size)) ∧ st.mem = s.mem ∧
        ∀ p, (st.coreD (coreOfGroup k)).l1Read p 1 = c.l1Read p 1) ∧
    (Issues s k x (.sts t a b n) → va.toNat % size = 0 → laneXlat s x .wr false va = .ok y → y.prot ≠ .n →
      (c.miss? (gbase y.gsz y.pa)).isNone → (if y.prot = .d then c.grainSt y.pa = some .ex else c.hit y.pa = true) →
      y.pa % size = 0 →
      ∃ st g', exec (.sts t a b n) s = .next st ∧ MemIssued s st k x.g g' ∧ RegsSame x.g (g'.settled x.g) ∧ st.mem = s.mem ∧
        ∀ p, (st.coreD (coreOfGroup k)).l1Read p 1 =
          if y.pa ≤ p ∧ p < y.pa + size then [(x.g.sregD a.num).extractLsb' (8 * (p - y.pa)) 8] else c.l1Read p 1)

/-! ### Requests at a home (R318, R322, R326, R187, R188) -/

/-- R187: the new value of an atomic over n bits. -/
def Sys2Proof.Machine.atomRule {n : Nat} (o : AOp) (sgn : Bool) (old x : BitVec n) : BitVec n :=
  match o with
  | .add => old + x
  | .min => if (if sgn then old.sle x else old.ule x) then old else x
  | .max => if (if sgn then old.sle x else old.ule x) then x else old
  | .and => old &&& x
  | .or => old ||| x
  | .xor => old ^^^ x
  | .exch => x

/-- The value of `n` bytes at a home. -/
def Sys2Proof.Machine.wordAt (s : State) (pa n : Nat) : BitVec (8 * n) := BitVec.ofNat (8 * n) (leNat (s.homeRead pa n))

/-- An operation that no entry of the directory holds back: its grain is not tracked, a slice has room, nothing is poisoned
and the grain is the device's own. -/
def Sys2Proof.Machine.Untracked (s : State) (g : Nat) : Prop :=
  s.dirs.get? g = none ∧ dirRoom s g = true ∧ s.poison = [] ∧ isRemote g = false

/-- R187, R188, R318, R326, R328: operations and their companions at a home. One lane's part of an operation (an atomic, a CAS,
a store or a load) returns the old value, and its write changes the bytes of the lane's access alone. An operation on an
untracked grain is executed at once, its lanes in order, and its results go to its flight; an atomic that releases at .GRP or
.TEAM leaves a record of its core there (R343; that the home sets it is the model's choice, assumption 94). A store or load
through a group's flight takes one part of its wait away. RECORD_MESSAGE completes in every state: it takes its turn at its
grain and names the releaser; where no entry is free it is refused, and the group's release is completed as at .CLU, its core's
written S grains flushed, before it is performed (R328). A flush request merges the core's dirty bytes of its partition at their
homes (R329) and is acknowledged once the stores that are pending there are performed (which those are is the model's choice,
assumption 77); the acknowledgement clears the record that names the core, and no other's. -/
def Obligations.HomeOperations : Prop :=
  (∀ (s : State) (act : HomeAct) (l : LaneOp), isRemote l.pa = false → s.fab.timeFrame ≠ some (frameOf l.pa) →
    (match act with
      | .atom _ t => 8 * l.size = atypeBits t
      | .cas => l.size = 4 ∨ l.size = 8
      | .store | .load _ => True
      | _ => False) →
      let old := wordAt s l.pa l.size
      let x : BitVec (8 * l.size) := l.x.setWidth (8 * l.size)
      let r := laneAct s act l
      (r.2 = old.toNat) ∧
      (wordAt r.1 l.pa l.size = match act with
        | .atom o t => atomRule o (match t with | .i32 | .i64 => true | _ => false) old x
        | .cas => if old = l.cmp.setWidth (8 * l.size) then x else old
        | .store => x
        | _ => old) ∧
      (∀ p, p < l.pa ∨ l.pa + l.size ≤ p → memGet r.1.mem p = memGet s.mem p) ∧
      r.1.cores = s.cores ∧ r.1.groups = s.groups ∧ r.1.fab = s.fab) ∧
  (∀ s : State,
    (∀ (o : HomeOp) g f, Untracked s o.grain → o.acq = none → o.rel = none → (o.act = .store ∨ o.act = .cas ∨ (∃ a t, o.act = .atom a t) ∨ ∃ t, o.act = .load t) →
      s.fab.colls = [] → s.group? o.grp = some g → g.flights = [f] → f.id = o.flight →
      ∃ t, exec (.homeExecutedOperation o) s = .next t ∧ t.mem = (runLanes s o.act o.lanes).1.mem ∧
        t.dirs.get? o.grain = none ∧
        t.group? o.grp = some { g with flights := [{ f with
          wait := f.wait - 1
          writes := f.writes ++ (runLanes s o.act o.lanes).2.flatMap fun p =>
            physWrites p.1 (f.destOf p.1) (resultRegs o.act (match o.lanes with | l :: _ => l.size | [] => 0) p.2) }] }) ∧
    (∀ (o : HomeOp) sc, Untracked s o.grain → windowOf s o.attr.asid o.grain = none → o.acq = none → o.rel = some sc →
      (o.act = .cas ∨ ∃ a t, o.act = .atom a t) → s.fab.colls = [] →
      ∃ t d, exec (.homeExecutedOperation o) s = .next t ∧ t.mem = (runLanes s o.act o.lanes).1.mem ∧
        t.dirs.get? o.grain = some d ∧ d.rel = some (o.core, sc)) ∧
    (∀ core grain sc, dirRoom s grain = true →
      (∀ d, s.dirs.get? grain = some d → d.held = [] ∧ d.cur = none) →
      ∃ t d, exec (.recordMessage core grain sc) s = .next t ∧
        t.dirs.get? grain = some d ∧ d.rel = some (core, sc) ∧ t.mem = s.mem ∧ t.cores = s.cores ∧ t.groups = s.groups) ∧
    (∀ core grain sc d r, s.dirs.get? grain = some d → d.cur = some r → d.acks ≠ 0 →
      exec (.recordMessage core grain sc) s = .next (s.putDir grain { d with held := d.held ++ [.record core sc] })) ∧
    (∀ core grain sc, dirRoom s grain = false → s.groups.keys.Nodup →
      ∃ t, exec (.recordMessage core grain sc) s = .next t ∧ t.mem = s.mem ∧ t.cores = s.cores ∧ t.dirs = s.dirs ∧
        ∀ k g, s.group? k = some g → t.group? k =
          some (if coreOfGroup k = core ∧ (g.recorded grain).isSome = true then { g with recs := some true } else g)) ∧
    (∀ (x : GCtx) (p : PendRel), p.rel = true → p.stores = [] → p.ops = [] → x.g.recs = some true →
      performMem s x p = releaseFlush s x.core x.vf) ∧
    (∀ core grain vf, (s.coreD core).vf = some vf →
      let u := flushCore s core vf false
      ∃ t, exec (.flushRequest core grain) s = .next t ∧ t.groups = s.groups ∧ t.mem = u.mem ∧ t.cores = u.cores ∧
        (pendingStores u core vf = [] → .flushAcknowledge core grain ∈ t.agenda) ∧
        (pendingStores u core vf ≠ [] → ⟨core, grain, vf, pendingStores u core vf⟩ ∈ t.flushes)) ∧
    (∀ core g b vf, (g, b) ∈ (s.coreD core).allGrains → b.vf = vf → s.dirs = [] → isRemote g = false →
      (∀ p ∈ (s.coreD core).dirtyOf g, isRemote p.1 = false) →
      (∀ p ∈ (s.coreD core).allGrains, p.1 ≠ g → (s.coreD core).dirtyOf p.1 = []) →
        (flushCore s core vf false).mem = memMerge s.mem ((s.coreD core).dirtyOf g) ∧
        ((flushCore s core vf false).coreD core).dirtyOf g = []) ∧
    (∀ core grain d, s.dirs.get? grain = some d → d.held = [] → d.cur = none →
      ∃ t, exec (.flushAcknowledge core grain) s = .next t ∧
        (∀ d', t.dirs.get? grain = some d' → d'.rel = match d.rel with
          | some (c, sc) => if c = core then none else some (c, sc)
          | none => none) ∧ t.mem = s.mem ∧ t.groups = s.groups))

/-! ### Scratchpads (R219, R256 to R259, R273, R289 to R294) -/

/-- R219: the place of an offset's byte within its allocation, under a swizzle mode. -/
def Sys2Proof.Machine.spPlace (m o : Nat) : Nat :=
  let bank := (o >>> 3) &&& 0x3F
  let bank' := if m = 0 then bank else bank ^^^ ((o >>> (8 + m)) &&& 0x3F)
  o - bank * 8 + bank' * 8

/-- R256, R273: the cell of byte `n` of an access at an offset: a place in the team's share, or in the ring through which
a window offset is open to the team. -/
def Sys2Proof.Machine.spCell (s : State) (gr : Grid) (t : Team) (m o n : Nat) : Option (Option RingId × Nat) :=
  if o < 2 ^ 31 then some (none, spPlace m (o + n))
  else (openRing s gr t o).bind fun i => (s.ring? i).map fun r => (some i, winBuf o * r.size + spPlace m (winByte o + n))

/-- The byte in a cell. -/
def Sys2Proof.Machine.cellAt (s : State) (tk : Nat) (c : Option RingId × Nat) : Byte :=
  match c.1 with
  | none => match s.team? tk with | some t => t.sp.getD c.2 0 | none => 0
  | some i => match s.ring? i with | some r => r.data.getD c.2 0 | none => 0

/-- R258: the cause that one access meets. -/
def Sys2Proof.Machine.spCause (s : State) (gr : Grid) (t : Team) (wr : Bool) (size o : Nat) : Option Nat :=
  if o % size ≠ 0 then some 0x0D
  else if o < 2 ^ 31 then
    (if gr.kcb.spbytes < o + size ∨ wr = true ∧ o < 16 * gr.kcb.nbar then some 0x0E else none)
  else match gr.kcb.feeds[winFeed o]? with
    | none => some 0x10
    | some f => if f.2 ≤ winByte o + size then some 0x0E else if openRing s gr t o = none then some 0x10 else none

/-- The lane reported: the least cause that a lane meets, at the lowest lane that meets it (R258). -/
def Sys2Proof.Machine.reports (lanes : List Nat) (cause : Nat → Option Nat) (c l : Nat) : Prop :=
  l ∈ lanes ∧ cause l = some c ∧ ∀ j ∈ lanes, ∀ d, cause j = some d → c ≤ d ∧ (c = d → l ≤ j)

/-- R258: ATOMP over the lanes in rising order: each old word, and the bytes afterwards. -/
def Sys2Proof.Machine.atompFold (o : AOp) (sgn : Bool) (cell : Nat → Nat → Option RingId × Nat) (x : Nat → W32) :
    List Nat → (Option RingId × Nat → Byte) → (Option RingId × Nat → Byte) × List (Nat × W32)
  | [], f => (f, [])
  | l :: ls, f =>
    let b (n : Nat) : Byte := f (cell l n)
    let old : W32 := b 3 ++ (b 2 ++ (b 1 ++ b 0))
    let new := atomRule o sgn old (x l)
    let r := atompFold o sgn cell x ls fun c => match (List.range 4).find? fun n => cell l n == c with
      | some n => new.extractLsb' (8 * n) 8
      | none => f c
    (r.1, (l, old) :: r.2)

/-- What a local scratchpad access names: data or destination, offset register, swizzle mode, size, whether it writes. -/
def Sys2Proof.Machine.spAccess : Instr → Option (VReg × VReg × Nat × Nat × Bool)
  | .ldp t a b w => some (a, b, w.toNat, mtypeSize t, false)
  | .stp t a b w => some (a, b, w.toNat, mtypeSize t, true)
  | .atompI32 _ a b w | .atompN32 _ a b w => some (a, b, w.toNat, 4, true)
  | _ => none

/-- R220: an access of a group in the banks, served clk after clk for `n` clks or until nothing is left of it, with no other
access in between. -/
def Sys2Proof.Machine.servedOut (gr : Grid) (k : Nat) : Nat → State → Option SpOp → State
  | n + 1, s, some o => let r := bankStep s gr k o; servedOut gr k n { r.1 with clk := r.1.clk + 1 } r.2
  | _, s, _ => s

def Sys2Proof.Machine.allServed (gr : Grid) (k n : Nat) (s : State) (os : List SpOp) : State :=
  os.foldl (fun s o => servedOut gr k n s (some o)) s

/-- The cores are as they were but for the banks' record of the clks in which they serve a word. -/
def Sys2Proof.Machine.CoresButBanks (s t : State) : Prop :=
  ∀ j, { t.coreD j with banks := (s.coreD j).banks } = s.coreD j

/-- Two lanes name a cell in common at one offset of one team alone, as they do in every ring of the sizes that R272 gives. -/
def Sys2Proof.Machine.CellsApart (lanes : List Nat) (size : Nat) (tm off : Nat → Nat)
    (cell : Nat → Nat → Option RingId × Nat) : Prop :=
  ∀ l ∈ lanes, ∀ j ∈ lanes, ∀ n < size, ∀ m < size, cell l n = cell j m → ((cell l n).1 = none → tm l = tm j) →
    tm l = tm j ∧ off l = off j

/-- R219, R220, R256 to R259, R273: LDP, STP and ATOMP. A fault is the first cause in R258's order that any lane meets; where
no lane faults, the access issues and the banks serve it, in each bank a lower word first. Once served, with nothing in
between, LDP has returned the bytes, STP has left the highest lane's byte where lanes overlap, and ATOMP has acted lane by
lane; no other byte of the scratchpads and no byte of memory changes. -/
def Obligations.Scratchpad : Prop :=
  ∀ (s : State) (k : Nat) (x : GCtx) (i : Instr) (a b : VReg) (m size : Nat) (wr : Bool),
    spAccess i = some (a, b, m, size, wr) → i.wf = true → Issues s k x i →
      let ix := IX.of s x
      let off (l : Nat) : Nat := (x.g.vreg l b.toNat).toNat
      let cause (l : Nat) : Option Nat := spCause s x.gr x.t wr size (off l)
      let cell (l n : Nat) : Option RingId × Nat := (spCell s x.gr x.t m (off l) n).getD (none, 0)
      (∀ c l, reports ix.lanes cause c l →
        exec i s = .next (takeFault s (.group k) ⟨c, l, (x.g.vreg l b.toNat).zeroExtend 64, true, wr, false⟩)) ∧
      ((∀ l ∈ ix.lanes, cause l = none) →
        CellsApart ix.lanes size (fun _ => x.g.team) off cell →
        ∃ st g0 n fin g', exec i s = .next st ∧ st.group? k = some g0 ∧
          fin = allServed x.gr k n st (g0.banks.drop x.g.banks.length) ∧
          MemIssued { s with teams := fin.teams } fin k x.g g' ∧ fin.mem = s.mem ∧
          CoresButBanks s fin ∧ (∀ j, j ≠ x.g.team → fin.team? j = s.team? j) ∧
          match i with
          | .ldp t _ _ _ => (∀ c, cellAt fin x.g.team c = cellAt s x.g.team c) ∧
              LanesAre ix (g'.settled x.g) a.toNat t.regs fun l j =>
                loadReg t ((List.range size).map fun n => cellAt s x.g.team (cell l n)) j
          | .stp _ _ _ _ => RegsSame x.g (g'.settled x.g) ∧
              ∀ c, cellAt fin x.g.team c =
                match ix.lanes.reverse.findSome? fun l => ((List.range size).find? fun n => cell l n == c).map fun n =>
                  dataByte x.g a l n with
                | some y => y
                | none => cellAt s x.g.team c
          | .atompI32 o _ _ _ | .atompN32 o _ _ _ =>
              let r := atompFold o (match i with | .atompI32 _ _ _ _ => true | _ => false) cell
                (fun l => x.g.vreg l a.toNat) ix.lanes (cellAt s x.g.team)
              (∀ c, cellAt fin x.g.team c = r.1 c) ∧
              LanesAre ix (g'.settled x.g) a.toNat 1 fun l _ =>
                match r.2.find? fun p => p.1 == l with | some p => p.2 | none => 0
          | _ => True)

/-- R289, R291 to R294: LDPR and STPR. A lane whose address names no target team takes a protection fault; a lane's offset is
checked as R258 checks it, against the target team; otherwise LDPR and STPR complete their issue, in every state and for all
operands, with a part for each target core (R294). Once each part is served, with nothing in between, STPR has left at each
lane's place in its target team the low bytes of the lane's data registers (R293), the highest lane's where lanes overlap, and
LDPR has given each lane the bytes of its place. A target core serves a part as its banks serve its own accesses: in each clk a
bank gives one word, to one access, and of an access its lowest there (R220). -/
def Obligations.RemoteScratchpad : Prop :=
  (∀ (s : State) (k : Nat) (x : GCtx) (i : Instr) (a b : VReg) (w : BitVec 3) (t : MType),
    (i = .ldpr t a b w ∨ i = .stpr t a b w) → i.wf = true → Issues s k x i →
      let ix := IX.of s x
      let wr := i == .stpr t a b w
      let addr (l : Nat) : W64 := x.g.vpair l b.toNat
      (∀ l ∈ ix.lanes, remoteTarget s x (addr l) = none → (∀ j ∈ ix.lanes, j < l → remoteTarget s x (addr j) ≠ none) →
        exec i s = .next (takeFault s (.group k) ⟨0x0C, l, addr l, true, wr, false⟩)) ∧
      (∀ tgt : Nat → Nat × Team, (∀ l ∈ ix.lanes, remoteTarget s x (addr l) = some (tgt l).1 ∧
          s.team? (tgt l).1 = some (tgt l).2) →
        let cause (l : Nat) : Option Nat := spCause s x.gr (tgt l).2 wr (mtypeSize t) ((addr l).toNat % 2 ^ 32)
        (∀ c l, reports ix.lanes cause c l →
          exec i s = .next (takeFault s (.group k) ⟨c, l, addr l, true, wr, false⟩)) ∧
        ((∀ l ∈ ix.lanes, cause l = none) →
          let size := mtypeSize t
          let off (l : Nat) : Nat := (addr l).toNat % 2 ^ 32
          let cell (l n : Nat) : Option RingId × Nat := (spCell s x.gr (tgt l).2 w.toNat (off l) n).getD (none, 0)
          ∃ st g', exec i s = .next st ∧ MemIssued s st k x.g g' ∧ RegsSame x.g g' ∧ st.mem = s.mem ∧ st.cores = s.cores ∧
            st.rings = s.rings ∧
            (∀ o ∈ g'.remotes.drop x.g.remotes.length, o.flight = x.g.nextFlight ∧ o.swz = w.toNat ∧ o.size = size ∧
              o.kind = (if wr then .store else .load t (x.g.vwb + a.toNat)) ∧
              ∀ l, l ∈ o.lanes ↔ l ∈ ix.lanes ∧ coreOfTeam (tgt l).1 = o.core) ∧
            (∀ l ∈ ix.lanes, ∃ o ∈ g'.remotes.drop x.g.remotes.length, o.core = coreOfTeam (tgt l).1) ∧
            (CellsApart ix.lanes size (fun l => (tgt l).1) off cell →
              ∃ n fin g'', fin = allServed x.gr k n st (g'.remotes.drop x.g.remotes.length) ∧ fin.group? k = some g'' ∧
                fin.mem = s.mem ∧ CoresButBanks s fin ∧
                (i = .stpr t a b w → RegsSame x.g (g''.settled x.g) ∧
                  ∀ tk c, cellAt fin tk c = match ix.lanes.reverse.findSome? fun l =>
                      if c.1 = none ∧ (tgt l).1 ≠ tk then none
                      else ((List.range size).find? fun n => cell l n == c).map fun n => dataByte x.g a l n with
                    | some y => y
                    | none => cellAt s tk c) ∧
                (i = .ldpr t a b w → (∀ tk c, cellAt fin tk c = cellAt s tk c) ∧
                  LanesAre ix (g''.settled x.g) a.toNat t.regs fun l j =>
                    loadReg t ((List.range size).map fun n => cellAt s (tgt l).1 (cell l n)) j))))) ∧
  (∀ (s : State) (k fl : Nat) (x : GCtx) (o : SpOp), s.gctx k = some x →
    (remotesDue s x.g).find? (fun o => o.flight == fl) = some o →
    exec (.remoteScratchpadAccess k fl) s = .next (match bankStep s x.gr k o with
      | (t, none) => t.updGroup k fun g => { g with remotes := g.remotes.erase o }
      | (t, some e) => t.updGroup k fun g => { g with remotes := g.remotes.map fun r => if r = o then e else r })) ∧
  (∀ (s : State) (gr : Grid) (k : Nat) (o : SpOp),
    let word (p : SpPiece) : Nat := pieceWord s o.swz p
    let free (p : SpPiece) : Bool := decide ((s.coreD o.core).banks.getD (word p % 64) 0 ≤ s.clk)
    let now := o.pieces.filter fun p =>
      free p && o.pieces.all fun q => word q % 64 != word p % 64 || decide (word p ≤ word q)
    ((bankStep s gr k o).2 = none ↔ ∀ p ∈ o.pieces, p ∈ now) ∧
    (∀ e, (bankStep s gr k o).2 = some e →
      e.pieces = (o.pieces.filter fun p => !now.contains p) ∧ e.lanes = o.lanes ∧ e.kind = o.kind) ∧
    (s.cores.has o.core = true →
      ∀ b, ((bankStep s gr k o).1.coreD o.core).banks.getD b 0 =
        if (now.any fun p => word p % 64 == b) then s.clk + 1 else (s.coreD o.core).banks.getD b 0))

/-! ### Special registers (R29, R47, R204 to R207) -/

/-- R29: the special registers that a team or its core holds, on a core. -/
def Sys2Proof.Machine.srTeam (s : State) (t : Team) (core sel : Nat) : W64 :=
  match sel with
  | 0x03 => BitVec.ofNat 64 t.x
  | 0x04 => BitVec.ofNat 64 t.y
  | 0x05 => BitVec.ofNat 64 t.z
  | 0x06 => BitVec.ofNat 64 t.stage
  | 0x07 => BitVec.ofNat 64 t.vcore
  | 0x08 => BitVec.ofNat 64 core
  | 0x09 => BitVec.ofNat 64 (core / 128 % 2)
  | 0x0A => BitVec.ofNat 64 (core / 256)
  | 0x12 => (s.coreD core).pw
  | 0x13 => Config.cycSkew core + BitVec.ofNat 64 s.clk
  | 0x20 => (s.coreD core).refused
  | 0x21 => t.bellto
  | _ => 0

/-- R29, R125: the vote and fault records of a sequencer. -/
def Sys2Proof.Machine.srCtl (c : Ctl) (sel : Nat) : W64 :=
  match sel with
  | 0x18 => c.vote
  | 0x19 => c.votex
  | 0x1A => c.fcause
  | 0x1B => c.faddr
  | 0x1C => c.fpc
  | _ => 0

/-- R29: what a lane of a group reads from a special register; SR.SEED reads as zero. -/
def Sys2Proof.Machine.srValue (s : State) (x : GCtx) (sel l : Nat) : W64 :=
  match sel with
  | 0x00 => BitVec.ofNat 64 l
  | 0x01 => BitVec.ofNat 64 x.g.w
  | 0x02 => BitVec.ofNat 64 x.g.gid
  | 0x10 => x.g.live
  | 0x11 => BitVec.ofNat 64 x.g.vwb
  | 0x14 => x.g.fstat
  | 0x18 | 0x19 | 0x1A | 0x1B | 0x1C => srCtl x.g.ctl sel
  | _ => srTeam s x.t (coreOfGroup x.k) sel

/-- The write of an upper sequencer, in its current version or a copy (R225, R105). -/
def Sys2Proof.Machine.SeqWrote (s t : State) (u : UnitId) (q : Seq) (n : Nat) (v : W64) : Prop :=
  let new : Ver := { q.ver q.cur with regs := (q.ver q.cur).regs.put 0 n v }
  let next (q : Seq) : Seq := { q with voted := none, ctl := { q.ctl with pc := s.nextPc } }
  if named s u q.cur = false then t = s.updSeq u fun q => { next q with vers := q.vers.set q.cur new }
  else match freeVersion s u q with
    | some w => t = s.updSeq u fun q => { next q with vers := q.vers.set w new, cur := w }
    | none => t = s.updSeq u fun q => { next q with st := .vers, heldWrite := some (n, v) }

/-- R29, R204 to R206, R47: RDSR gives the register's value to its lanes or its scalar and reads SR.REFUSED once, clearing
it; WRSR writes SR.SEED in each active lane's generator, SR.FSTAT and SR.BELLTO. Nothing else changes. The skew of SR.CYC
is a free value (assumption 2). -/
def Obligations.SpecialRegisters : Prop :=
  (∀ (s : State) (k : Nat) (x : GCtx) (pair : Bool) (a : VReg) (n : BitVec 7),
    (Instr.rdsrV pair a n).wf = true → Issues s k x (.rdsrV pair a n) →
      let ix := IX.of s x
      let c := coreOfGroup k
      ∃ t g', exec (.rdsrV pair a n) s = .next t ∧ t.group? k = some g' ∧ g'.ctl.pc = s.nextPc ∧ g'.fstat = x.g.fstat ∧
        LanesAre ix (g'.settled x.g) a.toNat (if pair then 2 else 1)
          (fun l j => (srValue s x n.toNat l).extractLsb' (32 * j) 32) ∧
        (∀ j, t.coreD j = if j = c ∧ n.toNat = 0x20 ∧ ix.lanes ≠ [] ∧ s.cores.has c = true
          then { s.coreD c with refused := 0 } else s.coreD j) ∧
        (∀ j, j ≠ k → t.group? j = s.group? j) ∧ t.teams = s.teams ∧ t.mem = s.mem) ∧
  (∀ (s : State) (k : Nat) (x : GCtx) (a : SReg) (n : BitVec 7),
    (Instr.rdsrS a n).wf = true → Issues s k x (.rdsrS a n) →
      let c := coreOfGroup k
      ∃ t g', exec (.rdsrS a n) s = .next t ∧ t.group? k = some g' ∧ g'.ctl.pc = s.nextPc ∧ g'.fstat = x.g.fstat ∧
        ScalarIs x.g (g'.settled x.g) a.num (srValue s x n.toNat 0) ∧
        (∀ j, t.coreD j = if j = c ∧ n.toNat = 0x20 ∧ s.cores.has c = true then { s.coreD c with refused := 0 } else s.coreD j) ∧
        (∀ j, j ≠ k → t.group? j = s.group? j) ∧ t.teams = s.teams ∧ t.mem = s.mem) ∧
  (∀ (s : State) (u : UnitId) (q : Seq) (a : SReg) (n : BitVec 7), (Instr.rdsrS a n).wf = true →
    SeqIssues s u q (.rdsrS a n) →
      (0x18 ≤ n.toNat → n.toNat ≤ 0x1C →
        ∃ t, exec (.rdsrS a n) s = .next t ∧ SeqWrote s t u q a.num (srCtl q.ctl n.toNat)) ∧
      (∀ tk tm, u = .team tk → s.team? tk = some tm → n.toNat < 0x18 ∨ 0x1C < n.toNat →
        ∃ t, exec (.rdsrS a n) s = .next t ∧ SeqWrote
          (if n.toNat = 0x20 then s.updCore (coreOfTeam tk) fun c => { c with refused := 0 } else s)
          t u q a.num (srTeam s tm (coreOfTeam tk) n.toNat))) ∧
  (∀ (s : State) (k : Nat) (x : GCtx) (b : VReg) (n : BitVec 7),
    (Instr.wrsrV b n).wf = true → Issues s k x (.wrsrV b n) →
      ∃ t g', exec (.wrsrV b n) s = .next t ∧ Issued s t k x.g g' s.nextPc 0 ∧ RegsSame x.g (g'.settled x.g) ∧
        ∀ l, g'.genAfter l 0 = if l ∈ (IX.of s x).lanes then
            (if x.g.vreg l b.toNat = 0 then 1 else x.g.vreg l b.toNat)
          else x.g.genAfter l 0) ∧
  (∀ (s : State) (k : Nat) (x : GCtx) (b : SReg) (n : BitVec 7),
    (Instr.wrsrS b n).wf = true → Issues s k x (.wrsrS b n) →
      ∃ t g', exec (.wrsrS b n) s = .next t ∧ t.group? k = some g' ∧ g'.ctl.pc = s.nextPc ∧ RegsSame x.g (g'.settled x.g) ∧
        g'.fstat = (if n.toNat = 0x14 then x.rd b &&& 31 else x.g.fstat) ∧
        (∀ j, t.team? j = if j = x.g.team ∧ n.toNat = 0x21 then some { x.t with bellto := x.rd b &&& 0xFFFFFF } else s.team? j) ∧
        (∀ j, j ≠ k → t.group? j = s.group? j) ∧ t.cores = s.cores ∧ t.mem = s.mem)

/-! ### Mapping and TLBs (R394, R401, R402) -/

/-- R401: MAPF in the supervisor handler: its status by where the walk ends; a first-touch entry takes the pool's first
frame with V = 1 and FT = 0, as CAS.ACQREL.DEV changes a word, after the group's release at .DEV. R402, R349: TLBI leaves no
translation of the address, or of the context, holds the group's later accesses, and completes when the invalidation that it
starts does. -/
def Obligations.MappingAndTlbs : Prop :=
  (∀ (s : State) (k : Nat) (x : GCtx) (a : SIdx) (b : SReg), Issues s k x (.mapf a b) →
    let va := (x.rd b).toNat
    let done (st : W64) (t : State) : Prop :=
      ∃ g', t.group? k = some g' ∧ g'.ctl.pc = s.nextPc ∧ ScalarIs x.g (g'.settled x.g) a.toNat st
    (2 ^ 55 ≤ va → ∃ t, exec (.mapf a b) s = .next t ∧ done 3 t ∧ t.mem = s.mem ∧ t.vfs = s.vfs) ∧
    (va < 2 ^ 55 →
      (∀ e big h f o, walkVa s x.gr.asid va = .leaf e big h f o →
        ∃ t, exec (.mapf a b) s = .next t ∧ done 1 t ∧ t.mem = s.mem ∧ t.vfs = s.vfs) ∧
      (∀ ea, walkVa s x.gr.asid va = .malformed ∨ walkVa s x.gr.asid va = .invalid false ea →
        ∃ t, exec (.mapf a b) s = .next t ∧ done 3 t ∧ t.mem = s.mem ∧ t.vfs = s.vfs) ∧
      (∀ l ipa, walkVa s x.gr.asid va = .stage2 l ipa → ∃ t, exec (.mapf a b) s = .next t ∧ done 4 t) ∧
      (∀ ea ea' c v, walkVa s x.gr.asid va = .invalid true ea →
        let s1 := releaseAt s (coreOfGroup k) x.gr.vf .dev
        walkVa s1 x.gr.asid va = .invalid true ea' → s.ctxs.get? x.gr.asid = some c → s.vfs.get? c.vf = some v →
        (v.pool = [] → ∃ t, exec (.mapf a b) s = .next t ∧ done 2 t ∧ t.vfs = s.vfs) ∧
        (∀ f fs, v.pool = f :: fs →
          ∃ t, exec (.mapf a b) s = .next t ∧ done 0 t ∧ t.vfs.get? c.vf = some { v with pool := fs }) ∧
        (∀ f fs, v.pool = f :: fs → s.dirs = [] → isRemote ea = false → (s.coreD (coreOfGroup k)).l1 = [] →
          ∃ t, exec (.mapf a b) s = .next t ∧
            let e := s.home64 ea
            let new := le64 (memRead t.mem ea 8)
            new.getLsbD 0 = true ∧ new.getLsbD 7 = false ∧ new.extractLsb' 16 36 = BitVec.ofNat 36 f ∧
            new.extractLsb' 1 6 = e.extractLsb' 1 6 ∧ new.extractLsb' 8 8 = e.extractLsb' 8 8 ∧
            new.extractLsb' 52 12 = e.extractLsb' 52 12 ∧
            ∀ p, p < ea ∨ ea + 8 ≤ p → memGet t.mem p = memGet s.mem p)))) ∧
  (∀ (s : State) (k : Nat) (x : GCtx) (i : Instr) (all : Bool) (va : W64),
    (all = true ∧ i = .tlbiCtx ∨ all = false ∧ ∃ b, i = .tlbiPage b ∧ va = x.rd b) → Issues s k x i →
      ∃ t g' v, exec i s = .next t ∧ MemIssued s t k x.g g' ∧ RegsSame x.g (g'.settled x.g) ∧ t.mem = s.mem ∧
        g'.hold = some x.g.nextFlight ∧ t.invals = s.invals ++ [v] ∧ v.done = .flight k x.g.nextFlight ∧
        v.of = (if all then .ctx x.gr.asid else .page x.gr.asid va.toNat) ∧ (∀ w ∈ t.walk, w.1 ≠ x.gr.asid) ∧
        ∀ c co, t.cores.get? c = some co → ∀ e, e ∈ co.tlb ∨ e ∈ co.wtlb → e.asid = x.gr.asid →
          all = false ∧ (if e.big ∨ e.half then e.vpn * pageBytes e.big / 2 ^ 29 ≠ va.toNat / 2 ^ 29
            else e.vpn ≠ va.toNat / 65536)) ∧
  (∀ (s : State) (v : Inval) (k fl : Nat) (g : Group), v.done = .flight k fl → s.group? k = some g → s.queuesOf = [] →
    (endInval s v).group? k = some { g with
      flights := g.flights.map fun f => if f.id = fl then { f with writes := f.writes ++ [], wait := f.wait - 1 } else f })

/-! ### Bells, hamlets and deliveries (R295, R296, R298, R299, R331 to R336) -/

/-- R333. -/
def Sys2Proof.Machine.reached (a c : W32) : Prop := (a - c).toNat < 2 ^ 31

/-- A group waits in an instruction at its slot: nothing else of it changes but its flight and what issue leaves (R35). -/
def Sys2Proof.Machine.WaitsIn (s t : State) (k : Nat) (x : GCtx) (w : Waiting) : Prop :=
  ∃ g', t.group? k = some g' ∧ g'.st = .waiting w ∧ g'.ctl = { x.g.ctl with pc := s.iss.fpc } ∧ RegsSame x.g g' ∧
    g'.run = x.g.run ∧ g'.live = x.g.live ∧ (∀ j, j ≠ k → t.group? j = s.group? j) ∧ t.teams = s.teams ∧ t.cores = s.cores ∧
    t.mem = s.mem

/-- A waiting instruction of a group completes: its results join its flight, and the group runs on at the next slot. -/
def Sys2Proof.Machine.WaitEnds (s t : State) (k fl : Nat) (g : Group) (ws : List RegW) : Prop :=
  ∃ g', t.group? k = some g' ∧ g'.st = .running ∧ g'.ctl = { g.ctl with pc := nextSlot g.ctl.pc } ∧ RegsSame g g' ∧
    g'.flights = (g.flights.map fun f => if f.id = fl then { f with writes := f.writes ++ ws, wait := f.wait - 1 } else f) ∧
    (∀ j, j ≠ k → t.group? j = s.group? j) ∧ t.teams = s.teams ∧ t.mem = s.mem

/-- R331 to R336: RING travels as a release at .DEV to its counter's home, which adds, keeps the new round, gives it to sA and
sends it to every view table of the context; where none is told the RING completes there. A core takes a round that is not
behind its view; the last acknowledgement completes the RING. BELLR reads the core's view; BELLW goes on once the view has reached its target. -/
def Obligations.Bells : Prop :=
  (∀ (s : State) (k : Nat) (x : GCtx) (a : SIdx) (b : SReg) (n : BitVec 6) (c : Ctx), Issues s k x (.ring a b n) →
    s.ctxs.get? x.gr.asid = some c →
      ∃ t g' p o, exec (.ring a b n) s = .next t ∧ MemIssued s t k x.g g' ∧ RegsSame x.g g' ∧ g'.rels = x.g.rels ++ [p] ∧
        (∃ f, g'.flights.getLast? = some f ∧ f.id = x.g.nextFlight ∧ f.pendS = [a.toNat] ∧ f.wait = 1 ∧ f.writes = []) ∧
        p.flight = x.g.nextFlight ∧ p.scope = .dev ∧ p.rel = true ∧ p.ops = [o] ∧ p.stores = [] ∧ p.acts = [] ∧
        o.act = .ring x.gr.asid n.toNat ((x.rd b).extractLsb' 0 32) ∧
        o.grain = (c.bellBase + 4 * n.toNat) / 32 * 32 ∧ o.grp = k ∧ o.flight = x.g.nextFlight) ∧
  (∀ (s : State) (o : HomeOp) (asid bell : Nat) (d : W32) (c : Ctx), o.act = .ring asid bell d → s.ctxs.get? asid = some c →
    o.grain = (c.bellBase + 4 * bell) / 32 * 32 → isRemote (c.bellBase + 4 * bell) = false →
    s.fab.timeFrame ≠ some (frameOf (c.bellBase + 4 * bell)) → Untracked s o.grain → o.acq = none → o.rel = none →
      let r := c.bells.getD bell 0 + d
      let told := if d = 0 then [] else s.cores.keys.filter fun k => ((s.coreD k).views.get? asid).isSome
      ∃ t, exec (.homeExecutedOperation o) s = .next t ∧ t.ctxs.get? asid = some { c with bells := c.bells.put 0 bell r } ∧
        wordAt t (c.bellBase + 4 * bell) 4 = r ∧
        t.agenda = s.agenda ++ told.map (fun k => .roundBroadcast k asid bell r o.grp o.flight) ∧
        ∀ g f a, s.group? o.grp = some g → g.flights = [f] → f.id = o.flight → f.pendS = [a] →
          t.group? o.grp = some { g with flights := [{ f with
            writes := f.writes ++ [.s a (r.zeroExtend 64)]
            wait := if told = [] then f.wait - 1 else f.wait }] } ∧
          t.ringWaits = s.ringWaits ++ (if told = [] then [] else [⟨o.grp, o.flight, told.length⟩])) ∧
  (∀ (s : State) (core asid bell : Nat) (r : W32) (grp fl : Nat) (c : Core), s.cores.get? core = some c →
    (c.views.get? asid).isSome = true →
      ∃ t, exec (.roundBroadcast core asid bell r grp fl) s = .next t ∧ t.groups = s.groups ∧ t.mem = s.mem ∧
        (reached r (c.view asid bell) → (t.coreD core).view asid bell = r) ∧
        (¬ reached r (c.view asid bell) → (t.coreD core).view asid bell = c.view asid bell) ∧
        t.agenda = s.agenda ++ [.viewAcknowledge core grp fl]) ∧
  (∀ (s : State) (core grp fl n : Nat) (g : Group), s.ringWaits = [⟨grp, fl, n + 1⟩] → s.group? grp = some g →
    (n = 0 → ∃ t, exec (.viewAcknowledge core grp fl) s = .next t ∧ t.ringWaits = [] ∧
      t.group? grp = some { g with
        flights := g.flights.map fun f => if f.id = fl then { f with writes := f.writes ++ [], wait := f.wait - 1 } else f }) ∧
    (n ≠ 0 → exec (.viewAcknowledge core grp fl) s = .next { s with ringWaits := [⟨grp, fl, n⟩] })) ∧
  (∀ (s : State) (k : Nat) (x : GCtx) (a : SIdx) (n : BitVec 6), Issues s k x (.bellr a n) →
    ∃ t g', exec (.bellr a n) s = .next t ∧ Issued s t k x.g g' s.nextPc 0 ∧
      ScalarIs x.g (g'.settled x.g) a.toNat (((s.coreD (coreOfGroup k)).view x.gr.asid n.toNat).zeroExtend 64)) ∧
  (∀ (s : State) (k : Nat) (x : GCtx) (b : SReg) (n : BitVec 6), Issues s k x (.bellw b n) →
    let goal : W32 := (x.rd b).extractLsb' 0 32
    let view := (s.coreD (coreOfGroup k)).view x.gr.asid n.toNat
    (reached view goal → ∃ t g', exec (.bellw b n) s = .next t ∧ Issued s t k x.g g' s.nextPc 0 ∧
      RegsSame x.g (g'.settled x.g)) ∧
    (¬ reached view goal → ∃ t, exec (.bellw b n) s = .next t ∧ WaitsIn s t k x (.bellw n.toNat goal x.g.nextFlight))) ∧
  (∀ (s : State) (k : Nat) (x : GCtx) (n fl : Nat) (goal : W32), s.gctx k = some x → x.g.st = .waiting (.bellw n goal fl) →
    (reached ((s.coreD (coreOfGroup k)).view x.gr.asid n) goal →
      ∃ t, exec (.bellwComplete k) s = .next t ∧ WaitEnds s t k fl x.g []) ∧
    (¬ reached ((s.coreD (coreOfGroup k)).view x.gr.asid n) goal → exec (.bellwComplete k) s = .next s))

/-- R295, R296: HAMSET keeps the bits that name a core of the partition in the cluster (a core whose teams are saved keeps its
number meanwhile: the model's choice, assumption 93), HAMAND combines two hamlets; only the team's hamlet changes. R298, R299: a DLV whose lanes are aligned and translate issues as a store does, and sends one
operation for each grain with its lanes' data, the cores of its hamlet and its view of the page's bell, where the hamlet names
a core and the page is no window; at the home its lanes are written, every core of the hamlet is recorded (as a pointer with its
DEL bit while pointers last), and the whole grain goes to every core of the hamlet in one multicast packet (R290), which enters
the mesh at the home's router or the cluster's entry router (which router that is is the model's choice, assumption 85). -/
def Obligations.HamletsAndDeliveries : Prop :=
  (∀ (s : State) (k : Nat) (x : GCtx) (a : HReg) (b c : SReg), Issues s k x (.hamset a b c) →
    ∃ t g' h, exec (.hamset a b c) s = .next t ∧ Issued { s with teams := t.teams } t k x.g g' s.nextPc 0 ∧
      RegsSame x.g (g'.settled x.g) ∧
      (∀ j, t.team? j = if j = x.g.team then some { x.t with ham := x.t.ham.put 0 a.toNat h } else s.team? j) ∧
      ∀ i, i < 128 → (h.getLsbD i = true ↔ (x.rd c ++ x.rd b).getLsbD i = true ∧
        ((clusterCore s (coreOfGroup k) x.gr.vf i).isSome = true ∨ ∃ p ∈ s.saved, p.2.vf = x.gr.vf ∧
          p.2.core / 128 = coreOfGroup k / 128 ∧ p.2.vcore % 128 = i))) ∧
  (∀ (s : State) (k : Nat) (x : GCtx) (a b c : HReg), Issues s k x (.hamand a b c) →
    ∃ t g', exec (.hamand a b c) s = .next t ∧ Issued { s with teams := t.teams } t k x.g g' s.nextPc 0 ∧
      RegsSame x.g (g'.settled x.g) ∧
      ∀ j, t.team? j = if j = x.g.team
        then some { x.t with ham := x.t.ham.put 0 a.toNat (x.t.ham.getD b.toNat 0 &&& x.t.ham.getD c.toNat 0) }
        else s.team? j) ∧
  (∀ (s : State) (k : Nat) (x : GCtx) (y : MType) (a b : VReg) (h : HReg), Issues s k x (.dlv y a b h) →
    (∀ l ∈ (IX.of s x).lanes, (x.g.vpair l b.toNat).toNat % mtypeSize y = 0 ∧
      ∃ z, laneXlat s x .wr false (x.g.vpair l b.toNat) = .ok z) →
      ∃ t g', exec (.dlv y a b h) s = .next t ∧ MemIssued s t k x.g g' ∧ RegsSame x.g g') ∧
  (∀ (s : State) (k : Nat) (x : GCtx) (y : MType) (a b : VReg) (h : HReg) (z : Nat → Xlat), Issues s k x (.dlv y a b h) →
    (Instr.dlv y a b h).wf = true →
    (∀ l ∈ (IX.of s x).lanes, (x.g.vpair l b.toNat).toNat % mtypeSize y = 0 ∧
      laneXlat s x .wr false (x.g.vpair l b.toNat) = .ok (z l)) →
      let cores := hamletCores s (coreOfGroup k) x.gr.vf (x.t.ham.getD h.toNat 0)
      let home (l : Nat) : Bool := (z l).prot != .w && (!cores.isEmpty || (z l).prot == .n)
      ∃ t g' ops, exec (.dlv y a b h) s = .next t ∧ t.group? k = some g' ∧
        OpsFor x ops ((IX.of s x).lanes.filter home) (fun l => x.g.vpair l b.toNat) z (mtypeSize y) (some a) none ∧
        (∀ o ∈ ops, o.acq = none ∧ ∃ bell, (∃ l ∈ (IX.of s x).lanes, bell = (z l).bell) ∧
          o.act = .dlv cores ((s.coreD (coreOfGroup k)).view x.gr.asid bell)) ∧
        (g'.rels = x.g.rels ++ [⟨x.g.nextFlight, .grp, false, [], ops, []⟩] ∨
          g'.rels = x.g.rels ∧ (ops.map Instr.homeExecutedOperation).Sublist t.agenda ∧
            ((∀ o ∈ ops, isRemote o.grain = false) → ops.map Instr.homeExecutedOperation <:+ t.agenda))) ∧
  (∀ (s : State) (o : HomeOp) (cores : List Nat) (r : W32) (g : Group), o.act = .dlv cores r → Untracked s o.grain →
    o.acq = none → o.rel = none → cores ≠ [] → (s.coreD o.core).grainSt o.grain = none → s.group? o.grp = some g →
      ∃ t, exec (.homeExecutedOperation o) s = .next t ∧ t.mem = (runLanes s o.act o.lanes).1.mem ∧ t.cores = s.cores ∧
        (windowOf s o.attr.asid o.grain = none → o.attr.cached = true → ∃ d, t.dirs.get? o.grain = some d ∧ d.st = .shd ∧
          ∀ c ∈ cores, (c, true) ∈ d.ptrs ∨ c / 128 ∈ d.clbits) ∧
        (o.attr.cached = false → t.dirs.get? o.grain = none) ∧
        t.dlvs = s.dlvs ++ [⟨o.grp, o.flight, o.grain, cores⟩] ∧
        t.agenda = s.agenda ++ [.multicastPacket (entryRouter s (o.core / 128) o.grain) ⟨.source, cores⟩
          (.dlv o.grain o.gsize o.attr r o.grp o.flight) (if o.attr.cached then t.homeRead o.grain o.gsize else []) []])

/-! ### Barriers (R260 to R264, R270) -/

/-- R261: the phase of an object may complete. -/
def Sys2Proof.Machine.phaseDone (b : Bar) : Prop := b.pending = 0 ∧ b.inbound = 0 ∧ b.outbound = 0 ∧ b.poison = false

/-- R261: a phase completes. -/
def Sys2Proof.Machine.nextPhase (b : Bar) : Bar :=
  let m := min b.carry b.expect
  { b with gen := (b.gen + 1) % 16, pending := b.expect - m, carry := b.carry - m }

/-- R260: the object at an offset of a team's scratchpad. -/
def Sys2Proof.Machine.barAt (s : State) (tk off : Nat) : Option Bar := (s.team? tk).map (·.bar off)

/-- Only the object at an offset of the group's team changes, to `b`; the group issues as R263 says. -/
def Sys2Proof.Machine.BarDone (s t : State) (k : Nat) (x : GCtx) (off : Nat) (b : Bar) : Prop :=
  ∃ g', Issued { s with teams := t.teams, agenda := t.agenda } t k x.g g' s.nextPc 0 ∧ RegsSame x.g (g'.settled x.g) ∧
    barAt t x.g.team off = some b ∧ (∀ j, j ≠ x.g.team → t.team? j = s.team? j) ∧
    ∀ tm, t.team? x.g.team = some tm → ∀ p, p < off ∨ off + 16 ≤ p → tm.sp.getD p 0 = x.t.sp.getD p 0

/-- The barrier instructions, with the registers of their offset and of their second operand. -/
def Sys2Proof.Machine.barOperands : Instr → Option (SReg × Option SReg)
  | .binit b c | .bexp b c | .bwait b c | .btest _ b c => some (b, some c)
  | .barv _ b _ => some (b, none)
  | _ => none

/-- R260: the fields of a barrier object. R261: the test after a change. R262: the faults of the barrier instructions.
R263, R264: their effects, and the waits that they end. Where EXPECT is 0 the generations are free values (assumption 6). -/
def Obligations.Barriers : Prop :=
  (∀ (t : Team) (off : Nat), (∀ p, t.sp.getD p 0 = 0) → t.bar off = ⟨0, false, 0, 0, 0, 0, 0⟩) ∧
  (∀ (t : Team) (off : Nat) (b : Bar), b.gen < 16 → b.carry < 2 ^ 16 → b.pending < 2 ^ 16 → b.expect < 2 ^ 16 →
    let w := leNat ((List.range 16).map fun i => (t.putBar off b).sp.getD (off + i) 0)
    bitsOf w 3 0 = b.gen ∧ bitsOf w 4 4 = (if b.poison then 1 else 0) ∧ bitsOf w 15 5 = 0 ∧ bitsOf w 31 16 = b.carry ∧
      bitsOf w 47 32 = b.pending ∧ bitsOf w 63 48 = b.expect ∧ bitsOf w 95 64 = b.outbound.toNat ∧
      bitsOf w 127 96 = b.inbound.toNat ∧ (t.putBar off b).bar off = b) ∧
  (∀ b : Bar, (¬ phaseDone b → b.test = b) ∧
    (phaseDone b → b.expect ≠ 0 → b.test = (nextPhase b).test) ∧
    (phaseDone b → b.expect = 0 → ∃ n, b.test = { b with gen := n % 16 })) ∧
  (∀ (s : State) (k : Nat) (x : GCtx) (i : Instr) (b : SReg) (c : Option SReg), barOperands i = some (b, c) → i.wf = true →
    Issues s k x i →
      let off := (x.rd b).toNat % 2 ^ 32
      let n := match c with | some r => (x.rd r).toNat % 2 ^ 16 | none => 1
      ((∃ b c, i = .binit b c) → n = 0 → exec i s = .next (takeFault s (.group k) (trap cIllegal))) ∧
      (((∃ b c, i = .binit b c) → n ≠ 0) → off % 16 ≠ 0 →
        exec i s = .next (takeFault s (.group k) (trap cAlign 0 (BitVec.ofNat 64 off)))) ∧
      (((∃ b c, i = .binit b c) → n ≠ 0) → off % 16 = 0 → 16 * x.gr.kcb.nbar ≤ off →
        exec i s = .next (takeFault s (.group k) (trap cScratch 0 (BitVec.ofNat 64 off))))) ∧
  (∀ (s : State) (k : Nat) (x : GCtx) (b c : SReg),
    let off := (x.rd b).toNat % 2 ^ 32
    let o := x.t.bar off
    off % 16 = 0 → off < 16 * x.gr.kcb.nbar →
      (∀ n, Issues s k x (.binit b c) → n = (x.rd c).toNat % 2 ^ 16 → n ≠ 0 →
        ∃ t, exec (.binit b c) s = .next t ∧ BarDone s t k x off ⟨o.gen, false, 0, n, n, 0, 0⟩ ∧
          ∀ tm, t.team? x.g.team = some tm → tm.barRec.has (off / 16) = false) ∧
      (Issues s k x (.bexp b c) → ∃ t, exec (.bexp b c) s = .next t ∧
        BarDone s t k x off ({ o with inbound := o.inbound + (x.rd c).extractLsb' 0 32 } : Bar).test) ∧
      (∀ a, Issues s k x (.btest a b c) → ∃ t g', exec (.btest a b c) s = .next t ∧ Issued s t k x.g g' s.nextPc 0 ∧
        ScalarIs x.g (g'.settled x.g) a.toNat
          ((if o.gen ≠ (x.rd c).toNat % 16 then 1 else 0) + (if o.poison then 2 else 0))) ∧
      (Issues s k x (.bwait b c) →
        (o.poison = true → exec (.bwait b c) s = .next (takeFault s (.group k)
          (trap cCopy (x.t.barRec.getD (off / 16) (0, 0)).2 (x.t.barRec.getD (off / 16) (0, 0)).1))) ∧
        (o.poison = false → o.gen ≠ (x.rd c).toNat % 16 → ∃ t g', exec (.bwait b c) s = .next t ∧
          Issued s t k x.g g' s.nextPc 0 ∧ RegsSame x.g (g'.settled x.g)) ∧
        (o.poison = false → o.gen = (x.rd c).toNat % 16 → ∃ t, exec (.bwait b c) s = .next t ∧
          WaitsIn s t k x (.bwait off o.gen x.g.nextFlight))) ∧
      (∀ a n, Issues s k x (.barv a b n) → n ≠ 0 → ∃ t g' p, exec (.barv a b n) s = .next t ∧ MemIssued s t k x.g g' ∧
        RegsSame x.g g' ∧ g'.rels = x.g.rels ++ [p] ∧ p = ⟨x.g.nextFlight, .team, true, [], [], [.barv off n.toNat a.toNat]⟩)) ∧
  (∀ (s : State) (k : Nat) (x : GCtx) (f : Flight) (off n d : Nat), s.gctx k = some x →
    x.g.rels = [⟨f.id, .team, true, [], [], [.barv off n d]⟩] → x.g.flights = [f] →
      let o := x.t.bar off
      let rest := n - min n o.pending
      (0xFFFF < o.carry + rest → exec (.barvCarryRoom k) s = .next s) ∧
      (o.carry + rest ≤ 0xFFFF → ∃ t g', exec (.barvCarryRoom k) s = .next t ∧ t.group? k = some g' ∧ g'.rels = [] ∧
        barAt t x.g.team off = some ({ o with pending := o.pending - min n o.pending, carry := o.carry + rest } : Bar).test ∧
        ∃ first, g'.flights = [{ f with wait := f.wait - 1, writes := f.writes ++ [.s d (BitVec.ofNat 64 first)] }] ∧
          first < 16 ∧ (o.pending ≠ 0 → first = o.gen % 16) ∧
          (o.pending = 0 → o.expect ≠ 0 → first = (o.gen + 1 + o.carry / o.expect) % 16))) ∧
  (∀ (s : State) (k : Nat) (x : GCtx) (off gen fl : Nat), s.gctx k = some x → x.g.st = .waiting (.bwait off gen fl) →
    let o := x.t.bar off
    (o.poison = true → ∃ t g', exec (.bwaitComplete k) s = .next t ∧ t.group? k = some g' ∧ g'.st = .stopped .debug ∧
      g'.ctl.fcause.extractLsb' 0 8 = 0x0F ∧ g'.ctl.faddr = (x.t.barRec.getD (off / 16) (0, 0)).1 ∧
      g'.ctl.pc = x.g.ctl.pc ∧ RegsSame x.g g') ∧
    (o.poison = false → o.gen ≠ gen → ∃ t, exec (.bwaitComplete k) s = .next t ∧ WaitEnds s t k fl x.g []) ∧
    (o.poison = false → o.gen = gen → exec (.bwaitComplete k) s = .next s))

/-! ### Feeds (R272 to R277) -/

/-- R273: the offset of a buffer's first byte in its window. -/
def Sys2Proof.Machine.bufferOffset (feed buf : Nat) : W64 :=
  (1 : BitVec 33) ++ (BitVec.ofNat 3 feed ++ (BitVec.ofNat 4 buf ++ (0 : BitVec 24)))

/-- The ring takes the next buffer of one of its two ends. -/
def Sys2Proof.Machine.RingTook (t : State) (r : Ring) (get : Bool) : Prop :=
  t.ring? r.id = some (if get then { r with bufs := r.bufs.set r.get .filling, get := (r.get + 1) % r.bufs.length }
    else { r with bufs := r.bufs.set r.pop .draining, pop := (r.pop + 1) % r.bufs.length })

/-- R274 to R277: FEEDGET takes the next free buffer of the outbound ring and FEEDPOP the next full one of the inbound ring,
at once or after a wait, behind the requests that came before it; FEEDPOP gives all ones at the end of the stream, and FEEDGET faults once its consumer has retired.
FEEDPUT and FEEDREL are releases at .TEAM that then fill or free the buffer that their offset names; a buffer that one of them
of the team already names is not given twice, and an offset that names no window is a feed-state fault as another feed's is (the
latter the model's choice, assumption 93). -/
def Obligations.Feeds : Prop :=
  (∀ (s : State) (k : Nat) (x : GCtx) (a : SIdx) (f : FReg) (get : Bool) (i : Instr),
    i = (if get then .feedget a f else .feedpop a f) → Issues s k x i →
      (ringFor s x f.toNat get = none → exec i s = .next (takeFault s (.group k) (trap cFeed))) ∧
      ∀ r, ringFor s x f.toNat get = some r →
        let stream := get = false ∧ stageTeam s r.id r.stage = none ∧ ∀ b ∈ r.bufs, b ≠ .filling ∧ b ≠ .full
        let gone := get = true ∧ stageTeam s r.id (r.stage + 1) = none
        let first := (if get then r.getQ else r.popQ) = []
        let ready := if get then r.bufs[r.get]? = some .free else r.bufs[r.pop]? = some .full
        (gone → exec i s = .next (takeFault s (.group k) (trap cFeed))) ∧
        (¬ gone → first → ready → ∃ t g', exec i s = .next t ∧
          Issued { s with rings := t.rings, agenda := s.agenda ++ [.completionEvent k x.g.nextFlight] } t k x.g g' s.nextPc 0 ∧
          RingTook t r get ∧
          ScalarIs x.g (g'.settled x.g) a.toNat (bufferOffset r.feed (if get then r.get else r.pop))) ∧
        (first → ¬ ready → stream → ∃ t g', exec i s = .next t ∧
          Issued { s with agenda := s.agenda ++ [.completionEvent k x.g.nextFlight] } t k x.g g' s.nextPc 0 ∧
          ScalarIs x.g (g'.settled x.g) a.toNat (BitVec.allOnes 64)) ∧
        (¬ gone → ¬ first ∨ ¬ ready ∧ ¬ stream → ∃ t, exec i s = .next t ∧ t.ring? r.id = some (r.enqueue get k) ∧
          WaitsIn s t k x (if get then .feedget f.toNat a.toNat x.g.nextFlight else .feedpop f.toNat a.toNat x.g.nextFlight))) ∧
  (∀ (s : State) (k : Nat) (x : GCtx) (f : FReg) (c : SReg) (put : Bool) (i : Instr),
    i = (if put then .feedput f c else .feedrel f c) → Issues s k x i →
      let o := (x.rd c).toNat % 2 ^ 32
      (ringFor s x f.toNat put = none → exec i s = .next (takeFault s (.group k) (trap cFeed))) ∧
      ∀ r, ringFor s x f.toNat put = some r →
        let good := 2 ^ 31 ≤ o ∧ winFeed o = r.feed ∧ r.bufs[winBuf o]? = some (if put then .filling else .draining) ∧
          ∀ n ∈ s.groupsOfTeam x.g.team, ∀ g, s.group? n = some g → ∀ p ∈ g.rels, .feed put r.feed (winBuf o) ∉ p.acts
        (¬ good → exec i s = .next (takeFault s (.group k) (trap cFeed))) ∧
        (good → ∃ t g', exec i s = .next t ∧ MemIssued s t k x.g g' ∧ RegsSame x.g g' ∧ t.rings = s.rings ∧
          g'.rels = x.g.rels ++ [⟨x.g.nextFlight, .team, true, [], [], [.feed put r.feed (winBuf o)]⟩])) ∧
  (∀ (s : State) (x : GCtx) (put : Bool) (feed buf : Nat) (r : Ring), ringFor s x feed put = some r →
    (r.bufs[buf]? = some (if put then .filling else .draining) →
      (giveBuffer s x put feed buf).ring? r.id = some { r with bufs := r.bufs.set buf (if put then .full else .free) }) ∧
    (r.bufs[buf]? ≠ some (if put then .filling else .draining) → giveBuffer s x put feed buf = s)) ∧
  (∀ (s : State) (k : Nat) (x : GCtx) (feed d fl : Nat) (r : Ring) (get : Bool), s.gctx k = some x →
    x.g.st = .waiting (if get then .feedget feed d fl else .feedpop feed d fl) → ringFor s x feed get = some r →
    (get = true → stageTeam s r.id (r.stage + 1) ≠ none) →
    (if get then r.getQ else r.popQ).head? = some k →
    (if get then r.bufs[r.get]? = some .free else r.bufs[r.pop]? = some .full) →
      ∃ t, exec (.feedBufferReady k) s = .next t ∧ RingTook t (r.unqueue k) get ∧
        WaitEnds s t k fl x.g [.s d (bufferOffset r.feed (if get then r.get else r.pop))])

/-! ### Decoding and the step (R60 to R67, R74 to R79, R92, R93) -/

/-- R74 to R92: every instruction word of the tables is read back as its instruction, with every operand at every value that
its encoding admits. -/
def Obligations.EncodedWordsDecode : Prop :=
  ∀ i : Instr, i.wf = true → decode (encode i) = .instr i

/-- R74, R75, R92: a word that decodes to an instruction is that instruction's only word; the zero word, OP 0x7FF and OP 0x7FE
are no instructions; and words written out from the tables are the instructions they stand for. -/
def Obligations.DecodedWords : Prop :=
  (∀ w i, decode w = .instr i → i.wf = true ∧ encode i = w) ∧
  decode 0 = .illegal .zeroWord ∧
  (∀ w : W32, w.extractLsb' 21 11 = 0x7FF → decode w = .illegal .opReserved) ∧
  (∀ w : W32, w.extractLsb' 21 11 = 0x7FE → decode w = .prefixWord) ∧
  decode 0x00A00000 = .instr (.nop .g) ∧
  decode 0x01A13FFD = .instr (.brNz .g (.s 4) 0x3FFD) ∧
  decode 0x24404007 = .instr (.smovi (.s 1) 7) ∧
  decode 0x40410103 = .instr (.iadd .w8 4 2 (.v 3)) ∧
  decode 0x68808303 = .instr (.icmp .gt false .w32 2 6 (.s (.s 3))) ∧
  decode 0x8001C20A = .instr (.fadd 7 4 (.v 10)) ∧
  decode 0xA7020100 = .instr (.red .fadd 8 2) ∧
  decode 0xC2028100 = .instr (.ld .b32 10 2 (.imm 0)) ∧
  decode 0xC2850305 = .instr (.ld .b64 20 6 (.imm 5)) ∧
  decode 0xEE050A80 = .instr (.mapf 20 (.s 21)) ∧
  decode 0xEC802200 = .instr (.launchT (.k 4))

/-- A slot's instruction, with the pace fields of its sheaf and the class of its word (R74), issued by group `k` at `pc`. -/
def Sys2Proof.Machine.issueRecord (k : Nat) (paced : Bool) (pc : W64) (pace w : W32) : Issue :=
  let n := (pc &&& 15).toNat / 4
  ⟨.group k, pc, pc, none, paceSetf pace n, paced && paceDefect pace n false, (w.extractLsb' 29 3).toNat⟩

/-- Group `k` stands at a slot inside its run, and nothing else of it happens first. -/
structure Sys2Proof.Machine.AtSlot (s : State) (k : Nat) (x : GCtx) : Prop where
  first : s.agenda = [] ∧ s.inputs = []
  ctx : s.gctx k = some x
  running : x.g.st = .running ∧ x.g.stopReq = .none ∧ x.g.sframe = none
  inRun : ∃ r, x.g.run = some r ∧ x.g.ctl.pc ≠ r.end_
  inCode : codeOk x.gr.kcb x.g.ctl.pc
  flights : ∀ f ∈ x.g.flights, f.wait = 0 → ∀ d, f.due = some d → s.clk < d
  rels : x.g.rels = []
  served : (∀ o ∈ x.g.banks, servedNow s o = []) ∧ remotesDue s x.g = []
  loads : ∀ w ∈ (s.coreD (coreOfGroup k)).ldbWaits, w.grp ≠ k
  free : ∀ w ∈ s.s2waits, w.unit ≠ .group k

/-- R212, R213: a slot of a group may issue: its pace and what it waits for let it, its quadrant has a place in this clk, and no
ready group of the quadrant comes before it. -/
def Sys2Proof.Machine.Issuable (s : State) (k : Nat) (x : GCtx) (i : Instr) (iss : Issue) (pace : W32) (n : Nat) : Prop :=
  let slot : Slot := ⟨i, iss, paceDist pace n, if paceWslot pace = n then paceWait pace else 0⟩
  slotReady s x slot = .yes ∧ quadAdmits s x iss.cls = true ∧ isNext s k x.g = true

/-- R60, R63, R64, R79, R98: a step of the scheduled unit. A group at a slot whose word decodes to an instruction, and which may
issue, executes that instruction with the slot's pace fields; a prefix is executed with the next slot; a word that is no
instruction is the step of an illegal one. A team or grid sequencer that has reached a slot of its own scope, with its vote
taken, executes that slot. The fetch leaves its translation in the TLB and the walk caches and nothing else (R399). An event
that is due at once happens first, then what the schedule names (a message on its way, where it may arrive), then the first
message, then an event from outside; the order among messages and units is open in the spec and the schedule's in the model
(assumption 7). The last clause, that a fetched word is made of the bytes at the home where no directory entry and no poison
stand, whatever any L1 holds, is the model's choice (assumption 34): R396 does not say from which cache a fetch is served. -/
def Obligations.StepRunsDecoded : Prop :=
  (∀ (s : State) (k : Nat) (x : GCtx) (w pace : W32) (i : Instr), AtSlot s k x →
    let pc := x.g.ctl.pc
    let iss := issueRecord k x.gr.kcb.paced pc pace w
    fetchWord s (.group k) pc = .word w → fetchWord s (.group k) (sheafBase pc) = .word pace → decode w = .instr i →
    Issuable s k x i iss pace ((pc &&& 15).toNat / 4) →
      step { s with sched := .unit (.group k) :: s.sched } = exec i { fetchFill s (.group k) pc with iss := iss }) ∧
  (∀ (s : State) (k : Nat) (x : GCtx) (w w2 pace : W32) (i : Instr), AtSlot s k x →
    let pc := x.g.ctl.pc
    let n := (pc &&& 15).toNat / 4
    let p : Prefix := ⟨w.extractLsb' 17 4, w.extractLsb' 14 3, w.getLsbD 13, w.extractLsb' 6 7, w.extractLsb' 0 6⟩
    let iss : Issue := ⟨.group k, pc, pc + 4, some p, paceSetf pace (n + 1),
      x.gr.kcb.paced && (paceDefect pace n true || paceDefect pace (n + 1) false), (w2.extractLsb' 29 3).toNat⟩
    fetchWord s (.group k) pc = .word w → fetchWord s (.group k) (sheafBase pc) = .word pace →
    fetchWord s (.group k) (pc + 4) = .word w2 → decode w = .prefixWord → decode w2 = .instr i → n ≠ 3 →
    (∀ r, x.g.run = some r → pc + 4 ≠ r.end_) →
    Issuable s k x i iss pace (n + 1) →
      step { s with sched := .unit (.group k) :: s.sched } = exec i { fetchFill s (.group k) pc with iss := iss }) ∧
  (∀ (s : State) (k : Nat) (x : GCtx) (w pace : W32) (why : IllegalWhy), AtSlot s k x →
    let pc := x.g.ctl.pc
    let iss := issueRecord k x.gr.kcb.paced pc pace w
    fetchWord s (.group k) pc = .word w → fetchWord s (.group k) (sheafBase pc) = .word pace → decode w = .illegal why →
    Issuable s k x (.illegalInstruction why) iss pace ((pc &&& 15).toNat / 4) →
      step { s with sched := .unit (.group k) :: s.sched } =
        exec (.illegalInstruction why) { fetchFill s (.group k) pc with iss := iss }) ∧
  (∀ (s : State) (t : Nat) (x : TCtx) (w : W32) (i : Instr), s.agenda = [] → s.inputs = [] → s.tctx t = some x →
    x.t.seq.st = .fetch → x.t.seq.stopReq = .none → (∀ v ∈ s.s2waits, v.unit ≠ .team t) →
    codeOk x.gr.kcb x.t.seq.ctl.pc → (∀ r, x.t.seq.run = some r → x.t.seq.ctl.pc ≠ r.end_) →
    fetchWord s (.team t) x.t.seq.ctl.pc = .word w → decode w = .instr i → scopeOf i = .t →
    (askOf i = .none ∨ x.t.seq.voted.isSome = true ∨ (featureTrap s (.team t) (featuresOf i)).isSome = true) →
    (isLaunch i = false ∨ launchReady s (.team t) = true) →
      step { s with sched := .unit (.team t) :: s.sched } =
        exec i { fetchFill s (.team t) x.t.seq.ctl.pc with iss := ⟨.team t, x.t.seq.ctl.pc, x.t.seq.ctl.pc, none, 0, false, 0⟩ }) ∧
  (∀ (s : State) (n : Nat) (g : Grid) (w : W32) (i : Instr), s.agenda = [] → s.inputs = [] → s.grid? n = some g →
    g.kcb.whole = true → g.st = .running → g.gsNum.isSome = true →
    g.seq.st = .fetch → g.seq.stopReq = .none → (∀ v ∈ s.s2waits, v.unit ≠ .grid n) →
    codeOk g.kcb g.seq.ctl.pc → (∀ r, g.seq.run = some r → g.seq.ctl.pc ≠ r.end_) →
    fetchWord s (.grid n) g.seq.ctl.pc = .word w → decode w = .instr i → scopeOf i = .d →
    (askOf i = .none ∨ g.seq.voted.isSome = true ∨ (featureTrap s (.grid n) (featuresOf i)).isSome = true) →
    (isLaunch i = false ∨ launchReady s (.grid n) = true) →
      step { s with sched := .unit (.grid n) :: s.sched } =
        exec i { fetchFill s (.grid n) g.seq.ctl.pc with iss := ⟨.grid n, g.seq.ctl.pc, g.seq.ctl.pc, none, 0, false, 0⟩ }) ∧
  (∀ (s : State) (u : UnitId) (a : W64),
    (∃ w w2 cs, fetchFill s u a = { s with walk := w, walk2 := w2, cores := cs }) ∧
    ∀ c, ∃ t, (fetchFill s u a).coreD c = { s.coreD c with tlb := t }) ∧
  (∀ (s : State) (i : Instr), delayable i = false → messageHeld s i = false → step { s with agenda := i :: s.agenda } = exec i s) ∧
  (∀ (s : State) (i : Instr) (n : Nat), (∀ j ∈ s.agenda, delayable j = true) → s.agenda[n]? = some i →
    mayArrive s n i = true →
      step { s with sched := .msg n :: s.sched } = exec i { s with agenda := s.agenda.eraseIdx n } ∧
      (n = 0 → s.sched = [] → step s = exec i { s with agenda := s.agenda.drop 1 })) ∧
  (∀ (s : State) (i : Instr), s.agenda = [] → fromOutside i = true → inputWaits s i = false →
    step { s with inputs := i :: s.inputs, sched := .input :: s.sched } = exec i s ∧
    (s.sched = [] → step { s with inputs := i :: s.inputs } = exec i s)) ∧
  (∀ (s : State) (u : UnitId) (a : W64) (y : Xlat), fetchXlat s u a = .ok y → s.dirs = [] → s.poison = [] →
    (∀ n < 4, isRemote (y.pa + n) = false ∧ s.fab.timeFrame ≠ some (frameOf (y.pa + n))) →
      fetchWord s u a = .word (memGet s.mem (y.pa + 3) ++ (memGet s.mem (y.pa + 2) ++
        (memGet s.mem (y.pa + 1) ++ memGet s.mem y.pa))))

/-- R427: module reset leaves bring-up at stage 1 and nothing running: no group, team, grid, queue, context or object, memory
and the memory of other devices in canonical form, and no event waiting. That the arrays are empty is the model's choice
where the spec gives no value (assumption 5). -/
def Obligations.ResetState : Prop :=
  State.reset.fw.stage = 1 ∧ State.reset.agenda = [] ∧ State.reset.inputs = [] ∧ State.reset.groups = [] ∧
  State.reset.teams = [] ∧ State.reset.grids = [] ∧ State.reset.cores = [] ∧ State.reset.queues = [] ∧
  State.reset.ctxs = [] ∧ State.reset.objs = [] ∧ State.reset.saved = [] ∧ State.reset.rings = [] ∧
  State.reset.joins = [] ∧ State.reset.dirs = [] ∧ State.reset.poison = [] ∧ State.reset.l2 = [] ∧ State.reset.l3 = [] ∧
  State.reset.flushes = [] ∧ State.reset.invals = [] ∧ State.reset.moves = [] ∧ State.reset.reeveWaits = [] ∧ State.reset.events = [] ∧
  State.reset.clk = 0 ∧ MemInv State.reset

/-- Every step that gives a next state keeps device memory, and the memory of other devices, in canonical form: addresses
strictly rising, and no entry equal to what an unlisted byte reads as. The form is the model's own (assumption 1). -/
def Obligations.StepKeepsMemory : Prop :=
  ∀ s t : State, MemInv s → step s = .next t → MemInv t

/-- R93: the first fault that the checks before an issue find, as cause and DETAIL. -/
def Sys2Proof.Machine.firstFault (s : State) (x : GCtx) (i : Instr) : Option (Nat × Nat) :=
  let p := s.iss.pfx
  let need := featuresAt i p
  let offered := match s.vfs.get? x.gr.vf with | some v => v.offered | none => 0
  let use := useOf i (match p with | some q => if (pfxRule i).d4 then some q.d4.toNat else none | none => none)
  let mz := match p with | some q => q.mz | none => false
  if s.iss.defect then some (0x02, 0)
  else if (match p with | some q => !pfxOk i q | none => false) then some (0x02, 0)
  else if supervisorOnly i && x.g.sframe.isNone then some (0x01, 0)
  else if need.any (fun f => !offered.getLsbD f) then some (0x01, 0)
  else if need.any (fun f => !x.gr.kcb.reqfeat.getLsbD f) then some (0x13, 0)
  else if (match i with | .bcast _ _ l => decide (x.g.w ≤ l.toNat) | _ => false) ||
      (match p with | some q => !d4Ok i q | none => false) then some (0x01, 0)
  else if scopeOf i ≠ .g then some (0x0A, 0)
  else match use.v.find? fun n => decide (min x.g.alloc 256 ≤ x.g.vwb + n) with
    | some n => some (0x03, x.g.vwb + n)
    | none => if x.gr.kcb.paced ∧ i ≠ .exit then
        (pendingReg x.g use (match p with | some q => q.mask.toNat | none => 0) mz).map fun r => (0x04, r)
      else none

/-- R93, R94, R25, R15, R67, R117: an instruction that a group issues while a check finds a fault takes the first in R93's order, with
scope L for SKIP and EXIT; where none does, it issues. R25, R94: at a team or grid sequencer the features come before a slot
of a scope that is not its own. -/
def Obligations.IssueChecks : Prop :=
  (∀ (s : State) (k : Nat) (x : GCtx) (i : Instr), i.wf = true → s.iss.unit = .group k → s.gctx k = some x →
    match firstFault s x i with
    | some (c, d) => exec i s = .next (takeFault s (.group k) ⟨c, d, 0, laneScope i, false, false⟩)
    | none => Issues s k x i) ∧
  (∀ (s : State) (u : UnitId) (q : Seq) (gk : Nat) (gr : Grid) (i : Instr), i.wf = true → s.iss.unit = u →
    s.seq? u = some q → s.gridOf u = some gk → s.grid? gk = some gr →
    let need := featuresOf i
    let offered := match s.vfs.get? gr.vf with | some v => v.offered | none => 0
    if need.any (fun f => !offered.getLsbD f) then exec i s = .next (takeFault s u (trap 0x01))
    else if need.any (fun f => !gr.kcb.reqfeat.getLsbD f) then exec i s = .next (takeFault s u (trap 0x13))
    else if scopeOf i ≠ lvlOfUnit u then exec i s = .next (takeFault s u (trap 0x0A))
    else SeqIssues s u q i)

/-- The last write of a list to a lane register. -/
def Sys2Proof.Machine.lastV (ws : List RegW) (l p : Nat) : Option W32 :=
  ws.reverse.findSome? fun w => match w with | .v l' p' y => if l' = l ∧ p' = p then some y else none | _ => none

def Sys2Proof.Machine.lastS (ws : List RegW) (n : Nat) : Option W64 :=
  ws.reverse.findSome? fun w => match w with | .s n' y => if n' = n then some y else none | _ => none

def Sys2Proof.Machine.lastM (ws : List RegW) (n : Nat) : Option W64 :=
  ws.reverse.findSome? fun w => match w with | .m n' y => if n' = n then some y else none | _ => none

/-- R65, R67: the completion event of an instruction none of whose parts is outstanding writes its registers, clears their
pending bits, lowers its flag by one and ends its hold; every other register, bit, flag and unit is as it was. Without an
acquire at .CLU or wider no core and no byte of memory changes. -/
def Obligations.CompletionEvent : Prop :=
  ∀ (s : State) (k : Nat) (x : GCtx) (f : Flight), s.gctx k = some x →
    x.g.flights.find? (fun e => e.id == f.id) = some f → f.wait = 0 →
    (∀ w ∈ f.writes, match w with | .v _ p _ => p < 256 | _ => True) →
      ∃ t g', exec (.completionEvent k f.id) s = .next t ∧ t.groups = s.groups.set k g' ∧ t.teams = s.teams ∧
        t.grids = s.grids ∧
        g' = { x.g with
          v := g'.v, sreg := g'.sreg, m := g'.m, flags := g'.flags, pendV := g'.pendV, pendS := g'.pendS
          pendM := g'.pendM, flights := g'.flights, hold := g'.hold } ∧
        (∀ l p, p < 256 → g'.vget l p = (lastV f.writes l p).getD (x.g.vget l p)) ∧
        (∀ n, g'.sregD n = (lastS f.writes n).getD (x.g.sregD n)) ∧
        (∀ n, g'.mreg n = (lastM f.writes n).getD (x.g.mreg n)) ∧
        (∀ n, g'.flag n = if n = f.flag ∧ n ≠ 0 then x.g.flag n - 1 else x.g.flag n) ∧
        (∀ n, g'.pendV.has n = (x.g.pendV.has n && !f.pendV.contains n)) ∧
        (∀ n, g'.pendS.has n = (x.g.pendS.has n && !f.pendS.contains n)) ∧
        (∀ n, g'.pendM.has n = (x.g.pendM.has n && !f.pendM.contains n)) ∧
        g'.flights = x.g.flights.filter (fun e => e.id != f.id) ∧
        g'.hold = (if x.g.hold = some f.id then none else x.g.hold) ∧
        ((∀ sc, f.acq = some sc → sc = .grp ∨ sc = .team) → t.cores = s.cores ∧ t.mem = s.mem)

/-! ### Matrix instructions (R237 to R253) -/

/-- Bits [lo + n − 1 : lo] of a word. -/
def Sys2Proof.Machine.fld (x : W64) (lo n : Nat) : Nat := (x.extractLsb' lo n).toNat

/-- R253: what an extent of scratchpad bytes meets: the bound, the barrier region for a write, a buffer that is not open. An
extent in a feed window may not reach the end of its buffer, as R273 has it of an access (assumption 40). -/
def Sys2Proof.Machine.extentFault (s : State) (x : GCtx) (wr : Bool) (o len : Nat) : Option Trap :=
  if o < 2 ^ 31 then
    (if x.gr.kcb.spbytes < o + len ∨ wr = true ∧ o < 16 * x.gr.kcb.nbar then some (trap 0x0E) else none)
  else match x.gr.kcb.feeds[winFeed o]? with
    | none => some (trap 0x10)
    | some f => if f.2 ≤ winByte o + len then some (trap 0x0E)
      else if openRing s x.gr x.t o = none then some (trap 0x10) else none

/-- A width of a BX block. -/
def Sys2Proof.Machine.bxWidth (w : Nat) : Bool := decide (2 ≤ w) && decide (w ≤ 8)

/-- R248 to R250: the lowest active lane whose index names a unit that the team does not hold. SR.FADDR of this fault is 0
(assumption 48). -/
def Sys2Proof.Machine.unitFault (s : State) (x : GCtx) (a : VReg) : Option Trap :=
  ((IX.of s x).lanes.find? fun l => decide (x.gr.kcb.uacc ≤ ((x.g.vreg l a.toNat).extractLsb' 13 4).toNat)).map
    fun l => ⟨0x0E, l, 0, true, false, false⟩

/-- The first of two faults. -/
def Sys2Proof.Machine.orFault (a b : Option Trap) : Option Trap := match a with | some t => some t | none => b

/-- R240, R248 to R252: the fault of a matrix instruction at issue, where it meets one, in R253's order. -/
def Sys2Proof.Machine.matrixFault (s : State) (x : GCtx) : Instr → Option Trap
  | .mmldb a b _ _ =>
    let d := x.rd b
    if fld d 32 32 ≠ 0 ∨ fld d 15 1 ≠ 0 ∨ ¬ bxWidth (fld d 0 4) then some (trap 0x01)
    else extentFault s x false (fld (x.rd a) 0 32) (fld d 8 7 * fld d 16 16 + (fld d 4 4 + 1) * (1 + 4 * fld d 0 4))
  | .mmzero u n => if x.gr.kcb.uacc < u.toNat + n.toNat + 1 then some (trap 0x0E) else none
  | .amov a _ => unitFault s x a
  | .anrw _ b c =>
    let w := x.rd c
    if fld w 40 24 ≠ 0 ∨ 5 ≤ fld w 32 3 ∨ fld w 35 3 = 6 ∨ (fld w 38 1 = 1 ∧ fld w 32 3 ≠ 3 ∧ fld w 32 3 ≠ 4) then some (trap 0x01)
    else unitFault s x b
  | .qtile a b _ =>
    let w := x.rd a
    let d := x.rd b
    let e := x.rd b.next
    let rows := 32 * (fld d 51 4 + 1)
    let cols := 32 * (fld d 55 4 + 1)
    let size := match fld d 48 3 with | 0 => 4 | 1 | 2 => 2 | _ => 1
    let wa := fld w 0 4
    let wb := fld w 4 4
    if fld w 8 56 ≠ 0 ∨ fld d 62 2 ≠ 0 ∨ ¬ (wa = 0 ∨ bxWidth wa) ∨ ¬ (wb = 0 ∨ bxWidth wb) ∨ (wa = 0 ∧ wb = 0) ∨
        fld d 59 3 = 5 ∨ fld d 59 3 = 6 ∨ 5 ≤ fld d 48 3 then some (trap 0x01)
    else orFault (extentFault s x false (fld d 0 32) ((rows - 1) * fld d 32 16 + cols * size))
      (orFault (if wa = 0 then none else extentFault s x true (fld e 0 32) (rows * cols / 32 * (1 + 4 * wa)))
        (if wb = 0 then none else extentFault s x true (fld e 32 32) (rows * cols / 32 * (1 + 4 * wb))))
  | .rqt a b _ =>
    let d := x.rd a
    let e := x.rd b
    let n := 32 * (fld e 36 4 + 1) * (32 * (fld e 40 4 + 1)) / 32
    if fld d 36 28 ≠ 0 ∨ fld e 47 17 ≠ 0 ∨ ¬ bxWidth (fld d 32 4) ∨ ¬ bxWidth (fld e 32 4) ∨ fld e 44 3 = 5 ∨ fld e 44 3 = 6
    then some (trap 0x01)
    else orFault (extentFault s x false (fld e 0 32) (n * (1 + 4 * fld e 32 4)))
      (extentFault s x true (fld d 0 32) (n * (1 + 4 * fld d 32 4)))
  | _ => none

/-- R238: the operands that a matrix instruction takes to the engine, and its rounding mode where it draws. -/
def Sys2Proof.Machine.matrixAct (s : State) (x : GCtx) : Instr → Option (EngineAct × Rnd)
  | .mmldb a b m n => some (.mmldb n.toNat (fld (x.rd a) 0 32) (x.rd b) m.toNat, .rne)
  | .mmzero u n => some (.mmzero u.toNat (n.toNat + 1), .rne)
  | .amov a b => some (.amov ((IX.of s x).lanes.map fun l => (l, x.g.vreg l a.toNat, x.g.vreg l b.toNat)), .rne)
  | .anrw a b c => some (.anrw (x.g.vwb + a.toNat)
      ((IX.of s x).lanes.map fun l => (l, x.g.vreg l b.toNat, x.g.genAfter l 1)) (x.rd c),
      if fld (x.rd c) 35 3 = 5 then .sr else .rne)
  | .qtile a b m => some (.qtile (x.rd a) (x.rd b) (x.rd b.next) m.toNat, .rne)
  | .rqt a b row => some (.rqt row (x.rd a) (x.rd b), .rne)
  | _ => none

/-- R237: an instruction in an engine's queue that issued in this clk from a higher-numbered quadrant than group `k`'s. -/
def Sys2Proof.Machine.laterQuad (s : State) (k : Nat) (o : EngineOp) : Prop :=
  k / 16 < o.grp / 16 ∧ o.clk = s.clk

/-- R237: a matrix instruction of group `k` with `g` as it issues reaches its core's engine, last in its queue but for those of
higher-numbered quadrants that issued in the same clk; it keeps the rings of the windows that it names (R273). The group goes
on with a flight that awaits it, no register changes, and no other core and no byte of memory. -/
def Sys2Proof.Machine.EngineTook (s t : State) (k : Nat) (x : GCtx) (g g' : Group) (c : Core) (act : EngineAct) : Prop :=
  MemIssued s t k g g' ∧ RegsSame g g' ∧
  (∃ pre post, c.engine = pre ++ post ∧ (∀ o ∈ post, laterQuad s k o) ∧
    (∀ o, pre.getLast? = some o → ¬ laterQuad s k o) ∧
    t.cores.get? (coreOfGroup k) =
      some { c with engine := pre ++ ⟨x.g.team, k, x.g.nextFlight, s.clk, act, act.rings s x⟩ :: post }) ∧
  (∀ j, j ≠ coreOfGroup k → t.cores.get? j = s.cores.get? j) ∧ t.mem = s.mem ∧
  ∃ f, g'.flights = x.g.flights ++ [f] ∧ f.id = x.g.nextFlight ∧ f.wait = 1 ∧ f.writes = []

/-- R241 to R245: the fault of an MMLOOP whose lanes agree on the format word. -/
def Sys2Proof.Machine.loopFault (s : State) (x : GCtx) (f : W32) (d e : W64) : Option Trap :=
  let wa := (f.extractLsb' 0 4).toNat
  let g := (f.extractLsb' 4 2).toNat
  let ks := 2 ^ g
  let ns := 8 / 2 ^ g
  let nsn := fld e 41 3 + 1
  let kb := fld e 37 4 + 1
  let nk := fld e 34 3 + 1
  let nt := fld e 30 4 + 1
  let nm := fld e 24 6 + 1
  if wa < 2 ∨ 8 < wa ∨ f.extractLsb' 6 26 ≠ 0 ∨ fld d 62 2 ≠ 0 ∨ fld e 44 20 ≠ 0 ∨ ks < nk ∨ ns < nsn ∨
      64 < fld d 56 6 + nm then some (trap 0x01)
  else if x.gr.kcb.uacc < fld d 52 4 + nt * nsn then some (trap 0x0E)
  else extentFault s x false (fld d 0 32)
    ((nt - 1) * fld e 0 24 + (nm - 1) * fld d 32 20 + nk * kb * (1 + 4 * wa))

/-- R58: one block of an accumulation. Blocks are an exponent and their mantissas. -/
def Sys2Proof.Machine.accBlock (wA wB : Nat) (a b : Nat × (Nat → Int)) (acc : Nat) : Nat :=
  if a.1 = 0xFF ∨ b.1 = 0xFF then 0x7FF000000000
  else match Fmt.a48.read acc with
    | .fin n m e =>
      let p : Int := (List.range 32).foldl (fun t i => t + a.2 i * b.2 i) 0
      let sc : Int := (a.1 : Int) + b.1 - 254 - ((wA : Int) - 1) - ((wB : Int) - 1)
      match (fsum false (.fin n m e) (.fin (decide (p < 0)) p.natAbs sc)).1 with
      | .fin _ 0 _ => 0
      | t => (roundFmt .a48 .rne 0 t).1
    | _ => acc

/-- R53: the exponent and mantissas of a block of width `w` from its bytes. -/
def Sys2Proof.Machine.blockOf (w : Nat) (bs : List Byte) : Nat × (Nat → Int) :=
  ((bs.getD 0 0).toNat, fun i => (BitVec.ofNat w (leNat (bs.drop 1) / 2 ^ (w * i))).toInt)

/-- R59: narrow_acc. -/
def Sys2Proof.Machine.narrowRule (acc ts fmt : Nat) (mode : Rnd) (u : Nat) (sat : Bool) : Nat × Nat :=
  let x := Fmt.a48.read acc
  let t := Fmt.fp32.read ts
  let f := match fmt with | 0 => Fmt.fp32 | 1 => .fp16 | 2 => .bf16 | 3 => .e4m3 | _ => .e5m2
  if x.isNan || t.isNan then (f.nanCode, if t.isSnan then fINV else 0)
  else match x, t with
    | .inf _, .fin _ 0 _ => (f.nanCode, fINV)
    | .fin _ 0 _, .inf _ => (f.nanCode, fINV)
    | x, t => if 3 ≤ fmt then cvt8 f mode u sat (fprod x t).1 else roundFmt f mode u (fprod x t).1

/-- The engine of a core, its turn in the schedule come, holds `op` at its head, for a team `tm` of a grid `gr` and a group
`g`. -/
structure Sys2Proof.Machine.EngineAt (s : State) (core : Nat) (c : Core) (op : EngineOp) (rest : List EngineOp) (tm : Team)
    (gr : Grid) (g : Group) : Prop where
  first : s.agenda = [] ∧ s.inputs = []
  core : s.cores.get? core = some c
  head : c.engine = op :: rest
  team : s.team? op.team = some tm
  grid : s.grid? tm.grid = some gr
  group : s.group? op.grp = some g
  free : c.preempt = false
  settled : justJoined s op = false
  awake : teamAsleep s op.team = false

/-- The instruction has left the engine: its flight holds the results, with one part fewer outstanding, the flags are raised. -/
def Sys2Proof.Machine.EngineDone (t : State) (core : Nat) (c : Core) (op : EngineOp) (rest : List EngineOp) (g : Group)
    (ws : List RegW) (flags : Nat) : Prop :=
  t.cores.get? core = some { c with engine := rest } ∧
  t.group? op.grp = some { g with
    fstat := g.fstat ||| BitVec.ofNat 64 (flags % 32)
    flights := g.flights.map fun f =>
      if f.id = op.flight then { f with writes := f.writes ++ ws, wait := f.wait - 1 } else f }

/-- R237 to R253: matrix instructions. At issue a fault of R253 leaves all as it was but for the fault; where none is met MMLDB,
MMZERO, AMOV, ANRW, QTILE and RQT, and MMLOOP after the vote on its format word, complete their issue and reach the engine.
Extents in feed windows are bounded as in assumption 40, SR.FADDR of a unit fault and of an extent's is 0 (assumption 48), and
each extent of QTILE and RQT is checked wholly before the next, its feed's state after its bound (assumption 93): the model's
choices.
The engine then gives each its effect: MMLDB fills a stone, MMZERO clears units, AMOV and ANRW write and read accumulator
elements, an MMLOOP K-step accumulates, and QTILE and RQT write their blocks where the copies overlap neither the source nor
each other. -/
def Obligations.MatrixInstructions : Prop :=
  (∀ (s : State) (k : Nat) (x : GCtx) (i : Instr) (act : EngineAct) (mode : Rnd) (c : Core),
    matrixAct s x i = some (act, mode) → Issues s k x i → s.cores.get? (coreOfGroup k) = some c →
      (matrixFault s x i = none → ∃ t g', exec i s = .next t ∧
        EngineTook s t k x { x.g with gen := g'.gen } g' c act ∧ Drew (IX.of s x) g' mode 1) ∧
      ∀ f, matrixFault s x i = some f → exec i s = .next (takeFault s (.group k) f)) ∧
  (∀ (s : State) (k : Nat) (x : GCtx) (a : VReg) (b : SReg) (m : BitVec 3) (c : Core),
    Issues s k x (.mmloop a b m) → s.cores.get? (coreOfGroup k) = some c →
      match lanesOf x.g.w (x.g.active 0) with
      | [] => ∃ t g', exec (.mmloop a b m) s = .next t ∧ Issued s t k x.g g' s.nextPc 0 ∧ g'.gen = x.g.gen ∧
          RegsSame x.g (g'.settled x.g)
      | l :: ls =>
        let f (j : Nat) : W32 := x.g.vreg j a.toNat
        let r := voteRecord 1 ((l :: ls).map fun j => (j, (f j).signExtend 64))
        let g := { x.g with ctl := x.g.ctl.setVote r }
        let sv := s.updGroup k fun g => { g with ctl := g.ctl.setVote r }
        ((∀ j ∈ ls, f j = f l) →
          (loopFault s x (f l) (x.rd b) (x.rd b.next) = none → ∃ t g', exec (.mmloop a b m) s = .next t ∧
            EngineTook s t k x g g' c (.mmloop (f l) (x.rd b) (x.rd b.next) m.toNat 0)) ∧
          ∀ e, loopFault s x (f l) (x.rd b) (x.rd b.next) = some e →
            exec (.mmloop a b m) s = .next (takeFault sv (.group k) e)) ∧
        (¬ (∀ j ∈ ls, f j = f l) → exec (.mmloop a b m) s = .next (takeFault sv (.group k) (trap 0x06)))) ∧
  (∀ (s : State) (core : Nat) (c : Core) (op : EngineOp) (rest : List EngineOp) (tm : Team) (gr : Grid) (g : Group),
    EngineAt s core c op rest tm gr g → ∃ t, step { s with sched := .unit (.engine core) :: s.sched } = .next t ∧ t.mem = s.mem ∧
      match op.act with
      | .mmldb n soff d m =>
        let w := fld d 0 4
        let blk (col kb : Nat) := blockOf w (spRead s gr op.team m (soff + col * fld d 16 16 + kb * (1 + 4 * w)) (1 + 4 * w) op.rings)
        ∃ st, EngineDone t core { c with stones := c.stones.set n st } op rest g [] 0 ∧ st.tag = w ∧ t.teams = s.teams ∧
          ∀ col < 128, ∀ kb < 16,
            let inside := col ≤ fld d 8 7 ∧ kb ≤ fld d 4 4
            st.exp.getD (kb * 128 + col) 0 = (if inside then BitVec.ofNat 8 (blk col kb).1 else 0) ∧
            ∀ i < 32, st.cell.getD ((32 * kb + i) * 128 + col) 0 =
              if inside then BitVec.ofInt 8 ((blk col kb).2 i) else 0
      | .mmzero u n => EngineDone t core c op rest g [] 0 ∧ ∃ acc, t.team? op.team = some { tm with acc := acc } ∧
          ∀ key, acc.getD key 0 = if u * 8192 ≤ key ∧ key < (u + n) * 8192 then 0 else tm.acc.getD key 0
      | .amov lanes =>
        EngineDone t core c op rest g [] (if lanes.any fun l => (Fmt.fp32.read l.2.2.toNat).isSnan then fINV else 0) ∧
        ∃ acc, t.team? op.team = some { tm with acc := acc } ∧ ∀ key, acc.getD key 0 =
          match lanes.reverse.find? fun l => (l.2.1.extractLsb' 0 17).toNat == key with
          | some l => BitVec.ofNat 48 (roundFmt .a48 .rne 0 (Fmt.fp32.read l.2.2.toNat)).1
          | none => tm.acc.getD key 0
      | .anrw dest lanes w =>
        let res (l : Nat × W32 × W32) : Nat × Nat :=
          narrowRule (tm.acc.getD (l.2.1.extractLsb' 0 17).toNat 0).toNat (fld w 0 32) (fld w 32 3) (rndOf (fld w 35 3) .rne)
            l.2.2.toNat (fld w 38 1 == 0)
        EngineDone t core c op rest g (lanes.map fun l => .v l.1 dest (BitVec.ofNat 32 (res l).1))
          (lanes.foldl (fun n l => n ||| (res l).2) 0) ∧
        ∃ acc, t.team? op.team = some { tm with acc := acc } ∧ ∀ key, acc.getD key 0 =
          if fld w 39 1 = 1 ∧ lanes.any (fun l => (l.2.1.extractLsb' 0 17).toNat == key) then 0 else tm.acc.getD key 0
      | .mmloop f d e m n =>
        let wa := (f.extractLsb' 0 4).toNat
        let ns := 8 / 2 ^ (f.extractLsb' 4 2).toNat
        let nsn := fld e 41 3 + 1
        let kb := fld e 37 4 + 1
        let nk := fld e 34 3 + 1
        let nm := fld e 24 6 + 1
        let tile := n / nk / nm
        let row := n / nk % nm
        let j := n % nk
        let ablk (b : Nat) := blockOf wa (spRead s gr op.team m
          (fld d 0 32 + tile * fld e 0 24 + row * fld d 32 20 + (j * kb + b) * (1 + 4 * wa)) (1 + 4 * wa) op.rings)
        let st (q : Nat) : Stone := c.stones.getD (j * ns + q) Stone.zero
        let bblk (q col b : Nat) : Nat × (Nat → Int) := (((st q).exp.getD (b * 128 + col) 0).toNat,
          fun i => ((st q).cell.getD ((32 * b + i) * 128 + col) 0).toInt)
        let key (q col : Nat) : Nat := (fld d 52 4 + tile * nsn + q) * 8192 + (fld d 56 6 + row) * 128 + col
        (if n + 1 < (fld e 30 4 + 1) * nm * nk
          then t.cores.get? core = some { c with engine := { op with act := .mmloop f d e m (n + 1) } :: rest } ∧
            t.groups = s.groups
          else EngineDone t core c op rest g [] 0) ∧
        ∃ acc, t.team? op.team = some { tm with acc := acc } ∧
          (∀ q < nsn, ∀ col < 128, acc.getD (key q col) 0 = BitVec.ofNat 48 ((List.range kb).foldl
            (fun a b => accBlock wa (st q).tag (ablk b) (bblk q col b) a) (tm.acc.getD (key q col) 0).toNat)) ∧
          ∀ p, (∀ q < nsn, ∀ col < 128, p ≠ key q col) → acc.getD p 0 = tm.acc.getD p 0
      | .qtile w d e m =>
        let rows := 32 * (fld d 51 4 + 1)
        let cols := 32 * (fld d 55 4 + 1)
        let size := match fld d 48 3 with | 0 => 4 | 1 | 2 => 2 | _ => 1
        let wa := fld w 0 4
        let wb := fld w 4 4
        let n := fld d 59 3
        let src := match fld d 48 3 with | 0 => Fmt.fp32 | 1 => .fp16 | 2 => .bf16 | 3 => .e4m3 | _ => .e5m2
        let val (r q : Nat) : FVal := src.read (leNat (spRead s gr op.team m (fld d 0 32 + r * fld d 32 16 + q * size) size op.rings))
        let rowBlks := (List.range rows).flatMap fun r => (List.range (cols / 32)).map fun b =>
          (fld e 0 32 + (r * (cols / 32) + b) * (1 + 4 * wa),
            bxQuantise ((List.range 32).map fun i => val r (32 * b + i)) wa (rndOf n .rne))
        let colBlks := (List.range cols).flatMap fun q => (List.range (rows / 32)).map fun b =>
          (fld e 32 32 + (q * (rows / 32) + b) * (1 + 4 * wb),
            bxQuantise ((List.range 32).map fun i => val (32 * b + i) q) wb (rndOf n .rne))
        let as := if wa = 0 then [] else rowBlks
        let bs := if wb = 0 then [] else colBlks
        let inA (o : Nat) : Prop := wa ≠ 0 ∧ fld e 0 32 ≤ o ∧ o < fld e 0 32 + rows * cols / 32 * (1 + 4 * wa)
        let inB (o : Nat) : Prop := wb ≠ 0 ∧ fld e 32 32 ≤ o ∧ o < fld e 32 32 + rows * cols / 32 * (1 + 4 * wb)
        let inS (o : Nat) : Prop := ∃ r < rows, fld d 0 32 + r * fld d 32 16 ≤ unswizzle m o ∧
          unswizzle m o < fld d 0 32 + r * fld d 32 16 + cols * size
        (∀ o, ¬ (inA o ∧ inB o) ∧ ¬ (inA o ∧ inS o) ∧ ¬ (inB o ∧ inS o)) →
          let u := (as.map (fun p => (p.1, p.2.1.bytes wa)) ++ bs.map (fun p => (p.1, p.2.1.bytes wb))).foldl
            (fun u p => spWrite u gr op.team 0 p.1 p.2 op.rings) s
          t.teams = u.teams ∧ t.rings = u.rings ∧
          EngineDone t core c op rest g [] ((as ++ bs).foldl (fun n p => n ||| p.2.2) 0)
      | .rqt row d e =>
        let rows := 32 * (fld e 36 4 + 1)
        let cols := 32 * (fld e 40 4 + 1)
        let ws := fld e 32 4
        let wd := fld d 32 4
        let src (o : Nat) : Bx := Bx.ofBytes ws (spRead s gr op.team 0 o (1 + 4 * ws) op.rings)
        let val (r q : Nat) : FVal :=
          if row then (src (fld e 0 32 + (q * (rows / 32) + r / 32) * (1 + 4 * ws))).val ws (r % 32)
          else (src (fld e 0 32 + (r * (cols / 32) + q / 32) * (1 + 4 * ws))).val ws (q % 32)
        let mode := rndOf (fld e 44 3) .rne
        let blks := if row
          then (List.range rows).flatMap fun r => (List.range (cols / 32)).map fun b =>
            (fld d 0 32 + (r * (cols / 32) + b) * (1 + 4 * wd), bxQuantise ((List.range 32).map fun i => val r (32 * b + i)) wd mode)
          else (List.range cols).flatMap fun q => (List.range (rows / 32)).map fun b =>
            (fld d 0 32 + (q * (rows / 32) + b) * (1 + 4 * wd), bxQuantise ((List.range 32).map fun i => val (32 * b + i) q) wd mode)
        let n := rows * cols / 32
        (∀ o, ¬ ((fld d 0 32 ≤ o ∧ o < fld d 0 32 + n * (1 + 4 * wd)) ∧ fld e 0 32 ≤ o ∧ o < fld e 0 32 + n * (1 + 4 * ws))) →
          let u := blks.foldl (fun u p => spWrite u gr op.team 0 p.1 (p.2.1.bytes wd) op.rings) s
          t.teams = u.teams ∧ t.rings = u.rings ∧
          EngineDone t core c op rest g [] (blks.foldl (fun n p => n ||| p.2.2) 0 &&& fNX))

/-! ### Copies (R265 to R271, R304 to R307) -/

/-- The copy instructions: coordinates' register, record's pair, and what kind of copy it is. -/
def Sys2Proof.Machine.copyRule (x : GCtx) : Instr → Option (VReg × VReg × CopyKind)
  | .tcopy a b => some (a, b, .plain)
  | .tcopyMAll a b h => some (a, b, .all (x.t.ham.getD h.toNat 0))
  | .tcopyMJoin a b h => some (a, b, .join (x.t.ham.getD h.toNat 0))
  | _ => none

/-- R266, R267: the virtual address of an element from its record's bytes: BASE, the element size, and the strides in units of
16 bytes, applied to the coordinates `i`. -/
def Sys2Proof.Machine.elementAddr (bs : List Byte) (i : Nat → Nat) : Nat :=
  let ndim := fieldAt bs 0x08 4 % 8
  let es := 2 ^ (fieldAt bs 0x08 4 / 8 % 8)
  (fieldAt bs 0 8 + i 0 * es + (List.range 5).foldl
    (fun t d => t + if 1 ≤ d ∧ d < ndim then i d * (fieldAt bs (0x20 + 4 * d) 4 * 16) else 0) 0) % 2 ^ 64

/-- R267, R305: the bytes that an inbound element leaves: those read in bounds, zeros, FILL, or none that change. -/
def Sys2Proof.Machine.elementData (l : Layout) (bytes : Option (List Byte)) : Option (List Byte) :=
  match bytes with
  | some bs => some bs
  | none =>
    if l.oob = 0 then some (List.replicate l.es 0)
    else if l.oob = 1 then some ((List.range l.es).map fun n => l.fill.getD (n % 4) 0)
    else none

/-- R305, R273: the place of byte `n` of an element in a target: in its share, or in the ring that the copy holds for it. -/
def Sys2Proof.Machine.landCell (s : State) (tg : Target) (m so n : Nat) : Option (Option RingId × Nat) :=
  if so < 2 ^ 31 then some (none, spPlace m (so + n))
  else tg.ring.bind fun i => (s.ring? i).map fun r => (some i, winBuf so * r.size + spPlace m (winByte so + n))

/-- R267, R314: whether a copy has elements still to move: by position for DIR 1; for DIR 0, elements outside the tensor by
position and those in memory by address. -/
def Sys2Proof.Machine.copyLeft (l : Layout) (c : Copy) : Bool :=
  if l.out then decide (c.pos < l.elems)
  else (List.range l.elems).any fun p => if l.inBounds c.coords p then decide (c.next ≤ l.maddr c.coords p) else decide (c.pos ≤ p)

/-- The queue behind a head copy: it stays while elements are left. -/
def Sys2Proof.Machine.copyAfter (l : Layout) (c : Copy) (cs : List Copy) : List Copy := if copyLeft l c then c :: cs else cs

/-- A copy of DIR 0 that has dealt with the grain before an address. -/
def Sys2Proof.Machine.grainDone (c : Copy) (next : Nat) : Copy := { c with next := next, st := .run, line := none }

/-- The virtual address of an element of a copy's tile. -/
def Sys2Proof.Machine.addrOf (l : Layout) (c : Copy) (p : Nat) : Nat := elementAddr c.record fun d => (l.coord c.coords p d).toNat

/-- An element outside the tensor that a copy of DIR 0 has yet to fill, with every element in memory before it moved: bytes are
moved in their order in the tile (R269). -/
def Sys2Proof.Machine.outsideLeft (l : Layout) (c : Copy) (p : Nat) : Prop :=
  p < l.elems ∧ c.pos ≤ p ∧ l.inBounds c.coords p = false ∧ ∀ j < p, l.inBounds c.coords j = true → addrOf l c j < c.next

/-- R267, R314: the address at which a copy goes on: the element at its position for DIR 1, the lowest address not yet moved
for DIR 0, where no element outside the tensor comes before it. -/
def Sys2Proof.Machine.NextAt (l : Layout) (c : Copy) (va : Nat) : Prop :=
  if l.out = true then c.pos < l.elems ∧ l.inBounds c.coords c.pos = true ∧ va = addrOf l c c.pos
  else (∀ p, ¬ outsideLeft l c p) ∧
    (∃ p < l.elems, l.inBounds c.coords p = true ∧ c.next ≤ va ∧ va = addrOf l c p) ∧
    ∀ p < l.elems, l.inBounds c.coords p = true → c.next ≤ addrOf l c p → va ≤ addrOf l c p

/-- The copy at the head of queue `q`, its record read, moves on. -/
structure Sys2Proof.Machine.Moves (s : State) (q : Nat) (c : Copy) (cs : List Copy) (gr : Grid) (tm : Team) : Prop where
  core : s.cores.has (q / 16) = true
  queue : s.copies q = c :: cs
  team : s.team? c.team = some tm
  grid : s.grid? tm.grid = some gr
  read : c.readDone = true ∧ c.st = .run
  quiet : s.dirs = [] ∧ s.poison = []

/-- R269, R270, R307: the queue is left with `cs`; the object of every team that the copy serves is poisoned, and its slot keeps
its first record. -/
def Sys2Proof.Machine.Aborted (s t : State) (q : Nat) (c : Copy) (cs : List Copy) (ts : List Target) (va : W64) (code : Nat) : Prop :=
  t.copies q = cs ∧ ∀ tg ∈ ts, targetLives s tg = true → ∀ tm, s.team? tg.team = some tm →
    barAt t tg.team c.bar = some { tm.bar c.bar with poison := true } ∧
    ∃ tm', t.team? tg.team = some tm' ∧ tm'.barRec.getD (c.bar / 16) (0, 0) = tm.barRec.getD (c.bar / 16) (va, code)

/-- R291, R305, R307: the teams that a copy writes, with the ring that a window offset is open through to each: the issuing
team, or the target team of each core of the hamlet. -/
def Sys2Proof.Machine.copyTargets (s : State) (q : Nat) (gr : Grid) (tm : Team) (c : Copy) : List Target :=
  let ks : List Nat := match c.kind with
    | .all h => (hamletCores s (q / 16) gr.vf h).filterMap fun k => if k = q / 16 then some c.team else firstTeamOn s tm.grid k
    | _ => [c.team]
  ks.filterMap fun tk => (s.team? tk).map fun (t : Team) =>
    ⟨tk, t.grid, t.member, if 2 ^ 31 ≤ c.soff then openRing s gr t c.soff else none⟩

/-- R269, R270: the first defect of a record's bytes: the address recorded and its code. -/
def Sys2Proof.Machine.recordDefect (gr : Grid) (ts : List Target) (c : Copy) (bs : List Byte) : Option (W64 × Nat) :=
  let ctrl := fieldAt bs 0x08 4
  let ndim := ctrl % 8
  let es := 2 ^ (ctrl / 8 % 8)
  let out := ctrl / 64 % 2
  let base := fieldAt bs 0x00 8
  let tile (d : Nat) : Nat := if d < ndim then fieldAt bs (0x34 + 2 * d) 2 else 1
  let pitch := if fieldAt bs 0x3E 2 ≠ 0 then fieldAt bs 0x3E 2 * 16 else tile 0 * es
  let extent := tile 0 * es + (tile 1 * tile 2 * tile 3 * tile 4 - 1) * pitch
  let win := decide (2 ^ 31 ≤ c.soff)
  let start := if win then winByte c.soff else c.soff
  let room := if win then (gr.kcb.feeds[winFeed c.soff]?).map (·.2) else some gr.kcb.spbytes
  let at_ (n code : Nat) : Option (W64 × Nat) := some (BitVec.ofNat 64 n, code)
  if 2 ^ 12 ≤ ctrl ∨ ndim = 0 ∨ 5 < ndim ∨ 4 < ctrl / 8 % 8 ∨ ctrl / 2 ^ 10 % 4 = 3 ∨ (∃ d < 5, tile d = 0) ∨
      (c.kind ≠ .plain ∧ out = 1) then at_ c.recAddr 0x01
  else if 2 ^ 55 ≤ base then at_ base 0x0C
  else if base % es ≠ 0 then at_ base 0x0D
  else if c.soff % es ≠ 0 then at_ c.soff 0x0D
  else if ∃ n, room = some n ∧ n < start + extent then
    at_ (c.soff - start + max start (room.getD 0)) 0x0E
  else if out = 0 ∧ win = false ∧ c.soff < 16 * gr.kcb.nbar then at_ c.soff 0x0E
  else if win = true ∧ ∃ tg ∈ ts, tg.ring = none then at_ c.soff 0x10
  else none

/-- An entry of a slice that the request of a key finds open, waiting for its members. -/
def Sys2Proof.Machine.openEntry (s : State) (key : MergeKey) : Option JoinEnt :=
  s.joins.find? fun e => e.slice == servingSlice s.fw.slicesOut key.line && e.key == key

/-- The cores of a hamlet, as the home numbers them for a core (R289). -/
def Sys2Proof.Machine.membersOf (s : State) (core : Nat) (h : W128) : List Nat :=
  hamletCores s core (match (s.coreD core).vf with | some v => v | none => 0) h

/-- R306: the reply of a home that reads a grain once, to the queues of some members: one multicast packet to their cores. -/
def Sys2Proof.Machine.joinedReply (s : State) (key : MergeKey) (js : List Nat) : List Instr :=
  match js with
  | [] => []
  | j :: _ => [.multicastPacket (entryRouter s (j / 16 / 128) key.line) ⟨.source, js.map (· / 16)⟩ (.copy key)
      (s.homeRead key.line key.gsz) js]

/-- R267 to R271, R304 to R307, R314, R315: copies. TCOPY, TCOPY.M.ALL and TCOPY.M.JOIN check the record's address and the
barrier offset; where both are right, or no lane is active, they complete their issue and join their team's queue, in issue
order, behind an implicit release at .CLU. The engine then reads the record: a defect or a fault aborts the copy and poisons the
object of every team that it serves; a sound record of DIR 1 adds its bytes to OUTBOUND. It then moves the tile, DIR 0 in whole
grains in increasing address order, DIR 1 an element at a time: the bytes reach the scratchpad or memory and count against the
barrier object; a fault aborts the copy, or stalls it at a first-touch page. .ALL sends one multicast of each grain to every
core of its hamlet; .JOIN members share one read of a grain, which the home makes once all have joined or the entry has timed
out; routers pass a packet, a copy's or a delivery's, on by column and row, and a core that it names takes its copy first.
Within a grain a copy stops at the first element that meets no data (R408).
These clauses are the model's choices, where the spec leaves a point open: the order in which a record's defects are looked for
(assumption 44); when the elements outside the tensor are filled, the tile order of DIR 1, and one element or one grain in a step
(43 and 75); the end of a TCOPY.M's flight when it joins its queue (79); that a copy out writes back and drops its own core's copy
of the grain (91); the router at which a packet enters the mesh, and the order of one router's copies (85); a copy's extent that
ends at the bound of its window is inside (40); the extent in the window of an undeclared feed, and one grain of a copy on request
at a time (93). -/
def Obligations.Copies : Prop :=
  (∀ (s : State) (k : Nat) (x : GCtx) (i : Instr) (a b : VReg) (kind : CopyKind), copyRule x i = some (a, b, kind) →
    Issues s k x i →
      match lanesOf x.g.w (x.g.active 0) with
      | [] => ∃ t g', exec i s = .next t ∧ Issued s t k x.g g' s.nextPc 0 ∧ g'.gen = x.g.gen ∧ RegsSame x.g (g'.settled x.g)
      | l :: _ =>
        let rec_ := x.g.vpair l b.toNat
        let v (n : Nat) : W32 := x.g.vreg l (a.toNat + n)
        let bar := (v 6).toNat
        let q := coreOfGroup k * 16 + x.t.slot
        let c : Copy := ⟨x.g.team, k, kind, rec_.toNat, [], [v 0, v 1, v 2, v 3, v 4], (v 5).toNat, bar, 0, 0, .release, false,
          x.g.nextFlight, none, none, false⟩
        (rec_.toNat % 64 ≠ 0 → exec i s = .next (takeFault s (.group k) (trap 0x0D 0 rec_))) ∧
        (rec_.toNat % 64 = 0 → 2 ^ 55 ≤ rec_.toNat → exec i s = .next (takeFault s (.group k) (trap 0x0C 0 rec_))) ∧
        (rec_.toNat % 64 = 0 → rec_.toNat < 2 ^ 55 → bar % 16 ≠ 0 →
          exec i s = .next (takeFault s (.group k) (trap 0x0D 0 (BitVec.ofNat 64 bar)))) ∧
        (rec_.toNat % 64 = 0 → rec_.toNat < 2 ^ 55 → bar % 16 = 0 → 16 * x.gr.kcb.nbar ≤ bar →
          exec i s = .next (takeFault s (.group k) (trap 0x0E 0 (BitVec.ofNat 64 bar)))) ∧
        (rec_.toNat % 64 = 0 → rec_.toNat < 2 ^ 55 → bar % 16 = 0 → bar < 16 * x.gr.kcb.nbar →
          x.t.slot < 16 → s.cores.has (coreOfGroup k) = true →
          ∃ t g' f, exec i s = .next t ∧ MemIssued s t k x.g g' ∧ RegsSame x.g g' ∧ t.mem = s.mem ∧
            g'.rels = x.g.rels ++ [⟨x.g.nextFlight, .clu, true, [], [], [.copy]⟩] ∧ g'.flights = x.g.flights ++ [f] ∧
            f.id = x.g.nextFlight ∧ f.writes = [] ∧ f.wait = (if kind = .plain then 2 else 1) ∧
            t.copies q = s.copies q ++ [c] ∧ ∀ p, p ≠ q → t.copies p = s.copies p)) ∧
  (∀ (s : State) (q : Nat) (pre post : List Copy) (c : Copy) (gr : Grid) (tm : Team),
    s.agenda = [] → s.cores.has (q / 16) = true → s.copies q = pre ++ c :: post →
    (∀ d ∈ pre, d.readDone = true ∨ d.st ≠ .run) → c.readDone = false → c.st = .run → c.targets = none →
    s.team? c.team = some tm → s.grid? tm.grid = some gr → s.dirs = [] → s.poison = [] →
    (∀ y, copyXlat s q gr.asid c.recAddr .rd = .ok y → s.pathHeld y.pa 0 = false) →
      let ts := copyTargets s q gr tm c
      let b := tm.bar c.bar
      ∃ t, step { s with sched := .unit (.copyq q) :: s.sched } = .next t ∧
        match copyXlat s q gr.asid c.recAddr .rd with
        | .ok y => s.cutOff y.pa = false →
          let bs := s.homeRead y.pa 64
          let l := Layout.of bs
          t.mem = s.mem ∧
          match recordDefect gr ts c bs with
          | some (va, code) => Aborted s t q c (pre ++ post) ts va code
          | none => t.copies q = pre ++ { c with record := bs, readDone := true, st := .run, targets := some ts } :: post ∧
              barAt t c.team c.bar = some (if l.out = true
                then ({ b with outbound := b.outbound + BitVec.ofNat 32 (l.elems * l.es) } : Bar).test else b) ∧
              (c.kind = .plain → ∀ g, s.group? c.grp = some g → t.group? c.grp = some { g with
                flights := g.flights.map fun f => if f.id = c.flight then { f with wait := f.wait - 1 } else f })
        | .prot => Aborted s t q c (pre ++ post) ts (BitVec.ofNat 64 c.recAddr) 0x0C
        | .page false false => Aborted s t q c (pre ++ post) ts (BitVec.ofNat 64 c.recAddr) 0x0B
        | .page true _ => t.copies q = pre ++ { c with st := .stalled (BitVec.ofNat 64 c.recAddr) } :: post ∧
            t.agenda = [.reeveFirstTouchMap (.copyq q)] ∧ t.teams = s.teams ∧ t.mem = s.mem
        | .page false true => t.copies q = pre ++ { c with st := .escalated (BitVec.ofNat 64 c.recAddr) } :: post ∧
            t.teams = s.teams ∧ t.mem = s.mem
        | .stage2 _ _ => t.copies q = pre ++ { c with st := .escalated (BitVec.ofNat 64 c.recAddr) } :: post ∧
            t.teams = s.teams) ∧
  (∀ (s : State) (gr : Grid) (tg : Target) (tm : Team) (c : Copy) (l : Layout) (pos : Nat) (bytes : Option (List Byte)),
    s.team? tg.team = some tm → targetLives s tg = true → (∀ bs, bytes = some bs → bs.length = l.es) →
    let so := l.sp c.soff pos
    let cell (n : Nat) := landCell s tg l.swz so n
    so < 2 ^ 32 → (2 ^ 31 ≤ so → so / 2 ^ 24 = c.soff / 2 ^ 24 ∧ ∃ i, tg.ring = some i ∧ (s.ring? i).isSome = true) →
    (∀ n < l.es, ∀ p, cell n = some (none, p) → p < c.bar ∨ c.bar + 16 ≤ p) →
      let t := landElement s gr tg c l pos bytes
      let b := tm.bar c.bar
      barAt t tg.team c.bar = some ({ b with inbound := b.inbound - BitVec.ofNat 32 l.es } : Bar).test ∧
      (∀ p, (∀ n, p = (none, n) → n < c.bar ∨ c.bar + 16 ≤ n) → cellAt t tg.team p =
        match elementData l bytes with
        | some bs => (match (List.range l.es).find? fun n => cell n == some p with
          | some n => bs.getD n 0
          | none => cellAt s tg.team p)
        | none => cellAt s tg.team p) ∧
      t.groups = s.groups ∧ t.cores = s.cores ∧ t.mem = s.mem) ∧
  (∀ (s : State) (gr : Grid) (tg : Target) (c : Copy) (l : Layout) (pos : Nat) (bytes : Option (List Byte)),
    targetLives s tg = false → landElement s gr tg c l pos bytes = s) ∧
  (∀ (s : State) (gr : Grid) (tg : Target) (c : Copy) (l : Layout) (va stop : Nat) (bytes : List Byte),
    let ps := (List.range l.elems).filter fun p => l.inBounds c.coords p &&
      decide (c.next ≤ l.maddr c.coords p) && decide (l.maddr c.coords p < stop)
    let w := landWords s tg c l ps
    (targetLives s tg = false → landGrain s gr tg c l va stop bytes = s) ∧
    (targetLives s tg = true → landGrain s gr tg c l va stop bytes = ps.foldl
      (fun u p => landElement u gr tg c l p (some ((bytes.drop (l.maddr c.coords p - va)).take l.es))) w) ∧
    { w with cores := s.cores } = s ∧ CoresButBanks s w) ∧
  (∀ (s : State) (c : Copy) (l : Layout) (va pa gsz : Nat),
    let bad (p : Nat) : Prop := p < l.elems ∧ l.inBounds c.coords p = true ∧ c.next ≤ l.maddr c.coords p ∧
      l.maddr c.coords p < va + gsz ∧ s.noData (pa + (l.maddr c.coords p - va)) l.es = true
    ((∀ p, ¬ bad p) → grainStop s c l va pa gsz = va + gsz) ∧
    ((∃ p, bad p) → ∃ p, bad p ∧ grainStop s c l va pa gsz = l.maddr c.coords p ∧
      ∀ j, bad j → l.maddr c.coords p ≤ l.maddr c.coords j)) ∧
  (∀ (s : State) (q : Nat) (c : Copy) (cs : List Copy) (gr : Grid) (tm : Team), Moves s q c cs gr tm →
    let l := Layout.of c.record
    let b := tm.bar c.bar
    let ts := c.served s q gr
    (l.out = true → c.pos < l.elems → l.inBounds c.coords c.pos = false → ∃ t, exec (.copyElementMoved q) s = .next t ∧
      t.copies q = copyAfter l { c with pos := c.pos + 1 } cs ∧ t.mem = s.mem ∧
      barAt t c.team c.bar = some ({ b with outbound := b.outbound - BitVec.ofNat 32 l.es } : Bar).test) ∧
    (∀ p, l.out = false → outsideLeft l c p → (∀ j < p, ¬ outsideLeft l c j) → ∃ t, exec (.copyElementMoved q) s = .next t ∧
      t.copies q = copyAfter l { c with pos := p + 1 } cs ∧ t.mem = s.mem ∧
      let u := ts.foldl (fun u tg => landElement u gr tg c l p none) s
      t.teams = u.teams ∧ t.rings = u.rings) ∧
    (∀ va, NextAt l c va →
      (∀ y, l.out = false → copyXlat s q gr.asid va .rd = .ok y → s.cutOff y.pa = false →
        s.pathHeld (gbase y.gsz y.pa) 0 = false →
        let base := y.pa / y.gsz * y.gsz
        let va0 := va - y.pa % y.gsz
        let stop := grainStop s c l va0 base y.gsz
        let bytes := s.homeRead base y.gsz
        let key (h : W128) : MergeKey := ⟨c.recAddr, c.coords, h, base, y.gsz⟩
        let dests := (ts.map fun tg => coreOfTeam tg.team).eraseDups
        ((c.kind = .plain ∨ (∃ h, c.kind = .join h) ∧ c.alone = true) → ∃ t, exec (.copyElementMoved q) s = .next t ∧
          t.copies q = copyAfter l (grainDone c stop) cs ∧ t.mem = s.mem ∧
          let u := ts.foldl (fun u tg => landGrain u gr tg c l va0 stop bytes) s
          t.teams = u.teams ∧ t.rings = u.rings) ∧
        (∀ h, c.kind = .all h → dests ≠ [] → ∃ t, exec (.copyElementMoved q) s = .next t ∧ t.teams = s.teams ∧ t.mem = s.mem ∧
          t.copies q = { c with st := .line, line := some (va0, y.gsz, dests.length) } :: cs ∧
          t.agenda = s.agenda ++ [.multicastPacket (entryRouter s (q / 16 / 128) base) ⟨.source, dests⟩ (.copy (key h)) bytes [q]]) ∧
        (∀ h, c.kind = .join h → c.alone = false → ∃ t, exec (.copyElementMoved q) s = .next t ∧ t.teams = s.teams ∧
          t.mem = s.mem ∧ t.copies q = { c with st := .line, line := some (va0, y.gsz, 1) } :: cs ∧
          t.agenda = s.agenda ++ [.joinRequest (q / 16) (q % 16) (key h)])) ∧
      (∀ y, l.out = true → copyXlat s q gr.asid va .wr = .ok y → isRemote y.pa = false →
        let bytes := spRead s gr c.team l.swz (l.sp c.soff c.pos) l.es (match ts with | tg :: _ => tg.held c.soff | [] => [])
        ∃ t, exec (.copyElementMoved q) s = .next t ∧ t.copies q = copyAfter l { c with pos := c.pos + 1 } cs ∧
          t.mem = memWrite (if y.prot = .w then s else purgeGrain s (q / 16) (y.pa / y.gsz * y.gsz)).mem y.pa bytes ∧
          barAt t c.team c.bar = some ({ b with outbound := b.outbound - BitVec.ofNat 32 l.es } : Bar).test) ∧
      let x := copyXlat s q gr.asid va (if l.out then .wr else .rd)
      (∀ y, x = .ok y → s.cutOff y.pa = true → s.pathHeld (gbase y.gsz y.pa) 0 = false →
        ∃ t, exec (.copyElementMoved q) s = .next t ∧ Aborted s t q c cs ts (BitVec.ofNat 64 va) 0x0C) ∧
      (∀ esc, x = .page true esc → ∃ t, exec (.copyElementMoved q) s = .next t ∧
        t.copies q = { c with st := .stalled (BitVec.ofNat 64 va) } :: cs ∧
        t.agenda = s.agenda ++ [.reeveFirstTouchMap (.copyq q)] ∧ t.teams = s.teams ∧ t.mem = s.mem) ∧
      (x = .page false true → ∃ t, exec (.copyElementMoved q) s = .next t ∧
        t.copies q = { c with st := .escalated (BitVec.ofNat 64 va) } :: cs ∧ t.teams = s.teams ∧ t.mem = s.mem) ∧
      (x = .prot → ∃ t, exec (.copyElementMoved q) s = .next t ∧ Aborted s t q c cs ts (BitVec.ofNat 64 va) 0x0C ∧ t.mem = s.mem) ∧
      (x = .page false false → ∃ t, exec (.copyElementMoved q) s = .next t ∧
        Aborted s t q c cs ts (BitVec.ofNat 64 va) 0x0B ∧ t.mem = s.mem))) ∧
  (∀ (s : State) (core : Nat) (d : MDir) (dests : List Nat) (what : PacketFor) (bytes : List Byte) (fs : List Nat),
    let col (k : Nat) := k % 16
    let row (k : Nat) := k % 128 / 16
    let mine := match fs with | [f] => [f] | fs => fs.filter fun f => f / 16 == core
    let way (ok : Bool) (next : Nat) (d' : MDir) (p : Nat → Bool) : List Instr :=
      if ok ∧ dests.filter p ≠ [] then [.multicastPacket next ⟨d', dests.filter p⟩ what bytes fs] else []
    let own : List Instr := if core ∈ dests then (match what with
      | .copy key => mine.map fun f => .multicastReply core key bytes f
      | .dlv grain n attr round grp fl => [.deliveryArrival core grain n attr bytes round grp fl]) else []
    let passed : List Instr :=
      way (d != .south) (core - 16) .north (fun k => col k == col core && decide (row k < row core)) ++
      way (d != .north) (core + 16) .south (fun k => col k == col core && decide (row core < row k)) ++
      way (d == .source || d == .east) (core + 1) .east (fun k => decide (col core < col k)) ++
      way (d == .source || d == .west) (core - 1) .west (fun k => decide (col k < col core))
    exec (.multicastPacket core ⟨d, dests⟩ what bytes fs) s = .next { s with agenda := (own ++ passed) ++ s.agenda }) ∧
  (∀ (s : State) (core q : Nat) (key : MergeKey) (bytes : List Byte) (c : Copy) (cs : List Copy) (gr : Grid) (tm : Team)
    (va g left : Nat),
    s.cores.has (q / 16) = true → s.copies q = c :: cs → s.team? c.team = some tm → s.grid? tm.grid = some gr →
    c.st = .line → c.line = some (va, g, left) → key.recAddr = c.recAddr → key.coords = c.coords →
      let l := Layout.of c.record
      let stop := grainStop s c l va key.line g
      let u := ((c.served s q gr).filter fun tg => coreOfTeam tg.team == core).foldl (fun u tg => landGrain u gr tg c l va stop bytes) s
      ∃ t, exec (.multicastReply core key bytes q) s = .next t ∧ t.mem = s.mem ∧ t.teams = u.teams ∧ t.rings = u.rings ∧
        t.copies q = if left ≤ 1 then copyAfter l (grainDone c stop) cs else { c with line := some (va, g, left - 1) } :: cs) ∧
  (∀ (s : State) (core n : Nat) (key : MergeKey), s.dirs = [] → n < 16 →
    let q := core * 16 + n
    let alone := s.agenda ++ joinedReply s key [q]
    let all (js : List Nat) := s.agenda ++ joinedReply s key js
    ∃ t, exec (.joinRequest core n key) s = .next t ∧ t.mem = s.mem ∧ t.cores = s.cores ∧
      match openEntry s key with
      | some e =>
        let has (c : Nat) : Bool := e.joined.any fun j => j / 16 == c
        if !e.expected.contains core || has core || e.served.contains core then t.agenda = alone ∧ t.joins = s.joins
        else if e.timedOut then
          t.agenda = alone ∧ t.joins = if e.expected.all (e.served ++ [core]).contains
            then s.joins.filter fun x => !(x.slice == e.slice && x.idx == e.idx)
            else s.joins.map fun x => if x.slice == e.slice && x.idx == e.idx then { e with served := e.served ++ [core] } else x
        else if e.expected.all fun c => has c || c == core then
          t.agenda = all (e.joined ++ [q]) ∧ t.joins = s.joins.filter fun x => !(x.slice == e.slice && x.idx == e.idx)
        else t.agenda = s.agenda ∧ t.joins =
          s.joins.map fun x => if x.slice == e.slice && x.idx == e.idx then { e with joined := e.joined ++ [q] } else x
      | none =>
        let slice := servingSlice s.fw.slicesOut key.line
        let free := (List.range 64).find? fun i => !(s.joins.any fun e => e.slice == slice && e.idx == i)
        let members := membersOf s core key.ham
        if free = none ∨ core ∉ members then t.agenda = alone ∧ t.joins = s.joins
        else if ∀ c ∈ members, c = core then t.agenda = all [q] ∧ t.joins = s.joins
        else t.agenda = s.agenda ∧ ∃ i, free = some i ∧
          t.joins = s.joins ++ [⟨slice, i, key, members, [q], [], s.clk, false⟩]) ∧
  (∀ (s : State) (slice idx : Nat) (e : JoinEnt), s.dirs = [] →
    s.joins.find? (fun e => e.slice == slice && e.idx == idx && !e.timedOut) = some e →
      ∃ t, exec (.joinEntryTimeout slice idx) s = .next t ∧ t.mem = s.mem ∧ t.cores = s.cores ∧
        t.agenda = s.agenda ++ joinedReply s e.key e.joined ∧
        t.joins = s.joins.map fun x => if x.slice == e.slice && x.idx == e.idx
          then { e with timedOut := true, served := e.joined.map (· / 16) } else x) ∧
  (∀ (s : State) (slice idx : Nat), exec (.joinEntryExpiry slice idx) s =
    .next { s with joins := s.joins.filter fun e => !(e.slice == slice && e.idx == idx && e.timedOut) }) ∧
  (∀ (s : State) (q : Nat) (c : Copy) (cs : List Copy) (gr : Grid) (tm : Team) (va : W64), s.cores.has (q / 16) = true →
    s.copies q = c :: cs → s.team? c.team = some tm → s.grid? tm.grid = some gr → c.st = .stalled va →
      ((mapPage s gr.asid va.toNat).2 ≠ 2 → ∃ t, exec (.reeveFirstTouchMap (.copyq q)) s = .next t ∧
        t.copies q = { c with st := .run } :: cs ∧ t.mem = (mapPage s gr.asid va.toNat).1.mem) ∧
      ((mapPage s gr.asid va.toNat).2 = 2 → ∃ t, exec (.reeveFirstTouchMap (.copyq q)) s = .next t ∧
        t.copies q = { c with st := .escalated va } :: cs)) ∧
  (∀ (s : State) (u : UnitId) (q : Seq) (va : W64), s.seq? u = some q → touchAddr s u = some va →
    (mapPage s (s.asidOf u) va.toNat).2 = 0 ∨ (mapPage s (s.asidOf u) va.toNat).2 = 1 →
      exec (.reeveFirstTouchMap u) s = .next (mapPage s (s.asidOf u) va.toNat).1) ∧
  (∀ (s : State) (q : Nat), s.cores.has (q / 16) = true → ∃ t, exec (.copyResume q) s = .next t ∧
    t.copies q = (s.copies q).map (fun c => match c.st with | .escalated _ => { c with st := .run } | _ => c) ∧
    t.teams = s.teams ∧ t.groups = s.groups ∧ t.mem = s.mem)

/-! ### Sequencer memory and launches (R186, R383 to R385, R101) -/

/-- R186, R398: how an address of a team or grid sequencer translates. -/
def Sys2Proof.Machine.seqXlat (s : State) (u : UnitId) (a : Acc) (va : W64) : XRes :=
  match u with
  | .team k => xlatOne s (k / 16) (s.asidOf u) a false va
  | _ => if 2 ^ 55 ≤ va.toNat then .prot
    else match translateWalk s (s.asidOf u) va.toNat a with
      | .ok y => if timeBarred s y false then .prot else .ok y
      | r => r

/-- Nothing else of the units differs between two states. -/
def Sys2Proof.Machine.UnitsSame (s t : State) : Prop :=
  t.groups = s.groups ∧ t.teams = s.teams ∧ t.grids = s.grids ∧ t.vfs = s.vfs ∧ t.iss = s.iss

/-- R186: LDS and STS of a team or grid sequencer. A team's pass through the L1 of its core, a grid's are served at the home;
LDS writes its register as every write of the sequencer; a first-touch page is left to a reeve while the sequencer stalls, a
page being moved holds it, and any other fault stops it. -/
def Obligations.SequencerMemory : Prop :=
  ∀ (s : State) (u : UnitId) (q : Seq) (t : SType) (a b : SReg) (n : BitVec 7) (i : Instr),
    i = .lds t a b n ∨ i = .sts t a b n → SeqIssues s u q i →
      let size := stypeSize t
      let wr := i == .sts t a b n
      let acc : Acc := if wr then .wr else .rd
      let va : W64 := seqRead s u i b + n.signExtend 64 * BitVec.ofNat 64 size
      let f (c : Nat) : Trap := ⟨c, 0, va, false, wr, false⟩
      let bytes : List Byte := leBytes size (seqRead s u i a).toNat
      (va.toNat % size ≠ 0 → exec i s = .next (takeFault s u (f 0x0D))) ∧
      (va.toNat % size = 0 →
        (seqXlat s u acc va = .prot → exec i s = .next (takeFault s u (f 0x0C))) ∧
        (seqXlat s u acc va = .page false false → exec i s = .next (takeFault s u (f 0x0B))) ∧
        (∀ e, seqXlat s u acc va = .page true e →
          exec i s = .next { s with agenda := s.agenda ++ [.reeveFirstTouchMap u] }) ∧
        (seqXlat s u acc va = .page false true → exec i s = .next s) ∧
        ∀ y, seqXlat s u acc va = .ok y →
          (∀ k, u = .team k → y.prot ≠ .n →
            let c := s.coreD (k / 16)
            (wr = false → c.hit y.pa = true → ∃ v w, UnitsSame s v ∧ v.mem = s.mem ∧ exec i s = .next w ∧
              SeqWrote v w u q a.num (scalarLoad t (c.l1Read y.pa size))) ∧
            (wr = true → (c.miss? (gbase y.gsz y.pa)).isNone = true →
              (if y.prot = .d then c.grainSt y.pa = some .ex else c.hit y.pa = true) → y.pa % size = 0 →
              ∃ v, UnitsSame s v ∧ v.mem = s.mem ∧
                (∀ p, (v.coreD (k / 16)).l1Read p 1 =
                  if y.pa ≤ p ∧ p < y.pa + size then [bytes.getD (p - y.pa) 0] else c.l1Read p 1) ∧
                exec i s = .next (v.updSeq u fun q => { q with voted := none, ctl := { q.ctl with pc := s.nextPc } }))) ∧
          (∀ k, u = .grid k → s.dirs = [] → s.poison = [] → s.cutOff y.pa = false → s.pathHeld y.pa 0 = false →
            (wr = false → ∃ v w, UnitsSame s v ∧ v.mem = s.mem ∧ exec i s = .next w ∧
              SeqWrote v w u q a.num (scalarLoad t (s.homeRead y.pa size))) ∧
            (wr = true → isRemote y.pa = false → ∃ v, UnitsSame s v ∧ v.mem = memWrite s.mem y.pa bytes ∧
              exec i s = .next (v.updSeq u fun q => { q with voted := none, ctl := { q.ctl with pc := s.nextPc } }))))

/-- R385, R434: the code with which a launch record is refused, where it is. -/
def Sys2Proof.Machine.launchRefusal (s : State) (vf asid : Nat) (bs : List Byte) (host : Bool) : Option Nat :=
  let f (off n : Nat) : Nat := fieldAt bs off n
  if 2 ≤ f 0x0E 2 ∨ f 0x08 2 = 0 ∨ f 0x0A 2 = 0 ∨ f 0x0C 2 = 0 ∨ 2 ^ 63 ≤ f 0x18 8 ∨ f 0x00 8 % 64 ≠ 0 ∨ f 0x10 8 % 8 ≠ 0 ∨
      (host = false ∧ f 0x20 32 ≠ 0) then some 0x01
  else match loadedKcb s vf asid (f 0x00 8) with
    | none => some 0x02
    | some k =>
      if k.txmax < f 0x08 2 ∨ k.tymax < f 0x0A 2 ∨ k.tzmax < f 0x0C 2 ∨ (partCores s vf).length < k.vgrid then some 0x02
      else if k.whole = true ∧ floorOf s vf * k.columnsPerCore < f 0x08 2 * f 0x0A 2 * f 0x0C 2 then some 0x03
      else if k.reqfeat &&& ~~~(match s.vfs.get? vf with | some v => v.accepted | none => 0) ≠ 0 then some 0x04
      else none

/-- R101, R371, R384: the grid that a launch record makes: its block, extents and signal, its arguments in g0 to g7 with g8 to
g31 zero, at the entry, waiting to be placed. -/
def Sys2Proof.Machine.ChildOf (g : Grid) (vf asid : Nat) (bs : List Byte) (k : Kcb) (queue : Nat) (host : Bool) : Prop :=
  g.vf = vf ∧ g.asid = asid ∧ g.kcb = k ∧ g.kcbAddr = fieldAt bs 0x00 8 ∧ g.x = fieldAt bs 0x08 2 ∧ g.y = fieldAt bs 0x0A 2 ∧
  g.z = fieldAt bs 0x0C 2 ∧ g.sig = (fieldAt bs 0x0E 2 % 2 == 1) ∧ g.sigaddr = BitVec.ofNat 64 (fieldAt bs 0x10 8) ∧
  g.sigval = BitVec.ofNat 64 (fieldAt bs 0x18 8) ∧ g.st = .waiting ∧ g.queue = queue ∧ g.host = host ∧ g.teams = [] ∧
  g.seq.ctl.pc = k.entry ∧ g.seq.st = .fetch ∧
  ∀ n, (g.seq.ver g.seq.cur).regs.getD n 0 = if n < 8 then BitVec.ofNat 64 (fieldAt bs (0x40 + 8 * n) 8) else 0

/-- R460: a word that a reeve writes for a launch reaches memory: the address is aligned and translates for a context, and its
frame is not between its copy and its new entry in a move (R403). -/
def Sys2Proof.Machine.SignalReaches (s : State) (asid : Nat) (addr : W64) (y : Xlat) : Prop :=
  addr.toNat % 8 = 0 ∧ addr.toNat < 2 ^ 55 ∧ asid ≠ 0 ∧ translateWalk s asid addr.toNat .wr = .ok y ∧
  timeBarred s y false = false ∧ s.dirs = [] ∧ isRemote y.pa = false ∧ movedTo s y.pa = none

/-- R383 to R385: LAUNCH.T and LAUNCH.D. Once the issuing group has ended its run, a release is performed, the record is read
after it, and the record takes an entry of the partition's device-launch queue, or the sequencer waits for one; a misaligned
or unmapped record faults at the slot. A reeve then validates each entry: the child is accepted, or refused with its code at
SIGADDR; an entry whose grid is placed leaves, and a waiting LAUNCH takes its place.
Three points are the model's choices (assumption 80), since the spec leaves them open: the first of the refusal codes 0x01 to 0x04
that apply is given (`launchRefusal`); an entry of the device-launch queue is free again once its grid is wholly placed, aborted or
ended (`kept`); and of the LAUNCHes that wait team sequencers by key come first, then grid sequencers (`waitingLaunch`). -/
def Obligations.Launches : Prop :=
  (∀ (s : State) (u : UnitId) (q : Seq) (i : Instr) (b : SReg), i = .launchT b ∨ i = .launchD b → SeqIssues s u q i →
    launchReady s u = true →
      let a := seqRead s u i b
      let r := launchRelease s u
      UnitsSame s r ∧
      (a.toNat % 128 ≠ 0 → exec i s = .next (takeFault r u ⟨0x0D, 0, a, false, false, false⟩)) ∧
      (a.toNat % 128 = 0 → 2 ^ 55 ≤ a.toNat → exec i s = .next (takeFault r u ⟨0x0C, 0, a, false, false, false⟩)) ∧
      ∀ y v, a.toNat % 128 = 0 → seqXlat r u .rd a = .ok y → r.poison = [] → r.cutOff y.pa = false →
        s.vfs.get? (vfOf s u) = some v →
        (∀ n < 4, r.pathHeld (y.pa + 32 * n) 0 = false) →
        ∀ bs, ((∃ k, u = .grid k ∧ r.dirs = [] ∧ bs = r.homeRead y.pa 128) ∨
            (∃ k, u = .team k ∧ y.prot = .n ∧ r.dirs = [] ∧ bs = r.homeRead y.pa 32 ++ r.homeRead (y.pa + 32) 32 ++
              r.homeRead (y.pa + 64) 32 ++ r.homeRead (y.pa + 96) 32) ∨
            (∃ k, u = .team k ∧ y.prot ≠ .n ∧ (∀ n < 4, (r.coreD (k / 16)).hit (y.pa + 32 * n) = true) ∧
              bs = (List.range 4).flatMap fun n => (r.coreD (k / 16)).l1Read (y.pa + 32 * n) 32)) →
          (v.launchq.length < 32 → ∃ t e, exec i s = .next t ∧
            t.vfs.get? (vfOf s u) = some { v with launchq := v.launchq ++ [e] } ∧
            e.bytes = bs ∧ e.asid = s.asidOf u ∧ e.grid = none ∧
            t.seq? u = some { q with voted := none, ctl := { q.ctl with pc := nextSlot q.ctl.pc } } ∧
            t.agenda = r.agenda ++ [.launchRecordValidation (vfOf s u)]) ∧
          (32 ≤ v.launchq.length → ∃ t, exec i s = .next t ∧ t.vfs = s.vfs ∧
            t.seq? u = some { q with st := .launch, heldRec := some bs } ∧ t.agenda = r.agenda)) ∧
  (∀ (s : State) (vf : Nat) (v : Vf) (e : LaunchEnt) (n : Nat), s.vfs.get? vf = some v →
    v.launchq.zipIdx.find? (fun e => e.1.grid.isNone) = some (e, n) →
      let addr := BitVec.ofNat 64 (fieldAt e.bytes 0x10 8)
      match launchRefusal s vf e.asid e.bytes false with
      | none => ∃ t g k v', exec (.launchRecordValidation vf) s = .next t ∧ loadedKcb s vf e.asid (fieldAt e.bytes 0 8) = some k ∧
          t.grid? s.nextKey = some g ∧ ChildOf g vf e.asid e.bytes k e.queue false ∧ t.vfs.get? vf = some v' ∧
          v'.launchq = v.launchq.mapIdx (fun j e => if j = n then { e with grid := some s.nextKey } else e) ∧
          (∀ j, j ≠ s.nextKey → t.grid? j = s.grid? j) ∧ t.mem = s.mem ∧ t.groups = s.groups ∧ t.teams = s.teams
      | some code =>
        (fieldAt e.bytes 0x0E 2 % 2 = 0 → ∃ t, exec (.launchRecordValidation vf) s = .next t ∧
          t.vfs.get? vf = some { v with launchq := v.launchq.eraseIdx n } ∧ t.grids = s.grids ∧ t.mem = s.mem ∧
          t.agenda = s.agenda ++ [.launchQueueEntryFreed vf]) ∧
        (∀ y, fieldAt e.bytes 0x0E 2 % 2 = 1 → SignalReaches s e.asid addr y →
          ∃ t, exec (.launchRecordValidation vf) s = .next t ∧
            t.vfs.get? vf = some { v with launchq := v.launchq.eraseIdx n } ∧ t.grids = s.grids ∧
            t.mem = memWrite s.mem y.pa (leBytes 8 (2 ^ 63 + code)) ∧
            t.agenda = s.agenda ++ [.launchQueueEntryFreed vf])) ∧
  (∀ (s : State) (vf : Nat) (v : Vf), s.vfs.get? vf = some v →
    let kept := v.launchq.filter fun e => !(match e.grid with
      | none => false
      | some k => match s.grid? k with | some g => decide (g.total ≤ g.nextTeam) || g.abortCode.isSome | none => true)
    let s1 := { s with vfs := s.vfs.set vf { v with launchq := kept } }
    (waitingLaunch s1 vf = none → exec (.launchQueueEntryFreed vf) s = .next s1) ∧
    (∀ u q bs, waitingLaunch s1 vf = some u → s.seq? u = some q → q.heldRec = some bs → vfOf s u = vf → kept.length < 32 →
      ∃ t e, exec (.launchQueueEntryFreed vf) s = .next t ∧ t.vfs.get? vf = some { v with launchq := kept ++ [e] } ∧
        e.bytes = bs ∧ e.grid = none ∧ t.agenda = s.agenda ++ [.launchRecordValidation vf] ∧
        t.seq? u = some { q with
          st := .fetch, heldRec := none, voted := none, ctl := { q.ctl with pc := nextSlot q.ctl.pc } }))

/-! ### Requests, fills and deliveries (R299 to R303, R318 to R325, R337) -/

/-- The value that a table of written bytes gives an address: the last one listed. -/
def Sys2Proof.Machine.lastByte (bytes : Tab Byte) (a : Nat) : Option Byte :=
  bytes.reverse.findSome? fun p => if p.1 = a then some p.2 else none

/-- `t` is `s` with the listed bytes written to device memory. -/
def Sys2Proof.Machine.Merged (s t : State) (bytes : Tab Byte) : Prop :=
  ∀ a, memGet t.mem a = (lastByte bytes a).getD (memGet s.mem a)

/-- No request of a grain is being served and none waits. -/
def Sys2Proof.Machine.QuietDir (d : Dir) : Prop := d.held = [] ∧ d.cur = none ∧ d.acks = 0

/-- An access waits on a miss, and every one that waits meets data (R408, R452). -/
def Sys2Proof.Machine.Fillable (s : State) (m : Miss) : Prop := m.waiters ≠ [] ∧ noDataFor s m = []

/-- No owner is recorded. -/
def Sys2Proof.Machine.Unowned (d : Dir) : Prop := ∀ c, d.st ≠ .own c

/-- At most one way of a core's set holds a grain's block. -/
def Sys2Proof.Machine.SoleWay (c : Core) (g : Nat) : Prop :=
  ∀ k b, k / 24 = setOf g → c.l1.get? k = some b → b.tag = frameOf g → b.sv ≠ 0 → c.way? g = some k

/-- R299, R318 to R325: requests at a grain. A read of a grain that the directory does not track is answered from the home;
a read of a D grain makes a sharer, and recalls the copy of an owner first. A request for ownership is granted when no other
core holds a copy; otherwise each holder is recalled or invalidated, and the last answer grants it. A D request that finds its
slice full takes the least recently used entry with no LOCK, no held request and no DEL pointer, once that entry's copies are
invalidated. Written bytes are merged by their byte mask, under LOCK only after it, and after the copies of other cores have
gone, and of their own core where a delivery to it is still due (R300). A core answers an invalidation and a recall with its
dirty bytes; a window's copy stays (R327). -/
def Obligations.GrainRequests : Prop :=
  ∀ (s : State) (core grain : Nat),
    (∀ m, (s.coreD core).miss? grain = some m → Fillable s m → m.prot ≠ .d →
      (m.prot = .w ∨ ∀ d, s.dirs.get? grain = some d → QuietDir d) →
        ∃ t, exec (.readRequest core grain) s = .next t ∧ t.mem = s.mem ∧ t.cores = s.cores ∧ t.dirs = s.dirs ∧
          t.agenda = s.agenda ++ [.fill core grain (s.homeRead grain m.gsz) false]) ∧
    (∀ m v d, (s.coreD core).miss? grain = some m → Fillable s m → m.prot = .d → dirRoom s grain = false →
      s.dirs.keys.Nodup → roomAt s grain = none → victimEntry s grain = some v → s.dirs.get? v = some d → d.acks = 0 → d.hostown = false →
      d.rel = none → Unowned d →
        QuietDir d ∧ d.lock = false ∧ (∀ p ∈ d.ptrs, p.2 = false) ∧
        (∀ g e, (g, e) ∈ sliceDirs s grain → e.lock = false → QuietDir e → (∀ p ∈ e.ptrs, p.2 = false) → d.lru ≤ e.lru) ∧
        ∃ t, exec (.readRequest core grain) s = .next t ∧ t.mem = s.mem ∧ t.cores = s.cores ∧
          (s.holders d = [] → t.dirs.get? v = none ∧ t.agenda = s.agenda ++ [.readRequest core grain]) ∧
          (s.holders d ≠ [] → t.agenda = s.agenda ++ (s.holders d).map (.invalidation · v))) ∧
    (∀ m, (s.coreD core).miss? grain = some m → Fillable s m → m.prot = .d → dirRoom s grain = true →
      let d := s.dirD grain m.gsz
      QuietDir d →
        (Unowned d → ∃ t d', exec (.readRequest core grain) s = .next t ∧ t.mem = s.mem ∧ t.cores = s.cores ∧
          t.agenda = s.agenda ++ [.fill core grain (s.homeRead grain d.gsz) false] ∧ t.dirs.get? grain = some d' ∧
          d'.st = .shd ∧ (d'.ptrs.any (fun p => p.1 == core) = true ∨ core / 128 ∈ d'.clbits)) ∧
        (∀ c, d.st = .own c → ∃ t, exec (.readRequest core grain) s = .next t ∧ t.mem = s.mem ∧ t.cores = s.cores ∧
          t.agenda = s.agenda ++ [.recall c grain true] ∧
          t.dirs.get? grain = some { d with cur := some (.read core), acks := 1, lru := s.clk })) ∧
    (∀ m, (s.coreD core).miss? grain = some m → Fillable s m → dirRoom s grain = true →
      let d := s.dirD grain m.gsz
      let others := (s.holders d).filter (· != core)
      QuietDir d →
        (d.lock = true ∨ d.hostown = true → ∃ t, exec (.ownershipRequest core grain) s = .next t ∧ t.mem = s.mem ∧
          t.cores = s.cores ∧ t.agenda = s.agenda ∧
          t.dirs.get? grain = some { d with held := [.own core], lru := s.clk }) ∧
        (d.lock = false → d.hostown = false → ∀ c, d.st = .own c → ∃ t, exec (.ownershipRequest core grain) s = .next t ∧
          t.mem = s.mem ∧ t.cores = s.cores ∧ t.agenda = s.agenda ++ [.recall c grain false] ∧
          t.dirs.get? grain = some { d with cur := some (.own core), acks := 1, lru := s.clk }) ∧
        (d.lock = false → d.hostown = false → Unowned d → others = [] → ∃ t, exec (.ownershipRequest core grain) s = .next t ∧
          t.mem = s.mem ∧ t.cores = s.cores ∧ t.agenda = s.agenda ++ [.fill core grain (s.homeRead grain d.gsz) true] ∧
          t.dirs.get? grain = some { d with st := .own core, ptrs := [], clbits := [], lru := s.clk }) ∧
        (d.lock = false → d.hostown = false → Unowned d → others ≠ [] → ∃ t, exec (.ownershipRequest core grain) s = .next t ∧
          t.mem = s.mem ∧ t.cores = s.cores ∧ t.agenda = s.agenda ++ others.map (.invalidation · grain) ∧
          t.dirs.get? grain = some { d with cur := some (.own core), acks := others.length, lru := s.clk })) ∧
    (∀ (bytes : Tab Byte) (d : Dir), isRemote grain = false → (∀ p ∈ bytes, isRemote p.1 = false) → s.dirs.get? grain = some d →
      (QuietDir d → d.lock = false → d.st = .own core → d.ptrs = [] → d.clbits = [] → s.owesAnswer grain core = false → ∃ t, exec (.writeback core grain bytes .evict) s = .next t ∧ Merged s t bytes ∧
        t.cores = s.cores ∧ t.agenda = s.agenda ∧
        ∀ d', t.dirs.get? grain = some d' → d'.st = .un ∧ d'.ptrs = [] ∧ d'.clbits = []) ∧
      (∀ hs, hs = (s.holders d).filter (fun c => c != core || s.owesAnswer grain core) → hs ≠ [] → QuietDir d → d.lock = false →
        Unowned d → ∃ t, exec (.writeback core grain bytes .evict) s = .next t ∧ t.mem = s.mem ∧ t.cores = s.cores ∧
          t.agenda = s.agenda ++ hs.map (.invalidation · grain) ∧
          t.dirs.get? grain = some { d with cur := some (.merge core bytes), acks := hs.length, lru := s.clk }) ∧
      (QuietDir d → d.lock = true → exec (.writeback core grain bytes .evict) s =
        .next { s with dirs := s.dirs.set grain { d with held := [.merge core bytes], lru := s.clk } }) ∧
      (∀ k m, d.cur = some (.read k) → d.acks = 1 → d.held = [] → (s.coreD k).miss? grain = some m → m.prot = .d →
        s.poison = [] → m.waiters ≠ [] → ∃ t d', exec (.writeback core grain bytes .recallShared) s = .next t ∧ Merged s t bytes ∧ t.cores = s.cores ∧
          t.agenda = s.agenda ++ [.fill k grain (t.homeRead grain d.gsz) false] ∧ t.dirs.get? grain = some d' ∧ d'.st = .shd) ∧
      (∀ k m, d.cur = some (.own k) → d.acks = 1 → d.held = [] → (s.coreD k).miss? grain = some m → s.poison = [] →
        m.waiters ≠ [] → ∃ t d', exec (.writeback core grain bytes .recallAll) s = .next t ∧ Merged s t bytes ∧ t.cores = s.cores ∧
          t.agenda = s.agenda ++ [.fill k grain (t.homeRead grain d.gsz) true] ∧ t.dirs.get? grain = some d' ∧
          d'.st = .own k ∧ d'.ptrs = [] ∧ d'.clbits = [])) ∧
    (∀ bytes : Tab Byte, isRemote grain = false → (∀ p ∈ bytes, isRemote p.1 = false) →
      (s.dirs = [] → ∃ t, exec (.writeback core grain bytes .evict) s = .next t ∧ Merged s t bytes ∧
        t.cores = s.cores ∧ t.agenda = s.agenda ∧ t.dirs = []) ∧
      ∃ t, exec (.writeback core grain bytes .invalidated) s = .next t ∧ Merged s t bytes ∧ t.cores = s.cores ∧
        t.agenda = s.agenda ∧ t.dirs = s.dirs) ∧
    (∀ d, s.dirs.get? grain = some d → QuietDir d → d.lock = false → d.st = .own core →
      ∃ t, exec (.cleanNotice core grain) s = .next t ∧ t.mem = s.mem ∧ t.cores = s.cores ∧ t.agenda = s.agenda ∧
        ∀ d', t.dirs.get? grain = some d' → d'.st = .un ∧ d'.ptrs = [] ∧ d'.clbits = []) ∧
    (let c := s.coreD core
     let dirty := c.dirtyOf grain
     (c.windowed grain = true →
      exec (.invalidation core grain) s = .next { s with agenda := s.agenda ++ [.invalidationAck core grain] } ∧
      exec (.recall core grain false) s = .next { s with agenda := s.agenda ++ [.writeback core grain [] .recallAll] }) ∧
     (c.windowed grain = false → ∃ t, exec (.invalidation core grain) s = .next t ∧ t.mem = s.mem ∧ t.dirs = s.dirs ∧
      (∀ k ≠ core, t.cores.get? k = s.cores.get? k) ∧
      t.agenda = s.agenda ++ ((if dirty = [] then [] else [.writeback core grain dirty .invalidated]) ++
        [.invalidationAck core grain]) ∧
      (∀ m ∈ (t.coreD core).misses, m.grain = grain → m.prot ≠ .w → m.useOnce = true) ∧
      (SoleWay c grain → (t.coreD core).grainSt grain = none ∧ (t.coreD core).dirtyOf grain = [])) ∧
     (c.grainSt grain = some .ex → ∃ t, exec (.recall core grain true) s = .next t ∧ t.mem = s.mem ∧ t.dirs = s.dirs ∧
      (∀ k ≠ core, t.cores.get? k = s.cores.get? k) ∧ t.agenda = s.agenda ++ [.writeback core grain dirty .recallShared] ∧
      (t.coreD core).grainSt grain = some .sh ∧ (t.coreD core).dirtyOf grain = []) ∧
     (c.grainSt grain ≠ some .ex → exec (.recall core grain true) s =
      .next { s with agenda := s.agenda ++ [.writeback core grain [] .recallShared] }) ∧
     (c.windowed grain = false → ∃ t, exec (.recall core grain false) s = .next t ∧ t.mem = s.mem ∧ t.dirs = s.dirs ∧
      (∀ k ≠ core, t.cores.get? k = s.cores.get? k) ∧ t.agenda = s.agenda ++ [.writeback core grain dirty .recallAll] ∧
      (SoleWay c grain → (t.coreD core).grainSt grain = none))) ∧
    (∀ d k, s.dirs.get? grain = some d → d.cur = some (.own k) →
      (∀ n, d.acks = n + 2 → ∃ t, exec (.invalidationAck core grain) s = .next t ∧ t.mem = s.mem ∧ t.cores = s.cores ∧
        t.agenda = s.agenda ∧ t.dirs.get? grain =
          some { d with acks := n + 1, ptrs := d.ptrs.filter (fun p => p.1 != core), lru := s.clk }) ∧
      (∀ m, (s.coreD k).miss? grain = some m → Fillable s m → d.acks = 1 → d.held = [] → Unowned d →
        (∀ p ∈ d.ptrs, p.1 = core ∨ p.1 = k) → ∃ t d', exec (.invalidationAck core grain) s = .next t ∧ t.mem = s.mem ∧ t.cores = s.cores ∧
          t.agenda = s.agenda ++ [.fill k grain (s.homeRead grain d.gsz) true] ∧ t.dirs.get? grain = some d' ∧
          d'.st = .own k ∧ d'.ptrs = [] ∧ d'.clbits = []))

/-- A grain's size and place within its block of 512 bytes (R221, R323, R325). -/
def Sys2Proof.Machine.GrainAt (grain gsz : Nat) : Prop := (gsz = 32 ∨ gsz = 64 ∨ gsz = 128 ∨ gsz = 256 ∨ gsz = 512) ∧ grain % gsz = 0

/-- A fill reaches the one access that waits for a grain that the core does not hold. -/
structure Sys2Proof.Machine.FillFor (s : State) (core grain : Nat) (bytes : List Byte) (m : Miss) (w : Waiter) (g : Group) : Prop where
  miss : (s.coreD core).miss? grain = some m
  one : m.waiters = [w]
  away : (s.coreD core).way? grain = none
  size : GrainAt grain m.gsz ∧ bytes.length = m.gsz
  place : grain ≤ w.pa ∧ w.pa + w.size ≤ grain + m.gsz
  grp : s.group? w.grp = some g

/-- A delivery's answer from a core, and the event of the last answer. -/
def Sys2Proof.Machine.Answered (s t : State) (core grain grp flight : Nat) : Prop :=
  let same (d : DlvWait) : Bool := d.grp == grp && d.flight == flight && d.grain == grain
  t.dlvs = (s.dlvs.map fun d => if same d then { d with cores := d.cores.filter (· != core) } else d) ∧
  ∃ between, t.agenda = s.agenda ++ (between ++
    if t.dlvs.any (fun d => same d && d.cores.isEmpty) then [.deliverySettled grp flight grain] else [])

/-- The value that SR.REFUSED takes when a delivery is refused (R302): its low 32 bits stop at their last value, and bit 32 is set
when they reach it. -/
def Sys2Proof.Machine.refusedNext (x : W64) : W64 :=
  if x.setWidth 32 = 0xFFFFFFFF then x
  else if x.setWidth 32 = 0xFFFFFFFE then (x + 1) ||| BitVec.ofNat 64 (2 ^ 32)
  else x + 1

/-- R221, R299 to R303, R321 to R324, R337: what reaches a core. A fill ends a miss: it is installed in the state of its
protocol, and the access that waited is made with its bytes. A retry translates the accesses of a grain again. A delivery is
installed in DU, or refused and counted, the core's record at the home then gone and its own dirty bytes merged there; the last
answer settles it. A lane of LDB.S whose wait ends refetches: it joins the grain's miss, and a fill of too old a round serves
no bounded load, which asks again. -/
def Obligations.FillsAndDeliveries : Prop :=
  ∀ (s : State) (core grain : Nat),
    (∀ (bytes : List Byte) (own : Bool) (m : Miss) (w : Waiter) (g : Group), FillFor s core grain bytes m w g →
      let landed (t : State) := t.mem = s.mem ∧ t.dirs = s.dirs ∧ (t.coreD core).miss? grain = none ∧
        (∀ k ≠ core, t.cores.get? k = s.cores.get? k)
      let kept := (m.useOnce = false ∨ own = true) ∧ m.prot ≠ .n
      (isStore w = false → (∀ y n th, w.act = .loadB y n th → ge32 m.frnd th = true) → ∃ t, exec (.fill core grain bytes own) s = .next t ∧ landed t ∧
        t.group? w.grp = some (g.arrive w.flight (loadWrites w ((bytes.drop (w.pa - grain)).take w.size))) ∧
        (kept → (s.coreD core).pickWay grain ≠ none →
          (t.coreD core).grainSt grain = some (if m.prot = .d then (if own then .ex else .sh) else .v) ∧
          (t.coreD core).l1Read grain m.gsz = bytes) ∧
        (¬ kept → (t.coreD core).grainSt grain = none)) ∧
      (∀ y n th, w.act = .loadB y n th → ge32 m.frnd th = false → m.prot ≠ .d → ∃ t, exec (.fill core grain bytes own) s = .next t ∧
        t.mem = s.mem ∧ t.group? w.grp = some g ∧ (t.coreD core).miss? grain =
          some { m with own := false, useOnce := false, frnd := (s.coreD core).view m.asid m.bell, waiters := [w] }) ∧
      (∀ bs, w.act = .store bs → bs.length = w.size → (own = true ∨ m.prot ≠ .d) → kept →
        (s.coreD core).pickWay grain ≠ none → 0 < w.size → ∃ t, exec (.fill core grain bytes own) s = .next t ∧ landed t ∧
          t.group? w.grp = some (g.arrive w.flight []) ∧ (t.coreD core).l1Read w.pa w.size = bs ∧
          (t.coreD core).grainSt grain = some (if m.prot = .d then .ex else .vd))) ∧
    (∀ (m : Miss) (w : Waiter) (x : Xlat), (s.coreD core).miss? grain = some m → m.waiters = [w] →
      translate s core m.asid w.va (if isStore w then .wr else .rd) = .ok x →
      let n := gbase x.gsz x.pa
      (s.coreD core).misses = [m] → ∃ t, exec (.retry core grain) s = .next t ∧ t.mem = s.mem ∧ t.dirs = s.dirs ∧
        (t.coreD core).misses = [{ m with grain := n, waiters := [{ w with pa := x.pa }] }] ∧
        t.agenda = s.agenda ++ [if m.own && m.prot = .d then .ownershipRequest core n else .readRequest core n]) ∧
    (∀ (gsize : Nat) (attr : PageAttr) (bytes : List Byte) (round : W32) (grp flight : Nat) (c : Core),
      s.cores.get? core = some c → GrainAt grain gsize → (bytes = [] ∨ bytes.length = gsize) →
      let go := mayInstall s c grain gsize attr.vf bytes
      (go = true → (∀ w ∈ c.ldbWaits, w.grain ≠ grain) → ∃ t c',
        exec (.deliveryArrival core grain gsize attr bytes round grp flight) s = .next t ∧ t.mem = s.mem ∧
        t.groups = s.groups ∧ t.cores.get? core = some c' ∧ c'.grainSt grain = some .du ∧ c'.l1Read grain gsize = bytes ∧
        c'.refused = c.refused ∧ t.dirs = s.dirs ∧ Answered s t core grain grp flight) ∧
      (go = false → isRemote grain = false → (∀ p ∈ c.dirtyOf grain, isRemote p.1 = false) →
        (c.dirtyOf grain = [] ∨ s.dirs.get? grain = none) → ∃ t c',
        exec (.deliveryArrival core grain gsize attr bytes round grp flight) s = .next t ∧ Merged s t (c.dirtyOf grain) ∧
        t.groups = s.groups ∧ t.cores.get? core = some c' ∧ (SoleWay c grain → c'.grainSt grain = none) ∧
        c'.refused = refusedNext c.refused ∧
        (∀ d, t.dirs.get? grain = some d → ∀ p ∈ d.ptrs, p.1 ≠ core) ∧ Answered s t core grain grp flight)) ∧
    (∀ (grp flight : Nat) (g : Group), s.group? grp = some g → ∃ t, exec (.deliverySettled grp flight grain) s = .next t ∧
      t.group? grp = some { g with unsettled := g.unsettled.filter fun p => p != (flight, grain) } ∧
      t.dlvs = (s.dlvs.filter fun d => !(d.grp == grp && d.flight == flight && d.grain == grain)) ∧
      t.mem = s.mem ∧ t.cores = s.cores ∧ t.agenda = s.agenda) ∧
    (∀ (k flight lane : Nat) (x : GCtx) (c : Core) (w : LdbWait) (wt : Waiter), s.gctx k = some x →
      s.cores.get? (coreOfGroup k) = some c →
      c.ldbWaits.find? (fun w => w.grp == k && w.flight == flight && w.lane == lane) = some w → w.miss.waiters = [wt] →
      w.miss.own = false →
      let gr := w.miss.grain
      let wb : Waiter := { wt with act := .loadB w.t w.phys w.th }
      let m := { w.miss with frnd := c.view w.miss.asid w.miss.bell, waiters := [wb] }
      ∃ t c', exec (.ldbSTimeout k flight lane) s = .next t ∧ t.cores.get? (coreOfGroup k) = some c' ∧
        c'.ldbWaits = c.ldbWaits.filter (fun e => e != w) ∧ t.groups = s.groups ∧ t.mem = s.mem ∧
        (c.miss? gr = none → c'.misses = c.misses ++ [m] ∧ t.agenda = s.agenda ++ [.readRequest (coreOfGroup k) gr]) ∧
        (∀ old, c.miss? gr = some old → t.agenda = s.agenda ∧
          c'.miss? gr = some { old with waiters := old.waiters ++ [wb] }))

/-! ### Runs, votes and stops (R24 to R27, R34, R35, R98 to R105, R118, R127, R129, R201, R225, R226, R230, R372, R373) -/

/-- R102, R104, R127: a vote of a sequencer is complete: it goes back to its slot with the values agreed; the vote of a REVOTE
also closes the frame, at the slot that took the fault. `c` is the control state with the vote's record. -/
def Sys2Proof.Machine.VoteDone (s t : State) (u : UnitId) (q : Seq) (c : Ctl) (vals : List W64) : Prop :=
  ∃ q', t.seq? u = some q' ∧ q'.st = .fetch ∧ q'.voted = some vals ∧ q'.reports = [] ∧ q'.revote = false ∧ q'.vers = q.vers ∧
    q'.cur = q.cur ∧ q'.run = q.run ∧ (q.revote = false ∨ q.ctl.frame = none → q'.ctl = c) ∧
    (q.revote = true → ∀ f, q.ctl.frame = some f → Unwound c q'.ctl f ∧ q'.ctl.pc = f.x) ∧ t.groups = s.groups ∧ t.mem = s.mem

/-- R26, R225, R226: the sequencer's file has a version that a changed register or pin may go to. -/
def Sys2Proof.Machine.VersionFits (s : State) (u : UnitId) (q : Seq) : Prop :=
  named s u q.cur = false ∨ (freeVersion s u q).isSome = true

/-- R24 to R27, R34, R98 to R105, R118, R127, R201, R225, R226, R283, R372, R373: runs and votes. A member takes the next run
of its race unless the sequencer above is parked, a handler's first run once it has drained (R126); at its end the group reports what the run asks for; an end marker retires a
group, and ends a team as END.T does. A sequencer in FULL or VERS goes on once there is room. A vote completes with the
reports of every active member, or takes the NUF. A sequencer asked to stop parks and keeps what it reported only below a stop
of its tree; where a grid parks for a frame below it, its teams in FULL and VOTE park with it. A held REVOTE executes X once its
unit accepts it; a group at a stop point parks once its flights have drained, but for its MMLOOPs where it is pre-empted (R246); a
group whose mapping the host has repaired goes on at its faulting instruction. A retiring group goes once its last slot's clks are
over (R212, R213); that its stores to other devices have been acknowledged too (`acks`) is the model's choice (assumption 93). -/
def Obligations.RunEvents : Prop :=
  ∀ s : State,
    (∀ k g r rest q, s.group? k = some g → g.st = .idle → g.race = .run r :: rest → s.seq? (.team g.team) = some q →
      q.st ≠ .park → (q.st = .done → q.stopReq = .none) →
      (∀ tm gr, s.team? g.team = some tm → s.grid? tm.grid = some gr → gr.kcb.whole = true → gr.seq.st = .park →
        gr.seq.route = none) → (r.first = true → g.flights = [] ∧ g.flags = []) → ∃ t, exec (.takeRun k) s = .next t ∧
        t.group? k = some { g with st := .running, run := some r, race := rest, ctl := { g.ctl with pc := r.start } } ∧
        (∀ j, j ≠ k → t.group? j = s.group? j) ∧ t.teams = s.teams ∧ t.mem = s.mem ∧ t.cores = s.cores ∧
        t.agenda = s.agenda ++ if q.st = .full ∧ raceFull t (.team g.team) = false then [.raceSpaceFreed (.team g.team)] else []) ∧
    (∀ k g q, s.group? k = some g → s.seq? (.team g.team) = some q →
      (q.st = .park ∨ ∃ tm gr, s.team? g.team = some tm ∧ s.grid? tm.grid = some gr ∧ gr.kcb.whole = true ∧
        gr.seq.st = .park ∧ gr.seq.route ≠ none) → exec (.takeRun k) s = .next s) ∧
    (∀ k g r rest, s.group? k = some g → g.st = .idle → g.race = .run r :: rest → r.first = true →
      (g.flights ≠ [] ∨ g.flags ≠ []) → exec (.takeRun k) s = .next s) ∧
    (∀ k g r tm, s.group? k = some g → g.st = .running → g.run = some r → s.team? g.team = some tm →
      (match r.ask with
        | .none => True
        | .regs ns => ∀ n ∈ ns, g.pendS.has n = false
        | .mask m => g.pendM.has m = false) →
      let report := match r.ask with | .none => [] | .regs ns => ns.map g.sregD | .mask m => [g.mreg m &&& g.live, g.live]
      ∃ t tm', exec (.runEnd k) s = .next t ∧ t.group? k = some { g with st := .idle, run := none } ∧
        (∀ j, j ≠ k → t.group? j = s.group? j) ∧ t.team? g.team = some tm' ∧ t.mem = s.mem ∧ t.cores = s.cores ∧
        tm' = { tm with seq := { tm.seq with reports :=
          (if r.ask = .none then tm.seq.reports else tm.seq.reports.set g.gid report) } }) ∧
    (∀ k x rest, s.gctx k = some x → x.g.st = .idle → x.g.race = .marker :: rest →
      ∃ t, exec (.endMarkerTaken (.group k)) s = .next t ∧ Retiring s t k x x.g.live ∧ t.raceOf (.group k) = rest) ∧
    (∀ n tm rest, s.team? n = some tm → tm.seq.st = .upwait → tm.race = .marker :: rest → tm.activeG.Nodup →
      ∃ t tm', exec (.endMarkerTaken (.team n)) s = .next t ∧ t.team? n = some tm' ∧ tm'.seq.st = .done ∧ tm'.race = rest ∧
        (∀ k g, s.group? k = some g → t.group? k = some (if k ∈ tm.activeG then { g with race := g.race ++ [.marker] } else g)) ∧
        t.cores = s.cores ∧ t.mem = s.mem) ∧
    (∀ n tm r rest gq, s.team? n = some tm → tm.seq.st = .upwait → tm.race = .run r :: rest → s.seq? (.grid tm.grid) = some gq →
      gq.st ≠ .park → (gq.st = .done → gq.stopReq = .none) →
      (r.first = true → ∀ k ∈ s.groupsOfTeam n, ∀ g, s.group? k = some g →
        g.flights = [] ∧ g.flags = [] ∧ g.run = none ∧ runCount g.race = 0) →
      let fits := VersionFits s (.team n) tm.seq
      ∃ t tm', exec (.teamTakeRun n) s = .next t ∧ t.team? n = some tm' ∧ tm'.race = rest ∧ tm'.seq.run = some r ∧
        tm'.seq.reports = [] ∧ tm'.seq.ctl = { tm.seq.ctl with pc := r.start } ∧ t.groups = s.groups ∧ t.mem = s.mem ∧
        (fits → tm'.seq.st = .fetch ∧ (tm'.seq.ver tm'.seq.cur).pin = r.ver) ∧
        (tm'.seq.ver tm'.seq.cur).regs = (tm.seq.ver tm.seq.cur).regs ∧ (¬ fits → tm'.seq.st = .vers)) ∧
    (∀ u q, s.seq? u = some q → q.st = .full → raceFull s u = false →
      exec (.raceSpaceFreed u) s = .next (s.updSeq u fun q => { q with st := .fetch })) ∧
    (∀ u q n x, s.seq? u = some q → q.st = .vers → q.heldWrite = some (n, x) → VersionFits s u q →
      ∃ t q', exec (.versionFreed u) s = .next t ∧ t.seq? u = some q' ∧ q'.st = .fetch ∧ q'.heldWrite = none ∧
        (∀ m, (q'.ver q'.cur).regs.getD m 0 = if m = n then x else (q.ver q.cur).regs.getD m 0) ∧
        (q'.ver q'.cur).pin = (q.ver q.cur).pin ∧ (∀ v, v ≠ q'.cur → q'.ver v = q.ver v) ∧ t.groups = s.groups ∧ t.mem = s.mem) ∧
    (∀ n q r, s.seq? (.team n) = some q → q.st = .vers → q.heldWrite = none → q.run = some r →
      VersionFits s (.team n) q →
      ∃ t q', exec (.versionFreed (.team n)) s = .next t ∧ t.seq? (.team n) = some q' ∧ q'.st = .fetch ∧
        q'.ver q'.cur = { q.ver q.cur with pin := r.ver } ∧ t.groups = s.groups ∧ t.mem = s.mem) ∧
    (∀ u q, s.seq? u = some q → q.stopReq ≠ .none → q.st ≠ .done →
      let parks (q : Seq) : Seq := { q with
        st := .park
        was := if q.st = .park then q.was else q.st
        reports := if q.stopReq = .tree ∨ q.stopReq = .debug then q.reports else [] }
      ((∀ g, u = .grid g → q.stopReq ≠ .tree) → exec (.sequencerPark u) s = .next (s.updSeq u parks)) ∧
      (∀ g, u = .grid g → q.stopReq = .tree → (s.teamsOfGrid g).Nodup → ∃ t, exec (.sequencerPark u) s = .next t ∧
        t.seq? u = some (parks q) ∧ t.groups = s.groups ∧ t.mem = s.mem ∧ ∀ n tm, s.team? n = some tm → t.team? n = some
          (if n ∈ s.teamsOfGrid g ∧ tm.seq.stopReq = .none ∧ (tm.seq.st = .full ∨ tm.seq.st = .vote)
            then { tm with seq := parks { tm.seq with stopReq := .tree } } else tm))) ∧
    (∀ u q i rs, s.seq? u = some q → q.st = .vote → instrAt s u q.ctl.pc = some i → allReports s u (askOf i) = some rs →
      (∀ m, askOf i = .mask m → ∃ t, exec (.voteComplete u) s = .next t ∧
        VoteDone s t u q q.ctl (match u with | .grid _ => combineTeams rs | _ => combineMasks rs)) ∧
      (∀ v, (∀ m, askOf i ≠ .mask m) → voteRegs (scopeCode (lvlOfUnit u)) rs (votedRegs i).length = some v →
        (v.uniform = true → ∃ t, exec (.voteComplete u) s = .next t ∧
          VoteDone s t u q { q.ctl with vote := v.vote, votex := v.votex } (rs.headD (0, [])).2) ∧
        (v.uniform = false → ∃ p, exec (.voteComplete u) s = .next (takeFault p u (trap cNuf)) ∧ p.iss.fpc = q.ctl.pc ∧
          p.seq? u = some { q with
            reports := []
            revote := false
            ctl := { q.ctl with frame := if q.revote then none else q.ctl.frame, vote := v.vote, votex := v.votex } } ∧
          (∀ k ∈ s.groupsBelow u, ∀ g, s.group? k = some g →
            p.group? k = some { g with ctl := { g.ctl with vote := v.vote, votex := v.votex } }) ∧ p.mem = s.mem))) ∧
    (∀ k x f slot, s.gctx k = some x → x.g.st = .revoteHeld → x.g.ctl.frame = some f → f.kind ≠ .trap →
      fetchSlot s (.group k) x.gr.kcb.paced f.x none = .ok slot → unitBusy s k slot.instr = false →
      ∃ t g', exec (.revoteAccepted (.group k)) s = .next t ∧ t.group? k = some g' ∧ Unwound x.g.ctl g'.ctl f ∧
        g'.ctl.pc = f.x ∧ g'.st = .running ∧ RegsSame x.g g' ∧ t.iss = slot.iss ∧ t.agenda = slot.instr :: s.agenda) ∧
    (∀ k g, s.group? k = some g → (g.stopReq = .preempt ∨ g.stopReq = .yielded ∨ g.stopReq = .debug) →
      ((g.st = .idle ∨ g.st = .running ∧ (g.sframe.isSome = true ∨ g.ctl.pc.extractLsb' 0 4 = 4 ∨ g.stopReq = .yielded)) →
        ((∀ f ∈ g.flights, g.stopReq ≠ .debug ∧ ∃ o ∈ (s.coreD (coreOfGroup k)).engine,
            o.grp = k ∧ o.flight = f.id ∧ ∃ a b c d n, o.act = .mmloop a b c d n) →
          ∃ t, exec (.groupStopPoint k) s = .next t ∧
            { t with rings := s.rings } = s.setGroup k { g with st := .parked }) ∧
        ((∃ f ∈ g.flights, g.stopReq = .debug ∨ ∀ o ∈ (s.coreD (coreOfGroup k)).engine, o.grp = k → o.flight = f.id →
            ∀ a b c d n, o.act ≠ .mmloop a b c d n) → exec (.groupStopPoint k) s = .next s)) ∧
      (∀ w f, g.st = .waiting w →
        (match w with | .bwait _ _ n | .feedget _ _ n | .feedpop _ _ n | .bellw _ _ n => f.id = n) → g.flights = [f] →
        ∃ t g', exec (.groupStopPoint k) s = .next t ∧ { t with rings := s.rings } = s.setGroup k g' ∧ g'.st = .parked ∧ g'.ctl = g.ctl ∧
          RegsSame g g' ∧ g'.flights = [])) ∧
    (∀ k g f, s.group? k = some g → g.st = .escalated → g.sframe = some f →
      ∃ t g', exec (.escalatedFaultResume k) s = .next t ∧ t.group? k = some g' ∧ t.teams = s.teams ∧ g'.st = .running ∧ g'.sframe = none ∧
        g'.v = f.v ∧ g'.sreg = f.sreg ∧ (∀ n, g'.mreg n = if n = 0 then f.m0 else f.m.getD n 0) ∧ g'.ctl.pc = f.resume) ∧
    (∀ k x, s.gctx k = some x → x.g.st = .retiring → x.g.flights = [] → x.g.flags = [] → x.g.rels = [] → x.g.unsettled = [] →
      x.g.acks = [] → (∀ r, x.g.issue = some r → r.clk + (if x.g.w = 64 then 1 else 0) < s.clk) →
      ((∃ j ∈ s.groupsOfTeam x.g.team, j ≠ k) → ∃ t tm, exec (.groupRetirement k) s = .next t ∧ t.group? k = none ∧
        (∀ j, j ≠ k → t.group? j = s.group? j) ∧ t.team? x.g.team = some tm ∧
        tm = { x.t with groups := x.t.groups.filter (· != k) } ∧ t.mem = s.mem ∧ t.cores = s.cores) ∧
      ((∀ j ∈ s.groupsOfTeam x.g.team, j = k) → s.copies (x.t.core * 16 + x.t.slot) = [] →
        ∃ t gr, exec (.groupRetirement k) s = .next t ∧ t.group? k = none ∧ t.team? x.g.team = none ∧
          (∀ j, j ≠ x.g.team → (t.team? j).isSome = (s.team? j).isSome) ∧ t.grid? x.t.grid = some gr ∧
          gr.teams = x.gr.teams.filter (· != x.g.team) ∧ gr.retired = x.gr.retired + 1 ∧
          (x.gr.st = .running → gr.teams = [] → x.gr.total ≤ x.gr.nextTeam → s.saved = [] →
            gr.st = .ending ∧ ⟨.gridEnd, x.gr.vf, some x.gr.queue⟩ ∈ t.events)))

/-! ### Placement and queues (R16 to R20, R101, R295, R332, R370, R375 to R382, R410 to R420) -/

/-- R16 to R20, R101, R295, R375: a team as it starts on a core: its coordinates from its member number, its k registers zero,
its timeout, and each of its groups with registers zero, m0 and SR.LIVE all ones, window 0 and nothing under way. -/
def Sys2Proof.Machine.TeamStarts (t : State) (key gk member : Nat) (g : Grid) (core : Nat) (p : Spot) : Prop :=
  ∃ tm, t.team? key = some tm ∧ tm.grid = gk ∧ tm.core = core ∧ tm.slot = p.slot ∧ tm.member = member ∧
    tm.x = member % g.x ∧ tm.y = member / g.x % g.y ∧ tm.z = member / (g.x * g.y) % g.z ∧
    tm.stage = member / (g.x * g.y * g.z) ∧ tm.groups = p.seqs.map (core * 64 + ·) ∧ tm.activeG = tm.groups ∧
    tm.bellto = 0x1000 ∧ tm.sp = [] ∧ tm.acc = [] ∧ (tm.seq.ver tm.seq.cur).regs = [] ∧
    (if g.kcb.whole then tm.seq.st = .upwait ∧ tm.seq.run = none
      else tm.seq.st = .fetch ∧ tm.seq.ctl.pc = g.kcb.entry ∧ ∃ r, tm.seq.run = some r ∧ r.start = g.kcb.entry) ∧
    (p.seqs.Nodup → ∀ n q, p.seqs[n]? = some q → ∃ h, t.group? (core * 64 + q) = some h ∧ h.team = key ∧ h.gid = n ∧
      h.w = g.kcb.width ∧ h.alloc = g.kcb.vregs ∧ h.v = [] ∧ h.sreg = [] ∧ h.live = BitVec.ofNat 64 (2 ^ h.w - 1) ∧
      (∀ m, h.mreg m = if m = 0 then h.live else 0) ∧ h.vwb = 0 ∧ h.st = .idle ∧ h.race = [] ∧ h.flights = [] ∧ h.flags = [] ∧
      h.ctl.calls = [] ∧ h.ctl.loops = [] ∧ h.ctl.frame = none)

/-- `u` differs from `s` in the queue `k`, which is `q` in it, and in what the queue's control block brings with it. -/
def Sys2Proof.Machine.OnlyQueue (s u : State) (k : Nat) (q : Queue) : Prop :=
  u.queues.get? k = some q ∧ (∀ j, j ≠ k → u.queues.get? j = s.queues.get? j) ∧ u.groups = s.groups ∧ u.teams = s.teams ∧
    u.grids = s.grids ∧ u.vfs = s.vfs ∧ u.ctxs = s.ctxs ∧ u.clk = s.clk

/-- The number held in `n` bytes at a home. -/
def Sys2Proof.Machine.numAt (s : State) (pa n : Nat) : Nat := leNat (s.homeRead pa n)

/-- A control block lies in the device's memory, in no frame that is between its copy and its new entry in a move (R403), and no
core holds it or host-memory bytes that a .SYS release of the function would write back first (R411). -/
def Sys2Proof.Machine.BlockHere (s : State) (vf qcb : Nat) : Prop :=
  s.dirs = [] ∧ s.fab.timeFrame = none ∧ (∀ n < 128, isRemote (qcb + n) = false ∧ movedTo s (qcb + n) = none) ∧
    ∀ c, hostShared s c vf = []

/-- R411: RPTR, EWPTR, QSTAT and EDROP in a control block are those of its queue. -/
def Sys2Proof.Machine.BlockShows (t : State) (q : Queue) : Prop :=
  numAt t (q.qcb + 0x08) 8 = q.rptr % 2 ^ 64 ∧ numAt t (q.qcb + 0x10) 8 = q.ewptr % 2 ^ 64 ∧
  numAt t (q.qcb + 0x20) 4 = (if q.err then 1 else 0) + (if q.parked then 2 else 0) + (if q.slot.isSome then 4 else 0) +
    q.ecode % 256 * 256 ∧ numAt t (q.qcb + 0x24) 4 = q.edrop.toNat

/-- R370, R375 to R382, R412, R416, R419, R420: what the dispatcher and the reeves do with grids and queues. A team of a streamed
grid, and every team of a whole grid, is placed where it fits; a grid's end writes its word and frees its place. On any event a
reeve maps the pending queue at the head of their order while the function has a slot to spare, and otherwise marks a victim;
the victim gives up its slot; a parked queue wakes, and a poll that finds its WAIT met raises the event that wakes it. A team
placed on a core that has none sets the core's partition word, and the units beyond its shares are gated (R215). A placement
on a gated or waking unit waits (R223). -/
def Obligations.Dispatcher : Prop :=
  (∀ (s : State) (gk : Nat) (g : Grid) (core : Nat) (p : Spot), s.grid? gk = some g → g.kcb.whole = false →
    mayPlace s gk g = true → gridSaved s gk = false → findCore s g.asid g.kcb (searchOrder s g.vf g.lastV) = some (core, p) →
      (sleeping s core (unitsOf g.kcb p) = true → ∃ t, exec (.teamPlacement gk) s = .next t ∧ t.teams = s.teams ∧
        t.groups = s.groups ∧ t.grids = s.grids ∧ t.mem = s.mem ∧
        ∀ n ∈ unitsOf g.kcb p, ∀ x, (s.coreD core).units.get? n = some x → (t.coreD core).units.get? n = some .waking) ∧
      (sleeping s core (unitsOf g.kcb p) = false → g.host = true → ∃ t g', exec (.teamPlacement gk) s = .next t ∧
        TeamStarts t (core * 16 + p.slot) gk g.nextTeam g core p ∧ t.mem = s.mem ∧ t.grid? gk = some g' ∧
        g'.nextTeam = g.nextTeam + 1 ∧ g'.st = .running ∧ g'.lastV = (s.coreD core).vcore ∧
        g'.teams = g.teams ++ [core * 16 + p.slot] ∧ core ∈ g'.cores ∧ ((t.coreD core).views.has g.asid = true) ∧
        (teamsOn s core = [] → (t.coreD core).pw = g.kcb.pw ∧
          ∀ n < 48, bitsOf g.kcb.pw.toNat 5 0 + bitsOf g.kcb.pw.toNat 11 6 + bitsOf g.kcb.pw.toNat 17 12 ≤ n →
            (t.coreD core).units.get? n = some .gated))) ∧
  (∀ (s : State) (gk : Nat) (g : Grid), s.grid? gk = some g → gridSaved s gk = true → exec (.teamPlacement gk) s = .next s) ∧
  (∀ (s : State) (gk : Nat) (g : Grid) (n : Nat) (ps : List ColSpot), s.grid? gk = some g → g.kcb.whole = true →
    mayPlace s gk g = true → seqsHeld s g.vf < gsmaxOf s g.vf → g.x * g.y * g.z ≤ 8192 → freeGridSeq s = some n →
    findColumns g.kcb (g.x * g.y * g.z) ((searchOrder s g.vf none).filterMap fun c =>
      (offerOf s c g.asid g.kcb).map fun u => (c, u)) = some ps →
    ((∃ q ∈ ps, sleeping s q.core (q.units g.kcb) = true) → ∃ t, exec (.wholeGridPlacement gk) s = .next t ∧ t.teams = s.teams ∧
      t.groups = s.groups ∧ t.grids = s.grids ∧ t.rings = s.rings ∧ t.mem = s.mem ∧
      ∀ q ∈ ps, ∀ n ∈ q.units g.kcb, ∀ x, (s.coreD q.core).units.get? n = some x → (t.coreD q.core).units.get? n = some .waking) ∧
    ((∀ q ∈ ps, sleeping s q.core (q.units g.kcb) = false) → g.host = true →
      let all := (List.range g.kcb.stages).flatMap fun st => ps.zipIdx.filterMap fun (q : ColSpot × Nat) =>
        (q.1.spots[st]?).map fun sp => (q.1.core, sp, q.2 + g.x * g.y * g.z * st)
      ∃ t g', exec (.wholeGridPlacement gk) s = .next t ∧ t.mem = s.mem ∧ t.grid? gk = some g' ∧ g'.gsNum = some n ∧
        g'.nextTeam = g.total ∧ g'.st = .running ∧ g'.teams = g.teams ++ all.map (fun e => e.1 * 16 + e.2.1.slot) ∧
        ((all.map fun e => e.1 * 16 + e.2.1.slot).Nodup → (all.flatMap fun e => e.2.1.seqs.map (e.1 * 64 + ·)).Nodup →
          ∀ e ∈ all, TeamStarts t (e.1 * 16 + e.2.1.slot) gk e.2.2 g e.1 e.2.1))) ∧
  (∀ (s : State) (gk : Nat) (g : Grid), s.grid? gk = some g → g.st = .ending →
    let word : Nat := match g.abortCode with | some c => 2 ^ 63 + c | none => g.sigval.toNat
    let ends (t : State) : Prop := t.grid? gk = none ∧ (∀ j, j ≠ gk → t.grid? j = s.grid? j) ∧
      t.rings = s.rings.filter (fun r => r.grid != gk) ∧ t.teams = s.teams ∧
      t.agenda = s.agenda ++ if g.host then [] else [.launchQueueEntryFreed g.vf]
    (g.sig = false → ∃ t, exec (.gridCompletion gk) s = .next (mapQueues t) ∧ ends t ∧ t.mem = s.mem) ∧
    (∀ y, g.sig = true → SignalReaches s g.asid g.sigaddr y → (g.host = true → ∀ c, hostShared s c g.vf = []) →
      ∃ t, exec (.gridCompletion gk) s = .next (mapQueues t) ∧ ends t ∧
      t.mem = memWrite s.mem y.pa (leBytes 8 word))) ∧
  (∀ (s : State) (n : Nat) (i : Instr), i = .residenceEvent n ∨ i = .ageingTick n →
    (pendingOrder s = [] → exec i s = .next s) ∧
    (∀ k q, pendingOrder s = [k] → s.queues.get? k = some q → q.pending.isSome = true →
      (∀ slot, (mappedOf s q.vf).length < quotaOf s q.vf → freeSlot s = some slot → BlockHere s q.vf q.qcb →
        (numAt s q.qcb 8 + 2 ^ 64 - q.rptr) % 2 ^ 64 ≤ 2 ^ q.rsize →
          let q' := { q with
            slot := some slot, pending := none, mappedAt := s.now, resident := false, parked := false, watch := none
            wptr := numAt s q.qcb 8 }
          ∃ t, exec i s = .next t ∧ OnlyQueue s t k q' ∧ BlockShows t q') ∧
      (∀ v x, quotaOf s q.vf ≤ (mappedOf s q.vf).length → victim s q.vf = some (v, x) → x.prio < effPrio s q →
        s.queues.get? v = some x → v ≠ k → ∃ t, exec i s = .next t ∧ OnlyQueue s t v { x with unmapReq := true }) ∧
      (∀ v x, quotaOf s q.vf ≤ (mappedOf s q.vf).length → victim s q.vf = some (v, x) → effPrio s q ≤ x.prio →
        exec i s = .next s))) ∧
  (∀ (s : State) (vf v : Nat) (x : Queue), victim s vf = some (v, x) →
    (v, x) ∈ s.queues ∧ x.vf = vf ∧ x.slot.isSome = true ∧ (x.rptr = x.wptr ∨ x.mappedAt + 2000000 ≤ s.now) ∧
    ∀ p ∈ s.queues, p.2.vf = vf → p.2.slot.isSome = true →
      (p.2.rptr = p.2.wptr → x.rptr = x.wptr ∧ x.prio ≤ p.2.prio) ∧
      (x.rptr ≠ x.wptr → p.2.mappedAt + 2000000 ≤ s.now → x.prio ≤ p.2.prio)) ∧
  (∀ (s : State) (k : Nat) (q : Queue), s.queues.get? k = some q → q.unmapReq = true → q.slot.isSome = true →
    ∃ u, exec (.victimUnmap k) s = .next (mapQueues u) ∧
      OnlyQueue s u k { q with
        slot := none, unmapReq := false, pending := if q.rptr = q.wptr then none else some s.now, levels := 0 }) ∧
  (∀ (s : State) (k : Nat) (q : Queue), s.queues.get? k = some q →
    (q.parked = true → ∃ u, exec (.waitWake k) s = .next (mapQueues u) ∧
      OnlyQueue s u k { q with
        parked := false, watch := none, pending := if q.pending.isSome then q.pending else some s.now
        levels := if q.pending.isSome then q.levels else 0 }) ∧
    (∀ a w, q.watch = some (a, w, false) →
      ((∀ v, waitWord s q a = some v → w.toNat ≤ v.toNat ∨ 2 ^ 63 ≤ v.toNat) → ∃ t, exec (.waitPoll k) s = .next t ∧
        ⟨.waitMet, q.vf, some k⟩ ∈ t.events ∧ { t with events := s.events } = s) ∧
      (∀ v, waitWord s q a = some v → v.toNat < w.toNat → v.toNat < 2 ^ 63 → exec (.waitPoll k) s = .next s)))

/-! ### Packets (R410 to R418, R421) -/

/-- The head packet of a mapped queue, sound and not held by BAR. -/
structure Sys2Proof.Machine.PacketAt (s : State) (k type : Nat) (q : Queue) (pa : Nat) (bs : List Byte) : Prop where
  head : headOf s k = .packet q pa bs
  type : fieldAt bs 0x20 1 = type
  free : fieldAt bs 0x21 1 % 2 = 0 ∨ openGrids s k = false

/-- The walks that the handling of a queue's head packet makes leave their entries in the walk caches (R399, R400): that of the
packet, and that of an address that it names. -/
def Sys2Proof.Machine.walked (s : State) (k : Nat) (q : Queue) (a : Nat) : State := fillFor (fillQueue s k) q.vf q.asid a

/-- A queue past its head packet. -/
def Sys2Proof.Machine.passed (q : Queue) : Queue := { q with rptr := (q.rptr + 1) % 2 ^ 64 }

/-- R410 to R416, R418, R421: packets. NOP only passes. A launch is accepted as the grid its record makes, or refused with its
code. WAIT passes once its word is large enough, parks the queue until then, and puts it into error on a refusal word. SIGNAL
writes its word once every grid of the queue has ended. A packet held by BAR is handled once they have. A defective or
unreadable packet puts the queue into error. ABORT ends a stopped grid and frees its teams.
Three points are the model's choices: a WAIT whose word is misaligned or untranslated gives ECODE 0x03 (assumption 20); the first of
the refusal codes 0x01 to 0x04 that apply is given (`launchRefusal`, assumption 80); and a queue that goes into error raises the
fault event of R410 (assumption 84). -/
def Obligations.Packets : Prop :=
  ∀ (s : State) (k : Nat) (q : Queue) (pa : Nat) (bs : List Byte), s.queues.get? k = some q →
    (PacketAt s k 0x01 q pa bs → ∃ t, exec (.nopPacket k) s = .next t ∧ OnlyQueue s t k (passed q) ∧
      (BlockHere s q.vf q.qcb → BlockShows t (passed q))) ∧
    (PacketAt s k 0x02 q pa bs →
      let s1 := walked s k q (fieldAt bs 0 8)
      match launchRefusal s1 q.vf q.asid bs true with
      | none => ∃ t g c, exec (.launchPacket k) s = .next t ∧ t.queues.get? k = some (passed q) ∧
          loadedKcb s1 q.vf q.asid (fieldAt bs 0 8) = some c ∧ t.grid? s.nextKey = some g ∧ ChildOf g q.vf q.asid bs c k true ∧
          (∀ j, j ≠ s.nextKey → t.grid? j = s.grid? j) ∧ t.groups = s.groups ∧ t.teams = s.teams
      | some code =>
        (fieldAt bs 0x0E 2 % 2 = 0 → ∃ t, exec (.launchPacket k) s = .next t ∧ OnlyQueue s t k (passed q)) ∧
        (∀ y, fieldAt bs 0x0E 2 % 2 = 1 → SignalReaches s1 q.asid (BitVec.ofNat 64 (fieldAt bs 0x10 8)) y →
          BlockHere s q.vf q.qcb → (∀ n < 8, y.pa + n < q.qcb ∨ q.qcb + 128 ≤ y.pa + n) →
          ∃ t, exec (.launchPacket k) s = .next t ∧ OnlyQueue s t k (passed q) ∧ numAt t y.pa 8 = 2 ^ 63 + code)) ∧
    (PacketAt s k 0x03 q pa bs →
      let a : W64 := BitVec.ofNat 64 (fieldAt bs 0x00 8)
      let w : W64 := BitVec.ofNat 64 (fieldAt bs 0x08 8)
      let s1 := if a.toNat < 2 ^ 55 then walked s k q a.toNat else fillQueue s k
      (∀ l ipa, waitStage2 s1 q a = some (l, ipa) → ∃ t, exec (.waitPacket k) s = .next t ∧
        t.s2waits = s.s2waits ++ [⟨q.vf, .queue k, a, 0⟩]) ∧
      (waitStage2 s1 q a = none → waitWord s1 q a = none → ∃ u, exec (.waitPacket k) s = .next u ∧ ⟨.fault, q.vf, some k⟩ ∈ u.events ∧
        OnlyQueue s u k { q with err := true, ecode := 0x03, slot := none, pending := none, unmapReq := false }) ∧
      ∀ v, waitWord s1 q a = some v →
        (2 ^ 63 ≤ v.toNat → ∃ u, exec (.waitPacket k) s = .next u ∧ ⟨.fault, q.vf, some k⟩ ∈ u.events ∧
          OnlyQueue s u k { passed q with err := true, ecode := 0x06, slot := none, pending := none, unmapReq := false }) ∧
        (v.toNat < 2 ^ 63 → w.toNat ≤ v.toNat → ∃ t, exec (.waitPacket k) s = .next t ∧ OnlyQueue s t k (passed q)) ∧
        (v.toNat < 2 ^ 63 → v.toNat < w.toNat → ∃ u, exec (.waitPacket k) s = .next u ∧
          OnlyQueue s u k { q with parked := true, slot := none, unmapReq := false, watch := some (a, w, watchFree s) })) ∧
    (PacketAt s k 0x04 q pa bs → openGrids s k = true → exec (.signalPacket k) s = .next s) ∧
    (∀ y, PacketAt s k 0x04 q pa bs → openGrids s k = false →
      SignalReaches (fillQueue s k) q.asid (BitVec.ofNat 64 (fieldAt bs 0x10 8)) y → BlockHere s q.vf q.qcb →
      (∀ n < 8, y.pa + n < q.qcb ∨ q.qcb + 128 ≤ y.pa + n) → ∃ t, exec (.signalPacket k) s = .next t ∧
        OnlyQueue s t k (passed q) ∧ numAt t y.pa 8 = fieldAt bs 0x18 8) ∧
    (∀ i ∈ [(0x01, Instr.nopPacket k), (0x02, .launchPacket k), (0x03, .waitPacket k), (0x04, .signalPacket k)],
      headOf s k = .packet q pa bs →
        (fieldAt bs 0x20 1 = i.1 → fieldAt bs 0x21 1 % 2 = 1 → openGrids s k = true →
          exec i.2 s = .next s ∧ exec (.barPacketRelease k) s = .next s) ∧
        (fieldAt bs 0x20 1 = i.1 → fieldAt bs 0x21 1 % 2 = 1 → openGrids s k = false →
          exec (.barPacketRelease k) s = exec i.2 s) ∧
        (fieldAt bs 0x20 1 ≠ i.1 → exec i.2 s = .next s)) ∧
    (∀ code, headOf s k = .defect code → ∀ i ∈ [Instr.nopPacket k, .launchPacket k, .waitPacket k, .signalPacket k],
      ∃ u, exec i s = .next u ∧ ⟨.fault, q.vf, some k⟩ ∈ u.events ∧
        OnlyQueue s u k { q with err := true, ecode := code, slot := none, pending := none, unmapReq := false }) ∧
    (headOf s k = .packet q pa bs → q.slot.isSome = true ∧ q.err = false ∧ q.rptr ≠ q.wptr ∧
      (fieldAt bs 0x20 1 = 0x01 ∨ fieldAt bs 0x20 1 = 0x02 ∨ fieldAt bs 0x20 1 = 0x03 ∨ fieldAt bs 0x20 1 = 0x04 ∨
        fieldAt bs 0x20 1 = 0x20) ∧ fieldAt bs 0x21 3 < 2 ∧
      (fieldAt bs 0x20 1 ≠ 0x20 → ∀ n < 28, bs.getD (0x24 + n) 0 = 0) ∧
      (fieldAt bs 0x20 1 = 0x20 → q.dbidx = 0 ∧ (∀ n < 2, bs.getD (0x26 + n) 0 = 0) ∧ ∀ n < 16, bs.getD (0x30 + n) 0 = 0)) ∧
    (∀ level ipa, headOf s k = .stage2 q level ipa →
      ∀ i ∈ [Instr.nopPacket k, .launchPacket k, .waitPacket k, .signalPacket k], ∃ t, exec i s = .next t ∧
        t.s2waits = s.s2waits ++ [⟨q.vf, .queue k, BitVec.ofNat 64 q.headVa, 0⟩]) ∧
    (∀ gk g, PacketAt s k 0x20 q pa bs → fieldAt bs 0x24 2 = 0x11 → (∀ l ipa, packetXlat (fillQueue s k) q ≠ .stage2 l ipa) →
      stoppedGrid s q.vf (fieldAt bs 0 4) = some gk → s.grid? gk = some g →
      ∃ t q', exec (.abort k) s = .next (mapQueues t) ∧ t.queues.get? k = some q' ∧ q'.rptr = (passed q).rptr ∧ t.grid? gk = none ∧
        (∀ j ∈ s.teamsOfGrid gk, t.team? j = none) ∧ (∀ j, j ≠ gk → (t.grid? j).isSome = (s.grid? j).isSome))

/-! ### Commands (R297, R327, R331, R388, R398 to R403, R411, R412, R421 to R426) -/

/-- A command packet of code `code` at the head of queue `k`, whose answer no second-stage fault keeps from being written. -/
structure Sys2Proof.Machine.CommandAt (s : State) (k code : Nat) (q : Queue) (pa : Nat) (bs : List Byte) : Prop where
  packet : PacketAt s k 0x20 q pa bs
  code : fieldAt bs 0x24 2 = code
  answered : ∀ l ipa, packetXlat (fillQueue s k) q ≠ .stage2 l ipa

/-- No core holds a grain. -/
def Sys2Proof.Machine.NoCopies (s : State) : Prop := s.dirs = [] ∧ ∀ p ∈ s.cores, p.2.l1 = []

/-- R425: what the reset of a function leaves: nothing of its own, and an entry that no driver has opened. -/
def Sys2Proof.Machine.FunctionReset (u : State) (vf : Nat) : Prop :=
  (∀ p ∈ u.queues, p.2.vf ≠ vf) ∧ (∀ p ∈ u.grids, p.2.vf ≠ vf) ∧ (∀ p ∈ u.ctxs, p.2.vf ≠ vf) ∧
  ∃ v, u.vfs.get? vf = some v ∧ v.ready = false ∧ v.adminQ = none ∧ v.accepted = 0 ∧ v.launchq = [] ∧ v.pool = []

/-- R424, R426: a report's own fields: stepping, grade, the vector that the function's last FEATURES command was offered, and
the nonce. -/
def Sys2Proof.Machine.ReportOf (s : State) (vf : Nat) (nonce body : List Byte) : Prop :=
  body.length = 256 ∧ fieldAt body 0 2 = 0x0A01 ∧ fieldAt body 2 2 = (if s.fw.grade7384 then 7384 else 7512) ∧
  fieldAt body 4 12 = 0 ∧ (∀ v, s.vfs.get? vf = some v → fieldAt body 0x70 16 = v.offered.toNat) ∧ (body.drop 0x80).take 48 = nonce ∧
  fieldAt body 0xB0 80 = 0

/-- The functions' entries with one of them replaced. -/
def Sys2Proof.Machine.VfIs (u s : State) (vf : Nat) (v : Vf) : Prop :=
  u.vfs.get? vf = some v ∧ (∀ j, j ≠ vf → u.vfs.get? j = s.vfs.get? j) ∧ u.groups = s.groups ∧ u.teams = s.teams ∧
    u.grids = s.grids ∧ u.queues = s.queues ∧ u.ctxs = s.ctxs

/-- A word of a reeve that waits for the repair of one address. -/
def Sys2Proof.Machine.reeveAt (vf : Nat) (va : W64) (w : ReeveWait) : Bool := w.vf == vf && w.va == va && w.stage2

/-- R201, R297, R327, R331, R388, R398 to R403, R411, R412, R421 to R426: the admin queue's commands: each reports its status in
its packet and passes it. A bad header or argument reports 1, another's object or a command that is not the function's 3, an
object in use 4. A command whose answer a second-stage fault keeps from being written waits (R398). `s` is the state once the
packet has been looked at.
These clauses are the model's choices, which the rules leave open: the offsets of the arguments (assumption 45); DESTROY_QUEUE of
the admin queue gives 3, and REPAIR of a unit that is saved gives 4 (assumption 26); INVAL_FN carries the root of the function's
second stage (assumption 19); a queue told that its fault is unrepairable goes into error with ECODE 0x03 (assumption 74);
MIGRATE takes its frame from the partition's pool, gives 2 where the pool is empty, waits at its steps, and locks one grain in a
step (assumption 25), and which column of steps a page takes (`PageMove.locks`, assumption 93); and ATTEST's report is written
once each of its words has been looked at (assumption 73). -/
def Obligations.Commands : Prop :=
  (∀ (u : State) (k : Nat) (x q : Queue) (y : Xlat) (status off : Nat) (bytes : List Byte), u.queues.get? k = some q →
    packetXlat u x = .ok y → BlockHere u x.vf q.qcb → q.vf = x.vf →
    (∀ n < 128, isRemote (y.pa + n) = false ∧ movedTo u (y.pa + n) = none) → status < 2 ^ 64 →
    off + bytes.length ≤ 128 → off + bytes.length ≤ 0x28 ∨ 0x30 ≤ off →
    (∀ n < 128, y.pa + n < q.qcb ∨ q.qcb + 128 ≤ y.pa + n) →
      let t := finishCmd k x ⟨u, status, [(off, bytes)]⟩
      OnlyQueue u t k (passed q) ∧ numAt t (y.pa + 0x28) 8 = status ∧
      (∀ n < bytes.length, memGet t.mem (y.pa + off + n) = bytes.getD n 0)) ∧
  ∀ (s0 : State) (k : Nat) (q : Queue) (pa : Nat) (bs : List Byte), s0.queues.get? k = some q →
    let s := fillQueue s0 k
    let f (off n : Nat) : Nat := fieldAt bs off n
    let ends (i : Instr) (u : State) (status : Nat) : Prop := exec i s0 = .next (mapQueues (finishCmd k q ⟨u, status, []⟩))
    (∀ e ∈ (
      [(0x01, false, Instr.features k), (0x02, false, .createCtx k), (0x03, false, .destroyCtx k), (0x04, false, .createQueue k),
        (0x05, false, .destroyQueue k), (0x06, false, .poolAdd k), (0x07, false, .setWindow k), (0x08, false, .resume k),
        (0x09, true, .repair k), (0x0A, true, .invalFn k), (0x0B, true, .setWeir k), (0x0C, true, .setTithe k),
        (0x0D, true, .setSlots k), (0x0E, true, .vfReset k), (0x0F, false, .attest k), (0x10, true, .migrate k),
        (0x11, false, .abort k)] : List (Nat × Bool × Instr)), PacketAt s0 k 0x20 q pa bs →
      (f 0x24 2 ≠ e.1 → exec e.2.2 s0 = .next s) ∧
      (∀ l ipa, f 0x24 2 = e.1 → packetXlat s q = .stage2 l ipa → ∃ t, exec e.2.2 s0 = .next t ∧
        t.s2waits = s.s2waits ++ [⟨q.vf, .queue k, BitVec.ofNat 64 q.headVa, 0⟩]) ∧
      ((∀ l ipa, packetXlat s q ≠ .stage2 l ipa) → f 0x24 2 = e.1 → e.2.1 = true → q.vf ≠ 0 →
        (e.1 = 0x0A ∨ e.1 = 0x10 → cmdRuns s k = false) → ends e.2.2 s 3)) ∧
    (PacketAt s0 k 0x20 q pa bs → unknownCmd s0 k = mapQueues (finishCmd k q ⟨s0, 1, []⟩)) ∧
    (CommandAt s0 k 0x01 q pa bs →
      let offer := offerFor s q.vf
      let want : W128 := BitVec.ofNat 128 (f 0x40 16)
      let report := [(0x50, leBytes 16 offer.toNat)]
      (want &&& ~~~offer ≠ 0 → exec (.features k) s0 = .next (mapQueues (finishCmd k q ⟨s, 1, report⟩))) ∧
      (∀ v, want &&& ~~~offer = 0 → s.vfs.get? q.vf = some v → ∃ u, VfIs u s q.vf { v with offered := offer, accepted := want } ∧
        exec (.features k) s0 = .next (mapQueues (finishCmd k q ⟨u, 0, report⟩)))) ∧
    (CommandAt s0 k 0x02 q pa bs →
      (f 0 8 % 65536 ≠ 0 ∨ 2 ^ 52 ≤ f 0 8 → ends (.createCtx k) s 1) ∧
      (f 0 8 % 65536 = 0 → f 0 8 < 2 ^ 52 → s.ctxs.length < 65535 → ∃ u asid c, 1 ≤ asid ∧ asid < 65536 ∧
        s.ctxs.get? asid = none ∧ u.ctxs.get? asid = some c ∧ c.vf = q.vf ∧ c.root = f 0 8 ∧ c.bells = [] ∧ c.windows = [] ∧
        (∀ j, j ≠ asid → u.ctxs.get? j = s.ctxs.get? j) ∧ (∀ p ∈ u.cores, ∀ e ∈ p.2.tlb ++ p.2.wtlb, e.asid ≠ asid) ∧
        (∀ w ∈ u.walk, w.1 ≠ asid) ∧ c.bellBase % 256 = 0 ∧
        (s.dirs = [] → s.fab.timeFrame = none → ∀ n < 256, memGet u.mem (c.bellBase + n) = 0) ∧
        exec (.createCtx k) s0 = .next (mapQueues (finishCmd k q ⟨u, 0, [(0x40, leBytes 2 asid)]⟩)))) ∧
    (CommandAt s0 k 0x03 q pa bs →
      (s.ctxs.get? (f 0 2) = none → ends (.destroyCtx k) s 1) ∧
      ∀ c, s.ctxs.get? (f 0 2) = some c →
        (q.vf ≠ 0 → q.vf ≠ c.vf → ends (.destroyCtx k) s 3) ∧
        (q.vf = 0 ∨ q.vf = c.vf → ctxUsed s (f 0 2) = true → ends (.destroyCtx k) s 4) ∧
        (q.vf = 0 ∨ q.vf = c.vf → ctxUsed s (f 0 2) = false → ∃ u, ends (.destroyCtx k) u 0 ∧
          u.ctxs = s.ctxs.erase (f 0 2) ∧ (∀ p ∈ u.objs, p.2.asid ≠ f 0 2) ∧
          (∀ p ∈ u.cores, p.2.views.has (f 0 2) = false) ∧ u.groups = s.groups ∧ u.mem = s.mem)) ∧
    (CommandAt s0 k 0x04 q pa bs →
      let s2 := fillTwo s q.vf (f 0 8)
      ownPa s2 q.vf (f 0 8) = none → ends (.createQueue k) s2 1) ∧
    (CommandAt s0 k 0x04 q pa bs → s.dirs = [] →
      let s2 := fillTwo s q.vf (f 0 8)
      ∀ a, ownPa s2 q.vf (f 0 8) = some a → isRemote (a + 0x40) = false →
      let priv := s.homeRead (a + 0x40) 64
      let n := Queue.of a priv
      (a % 128 ≠ 0 ∨ qcbOk n priv = false ∨ n.dbidx = 0 → ends (.createQueue k) s2 1) ∧
      (a % 128 = 0 → qcbOk n priv = true → n.dbidx ≠ 0 →
        (n.vf ≠ q.vf → ends (.createQueue k) s2 3) ∧
        (n.vf = q.vf → s.ctxs.get? n.asid = none → ends (.createQueue k) s2 1) ∧
        ∀ c, n.vf = q.vf → s.ctxs.get? n.asid = some c →
          (c.vf ≠ q.vf → ends (.createQueue k) s2 3) ∧
          (c.vf = q.vf → (∃ p ∈ s.queues, p.2.vf = q.vf ∧ p.2.dbidx = n.dbidx) → ends (.createQueue k) s2 4) ∧
          (c.vf = q.vf → (∀ p ∈ s.queues, p.2.vf = q.vf → p.2.dbidx ≠ n.dbidx) → ∃ u, ends (.createQueue k) u 0 ∧
            OnlyQueue s u s.nextKey n ∧ n.slot = none ∧ n.rptr = 0 ∧ n.err = false))) ∧
    (CommandAt s0 k 0x05 q pa bs →
      let found := s.queues.find? fun p => p.2.vf == q.vf && p.2.dbidx == f 0 2
      (found = none → ends (.destroyQueue k) s 1) ∧
      ∀ j n, found = some (j, n) → (n.dbidx = 0 → ends (.destroyQueue k) s 3) ∧
        (n.dbidx ≠ 0 → ends (.destroyQueue k)
          { s with queues := s.queues.erase j, s2waits := s.s2waits.filter fun (w : S2Wait) => w.unit != .queue j } 0)) ∧
    (CommandAt s0 k 0x06 q pa bs → ∀ v, s.vfs.get? q.vf = some v →
      let n := f 8 4
      let frames := (List.range n).map (f 0 8 / 65536 + ·)
      let joins (u : State) : Prop := ends (.poolAdd k) u 0 ∧ VfIs u s q.vf { v with pool := v.pool ++ frames }
      let sized := f 0 8 % 65536 = 0 ∧ n ≠ 0 ∧ f 0 8 + n * 65536 ≤ 2 ^ 52 ∧ n * 65536 ≤ 2 ^ 39
      let own (x : Nat) : Prop := ∃ t, stage2 s q.vf (x * 65536) = some t ∧ t.pa + 65536 ≤ 2 ^ 39
      (¬ sized → ends (.poolAdd k) s 1) ∧
      ((∃ x ∈ frames, ¬ own x) → ends (.poolAdd k) s 1) ∧
      (sized → (∀ x ∈ frames, own x) → ∃ u, joins u) ∧
      (sized → f 0 8 + n * 65536 ≤ 2 ^ 39 → q.vf = 0 → NoCopies s → ∃ u, joins u ∧
        ∀ p, memGet u.mem p = if f 0 8 ≤ p ∧ p < f 0 8 + n * 65536 then 0 else memGet s.mem p)) ∧
    (CommandAt s0 k 0x07 q pa bs →
      (s.ctxs.get? (f 0 2) = none → ends (.setWindow k) s 1) ∧
      ∀ c, s.ctxs.get? (f 0 2) = some c →
        let v := f 0x40 16
        (q.vf ≠ 0 → q.vf ≠ c.vf → ends (.setWindow k) s 3) ∧
        (q.vf = 0 ∨ q.vf = c.vf → 16 ≤ f 2 1 → ends (.setWindow k) s 1) ∧
        (q.vf = 0 ∨ q.vf = c.vf → f 2 1 < 16 → ∃ u w, ends (.setWindow k) u 0 ∧
          u.ctxs.get? (f 0 2) = some { c with windows := c.windows.set (f 2 1) w } ∧ u.groups = s.groups ∧
          w.base = v / 2 ^ 16 % 2 ^ 36 ∧ w.last = v / 2 ^ 80 % 2 ^ 36 ∧
          w.en = (v / 2 ^ 63 % 2 == 1 && v / 2 ^ 64 % 4 != 3) ∧
          (v / 2 ^ 64 % 4 = 0 → w.grain = 32) ∧ (v / 2 ^ 64 % 4 = 1 → w.grain = 128) ∧ (v / 2 ^ 64 % 4 = 2 → w.grain = 512))) ∧
    (CommandAt s0 k 0x08 q pa bs →
      (stoppedGrid s q.vf (f 0 4) = none → ends (.resume k) s 1) ∧
      ∀ gk, stoppedGrid s q.vf (f 0 4) = some gk → ∃ u, ends (.resume k) u 0 ∧
        (∀ g, u.grid? gk = some g → g.debugStop = false ∧ g.dataErr = false) ∧ u.mem = s.mem ∧
        ∀ t ∈ s.teamsOfGrid gk, ∀ j ∈ s.groupsOfTeam t, ∀ g, s.group? j = some g → g.st = .stopped .debug →
          u.group? j = some { g with st := .running, stopReq := .none }) ∧
    (CommandAt s0 k 0x09 q pa bs → q.vf = 0 →
      let va : W64 := BitVec.ofNat 64 (f 8 8)
      let hit (w : S2Wait) : Bool := w.vf == f 0 2 && w.va == va
      let hits := s.s2waits.filter hit
      let words := s.reeveWaits.filter (reeveAt (f 0 2) va)
      let left := { s with
        s2waits := s.s2waits.filter (fun w => !hit w), reeveWaits := s.reeveWaits.filter (fun w => !reeveAt (f 0 2) va w) }
      (hits = [] → words = [] → (∀ p ∈ s.saved, p.2.waits.any hit = false) → ends (.repair k) s 1) ∧
      (hits = [] → words = [] → (∃ p ∈ s.saved, p.2.waits.any hit = true) → ends (.repair k) s 4) ∧
      (∀ w j g fr, hits = [w] → words = [] → w.unit = .group j → s.group? j = some g → g.st = .escalated → g.sframe = some fr →
        f 2 1 = 1 → ∃ u g', ends (.repair k) u 0 ∧ u.s2waits = left.s2waits ∧ u.group? j = some g' ∧
          g'.st = .running ∧ g'.sframe = none ∧ g'.ctl.pc = fr.resume ∧ g'.v = fr.v ∧ g'.sreg = fr.sreg) ∧
      (∀ w j n, f 2 1 ≠ 1 → hits = [w] → words = [] → w.unit = .queue j → s.queues.get? j = some n →
        ∃ u, ends (.repair k) u 0 ∧ u.s2waits = left.s2waits ∧ ⟨.fault, n.vf, some j⟩ ∈ u.events ∧
          OnlyQueue s u j { n with err := true, ecode := 0x03, slot := none, pending := none, unmapReq := false }) ∧
      (∀ w x v code, hits = [] → words = [w] → w.what = .word x v code →
        (f 2 1 = 1 → ends (.repair k) (signalWord left x va v code) 0) ∧
        (f 2 1 ≠ 1 → ends (.repair k) (recordTo left x.queue
          { FRec.of 0x0C 4 with wr := true, va := va, detail := code, grid := x.grid, vf := x.vf, asid := x.asid }) 0))) ∧
    (CommandAt s0 k 0x0A q pa bs → q.vf = 0 → cmdRuns s k = false →
      let bad := f 0 2 = 0 ∨ s.vfs.get? (f 0 2) = none ∨ f 8 8 % 65536 ≠ 0 ∨ 2 ^ 52 ≤ f 8 8
      (bad → ends (.invalFn k) s 1) ∧
      (∀ v, ¬ bad → s.vfs.get? (f 0 2) = some v → ∃ u i, exec (.invalFn k) s0 = .next u ∧
        u.invals = s.invals ++ [i] ∧ i.of = .fn (f 0 2) ∧ i.done = .command k ∧
        VfIs u s (f 0 2) { v with s2root := if f 8 8 = 0 then v.s2root else some (f 8 8) } ∧ (∀ w ∈ u.walk2, w.1 ≠ f 0 2) ∧
        ∀ a c, s.ctxs.get? a = some c → c.vf = f 0 2 → (∀ w ∈ u.walk, w.1 ≠ a) ∧
          ∀ p ∈ u.cores, ∀ e ∈ p.2.tlb ++ p.2.wtlb, e.asid ≠ a)) ∧
    (CommandAt s0 k 0x0A q pa bs → cmdRuns s k = true → exec (.invalFn k) s0 = .next s) ∧
    (∀ u i, i.done = .command k → headOf (settleInval u i) k = .packet q pa bs →
      endInval u i = mapQueues (finishCmd k q ⟨settleInval u i, 0, []⟩)) ∧
    (CommandAt s0 k 0x0B q pa bs → q.vf = 0 → ∀ v, s.vfs.get? (f 0 2) = some v →
      let e := f 8 8
      let v' := { v with
        floor := e % 2 ^ 10, share := e / 2 ^ 16 % 2 ^ 16, deadline := e / 2 ^ 32 % 2 ^ 16, gsmax := e / 2 ^ 48 % 2 ^ 8
        shortSince := none, used := 0 }
      let all := vfEntries { s with vfs := s.vfs.modify (f 0 2) fun _ => v' }
      let ok := f 0 2 ≠ 0 ∧ 1 ≤ v'.gsmax ∧ v'.gsmax ≤ 64 ∧ v'.floor ≤ 512 ∧ (all.map Vf.floor).sum ≤ s.cores.length ∧
        (all.map Vf.share).sum ≤ 65536
      (¬ ok → ends (.setWeir k) s 1) ∧
      (ok → ∃ u, ends (.setWeir k) u 0 ∧ u.vfs.get? (f 0 2) = some v' ∧ (∀ p ∈ u.vfs, p.2.used = 0) ∧ u.groups = s.groups ∧
        u.cores = s.cores ∧ u.mem = s.mem)) ∧
    (CommandAt s0 k 0x0C q pa bs → q.vf = 0 →
      let bad := s.vfs.get? (f 0 2) = none ∨ f 8 8 % 32768 ≠ 0 ∨ 786432 < f 8 8
      (bad → ends (.setTithe k) s 1) ∧
      (∀ v, ¬ bad → s.vfs.get? (f 0 2) = some v → ∃ u, ends (.setTithe k) u 0 ∧ VfIs u s (f 0 2) { v with tithe := f 8 8 } ∧
        u.cores = s.cores ∧ u.mem = s.mem)) ∧
    (CommandAt s0 k 0x0D q pa bs → q.vf = 0 →
      (s.vfs.get? (f 0 2) = none → ends (.setSlots k) s 1) ∧
      ∀ v, s.vfs.get? (f 0 2) = some v →
        let mask : W128 := BitVec.ofNat 128 (f 0x40 16)
        let u := { s with
          vfs := s.vfs.set (f 0 2) { v with quota := f 2 2, mask := if f 0 2 = 0 then v.mask else mask } }
        (128 < (u.vfs.vals.map Vf.quota).sum → ends (.setSlots k) s 1) ∧
        ((u.vfs.vals.map Vf.quota).sum ≤ 128 →
          (f 0 2 ≠ 0 → mask ≠ v.mask → (∃ p ∈ s.grids, p.2.vf = f 0 2) → ends (.setSlots k) s 4) ∧
          (f 0 2 = 0 ∨ mask = v.mask ∨ (∀ p ∈ s.grids, p.2.vf ≠ f 0 2) → ends (.setSlots k) u 0))) ∧
    (CommandAt s0 k 0x0E q pa bs → q.vf = 0 →
      (f 0 2 = 0 ∨ s.vfs.get? (f 0 2) = none → ends (.vfReset k) s 1) ∧
      (f 0 2 ≠ 0 → s.vfs.get? (f 0 2) ≠ none → ∃ u, ends (.vfReset k) u 0 ∧ FunctionReset u (f 0 2))) ∧
    (CommandAt s0 k 0x0F q pa bs →
      (f 0 8 % 64 ≠ 0 ∨ 2 ^ 55 ≤ f 0 8 → ends (.attest k) s 1) ∧
      (∀ u r, bs.length = 128 → f 0 8 % 64 = 0 → f 0 8 < 2 ^ 55 →
        reeveCheck s q.vf q.asid .wr (f 0 8) (List.replicate 44 8) = (u, r) →
          (r = .ok → ∃ body sig, ReportOf s q.vf ((bs.drop 0x40).take 48) body ∧ sig.length = 96 ∧
            ends (.attest k) (reeveWrite { u with fresh := u.fresh + 96 } q.vf q.asid (f 0 8) (chunk8 (body ++ sig))) 0) ∧
          (r = .bad → ends (.attest k) u 1) ∧
          (∀ l ipa va, r = .two l ipa va → ∃ t, exec (.attest k) s0 = .next t ∧
            t.s2waits = u.s2waits ++ [⟨q.vf, .queue k, BitVec.ofNat 64 va, 0⟩]) ∧
          (∀ a va, r = .cut a va → ends (.attest k) (recordTo u (u.adminOf 0)
            { FRec.of 0x40 4 with xaddr := a, va := BitVec.ofNat 64 va, wr := true, vf := q.vf, asid := q.asid }) 1) ∧
          (∀ va, r = .wait va → exec (.attest k) s0 = .next u))) ∧
    (CommandAt s0 k 0x10 q pa bs → cmdRuns s k = true → exec (.migrate k) s0 = .next s) ∧
    (CommandAt s0 k 0x10 q pa bs → q.vf = 0 → cmdRuns s k = false →
      let s2 := fillWalk s (f 0 2) (f 8 8)
      (pageEntry s2 (f 0 2) (f 8 8) = none → ends (.migrate k) s2 1) ∧
      ∀ c v ea e, s.ctxs.get? (f 0 2) = some c → s.vfs.get? c.vf = some v → pageEntry s2 (f 0 2) (f 8 8) = some (ea, e) →
        (v.pool = [] → ends (.migrate k) s2 2) ∧
        ∀ f1 rest p0 p1, v.pool = f1 :: rest → framePa s2 c.vf (eFrame e) = some p0 → framePa s2 c.vf f1 = some p1 →
          (isRemote p0 = true → ends (.migrate k) s2 1) ∧
          (isRemote p0 = false → (∀ m ∈ s.moves, m.p0 ≠ p0) → ∃ u, exec (.migrate k) s0 = .next u ∧
            VfIs u s c.vf { v with pool := rest } ∧ u.mem = s.mem ∧
            u.moves = s.moves ++ [⟨k, f 0 2, c.vf, f 8 8, ea, e, p0, p1, f1,
              eProt e == 0 && (windowOf s (f 0 2) p0).isNone, 1, 0⟩])) ∧
    (∀ m, s.moves = [m] → m.q = k → (∀ n < 8, isRemote (m.ea + n) = false) → s.fab.timeFrame = none →
      let at' (u : State) (n : Nat) : Prop := u.moves = [{ m with step := n }]
      let entry (u : State) (x : W64) : Prop := numAt u m.ea 8 = x.toNat ∧
        ∃ i, u.invals = s.invals ++ [i] ∧ i.of = .page m.asid m.va ∧ i.done = .move k
      let plain : W64 := m.e &&& ~~~(BitVec.ofNat 64 ((2 ^ 36 - 1) * 2 ^ 16 + 2 ^ 57))
      (m.step = 1 → m.locks = true → m.grains * m.gsz < 65536 →
        let g := m.base0 + m.grains * m.gsz
        roomAt s g = none → dirRoom s g = true → ∃ u d, moveStep s m = some u ∧ u.dirs.get? g = some d ∧ d.lock = true ∧
          u.mem = s.mem ∧ u.moves = [{ m with grains := m.grains + 1 }]) ∧
      (m.step = 1 → m.locks = true → 65536 ≤ m.grains * m.gsz → ∃ u, moveStep s m = some u ∧ u.mem = s.mem ∧ at' u 2) ∧
      (m.step = 1 → m.locks = false → ∃ u, moveStep s m = some u ∧ at' u 2 ∧ entry u (m.e ||| BitVec.ofNat 64 (2 ^ 57))) ∧
      (m.step = 2 → (∃ p ∈ s.dirs, p.1 < m.base0 + 65536 ∧ m.base0 < p.1 + p.2.gsz ∧ s.dirs.get? p.1 = some p.2 ∧ p.2.hostown = true) →
        moveStep s m = none) ∧
      (m.step = 2 → NoCopies s → (∀ i ∈ s.invals, i.done ≠ .move k) → ∃ u, moveStep s m = some u ∧ u.mem = s.mem ∧ at' u 3) ∧
      (m.step = 3 → NoCopies s → MemInv s → frameOf m.p0 ≠ frameOf m.p1 → ∃ u, moveStep s m = some u ∧ at' u 4 ∧
        (∀ n < 65536, memGet u.mem (m.base1 + n) = memGet s.mem (m.base0 + n)) ∧
        ∀ a, frameOf a ≠ frameOf m.p1 → memGet u.mem a = memGet s.mem a) ∧
      (m.step = 4 → ∃ u, moveStep s m = some u ∧ at' u 5 ∧ entry u (plain ||| BitVec.ofNat 64 (m.f1 % 2 ^ 36 * 2 ^ 16)) ∧
        ∀ p ∈ u.cores, ∀ t ∈ p.2.tlb ++ p.2.wtlb, t.asid = m.asid →
          if t.big ∨ t.half then t.vpn * pageBytes t.big / 2 ^ 29 ≠ m.va / 2 ^ 29 else t.vpn ≠ m.va / 65536) ∧
      (m.step = 5 → (∃ i ∈ s.invals, i.done = .move k) → moveStep s m = none) ∧
      (m.step = 5 → (∀ i ∈ s.invals, i.done ≠ .move k) → ∃ u, moveStep s m = some u ∧ at' u 6 ∧ u.mem = s.mem) ∧
      (∀ g d, m.step = 6 → m.locks = true → s.dirs = [(g, d)] → d.cur = none → d.rel = none → g < m.base0 + 65536 → m.base0 < g + d.gsz →
        ∃ u, moveStep s m = some u ∧ at' u 7 ∧ (∀ x, u.dirs.get? g = some x → x.lock = false ∧ x.held = []) ∧
          (∀ j, d.held = [.own j] ∨ d.held = [.read j] → Instr.retry j g ∈ u.agenda) ∧
          ∀ j bs, d.held = [.merge j bs] → bs.wf = true → (∀ b ∈ bs, m.inOld b.1 = true) →
            ∀ b ∈ bs, isRemote (m.shift b.1) = false → memGet u.mem (m.shift b.1) = b.2) ∧
      (∀ x, m.step = 7 → m.vf = 0 → NoCopies s → s.vfs.get? 0 = some x →
        let y := poolAdd s 0 [eFrame m.e]
        (∀ n < 65536, memGet y.mem (eFrame m.e * 65536 + n) = 0) ∧ VfIs y s 0 { x with pool := x.pool ++ [eFrame m.e] } ∧
        (∀ bs, headOf { y with moves := [] } k = .packet q pa bs →
          moveStep s m = some (mapQueues (finishCmd k q ⟨{ y with moves := [] }, 0, []⟩)))))

/-! ### Fabric and host (R330, R448 to R457) -/

/-- R453: an ingest window's enable, source and range admit an access of `n` bytes. -/
def Sys2Proof.Machine.Admits (w : W128) (queby : Bool) (src pa n : Nat) : Prop :=
  w.getLsbD 63 = true ∧ w.getLsbD 62 = queby ∧ isRemote pa = false ∧
  (w.getLsbD 61 = true ∨ (if queby then (w.extractLsb' 64 9).toNat = src % 512 else (w.extractLsb' 64 16).toNat = src)) ∧
  (w.extractLsb' 16 36).toNat ≤ pa / 65536 ∧ (pa + n - 1) / 65536 ≤ (w.extractLsb' 80 36).toNat

/-- R457: one combination of two integers: a wrapping sum, the lesser or the greater. -/
def Sys2Proof.Machine.combineInt (op : Nat) (sgn : Bool) {w : Nat} (x y : BitVec w) : BitVec w :=
  match op with
  | 0 => x + y
  | 1 => if (if sgn then x.sle y else x.ule y) then x else y
  | _ => if (if sgn then x.sle y else x.ule y) then y else x

/-- `t` is `s` with bytes written at a home: in memory, and in what the home slices hold of it. -/
def Sys2Proof.Machine.HomeWritten (s t : State) (pa : Nat) (bs : List Byte) : Prop :=
  { t with l2 := s.l2 } = { s with mem := memWrite s.mem pa bs } ∧
    ∀ a, a / 32 * 32 = a → a < pa + bs.length → pa < a + 32 → bs ≠ [] → t.l2.has a = true

/-- R330, R448 to R457: accesses from outside. The host, and another device, read, write and update at the home; a peer reads
and writes there inside an enabled ingest window alone, whose function has accepted the service (R422; which bit is the model's
reading, assumption 81). The host's ownership of a grain, and its answer. A link acknowledges flits in order, asks for a replay
at a gap or a failed check, takes a flit whose check fails once as transient and on the replay as lasting, replays from the one
reported, and is drained before it leaves service; a device that has stopped answering, or that the routing table reaches over
no link, is unreachable. Fabric time never falls. A collective is queued behind at most fifteen others; its result combines the
members' vectors in rank order; a defect, an unreachable member, a reset one and a disagreement have their codes.
These clauses are the model's choices: what other devices do comes as events, and a part that another member has yet to submit when
a collective ends is owed to it (`owed`) (assumption 53); a link is drained before it leaves service, and a device is unreachable
that the routing table reaches over no link in service (`devCut`) (assumption 60); FTS after an exchange stands within 50 ns of the
reference, or where it stood if that is later (assumption 35); a descriptor, source or destination that cannot be read or written
ends a collective with 0x01, or with no word where the descriptor itself cannot be read (assumption 61); the order among peer
accesses is that of their source, and what a reeve's access meets is asked of each of its words first (assumption 93). -/
def Obligations.FabricAndHost : Prop :=
  (∀ (s : State) (grp fl : Nat) (g : Group), s.group? grp = some g → ∃ t, exec (.remoteStoreAck grp fl) s = .next t ∧
    t.group? grp = some { g with acks := g.acks.erase fl } ∧
    (∀ j, j ≠ grp → t.group? j = s.group? j) ∧ t.mem = s.mem ∧ t.cores = s.cores) ∧
  (∀ (s : State) (pa : Nat), s.dirs = [] → s.poison = [] → isRemote pa = false →
    (∀ n, exec (.hostAccess pa (.read n)) s = .next s) ∧
    (∀ bs, ∃ t, exec (.hostAccess pa (.write bs)) s = .next t ∧ HomeWritten s t pa bs) ∧
    (∀ o ty x, s.fab.timeFrame = none → let n := atypeBits ty / 8
      ∃ t, exec (.hostAccess pa (.atom o ty x)) s = .next t ∧ HomeWritten s t pa (leBytes n
        (atomRule o (match ty with | .i32 | .i64 => true | _ => false) (wordAt s pa n) (x.setWidth (8 * n))).toNat)) ∧
    (∀ n cmp new,
      (wordAt s pa n = cmp.setWidth (8 * n) → ∃ t, exec (.hostAccess pa (.cas n cmp new)) s = .next t ∧
        HomeWritten s t pa (leBytes n new.toNat)) ∧
      (wordAt s pa n ≠ cmp.setWidth (8 * n) → exec (.hostAccess pa (.cas n cmp new)) s = .next s))) ∧
  (∀ (s : State) (pa n : Nat), s.dirs = [] → s.poisoned pa n = true → exec (.hostAccess pa (.read n)) s = .next s) ∧
  (∀ (s : State) (g pa : Nat) (d : Dir) (bs : List Byte), s.dirs = [(g, d)] → bs ≠ [] → 0 < d.gsz → g < pa + bs.length → pa < g + d.gsz →
    d.cur.isSome = true ∨ d.held ≠ [] ∨ d.lock = true ∨ d.hostown = true → ∃ t d', exec (.hostAccess pa (.write bs)) s = .next t ∧
      t.mem = s.mem ∧ t.dirs.get? g = some d' ∧ d'.held = d.held ++ [.after true (.hostAccess pa (.write bs))]) ∧
  (∀ (s : State) (dev pa : Nat) (a : ExtAccess),
    (dev = s.fab.dev → exec (.remoteAccess dev pa a) s = .next s) ∧
    (dev ≠ s.fab.dev → (∀ bs, a ≠ .own bs) → (∀ grp bs shape, a ≠ .contrib grp bs shape) →
      ∃ u t, exec (.hostAccess (pa % 2 ^ 39) a) s = .next u ∧ exec (.remoteAccess dev pa a) s = .next t ∧
        { t with fab := u.fab } = u ∧ t.fab.remote = u.fab.remote) ∧
    (∀ bs, dev ≠ s.fab.dev → a = .own bs → exec (.remoteAccess dev pa a) s = .next { s with
      fab := { s.fab with remote := memWrite s.fab.remote (2 ^ 51 + dev % 512 * 2 ^ 39 + pa % 2 ^ 39) bs } }) ∧
    (∀ grp bs shape c r, dev ≠ s.fab.dev → a = .contrib grp bs shape → s.fab.colls.get? grp = some c → c.rankOf dev = some r →
      let joined : Coll := { c with contrib := c.contrib.set r (c.contrib.getD r [] ++ [(bs, shape)]) }
      c.members[r]? = some dev ∧
      (shape ≠ [] → c.owed.getD r 0 = 0 → exec (.remoteAccess dev pa a) s = .next { s with
        fab := { s.fab with colls := s.fab.colls.set grp joined } }) ∧
      (∀ n, shape ≠ [] → c.owed.getD r 0 = n + 1 → ∃ o, o.getD r 0 = n ∧ exec (.remoteAccess dev pa a) s = .next { s with
        fab := { s.fab with colls := s.fab.colls.set grp { c with owed := o } } }) ∧
      (shape = [] → ∃ o, o.getD r 0 = 0 ∧ exec (.remoteAccess dev pa a) s = .next { s with
        fab := { s.fab with colls := s.fab.colls.set grp { joined with owed := o } } }))) ∧
  (∀ (s : State) (pa l : Nat) (x : Link) (bs : List Byte), isRemote pa = true → s.devCut (remoteDev pa) = false →
    linkFor s (remoteDev pa) 0 = some l → s.fab.links.get? l = some x →
      (s.homeWrite pa bs).fab.links.get? l = some { x with txNext := x.txNext + 1, unacked := x.unacked ++ [x.txNext] }) ∧
  (∀ (s : State) (queby : Bool) (src pa : Nat) (bytes : List Byte),
    let ok (n : Nat) := 0 < n ∧ ∃ p ∈ s.fab.ingest, Admits p.2 queby src pa n ∧
      s.accepts (p.2.extractLsb' 55 6).toNat (if queby then 8 else 7) = true
    let waits (n : Nat) (wr : Bool) := (∃ y ∈ s.fab.posted, y.1 = queby ∧ y.2.1 = src) ∨ s.busyAt pa n wr = true
    let posts (a : ExtAccess) : State := { s with fab := { s.fab with posted := s.fab.posted ++ [(queby, src, pa, a)] } }
    (∀ a, s.dirs = [] → exec (.hostAccess pa a) s = .next (extAct s pa a)) ∧
    (ok bytes.length → ¬ waits bytes.length true → exec (.peerWrite queby src pa bytes) s = .next (extAct s pa (.write bytes))) ∧
    (ok bytes.length → waits bytes.length true → exec (.peerWrite queby src pa bytes) s = .next (posts (.write bytes))) ∧
    (¬ ok bytes.length → exec (.peerWrite queby src pa bytes) s =
      .next { s with fab := { s.fab with discards := s.fab.discards + 1 } }) ∧
    ∀ n, (ok n → ¬ waits n false → exec (.peerRead queby src pa n) s = .next (extAct s pa (.read n))) ∧
      (ok n → waits n false → exec (.peerRead queby src pa n) s = .next (posts (.read n))) ∧
      (¬ ok n → exec (.peerRead queby src pa n) s = .next s)) ∧
  (∀ (s : State) (line gsz : Nat),
    let grains := if gsz < 64 then [line / 64 * 64, line / 64 * 64 + 32] else [line / gsz * gsz]
    exec (.hostCxlCacheRequest line gsz false) s = .next s ∧
    (s.accepts 0 0 = false → exec (.hostCxlCacheRequest line gsz true) s = .next s) ∧
    (s.accepts 0 0 = true → s.dirs = [] → ∃ t, exec (.hostCxlCacheRequest line gsz true) s = .next t ∧ t.mem = s.mem ∧ t.cores = s.cores ∧
      ∀ g ∈ grains, ∃ d, t.dirs.get? g = some d ∧ d.hostown = true ∧ d.st = .un ∧ d.ptrs = []) ∧
    (∀ d, 64 ≤ gsz → s.accepts 0 0 = true → s.dirs.get? (line / gsz * gsz) = some d → d.hostown = false →
      s.busyAt (line / gsz * gsz) gsz true = true → s.dirs.keys = [line / gsz * gsz] →
      ∃ t d', exec (.hostCxlCacheRequest line gsz true) s = .next t ∧ t.mem = s.mem ∧ t.cores = s.cores ∧
        t.dirs.get? (line / gsz * gsz) = some d' ∧ d'.held = d.held ++ [.after true (.hostCxlCacheRequest line gsz true)]) ∧
    (∀ d, 64 ≤ gsz → s.accepts 0 0 = true → s.dirs.get? (line / gsz * gsz) = some d → d.hostown = false →
      s.busyAt (line / gsz * gsz) gsz true = false →
      ∃ t d', exec (.hostCxlCacheRequest line gsz true) s = .next t ∧ t.dirs.get? (line / gsz * gsz) = some d' ∧
        d'.hostown = true ∧ d'.st = .un ∧ d'.ptrs = [] ∧ d'.clbits = [])) ∧
  (∀ (s : State) (line : Nat) (bytes : Tab Byte), (∀ p ∈ bytes, isRemote p.1 = false) → s.agenda = [] →
    (s.dirs = [] → ∃ t, exec (.hostSnoopResponse line bytes) s = .next t ∧ Merged s t bytes ∧ t.agenda = []) ∧
    ∀ g d, s.dirs = [(g, d)] → d.hostown = true → g < line / 64 * 64 + 64 → line / 64 * 64 < g + d.gsz → d.st = .un →
      d.ptrs = [] → d.clbits = [] → d.lock = false → d.cur = none → d.acks = 0 → d.rel = none →
      (d.held = [] → ∃ t, exec (.hostSnoopResponse line bytes) s = .next t ∧ Merged s t bytes ∧ t.dirs = [] ∧
        t.agenda = []) ∧
      (∀ k, d.held = [.own k] → ∃ t d', exec (.hostSnoopResponse line bytes) s = .next t ∧ Merged s t bytes ∧
        t.dirs.get? g = some d' ∧ d'.st = .own k ∧ d'.hostown = false ∧
        t.agenda = [.fill k g (t.homeRead g d.gsz) true])) ∧
  (∀ (s : State) (l seq : Nat) (x : Link), s.fab.links.get? l = some x →
    let put (y : Link) : State := { s with fab := { s.fab with links := s.fab.links.set l y } }
    (x.inService = false → ∀ crc, exec (.flitReceive l seq crc) s = .next s) ∧
    (x.inService = true → seq ∉ x.crcFail →
      exec (.flitReceive l seq none) s = .next (put { x with crcFail := x.crcFail ++ [seq], asked := some x.rxNext })) ∧
    (x.inService = true → seq ∈ x.crcFail → ∃ t, exec (.flitReceive l seq none) s = .next t ∧
      t.fab.links.get? l = some { x with draining := true, crcFail := [], asked := none } ∧ t.mem = s.mem) ∧
    (∀ ack, x.inService = true →
      let y := { x with unacked := x.unacked.filter fun n => decide (ack ≤ n) }
      (x.rxNext < seq → exec (.flitReceive l seq (some ack)) s = .next (put { y with asked := some x.rxNext })) ∧
      (seq < x.rxNext → exec (.flitReceive l seq (some ack)) s = .next (put y)) ∧
      (seq = x.rxNext → seq ∉ x.crcFail → ∃ t, exec (.flitReceive l seq (some ack)) s = .next t ∧
        t.fab.links.get? l = some { y with rxNext := seq + 1, asked := none } ∧ t.fw = s.fw ∧ t.mem = s.mem) ∧
      (seq = x.rxNext → seq ∈ x.crcFail → ∃ t, exec (.flitReceive l seq (some ack)) s = .next t ∧
        t.fab.links.get? l = some { y with rxNext := seq + 1, asked := none, crcFail := x.crcFail.filter (· != seq) } ∧
        t.fw.transient = s.fw.transient + 1)) ∧
    (linkMove s l x = if x.draining then some (.out (.next (drainLink s l))) else none) ∧
    (x.draining = true → (∀ v, s.adminOf v = none) → ∃ y, (drainLink s l).fab.links.get? l = some y ∧
      y.inService = false ∧ y.draining = false ∧ y.unacked = [] ∧ l ∈ (drainLink s l).fw.linksOut) ∧
    (x.inService = true → ∃ t, exec (.replayRequest l seq) s = .next t ∧
      t.fab.links.get? l = some { x with replays := x.unacked.filter fun n => decide (seq ≤ n) })) ∧
  (∀ (s : State) (dev : Nat), s.devCut dev = true ↔ dev ∈ s.fab.unreachable ∨ (dev ≠ s.fab.dev ∧ ∀ c < 3, ∀ l a,
    s.fab.route.get? (dev * 3 + c) = some (l, a) → ∀ n x, n = l ∨ n = a → s.fab.links.get? n = some x → x.inService = false)) ∧
  (∀ (s : State) (dev : Nat), ∃ t, exec (.unreachableDevice dev) s = .next t ∧ dev ∈ t.fab.unreachable ∧
    (∀ d, d ∈ t.fab.unreachable ↔ d = dev ∨ d ∈ s.fab.unreachable) ∧ t.mem = s.mem ∧ t.groups = s.groups) ∧
  (∀ (s : State) (ref : Nat), ref + 50 < 2 ^ 64 → ∃ t, exec (.timestampExchange ref) s = .next t ∧
    s.fab.fts.toNat ≤ t.fab.fts.toNat ∧ ref - 50 ≤ t.fab.fts.toNat ∧ t.fab.fts.toNat ≤ max s.fab.fts.toNat (ref + 50) ∧
    t.mem = s.mem ∧ t.groups = s.groups) ∧
  (∀ (s : State) (grp vf : Nat) (u : Submission) (c : Coll), s.fab.colls.get? grp = some c →
    (c.vf ≠ vf ∨ s.accepts vf 8 = false → exec (.collectiveSubmit grp vf u) s = .next s) ∧
    (c.vf = vf → s.accepts vf 8 = true → c.queue.length < 16 → exec (.collectiveSubmit grp vf u) s = .next { s with
      fab := { s.fab with colls := s.fab.colls.set grp { c with queue := c.queue ++ [u] } } }) ∧
    (c.vf = vf → s.accepts vf 8 = true → 16 ≤ c.queue.length →
      ∀ s1 r bs, readDesc s c u = (s1, r, bs) →
        (r = .ok → exec (.collectiveSubmit grp vf u) s = .next (failColl s1 c u (Desc.of bs) 0x02)) ∧
        (r = .bad → exec (.collectiveSubmit grp vf u) s = .next s1))) ∧
  (∀ (s s1 : State) (grp : Nat) (c : Coll) (a : Submission) (rest : List Submission) (r : ReeveRes) (bs : List Byte),
    s.fab.colls.get? grp = some c → c.queue = a :: rest → readDesc s c a = (s1, r, bs) →
    (r = .bad → exec (.collectiveCompletion grp) s = .next (popColl s1 grp)) ∧
    (∀ va, r = .wait va → exec (.collectiveCompletion grp) s =
      .next { s1 with reeveWaits := s1.reeveWaits ++ [⟨c.vf, BitVec.ofNat 64 va, false, .coll grp⟩] }) ∧
    (∀ l ipa va, r = .two l ipa va → ∃ t, exec (.collectiveCompletion grp) s = .next t ∧
      ⟨c.vf, BitVec.ofNat 64 va, true, .coll grp⟩ ∈ t.reeveWaits ∧ t.fab.colls = s1.fab.colls)) ∧
  (∀ (s s1 : State) (grp : Nat) (c : Coll) (a : Submission) (rest : List Submission) (bs : List Byte),
    s.fab.colls.get? grp = some c → c.queue = a :: rest → readDesc s c a = (s1, .ok, bs) →
    let d := Desc.of bs
    let fails (u : State) (code : Nat) : Prop := ∃ t, exec (.collectiveCompletion grp) s = .next t ∧
      t.mem = (failColl u c a d code).mem ∧ t.grids = (failColl u c a d code).grids
    let good := a.desc % 64 = 0 ∧ descOk bs c.n = true
    let reach := ∀ m ∈ c.members, s1.devCut m = false
    (¬ good → fails s1 0x01) ∧
    (good → ¬ reach → fails s1 0x40) ∧
    (∀ s2 r, good → reach → collCheck s1 c a .rd d.src (List.replicate d.count (etypeSize d.etype)) = (s2, r) →
      (r = .bad → fails s2 0x01) ∧ (∀ p va, r = .cut p va → fails (collRecord s2 c a r false) 0x40) ∧
      (∀ l ipa va, r = .two l ipa va → ∃ t, exec (.collectiveCompletion grp) s = .next t ∧
        ⟨c.vf, BitVec.ofNat 64 va, true, .coll grp⟩ ∈ t.reeveWaits ∧ t.fab.colls = s2.fab.colls)) ∧
    ∀ s0 s2 own, good → reach → collCheck s1 c a .rd d.src (List.replicate d.count (etypeSize d.etype)) = (s0, .ok) →
      reeveRead s0 c.vf a.asid d.count d.src (etypeSize d.etype) = (s2, own) →
      let part (r : Nat) := (c.contrib.getD r []).head?
      ((∃ r < c.n, r ≠ c.rank ∧ ∃ v, part r = some (v, [])) → fails s2 0x13) ∧
      (d.shape ≠ [] → (∀ r < c.n, r ≠ c.rank → ∃ v sh, part r = some (v, sh) ∧ sh ≠ []) →
        (∃ r < c.n, r ≠ c.rank ∧ ∃ v sh, part r = some (v, sh) ∧ sh ≠ d.shape) → fails s2 0x03) ∧
      (d.shape ≠ [] → (∃ r < c.n, r ≠ c.rank ∧ part r = none) → (∀ r < c.n, r ≠ c.rank → ∀ v, part r ≠ some (v, [])) →
        exec (.collectiveCompletion grp) s = .next s2) ∧
      ∀ s3 x, (∀ r < c.n, r ≠ c.rank → ∃ v, part r = some (v, d.shape)) → d.shape ≠ [] → dstCheck s2 c a d = (s3, x) →
        let n := etypeSize d.etype
        let vs := (List.range c.n).map fun r => if r = c.rank then own else ((part r).getD ([], [])).1
        let res := (List.range d.count).map fun j => leBytes n (collElem d vs j)
        let u := reeveWrite s3 c.vf a.asid d.dst (if d.dst % n = 0 then res else res.flatten.map fun b => [b])
        (x = .bad → fails s3 0x01) ∧ (∀ p va, x = .cut p va → fails (collRecord s3 c a x true) 0x40) ∧
        (x = .ok → ∃ t, exec (.collectiveCompletion grp) s = .next t ∧ t.mem = (complete u c a d 1).mem ∧
            ∀ c', (complete u c a d 1).fab.colls.get? grp = some c' → c'.contrib.wf = true → ∃ x, t.fab.colls.get? grp = some x ∧
              x.queue = c'.queue.drop 1 ∧ ∀ r, x.contrib.getD r [] = (c'.contrib.getD r []).drop 1)) ∧
  (∀ (s s1 : State) (c : Coll) (a : Submission) (d : Desc) (v : W64) (x : Xlat), d.cmpl < 2 ^ 64 →
    (d.cmpl % 8 ≠ 0 ∨ 2 ^ 55 ≤ d.cmpl → complete s c a d v = s) ∧
    (d.cmpl % 8 = 0 → d.cmpl < 2 ^ 55 → reeveAddr s c.vf a.asid d.cmpl .wr = (s1, .ok x) → isRemote x.pa = false →
      s1.fab.timeFrame = none → movedTo s1 x.pa = none → numAt (complete s c a d v) x.pa 8 = v.toNat) ∧
    (∀ code, code ≠ 0x13 → d.count = 0 → failColl s c a d code = complete s c a d (BitVec.ofNat 64 (2 ^ 63 + code)))) ∧
  (∀ (d : Desc) (vs : List (List Byte)) (j : Nat), vs ≠ [] → vs.length ≤ 1024 →
    let n := etypeSize d.etype
    let x (v : List Byte) : BitVec (8 * n) := BitVec.ofNat (8 * n) (fieldAt v (n * j) n)
    (d.op = 3 → d.root < vs.length → collElem d vs j = (x (vs.getD d.root [])).toNat) ∧
    (d.op ≤ 2 → d.etype ≠ 2 → collElem d vs j =
      ((vs.drop 1).foldl (fun y v => combineInt d.op (d.etype != 1) y (x v)) (x (vs.headD []))).toNat))

/-! ### Power, failure and pre-emption (R222, R223, R230, R231, R317, R387 to R391, R405 to R409) -/

/-- R230: what a pre-emption asks of a unit: to stop, unless it already stops for a debug stop or at a YIELD. -/
def Sys2Proof.Machine.asked (r : StopReq) : StopReq :=
  match r with | .debug => .debug | .yielded => .yielded | _ => .preempt

/-- R222, R223, R230, R231, R317, R387 to R391, R405 to R409: an error that does not recur is counted; a lasting one poisons a
line's grains, or takes a core, slice, link, mesh or die out of service. Way groups and pool units that nothing uses are gated,
wake and are usable again. The clock follows the throttle. A pre-emption asks every unit of the core to stop; a core whose units
have stopped is saved whole, and a restore puts its teams back with their registers on a core of their cluster that holds no
team; the saved cores of a whole grid go back at once, each onto a core of its own. A weir deadline marks cores of the
donor for the partition that is short and pre-empts them.
These clauses are the model's choices: a sleeping unit wakes in two steps, first `waking` and then usable (assumption 13); what a
core that leaves service takes with it, and what it leaves (assumption 57); a cluster and a die leave service with the mesh or the
slices that serve them (assumption 59); the throttle's limits and the log of each change of the clock (assumption 83); a deadline takes
the lowest-numbered cores of the donor, then of the next donor (assumptions 71 and 80); and which core a restore receives on
(assumption 80); and that an unreadable line is 64 bytes, with the grains that a directory or an L1 knows or else its two
sectors (assumption 93). -/
def Obligations.PowerFailureWeir : Prop :=
  (∀ (s : State) (u : ErrUnit), exec (.errorEvent u false) s =
    .next { s with fw := { s.fw with transient := s.fw.transient + 1 } }) ∧
  (∀ (s : State) (pa : Nat), NoCopies s → ∃ t, exec (.errorEvent (.line pa) true) s = .next t ∧ t.mem = s.mem ∧
    t.poisoned (pa / 64 * 64) 32 = true ∧ t.poisoned (pa / 64 * 64 + 32) 32 = true ∧
    (∀ a n, s.poison = [] → a + n ≤ pa / 64 * 64 ∨ pa / 64 * 64 + 64 ≤ a → t.poisoned a n = false)) ∧
  (∀ (s : State) (c : Nat), s.cores.has c = true → ∃ t, exec (.errorEvent (.core c) true) s = .next t ∧
    t.cores.has c = false ∧ c ∈ t.fw.coresOut ∧ (∀ k tm, s.team? k = some tm → tm.core = c → s.grids.has tm.grid = true →
      t.grids.has tm.grid = false)) ∧
  (∀ (s : State) (die : Nat) (u : ErrUnit), die < 2 → u = .die die ∨ (∃ cluster < 2, u = .mesh die cluster) →
    (∀ d < 2, d ≠ die → deadDie s.fw d = false) → ∃ t, exec (.errorEvent u true) s = .next t ∧
      (∀ n < 128, die * 128 + n ∈ t.fw.slicesOut) ∧ ∀ c, s.cores.has c = true → t.cores.has c = !(c / 256 == die)) ∧
  (∀ (s : State) (die n : Nat), die * 128 + n ∉ s.fw.slicesOut → ∃ t, exec (.errorEvent (.slice die n) true) s = .next t ∧
    die * 128 + n ∈ t.fw.slicesOut ∧
    (die < 2 → n < 128 → (∀ m < 128, m / 4 = n / 4 → m ≠ n → die * 128 + m ∈ s.fw.slicesOut) →
      ∀ c, c / 256 = die → t.cores.has c = false)) ∧
  (∀ (s : State) (l : Nat) (x : Link), s.fab.links.get? l = some x → x.inService = true →
    ∃ t, exec (.errorEvent (.link l) true) s = .next t ∧ t.mem = s.mem ∧
      t.fab.links.get? l = some { x with draining := true, crcFail := [], asked := none }) ∧
  (∀ (s : State) (watts celsius : Nat),
    let hot := s.fw.limits.1 < watts ∨ s.fw.limits.2 < celsius
    let cool := watts < s.fw.limits.1 ∧ celsius < s.fw.limits.2
    let f := if hot then max 1350 (s.fw.mhz - 100) else if cool then min 2700 (s.fw.mhz + 100) else s.fw.mhz
    (f = s.fw.mhz → exec (.throttleSample ⟨watts, celsius⟩) s = .next s) ∧
    (f ≠ s.fw.mhz → exec (.throttleSample ⟨watts, celsius⟩) s = .next { s with
      fw := { s.fw with mhz := f, epoch := (s.clk, s.now), throttles := s.fw.throttles ++ [(s.clk, f)] } })) ∧
  (∀ (s : State) (core quad : Nat) (c : Core), s.cores.get? core = some c →
    (1 ≤ quad → quad ≤ 5 → c.ways.get? quad = none → ∃ t c', exec (.l1WayGating core quad) s = .next t ∧
      t.cores.get? core = some c' ∧ c'.ways.get? quad = some .gated ∧
      ((∀ p ∈ c.l1, p.1 % 24 / 4 ≠ quad) → t.mem = s.mem ∧ c'.l1 = c.l1)) ∧
    (quad = 0 ∨ 6 ≤ quad → exec (.l1WayGating core quad) s = .next s) ∧
    (c.ways.get? quad = some .gated → ∃ t c', exec (.l1WayWake core quad) s = .next t ∧ t.cores.get? core = some c' ∧
      c'.ways.get? quad = some .waking ∧ t.mem = s.mem) ∧
    (c.ways.get? quad = some .waking → ∃ t c', exec (.wayWakeEnd core quad) s = .next t ∧ t.cores.get? core = some c' ∧
      c'.ways.get? quad = none ∧ t.mem = s.mem) ∧
    (c.ways.get? quad ≠ some .waking → ∃ t c', exec (.wayWakeEnd core quad) s = .next t ∧ t.cores.get? core = some c' ∧
      c'.ways = c.ways)) ∧
  (∀ (s : State) (core unit : Nat) (c : Core), s.cores.get? core = some c →
    (unit < 48 → c.units.get? unit = none → unit ∉ unitsUsed s core → ∃ t c', exec (.poolUnitGating core unit) s = .next t ∧
      t.cores.get? core = some c' ∧ c'.units.get? unit = some .gated ∧ t.mem = s.mem ∧ t.teams = s.teams) ∧
    (48 ≤ unit ∨ unit ∈ unitsUsed s core → exec (.poolUnitGating core unit) s = .next s) ∧
    (bitsOf c.pw.toNat 5 0 + bitsOf c.pw.toNat 11 6 + bitsOf c.pw.toNat 17 12 ≤ unit → teamsOn s core ≠ [] →
      exec (.poolUnitWake core unit) s = .next s) ∧
    (unit < bitsOf c.pw.toNat 5 0 + bitsOf c.pw.toNat 11 6 + bitsOf c.pw.toNat 17 12 ∨ teamsOn s core = [] →
      c.units.get? unit = some .gated → ∃ t c', exec (.poolUnitWake core unit) s = .next t ∧ t.cores.get? core = some c' ∧
        c'.units.get? unit = some .waking ∧ t.mem = s.mem) ∧
    (c.units.get? unit = some .waking → ∃ t c', exec (.poolUnitWakeEnd core unit) s = .next t ∧ t.cores.get? core = some c' ∧
      c'.units.get? unit = none ∧ t.mem = s.mem)) ∧
  (∀ (s : State) (vf core : Nat) (c : Core), s.cores.get? core = some c →
    (c.vf ≠ some vf → exec (.preemptionRequest vf core) s = .next s) ∧
    (c.vf = some vf → ∃ t c', exec (.preemptionRequest vf core) s = .next t ∧ t.cores.get? core = some c' ∧
      c'.preempt = true ∧ t.mem = s.mem ∧
      ∀ k tm, s.team? k = some tm → tm.core = core → ∃ tm', t.team? k = some tm' ∧ tm'.seq.stopReq = asked tm.seq.stopReq ∧
        tm'.seq.ctl = tm.seq.ctl ∧ .sequencerPark (.team k) ∈ t.agenda ∧
        ∀ j ∈ s.groupsOfTeam k, ∀ g, s.group? j = some g → t.group? j = some { g with stopReq := asked g.stopReq })) ∧
  (∀ (s : State) (core vf : Nat) (c : Core), s.cores.get? core = some c → c.vf = some vf →
    (coreStopped s core = false → exec (.contextSave core) s = .next s) ∧
    (coreStopped s core = true → teamsOn s core ≠ [] → c.giveTo = none → ∃ t x, exec (.contextSave core) s = .next t ∧
      t.saved.get? s.nextKey = some x ∧ x.core = core ∧ x.vf = vf ∧ x.pw = c.pw ∧
      x.teams = (teamsOn s core).map (fun p => (p.1, { p.2 with seq := { p.2.seq with reports := [] } })) ∧
      (t.coreD core).stones = [] ∧ (t.coreD core).preempt = false ∧
      x.groups = groupsOn s core ∧ x.stones = c.stones ∧ x.engine = c.engine ∧ (c.vcore = some x.vcore ∨ c.vcore = none) ∧
      (∀ n, n ≠ s.nextKey → t.saved.get? n = s.saved.get? n) ∧ teamsOn t core = [] ∧ groupsOn t core = [])) ∧
  (∀ (s : State) (n core : Nat) (x : Saved), s.saved.get? n = some x → restorePlan s n core = some [(n, core)] → asleepIn s [(n, core)] = [] →
    x.teams ≠ [] → (x.teams.map (fun p => p.1 % 16)).Nodup → (x.groups.map (fun p => p.1 % 64)).Nodup → (∀ p ∈ x.groups, p.2.sframe = none) →
    ∃ t c, exec (.restore n core) s = .next t ∧ t.saved = s.saved.erase n ∧ t.cores.get? core = some c ∧
      c.vcore = some x.vcore ∧ c.pw = x.pw ∧ c.stones = x.stones ∧
      (∀ p ∈ x.teams, ∃ tm, t.team? (core * 16 + p.1 % 16) = some tm ∧ tm.core = core ∧ tm.vcore = x.vcore ∧
        tm.member = p.2.member ∧ tm.seq.vers = p.2.seq.vers ∧ tm.seq.ctl = p.2.seq.ctl ∧ tm.sp = p.2.sp ∧ tm.acc = p.2.acc ∧
        tm.ham = p.2.ham.map fun h => (h.1, maskHamlet t core x.vf h.2)) ∧
      (∀ p ∈ x.groups, ∃ g, t.group? (core * 64 + p.1 % 64) = some g ∧ g.v = p.2.v ∧ g.sreg = p.2.sreg ∧ g.m = p.2.m ∧
        g.live = p.2.live ∧ g.vwb = p.2.vwb ∧ g.ctl = p.2.ctl ∧ g.flights = p.2.flights)) ∧
  (∀ (s : State) (n core : Nat) (ps : List (Nat × Nat)), (restorePlan s n core = none → exec (.restore n core) s = .next s) ∧
    (restorePlan s n core = some ps → (ps.map (·.2)).Nodup ∧
      (∀ p ∈ ps, ∃ x, s.saved.get? p.1 = some x ∧ (s.coreD p.2).vf = some x.vf ∧ p.2 / 128 = x.core / 128 ∧ teamsOn s p.2 = []) ∧
      (asleepIn s ps ≠ [] → ∃ t, exec (.restore n core) s = .next t ∧ t.saved = s.saved ∧ t.teams = s.teams ∧
        t.groups = s.groups ∧ t.mem = s.mem) ∧
      (asleepIn s ps = [] → ∃ t, exec (.restore n core) s = .next t ∧
        ∀ g ∈ wholeSaved s [n], ∀ k, g ∈ wholeSaved s [k] → t.saved.get? k = none))) ∧
  (∀ (s : State) (vf : Nat), (deadlineDue s vf = false → exec (.weirDeadline vf) s = .next (mapQueues s)) ∧
    ∀ p, deadlineDue s vf = true → donor s vf = some p →
      let kept := (partCores s p).filter fun c => (s.coreD c).giveTo.isNone
      let n := min (floorOf s vf - (partCores s vf).length - (s.cores.filter fun x => x.2.giveTo == some vf).length)
        (kept.length - floorOf s p)
      ∃ t, exec (.weirDeadline vf) s = .next (mapQueues t) ∧
        (∀ c ∈ kept.take n,
          (t.coreD c).giveTo = some vf ∧ (t.coreD c).preempt = true) ∧
        (∀ v, t.vfs.get? vf = some v → v.shortSince = some s.now) ∧ t.mem = s.mem)

/-! ### Reset, bring-up, the host's registers and the loader (R419, R425, R427, R441, R442, R449, R453) -/

/-- R419, R425, R427, R441, R442, R449, R453: module reset starts the ROM anew and keeps the fuses. Stages 1 to 3 end in the next
stage or in the stop value, and the device is then ready with every core in service given to the physical function. The
handshake creates the admin queue. The host's registers hold what is written to their defined bits. A load adds an object
with the names of its plan and answers when its invalidation is complete, or has no effect but its status; an object in use
stays. A function-level reset leaves nothing of a virtual function. A doorbell of a mapped queue reads its WPTR, and one of an
unmapped queue makes it pending and raises an event.
These clauses are the model's choices: a virtual function's handshake is taken at stage 5 alone (assumption 62); the fuses, the
operand that tells what self-test found, and stage 0x8000_0001 where neither die is left (assumption 82); a load or an unload writes
its pages in one instant (assumption 54), what an unload gives back (assumption 55), and where a load's and an unload's answer stands
(assumption 92); the clock after a reset (assumption 11); and the names of the host's registers (assumption 90). -/
def Obligations.Firmware : Prop :=
  (∀ s : State, ∃ t, exec .moduleReset s = .next t ∧ t.fw.stage = 1 ∧ t.fw.mhz = 2700 ∧ t.groups = [] ∧ t.teams = [] ∧
    t.grids = [] ∧ t.cores = [] ∧ t.queues = [] ∧ t.ctxs = [] ∧ t.vfs = [] ∧ t.saved = [] ∧ t.objs = [] ∧ t.agenda = [] ∧
    t.clk = 0 ∧ t.fab.dev = s.fab.dev ∧ t.fw.grade7384 = s.fw.grade7384 ∧ t.fw.fused = s.fw.fused ∧ t.events = [] ∧
    t.invals = [] ∧ t.moves = []) ∧
  (∀ fw : Machine.Firmware, (fw.grade7384 = false → fusedOff fw = []) ∧ (fw.grade7384 = true → ∀ k < 4,
    ((List.range 128).filter fun p => (fusedOff fw).contains (128 * k + p)).length = 32)) ∧
  (∀ (s : State) (n : Nat), s.fw.stage = BitVec.ofNat 32 n → 1 ≤ n → n ≤ 3 →
    exec (.bringUpStageComplete .fail) s = .next { s with fw := { s.fw with stage := 0x80000000 + BitVec.ofNat 32 n } } ∧
    (n = 1 → ∀ us, ∃ t, exec (.bringUpStageComplete (.ok us)) s = .next t ∧ t.mem = s.mem ∧
      (t.fw.stage = if deadDie t.fw 0 = true ∧ deadDie t.fw 1 = true then 0x80000001 else 2) ∧
      (∀ c, .core c ∈ us ∨ c ∈ s.fw.coresOut → c ∈ t.fw.coresOut) ∧ (∀ l, .link l ∈ us → l ∈ t.fw.linksOut) ∧
      (∀ die k, .slice die k ∈ us → die * 128 + k ∈ t.fw.slicesOut) ∧
      (∀ die k, .mesh die k ∈ us → ∀ c < 128, die * 256 + k * 128 + c ∈ t.fw.coresOut) ∧
      (∀ die, .die die ∈ us → ∀ c < 256, die * 256 + c ∈ t.fw.coresOut) ∧
      (us = [] → s.fw.coresOut = [] → s.fw.slicesOut = [] → s.fw.linksOut = [] → t.fw = { s.fw with stage := 2 })) ∧
    (n = 2 → ∀ us, exec (.bringUpStageComplete (.ok us)) s = .next { s with fw := { s.fw with stage := 3 } }) ∧
    (n = 3 → ∀ us, ∃ t, exec (.bringUpStageComplete (.ok us)) s = .next t ∧ t.fw.stage = 4 ∧ t.mem = s.mem ∧
      let off := fusedOff s.fw ++ s.fw.coresOut
      (∀ c, t.cores.has c = (decide (c < 512) && !off.contains c)) ∧
      (∀ c x, t.cores.get? c = some x → x.vf = some 0 ∧
        x.vcore = some ((List.range c).filter fun b => !off.contains b).length) ∧
      (∀ l < 24, ∃ x, t.fab.links.get? l = some x ∧ x.inService = !s.fw.linksOut.contains l) ∧
      (∀ vf < 64, ∃ v, t.vfs.get? vf = some v ∧ v.ready = false ∧ v.accepted = 0 ∧ v.tithe = 196608 ∧ v.floor = 0))) ∧
  (∀ (s : State) (r : StageResult), s.fw.stage = 4 ∨ s.fw.stage = 5 → exec (.bringUpStageComplete r) s = .next s) ∧
  (∀ (s : State) (vf : Nat) (v : Vf), s.vfs.get? vf = some v →
    (v.ready = true ∨ s.fw.stage ≠ (if vf = 0 then 4 else 5) ∨ ownPa s vf v.adminAddr = none →
      exec (.driverHandshake vf) s = .next s) ∧
    (vf = 0 → ownPa s vf v.adminAddr = some v.adminAddr) ∧
    (∀ pa, v.ready = false → s.fw.stage = (if vf = 0 then 4 else 5) → ownPa s vf v.adminAddr = some pa → BlockHere s vf pa →
      ∃ t q, exec (.driverHandshake vf) s = .next t ∧ t.fw.stage = 5 ∧
        t.vfs.get? vf = some { v with adminQ := some s.nextKey, ready := true } ∧ t.queues.get? s.nextKey = some q ∧
        q.qcb = pa ∧ q.vf = vf ∧ q.prio = 15 ∧ q.dbidx = 0 ∧ q.rptr = 0 ∧ q.slot = none ∧
        q.rbase.toNat = numAt s (pa + 0x40) 8 ∧ q.rsize = numAt s (pa + 0x48) 1 ∧
        numAt t (pa + 0x49) 1 = 15 ∧ numAt t (pa + 0x4C) 2 = 0)) ∧
  (∀ (s : State) (x : W128),
    (∀ vf v, s.vfs.get? vf = some v → ∃ u, exec (.registerWrite (.adminQcb vf) x) s = .next u ∧
      VfIs u s vf { v with adminAddr := (x.extractLsb' 0 64).toNat }) ∧
    (∀ i < 16, ∃ t, exec (.registerWrite (.ingest i) x) s = .next t ∧
      (∀ j, t.fab.ingest.getD j 0 = if j = i then
        (BitVec.ofNat 12 0 ++ (x.extractLsb' 64 52 ++ (x.extractLsb' 55 9 ++ (BitVec.ofNat 3 0 ++ (x.extractLsb' 16 36 ++
          BitVec.ofNat 16 0))))) else s.fab.ingest.getD j 0) ∧ t.mem = s.mem) ∧
    (∀ d cls l a, d < 512 → cls < 3 → l < 24 → a < 24 → ∃ t, exec (.registerWrite (.route d cls l a) x) s = .next t ∧
      (s.pathIdle (d * 3 + cls) = true →
        ∀ n, t.fab.route.get? n = if n = d * 3 + cls then some (l, a) else s.fab.route.get? n) ∧
      (s.pathIdle (d * 3 + cls) = false → t.fab.route = s.fab.route ∧ t.fab.reroute.get? (d * 3 + cls) = some (l, a)) ∧
      t.mem = s.mem) ∧
    exec (.registerWrite .timePage x) s = .next { s with
      fab := { s.fab with timeFrame := if x = 0 then none else some (x.extractLsb' 0 36).toNat } } ∧
    (∀ grp vf rank submit ms, 2 ≤ ms.length → ms.length ≤ 512 → rank < ms.length → s.vfs.get? vf ≠ none → ∃ t c,
      exec (.registerWrite (.coll grp vf rank submit ms) x) s = .next t ∧ t.mem = s.mem ∧ t.fab.colls.get? grp = some c ∧
      c.vf = vf ∧ c.rank = rank ∧ c.n = ms.length ∧ c.members = ms ∧ c.queue = [] ∧ c.submit = some submit ∧
      (∀ j, j ≠ grp → t.fab.colls.get? j = s.fab.colls.get? j))) ∧
  (∀ (s : State) (vf asid : Nat) (bytes : List Byte),
    let answer (status : Nat) : State := { s with fw := { s.fw with loader := some (status, []) } }
    let i := Instr.loadObject vf asid bytes
    (s.ctxs.get? asid = none → exec i s = .next (answer 1)) ∧
    ∀ c, s.ctxs.get? asid = some c →
      (c.vf ≠ vf → exec i s = .next (answer 3)) ∧
      (c.vf = vf → planLoad s asid bytes = none → exec i s = .next (answer 1)) ∧
      ∀ p, c.vf = vf → planLoad s asid bytes = some p →
        (mapStretches vf c.root p.stretches s = none → exec i s = .next (answer 2)) ∧
        ∀ u, mapStretches vf c.root p.stretches s = some u → ∃ t o v, exec i s = .next t ∧
          t.objs.get? u.nextKey = some o ∧ o.vf = vf ∧ o.asid = asid ∧ o.syms = p.syms ∧ o.kcbs = p.kcbs ∧ o.deps = p.deps ∧
          t.mem = u.mem ∧ (∀ k ∈ t.cores, ∀ e ∈ k.2.tlb ++ k.2.wtlb, e.asid ≠ asid) ∧ t.invals = u.invals ++ [v] ∧
          v.of = .ctx asid ∧ v.done = .load u.nextKey) ∧
  (∀ (s : State) (vf obj : Nat) (o : Obj), s.objs.get? obj = some o →
    let answer (status : Nat) : State := { s with fw := { s.fw with loader := some (status, []) } }
    let held := (∃ p ∈ s.grids, p.2.asid = o.asid ∧ p.2.st ≠ .done ∧ p.2.kcbAddr ∈ o.kcbs) ∨
      (∃ p ∈ s.objs, p.1 ≠ obj ∧ obj ∈ p.2.deps) ∨ o.freed ≠ []
    (o.vf ≠ vf → exec (.unloadObject vf obj) s = .next (answer 3)) ∧
    (o.vf = vf → held → exec (.unloadObject vf obj) s = .next (answer 4)) ∧
    (o.vf = vf → ¬ held → ∃ t o' v, exec (.unloadObject vf obj) s = .next t ∧ t.objs.get? obj = some o' ∧ o'.deps = o.deps ∧
      t.groups = s.groups ∧ t.grids = s.grids ∧ t.invals = s.invals ++ [v] ∧ v.of = .ctx o.asid ∧ v.done = .unload obj)) ∧
  (∀ (s : State) (v : Inval) (obj : Nat) (o : Obj), (settleInval s v).objs.get? obj = some o →
    (v.done = .load obj → (endInval s v).fw.loader = some (0, o.kcbs)) ∧
    (v.done = .unload obj → (endInval s v).fw.loader = some (0, []) ∧ (endInval s v).objs.get? obj = none)) ∧
  (∀ s : State, exec (.functionLevelReset 0) s = .next s) ∧
  (∀ (s : State) (vf : Nat), vf ≠ 0 → s.vfs.get? vf ≠ none →
    ∃ t, exec (.functionLevelReset vf) s = .next t ∧ FunctionReset t vf) ∧
  (∀ (s : State) (vf d : Nat),
    let found := s.queues.find? fun p => p.2.vf == vf && p.2.dbidx == d
    (s.serves vf = false ∨ found = none → exec (.doorbell vf d) s = .next s) ∧
    ∀ k q, s.serves vf = true → found = some (k, q) → s.queues.get? k = some q →
      let w := numAt s q.qcb 8
      (q.err = true → exec (.doorbell vf d) s = .next s) ∧
      (q.err = false → q.slot.isSome = true → BlockHere s q.vf q.qcb → (w + 2 ^ 64 - q.rptr) % 2 ^ 64 ≤ 2 ^ q.rsize →
        exec (.doorbell vf d) s = .next { s with queues := s.queues.set k { q with wptr := w } }) ∧
      (q.err = false → q.slot.isSome = true → BlockHere s q.vf q.qcb → 2 ^ q.rsize < (w + 2 ^ 64 - q.rptr) % 2 ^ 64 →
        ∃ t, exec (.doorbell vf d) s = .next t ∧ ⟨.fault, vf, some k⟩ ∈ t.events ∧
          OnlyQueue s t k { q with err := true, ecode := 0x02, slot := none, pending := none, unmapReq := false }) ∧
      (q.err = false → q.slot = none → ∃ u, exec (.doorbell vf d) s = .next u ∧ ⟨.kick, vf, some k⟩ ∈ u.events ∧
        OnlyQueue s u k { q with
          pending := if q.pending.isSome then q.pending else some s.now
          levels := if q.pending.isSome then q.levels else 0 }))
end

