-- ==== Sys2Proof/Laws/Table.lean ====
section
/-! SUPPORT. Laws of sparse tables: what a read sees after a write, and that writes keep the canonical form. -/

namespace Sys2Proof.Laws

open Sys2Proof

variable {α : Type}

/-- A bound that a key lies above. -/
def above (lo : Option Nat) (n : Nat) : Bool := match lo with | none => true | some l => decide (l < n)

theorem wfFrom_cons (lo : Option Nat) (k : Nat) (v : α) (t : Tab α) :
    Tab.wfFrom lo ((k, v) :: t) = (above lo k && Tab.wfFrom (some k) t) := by
  cases lo <;> rfl

theorem wfFrom_weaken {lo : Option Nat} {k : Nat} {t : Tab α} (ha : above lo k = true)
    (h : Tab.wfFrom (some k) t = true) : Tab.wfFrom lo t = true := by
  cases t with
  | nil => rfl
  | cons p t =>
    obtain ⟨n, v⟩ := p
    rw [wfFrom_cons] at h ⊢
    simp only [Bool.and_eq_true, above, decide_eq_true_eq] at h ⊢
    refine ⟨?_, h.2⟩
    cases lo with
    | none => rfl
    | some l => simp only [above, decide_eq_true_eq] at ha ⊢; omega

@[simp] theorem get?_nil (n : Nat) : Tab.get? ([] : Tab α) n = none := rfl

theorem get?_cons (k : Nat) (v : α) (t : Tab α) (n : Nat) :
    Tab.get? ((k, v) :: t) n = if n = k then some v else Tab.get? t n := rfl

theorem mem_of_get? {n : Nat} {x : α} {t : Tab α} (h : t.get? n = some x) : (n, x) ∈ t := by
  induction t with
  | nil => exact absurd h (by simp)
  | cons p t ih =>
    rw [show p :: t = (p.1, p.2) :: t from rfl, get?_cons] at h
    split at h
    · next e => cases h; rw [e]; exact List.mem_cons_self
    · exact List.mem_cons_of_mem _ (ih h)

@[simp] theorem get?_set_self (t : Tab α) (n : Nat) (x : α) : (t.set n x).get? n = some x := by
  induction t with
  | nil => simp [Tab.set, get?_cons]
  | cons p t ih =>
    obtain ⟨k, v⟩ := p
    unfold Tab.set
    split
    · simp [get?_cons]
    · split
      · simp [get?_cons]
      · next hne => simp [get?_cons, hne, ih]

theorem get?_set_ne {n m : Nat} (h : m ≠ n) (t : Tab α) (x : α) : (t.set n x).get? m = t.get? m := by
  induction t with
  | nil => simp [Tab.set, get?_cons, h]
  | cons p t ih =>
    obtain ⟨k, v⟩ := p
    unfold Tab.set
    split
    · simp [get?_cons, h]
    · split
      · next hk => subst hk; simp [get?_cons, h]
      · simp only [get?_cons, ih]

theorem get?_erase_ne {n m : Nat} (h : m ≠ n) (t : Tab α) : (t.erase n).get? m = t.get? m := by
  induction t with
  | nil => rfl
  | cons p t ih =>
    obtain ⟨k, v⟩ := p
    unfold Tab.erase
    split
    · next hk => subst hk; simp [get?_cons, h, ih]
    · simp only [get?_cons, ih]

/-- A key at or below the bound is not listed. -/
theorem get?_of_bound {lo n : Nat} {t : Tab α} (h : Tab.wfFrom (some lo) t = true) (hn : n ≤ lo) : t.get? n = none := by
  induction t generalizing lo with
  | nil => rfl
  | cons p t ih =>
    obtain ⟨k, v⟩ := p
    rw [wfFrom_cons] at h
    simp only [Bool.and_eq_true, above, decide_eq_true_eq] at h
    rw [get?_cons, if_neg (by omega)]
    exact ih h.2 (by omega)

@[simp] theorem get?_erase_self (t : Tab α) (n : Nat) : (t.erase n).get? n = none := by
  induction t with
  | nil => rfl
  | cons p t ih =>
    obtain ⟨k, v⟩ := p
    unfold Tab.erase
    split
    · exact ih
    · next hk => rw [get?_cons, if_neg hk]; exact ih

theorem wfFrom_set {lo : Option Nat} {t : Tab α} (h : Tab.wfFrom lo t = true) {n : Nat} (ha : above lo n = true) (x : α) :
    Tab.wfFrom lo (t.set n x) = true := by
  induction t generalizing lo with
  | nil => rw [Tab.set, wfFrom_cons, ha]; rfl
  | cons p t ih =>
    obtain ⟨k, v⟩ := p
    rw [wfFrom_cons] at h
    simp only [Bool.and_eq_true] at h
    unfold Tab.set
    split
    · next hlt => rw [wfFrom_cons, wfFrom_cons, ha, h.2]; simp [above, hlt]
    · split
      · next hk => subst hk; simp [wfFrom_cons, ha, h.2]
      · next hlt hne =>
        rw [wfFrom_cons, h.1, Bool.true_and]
        exact ih h.2 (by simp only [above, decide_eq_true_eq]; omega)

theorem wfFrom_erase {lo : Option Nat} {t : Tab α} (h : Tab.wfFrom lo t = true) (n : Nat) : Tab.wfFrom lo (t.erase n) = true := by
  induction t generalizing lo with
  | nil => exact h
  | cons p t ih =>
    obtain ⟨k, v⟩ := p
    rw [wfFrom_cons] at h
    simp only [Bool.and_eq_true] at h
    unfold Tab.erase
    split
    · exact ih (wfFrom_weaken h.1 h.2)
    · rw [wfFrom_cons, h.1, ih h.2]; rfl

theorem wfFrom_filter {lo : Option Nat} {t : Tab α} (h : Tab.wfFrom lo t = true) (p : Nat × α → Bool) :
    Tab.wfFrom lo (t.filter p) = true := by
  induction t generalizing lo with
  | nil => exact h
  | cons e t ih =>
    obtain ⟨k, v⟩ := e
    rw [wfFrom_cons] at h
    simp only [Bool.and_eq_true] at h
    rw [List.filter_cons]
    split
    · rw [wfFrom_cons, h.1, ih h.2]; rfl
    · exact wfFrom_weaken h.1 (ih h.2)

theorem wf_set {t : Tab α} (h : t.wf = true) (n : Nat) (x : α) : (t.set n x).wf = true := wfFrom_set h rfl x
theorem wf_erase {t : Tab α} (h : t.wf = true) (n : Nat) : (t.erase n).wf = true := wfFrom_erase h n

/-- A modified entry, read under its own key and under another. -/
theorem get?_modify (t : Tab α) (n m : Nat) (f : α → α) :
    (t.modify n f).get? m = if m = n then (t.get? m).map f else t.get? m := by
  induction t with
  | nil => split <;> rfl
  | cons p t ih =>
    obtain ⟨k, v⟩ := p
    have hc : Tab.modify ((k, v) :: t) n f = (if k = n then (k, f v) else (k, v)) :: Tab.modify t n f := by
      unfold Tab.modify; rfl
    rw [hc]
    by_cases hk : k = n <;> by_cases hm : m = k <;> simp_all [get?_cons]

theorem getD_def (t : Tab α) (n : Nat) (d : α) : t.getD n d = (t.get? n).getD d := rfl

variable [DecidableEq α]

theorem wf_put {t : Tab α} (h : t.wf = true) (d : α) (n : Nat) (x : α) : (t.put d n x).wf = true := by
  unfold Tab.put
  split
  · exact wf_erase h n
  · exact wf_set h n x

@[simp] theorem getD_put_self (t : Tab α) (d : α) (n : Nat) (x : α) : (t.put d n x).getD n d = x := by
  unfold Tab.put
  split
  · next hx => rw [getD_def, get?_erase_self, hx]; rfl
  · rw [getD_def, get?_set_self]; rfl

theorem getD_put_ne {n m : Nat} (hm : m ≠ n) (t : Tab α) (d x : α) : (t.put d n x).getD m d = t.getD m d := by
  unfold Tab.put
  split
  · rw [getD_def, get?_erase_ne hm, getD_def]
  · rw [getD_def, get?_set_ne hm, getD_def]

/-- A table written at one key, read at any. -/
theorem getD_put (t : Tab α) (d : α) (n m : Nat) (x : α) : (t.put d n x).getD m d = if m = n then x else t.getD m d := by
  split
  · next h => rw [h, getD_put_self]
  · next h => exact getD_put_ne h t d x

end Sys2Proof.Laws
end

