-- ==== Sys2Proof/Laws/State.lean ====
section
/-! SUPPORT. One law per field of the state for each update of a unit, and what a read of a unit sees after one. -/

namespace Sys2Proof.Laws

open Sys2Proof Sys2Proof.Machine

variable (s : State)

@[simp] theorem setGroup_agenda (k : Nat) (g : Group) : (s.setGroup k g).agenda = s.agenda := rfl
@[simp] theorem setGroup_inputs (k : Nat) (g : Group) : (s.setGroup k g).inputs = s.inputs := rfl
@[simp] theorem setGroup_sched (k : Nat) (g : Group) : (s.setGroup k g).sched = s.sched := rfl
@[simp] theorem setGroup_turn (k : Nat) (g : Group) : (s.setGroup k g).turn = s.turn := rfl
@[simp] theorem setGroup_clk (k : Nat) (g : Group) : (s.setGroup k g).clk = s.clk := rfl
@[simp] theorem setGroup_iss (k : Nat) (g : Group) : (s.setGroup k g).iss = s.iss := rfl
@[simp] theorem setGroup_fresh (k : Nat) (g : Group) : (s.setGroup k g).fresh = s.fresh := rfl
@[simp] theorem setGroup_nextKey (k : Nat) (g : Group) : (s.setGroup k g).nextKey = s.nextKey := rfl
@[simp] theorem setGroup_groups (k : Nat) (g : Group) : (s.setGroup k g).groups = s.groups.set k g := rfl
@[simp] theorem setGroup_teams (k : Nat) (g : Group) : (s.setGroup k g).teams = s.teams := rfl
@[simp] theorem setGroup_grids (k : Nat) (g : Group) : (s.setGroup k g).grids = s.grids := rfl
@[simp] theorem setGroup_cores (k : Nat) (g : Group) : (s.setGroup k g).cores = s.cores := rfl
@[simp] theorem setGroup_mem (k : Nat) (g : Group) : (s.setGroup k g).mem = s.mem := rfl
@[simp] theorem setGroup_l2 (k : Nat) (g : Group) : (s.setGroup k g).l2 = s.l2 := rfl
@[simp] theorem setGroup_l3 (k : Nat) (g : Group) : (s.setGroup k g).l3 = s.l3 := rfl
@[simp] theorem setGroup_poison (k : Nat) (g : Group) : (s.setGroup k g).poison = s.poison := rfl
@[simp] theorem setGroup_dirs (k : Nat) (g : Group) : (s.setGroup k g).dirs = s.dirs := rfl
@[simp] theorem setGroup_flushes (k : Nat) (g : Group) : (s.setGroup k g).flushes = s.flushes := rfl
@[simp] theorem setGroup_invals (k : Nat) (g : Group) : (s.setGroup k g).invals = s.invals := rfl
@[simp] theorem setGroup_moves (k : Nat) (g : Group) : (s.setGroup k g).moves = s.moves := rfl
@[simp] theorem setGroup_events (k : Nat) (g : Group) : (s.setGroup k g).events = s.events := rfl
@[simp] theorem setGroup_joins (k : Nat) (g : Group) : (s.setGroup k g).joins = s.joins := rfl
@[simp] theorem setGroup_dlvs (k : Nat) (g : Group) : (s.setGroup k g).dlvs = s.dlvs := rfl
@[simp] theorem setGroup_ringWaits (k : Nat) (g : Group) : (s.setGroup k g).ringWaits = s.ringWaits := rfl
@[simp] theorem setGroup_rings (k : Nat) (g : Group) : (s.setGroup k g).rings = s.rings := rfl
@[simp] theorem setGroup_ctxs (k : Nat) (g : Group) : (s.setGroup k g).ctxs = s.ctxs := rfl
@[simp] theorem setGroup_walk (k : Nat) (g : Group) : (s.setGroup k g).walk = s.walk := rfl
@[simp] theorem setGroup_walk2 (k : Nat) (g : Group) : (s.setGroup k g).walk2 = s.walk2 := rfl
@[simp] theorem setGroup_vfs (k : Nat) (g : Group) : (s.setGroup k g).vfs = s.vfs := rfl
@[simp] theorem setGroup_s2waits (k : Nat) (g : Group) : (s.setGroup k g).s2waits = s.s2waits := rfl
@[simp] theorem setGroup_reeveWaits (k : Nat) (g : Group) : (s.setGroup k g).reeveWaits = s.reeveWaits := rfl
@[simp] theorem setGroup_queues (k : Nat) (g : Group) : (s.setGroup k g).queues = s.queues := rfl
@[simp] theorem setGroup_saved (k : Nat) (g : Group) : (s.setGroup k g).saved = s.saved := rfl
@[simp] theorem setGroup_objs (k : Nat) (g : Group) : (s.setGroup k g).objs = s.objs := rfl
@[simp] theorem setGroup_fab (k : Nat) (g : Group) : (s.setGroup k g).fab = s.fab := rfl
@[simp] theorem setGroup_fw (k : Nat) (g : Group) : (s.setGroup k g).fw = s.fw := rfl

@[simp] theorem setTeam_agenda (k : Nat) (x : Team) : (s.setTeam k x).agenda = s.agenda := rfl
@[simp] theorem setTeam_inputs (k : Nat) (x : Team) : (s.setTeam k x).inputs = s.inputs := rfl
@[simp] theorem setTeam_sched (k : Nat) (x : Team) : (s.setTeam k x).sched = s.sched := rfl
@[simp] theorem setTeam_turn (k : Nat) (x : Team) : (s.setTeam k x).turn = s.turn := rfl
@[simp] theorem setTeam_clk (k : Nat) (x : Team) : (s.setTeam k x).clk = s.clk := rfl
@[simp] theorem setTeam_iss (k : Nat) (x : Team) : (s.setTeam k x).iss = s.iss := rfl
@[simp] theorem setTeam_fresh (k : Nat) (x : Team) : (s.setTeam k x).fresh = s.fresh := rfl
@[simp] theorem setTeam_nextKey (k : Nat) (x : Team) : (s.setTeam k x).nextKey = s.nextKey := rfl
@[simp] theorem setTeam_groups (k : Nat) (x : Team) : (s.setTeam k x).groups = s.groups := rfl
@[simp] theorem setTeam_teams (k : Nat) (x : Team) : (s.setTeam k x).teams = s.teams.set k x := rfl
@[simp] theorem setTeam_grids (k : Nat) (x : Team) : (s.setTeam k x).grids = s.grids := rfl
@[simp] theorem setTeam_cores (k : Nat) (x : Team) : (s.setTeam k x).cores = s.cores := rfl
@[simp] theorem setTeam_mem (k : Nat) (x : Team) : (s.setTeam k x).mem = s.mem := rfl
@[simp] theorem setTeam_l2 (k : Nat) (x : Team) : (s.setTeam k x).l2 = s.l2 := rfl
@[simp] theorem setTeam_l3 (k : Nat) (x : Team) : (s.setTeam k x).l3 = s.l3 := rfl
@[simp] theorem setTeam_poison (k : Nat) (x : Team) : (s.setTeam k x).poison = s.poison := rfl
@[simp] theorem setTeam_dirs (k : Nat) (x : Team) : (s.setTeam k x).dirs = s.dirs := rfl
@[simp] theorem setTeam_flushes (k : Nat) (x : Team) : (s.setTeam k x).flushes = s.flushes := rfl
@[simp] theorem setTeam_invals (k : Nat) (x : Team) : (s.setTeam k x).invals = s.invals := rfl
@[simp] theorem setTeam_moves (k : Nat) (x : Team) : (s.setTeam k x).moves = s.moves := rfl
@[simp] theorem setTeam_events (k : Nat) (x : Team) : (s.setTeam k x).events = s.events := rfl
@[simp] theorem setTeam_joins (k : Nat) (x : Team) : (s.setTeam k x).joins = s.joins := rfl
@[simp] theorem setTeam_dlvs (k : Nat) (x : Team) : (s.setTeam k x).dlvs = s.dlvs := rfl
@[simp] theorem setTeam_ringWaits (k : Nat) (x : Team) : (s.setTeam k x).ringWaits = s.ringWaits := rfl
@[simp] theorem setTeam_rings (k : Nat) (x : Team) : (s.setTeam k x).rings = s.rings := rfl
@[simp] theorem setTeam_ctxs (k : Nat) (x : Team) : (s.setTeam k x).ctxs = s.ctxs := rfl
@[simp] theorem setTeam_walk (k : Nat) (x : Team) : (s.setTeam k x).walk = s.walk := rfl
@[simp] theorem setTeam_walk2 (k : Nat) (x : Team) : (s.setTeam k x).walk2 = s.walk2 := rfl
@[simp] theorem setTeam_vfs (k : Nat) (x : Team) : (s.setTeam k x).vfs = s.vfs := rfl
@[simp] theorem setTeam_s2waits (k : Nat) (x : Team) : (s.setTeam k x).s2waits = s.s2waits := rfl
@[simp] theorem setTeam_reeveWaits (k : Nat) (x : Team) : (s.setTeam k x).reeveWaits = s.reeveWaits := rfl
@[simp] theorem setTeam_queues (k : Nat) (x : Team) : (s.setTeam k x).queues = s.queues := rfl
@[simp] theorem setTeam_saved (k : Nat) (x : Team) : (s.setTeam k x).saved = s.saved := rfl
@[simp] theorem setTeam_objs (k : Nat) (x : Team) : (s.setTeam k x).objs = s.objs := rfl
@[simp] theorem setTeam_fab (k : Nat) (x : Team) : (s.setTeam k x).fab = s.fab := rfl
@[simp] theorem setTeam_fw (k : Nat) (x : Team) : (s.setTeam k x).fw = s.fw := rfl

@[simp] theorem setGrid_agenda (k : Nat) (x : Grid) : (s.setGrid k x).agenda = s.agenda := rfl
@[simp] theorem setGrid_inputs (k : Nat) (x : Grid) : (s.setGrid k x).inputs = s.inputs := rfl
@[simp] theorem setGrid_sched (k : Nat) (x : Grid) : (s.setGrid k x).sched = s.sched := rfl
@[simp] theorem setGrid_turn (k : Nat) (x : Grid) : (s.setGrid k x).turn = s.turn := rfl
@[simp] theorem setGrid_clk (k : Nat) (x : Grid) : (s.setGrid k x).clk = s.clk := rfl
@[simp] theorem setGrid_iss (k : Nat) (x : Grid) : (s.setGrid k x).iss = s.iss := rfl
@[simp] theorem setGrid_fresh (k : Nat) (x : Grid) : (s.setGrid k x).fresh = s.fresh := rfl
@[simp] theorem setGrid_nextKey (k : Nat) (x : Grid) : (s.setGrid k x).nextKey = s.nextKey := rfl
@[simp] theorem setGrid_groups (k : Nat) (x : Grid) : (s.setGrid k x).groups = s.groups := rfl
@[simp] theorem setGrid_teams (k : Nat) (x : Grid) : (s.setGrid k x).teams = s.teams := rfl
@[simp] theorem setGrid_grids (k : Nat) (x : Grid) : (s.setGrid k x).grids = s.grids.set k x := rfl
@[simp] theorem setGrid_cores (k : Nat) (x : Grid) : (s.setGrid k x).cores = s.cores := rfl
@[simp] theorem setGrid_mem (k : Nat) (x : Grid) : (s.setGrid k x).mem = s.mem := rfl
@[simp] theorem setGrid_l2 (k : Nat) (x : Grid) : (s.setGrid k x).l2 = s.l2 := rfl
@[simp] theorem setGrid_l3 (k : Nat) (x : Grid) : (s.setGrid k x).l3 = s.l3 := rfl
@[simp] theorem setGrid_poison (k : Nat) (x : Grid) : (s.setGrid k x).poison = s.poison := rfl
@[simp] theorem setGrid_dirs (k : Nat) (x : Grid) : (s.setGrid k x).dirs = s.dirs := rfl
@[simp] theorem setGrid_flushes (k : Nat) (x : Grid) : (s.setGrid k x).flushes = s.flushes := rfl
@[simp] theorem setGrid_invals (k : Nat) (x : Grid) : (s.setGrid k x).invals = s.invals := rfl
@[simp] theorem setGrid_moves (k : Nat) (x : Grid) : (s.setGrid k x).moves = s.moves := rfl
@[simp] theorem setGrid_events (k : Nat) (x : Grid) : (s.setGrid k x).events = s.events := rfl
@[simp] theorem setGrid_joins (k : Nat) (x : Grid) : (s.setGrid k x).joins = s.joins := rfl
@[simp] theorem setGrid_dlvs (k : Nat) (x : Grid) : (s.setGrid k x).dlvs = s.dlvs := rfl
@[simp] theorem setGrid_ringWaits (k : Nat) (x : Grid) : (s.setGrid k x).ringWaits = s.ringWaits := rfl
@[simp] theorem setGrid_rings (k : Nat) (x : Grid) : (s.setGrid k x).rings = s.rings := rfl
@[simp] theorem setGrid_ctxs (k : Nat) (x : Grid) : (s.setGrid k x).ctxs = s.ctxs := rfl
@[simp] theorem setGrid_walk (k : Nat) (x : Grid) : (s.setGrid k x).walk = s.walk := rfl
@[simp] theorem setGrid_walk2 (k : Nat) (x : Grid) : (s.setGrid k x).walk2 = s.walk2 := rfl
@[simp] theorem setGrid_vfs (k : Nat) (x : Grid) : (s.setGrid k x).vfs = s.vfs := rfl
@[simp] theorem setGrid_s2waits (k : Nat) (x : Grid) : (s.setGrid k x).s2waits = s.s2waits := rfl
@[simp] theorem setGrid_reeveWaits (k : Nat) (x : Grid) : (s.setGrid k x).reeveWaits = s.reeveWaits := rfl
@[simp] theorem setGrid_queues (k : Nat) (x : Grid) : (s.setGrid k x).queues = s.queues := rfl
@[simp] theorem setGrid_saved (k : Nat) (x : Grid) : (s.setGrid k x).saved = s.saved := rfl
@[simp] theorem setGrid_objs (k : Nat) (x : Grid) : (s.setGrid k x).objs = s.objs := rfl
@[simp] theorem setGrid_fab (k : Nat) (x : Grid) : (s.setGrid k x).fab = s.fab := rfl
@[simp] theorem setGrid_fw (k : Nat) (x : Grid) : (s.setGrid k x).fw = s.fw := rfl

@[simp] theorem setCore_agenda (c : Nat) (x : Core) : (s.setCore c x).agenda = s.agenda := rfl
@[simp] theorem setCore_inputs (c : Nat) (x : Core) : (s.setCore c x).inputs = s.inputs := rfl
@[simp] theorem setCore_sched (c : Nat) (x : Core) : (s.setCore c x).sched = s.sched := rfl
@[simp] theorem setCore_turn (c : Nat) (x : Core) : (s.setCore c x).turn = s.turn := rfl
@[simp] theorem setCore_clk (c : Nat) (x : Core) : (s.setCore c x).clk = s.clk := rfl
@[simp] theorem setCore_iss (c : Nat) (x : Core) : (s.setCore c x).iss = s.iss := rfl
@[simp] theorem setCore_fresh (c : Nat) (x : Core) : (s.setCore c x).fresh = s.fresh := rfl
@[simp] theorem setCore_nextKey (c : Nat) (x : Core) : (s.setCore c x).nextKey = s.nextKey := rfl
@[simp] theorem setCore_groups (c : Nat) (x : Core) : (s.setCore c x).groups = s.groups := rfl
@[simp] theorem setCore_teams (c : Nat) (x : Core) : (s.setCore c x).teams = s.teams := rfl
@[simp] theorem setCore_grids (c : Nat) (x : Core) : (s.setCore c x).grids = s.grids := rfl
@[simp] theorem setCore_cores (c : Nat) (x : Core) :
    (s.setCore c x).cores = if s.cores.has c then s.cores.set c x else s.cores := rfl
@[simp] theorem setCore_mem (c : Nat) (x : Core) : (s.setCore c x).mem = s.mem := rfl
@[simp] theorem setCore_l2 (c : Nat) (x : Core) : (s.setCore c x).l2 = s.l2 := rfl
@[simp] theorem setCore_l3 (c : Nat) (x : Core) : (s.setCore c x).l3 = s.l3 := rfl
@[simp] theorem setCore_poison (c : Nat) (x : Core) : (s.setCore c x).poison = s.poison := rfl
@[simp] theorem setCore_dirs (c : Nat) (x : Core) : (s.setCore c x).dirs = s.dirs := rfl
@[simp] theorem setCore_flushes (c : Nat) (x : Core) : (s.setCore c x).flushes = s.flushes := rfl
@[simp] theorem setCore_invals (c : Nat) (x : Core) : (s.setCore c x).invals = s.invals := rfl
@[simp] theorem setCore_moves (c : Nat) (x : Core) : (s.setCore c x).moves = s.moves := rfl
@[simp] theorem setCore_events (c : Nat) (x : Core) : (s.setCore c x).events = s.events := rfl
@[simp] theorem setCore_joins (c : Nat) (x : Core) : (s.setCore c x).joins = s.joins := rfl
@[simp] theorem setCore_dlvs (c : Nat) (x : Core) : (s.setCore c x).dlvs = s.dlvs := rfl
@[simp] theorem setCore_ringWaits (c : Nat) (x : Core) : (s.setCore c x).ringWaits = s.ringWaits := rfl
@[simp] theorem setCore_rings (c : Nat) (x : Core) : (s.setCore c x).rings = s.rings := rfl
@[simp] theorem setCore_ctxs (c : Nat) (x : Core) : (s.setCore c x).ctxs = s.ctxs := rfl
@[simp] theorem setCore_walk (c : Nat) (x : Core) : (s.setCore c x).walk = s.walk := rfl
@[simp] theorem setCore_walk2 (c : Nat) (x : Core) : (s.setCore c x).walk2 = s.walk2 := rfl
@[simp] theorem setCore_vfs (c : Nat) (x : Core) : (s.setCore c x).vfs = s.vfs := rfl
@[simp] theorem setCore_s2waits (c : Nat) (x : Core) : (s.setCore c x).s2waits = s.s2waits := rfl
@[simp] theorem setCore_reeveWaits (c : Nat) (x : Core) : (s.setCore c x).reeveWaits = s.reeveWaits := rfl
@[simp] theorem setCore_queues (c : Nat) (x : Core) : (s.setCore c x).queues = s.queues := rfl
@[simp] theorem setCore_saved (c : Nat) (x : Core) : (s.setCore c x).saved = s.saved := rfl
@[simp] theorem setCore_objs (c : Nat) (x : Core) : (s.setCore c x).objs = s.objs := rfl
@[simp] theorem setCore_fab (c : Nat) (x : Core) : (s.setCore c x).fab = s.fab := rfl
@[simp] theorem setCore_fw (c : Nat) (x : Core) : (s.setCore c x).fw = s.fw := rfl

@[simp] theorem updGroup_agenda (k : Nat) (f : Group → Group) : (s.updGroup k f).agenda = s.agenda := rfl
@[simp] theorem updGroup_inputs (k : Nat) (f : Group → Group) : (s.updGroup k f).inputs = s.inputs := rfl
@[simp] theorem updGroup_sched (k : Nat) (f : Group → Group) : (s.updGroup k f).sched = s.sched := rfl
@[simp] theorem updGroup_turn (k : Nat) (f : Group → Group) : (s.updGroup k f).turn = s.turn := rfl
@[simp] theorem updGroup_clk (k : Nat) (f : Group → Group) : (s.updGroup k f).clk = s.clk := rfl
@[simp] theorem updGroup_iss (k : Nat) (f : Group → Group) : (s.updGroup k f).iss = s.iss := rfl
@[simp] theorem updGroup_fresh (k : Nat) (f : Group → Group) : (s.updGroup k f).fresh = s.fresh := rfl
@[simp] theorem updGroup_nextKey (k : Nat) (f : Group → Group) : (s.updGroup k f).nextKey = s.nextKey := rfl
@[simp] theorem updGroup_groups (k : Nat) (f : Group → Group) : (s.updGroup k f).groups = Tab.modify s.groups k f := rfl
@[simp] theorem updGroup_teams (k : Nat) (f : Group → Group) : (s.updGroup k f).teams = s.teams := rfl
@[simp] theorem updGroup_grids (k : Nat) (f : Group → Group) : (s.updGroup k f).grids = s.grids := rfl
@[simp] theorem updGroup_cores (k : Nat) (f : Group → Group) : (s.updGroup k f).cores = s.cores := rfl
@[simp] theorem updGroup_mem (k : Nat) (f : Group → Group) : (s.updGroup k f).mem = s.mem := rfl
@[simp] theorem updGroup_l2 (k : Nat) (f : Group → Group) : (s.updGroup k f).l2 = s.l2 := rfl
@[simp] theorem updGroup_l3 (k : Nat) (f : Group → Group) : (s.updGroup k f).l3 = s.l3 := rfl
@[simp] theorem updGroup_poison (k : Nat) (f : Group → Group) : (s.updGroup k f).poison = s.poison := rfl
@[simp] theorem updGroup_dirs (k : Nat) (f : Group → Group) : (s.updGroup k f).dirs = s.dirs := rfl
@[simp] theorem updGroup_flushes (k : Nat) (f : Group → Group) : (s.updGroup k f).flushes = s.flushes := rfl
@[simp] theorem updGroup_invals (k : Nat) (f : Group → Group) : (s.updGroup k f).invals = s.invals := rfl
@[simp] theorem updGroup_moves (k : Nat) (f : Group → Group) : (s.updGroup k f).moves = s.moves := rfl
@[simp] theorem updGroup_events (k : Nat) (f : Group → Group) : (s.updGroup k f).events = s.events := rfl
@[simp] theorem updGroup_joins (k : Nat) (f : Group → Group) : (s.updGroup k f).joins = s.joins := rfl
@[simp] theorem updGroup_dlvs (k : Nat) (f : Group → Group) : (s.updGroup k f).dlvs = s.dlvs := rfl
@[simp] theorem updGroup_ringWaits (k : Nat) (f : Group → Group) : (s.updGroup k f).ringWaits = s.ringWaits := rfl
@[simp] theorem updGroup_rings (k : Nat) (f : Group → Group) : (s.updGroup k f).rings = s.rings := rfl
@[simp] theorem updGroup_ctxs (k : Nat) (f : Group → Group) : (s.updGroup k f).ctxs = s.ctxs := rfl
@[simp] theorem updGroup_walk (k : Nat) (f : Group → Group) : (s.updGroup k f).walk = s.walk := rfl
@[simp] theorem updGroup_walk2 (k : Nat) (f : Group → Group) : (s.updGroup k f).walk2 = s.walk2 := rfl
@[simp] theorem updGroup_vfs (k : Nat) (f : Group → Group) : (s.updGroup k f).vfs = s.vfs := rfl
@[simp] theorem updGroup_s2waits (k : Nat) (f : Group → Group) : (s.updGroup k f).s2waits = s.s2waits := rfl
@[simp] theorem updGroup_reeveWaits (k : Nat) (f : Group → Group) : (s.updGroup k f).reeveWaits = s.reeveWaits := rfl
@[simp] theorem updGroup_queues (k : Nat) (f : Group → Group) : (s.updGroup k f).queues = s.queues := rfl
@[simp] theorem updGroup_saved (k : Nat) (f : Group → Group) : (s.updGroup k f).saved = s.saved := rfl
@[simp] theorem updGroup_objs (k : Nat) (f : Group → Group) : (s.updGroup k f).objs = s.objs := rfl
@[simp] theorem updGroup_fab (k : Nat) (f : Group → Group) : (s.updGroup k f).fab = s.fab := rfl
@[simp] theorem updGroup_fw (k : Nat) (f : Group → Group) : (s.updGroup k f).fw = s.fw := rfl

@[simp] theorem updTeam_agenda (k : Nat) (f : Team → Team) : (s.updTeam k f).agenda = s.agenda := rfl
@[simp] theorem updTeam_inputs (k : Nat) (f : Team → Team) : (s.updTeam k f).inputs = s.inputs := rfl
@[simp] theorem updTeam_sched (k : Nat) (f : Team → Team) : (s.updTeam k f).sched = s.sched := rfl
@[simp] theorem updTeam_turn (k : Nat) (f : Team → Team) : (s.updTeam k f).turn = s.turn := rfl
@[simp] theorem updTeam_clk (k : Nat) (f : Team → Team) : (s.updTeam k f).clk = s.clk := rfl
@[simp] theorem updTeam_iss (k : Nat) (f : Team → Team) : (s.updTeam k f).iss = s.iss := rfl
@[simp] theorem updTeam_fresh (k : Nat) (f : Team → Team) : (s.updTeam k f).fresh = s.fresh := rfl
@[simp] theorem updTeam_nextKey (k : Nat) (f : Team → Team) : (s.updTeam k f).nextKey = s.nextKey := rfl
@[simp] theorem updTeam_groups (k : Nat) (f : Team → Team) : (s.updTeam k f).groups = s.groups := rfl
@[simp] theorem updTeam_teams (k : Nat) (f : Team → Team) : (s.updTeam k f).teams = Tab.modify s.teams k f := rfl
@[simp] theorem updTeam_grids (k : Nat) (f : Team → Team) : (s.updTeam k f).grids = s.grids := rfl
@[simp] theorem updTeam_cores (k : Nat) (f : Team → Team) : (s.updTeam k f).cores = s.cores := rfl
@[simp] theorem updTeam_mem (k : Nat) (f : Team → Team) : (s.updTeam k f).mem = s.mem := rfl
@[simp] theorem updTeam_l2 (k : Nat) (f : Team → Team) : (s.updTeam k f).l2 = s.l2 := rfl
@[simp] theorem updTeam_l3 (k : Nat) (f : Team → Team) : (s.updTeam k f).l3 = s.l3 := rfl
@[simp] theorem updTeam_poison (k : Nat) (f : Team → Team) : (s.updTeam k f).poison = s.poison := rfl
@[simp] theorem updTeam_dirs (k : Nat) (f : Team → Team) : (s.updTeam k f).dirs = s.dirs := rfl
@[simp] theorem updTeam_flushes (k : Nat) (f : Team → Team) : (s.updTeam k f).flushes = s.flushes := rfl
@[simp] theorem updTeam_invals (k : Nat) (f : Team → Team) : (s.updTeam k f).invals = s.invals := rfl
@[simp] theorem updTeam_moves (k : Nat) (f : Team → Team) : (s.updTeam k f).moves = s.moves := rfl
@[simp] theorem updTeam_events (k : Nat) (f : Team → Team) : (s.updTeam k f).events = s.events := rfl
@[simp] theorem updTeam_joins (k : Nat) (f : Team → Team) : (s.updTeam k f).joins = s.joins := rfl
@[simp] theorem updTeam_dlvs (k : Nat) (f : Team → Team) : (s.updTeam k f).dlvs = s.dlvs := rfl
@[simp] theorem updTeam_ringWaits (k : Nat) (f : Team → Team) : (s.updTeam k f).ringWaits = s.ringWaits := rfl
@[simp] theorem updTeam_rings (k : Nat) (f : Team → Team) : (s.updTeam k f).rings = s.rings := rfl
@[simp] theorem updTeam_ctxs (k : Nat) (f : Team → Team) : (s.updTeam k f).ctxs = s.ctxs := rfl
@[simp] theorem updTeam_walk (k : Nat) (f : Team → Team) : (s.updTeam k f).walk = s.walk := rfl
@[simp] theorem updTeam_walk2 (k : Nat) (f : Team → Team) : (s.updTeam k f).walk2 = s.walk2 := rfl
@[simp] theorem updTeam_vfs (k : Nat) (f : Team → Team) : (s.updTeam k f).vfs = s.vfs := rfl
@[simp] theorem updTeam_s2waits (k : Nat) (f : Team → Team) : (s.updTeam k f).s2waits = s.s2waits := rfl
@[simp] theorem updTeam_reeveWaits (k : Nat) (f : Team → Team) : (s.updTeam k f).reeveWaits = s.reeveWaits := rfl
@[simp] theorem updTeam_queues (k : Nat) (f : Team → Team) : (s.updTeam k f).queues = s.queues := rfl
@[simp] theorem updTeam_saved (k : Nat) (f : Team → Team) : (s.updTeam k f).saved = s.saved := rfl
@[simp] theorem updTeam_objs (k : Nat) (f : Team → Team) : (s.updTeam k f).objs = s.objs := rfl
@[simp] theorem updTeam_fab (k : Nat) (f : Team → Team) : (s.updTeam k f).fab = s.fab := rfl
@[simp] theorem updTeam_fw (k : Nat) (f : Team → Team) : (s.updTeam k f).fw = s.fw := rfl

@[simp] theorem updGrid_agenda (k : Nat) (f : Grid → Grid) : (s.updGrid k f).agenda = s.agenda := rfl
@[simp] theorem updGrid_inputs (k : Nat) (f : Grid → Grid) : (s.updGrid k f).inputs = s.inputs := rfl
@[simp] theorem updGrid_sched (k : Nat) (f : Grid → Grid) : (s.updGrid k f).sched = s.sched := rfl
@[simp] theorem updGrid_turn (k : Nat) (f : Grid → Grid) : (s.updGrid k f).turn = s.turn := rfl
@[simp] theorem updGrid_clk (k : Nat) (f : Grid → Grid) : (s.updGrid k f).clk = s.clk := rfl
@[simp] theorem updGrid_iss (k : Nat) (f : Grid → Grid) : (s.updGrid k f).iss = s.iss := rfl
@[simp] theorem updGrid_fresh (k : Nat) (f : Grid → Grid) : (s.updGrid k f).fresh = s.fresh := rfl
@[simp] theorem updGrid_nextKey (k : Nat) (f : Grid → Grid) : (s.updGrid k f).nextKey = s.nextKey := rfl
@[simp] theorem updGrid_groups (k : Nat) (f : Grid → Grid) : (s.updGrid k f).groups = s.groups := rfl
@[simp] theorem updGrid_teams (k : Nat) (f : Grid → Grid) : (s.updGrid k f).teams = s.teams := rfl
@[simp] theorem updGrid_grids (k : Nat) (f : Grid → Grid) : (s.updGrid k f).grids = Tab.modify s.grids k f := rfl
@[simp] theorem updGrid_cores (k : Nat) (f : Grid → Grid) : (s.updGrid k f).cores = s.cores := rfl
@[simp] theorem updGrid_mem (k : Nat) (f : Grid → Grid) : (s.updGrid k f).mem = s.mem := rfl
@[simp] theorem updGrid_l2 (k : Nat) (f : Grid → Grid) : (s.updGrid k f).l2 = s.l2 := rfl
@[simp] theorem updGrid_l3 (k : Nat) (f : Grid → Grid) : (s.updGrid k f).l3 = s.l3 := rfl
@[simp] theorem updGrid_poison (k : Nat) (f : Grid → Grid) : (s.updGrid k f).poison = s.poison := rfl
@[simp] theorem updGrid_dirs (k : Nat) (f : Grid → Grid) : (s.updGrid k f).dirs = s.dirs := rfl
@[simp] theorem updGrid_flushes (k : Nat) (f : Grid → Grid) : (s.updGrid k f).flushes = s.flushes := rfl
@[simp] theorem updGrid_invals (k : Nat) (f : Grid → Grid) : (s.updGrid k f).invals = s.invals := rfl
@[simp] theorem updGrid_moves (k : Nat) (f : Grid → Grid) : (s.updGrid k f).moves = s.moves := rfl
@[simp] theorem updGrid_events (k : Nat) (f : Grid → Grid) : (s.updGrid k f).events = s.events := rfl
@[simp] theorem updGrid_joins (k : Nat) (f : Grid → Grid) : (s.updGrid k f).joins = s.joins := rfl
@[simp] theorem updGrid_dlvs (k : Nat) (f : Grid → Grid) : (s.updGrid k f).dlvs = s.dlvs := rfl
@[simp] theorem updGrid_ringWaits (k : Nat) (f : Grid → Grid) : (s.updGrid k f).ringWaits = s.ringWaits := rfl
@[simp] theorem updGrid_rings (k : Nat) (f : Grid → Grid) : (s.updGrid k f).rings = s.rings := rfl
@[simp] theorem updGrid_ctxs (k : Nat) (f : Grid → Grid) : (s.updGrid k f).ctxs = s.ctxs := rfl
@[simp] theorem updGrid_walk (k : Nat) (f : Grid → Grid) : (s.updGrid k f).walk = s.walk := rfl
@[simp] theorem updGrid_walk2 (k : Nat) (f : Grid → Grid) : (s.updGrid k f).walk2 = s.walk2 := rfl
@[simp] theorem updGrid_vfs (k : Nat) (f : Grid → Grid) : (s.updGrid k f).vfs = s.vfs := rfl
@[simp] theorem updGrid_s2waits (k : Nat) (f : Grid → Grid) : (s.updGrid k f).s2waits = s.s2waits := rfl
@[simp] theorem updGrid_reeveWaits (k : Nat) (f : Grid → Grid) : (s.updGrid k f).reeveWaits = s.reeveWaits := rfl
@[simp] theorem updGrid_queues (k : Nat) (f : Grid → Grid) : (s.updGrid k f).queues = s.queues := rfl
@[simp] theorem updGrid_saved (k : Nat) (f : Grid → Grid) : (s.updGrid k f).saved = s.saved := rfl
@[simp] theorem updGrid_objs (k : Nat) (f : Grid → Grid) : (s.updGrid k f).objs = s.objs := rfl
@[simp] theorem updGrid_fab (k : Nat) (f : Grid → Grid) : (s.updGrid k f).fab = s.fab := rfl
@[simp] theorem updGrid_fw (k : Nat) (f : Grid → Grid) : (s.updGrid k f).fw = s.fw := rfl

@[simp] theorem updCore_agenda (k : Nat) (f : Core → Core) : (s.updCore k f).agenda = s.agenda := rfl
@[simp] theorem updCore_inputs (k : Nat) (f : Core → Core) : (s.updCore k f).inputs = s.inputs := rfl
@[simp] theorem updCore_sched (k : Nat) (f : Core → Core) : (s.updCore k f).sched = s.sched := rfl
@[simp] theorem updCore_turn (k : Nat) (f : Core → Core) : (s.updCore k f).turn = s.turn := rfl
@[simp] theorem updCore_clk (k : Nat) (f : Core → Core) : (s.updCore k f).clk = s.clk := rfl
@[simp] theorem updCore_iss (k : Nat) (f : Core → Core) : (s.updCore k f).iss = s.iss := rfl
@[simp] theorem updCore_fresh (k : Nat) (f : Core → Core) : (s.updCore k f).fresh = s.fresh := rfl
@[simp] theorem updCore_nextKey (k : Nat) (f : Core → Core) : (s.updCore k f).nextKey = s.nextKey := rfl
@[simp] theorem updCore_groups (k : Nat) (f : Core → Core) : (s.updCore k f).groups = s.groups := rfl
@[simp] theorem updCore_teams (k : Nat) (f : Core → Core) : (s.updCore k f).teams = s.teams := rfl
@[simp] theorem updCore_grids (k : Nat) (f : Core → Core) : (s.updCore k f).grids = s.grids := rfl
@[simp] theorem updCore_cores (k : Nat) (f : Core → Core) : (s.updCore k f).cores = Tab.modify s.cores k f := rfl
@[simp] theorem updCore_mem (k : Nat) (f : Core → Core) : (s.updCore k f).mem = s.mem := rfl
@[simp] theorem updCore_l2 (k : Nat) (f : Core → Core) : (s.updCore k f).l2 = s.l2 := rfl
@[simp] theorem updCore_l3 (k : Nat) (f : Core → Core) : (s.updCore k f).l3 = s.l3 := rfl
@[simp] theorem updCore_poison (k : Nat) (f : Core → Core) : (s.updCore k f).poison = s.poison := rfl
@[simp] theorem updCore_dirs (k : Nat) (f : Core → Core) : (s.updCore k f).dirs = s.dirs := rfl
@[simp] theorem updCore_flushes (k : Nat) (f : Core → Core) : (s.updCore k f).flushes = s.flushes := rfl
@[simp] theorem updCore_invals (k : Nat) (f : Core → Core) : (s.updCore k f).invals = s.invals := rfl
@[simp] theorem updCore_moves (k : Nat) (f : Core → Core) : (s.updCore k f).moves = s.moves := rfl
@[simp] theorem updCore_events (k : Nat) (f : Core → Core) : (s.updCore k f).events = s.events := rfl
@[simp] theorem updCore_joins (k : Nat) (f : Core → Core) : (s.updCore k f).joins = s.joins := rfl
@[simp] theorem updCore_dlvs (k : Nat) (f : Core → Core) : (s.updCore k f).dlvs = s.dlvs := rfl
@[simp] theorem updCore_ringWaits (k : Nat) (f : Core → Core) : (s.updCore k f).ringWaits = s.ringWaits := rfl
@[simp] theorem updCore_rings (k : Nat) (f : Core → Core) : (s.updCore k f).rings = s.rings := rfl
@[simp] theorem updCore_ctxs (k : Nat) (f : Core → Core) : (s.updCore k f).ctxs = s.ctxs := rfl
@[simp] theorem updCore_walk (k : Nat) (f : Core → Core) : (s.updCore k f).walk = s.walk := rfl
@[simp] theorem updCore_walk2 (k : Nat) (f : Core → Core) : (s.updCore k f).walk2 = s.walk2 := rfl
@[simp] theorem updCore_vfs (k : Nat) (f : Core → Core) : (s.updCore k f).vfs = s.vfs := rfl
@[simp] theorem updCore_s2waits (k : Nat) (f : Core → Core) : (s.updCore k f).s2waits = s.s2waits := rfl
@[simp] theorem updCore_reeveWaits (k : Nat) (f : Core → Core) : (s.updCore k f).reeveWaits = s.reeveWaits := rfl
@[simp] theorem updCore_queues (k : Nat) (f : Core → Core) : (s.updCore k f).queues = s.queues := rfl
@[simp] theorem updCore_saved (k : Nat) (f : Core → Core) : (s.updCore k f).saved = s.saved := rfl
@[simp] theorem updCore_objs (k : Nat) (f : Core → Core) : (s.updCore k f).objs = s.objs := rfl
@[simp] theorem updCore_fab (k : Nat) (f : Core → Core) : (s.updCore k f).fab = s.fab := rfl
@[simp] theorem updCore_fw (k : Nat) (f : Core → Core) : (s.updCore k f).fw = s.fw := rfl

@[simp] theorem post_agenda (es : List Instr) : (s.post es).agenda = s.agenda ++ es := rfl
@[simp] theorem post_inputs (es : List Instr) : (s.post es).inputs = s.inputs := rfl
@[simp] theorem post_sched (es : List Instr) : (s.post es).sched = s.sched := rfl
@[simp] theorem post_turn (es : List Instr) : (s.post es).turn = s.turn := rfl
@[simp] theorem post_clk (es : List Instr) : (s.post es).clk = s.clk := rfl
@[simp] theorem post_iss (es : List Instr) : (s.post es).iss = s.iss := rfl
@[simp] theorem post_fresh (es : List Instr) : (s.post es).fresh = s.fresh := rfl
@[simp] theorem post_nextKey (es : List Instr) : (s.post es).nextKey = s.nextKey := rfl
@[simp] theorem post_groups (es : List Instr) : (s.post es).groups = s.groups := rfl
@[simp] theorem post_teams (es : List Instr) : (s.post es).teams = s.teams := rfl
@[simp] theorem post_grids (es : List Instr) : (s.post es).grids = s.grids := rfl
@[simp] theorem post_cores (es : List Instr) : (s.post es).cores = s.cores := rfl
@[simp] theorem post_mem (es : List Instr) : (s.post es).mem = s.mem := rfl
@[simp] theorem post_l2 (es : List Instr) : (s.post es).l2 = s.l2 := rfl
@[simp] theorem post_l3 (es : List Instr) : (s.post es).l3 = s.l3 := rfl
@[simp] theorem post_poison (es : List Instr) : (s.post es).poison = s.poison := rfl
@[simp] theorem post_dirs (es : List Instr) : (s.post es).dirs = s.dirs := rfl
@[simp] theorem post_flushes (es : List Instr) : (s.post es).flushes = s.flushes := rfl
@[simp] theorem post_invals (es : List Instr) : (s.post es).invals = s.invals := rfl
@[simp] theorem post_moves (es : List Instr) : (s.post es).moves = s.moves := rfl
@[simp] theorem post_events (es : List Instr) : (s.post es).events = s.events := rfl
@[simp] theorem post_joins (es : List Instr) : (s.post es).joins = s.joins := rfl
@[simp] theorem post_dlvs (es : List Instr) : (s.post es).dlvs = s.dlvs := rfl
@[simp] theorem post_ringWaits (es : List Instr) : (s.post es).ringWaits = s.ringWaits := rfl
@[simp] theorem post_rings (es : List Instr) : (s.post es).rings = s.rings := rfl
@[simp] theorem post_ctxs (es : List Instr) : (s.post es).ctxs = s.ctxs := rfl
@[simp] theorem post_walk (es : List Instr) : (s.post es).walk = s.walk := rfl
@[simp] theorem post_walk2 (es : List Instr) : (s.post es).walk2 = s.walk2 := rfl
@[simp] theorem post_vfs (es : List Instr) : (s.post es).vfs = s.vfs := rfl
@[simp] theorem post_s2waits (es : List Instr) : (s.post es).s2waits = s.s2waits := rfl
@[simp] theorem post_reeveWaits (es : List Instr) : (s.post es).reeveWaits = s.reeveWaits := rfl
@[simp] theorem post_queues (es : List Instr) : (s.post es).queues = s.queues := rfl
@[simp] theorem post_saved (es : List Instr) : (s.post es).saved = s.saved := rfl
@[simp] theorem post_objs (es : List Instr) : (s.post es).objs = s.objs := rfl
@[simp] theorem post_fab (es : List Instr) : (s.post es).fab = s.fab := rfl
@[simp] theorem post_fw (es : List Instr) : (s.post es).fw = s.fw := rfl

@[simp] theorem bumpKey_agenda : s.bumpKey.agenda = s.agenda := rfl
@[simp] theorem bumpKey_inputs : s.bumpKey.inputs = s.inputs := rfl
@[simp] theorem bumpKey_sched : s.bumpKey.sched = s.sched := rfl
@[simp] theorem bumpKey_turn : s.bumpKey.turn = s.turn := rfl
@[simp] theorem bumpKey_clk : s.bumpKey.clk = s.clk := rfl
@[simp] theorem bumpKey_iss : s.bumpKey.iss = s.iss := rfl
@[simp] theorem bumpKey_fresh : s.bumpKey.fresh = s.fresh := rfl
@[simp] theorem bumpKey_nextKey : s.bumpKey.nextKey = s.nextKey + 1 := rfl
@[simp] theorem bumpKey_groups : s.bumpKey.groups = s.groups := rfl
@[simp] theorem bumpKey_teams : s.bumpKey.teams = s.teams := rfl
@[simp] theorem bumpKey_grids : s.bumpKey.grids = s.grids := rfl
@[simp] theorem bumpKey_cores : s.bumpKey.cores = s.cores := rfl
@[simp] theorem bumpKey_mem : s.bumpKey.mem = s.mem := rfl
@[simp] theorem bumpKey_l2 : s.bumpKey.l2 = s.l2 := rfl
@[simp] theorem bumpKey_l3 : s.bumpKey.l3 = s.l3 := rfl
@[simp] theorem bumpKey_poison : s.bumpKey.poison = s.poison := rfl
@[simp] theorem bumpKey_dirs : s.bumpKey.dirs = s.dirs := rfl
@[simp] theorem bumpKey_flushes : s.bumpKey.flushes = s.flushes := rfl
@[simp] theorem bumpKey_invals : s.bumpKey.invals = s.invals := rfl
@[simp] theorem bumpKey_moves : s.bumpKey.moves = s.moves := rfl
@[simp] theorem bumpKey_events : s.bumpKey.events = s.events := rfl
@[simp] theorem bumpKey_joins : s.bumpKey.joins = s.joins := rfl
@[simp] theorem bumpKey_dlvs : s.bumpKey.dlvs = s.dlvs := rfl
@[simp] theorem bumpKey_ringWaits : s.bumpKey.ringWaits = s.ringWaits := rfl
@[simp] theorem bumpKey_rings : s.bumpKey.rings = s.rings := rfl
@[simp] theorem bumpKey_ctxs : s.bumpKey.ctxs = s.ctxs := rfl
@[simp] theorem bumpKey_walk : s.bumpKey.walk = s.walk := rfl
@[simp] theorem bumpKey_walk2 : s.bumpKey.walk2 = s.walk2 := rfl
@[simp] theorem bumpKey_vfs : s.bumpKey.vfs = s.vfs := rfl
@[simp] theorem bumpKey_s2waits : s.bumpKey.s2waits = s.s2waits := rfl
@[simp] theorem bumpKey_reeveWaits : s.bumpKey.reeveWaits = s.reeveWaits := rfl
@[simp] theorem bumpKey_queues : s.bumpKey.queues = s.queues := rfl
@[simp] theorem bumpKey_saved : s.bumpKey.saved = s.saved := rfl
@[simp] theorem bumpKey_objs : s.bumpKey.objs = s.objs := rfl
@[simp] theorem bumpKey_fab : s.bumpKey.fab = s.fab := rfl
@[simp] theorem bumpKey_fw : s.bumpKey.fw = s.fw := rfl

/-! ### Reading a unit after an update -/

@[simp] theorem group?_setGroup (k : Nat) (g : Group) : (s.setGroup k g).group? k = some g := get?_set_self _ _ _

theorem group?_setGroup_ne {k j : Nat} (h : j ≠ k) (g : Group) : (s.setGroup k g).group? j = s.group? j := get?_set_ne h _ _

@[simp] theorem group?_updGroup (k j : Nat) (f : Group → Group) :
    (s.updGroup k f).group? j = if j = k then (s.group? j).map f else s.group? j := get?_modify _ _ _ _

@[simp] theorem team?_updTeam (k j : Nat) (f : Team → Team) :
    (s.updTeam k f).team? j = if j = k then (s.team? j).map f else s.team? j := get?_modify _ _ _ _

@[simp] theorem grid?_updGrid (k j : Nat) (f : Grid → Grid) :
    (s.updGrid k f).grid? j = if j = k then (s.grid? j).map f else s.grid? j := get?_modify _ _ _ _

@[simp] theorem team?_setGroup (k j : Nat) (g : Group) : (s.setGroup k g).team? j = s.team? j := rfl
@[simp] theorem grid?_setGroup (k j : Nat) (g : Group) : (s.setGroup k g).grid? j = s.grid? j := rfl
@[simp] theorem team?_updGroup (k j : Nat) (f : Group → Group) : (s.updGroup k f).team? j = s.team? j := rfl
@[simp] theorem grid?_updGroup (k j : Nat) (f : Group → Group) : (s.updGroup k f).grid? j = s.grid? j := rfl
@[simp] theorem group?_updTeam (k j : Nat) (f : Team → Team) : (s.updTeam k f).group? j = s.group? j := rfl
@[simp] theorem grid?_updTeam (k j : Nat) (f : Team → Team) : (s.updTeam k f).grid? j = s.grid? j := rfl
@[simp] theorem group?_updGrid (k j : Nat) (f : Grid → Grid) : (s.updGrid k f).group? j = s.group? j := rfl
@[simp] theorem team?_updGrid (k j : Nat) (f : Grid → Grid) : (s.updGrid k f).team? j = s.team? j := rfl
@[simp] theorem group?_updCore (k j : Nat) (f : Core → Core) : (s.updCore k f).group? j = s.group? j := rfl
@[simp] theorem group?_bumpKey (j : Nat) : s.bumpKey.group? j = s.group? j := rfl
@[simp] theorem group?_post (es : List Instr) (j : Nat) : (s.post es).group? j = s.group? j := rfl
@[simp] theorem team?_post (es : List Instr) (j : Nat) : (s.post es).team? j = s.team? j := rfl
@[simp] theorem grid?_post (es : List Instr) (j : Nat) : (s.post es).grid? j = s.grid? j := rfl

/-- The parts of a group's context. -/
theorem gctx_some {k : Nat} {x : GCtx} (h : s.gctx k = some x) :
    s.group? k = some x.g ∧ s.team? x.g.team = some x.t ∧ s.grid? x.t.grid = some x.gr ∧ x.k = k := by
  unfold State.gctx at h
  split at h
  · cases h
  · next g hg =>
    split at h
    · cases h
    · next t ht =>
      split at h
      · cases h
      · next gr hgr => cases h; exact ⟨hg, ht, hgr, rfl⟩

end Sys2Proof.Laws
end

