-- ==== Sys2Proof/Laws/Issue.lean ====
section
/-! SUPPORT. What issuing an instruction does, once for each shared operation: the checks of R93 passed, the frame of
the issue, and the registers as its completion leaves them. -/

namespace Sys2Proof.Laws

open Sys2Proof Sys2Proof.Machine

/-! ### Passing the checks -/

theorem withGroup_issues {s : State} {k : Nat} {x : GCtx} {i : Instr} (h : Issues s k x i) (body : IX → Out) :
    withGroup s i body = body (IX.of s x) := by
  unfold withGroup
  rw [h.unit]
  simp only [h.ctx, h.clear]

theorem withUnit_issues {s : State} {k : Nat} {x : GCtx} {i : Instr} (h : Issues s k x i) (grp : IX → Out)
    (seq : UnitId → Out) : withUnit s i grp seq = grp (IX.of s x) := by
  unfold withUnit
  rw [h.unit]
  exact withGroup_issues h grp

theorem withUnit_seqIssues {s : State} {u : UnitId} {q : Seq} {i : Instr} (h : SeqIssues s u q i) (grp : IX → Out)
    (seq : UnitId → Out) : withUnit s i grp seq = seq u := by
  unfold withUnit
  rw [h.unit]
  have hq := h.seq
  cases u with
  | group k => cases hq
  | _ => simp only [hq, h.clear]

theorem gctx_k {s : State} {k : Nat} {x : GCtx} (h : s.gctx k = some x) : x.k = k := by
  unfold State.gctx at h
  repeat' split at h
  all_goals first | cases h | skip
  rfl

theorem gctx_group {s : State} {k : Nat} {x : GCtx} (h : s.gctx k = some x) : s.group? k = some x.g := by
  unfold State.gctx at h
  repeat' split at h
  all_goals first | cases h | skip
  assumption

@[simp] theorem ixOf_x (s : State) (x : GCtx) : (IX.of s x).x = x := rfl
@[simp] theorem ixOf_act (s : State) (x : GCtx) : (IX.of s x).act = x.g.active (IX.of s x).mask := rfl

/-! ### Reading registers after a write -/

@[simp] theorem write_flights (g : Group) (w : RegW) : (g.write w).flights = g.flights := by cases w <;> rfl

theorem writes_cons (g : Group) (w : RegW) (ws : List RegW) : g.writes (w :: ws) = (g.write w).writes ws := rfl

/-- A group after its register writes differs from it in its registers alone. -/
theorem writes_frame (g : Group) (ws : List RegW) :
    g.writes ws = { g with v := (g.writes ws).v, sreg := (g.writes ws).sreg, m := (g.writes ws).m } := by
  induction ws generalizing g with
  | nil => rfl
  | cons w ws ih =>
    rw [writes_cons, ih]
    cases w <;> rfl

theorem vget_write (g : Group) (w : RegW) (l p : Nat) : (g.write w).vget l p =
    match w with
    | .v l' p' x => if l * 256 + p = l' * 256 + p' then x else g.vget l p
    | _ => g.vget l p := by
  cases w <;> simp [Group.write, Group.vget, getD_put]

theorem sregD_write (g : Group) (w : RegW) (n : Nat) : (g.write w).sregD n =
    match w with
    | .s n' x => if n = n' then x else g.sregD n
    | _ => g.sregD n := by
  cases w <;> simp [Group.write, Group.sregD, getD_put]

theorem mreg_write (g : Group) (w : RegW) (n : Nat) : (g.write w).mreg n =
    match w with
    | .m n' x => if n = n' then x else g.mreg n
    | _ => g.mreg n := by
  cases w <;> simp [Group.write, Group.mreg, getD_put]

/-! ### The frame of an issue -/

/-- A group with the writes of a flight that landed: its registers are those of the writes. -/
theorem land_regs (g : Group) (f : Flight) : (g.land f).v = (g.writes f.writes).v ∧
    (g.land f).sreg = (g.writes f.writes).sreg ∧ (g.land f).m = (g.writes f.writes).m := by
  unfold Group.land Group.dropFlag
  split <;> exact ⟨rfl, rfl, rfl⟩

/-- The registers that writes give depend on the registers before alone. -/
theorem writes_regs {g h : Group} (hv : g.v = h.v) (hs : g.sreg = h.sreg) (hm : g.m = h.m) (ws : List RegW) :
    (g.writes ws).v = (h.writes ws).v ∧ (g.writes ws).sreg = (h.writes ws).sreg ∧ (g.writes ws).m = (h.writes ws).m := by
  induction ws generalizing g h with
  | nil => exact ⟨hv, hs, hm⟩
  | cons w ws ih =>
    rw [writes_cons, writes_cons]
    apply ih <;> cases w <;> simp [Group.write, hv, hs, hm]

/-- What `commit` does (R65, R67): the frame of the issue, and the registers that the completion leaves. -/
theorem commit_issued (s : State) (ix : IX) (i : Instr) (e : Eff) (pc : W64) :
    ∃ g', Issued s (commit s ix i e pc) ix.x.k ix.x.g g' pc e.fstat ∧
      g'.gen = e.gens.foldl (fun (t : Tab W32) (p : Nat × W32) => t.set p.1 p.2) ix.x.g.gen ∧
      (g'.settled ix.x.g).v = (ix.x.g.writes e.writes).v ∧
      (g'.settled ix.x.g).sreg = (ix.x.g.writes e.writes).sreg ∧
      (g'.settled ix.x.g).m = (ix.x.g.writes e.writes).m := by
  unfold commit
  dsimp only
  split
  · next h =>
    have hw : e.writes = [] := by
      rw [Bool.and_eq_true, List.isEmpty_iff] at h
      exact h.1
    refine ⟨_, ⟨rfl, rfl⟩, rfl, ?_⟩
    simp [Group.settled, Group.issued, Group.raise, hw, Group.writes]
  · refine ⟨_, ⟨rfl, ?_⟩, ?_, ?_⟩
    · unfold Group.launch Group.raiseFlag
      split <;> rfl
    · unfold Group.launch Group.raiseFlag
      split <;> rfl
    · have hf : ∀ (g : Group) (f : Flight), ((g.launch f).issued s pc).flights = g.flights ++ [{ f with id := g.nextFlight }] := by
        intro g f; unfold Group.launch Group.raiseFlag; split <;> rfl
      unfold Group.settled
      rw [hf]
      simp only [Group.raise, List.drop_left', List.foldl_cons, List.foldl_nil]
      have hl := land_regs
      refine ⟨?_, ?_, ?_⟩
      all_goals
        first | rw [(hl _ _).1] | rw [(hl _ _).2.1] | rw [(hl _ _).2.2]
        simp only [regFlight]
      · exact (writes_regs (by unfold Group.launch Group.raiseFlag; split <;> rfl) (by unfold Group.launch Group.raiseFlag; split <;> rfl) (by unfold Group.launch Group.raiseFlag; split <;> rfl) _).1
      · exact (writes_regs (by unfold Group.launch Group.raiseFlag; split <;> rfl) (by unfold Group.launch Group.raiseFlag; split <;> rfl) (by unfold Group.launch Group.raiseFlag; split <;> rfl) _).2.1
      · exact (writes_regs (by unfold Group.launch Group.raiseFlag; split <;> rfl) (by unfold Group.launch Group.raiseFlag; split <;> rfl) (by unfold Group.launch Group.raiseFlag; split <;> rfl) _).2.2

end Sys2Proof.Laws
end

