-- ==== Sys2Proof/Laws/Lanes.lean ====
section
/-! SUPPORT. The registers that a lane instruction's completion leaves (R132). -/

namespace Sys2Proof.Laws

open Sys2Proof Sys2Proof.Machine

theorem writes_append (g : Group) (ws us : List RegW) : g.writes (ws ++ us) = (g.writes ws).writes us := by
  unfold Group.writes
  exact List.foldl_append

/-- The writes are of lane registers alone. -/
def vOnly (ws : List RegW) : Prop := ∀ w ∈ ws, ∃ l p x, w = .v l p x

theorem vOnly_append {ws us : List RegW} (h : vOnly ws) (h' : vOnly us) : vOnly (ws ++ us) := by
  intro w hw
  exact (List.mem_append.mp hw).elim (h w) (h' w)

theorem vOnly_laneWrites (g : Group) (l dst : Nat) (xs : List W32) (n : Nat) : vOnly (laneWrites g l dst xs n) := by
  induction xs generalizing n with
  | nil => intro w hw; cases hw
  | cons x xs ih =>
    intro w hw
    rcases List.mem_cons.mp hw with rfl | hw
    · exact ⟨_, _, _, rfl⟩
    · exact ih _ w hw

theorem vOnly_flatMap (g : Group) (dst : Nat) (ls : List Nat) (vals : Nat → List W32) :
    vOnly (ls.flatMap fun l => laneWrites g l dst (vals l) 0) := by
  intro w hw
  obtain ⟨l, -, hl⟩ := List.mem_flatMap.mp hw
  exact vOnly_laneWrites g l dst _ 0 w hl

theorem vOnly_sreg {ws : List RegW} (h : vOnly ws) (g : Group) (n : Nat) : (g.writes ws).sregD n = g.sregD n := by
  induction ws generalizing g with
  | nil => rfl
  | cons w ws ih =>
    obtain ⟨l, p, x, rfl⟩ := h _ List.mem_cons_self
    rw [writes_cons, ih fun w hw => h w (List.mem_cons_of_mem _ hw)]
    exact sregD_write _ _ _

theorem vOnly_mreg {ws : List RegW} (h : vOnly ws) (g : Group) (n : Nat) : (g.writes ws).mreg n = g.mreg n := by
  induction ws generalizing g with
  | nil => rfl
  | cons w ws ih =>
    obtain ⟨l, p, x, rfl⟩ := h _ List.mem_cons_self
    rw [writes_cons, ih fun w hw => h w (List.mem_cons_of_mem _ hw)]
    exact mreg_write _ _ _

/-- The registers of one lane. -/
theorem vget_laneWrites (g h : Group) (l dst : Nat) (xs : List W32) (n l' p' : Nat) (hp : p' < 256)
    (hb : g.vwb + dst + n + xs.length ≤ 256) : (h.writes (laneWrites g l dst xs n)).vget l' p' =
      if l' = l ∧ g.vwb + dst + n ≤ p' ∧ p' < g.vwb + dst + n + xs.length then xs.getD (p' - (g.vwb + dst + n)) 0
      else h.vget l' p' := by
  induction xs generalizing n h with
  | nil => rw [if_neg (by simp only [List.length_nil]; omega)]; rfl
  | cons x xs ih =>
    simp only [List.length_cons] at hb
    rw [laneWrites, writes_cons, ih _ _ (by omega), vget_write]
    dsimp only [List.length_cons]
    by_cases hl : l' = l
    · subst hl
      by_cases h1 : g.vwb + dst + (n + 1) ≤ p' ∧ p' < g.vwb + dst + (n + 1) + xs.length
      · rw [if_pos ⟨rfl, h1⟩, if_pos (by omega)]
        obtain ⟨j, hj⟩ : ∃ j, p' - (g.vwb + dst + n) = j + 1 := ⟨p' - (g.vwb + dst + n) - 1, by omega⟩
        rw [hj, show p' - (g.vwb + dst + (n + 1)) = j by omega, List.getD_cons_succ]
      · rw [if_neg (by omega)]
        by_cases h2 : p' = g.vwb + dst + n
        · subst h2
          rw [if_pos rfl, if_pos (by omega), Nat.sub_self, List.getD_cons_zero]
        · rw [if_neg (by omega), if_neg (by omega)]
    · rw [if_neg (by omega), if_neg (by omega), if_neg (by omega)]

/-- The registers of a list of lanes. -/
theorem vget_flatMap (g h : Group) (dst count : Nat) (ls : List Nat) (vals : Nat → List W32)
    (hc : ∀ l ∈ ls, (vals l).length = count) (l' p' : Nat) (hp : p' < 256) (hb : g.vwb + dst + count ≤ 256) :
    (h.writes (ls.flatMap fun l => laneWrites g l dst (vals l) 0)).vget l' p' =
      if l' ∈ ls ∧ g.vwb + dst ≤ p' ∧ p' < g.vwb + dst + count then (vals l').getD (p' - (g.vwb + dst)) 0
      else h.vget l' p' := by
  induction ls generalizing h with
  | nil => simp [Group.writes]
  | cons l ls ih =>
    rw [List.flatMap_cons, writes_append, ih _ (fun l hl => hc l (List.mem_cons_of_mem _ hl)),
      vget_laneWrites _ _ _ _ _ _ _ _ hp (by rw [hc l List.mem_cons_self]; omega), hc l List.mem_cons_self]
    simp only [Nat.add_zero, List.mem_cons]
    by_cases h1 : l' ∈ ls ∧ g.vwb + dst ≤ p' ∧ p' < g.vwb + dst + count
    · rw [if_pos h1, if_pos ⟨.inr h1.1, h1.2⟩]
    · rw [if_neg h1]
      by_cases h2 : l' = l ∧ g.vwb + dst ≤ p' ∧ p' < g.vwb + dst + count
      · obtain ⟨rfl, h2⟩ := h2
        rw [if_pos ⟨rfl, h2⟩, if_pos ⟨.inl rfl, h2⟩]
      · rw [if_neg h2, if_neg]
        rintro ⟨rfl | h3, h4⟩
        · exact h2 ⟨rfl, h4⟩
        · exact h1 ⟨h3, h4⟩

theorem mem_lanesOf (w : Nat) (m : W64) (l : Nat) : l ∈ lanesOf w m ↔ l < w ∧ m.getLsbD l = true := by
  simp [lanesOf]

/-- The registers that writes of lane results and zeros leave (R132). -/
theorem lanesAre_of_writes (ix : IX) (hx : ix.act = ix.x.g.active ix.mask) (d count : Nat)
    (hb : ix.x.g.vwb + d + count ≤ 256) (vals : Nat → List W32) (hc : ∀ l ∈ ix.lanes, (vals l).length = count)
    (h : Group)
    (hv : h.v = (ix.x.g.writes ((ix.lanes.flatMap fun l => laneWrites ix.x.g l d (vals l) 0) ++ zeroWrites ix d count)).v)
    (hs : h.sreg = (ix.x.g.writes ((ix.lanes.flatMap fun l => laneWrites ix.x.g l d (vals l) 0) ++ zeroWrites ix d count)).sreg)
    (hm : h.m = (ix.x.g.writes ((ix.lanes.flatMap fun l => laneWrites ix.x.g l d (vals l) 0) ++ zeroWrites ix d count)).m) :
    LanesAre ix h d count fun l j => (vals l).getD j 0 := by
  have hz : vOnly (zeroWrites ix d count) := by
    unfold zeroWrites
    split
    · exact vOnly_flatMap _ _ _ fun _ => List.replicate count 0
    · intro w hw; cases hw
  have ho := vOnly_append (vOnly_flatMap ix.x.g d ix.lanes vals) hz
  refine ⟨fun l p hp => ?_, fun n => ?_, fun n => ?_⟩
  · have h1 : h.vget l p = (ix.x.g.writes ((ix.lanes.flatMap fun l => laneWrites ix.x.g l d (vals l) 0) ++ zeroWrites ix d count)).vget l p := by
      unfold Group.vget; rw [hv]
    rw [h1, writes_append]
    have h2 := vget_flatMap ix.x.g ix.x.g d count ix.lanes vals hc l p hp hb
    have hlane : l ∈ ix.lanes ↔ l < ix.x.g.w ∧ ix.act.getLsbD l = true := mem_lanesOf _ _ _
    have hact : ix.act.getLsbD l = true → ix.x.g.live.getLsbD l = true := by
      rw [hx]; unfold Group.active; simp [BitVec.getLsbD_and]
    unfold zeroWrites
    by_cases hmz : ix.mz = true
    · rw [if_pos hmz, vget_flatMap ix.x.g _ d count ix.idle (fun _ => List.replicate count 0) (by simp) l p hp hb, h2]
      have hidle : l ∈ ix.idle ↔ l < ix.x.g.w ∧ (ix.x.g.live.getLsbD l = true ∧ ix.act.getLsbD l = false) := by
        unfold IX.idle
        rw [mem_lanesOf]
        constructor
        · rintro ⟨h3, h4⟩
          rw [BitVec.getLsbD_and, BitVec.getLsbD_not] at h4
          simp only [Bool.and_eq_true, Bool.not_eq_eq_eq_not, Bool.not_true] at h4
          exact ⟨h3, h4.1, h4.2.2⟩
        · rintro ⟨h3, h4, h5⟩
          rw [BitVec.getLsbD_and, BitVec.getLsbD_not, h4, h5]
          have := BitVec.lt_of_getLsbD h4
          simp [h3, this]
      by_cases hr : ix.x.g.vwb + d ≤ p ∧ p < ix.x.g.vwb + d + count
      · simp only [hlane, hidle, hr, and_true, hmz, true_and]
        by_cases hw : l < ix.x.g.w <;> by_cases ha : ix.act.getLsbD l = true <;> by_cases hlv : ix.x.g.live.getLsbD l = true <;>
          simp_all [List.getElem?_replicate]
        all_goals split <;> (try rfl) <;> split <;> rfl
      · rw [if_neg fun h => hr h.2, if_neg fun h => hr h.2, if_neg fun h => hr h.2]
    · rw [if_neg hmz]
      show ((ix.x.g.writes _).writes []).vget l p = _
      rw [show ∀ g : Group, g.writes [] = g from fun _ => rfl, h2]
      simp only [hlane, hmz]
      by_cases hw : l < ix.x.g.w <;> by_cases ha : ix.act.getLsbD l = true <;> simp_all
  · have : h.sregD n = (ix.x.g.writes ((ix.lanes.flatMap fun l => laneWrites ix.x.g l d (vals l) 0) ++ zeroWrites ix d count)).sregD n := by
      unfold Group.sregD; rw [hs]
    rw [this]; exact vOnly_sreg ho _ _
  · have : h.mreg n = (ix.x.g.writes ((ix.lanes.flatMap fun l => laneWrites ix.x.g l d (vals l) 0) ++ zeroWrites ix d count)).mreg n := by
      unfold Group.mreg; rw [hm]
    rw [this]; exact vOnly_mreg ho _ _

/-! ### The bound that the checks leave (R15) -/

theorem firstTrap_none {os : List (Option Trap)} (h : firstTrap os = none) : ∀ o ∈ os, o = none := by
  induction os with
  | nil => intro o ho; cases ho
  | cons o os ih =>
    cases o with
    | none =>
      intro p hp
      rcases List.mem_cons.mp hp with rfl | hp
      · rfl
      · exact ih h p hp
    | some t => cases h

/-- The fourth operand of an instruction that issues. -/
def d4At (s : State) (i : Instr) : Option Nat :=
  s.iss.pfx.bind fun q => if (pfxRule i).d4 then some q.d4.toNat else none

/-- Every lane register that an issuing instruction names lies in its allocation, and in the 256 registers of a lane. -/
theorem issues_bound {s : State} {k : Nat} {x : GCtx} {i : Instr} (h : Issues s k x i) {n : Nat}
    (hn : n ∈ (useOf i (d4At s i)).v) : x.g.vwb + n < x.g.alloc ∧ x.g.vwb + n < 256 := by
  have hc := h.clear
  unfold issueTrap at hc
  have hb : boundTrap x.g (useOf i (d4At s i)).v = none := by
    refine firstTrap_none (Option.map_eq_none_iff.mp hc) _ ?_
    simp only [List.mem_cons]
    exact .inr (.inr (.inr (.inr (.inr (.inr (.inl rfl))))))
  unfold boundTrap at hb
  have := List.find?_eq_none.mp (Option.map_eq_none_iff.mp hb) n hn
  simp only [Group.outOfBound, decide_eq_true_eq] at this
  omega

theorem issues_bound_regs {s : State} {k : Nat} {x : GCtx} {i : Instr} (h : Issues s k x i) {a : VReg} {c : Nat}
    (hpos : 0 < c) (hn : ∀ n ∈ regs a c, n ∈ (useOf i (d4At s i)).v) : x.g.vwb + a.toNat + c ≤ 256 := by
  have h1 : a.toNat + (c - 1) ∈ regs a c := List.mem_map.mpr ⟨c - 1, by simp; omega, rfl⟩
  have := issues_bound h (hn _ h1)
  omega

/-! ### The shared forms of a lane instruction -/

/-- What `laneOp` does: R132 for its results, and nothing beyond the issue. -/
theorem laneOp_lands {s : State} {k : Nat} {x : GCtx} {i : Instr} (h : Issues s k x i) (a : VReg) (count : Nat)
    (f : IX → Nat → LaneRes) (hb : x.g.vwb + a.toNat + count ≤ 256)
    (hc : ∀ l, (f (IX.of s x) l).vals.length = count) : ∃ t g', laneOp s i a count f = .next t ∧
      Issued s t k x.g g' s.nextPc ((IX.of s x).lanes.foldl (fun b l => b ||| (f (IX.of s x) l).flags) 0) ∧
      g'.gen = x.g.gen ∧
      LanesAre (IX.of s x) (g'.settled x.g) a.toNat count fun l j => (f (IX.of s x) l).vals.getD j 0 := by
  unfold laneOp groupOp
  rw [withGroup_issues h]
  obtain ⟨g', hi, hg, hv, hs, hm⟩ :=
    commit_issued s (IX.of s x) i (laneEff (IX.of s x) a.toNat count (f (IX.of s x))) s.nextPc
  rw [ixOf_x, gctx_k h.ctx] at hi
  refine ⟨_, g', rfl, ?_, hg, ?_⟩
  · simpa only [laneEff, List.foldl_map] using hi
  · have he : (laneEff (IX.of s x) a.toNat count (f (IX.of s x))).writes =
        ((IX.of s x).lanes.flatMap fun l => laneWrites x.g l a.toNat (f (IX.of s x) l).vals 0) ++
          zeroWrites (IX.of s x) a.toNat count := by
      simp only [laneEff, List.flatMap_map, ixOf_x]
    rw [he] at hv hs hm
    exact lanesAre_of_writes (IX.of s x) (ixOf_act s x) a.toNat count hb _ (fun l _ => hc l) _ hv hs hm

/-- What `roundOp` does: the same, with new generator states under SR. -/
theorem roundOp_lands {s : State} {k : Nat} {x : GCtx} {i : Instr} (h : Issues s k x i) (a : VReg) (count draws : Nat)
    (dflt : Rnd) (f : IX → Rnd → Nat → LaneRes) (hb : x.g.vwb + a.toNat + count ≤ 256)
    (hc : ∀ l, (f (IX.of s x) ((IX.of s x).mode dflt) l).vals.length = count) :
    ∃ t g', roundOp s i a count draws dflt f = .next t ∧
      Issued s t k x.g g' s.nextPc
        ((IX.of s x).lanes.foldl (fun b l => b ||| (f (IX.of s x) ((IX.of s x).mode dflt) l).flags) 0) ∧
      g'.gen = ((IX.of s x).gens ((IX.of s x).mode dflt) draws).foldl (fun (t : Tab W32) (p : Nat × W32) => t.set p.1 p.2) x.g.gen ∧
      LanesAre (IX.of s x) (g'.settled x.g) a.toNat count
        fun l j => (f (IX.of s x) ((IX.of s x).mode dflt) l).vals.getD j 0 := by
  unfold roundOp groupOp
  rw [withGroup_issues h]
  obtain ⟨g', hi, hg, hv, hs, hm⟩ :=
    commit_issued s (IX.of s x) i
      { laneEff (IX.of s x) a.toNat count (f (IX.of s x) ((IX.of s x).mode dflt)) with
        gens := (IX.of s x).gens ((IX.of s x).mode dflt) draws } s.nextPc
  rw [ixOf_x, gctx_k h.ctx] at hi
  refine ⟨_, g', rfl, ?_, hg, ?_⟩
  · simpa only [laneEff, List.foldl_map] using hi
  · have he : (laneEff (IX.of s x) a.toNat count (f (IX.of s x) ((IX.of s x).mode dflt))).writes =
        ((IX.of s x).lanes.flatMap fun l => laneWrites x.g l a.toNat (f (IX.of s x) ((IX.of s x).mode dflt) l).vals 0) ++
          zeroWrites (IX.of s x) a.toNat count := by
      simp only [laneEff, List.flatMap_map, ixOf_x]
    simp only at hv hs hm
    rw [he] at hv hs hm
    exact lanesAre_of_writes (IX.of s x) (ixOf_act s x) a.toNat count hb _ (fun l _ => hc l) _ hv hs hm

/-- An issue whose one result is a scalar register. -/
theorem commit_scalar (s : State) (ix : IX) (i : Instr) (n : Nat) (v : W64) (fl : Nat) (pc : W64) :
    ∃ g', Issued s (commit s ix i ⟨[.s n v], fl, []⟩ pc) ix.x.k ix.x.g g' pc fl ∧ g'.gen = ix.x.g.gen ∧
      ScalarIs ix.x.g (g'.settled ix.x.g) n v := by
  obtain ⟨g', hi, hg, hv, hs, hm⟩ := commit_issued s ix i ⟨[.s n v], fl, []⟩ pc
  refine ⟨g', hi, hg, fun m => ?_, fun l p => ?_, fun m => ?_⟩
  · unfold Group.sregD; rw [hs]; exact sregD_write ix.x.g (.s n v) m
  · unfold Group.vget; rw [hv]; exact vget_write ix.x.g (.s n v) l p
  · unfold Group.mreg; rw [hm]; exact mreg_write ix.x.g (.s n v) m

/-- An issue whose one result is a mask register. -/
theorem commit_mask (s : State) (ix : IX) (i : Instr) (n : Nat) (v : W64) (fl : Nat) (pc : W64) :
    ∃ g', Issued s (commit s ix i ⟨[.m n v], fl, []⟩ pc) ix.x.k ix.x.g g' pc fl ∧ g'.gen = ix.x.g.gen ∧
      MaskIs ix.x.g (g'.settled ix.x.g) n v := by
  obtain ⟨g', hi, hg, hv, hs, hm⟩ := commit_issued s ix i ⟨[.m n v], fl, []⟩ pc
  refine ⟨g', hi, hg, fun m => ?_, fun l p => ?_, fun m => ?_⟩
  · unfold Group.mreg; rw [hm]; exact mreg_write ix.x.g (.m n v) m
  · unfold Group.vget; rw [hv]; exact vget_write ix.x.g (.m n v) l p
  · unfold Group.sregD; rw [hs]; exact sregD_write ix.x.g (.m n v) m

/-- An issue without register results. -/
theorem commit_none (s : State) (ix : IX) (i : Instr) (fl : Nat) (pc : W64) :
    ∃ g', Issued s (commit s ix i ⟨[], fl, []⟩ pc) ix.x.k ix.x.g g' pc fl ∧ g'.gen = ix.x.g.gen ∧
      RegsSame ix.x.g (g'.settled ix.x.g) := by
  obtain ⟨g', hi, hg, hv, hs, hm⟩ := commit_issued s ix i ⟨[], fl, []⟩ pc
  refine ⟨g', hi, hg, fun l p => ?_, fun m => ?_, fun m => ?_⟩
  · unfold Group.vget; rw [hv]; rfl
  · unfold Group.sregD; rw [hs]; rfl
  · unfold Group.mreg; rw [hm]; rfl

end Sys2Proof.Laws
end

