-- ==== Sys2Proof/Laws/Memory.lean ====
section
/-! SUPPORT. Laws of byte memory: read after write, and the canonical form that every write keeps. -/

namespace Sys2Proof.Laws

open Sys2Proof Sys2Proof.Machine

theorem memory_wf_iff (m : Memory) : Memory.wf m = true ↔ Tab.wf m = true ∧ ∀ c ∈ m, c.2 ≠ memDefault := by
  simp [Memory.wf, List.all_eq_true]

theorem mem_erase_subset {α : Type} {t : Tab α} {n : Nat} {c : Nat × α} (h : c ∈ t.erase n) : c ∈ t := by
  induction t with
  | nil => exact h
  | cons p t ih =>
    obtain ⟨k, v⟩ := p
    unfold Tab.erase at h
    split at h
    · exact List.mem_cons_of_mem _ (ih h)
    · cases h with
      | head => exact List.mem_cons_self
      | tail _ h => exact List.mem_cons_of_mem _ (ih h)

theorem mem_set_cases {α : Type} {t : Tab α} {n : Nat} {x : α} {c : Nat × α} (h : c ∈ t.set n x) : c = (n, x) ∨ c ∈ t := by
  induction t with
  | nil => exact .inl (List.mem_singleton.mp h)
  | cons p t ih =>
    obtain ⟨k, v⟩ := p
    unfold Tab.set at h
    split at h
    · exact List.mem_cons.mp h
    · split at h
      · exact (List.mem_cons.mp h).imp_right (List.mem_cons_of_mem _)
      · rcases List.mem_cons.mp h with h | h
        · exact .inr (h ▸ List.mem_cons_self)
        · exact (ih h).imp_right (List.mem_cons_of_mem _)

/-- Storing a byte keeps the canonical form. -/
theorem memSet_wf {m : Memory} (h : Memory.wf m = true) (a : Nat) (b : Byte) : Memory.wf (memSet m a b) = true := by
  rw [memory_wf_iff] at h ⊢
  refine ⟨wf_put h.1 _ _ _, fun c hc => ?_⟩
  unfold memSet Tab.put at hc
  split at hc
  · exact h.2 c (mem_erase_subset hc)
  · next hb =>
    rcases mem_set_cases hc with rfl | hc
    · exact hb
    · exact h.2 c hc

theorem memWrite_wf {m : Memory} (h : Memory.wf m = true) (a : Nat) (bs : List Byte) : Memory.wf (memWrite m a bs) = true := by
  induction bs generalizing m a with
  | nil => exact h
  | cons b bs ih => exact ih (memSet_wf h a b) (a + 1)

theorem memMerge_wf {m : Memory} (h : Memory.wf m = true) (bs : Tab Byte) : Memory.wf (memMerge m bs) = true := by
  unfold memMerge
  induction bs generalizing m with
  | nil => exact h
  | cons p bs ih => exact ih (memSet_wf h p.1 p.2)

theorem filter_wf {m : Memory} (h : Memory.wf m = true) (p : Host.Cell → Bool) : Memory.wf (m.filter p) = true := by
  rw [memory_wf_iff] at h ⊢
  exact ⟨wfFrom_filter h.1 p, fun c hc => h.2 c (List.mem_filter.mp hc).1⟩

@[simp] theorem memGet_memSet_self (m : Memory) (a : Nat) (b : Byte) : memGet (memSet m a b) a = b :=
  getD_put_self _ _ _ _

theorem memGet_memSet_ne {a x : Nat} (hx : x ≠ a) (m : Memory) (b : Byte) : memGet (memSet m a b) x = memGet m x :=
  getD_put_ne hx m _ _

/-- A byte outside the bytes written reads as before. -/
theorem memGet_memWrite_outside {a x : Nat} (bs : List Byte) (m : Memory) (h : x < a ∨ a + bs.length ≤ x) :
    memGet (memWrite m a bs) x = memGet m x := by
  induction bs generalizing m a with
  | nil => rfl
  | cons b bs ih =>
    simp only [List.length_cons] at h
    show memGet (memWrite (memSet m a b) (a + 1) bs) x = memGet m x
    rw [ih (a := a + 1) _ (by omega), memGet_memSet_ne (by omega)]

/-- A byte written reads as it was written. -/
theorem memGet_memWrite_inside (m : Memory) (a : Nat) (bs : List Byte) (i : Nat)
    (hi : i < bs.length) : memGet (memWrite m a bs) (a + i) = bs[i] := by
  induction bs generalizing m a i with
  | nil => cases hi
  | cons b bs ih =>
    show memGet (memWrite (memSet m a b) (a + 1) bs) (a + i) = _
    cases i with
    | zero =>
      rw [memGet_memWrite_outside bs _ (by omega)]
      exact memGet_memSet_self _ a b
    | succ i =>
      have := ih (memSet m a b) (a + 1) i (by simpa using hi)
      rw [show a + (i + 1) = a + 1 + i by omega, this]
      rfl

theorem reset_mem_wf : Memory.wf State.reset.mem = true := rfl

end Sys2Proof.Laws
end

