-- ==== Sys2Proof/Laws/PerInstr.lean ====
section
/-! SUPPORT. The decoder reads every well-formed instruction back from its word: the family EncodeDecode, one lemma for
each constructor of Instr. An event has no word and is never well formed. -/

namespace Sys2Proof

def Laws.EncodeDecode.Statement (i : Instr) : Prop := i.wf = true → decode (encode i) = .instr i

/-! ### Fields of a word -/

theorem opOf_mkWord (op : Nat) (a b c : BitVec 7) (h : op < 2048) : opOf (mkWord op a b c) = op := by
  have : (mkWord op a b c).extractLsb' 21 11 = BitVec.ofNat 11 op := by
    apply BitVec.eq_of_getLsbD_eq
    intro i hi
    rw [mkWord, BitVec.getLsbD_extractLsb', BitVec.getLsbD_append, if_neg (by omega)]
    simp only [hi, decide_true, Bool.true_and, show 21 + i - (7 + (7 + 7)) = i by omega]
  rw [opOf, this, BitVec.toNat_ofNat]
  omega

theorem fieldA_mkWord (op : Nat) (a b c : BitVec 7) : fieldA (mkWord op a b c) = a := by
  apply BitVec.eq_of_getLsbD_eq
  intro i hi
  rw [fieldA, mkWord, BitVec.getLsbD_extractLsb', BitVec.getLsbD_append, BitVec.getLsbD_append,
    if_pos (by omega), if_neg (by omega)]
  simp only [hi, decide_true, Bool.true_and, show 14 + i - (7 + 7) = i by omega]

theorem fieldB_mkWord (op : Nat) (a b c : BitVec 7) : fieldB (mkWord op a b c) = b := by
  apply BitVec.eq_of_getLsbD_eq
  intro i hi
  rw [fieldB, mkWord, BitVec.getLsbD_extractLsb', BitVec.getLsbD_append, BitVec.getLsbD_append, BitVec.getLsbD_append,
    if_pos (by omega), if_pos (by omega), if_neg (by omega)]
  simp only [hi, decide_true, Bool.true_and, show 7 + i - 7 = i by omega]

theorem fieldC_mkWord (op : Nat) (a b c : BitVec 7) : fieldC (mkWord op a b c) = c := by
  apply BitVec.eq_of_getLsbD_eq
  intro i hi
  rw [fieldC, mkWord, BitVec.getLsbD_extractLsb', BitVec.getLsbD_append, BitVec.getLsbD_append, BitVec.getLsbD_append,
    if_pos (by omega), if_pos (by omega), if_pos (by omega)]
  simp only [hi, decide_true, Bool.true_and, show 0 + i = i by omega]

/-- An instruction whose encoding is an assigned word that the decoder's reading gives back. -/
theorem decode_of_raw {i : Instr}
    (h : i.wf = true → ∃ op a b c j, encode i = mkWord op a b c ∧ (decide (0 < op) && decide (op < 0x7FE)) = true ∧
      rawOp op a b c = some j ∧ j = i) : Laws.EncodeDecode.Statement i := by
  intro hw
  obtain ⟨op, a, b, c, j, he, ho, hr, hj⟩ := h hw
  subst hj
  simp only [Bool.and_eq_true, decide_eq_true_eq] at ho
  have hop : opOf (encode j) = op := by rw [he, opOf_mkWord op a b c (by omega)]
  have hraw : raw (encode j) = some j := by
    rw [raw, hop, he, fieldA_mkWord, fieldB_mkWord, fieldC_mkWord, hr]
  have h0 : encode j ≠ 0 := fun h => by
    rw [h] at hop
    exact absurd (hop.symm.trans (by decide : opOf 0 = 0)) (by omega)
  simp only [decode, h0, hop, show ¬ op = 0x7FE by omega, show ¬ op = 0x7FF by omega, hraw, hw, if_false, beq_self_eq_true,
    Bool.and_self, if_true]

/-! ### Fields of operands -/

@[simp] theorem sregOf_field (r : SReg) : sregOf r.field = r := by
  cases r with
  | s n => revert n; decide
  | k n => revert n; decide
  | g n => revert n; decide

@[simp] theorem ldoffOf_field (r : LdOff) : ldoffOf r.field = r := by
  cases r with
  | imm n => revert n; decide
  | reg n => revert n; decide

@[simp] theorem mregOf_zeroExtend (m : BitVec 4) : mregOf (m.zeroExtend 7) = m := by revert m; decide
@[simp] theorem hregOf_zeroExtend (m : BitVec 3) : hregOf (m.zeroExtend 7) = m := by revert m; decide
@[simp] theorem sidxOf_zeroExtend (m : BitVec 6) : sidxOf (m.zeroExtend 7) = m := by revert m; decide
@[simp] theorem low3_zeroExtend (m : BitVec 3) : (m.zeroExtend 7).extractLsb' 0 3 = m := by revert m; decide
@[simp] theorem low4_zeroExtend (m : BitVec 4) : (m.zeroExtend 7).extractLsb' 0 4 = m := by revert m; decide
@[simp] theorem low6_zeroExtend (m : BitVec 6) : (m.zeroExtend 7).extractLsb' 0 6 = m := by revert m; decide
@[simp] theorem bit_getLsbD (b : Bool) : (f7 (bit b)).getLsbD 0 = b := by revert b; decide
@[simp] theorem bit_getElem (b : Bool) : (f7 (bit b))[0] = b := by revert b; decide
@[simp] theorem mscopeD_code (s : MScope) : mscopeD ((f7 s.code).toNat % 8) = s := by cases s <;> rfl
@[simp] theorem mscopeD_code2 (r : Ord) (s : MScope) : mscopeD ((f7 (r.code * 8 + s.code)).toNat % 8) = s := by
  cases r <;> cases s <;> rfl
@[simp] theorem ordD_code (r : Ord) (s : MScope) : ordD ((f7 (r.code * 8 + s.code)).toNat / 8 % 4) = r := by
  cases r <;> cases s <;> rfl
@[simp] theorem packD_code (k : PackFmt) : packD (f7 k.code).toNat = k := by cases k <;> rfl
@[simp] theorem imm14_halves (d : BitVec 14) : imm14 (immHi d) (immLo d) = d := by
  apply BitVec.eq_of_getLsbD_eq
  intro i hi
  rw [imm14, BitVec.getLsbD_append]
  split
  · simp only [immLo, BitVec.getLsbD_extractLsb', *, decide_true, Bool.true_and, Nat.zero_add]
  · simp only [immHi, BitVec.getLsbD_extractLsb', show i - 7 < 7 by omega, decide_true, Bool.true_and,
      show 7 + (i - 7) = i by omega]

theorem brm_field (all not : Bool) (m : MReg) :
    (f7 (bit not * 32 + bit all * 16 + m.toNat)).getLsbD 4 = all ∧
    (f7 (bit not * 32 + bit all * 16 + m.toNat)).getLsbD 5 = not ∧
    mregOf (f7 (bit not * 32 + bit all * 16 + m.toNat)) = m := by
  revert all not m
  decide

theorem two_halves (m n : BitVec 3) :
    (f7 (m.toNat * 8 + n.toNat)).extractLsb' 3 3 = m ∧ (f7 (m.toNat * 8 + n.toNat)).extractLsb' 0 3 = n := by
  revert m n
  decide

theorem cvt_field (dst src : CvtTy) (h : (dst.isInt && src.isInt) = false) :
    cvtTyOf ((cvtField dst src).toNat / 2 % 8) ((cvtField dst src).getLsbD 0) = dst ∧
    cvtTyOf ((cvtField dst src).toNat / 16) ((cvtField dst src).getLsbD 0) = src := by
  cases dst <;> cases src <;> first | (exact ⟨rfl, rfl⟩) | cases h

/-! ### One lemma for each constructor -/

theorem Laws.EncodeDecode.nop (sc : Lvl) : Laws.EncodeDecode.Statement (.nop sc) := by
  refine decode_of_raw fun h => ?_
  cases sc <;>
    first
    | (exact absurd h Bool.false_ne_true)
    | (refine ⟨_, _, _, _, _, rfl, rfl, rfl, ?_⟩
       first | rfl | (simp; done) | (simp <;> decide))
theorem Laws.EncodeDecode.brZ (sc : Lvl) (a : SReg) (d : BitVec 14) : Laws.EncodeDecode.Statement (.brZ sc a d) := by
  refine decode_of_raw fun h => ?_
  cases sc <;>
    first
    | (exact absurd h Bool.false_ne_true)
    | (refine ⟨_, _, _, _, _, rfl, rfl, rfl, ?_⟩
       first | rfl | (simp; done) | (simp <;> decide))
theorem Laws.EncodeDecode.brNz (sc : Lvl) (a : SReg) (d : BitVec 14) : Laws.EncodeDecode.Statement (.brNz sc a d) := by
  refine decode_of_raw fun h => ?_
  cases sc <;>
    first
    | (exact absurd h Bool.false_ne_true)
    | (refine ⟨_, _, _, _, _, rfl, rfl, rfl, ?_⟩
       first | rfl | (simp; done) | (simp <;> decide))
theorem Laws.EncodeDecode.brm (sc : Lvl) (all not : Bool) (m : MReg) (d : BitVec 14) :
    Laws.EncodeDecode.Statement (.brm sc all not m d) := by
  refine decode_of_raw fun h => ?_
  cases sc <;>
    first
    | (exact absurd h Bool.false_ne_true)
    | (refine ⟨_, _, _, _, _, rfl, rfl, rfl, ?_⟩
       rw [(brm_field all not m).1, (brm_field all not m).2.1, (brm_field all not m).2.2,
         imm14_halves])
theorem Laws.EncodeDecode.jmp (sc : Lvl) (d : BitVec 14) : Laws.EncodeDecode.Statement (.jmp sc d) := by
  refine decode_of_raw fun h => ?_
  cases sc <;>
    first
    | (exact absurd h Bool.false_ne_true)
    | (refine ⟨_, _, _, _, _, rfl, rfl, rfl, ?_⟩
       first | rfl | (simp; done) | (simp <;> decide))
theorem Laws.EncodeDecode.jmpr (sc : Lvl) (b : SReg) : Laws.EncodeDecode.Statement (.jmpr sc b) := by
  refine decode_of_raw fun h => ?_
  cases sc <;>
    first
    | (exact absurd h Bool.false_ne_true)
    | (refine ⟨_, _, _, _, _, rfl, rfl, rfl, ?_⟩
       first | rfl | (simp; done) | (simp <;> decide))
theorem Laws.EncodeDecode.call (sc : Lvl) (d : BitVec 14) : Laws.EncodeDecode.Statement (.call sc d) := by
  refine decode_of_raw fun h => ?_
  cases sc <;>
    first
    | (exact absurd h Bool.false_ne_true)
    | (refine ⟨_, _, _, _, _, rfl, rfl, rfl, ?_⟩
       first | rfl | (simp; done) | (simp <;> decide))
theorem Laws.EncodeDecode.callr (sc : Lvl) (b : SReg) : Laws.EncodeDecode.Statement (.callr sc b) := by
  refine decode_of_raw fun h => ?_
  cases sc <;>
    first
    | (exact absurd h Bool.false_ne_true)
    | (refine ⟨_, _, _, _, _, rfl, rfl, rfl, ?_⟩
       first | rfl | (simp; done) | (simp <;> decide))
theorem Laws.EncodeDecode.ret (sc : Lvl) : Laws.EncodeDecode.Statement (.ret sc) := by
  refine decode_of_raw fun h => ?_
  cases sc <;>
    first
    | (exact absurd h Bool.false_ne_true)
    | (refine ⟨_, _, _, _, _, rfl, rfl, rfl, ?_⟩
       first | rfl | (simp; done) | (simp <;> decide))
theorem Laws.EncodeDecode.loop (sc : Lvl) (a : SReg) (d : BitVec 14) : Laws.EncodeDecode.Statement (.loop sc a d) := by
  refine decode_of_raw fun h => ?_
  cases sc <;>
    first
    | (exact absurd h Bool.false_ne_true)
    | (refine ⟨_, _, _, _, _, rfl, rfl, rfl, ?_⟩
       first | rfl | (simp; done) | (simp <;> decide))
theorem Laws.EncodeDecode.next (sc : Lvl) : Laws.EncodeDecode.Statement (.next sc) := by
  refine decode_of_raw fun h => ?_
  cases sc <;>
    first
    | (exact absurd h Bool.false_ne_true)
    | (refine ⟨_, _, _, _, _, rfl, rfl, rfl, ?_⟩
       first | rfl | (simp; done) | (simp <;> decide))
theorem Laws.EncodeDecode.brk (sc : Lvl) (d : BitVec 14) : Laws.EncodeDecode.Statement (.brk sc d) := by
  refine decode_of_raw fun h => ?_
  cases sc <;>
    first
    | (exact absurd h Bool.false_ne_true)
    | (refine ⟨_, _, _, _, _, rfl, rfl, rfl, ?_⟩
       first | rfl | (simp; done) | (simp <;> decide))
theorem Laws.EncodeDecode.skip (m : MReg) (d : BitVec 14) : Laws.EncodeDecode.Statement (.skip m d) := by
  exact decode_of_raw fun h => ⟨_, _, _, _, _, rfl, rfl, rfl, by simp⟩
theorem Laws.EncodeDecode.exit : Laws.EncodeDecode.Statement (.exit) := by
  exact decode_of_raw fun h => ⟨_, _, _, _, _, rfl, rfl, rfl, by simp⟩
theorem Laws.EncodeDecode.end_ (sc : Lvl) : Laws.EncodeDecode.Statement (.end_ sc) := by
  refine decode_of_raw fun h => ?_
  cases sc <;>
    first
    | (exact absurd h Bool.false_ne_true)
    | (refine ⟨_, _, _, _, _, rfl, rfl, rfl, ?_⟩
       first | rfl | (simp; done) | (simp <;> decide))
theorem Laws.EncodeDecode.revote (sc : Lvl) : Laws.EncodeDecode.Statement (.revote sc) := by
  refine decode_of_raw fun h => ?_
  cases sc <;>
    first
    | (exact absurd h Bool.false_ne_true)
    | (refine ⟨_, _, _, _, _, rfl, rfl, rfl, ?_⟩
       first | rfl | (simp; done) | (simp <;> decide))
theorem Laws.EncodeDecode.fret (sc : Lvl) : Laws.EncodeDecode.Statement (.fret sc) := by
  refine decode_of_raw fun h => ?_
  cases sc <;>
    first
    | (exact absurd h Bool.false_ne_true)
    | (refine ⟨_, _, _, _, _, rfl, rfl, rfl, ?_⟩
       first | rfl | (simp; done) | (simp <;> decide))
theorem Laws.EncodeDecode.win (i : BitVec 3) : Laws.EncodeDecode.Statement (.win i) := by
  exact decode_of_raw fun h => ⟨_, _, _, _, _, rfl, rfl, rfl, by simp⟩
theorem Laws.EncodeDecode.yield (sc : Lvl) : Laws.EncodeDecode.Statement (.yield sc) := by
  refine decode_of_raw fun h => ?_
  cases sc <;>
    first
    | (exact absurd h Bool.false_ne_true)
    | (refine ⟨_, _, _, _, _, rfl, rfl, rfl, ?_⟩
       first | rfl | (simp; done) | (simp <;> decide))
theorem Laws.EncodeDecode.trap (sc : Lvl) (c : BitVec 14) : Laws.EncodeDecode.Statement (.trap sc c) := by
  refine decode_of_raw fun h => ?_
  cases sc <;>
    first
    | (exact absurd h Bool.false_ne_true)
    | (refine ⟨_, _, _, _, _, rfl, rfl, rfl, ?_⟩
       first | rfl | (simp; done) | (simp <;> decide))
theorem Laws.EncodeDecode.sadd (a b : SReg) (c : SSrc) : Laws.EncodeDecode.Statement (.sadd a b c) := by
  refine decode_of_raw fun h => ?_
  cases c <;>
    first
    | (exact absurd h Bool.false_ne_true)
    | (dsimp only [encode, encScalar, encVector, encFloat, SSrc.form, SSrc.field, VSrc.vs, VSrc.field, Width.code,
        Cmp.code, FCond.code, ShflMode.code]
       refine ⟨_, _, _, _, _, rfl, rfl, rfl, ?_⟩
       first | rfl | (simp; done) | (simp <;> decide))
theorem Laws.EncodeDecode.ssub (a b : SReg) (c : SSrc) : Laws.EncodeDecode.Statement (.ssub a b c) := by
  refine decode_of_raw fun h => ?_
  cases c <;>
    first
    | (exact absurd h Bool.false_ne_true)
    | (dsimp only [encode, encScalar, encVector, encFloat, SSrc.form, SSrc.field, VSrc.vs, VSrc.field, Width.code,
        Cmp.code, FCond.code, ShflMode.code]
       refine ⟨_, _, _, _, _, rfl, rfl, rfl, ?_⟩
       first | rfl | (simp; done) | (simp <;> decide))
theorem Laws.EncodeDecode.smul (a b : SReg) (c : SSrc) : Laws.EncodeDecode.Statement (.smul a b c) := by
  refine decode_of_raw fun h => ?_
  cases c <;>
    first
    | (exact absurd h Bool.false_ne_true)
    | (dsimp only [encode, encScalar, encVector, encFloat, SSrc.form, SSrc.field, VSrc.vs, VSrc.field, Width.code,
        Cmp.code, FCond.code, ShflMode.code]
       refine ⟨_, _, _, _, _, rfl, rfl, rfl, ?_⟩
       first | rfl | (simp; done) | (simp <;> decide))
theorem Laws.EncodeDecode.smulhI64 (a b : SReg) (c : SSrc) : Laws.EncodeDecode.Statement (.smulhI64 a b c) := by
  refine decode_of_raw fun h => ?_
  cases c <;>
    first
    | (exact absurd h Bool.false_ne_true)
    | (dsimp only [encode, encScalar, encVector, encFloat, SSrc.form, SSrc.field, VSrc.vs, VSrc.field, Width.code,
        Cmp.code, FCond.code, ShflMode.code]
       refine ⟨_, _, _, _, _, rfl, rfl, rfl, ?_⟩
       first | rfl | (simp; done) | (simp <;> decide))
theorem Laws.EncodeDecode.smulhN64 (a b : SReg) (c : SSrc) : Laws.EncodeDecode.Statement (.smulhN64 a b c) := by
  refine decode_of_raw fun h => ?_
  cases c <;>
    first
    | (exact absurd h Bool.false_ne_true)
    | (dsimp only [encode, encScalar, encVector, encFloat, SSrc.form, SSrc.field, VSrc.vs, VSrc.field, Width.code,
        Cmp.code, FCond.code, ShflMode.code]
       refine ⟨_, _, _, _, _, rfl, rfl, rfl, ?_⟩
       first | rfl | (simp; done) | (simp <;> decide))
theorem Laws.EncodeDecode.sand (a b : SReg) (c : SSrc) : Laws.EncodeDecode.Statement (.sand a b c) := by
  refine decode_of_raw fun h => ?_
  cases c <;>
    first
    | (exact absurd h Bool.false_ne_true)
    | (dsimp only [encode, encScalar, encVector, encFloat, SSrc.form, SSrc.field, VSrc.vs, VSrc.field, Width.code,
        Cmp.code, FCond.code, ShflMode.code]
       refine ⟨_, _, _, _, _, rfl, rfl, rfl, ?_⟩
       first | rfl | (simp; done) | (simp <;> decide))
theorem Laws.EncodeDecode.sor (a b : SReg) (c : SSrc) : Laws.EncodeDecode.Statement (.sor a b c) := by
  refine decode_of_raw fun h => ?_
  cases c <;>
    first
    | (exact absurd h Bool.false_ne_true)
    | (dsimp only [encode, encScalar, encVector, encFloat, SSrc.form, SSrc.field, VSrc.vs, VSrc.field, Width.code,
        Cmp.code, FCond.code, ShflMode.code]
       refine ⟨_, _, _, _, _, rfl, rfl, rfl, ?_⟩
       first | rfl | (simp; done) | (simp <;> decide))
theorem Laws.EncodeDecode.sxor (a b : SReg) (c : SSrc) : Laws.EncodeDecode.Statement (.sxor a b c) := by
  refine decode_of_raw fun h => ?_
  cases c <;>
    first
    | (exact absurd h Bool.false_ne_true)
    | (dsimp only [encode, encScalar, encVector, encFloat, SSrc.form, SSrc.field, VSrc.vs, VSrc.field, Width.code,
        Cmp.code, FCond.code, ShflMode.code]
       refine ⟨_, _, _, _, _, rfl, rfl, rfl, ?_⟩
       first | rfl | (simp; done) | (simp <;> decide))
theorem Laws.EncodeDecode.sshl (a b : SReg) (c : SSrc) : Laws.EncodeDecode.Statement (.sshl a b c) := by
  refine decode_of_raw fun h => ?_
  cases c <;>
    first
    | (exact absurd h Bool.false_ne_true)
    | (dsimp only [encode, encScalar, encVector, encFloat, SSrc.form, SSrc.field, VSrc.vs, VSrc.field, Width.code,
        Cmp.code, FCond.code, ShflMode.code]
       refine ⟨_, _, _, _, _, rfl, rfl, rfl, ?_⟩
       first | rfl | (simp; done) | (simp <;> decide))
theorem Laws.EncodeDecode.sshr (a b : SReg) (c : SSrc) : Laws.EncodeDecode.Statement (.sshr a b c) := by
  refine decode_of_raw fun h => ?_
  cases c <;>
    first
    | (exact absurd h Bool.false_ne_true)
    | (dsimp only [encode, encScalar, encVector, encFloat, SSrc.form, SSrc.field, VSrc.vs, VSrc.field, Width.code,
        Cmp.code, FCond.code, ShflMode.code]
       refine ⟨_, _, _, _, _, rfl, rfl, rfl, ?_⟩
       first | rfl | (simp; done) | (simp <;> decide))
theorem Laws.EncodeDecode.ssar (a b : SReg) (c : SSrc) : Laws.EncodeDecode.Statement (.ssar a b c) := by
  refine decode_of_raw fun h => ?_
  cases c <;>
    first
    | (exact absurd h Bool.false_ne_true)
    | (dsimp only [encode, encScalar, encVector, encFloat, SSrc.form, SSrc.field, VSrc.vs, VSrc.field, Width.code,
        Cmp.code, FCond.code, ShflMode.code]
       refine ⟨_, _, _, _, _, rfl, rfl, rfl, ?_⟩
       first | rfl | (simp; done) | (simp <;> decide))
theorem Laws.EncodeDecode.sminI64 (a b : SReg) (c : SSrc) : Laws.EncodeDecode.Statement (.sminI64 a b c) := by
  refine decode_of_raw fun h => ?_
  cases c <;>
    first
    | (exact absurd h Bool.false_ne_true)
    | (dsimp only [encode, encScalar, encVector, encFloat, SSrc.form, SSrc.field, VSrc.vs, VSrc.field, Width.code,
        Cmp.code, FCond.code, ShflMode.code]
       refine ⟨_, _, _, _, _, rfl, rfl, rfl, ?_⟩
       first | rfl | (simp; done) | (simp <;> decide))
theorem Laws.EncodeDecode.sminN64 (a b : SReg) (c : SSrc) : Laws.EncodeDecode.Statement (.sminN64 a b c) := by
  refine decode_of_raw fun h => ?_
  cases c <;>
    first
    | (exact absurd h Bool.false_ne_true)
    | (dsimp only [encode, encScalar, encVector, encFloat, SSrc.form, SSrc.field, VSrc.vs, VSrc.field, Width.code,
        Cmp.code, FCond.code, ShflMode.code]
       refine ⟨_, _, _, _, _, rfl, rfl, rfl, ?_⟩
       first | rfl | (simp; done) | (simp <;> decide))
theorem Laws.EncodeDecode.smaxI64 (a b : SReg) (c : SSrc) : Laws.EncodeDecode.Statement (.smaxI64 a b c) := by
  refine decode_of_raw fun h => ?_
  cases c <;>
    first
    | (exact absurd h Bool.false_ne_true)
    | (dsimp only [encode, encScalar, encVector, encFloat, SSrc.form, SSrc.field, VSrc.vs, VSrc.field, Width.code,
        Cmp.code, FCond.code, ShflMode.code]
       refine ⟨_, _, _, _, _, rfl, rfl, rfl, ?_⟩
       first | rfl | (simp; done) | (simp <;> decide))
theorem Laws.EncodeDecode.smaxN64 (a b : SReg) (c : SSrc) : Laws.EncodeDecode.Statement (.smaxN64 a b c) := by
  refine decode_of_raw fun h => ?_
  cases c <;>
    first
    | (exact absurd h Bool.false_ne_true)
    | (dsimp only [encode, encScalar, encVector, encFloat, SSrc.form, SSrc.field, VSrc.vs, VSrc.field, Width.code,
        Cmp.code, FCond.code, ShflMode.code]
       refine ⟨_, _, _, _, _, rfl, rfl, rfl, ?_⟩
       first | rfl | (simp; done) | (simp <;> decide))
theorem Laws.EncodeDecode.scmpI64 (k : Cmp) (a b : SReg) (c : SSrc) : Laws.EncodeDecode.Statement (.scmpI64 k a b c) := by
  refine decode_of_raw fun h => ?_
  cases k <;> cases c <;>
    first
    | (exact absurd h Bool.false_ne_true)
    | (dsimp only [encode, encScalar, encVector, encFloat, SSrc.form, SSrc.field, VSrc.vs, VSrc.field, Width.code,
        Cmp.code, FCond.code, ShflMode.code]
       refine ⟨_, _, _, _, _, rfl, rfl, rfl, ?_⟩
       first | rfl | (simp; done) | (simp <;> decide))
theorem Laws.EncodeDecode.scmpN64 (k : Cmp) (a b : SReg) (c : SSrc) : Laws.EncodeDecode.Statement (.scmpN64 k a b c) := by
  refine decode_of_raw fun h => ?_
  cases k <;> cases c <;>
    first
    | (exact absurd h Bool.false_ne_true)
    | (dsimp only [encode, encScalar, encVector, encFloat, SSrc.form, SSrc.field, VSrc.vs, VSrc.field, Width.code,
        Cmp.code, FCond.code, ShflMode.code]
       refine ⟨_, _, _, _, _, rfl, rfl, rfl, ?_⟩
       first | rfl | (simp; done) | (simp <;> decide))
theorem Laws.EncodeDecode.ssel (a b c : SReg) : Laws.EncodeDecode.Statement (.ssel a b c) := by
  exact decode_of_raw fun h => ⟨_, _, _, _, _, rfl, rfl, rfl, by simp⟩
theorem Laws.EncodeDecode.smov (a : SReg) (b : SSrc) : Laws.EncodeDecode.Statement (.smov a b) := by
  refine decode_of_raw fun h => ?_
  cases b <;>
    first
    | (exact absurd h Bool.false_ne_true)
    | (dsimp only [encode, encScalar, encVector, encFloat, SSrc.form, SSrc.field, VSrc.vs, VSrc.field, Width.code,
        Cmp.code, FCond.code, ShflMode.code]
       refine ⟨_, _, _, _, _, rfl, rfl, rfl, ?_⟩
       first | rfl | (simp; done) | (simp <;> decide))
theorem Laws.EncodeDecode.smovi (a : SReg) (i : BitVec 14) : Laws.EncodeDecode.Statement (.smovi a i) := by
  exact decode_of_raw fun h => ⟨_, _, _, _, _, rfl, rfl, rfl, by simp⟩
theorem Laws.EncodeDecode.slui (a : SReg) (i : BitVec 14) : Laws.EncodeDecode.Statement (.slui a i) := by
  exact decode_of_raw fun h => ⟨_, _, _, _, _, rfl, rfl, rfl, by simp⟩
theorem Laws.EncodeDecode.saddi (a b : SReg) (i : BitVec 7) : Laws.EncodeDecode.Statement (.saddi a b i) := by
  exact decode_of_raw fun h => ⟨_, _, _, _, _, rfl, rfl, rfl, by simp⟩
theorem Laws.EncodeDecode.iadd (w : Width) (a b : VReg) (c : VSrc) : Laws.EncodeDecode.Statement (.iadd w a b c) := by
  refine decode_of_raw fun h => ?_
  cases w <;> cases c <;>
    first
    | (exact absurd h Bool.false_ne_true)
    | (dsimp only [encode, encScalar, encVector, encFloat, SSrc.form, SSrc.field, VSrc.vs, VSrc.field, Width.code,
        Cmp.code, FCond.code, ShflMode.code]
       refine ⟨_, _, _, _, _, rfl, rfl, rfl, ?_⟩
       first | rfl | (simp [vsrcOf]; done) | (simp [vsrcOf] <;> decide))
theorem Laws.EncodeDecode.isub (w : Width) (a b : VReg) (c : VSrc) : Laws.EncodeDecode.Statement (.isub w a b c) := by
  refine decode_of_raw fun h => ?_
  cases w <;> cases c <;>
    first
    | (exact absurd h Bool.false_ne_true)
    | (dsimp only [encode, encScalar, encVector, encFloat, SSrc.form, SSrc.field, VSrc.vs, VSrc.field, Width.code,
        Cmp.code, FCond.code, ShflMode.code]
       refine ⟨_, _, _, _, _, rfl, rfl, rfl, ?_⟩
       first | rfl | (simp [vsrcOf]; done) | (simp [vsrcOf] <;> decide))
theorem Laws.EncodeDecode.iaddsI (w : Width) (a b : VReg) (c : VSrc) : Laws.EncodeDecode.Statement (.iaddsI w a b c) := by
  refine decode_of_raw fun h => ?_
  cases w <;> cases c <;>
    first
    | (exact absurd h Bool.false_ne_true)
    | (dsimp only [encode, encScalar, encVector, encFloat, SSrc.form, SSrc.field, VSrc.vs, VSrc.field, Width.code,
        Cmp.code, FCond.code, ShflMode.code]
       refine ⟨_, _, _, _, _, rfl, rfl, rfl, ?_⟩
       first | rfl | (simp [vsrcOf]; done) | (simp [vsrcOf] <;> decide))
theorem Laws.EncodeDecode.iaddsN (w : Width) (a b : VReg) (c : VSrc) : Laws.EncodeDecode.Statement (.iaddsN w a b c) := by
  refine decode_of_raw fun h => ?_
  cases w <;> cases c <;>
    first
    | (exact absurd h Bool.false_ne_true)
    | (dsimp only [encode, encScalar, encVector, encFloat, SSrc.form, SSrc.field, VSrc.vs, VSrc.field, Width.code,
        Cmp.code, FCond.code, ShflMode.code]
       refine ⟨_, _, _, _, _, rfl, rfl, rfl, ?_⟩
       first | rfl | (simp [vsrcOf]; done) | (simp [vsrcOf] <;> decide))
theorem Laws.EncodeDecode.isubsI (w : Width) (a b : VReg) (c : VSrc) : Laws.EncodeDecode.Statement (.isubsI w a b c) := by
  refine decode_of_raw fun h => ?_
  cases w <;> cases c <;>
    first
    | (exact absurd h Bool.false_ne_true)
    | (dsimp only [encode, encScalar, encVector, encFloat, SSrc.form, SSrc.field, VSrc.vs, VSrc.field, Width.code,
        Cmp.code, FCond.code, ShflMode.code]
       refine ⟨_, _, _, _, _, rfl, rfl, rfl, ?_⟩
       first | rfl | (simp [vsrcOf]; done) | (simp [vsrcOf] <;> decide))
theorem Laws.EncodeDecode.isubsN (w : Width) (a b : VReg) (c : VSrc) : Laws.EncodeDecode.Statement (.isubsN w a b c) := by
  refine decode_of_raw fun h => ?_
  cases w <;> cases c <;>
    first
    | (exact absurd h Bool.false_ne_true)
    | (dsimp only [encode, encScalar, encVector, encFloat, SSrc.form, SSrc.field, VSrc.vs, VSrc.field, Width.code,
        Cmp.code, FCond.code, ShflMode.code]
       refine ⟨_, _, _, _, _, rfl, rfl, rfl, ?_⟩
       first | rfl | (simp [vsrcOf]; done) | (simp [vsrcOf] <;> decide))
theorem Laws.EncodeDecode.imul (w : Width) (a b : VReg) (c : VSrc) : Laws.EncodeDecode.Statement (.imul w a b c) := by
  refine decode_of_raw fun h => ?_
  cases w <;> cases c <;>
    first
    | (exact absurd h Bool.false_ne_true)
    | (dsimp only [encode, encScalar, encVector, encFloat, SSrc.form, SSrc.field, VSrc.vs, VSrc.field, Width.code,
        Cmp.code, FCond.code, ShflMode.code]
       refine ⟨_, _, _, _, _, rfl, rfl, rfl, ?_⟩
       first | rfl | (simp [vsrcOf]; done) | (simp [vsrcOf] <;> decide))
theorem Laws.EncodeDecode.imulhI (w : Width) (a b : VReg) (c : VSrc) : Laws.EncodeDecode.Statement (.imulhI w a b c) := by
  refine decode_of_raw fun h => ?_
  cases w <;> cases c <;>
    first
    | (exact absurd h Bool.false_ne_true)
    | (dsimp only [encode, encScalar, encVector, encFloat, SSrc.form, SSrc.field, VSrc.vs, VSrc.field, Width.code,
        Cmp.code, FCond.code, ShflMode.code]
       refine ⟨_, _, _, _, _, rfl, rfl, rfl, ?_⟩
       first | rfl | (simp [vsrcOf]; done) | (simp [vsrcOf] <;> decide))
theorem Laws.EncodeDecode.imulhN (w : Width) (a b : VReg) (c : VSrc) : Laws.EncodeDecode.Statement (.imulhN w a b c) := by
  refine decode_of_raw fun h => ?_
  cases w <;> cases c <;>
    first
    | (exact absurd h Bool.false_ne_true)
    | (dsimp only [encode, encScalar, encVector, encFloat, SSrc.form, SSrc.field, VSrc.vs, VSrc.field, Width.code,
        Cmp.code, FCond.code, ShflMode.code]
       refine ⟨_, _, _, _, _, rfl, rfl, rfl, ?_⟩
       first | rfl | (simp [vsrcOf]; done) | (simp [vsrcOf] <;> decide))
theorem Laws.EncodeDecode.imad (w : Width) (a b : VReg) (c : VSrc) : Laws.EncodeDecode.Statement (.imad w a b c) := by
  refine decode_of_raw fun h => ?_
  cases w <;> cases c <;>
    first
    | (exact absurd h Bool.false_ne_true)
    | (dsimp only [encode, encScalar, encVector, encFloat, SSrc.form, SSrc.field, VSrc.vs, VSrc.field, Width.code,
        Cmp.code, FCond.code, ShflMode.code]
       refine ⟨_, _, _, _, _, rfl, rfl, rfl, ?_⟩
       first | rfl | (simp [vsrcOf]; done) | (simp [vsrcOf] <;> decide))
theorem Laws.EncodeDecode.iminI (w : Width) (a b : VReg) (c : VSrc) : Laws.EncodeDecode.Statement (.iminI w a b c) := by
  refine decode_of_raw fun h => ?_
  cases w <;> cases c <;>
    first
    | (exact absurd h Bool.false_ne_true)
    | (dsimp only [encode, encScalar, encVector, encFloat, SSrc.form, SSrc.field, VSrc.vs, VSrc.field, Width.code,
        Cmp.code, FCond.code, ShflMode.code]
       refine ⟨_, _, _, _, _, rfl, rfl, rfl, ?_⟩
       first | rfl | (simp [vsrcOf]; done) | (simp [vsrcOf] <;> decide))
theorem Laws.EncodeDecode.iminN (w : Width) (a b : VReg) (c : VSrc) : Laws.EncodeDecode.Statement (.iminN w a b c) := by
  refine decode_of_raw fun h => ?_
  cases w <;> cases c <;>
    first
    | (exact absurd h Bool.false_ne_true)
    | (dsimp only [encode, encScalar, encVector, encFloat, SSrc.form, SSrc.field, VSrc.vs, VSrc.field, Width.code,
        Cmp.code, FCond.code, ShflMode.code]
       refine ⟨_, _, _, _, _, rfl, rfl, rfl, ?_⟩
       first | rfl | (simp [vsrcOf]; done) | (simp [vsrcOf] <;> decide))
theorem Laws.EncodeDecode.imaxI (w : Width) (a b : VReg) (c : VSrc) : Laws.EncodeDecode.Statement (.imaxI w a b c) := by
  refine decode_of_raw fun h => ?_
  cases w <;> cases c <;>
    first
    | (exact absurd h Bool.false_ne_true)
    | (dsimp only [encode, encScalar, encVector, encFloat, SSrc.form, SSrc.field, VSrc.vs, VSrc.field, Width.code,
        Cmp.code, FCond.code, ShflMode.code]
       refine ⟨_, _, _, _, _, rfl, rfl, rfl, ?_⟩
       first | rfl | (simp [vsrcOf]; done) | (simp [vsrcOf] <;> decide))
theorem Laws.EncodeDecode.imaxN (w : Width) (a b : VReg) (c : VSrc) : Laws.EncodeDecode.Statement (.imaxN w a b c) := by
  refine decode_of_raw fun h => ?_
  cases w <;> cases c <;>
    first
    | (exact absurd h Bool.false_ne_true)
    | (dsimp only [encode, encScalar, encVector, encFloat, SSrc.form, SSrc.field, VSrc.vs, VSrc.field, Width.code,
        Cmp.code, FCond.code, ShflMode.code]
       refine ⟨_, _, _, _, _, rfl, rfl, rfl, ?_⟩
       first | rfl | (simp [vsrcOf]; done) | (simp [vsrcOf] <;> decide))
theorem Laws.EncodeDecode.iabs (w : Width) (a b : VReg) : Laws.EncodeDecode.Statement (.iabs w a b) := by
  refine decode_of_raw fun h => ?_
  cases w <;>
    first
    | (exact absurd h Bool.false_ne_true)
    | (refine ⟨_, _, _, _, _, rfl, rfl, rfl, ?_⟩
       first | rfl | (simp; done) | (simp <;> decide))
theorem Laws.EncodeDecode.and (w : Width) (a b : VReg) (c : VSrc) : Laws.EncodeDecode.Statement (.and w a b c) := by
  refine decode_of_raw fun h => ?_
  cases w <;> cases c <;>
    first
    | (exact absurd h Bool.false_ne_true)
    | (dsimp only [encode, encScalar, encVector, encFloat, SSrc.form, SSrc.field, VSrc.vs, VSrc.field, Width.code,
        Cmp.code, FCond.code, ShflMode.code]
       refine ⟨_, _, _, _, _, rfl, rfl, rfl, ?_⟩
       first | rfl | (simp [vsrcOf]; done) | (simp [vsrcOf] <;> decide))
theorem Laws.EncodeDecode.or (w : Width) (a b : VReg) (c : VSrc) : Laws.EncodeDecode.Statement (.or w a b c) := by
  refine decode_of_raw fun h => ?_
  cases w <;> cases c <;>
    first
    | (exact absurd h Bool.false_ne_true)
    | (dsimp only [encode, encScalar, encVector, encFloat, SSrc.form, SSrc.field, VSrc.vs, VSrc.field, Width.code,
        Cmp.code, FCond.code, ShflMode.code]
       refine ⟨_, _, _, _, _, rfl, rfl, rfl, ?_⟩
       first | rfl | (simp [vsrcOf]; done) | (simp [vsrcOf] <;> decide))
theorem Laws.EncodeDecode.xor (w : Width) (a b : VReg) (c : VSrc) : Laws.EncodeDecode.Statement (.xor w a b c) := by
  refine decode_of_raw fun h => ?_
  cases w <;> cases c <;>
    first
    | (exact absurd h Bool.false_ne_true)
    | (dsimp only [encode, encScalar, encVector, encFloat, SSrc.form, SSrc.field, VSrc.vs, VSrc.field, Width.code,
        Cmp.code, FCond.code, ShflMode.code]
       refine ⟨_, _, _, _, _, rfl, rfl, rfl, ?_⟩
       first | rfl | (simp [vsrcOf]; done) | (simp [vsrcOf] <;> decide))
theorem Laws.EncodeDecode.shl (w : Width) (a b : VReg) (c : VSrc) : Laws.EncodeDecode.Statement (.shl w a b c) := by
  refine decode_of_raw fun h => ?_
  cases w <;> cases c <;>
    first
    | (exact absurd h Bool.false_ne_true)
    | (dsimp only [encode, encScalar, encVector, encFloat, SSrc.form, SSrc.field, VSrc.vs, VSrc.field, Width.code,
        Cmp.code, FCond.code, ShflMode.code]
       refine ⟨_, _, _, _, _, rfl, rfl, rfl, ?_⟩
       first | rfl | (simp [vsrcOf]; done) | (simp [vsrcOf] <;> decide))
theorem Laws.EncodeDecode.shr (w : Width) (a b : VReg) (c : VSrc) : Laws.EncodeDecode.Statement (.shr w a b c) := by
  refine decode_of_raw fun h => ?_
  cases w <;> cases c <;>
    first
    | (exact absurd h Bool.false_ne_true)
    | (dsimp only [encode, encScalar, encVector, encFloat, SSrc.form, SSrc.field, VSrc.vs, VSrc.field, Width.code,
        Cmp.code, FCond.code, ShflMode.code]
       refine ⟨_, _, _, _, _, rfl, rfl, rfl, ?_⟩
       first | rfl | (simp [vsrcOf]; done) | (simp [vsrcOf] <;> decide))
theorem Laws.EncodeDecode.sar (w : Width) (a b : VReg) (c : VSrc) : Laws.EncodeDecode.Statement (.sar w a b c) := by
  refine decode_of_raw fun h => ?_
  cases w <;> cases c <;>
    first
    | (exact absurd h Bool.false_ne_true)
    | (dsimp only [encode, encScalar, encVector, encFloat, SSrc.form, SSrc.field, VSrc.vs, VSrc.field, Width.code,
        Cmp.code, FCond.code, ShflMode.code]
       refine ⟨_, _, _, _, _, rfl, rfl, rfl, ?_⟩
       first | rfl | (simp [vsrcOf]; done) | (simp [vsrcOf] <;> decide))
theorem Laws.EncodeDecode.bfxI (w : Width) (a b c : VReg) : Laws.EncodeDecode.Statement (.bfxI w a b c) := by
  refine decode_of_raw fun h => ?_
  cases w <;>
    first
    | (exact absurd h Bool.false_ne_true)
    | (refine ⟨_, _, _, _, _, rfl, rfl, rfl, ?_⟩
       first | rfl | (simp; done) | (simp <;> decide))
theorem Laws.EncodeDecode.bfxN (w : Width) (a b c : VReg) : Laws.EncodeDecode.Statement (.bfxN w a b c) := by
  refine decode_of_raw fun h => ?_
  cases w <;>
    first
    | (exact absurd h Bool.false_ne_true)
    | (refine ⟨_, _, _, _, _, rfl, rfl, rfl, ?_⟩
       first | rfl | (simp; done) | (simp <;> decide))
theorem Laws.EncodeDecode.bfi (w : Width) (a b c : VReg) : Laws.EncodeDecode.Statement (.bfi w a b c) := by
  refine decode_of_raw fun h => ?_
  cases w <;>
    first
    | (exact absurd h Bool.false_ne_true)
    | (refine ⟨_, _, _, _, _, rfl, rfl, rfl, ?_⟩
       first | rfl | (simp; done) | (simp <;> decide))
theorem Laws.EncodeDecode.popc (w : Width) (a b : VReg) : Laws.EncodeDecode.Statement (.popc w a b) := by
  refine decode_of_raw fun h => ?_
  cases w <;>
    first
    | (exact absurd h Bool.false_ne_true)
    | (refine ⟨_, _, _, _, _, rfl, rfl, rfl, ?_⟩
       first | rfl | (simp; done) | (simp <;> decide))
theorem Laws.EncodeDecode.clz (w : Width) (a b : VReg) : Laws.EncodeDecode.Statement (.clz w a b) := by
  refine decode_of_raw fun h => ?_
  cases w <;>
    first
    | (exact absurd h Bool.false_ne_true)
    | (refine ⟨_, _, _, _, _, rfl, rfl, rfl, ?_⟩
       first | rfl | (simp; done) | (simp <;> decide))
theorem Laws.EncodeDecode.sel (w : Width) (a b : VReg) (c : VSrc) : Laws.EncodeDecode.Statement (.sel w a b c) := by
  refine decode_of_raw fun h => ?_
  cases w <;> cases c <;>
    first
    | (exact absurd h Bool.false_ne_true)
    | (dsimp only [encode, encScalar, encVector, encFloat, SSrc.form, SSrc.field, VSrc.vs, VSrc.field, Width.code,
        Cmp.code, FCond.code, ShflMode.code]
       refine ⟨_, _, _, _, _, rfl, rfl, rfl, ?_⟩
       first | rfl | (simp [vsrcOf]; done) | (simp [vsrcOf] <;> decide))
theorem Laws.EncodeDecode.mov (w : Width) (a b : VReg) : Laws.EncodeDecode.Statement (.mov w a b) := by
  refine decode_of_raw fun h => ?_
  cases w <;>
    first
    | (exact absurd h Bool.false_ne_true)
    | (refine ⟨_, _, _, _, _, rfl, rfl, rfl, ?_⟩
       first | rfl | (simp; done) | (simp <;> decide))
theorem Laws.EncodeDecode.movVs (w : Width) (a : VReg) (c : SReg) : Laws.EncodeDecode.Statement (.movVs w a c) := by
  refine decode_of_raw fun h => ?_
  cases w <;>
    first
    | (exact absurd h Bool.false_ne_true)
    | (refine ⟨_, _, _, _, _, rfl, rfl, rfl, ?_⟩
       first | rfl | (simp; done) | (simp <;> decide))
theorem Laws.EncodeDecode.movi (a : VReg) (i : BitVec 14) : Laws.EncodeDecode.Statement (.movi a i) := by
  exact decode_of_raw fun h => ⟨_, _, _, _, _, rfl, rfl, rfl, by simp⟩
theorem Laws.EncodeDecode.icmp (k : Cmp) (n : Bool) (w : Width) (a : MReg) (b : VReg) (c : VSrc) :
    Laws.EncodeDecode.Statement (.icmp k n w a b c) := by
  refine decode_of_raw fun h => ?_
  cases k <;> cases n <;> cases w <;> cases c <;>
    first
    | (exact absurd h Bool.false_ne_true)
    | (dsimp only [encode, encScalar, encVector, encFloat, SSrc.form, SSrc.field, VSrc.vs, VSrc.field, Width.code,
        Cmp.code, FCond.code, ShflMode.code]
       refine ⟨_, _, _, _, _, rfl, rfl, rfl, ?_⟩
       first | rfl | (simp [vsrcOf]; done) | (simp [vsrcOf] <;> decide))
theorem Laws.EncodeDecode.fcmp (k : FCond) (a : MReg) (b : VReg) (c : VSrc) :
    Laws.EncodeDecode.Statement (.fcmp k a b c) := by
  refine decode_of_raw fun h => ?_
  cases k <;> cases c <;>
    first
    | (exact absurd h Bool.false_ne_true)
    | (dsimp only [encode, encScalar, encVector, encFloat, SSrc.form, SSrc.field, VSrc.vs, VSrc.field, Width.code,
        Cmp.code, FCond.code, ShflMode.code]
       refine ⟨_, _, _, _, _, rfl, rfl, rfl, ?_⟩
       first | rfl | (simp [vsrcOf]; done) | (simp [vsrcOf] <;> decide))
theorem Laws.EncodeDecode.ftst (a : MReg) (b : VReg) (c : BitVec 7) : Laws.EncodeDecode.Statement (.ftst a b c) := by
  exact decode_of_raw fun h => ⟨_, _, _, _, _, rfl, rfl, rfl, by simp⟩
theorem Laws.EncodeDecode.mand (a b c : MReg) : Laws.EncodeDecode.Statement (.mand a b c) := by
  exact decode_of_raw fun h => ⟨_, _, _, _, _, rfl, rfl, rfl, by simp⟩
theorem Laws.EncodeDecode.mor (a b c : MReg) : Laws.EncodeDecode.Statement (.mor a b c) := by
  exact decode_of_raw fun h => ⟨_, _, _, _, _, rfl, rfl, rfl, by simp⟩
theorem Laws.EncodeDecode.mxor (a b c : MReg) : Laws.EncodeDecode.Statement (.mxor a b c) := by
  exact decode_of_raw fun h => ⟨_, _, _, _, _, rfl, rfl, rfl, by simp⟩
theorem Laws.EncodeDecode.mandn (a b c : MReg) : Laws.EncodeDecode.Statement (.mandn a b c) := by
  exact decode_of_raw fun h => ⟨_, _, _, _, _, rfl, rfl, rfl, by simp⟩
theorem Laws.EncodeDecode.mnot (a b : MReg) : Laws.EncodeDecode.Statement (.mnot a b) := by
  exact decode_of_raw fun h => ⟨_, _, _, _, _, rfl, rfl, rfl, by simp⟩
theorem Laws.EncodeDecode.mmov (a b : MReg) : Laws.EncodeDecode.Statement (.mmov a b) := by
  exact decode_of_raw fun h => ⟨_, _, _, _, _, rfl, rfl, rfl, by simp⟩
theorem Laws.EncodeDecode.mset (a : MReg) (b : SReg) : Laws.EncodeDecode.Statement (.mset a b) := by
  exact decode_of_raw fun h => ⟨_, _, _, _, _, rfl, rfl, rfl, by simp⟩
theorem Laws.EncodeDecode.mget (a : SIdx) (b : MReg) : Laws.EncodeDecode.Statement (.mget a b) := by
  exact decode_of_raw fun h => ⟨_, _, _, _, _, rfl, rfl, rfl, by simp⟩
theorem Laws.EncodeDecode.mpop (a : SIdx) (b : MReg) : Laws.EncodeDecode.Statement (.mpop a b) := by
  exact decode_of_raw fun h => ⟨_, _, _, _, _, rfl, rfl, rfl, by simp⟩
theorem Laws.EncodeDecode.mfirst (a : SIdx) (b : MReg) : Laws.EncodeDecode.Statement (.mfirst a b) := by
  exact decode_of_raw fun h => ⟨_, _, _, _, _, rfl, rfl, rfl, by simp⟩
theorem Laws.EncodeDecode.fadd (a b : VReg) (c : VSrc) : Laws.EncodeDecode.Statement (.fadd a b c) := by
  refine decode_of_raw fun h => ?_
  cases c <;>
    first
    | (exact absurd h Bool.false_ne_true)
    | (dsimp only [encode, encScalar, encVector, encFloat, SSrc.form, SSrc.field, VSrc.vs, VSrc.field, Width.code,
        Cmp.code, FCond.code, ShflMode.code]
       refine ⟨_, _, _, _, _, rfl, rfl, rfl, ?_⟩
       first | rfl | (simp [vsrcOf]; done) | (simp [vsrcOf] <;> decide))
theorem Laws.EncodeDecode.fsub (a b : VReg) (c : VSrc) : Laws.EncodeDecode.Statement (.fsub a b c) := by
  refine decode_of_raw fun h => ?_
  cases c <;>
    first
    | (exact absurd h Bool.false_ne_true)
    | (dsimp only [encode, encScalar, encVector, encFloat, SSrc.form, SSrc.field, VSrc.vs, VSrc.field, Width.code,
        Cmp.code, FCond.code, ShflMode.code]
       refine ⟨_, _, _, _, _, rfl, rfl, rfl, ?_⟩
       first | rfl | (simp [vsrcOf]; done) | (simp [vsrcOf] <;> decide))
theorem Laws.EncodeDecode.fmul (a b : VReg) (c : VSrc) : Laws.EncodeDecode.Statement (.fmul a b c) := by
  refine decode_of_raw fun h => ?_
  cases c <;>
    first
    | (exact absurd h Bool.false_ne_true)
    | (dsimp only [encode, encScalar, encVector, encFloat, SSrc.form, SSrc.field, VSrc.vs, VSrc.field, Width.code,
        Cmp.code, FCond.code, ShflMode.code]
       refine ⟨_, _, _, _, _, rfl, rfl, rfl, ?_⟩
       first | rfl | (simp [vsrcOf]; done) | (simp [vsrcOf] <;> decide))
theorem Laws.EncodeDecode.ffma (a b : VReg) (c : VSrc) : Laws.EncodeDecode.Statement (.ffma a b c) := by
  refine decode_of_raw fun h => ?_
  cases c <;>
    first
    | (exact absurd h Bool.false_ne_true)
    | (dsimp only [encode, encScalar, encVector, encFloat, SSrc.form, SSrc.field, VSrc.vs, VSrc.field, Width.code,
        Cmp.code, FCond.code, ShflMode.code]
       refine ⟨_, _, _, _, _, rfl, rfl, rfl, ?_⟩
       first | rfl | (simp [vsrcOf]; done) | (simp [vsrcOf] <;> decide))
theorem Laws.EncodeDecode.fmin (a b : VReg) (c : VSrc) : Laws.EncodeDecode.Statement (.fmin a b c) := by
  refine decode_of_raw fun h => ?_
  cases c <;>
    first
    | (exact absurd h Bool.false_ne_true)
    | (dsimp only [encode, encScalar, encVector, encFloat, SSrc.form, SSrc.field, VSrc.vs, VSrc.field, Width.code,
        Cmp.code, FCond.code, ShflMode.code]
       refine ⟨_, _, _, _, _, rfl, rfl, rfl, ?_⟩
       first | rfl | (simp [vsrcOf]; done) | (simp [vsrcOf] <;> decide))
theorem Laws.EncodeDecode.fmax (a b : VReg) (c : VSrc) : Laws.EncodeDecode.Statement (.fmax a b c) := by
  refine decode_of_raw fun h => ?_
  cases c <;>
    first
    | (exact absurd h Bool.false_ne_true)
    | (dsimp only [encode, encScalar, encVector, encFloat, SSrc.form, SSrc.field, VSrc.vs, VSrc.field, Width.code,
        Cmp.code, FCond.code, ShflMode.code]
       refine ⟨_, _, _, _, _, rfl, rfl, rfl, ?_⟩
       first | rfl | (simp [vsrcOf]; done) | (simp [vsrcOf] <;> decide))
theorem Laws.EncodeDecode.frnd (a b : VReg) : Laws.EncodeDecode.Statement (.frnd a b) := by
  exact decode_of_raw fun h => ⟨_, _, _, _, _, rfl, rfl, rfl, by simp⟩
theorem Laws.EncodeDecode.fclass (a b : VReg) : Laws.EncodeDecode.Statement (.fclass a b) := by
  exact decode_of_raw fun h => ⟨_, _, _, _, _, rfl, rfl, rfl, by simp⟩
theorem Laws.EncodeDecode.hadd2 (f : PFmt) (a b c : VReg) : Laws.EncodeDecode.Statement (.hadd2 f a b c) := by
  refine decode_of_raw fun h => ?_
  cases f <;>
    first
    | (exact absurd h Bool.false_ne_true)
    | (refine ⟨_, _, _, _, _, rfl, rfl, rfl, ?_⟩
       first | rfl | (simp; done) | (simp <;> decide))
theorem Laws.EncodeDecode.hmul2 (f : PFmt) (a b c : VReg) : Laws.EncodeDecode.Statement (.hmul2 f a b c) := by
  refine decode_of_raw fun h => ?_
  cases f <;>
    first
    | (exact absurd h Bool.false_ne_true)
    | (refine ⟨_, _, _, _, _, rfl, rfl, rfl, ?_⟩
       first | rfl | (simp; done) | (simp <;> decide))
theorem Laws.EncodeDecode.hfma2 (f : PFmt) (a b c : VReg) : Laws.EncodeDecode.Statement (.hfma2 f a b c) := by
  refine decode_of_raw fun h => ?_
  cases f <;>
    first
    | (exact absurd h Bool.false_ne_true)
    | (refine ⟨_, _, _, _, _, rfl, rfl, rfl, ?_⟩
       first | rfl | (simp; done) | (simp <;> decide))
theorem Laws.EncodeDecode.hmax2 (f : PFmt) (a b c : VReg) : Laws.EncodeDecode.Statement (.hmax2 f a b c) := by
  refine decode_of_raw fun h => ?_
  cases f <;>
    first
    | (exact absurd h Bool.false_ne_true)
    | (refine ⟨_, _, _, _, _, rfl, rfl, rfl, ?_⟩
       first | rfl | (simp; done) | (simp <;> decide))
theorem Laws.EncodeDecode.cvt (dst src : CvtTy) (a b : VReg) : Laws.EncodeDecode.Statement (.cvt dst src a b) := by
  refine decode_of_raw fun h => ?_
  have hi : (dst.isInt && src.isInt) = false := by
    change (dst != src && !(dst.isInt && src.isInt) && (!dst.is64 || even7 a) && (!src.is64 || even7 b)) = true at h
    revert h
    cases dst.isInt && src.isInt <;> simp
  have hc := cvt_field dst src hi
  exact ⟨_, _, _, _, _, rfl, rfl, rfl, by rw [hc.1, hc.2]⟩
theorem Laws.EncodeDecode.pack (k : PackFmt) (a b : VReg) : Laws.EncodeDecode.Statement (.pack k a b) := by
  exact decode_of_raw fun h => ⟨_, _, _, _, _, rfl, rfl, rfl, by simp⟩
theorem Laws.EncodeDecode.unpk (k : PackFmt) (a b : VReg) : Laws.EncodeDecode.Statement (.unpk k a b) := by
  exact decode_of_raw fun h => ⟨_, _, _, _, _, rfl, rfl, rfl, by simp⟩
theorem Laws.EncodeDecode.exp2 (a b : VReg) : Laws.EncodeDecode.Statement (.exp2 a b) := by
  exact decode_of_raw fun h => ⟨_, _, _, _, _, rfl, rfl, rfl, by simp⟩
theorem Laws.EncodeDecode.log2 (a b : VReg) : Laws.EncodeDecode.Statement (.log2 a b) := by
  exact decode_of_raw fun h => ⟨_, _, _, _, _, rfl, rfl, rfl, by simp⟩
theorem Laws.EncodeDecode.rcp (a b : VReg) : Laws.EncodeDecode.Statement (.rcp a b) := by
  exact decode_of_raw fun h => ⟨_, _, _, _, _, rfl, rfl, rfl, by simp⟩
theorem Laws.EncodeDecode.rsq (a b : VReg) : Laws.EncodeDecode.Statement (.rsq a b) := by
  exact decode_of_raw fun h => ⟨_, _, _, _, _, rfl, rfl, rfl, by simp⟩
theorem Laws.EncodeDecode.sqrt (a b : VReg) : Laws.EncodeDecode.Statement (.sqrt a b) := by
  exact decode_of_raw fun h => ⟨_, _, _, _, _, rfl, rfl, rfl, by simp⟩
theorem Laws.EncodeDecode.sint (a b : VReg) : Laws.EncodeDecode.Statement (.sint a b) := by
  exact decode_of_raw fun h => ⟨_, _, _, _, _, rfl, rfl, rfl, by simp⟩
theorem Laws.EncodeDecode.cost (a b : VReg) : Laws.EncodeDecode.Statement (.cost a b) := by
  exact decode_of_raw fun h => ⟨_, _, _, _, _, rfl, rfl, rfl, by simp⟩
theorem Laws.EncodeDecode.tanh (a b : VReg) : Laws.EncodeDecode.Statement (.tanh a b) := by
  exact decode_of_raw fun h => ⟨_, _, _, _, _, rfl, rfl, rfl, by simp⟩
theorem Laws.EncodeDecode.shfl (m : ShflMode) (a b : VReg) (c : VSrc) : Laws.EncodeDecode.Statement (.shfl m a b c) := by
  refine decode_of_raw fun h => ?_
  cases m <;> cases c <;>
    first
    | (exact absurd h Bool.false_ne_true)
    | (dsimp only [encode, encScalar, encVector, encFloat, SSrc.form, SSrc.field, VSrc.vs, VSrc.field, Width.code,
        Cmp.code, FCond.code, ShflMode.code]
       refine ⟨_, _, _, _, _, rfl, rfl, rfl, ?_⟩
       first | rfl | (simp [vsrcOf]; done) | (simp [vsrcOf] <;> decide))
theorem Laws.EncodeDecode.bcast (a b : VReg) (l : BitVec 7) : Laws.EncodeDecode.Statement (.bcast a b l) := by
  exact decode_of_raw fun h => ⟨_, _, _, _, _, rfl, rfl, rfl, by simp⟩
theorem Laws.EncodeDecode.red (r : Rop) (a b : VReg) : Laws.EncodeDecode.Statement (.red r a b) := by
  refine decode_of_raw fun h => ?_
  cases r <;>
    first
    | (exact absurd h Bool.false_ne_true)
    | (refine ⟨_, _, _, _, _, rfl, rfl, rfl, ?_⟩
       first | rfl | (simp; done) | (simp <;> decide))
theorem Laws.EncodeDecode.scan (r : Rop) (a b : VReg) : Laws.EncodeDecode.Statement (.scan r a b) := by
  refine decode_of_raw fun h => ?_
  cases r <;>
    first
    | (exact absurd h Bool.false_ne_true)
    | (refine ⟨_, _, _, _, _, rfl, rfl, rfl, ?_⟩
       first | rfl | (simp; done) | (simp <;> decide))
theorem Laws.EncodeDecode.voteAny (a : SIdx) (b : VReg) : Laws.EncodeDecode.Statement (.voteAny a b) := by
  exact decode_of_raw fun h => ⟨_, _, _, _, _, rfl, rfl, rfl, by simp⟩
theorem Laws.EncodeDecode.voteAll (a : SIdx) (b : VReg) : Laws.EncodeDecode.Statement (.voteAll a b) := by
  exact decode_of_raw fun h => ⟨_, _, _, _, _, rfl, rfl, rfl, by simp⟩
theorem Laws.EncodeDecode.voteEq (a : SIdx) (b : VReg) : Laws.EncodeDecode.Statement (.voteEq a b) := by
  exact decode_of_raw fun h => ⟨_, _, _, _, _, rfl, rfl, rfl, by simp⟩
theorem Laws.EncodeDecode.ballot (a : MReg) (b : VReg) : Laws.EncodeDecode.Statement (.ballot a b) := by
  exact decode_of_raw fun h => ⟨_, _, _, _, _, rfl, rfl, rfl, by simp⟩
theorem Laws.EncodeDecode.sample (a b : VReg) (c : SReg) : Laws.EncodeDecode.Statement (.sample a b c) := by
  exact decode_of_raw fun h => ⟨_, _, _, _, _, rfl, rfl, rfl, by simp⟩
theorem Laws.EncodeDecode.ld (t : MType) (a b : VReg) (c : LdOff) : Laws.EncodeDecode.Statement (.ld t a b c) := by
  refine decode_of_raw fun h => ?_
  cases t <;>
    first
    | (exact absurd h Bool.false_ne_true)
    | (refine ⟨_, _, _, _, _, rfl, rfl, rfl, ?_⟩
       first | rfl | (simp; done) | (simp <;> decide))
theorem Laws.EncodeDecode.ldAcq (t : MType) (a b : VReg) (s : MScope) : Laws.EncodeDecode.Statement (.ldAcq t a b s) := by
  refine decode_of_raw fun h => ?_
  cases t <;>
    first
    | (exact absurd h Bool.false_ne_true)
    | (refine ⟨_, _, _, _, _, rfl, rfl, rfl, ?_⟩
       first | rfl | (simp; done) | (simp <;> decide))
theorem Laws.EncodeDecode.st (t : MType) (a b : VReg) (c : LdOff) : Laws.EncodeDecode.Statement (.st t a b c) := by
  refine decode_of_raw fun h => ?_
  cases t <;>
    first
    | (exact absurd h Bool.false_ne_true)
    | (refine ⟨_, _, _, _, _, rfl, rfl, rfl, ?_⟩
       first | rfl | (simp; done) | (simp <;> decide))
theorem Laws.EncodeDecode.stRel (t : MType) (a b : VReg) (s : MScope) : Laws.EncodeDecode.Statement (.stRel t a b s) := by
  refine decode_of_raw fun h => ?_
  cases t <;>
    first
    | (exact absurd h Bool.false_ne_true)
    | (refine ⟨_, _, _, _, _, rfl, rfl, rfl, ?_⟩
       first | rfl | (simp; done) | (simp <;> decide))
theorem Laws.EncodeDecode.atom (o : AOp) (t : AType) (a b : VReg) (r : Ord) (s : MScope) :
    Laws.EncodeDecode.Statement (.atom o t a b r s) := by
  refine decode_of_raw fun h => ?_
  cases o <;> cases t <;>
    first
    | (exact absurd h Bool.false_ne_true)
    | (refine ⟨_, _, _, _, _, rfl, rfl, rfl, ?_⟩
       first | rfl | (simp; done) | (simp <;> decide))
theorem Laws.EncodeDecode.cas (r : Ord) (s : MScope) (a b c : VReg) : Laws.EncodeDecode.Statement (.cas r s a b c) := by
  refine decode_of_raw fun h => ?_
  cases r <;> cases s <;>
    first
    | (refine ⟨_, _, _, _, _, rfl, rfl, rfl, ?_⟩
       first | rfl | (simp; done) | (simp <;> decide))
    | (change (even7 b && false) = true at h; simp at h)
theorem Laws.EncodeDecode.casW64 (r : Ord) (s : MScope) (a b c : VReg) : Laws.EncodeDecode.Statement (.casW64 r s a b c) := by
  refine decode_of_raw fun h => ?_
  cases r <;> cases s <;>
    first
    | (refine ⟨_, _, _, _, _, rfl, rfl, rfl, ?_⟩
       first | rfl | (simp; done) | (simp <;> decide))
    | (change (even7 a && even7 b && even7 c && false) = true at h; simp at h)
theorem Laws.EncodeDecode.ldbR (t : MType) (a b : VReg) (n : BitVec 3) : Laws.EncodeDecode.Statement (.ldbR t a b n) := by
  refine decode_of_raw fun h => ?_
  cases t <;>
    first
    | (exact absurd h Bool.false_ne_true)
    | (refine ⟨_, _, _, _, _, rfl, rfl, rfl, ?_⟩
       first | rfl | (simp; done) | (simp <;> decide))
theorem Laws.EncodeDecode.ldbS (t : MType) (a b : VReg) (n : BitVec 3) : Laws.EncodeDecode.Statement (.ldbS t a b n) := by
  refine decode_of_raw fun h => ?_
  cases t <;>
    first
    | (exact absurd h Bool.false_ne_true)
    | (refine ⟨_, _, _, _, _, rfl, rfl, rfl, ?_⟩
       first | rfl | (simp; done) | (simp <;> decide))
theorem Laws.EncodeDecode.lds (t : SType) (a b : SReg) (c : BitVec 7) : Laws.EncodeDecode.Statement (.lds t a b c) := by
  refine decode_of_raw fun h => ?_
  cases t <;>
    first
    | (exact absurd h Bool.false_ne_true)
    | (refine ⟨_, _, _, _, _, rfl, rfl, rfl, ?_⟩
       first | rfl | (simp; done) | (simp <;> decide))
theorem Laws.EncodeDecode.sts (t : SType) (a b : SReg) (c : BitVec 7) : Laws.EncodeDecode.Statement (.sts t a b c) := by
  refine decode_of_raw fun h => ?_
  cases t <;>
    first
    | (exact absurd h Bool.false_ne_true)
    | (refine ⟨_, _, _, _, _, rfl, rfl, rfl, ?_⟩
       first | rfl | (simp; done) | (simp <;> decide))
theorem Laws.EncodeDecode.fence (r : Ord) (s : MScope) : Laws.EncodeDecode.Statement (.fence r s) := by
  exact decode_of_raw fun h => ⟨_, _, _, _, _, rfl, rfl, rfl, by simp⟩
theorem Laws.EncodeDecode.pref (b : VReg) (l2 : Bool) : Laws.EncodeDecode.Statement (.pref b l2) := by
  exact decode_of_raw fun h => ⟨_, _, _, _, _, rfl, rfl, rfl, by simp⟩
theorem Laws.EncodeDecode.cinv (b : VReg) (s : MScope) : Laws.EncodeDecode.Statement (.cinv b s) := by
  exact decode_of_raw fun h => ⟨_, _, _, _, _, rfl, rfl, rfl, by simp⟩
theorem Laws.EncodeDecode.cflush (b : VReg) (s : MScope) : Laws.EncodeDecode.Statement (.cflush b s) := by
  exact decode_of_raw fun h => ⟨_, _, _, _, _, rfl, rfl, rfl, by simp⟩
theorem Laws.EncodeDecode.ldp (t : MType) (a b : VReg) (w : BitVec 3) : Laws.EncodeDecode.Statement (.ldp t a b w) := by
  refine decode_of_raw fun h => ?_
  cases t <;>
    first
    | (exact absurd h Bool.false_ne_true)
    | (refine ⟨_, _, _, _, _, rfl, rfl, rfl, ?_⟩
       first | rfl | (simp; done) | (simp <;> decide))
theorem Laws.EncodeDecode.stp (t : MType) (a b : VReg) (w : BitVec 3) : Laws.EncodeDecode.Statement (.stp t a b w) := by
  refine decode_of_raw fun h => ?_
  cases t <;>
    first
    | (exact absurd h Bool.false_ne_true)
    | (refine ⟨_, _, _, _, _, rfl, rfl, rfl, ?_⟩
       first | rfl | (simp; done) | (simp <;> decide))
theorem Laws.EncodeDecode.atompI32 (o : AOp) (a b : VReg) (w : BitVec 3) :
    Laws.EncodeDecode.Statement (.atompI32 o a b w) := by
  refine decode_of_raw fun h => ?_
  cases o <;>
    first
    | (exact absurd h Bool.false_ne_true)
    | (refine ⟨_, _, _, _, _, rfl, rfl, rfl, ?_⟩
       first | rfl | (simp; done) | (simp <;> decide))
theorem Laws.EncodeDecode.atompN32 (o : AOp) (a b : VReg) (w : BitVec 3) :
    Laws.EncodeDecode.Statement (.atompN32 o a b w) := by
  refine decode_of_raw fun h => ?_
  cases o <;>
    first
    | (exact absurd h Bool.false_ne_true)
    | (refine ⟨_, _, _, _, _, rfl, rfl, rfl, ?_⟩
       first | rfl | (simp; done) | (simp <;> decide))
theorem Laws.EncodeDecode.ldpr (t : MType) (a b : VReg) (w : BitVec 3) : Laws.EncodeDecode.Statement (.ldpr t a b w) := by
  refine decode_of_raw fun h => ?_
  cases t <;>
    first
    | (exact absurd h Bool.false_ne_true)
    | (refine ⟨_, _, _, _, _, rfl, rfl, rfl, ?_⟩
       first | rfl | (simp; done) | (simp <;> decide))
theorem Laws.EncodeDecode.stpr (t : MType) (a b : VReg) (w : BitVec 3) : Laws.EncodeDecode.Statement (.stpr t a b w) := by
  refine decode_of_raw fun h => ?_
  cases t <;>
    first
    | (exact absurd h Bool.false_ne_true)
    | (refine ⟨_, _, _, _, _, rfl, rfl, rfl, ?_⟩
       first | rfl | (simp; done) | (simp <;> decide))
theorem Laws.EncodeDecode.mmldb (a b : SReg) (m n : BitVec 3) : Laws.EncodeDecode.Statement (.mmldb a b m n) := by
  exact decode_of_raw fun h => ⟨_, _, _, _, _, rfl, rfl, rfl, by simp [two_halves]⟩
theorem Laws.EncodeDecode.mmloop (a : VReg) (b : SReg) (m : BitVec 3) : Laws.EncodeDecode.Statement (.mmloop a b m) := by
  exact decode_of_raw fun h => ⟨_, _, _, _, _, rfl, rfl, rfl, by simp⟩
theorem Laws.EncodeDecode.mmzero (u n : BitVec 4) : Laws.EncodeDecode.Statement (.mmzero u n) := by
  exact decode_of_raw fun h => ⟨_, _, _, _, _, rfl, rfl, rfl, by simp⟩
theorem Laws.EncodeDecode.amov (a b : VReg) : Laws.EncodeDecode.Statement (.amov a b) := by
  exact decode_of_raw fun h => ⟨_, _, _, _, _, rfl, rfl, rfl, by simp⟩
theorem Laws.EncodeDecode.anrw (a b : VReg) (c : SReg) : Laws.EncodeDecode.Statement (.anrw a b c) := by
  exact decode_of_raw fun h => ⟨_, _, _, _, _, rfl, rfl, rfl, by simp⟩
theorem Laws.EncodeDecode.qtile (a b : SReg) (m : BitVec 3) : Laws.EncodeDecode.Statement (.qtile a b m) := by
  exact decode_of_raw fun h => ⟨_, _, _, _, _, rfl, rfl, rfl, by simp⟩
theorem Laws.EncodeDecode.rqt (a b : SReg) (row : Bool) : Laws.EncodeDecode.Statement (.rqt a b row) := by
  exact decode_of_raw fun h => ⟨_, _, _, _, _, rfl, rfl, rfl, by simp⟩
theorem Laws.EncodeDecode.tcopy (a b : VReg) : Laws.EncodeDecode.Statement (.tcopy a b) := by
  exact decode_of_raw fun h => ⟨_, _, _, _, _, rfl, rfl, rfl, by simp⟩
theorem Laws.EncodeDecode.tcopyMAll (a b : VReg) (h : HReg) : Laws.EncodeDecode.Statement (.tcopyMAll a b h) := by
  exact decode_of_raw fun h => ⟨_, _, _, _, _, rfl, rfl, rfl, by simp⟩
theorem Laws.EncodeDecode.tcopyMJoin (a b : VReg) (h : HReg) : Laws.EncodeDecode.Statement (.tcopyMJoin a b h) := by
  exact decode_of_raw fun h => ⟨_, _, _, _, _, rfl, rfl, rfl, by simp⟩
theorem Laws.EncodeDecode.binit (b c : SReg) : Laws.EncodeDecode.Statement (.binit b c) := by
  exact decode_of_raw fun h => ⟨_, _, _, _, _, rfl, rfl, rfl, by simp⟩
theorem Laws.EncodeDecode.barv (a : SIdx) (b : SReg) (n : BitVec 7) : Laws.EncodeDecode.Statement (.barv a b n) := by
  exact decode_of_raw fun h => ⟨_, _, _, _, _, rfl, rfl, rfl, by simp⟩
theorem Laws.EncodeDecode.bexp (b c : SReg) : Laws.EncodeDecode.Statement (.bexp b c) := by
  exact decode_of_raw fun h => ⟨_, _, _, _, _, rfl, rfl, rfl, by simp⟩
theorem Laws.EncodeDecode.bwait (b c : SReg) : Laws.EncodeDecode.Statement (.bwait b c) := by
  exact decode_of_raw fun h => ⟨_, _, _, _, _, rfl, rfl, rfl, by simp⟩
theorem Laws.EncodeDecode.btest (a : SIdx) (b c : SReg) : Laws.EncodeDecode.Statement (.btest a b c) := by
  exact decode_of_raw fun h => ⟨_, _, _, _, _, rfl, rfl, rfl, by simp⟩
theorem Laws.EncodeDecode.feedget (a : SIdx) (f : FReg) : Laws.EncodeDecode.Statement (.feedget a f) := by
  exact decode_of_raw fun h => ⟨_, _, _, _, _, rfl, rfl, rfl, by simp⟩
theorem Laws.EncodeDecode.feedput (f : FReg) (c : SReg) : Laws.EncodeDecode.Statement (.feedput f c) := by
  exact decode_of_raw fun h => ⟨_, _, _, _, _, rfl, rfl, rfl, by simp⟩
theorem Laws.EncodeDecode.feedpop (a : SIdx) (f : FReg) : Laws.EncodeDecode.Statement (.feedpop a f) := by
  exact decode_of_raw fun h => ⟨_, _, _, _, _, rfl, rfl, rfl, by simp⟩
theorem Laws.EncodeDecode.feedrel (f : FReg) (c : SReg) : Laws.EncodeDecode.Statement (.feedrel f c) := by
  exact decode_of_raw fun h => ⟨_, _, _, _, _, rfl, rfl, rfl, by simp⟩
theorem Laws.EncodeDecode.dlv (t : MType) (a b : VReg) (h : HReg) : Laws.EncodeDecode.Statement (.dlv t a b h) := by
  refine decode_of_raw fun h => ?_
  cases t <;>
    first
    | (exact absurd h Bool.false_ne_true)
    | (refine ⟨_, _, _, _, _, rfl, rfl, rfl, ?_⟩
       first | rfl | (simp; done) | (simp <;> decide))
theorem Laws.EncodeDecode.hamset (a : HReg) (b c : SReg) : Laws.EncodeDecode.Statement (.hamset a b c) := by
  exact decode_of_raw fun h => ⟨_, _, _, _, _, rfl, rfl, rfl, by simp⟩
theorem Laws.EncodeDecode.hamand (a b c : HReg) : Laws.EncodeDecode.Statement (.hamand a b c) := by
  exact decode_of_raw fun h => ⟨_, _, _, _, _, rfl, rfl, rfl, by simp⟩
theorem Laws.EncodeDecode.ring (a : SIdx) (b : SReg) (n : BitVec 6) : Laws.EncodeDecode.Statement (.ring a b n) := by
  exact decode_of_raw fun h => ⟨_, _, _, _, _, rfl, rfl, rfl, by simp⟩
theorem Laws.EncodeDecode.bellr (a : SIdx) (n : BitVec 6) : Laws.EncodeDecode.Statement (.bellr a n) := by
  exact decode_of_raw fun h => ⟨_, _, _, _, _, rfl, rfl, rfl, by simp⟩
theorem Laws.EncodeDecode.bellw (b : SReg) (n : BitVec 6) : Laws.EncodeDecode.Statement (.bellw b n) := by
  exact decode_of_raw fun h => ⟨_, _, _, _, _, rfl, rfl, rfl, by simp⟩
theorem Laws.EncodeDecode.rdsrV (pair : Bool) (a : VReg) (s : BitVec 7) : Laws.EncodeDecode.Statement (.rdsrV pair a s) := by
  exact decode_of_raw fun h => ⟨_, _, _, _, _, rfl, rfl, rfl, by simp⟩
theorem Laws.EncodeDecode.rdsrS (a : SReg) (s : BitVec 7) : Laws.EncodeDecode.Statement (.rdsrS a s) := by
  exact decode_of_raw fun h => ⟨_, _, _, _, _, rfl, rfl, rfl, by simp⟩
theorem Laws.EncodeDecode.wrsrV (b : VReg) (s : BitVec 7) : Laws.EncodeDecode.Statement (.wrsrV b s) := by
  exact decode_of_raw fun h => ⟨_, _, _, _, _, rfl, rfl, rfl, by simp⟩
theorem Laws.EncodeDecode.wrsrS (b : SReg) (s : BitVec 7) : Laws.EncodeDecode.Statement (.wrsrS b s) := by
  exact decode_of_raw fun h => ⟨_, _, _, _, _, rfl, rfl, rfl, by simp⟩
theorem Laws.EncodeDecode.launchT (b : SReg) : Laws.EncodeDecode.Statement (.launchT b) := by
  exact decode_of_raw fun h => ⟨_, _, _, _, _, rfl, rfl, rfl, by simp⟩
theorem Laws.EncodeDecode.launchD (b : SReg) : Laws.EncodeDecode.Statement (.launchD b) := by
  exact decode_of_raw fun h => ⟨_, _, _, _, _, rfl, rfl, rfl, by simp⟩
theorem Laws.EncodeDecode.mapf (a : SIdx) (b : SReg) : Laws.EncodeDecode.Statement (.mapf a b) := by
  exact decode_of_raw fun h => ⟨_, _, _, _, _, rfl, rfl, rfl, by simp⟩
theorem Laws.EncodeDecode.tlbiPage (b : SReg) : Laws.EncodeDecode.Statement (.tlbiPage b) := by
  exact decode_of_raw fun h => ⟨_, _, _, _, _, rfl, rfl, rfl, by simp⟩
theorem Laws.EncodeDecode.tlbiCtx : Laws.EncodeDecode.Statement (.tlbiCtx) := by
  exact decode_of_raw fun h => ⟨_, _, _, _, _, rfl, rfl, rfl, by simp⟩
theorem Laws.EncodeDecode.illegalInstruction (why : IllegalWhy) :
    Laws.EncodeDecode.Statement (.illegalInstruction why) := fun h => nomatch h
theorem Laws.EncodeDecode.takeRun (g : Nat) : Laws.EncodeDecode.Statement (.takeRun g) := fun h => nomatch h
theorem Laws.EncodeDecode.runEnd (g : Nat) : Laws.EncodeDecode.Statement (.runEnd g) := fun h => nomatch h
theorem Laws.EncodeDecode.endMarkerTaken (u : UnitId) : Laws.EncodeDecode.Statement (.endMarkerTaken u) := fun h => nomatch h
theorem Laws.EncodeDecode.groupRetirement (g : Nat) : Laws.EncodeDecode.Statement (.groupRetirement g) := fun h => nomatch h
theorem Laws.EncodeDecode.completionEvent (g flight : Nat) :
    Laws.EncodeDecode.Statement (.completionEvent g flight) := fun h => nomatch h
theorem Laws.EncodeDecode.handlerEntry (u : UnitId) : Laws.EncodeDecode.Statement (.handlerEntry u) := fun h => nomatch h
theorem Laws.EncodeDecode.voteComplete (u : UnitId) : Laws.EncodeDecode.Statement (.voteComplete u) := fun h => nomatch h
theorem Laws.EncodeDecode.teamTakeRun (t : Nat) : Laws.EncodeDecode.Statement (.teamTakeRun t) := fun h => nomatch h
theorem Laws.EncodeDecode.versionFreed (u : UnitId) : Laws.EncodeDecode.Statement (.versionFreed u) := fun h => nomatch h
theorem Laws.EncodeDecode.raceSpaceFreed (u : UnitId) : Laws.EncodeDecode.Statement (.raceSpaceFreed u) := fun h => nomatch h
theorem Laws.EncodeDecode.sequencerPark (u : UnitId) : Laws.EncodeDecode.Statement (.sequencerPark u) := fun h => nomatch h
theorem Laws.EncodeDecode.groupStopPoint (g : Nat) : Laws.EncodeDecode.Statement (.groupStopPoint g) := fun h => nomatch h
theorem Laws.EncodeDecode.revoteAccepted (u : UnitId) : Laws.EncodeDecode.Statement (.revoteAccepted u) := fun h => nomatch h
theorem Laws.EncodeDecode.bwaitComplete (g : Nat) : Laws.EncodeDecode.Statement (.bwaitComplete g) := fun h => nomatch h
theorem Laws.EncodeDecode.barvCarryRoom (g : Nat) : Laws.EncodeDecode.Statement (.barvCarryRoom g) := fun h => nomatch h
theorem Laws.EncodeDecode.feedBufferReady (g : Nat) : Laws.EncodeDecode.Statement (.feedBufferReady g) := fun h => nomatch h
theorem Laws.EncodeDecode.bellwComplete (g : Nat) : Laws.EncodeDecode.Statement (.bellwComplete g) := fun h => nomatch h
theorem Laws.EncodeDecode.ldbSTimeout (g flight lane : Nat) :
    Laws.EncodeDecode.Statement (.ldbSTimeout g flight lane) := fun h => nomatch h
theorem Laws.EncodeDecode.deliveryArrival (core grain gsize : Nat) (attr : PageAttr) (bytes : List Byte) (round : W32) (grp flight : Nat) :
    Laws.EncodeDecode.Statement (.deliveryArrival core grain gsize attr bytes round grp flight) := fun h => nomatch h
theorem Laws.EncodeDecode.deliverySettled (grp flight grain : Nat) :
    Laws.EncodeDecode.Statement (.deliverySettled grp flight grain) := fun h => nomatch h
theorem Laws.EncodeDecode.readRequest (core grain : Nat) :
    Laws.EncodeDecode.Statement (.readRequest core grain) := fun h => nomatch h
theorem Laws.EncodeDecode.ownershipRequest (core grain : Nat) :
    Laws.EncodeDecode.Statement (.ownershipRequest core grain) := fun h => nomatch h
theorem Laws.EncodeDecode.writeback (core grain : Nat) (bytes : Tab Byte) (why : WbWhy) :
    Laws.EncodeDecode.Statement (.writeback core grain bytes why) := fun h => nomatch h
theorem Laws.EncodeDecode.cleanNotice (core grain : Nat) :
    Laws.EncodeDecode.Statement (.cleanNotice core grain) := fun h => nomatch h
theorem Laws.EncodeDecode.invalidation (core grain : Nat) :
    Laws.EncodeDecode.Statement (.invalidation core grain) := fun h => nomatch h
theorem Laws.EncodeDecode.invalidationAck (core grain : Nat) :
    Laws.EncodeDecode.Statement (.invalidationAck core grain) := fun h => nomatch h
theorem Laws.EncodeDecode.recall (core grain : Nat) (toShared : Bool) :
    Laws.EncodeDecode.Statement (.recall core grain toShared) := fun h => nomatch h
theorem Laws.EncodeDecode.fill (core grain : Nat) (bytes : List Byte) (own : Bool) :
    Laws.EncodeDecode.Statement (.fill core grain bytes own) := fun h => nomatch h
theorem Laws.EncodeDecode.homeExecutedOperation (o : HomeOp) :
    Laws.EncodeDecode.Statement (.homeExecutedOperation o) := fun h => nomatch h
theorem Laws.EncodeDecode.recordMessage (core grain : Nat) (s : MScope) :
    Laws.EncodeDecode.Statement (.recordMessage core grain s) := fun h => nomatch h
theorem Laws.EncodeDecode.flushRequest (core grain : Nat) :
    Laws.EncodeDecode.Statement (.flushRequest core grain) := fun h => nomatch h
theorem Laws.EncodeDecode.flushAcknowledge (core grain : Nat) :
    Laws.EncodeDecode.Statement (.flushAcknowledge core grain) := fun h => nomatch h
theorem Laws.EncodeDecode.retry (core grain : Nat) : Laws.EncodeDecode.Statement (.retry core grain) := fun h => nomatch h
theorem Laws.EncodeDecode.roundBroadcast (core asid bell : Nat) (round : W32) (grp flight : Nat) :
    Laws.EncodeDecode.Statement (.roundBroadcast core asid bell round grp flight) := fun h => nomatch h
theorem Laws.EncodeDecode.viewAcknowledge (core grp flight : Nat) :
    Laws.EncodeDecode.Statement (.viewAcknowledge core grp flight) := fun h => nomatch h
theorem Laws.EncodeDecode.remoteScratchpadAccess (grp flight : Nat) :
    Laws.EncodeDecode.Statement (.remoteScratchpadAccess grp flight) := fun h => nomatch h
theorem Laws.EncodeDecode.multicastPacket (core : Nat) (leg : Leg) (what : PacketFor) (bytes : List Byte) (from_ : List Nat) :
    Laws.EncodeDecode.Statement (.multicastPacket core leg what bytes from_) := fun h => nomatch h
theorem Laws.EncodeDecode.joinRequest (core queue : Nat) (key : MergeKey) :
    Laws.EncodeDecode.Statement (.joinRequest core queue key) := fun h => nomatch h
theorem Laws.EncodeDecode.multicastReply (core : Nat) (key : MergeKey) (bytes : List Byte) (from_ : Nat) :
    Laws.EncodeDecode.Statement (.multicastReply core key bytes from_) := fun h => nomatch h
theorem Laws.EncodeDecode.copyElementMoved (q : Nat) : Laws.EncodeDecode.Statement (.copyElementMoved q) := fun h => nomatch h
theorem Laws.EncodeDecode.reeveFirstTouchMap (u : UnitId) :
    Laws.EncodeDecode.Statement (.reeveFirstTouchMap u) := fun h => nomatch h
theorem Laws.EncodeDecode.gridCompletion (grid : Nat) :
    Laws.EncodeDecode.Statement (.gridCompletion grid) := fun h => nomatch h
theorem Laws.EncodeDecode.launchQueueEntryFreed (vf : Nat) :
    Laws.EncodeDecode.Statement (.launchQueueEntryFreed vf) := fun h => nomatch h
theorem Laws.EncodeDecode.launchRecordValidation (vf : Nat) :
    Laws.EncodeDecode.Statement (.launchRecordValidation vf) := fun h => nomatch h
theorem Laws.EncodeDecode.teamPlacement (grid : Nat) : Laws.EncodeDecode.Statement (.teamPlacement grid) := fun h => nomatch h
theorem Laws.EncodeDecode.wholeGridPlacement (grid : Nat) :
    Laws.EncodeDecode.Statement (.wholeGridPlacement grid) := fun h => nomatch h
theorem Laws.EncodeDecode.nopPacket (q : Nat) : Laws.EncodeDecode.Statement (.nopPacket q) := fun h => nomatch h
theorem Laws.EncodeDecode.launchPacket (q : Nat) : Laws.EncodeDecode.Statement (.launchPacket q) := fun h => nomatch h
theorem Laws.EncodeDecode.waitPacket (q : Nat) : Laws.EncodeDecode.Statement (.waitPacket q) := fun h => nomatch h
theorem Laws.EncodeDecode.signalPacket (q : Nat) : Laws.EncodeDecode.Statement (.signalPacket q) := fun h => nomatch h
theorem Laws.EncodeDecode.barPacketRelease (q : Nat) : Laws.EncodeDecode.Statement (.barPacketRelease q) := fun h => nomatch h
theorem Laws.EncodeDecode.waitWake (q : Nat) : Laws.EncodeDecode.Statement (.waitWake q) := fun h => nomatch h
theorem Laws.EncodeDecode.bringUpStageComplete (r : StageResult) :
    Laws.EncodeDecode.Statement (.bringUpStageComplete r) := fun h => nomatch h
theorem Laws.EncodeDecode.remoteStoreAck (grp flight : Nat) :
    Laws.EncodeDecode.Statement (.remoteStoreAck grp flight) := fun h => nomatch h
theorem Laws.EncodeDecode.collectiveSubmit (grp vf : Nat) (sub : Submission) :
    Laws.EncodeDecode.Statement (.collectiveSubmit grp vf sub) := fun h => nomatch h
theorem Laws.EncodeDecode.hostCxlCacheRequest (line gsz : Nat) (dpage : Bool) :
    Laws.EncodeDecode.Statement (.hostCxlCacheRequest line gsz dpage) := fun h => nomatch h
theorem Laws.EncodeDecode.hostAccess (pa : Nat) (a : ExtAccess) :
    Laws.EncodeDecode.Statement (.hostAccess pa a) := fun h => nomatch h
theorem Laws.EncodeDecode.peerWrite (queby : Bool) (src pa : Nat) (bytes : List Byte) :
    Laws.EncodeDecode.Statement (.peerWrite queby src pa bytes) := fun h => nomatch h
theorem Laws.EncodeDecode.remoteAccess (dev pa : Nat) (a : ExtAccess) :
    Laws.EncodeDecode.Statement (.remoteAccess dev pa a) := fun h => nomatch h
theorem Laws.EncodeDecode.features (q : Nat) : Laws.EncodeDecode.Statement (.features q) := fun h => nomatch h
theorem Laws.EncodeDecode.createCtx (q : Nat) : Laws.EncodeDecode.Statement (.createCtx q) := fun h => nomatch h
theorem Laws.EncodeDecode.destroyCtx (q : Nat) : Laws.EncodeDecode.Statement (.destroyCtx q) := fun h => nomatch h
theorem Laws.EncodeDecode.createQueue (q : Nat) : Laws.EncodeDecode.Statement (.createQueue q) := fun h => nomatch h
theorem Laws.EncodeDecode.destroyQueue (q : Nat) : Laws.EncodeDecode.Statement (.destroyQueue q) := fun h => nomatch h
theorem Laws.EncodeDecode.poolAdd (q : Nat) : Laws.EncodeDecode.Statement (.poolAdd q) := fun h => nomatch h
theorem Laws.EncodeDecode.setWindow (q : Nat) : Laws.EncodeDecode.Statement (.setWindow q) := fun h => nomatch h
theorem Laws.EncodeDecode.resume (q : Nat) : Laws.EncodeDecode.Statement (.resume q) := fun h => nomatch h
theorem Laws.EncodeDecode.repair (q : Nat) : Laws.EncodeDecode.Statement (.repair q) := fun h => nomatch h
theorem Laws.EncodeDecode.invalFn (q : Nat) : Laws.EncodeDecode.Statement (.invalFn q) := fun h => nomatch h
theorem Laws.EncodeDecode.setWeir (q : Nat) : Laws.EncodeDecode.Statement (.setWeir q) := fun h => nomatch h
theorem Laws.EncodeDecode.setTithe (q : Nat) : Laws.EncodeDecode.Statement (.setTithe q) := fun h => nomatch h
theorem Laws.EncodeDecode.setSlots (q : Nat) : Laws.EncodeDecode.Statement (.setSlots q) := fun h => nomatch h
theorem Laws.EncodeDecode.vfReset (q : Nat) : Laws.EncodeDecode.Statement (.vfReset q) := fun h => nomatch h
theorem Laws.EncodeDecode.attest (q : Nat) : Laws.EncodeDecode.Statement (.attest q) := fun h => nomatch h
theorem Laws.EncodeDecode.migrate (q : Nat) : Laws.EncodeDecode.Statement (.migrate q) := fun h => nomatch h
theorem Laws.EncodeDecode.abort (q : Nat) : Laws.EncodeDecode.Statement (.abort q) := fun h => nomatch h
theorem Laws.EncodeDecode.moduleReset : Laws.EncodeDecode.Statement (.moduleReset) := fun h => nomatch h
theorem Laws.EncodeDecode.driverHandshake (vf : Nat) : Laws.EncodeDecode.Statement (.driverHandshake vf) := fun h => nomatch h
theorem Laws.EncodeDecode.registerWrite (r : HostReg) (value : W128) :
    Laws.EncodeDecode.Statement (.registerWrite r value) := fun h => nomatch h
theorem Laws.EncodeDecode.loadObject (vf asid : Nat) (bytes : List Byte) :
    Laws.EncodeDecode.Statement (.loadObject vf asid bytes) := fun h => nomatch h
theorem Laws.EncodeDecode.unloadObject (vf obj : Nat) :
    Laws.EncodeDecode.Statement (.unloadObject vf obj) := fun h => nomatch h
theorem Laws.EncodeDecode.functionLevelReset (vf : Nat) :
    Laws.EncodeDecode.Statement (.functionLevelReset vf) := fun h => nomatch h
theorem Laws.EncodeDecode.doorbell (vf d : Nat) : Laws.EncodeDecode.Statement (.doorbell vf d) := fun h => nomatch h
theorem Laws.EncodeDecode.throttleSample (x : Sample) : Laws.EncodeDecode.Statement (.throttleSample x) := fun h => nomatch h
theorem Laws.EncodeDecode.hostSnoopResponse (line : Nat) (bytes : Tab Byte) :
    Laws.EncodeDecode.Statement (.hostSnoopResponse line bytes) := fun h => nomatch h
theorem Laws.EncodeDecode.peerRead (queby : Bool) (src pa size : Nat) :
    Laws.EncodeDecode.Statement (.peerRead queby src pa size) := fun h => nomatch h
theorem Laws.EncodeDecode.flitReceive (link seq : Nat) (crc : Option Nat) :
    Laws.EncodeDecode.Statement (.flitReceive link seq crc) := fun h => nomatch h
theorem Laws.EncodeDecode.replayRequest (link seq : Nat) :
    Laws.EncodeDecode.Statement (.replayRequest link seq) := fun h => nomatch h
theorem Laws.EncodeDecode.unreachableDevice (dev : Nat) :
    Laws.EncodeDecode.Statement (.unreachableDevice dev) := fun h => nomatch h
theorem Laws.EncodeDecode.timestampExchange (ref : Nat) :
    Laws.EncodeDecode.Statement (.timestampExchange ref) := fun h => nomatch h
theorem Laws.EncodeDecode.errorEvent (u : ErrUnit) (recurs : Bool) :
    Laws.EncodeDecode.Statement (.errorEvent u recurs) := fun h => nomatch h
theorem Laws.EncodeDecode.l1WayGating (core quad : Nat) :
    Laws.EncodeDecode.Statement (.l1WayGating core quad) := fun h => nomatch h
theorem Laws.EncodeDecode.wayWakeEnd (core quad : Nat) :
    Laws.EncodeDecode.Statement (.wayWakeEnd core quad) := fun h => nomatch h
theorem Laws.EncodeDecode.poolUnitGating (core unit : Nat) :
    Laws.EncodeDecode.Statement (.poolUnitGating core unit) := fun h => nomatch h
theorem Laws.EncodeDecode.poolUnitWakeEnd (core unit : Nat) :
    Laws.EncodeDecode.Statement (.poolUnitWakeEnd core unit) := fun h => nomatch h
theorem Laws.EncodeDecode.l1WayWake (core quad : Nat) :
    Laws.EncodeDecode.Statement (.l1WayWake core quad) := fun h => nomatch h
theorem Laws.EncodeDecode.poolUnitWake (core unit : Nat) :
    Laws.EncodeDecode.Statement (.poolUnitWake core unit) := fun h => nomatch h
theorem Laws.EncodeDecode.preemptionRequest (vf core : Nat) :
    Laws.EncodeDecode.Statement (.preemptionRequest vf core) := fun h => nomatch h
theorem Laws.EncodeDecode.contextSave (core : Nat) : Laws.EncodeDecode.Statement (.contextSave core) := fun h => nomatch h
theorem Laws.EncodeDecode.restore (saved core : Nat) : Laws.EncodeDecode.Statement (.restore saved core) := fun h => nomatch h
theorem Laws.EncodeDecode.weirDeadline (vf : Nat) : Laws.EncodeDecode.Statement (.weirDeadline vf) := fun h => nomatch h
theorem Laws.EncodeDecode.residenceEvent (q : Nat) : Laws.EncodeDecode.Statement (.residenceEvent q) := fun h => nomatch h
theorem Laws.EncodeDecode.ageingTick (q : Nat) : Laws.EncodeDecode.Statement (.ageingTick q) := fun h => nomatch h
theorem Laws.EncodeDecode.waitPoll (q : Nat) : Laws.EncodeDecode.Statement (.waitPoll q) := fun h => nomatch h
theorem Laws.EncodeDecode.joinEntryTimeout (slice idx : Nat) :
    Laws.EncodeDecode.Statement (.joinEntryTimeout slice idx) := fun h => nomatch h
theorem Laws.EncodeDecode.joinEntryExpiry (slice idx : Nat) :
    Laws.EncodeDecode.Statement (.joinEntryExpiry slice idx) := fun h => nomatch h
theorem Laws.EncodeDecode.collectiveCompletion (grp : Nat) :
    Laws.EncodeDecode.Statement (.collectiveCompletion grp) := fun h => nomatch h
theorem Laws.EncodeDecode.escalatedFaultResume (g : Nat) :
    Laws.EncodeDecode.Statement (.escalatedFaultResume g) := fun h => nomatch h
theorem Laws.EncodeDecode.copyResume (q : Nat) : Laws.EncodeDecode.Statement (.copyResume q) := fun h => nomatch h
theorem Laws.EncodeDecode.victimUnmap (q : Nat) : Laws.EncodeDecode.Statement (.victimUnmap q) := fun h => nomatch h

end Sys2Proof
end

