-- ==== Sys2Proof/Tests/Slice0.lean ====
section
/-! SUPPORT. Tests on small states, and for each statement a state and operands that meet its hypotheses. The expected
results come from the spec's encoding tables, its rules and hand calculation from them. -/

namespace Sys2Proof.Tests

open Sys2Proof Sys2Proof.Machine

/-! ### Small states -/

/-- The placed unit issues the word `w` with nothing before it. -/
def issuing (w : Nat) : State :=
  { State.reset.withFetchWord 32 w with
    iss := ⟨bootUnit (levelOf (BitVec.ofNat 32 w)), 0x10004, 0x10004, none, 0, false, 0⟩ }

/-- The placed group with its team and grid. -/
def ctx0 : GCtx := ⟨0, bootGroup .g 0, bootTeam .g, bootGrid .g⟩

/-- `issuing w` with the placed group changed by `f`. -/
def issuingG (w : Nat) (f : Group → Group) : State := (issuing w).updGroup 0 f

def ctxG (f : Group → Group) : GCtx := { ctx0 with g := f ctx0.g }

/-- The placed group after an outcome, once its instructions are complete. -/
def landed (o : Out) : Option Group :=
  match o with
  | .next t => (t.group? 0).map fun g => g.flights.foldl Group.land g
  | _ => none

def sAfter (o : Out) (n : Nat) : Option W64 := (landed o).map (·.sregD n)
def vAfter (o : Out) (l n : Nat) : Option W32 := (landed o).map (·.vget l n)
def mAfter (o : Out) (n : Nat) : Option W64 := (landed o).map (·.mreg n)
def pcAfter (o : Out) : Option W64 := (landed o).map (·.ctl.pc)

/-- The cause that stops the placed group after an outcome. -/
def causeAfter (o : Out) : Option W64 := (landed o).bind fun g =>
  match g.st with
  | .stopped _ => some (g.ctl.fcause &&& 0xFFF)
  | _ => none

def stateAfter (o : Out) : State := match o with | .next t => t | _ => State.reset

/-- The word runs as the first instruction after reset. -/
def run (w : Nat) : Out := step (State.reset.withFetchWord 32 w)

/-- The word runs with the placed group changed by `f`. -/
def runG (w : Nat) (f : Group → Group) : Out := step ((State.reset.withFetchWord 32 w).updGroup 0 f)

/-- Register `n` of the lanes from 0 holds the values of a list. -/
def lanesHold (n : Nat) (xs : List W32) (g : Group) : Group :=
  { g with v := xs.zipIdx.foldl (fun t p => t.put 0 (p.2 * 256 + n) p.1) g.v }

theorem issues_of {s : State} {k : Nat} {x : GCtx} {i : Instr}
    (h : s.iss.unit = .group k ∧ s.gctx k = some x ∧ issueTrap s x i = none) : Issues s k x i := ⟨h.1, h.2.1, h.2.2⟩

theorem seqIssues_of {s : State} {u : UnitId} {q : Seq} {i : Instr}
    (h : s.iss.unit = u ∧ s.seq? u = some q ∧ seqTrap s u i = none) : SeqIssues s u q i := ⟨h.1, h.2.1, h.2.2⟩

/-! ### Well-formedness: an ill-formed term for each check -/

theorem test_wf_refuses_scopes : ([.yield .d, .brZ .d (.s 1) 0, .brNz .d (.s 1) 0, .loop .d (.s 1) 0, .jmpr .d (.s 1),
    .callr .d (.s 1), .sadd (.g 1) (.s 1) (.s (.g 0)), .sadd (.k 1) (.k 1) (.v 3), .scmpI64 .eq (.s 1) (.s 1) (.vp 3),
    .ssel (.g 1) (.s 1) (.g 0), .smov (.g 1) (.s (.s 0)), .saddi (.g 1) (.s 1) 0, .lds .b64 (.g 1) (.s 1) 0,
    .sts .b64 (.g 1) (.s 1) 0, .rdsrS (.g 1) 3, .rdsrS (.k 1) 1, .rdsrS (.s 1) 0, .launchD (.s 1)] : List Instr).all
    (fun i => !i.wf) = true := by decide

theorem test_wf_refuses_registers : ([.iadd .w64 1 2 (.v 2), .isub .w64 2 1 (.v 2), .and .w64 2 2 (.v 1), .iabs .w64 2 2,
    .iaddsI .w64 2 2 (.v 2), .imul .w8 2 2 (.v 2), .imulhI .w64 2 2 (.v 2), .bfxI .w16 2 2 2, .popc .w8 2 2, .clz .w64 1 2,
    .sel .w16 2 2 (.v 2), .mov .w64 1 2, .movVs .w8 2 (.s 1), .icmp .eq false .w64 1 3 (.v 2), .cvt .i64 .fp32 1 2,
    .cvt .fp32 .fp32 2 2, .cvt .i32 .n32 2 2, .pack .fp16 2 3, .pack .e4m3 2 2, .unpk .i8 2 4] : List Instr).all
    (fun i => !i.wf) = true := by decide

theorem test_wf_refuses_memory : ([.ld .b64 1 2 (.imm 0), .ld .b128 2 2 (.imm 0), .ld .b32 1 3 (.imm 0), .st .b64 1 2 (.imm 0),
    .ldAcq .b64 1 2 .dev, .stRel .b32 1 3 .dev, .atom .add .i64 1 2 .plain .grp, .atom .add .i32 1 2 .plain .dev,
    .cas .plain .dev 1 2 3, .casW64 .acq .dev 1 2 4, .ldbR .b64 1 2 0, .ldbS .b32 1 3 0, .fence .plain .dev, .pref 3 false,
    .cinv 3 .dev, .cflush 3 .dev, .ldp .b64 1 2 0, .stp .b128 2 2 0, .ldpr .b32 1 3 0, .stpr .b32 1 3 0,
    .dlv .n8 2 2 0, .dlv .b32 2 3 0] : List Instr).all (fun i => !i.wf) = true := by decide

theorem test_wf_refuses_system : ([.mmloop 1 (.s 3) 0, .qtile (.s 0) (.s 3) 0, .tcopy 4 2, .tcopyMAll 8 3 0,
    .tcopyMJoin 4 2 0, .barv 1 (.s 1) 0, .ring 1 (.s 1) 0, .bellr 1 0, .bellw (.s 1) 0, .rdsrV true 1 0, .rdsrV false 1 0x40,
    .wrsrV 1 0x14, .wrsrS (.s 1) 0x22, .takeRun 0, .moduleReset] : List Instr).all (fun i => !i.wf) = true := by decide

/-! ### Decoding: words written out from the encodings of R74 to R91 -/

theorem test_decode_control : decode 0x00A00000 = .instr (.nop .g) ∧ decode 0x01A13FFD = .instr (.brNz .g (.s 4) 0x3FFD) ∧
    decode 0x07A00000 = .instr (.end_ .g) := by decide

theorem test_decode_scalar : decode 0x24404007 = .instr (.smovi (.s 1) 7) ∧
    decode 0x24607F00 = .instr (.slui (.s 1) 0x3F00) := by decide

theorem test_decode_vector : decode 0x40410103 = .instr (.iadd .w8 4 2 (.v 3)) ∧
    decode 0x5C00FFFF = .instr (.movi 3 0x3FFF) := by decide

theorem test_decode_mask : decode 0x68808303 = .instr (.icmp .gt false .w32 2 6 (.s (.s 3))) := by decide

theorem test_decode_float : decode 0x8001C20A = .instr (.fadd 7 4 (.v 10)) := by decide

theorem test_decode_convert : decode 0xA0010182 = .instr (.cvt .fp16 .fp32 4 3) ∧
    decode 0xA7020100 = .instr (.red .fadd 8 2) ∧ decode 0xAC024085 = .instr (.sample 9 1 (.s 5)) := by decide

theorem test_decode_memory : decode 0xC2028100 = .instr (.ld .b32 10 2 (.imm 0)) ∧
    decode 0xC2850305 = .instr (.ld .b64 20 6 (.imm 5)) ∧ decode 0xD9000011 = .instr (.fence .rel .team) := by decide

theorem test_decode_system : decode 0xE0020480 = .instr (.mmldb (.s 8) (.s 9) 0 0) ∧
    decode 0xE4040100 = .instr (.tcopy 16 2) ∧ decode 0xE5000082 = .instr (.binit (.s 1) (.s 2)) ∧
    decode 0xE8824103 = .instr (.dlv .b32 9 2 3) ∧ decode 0xE9008205 = .instr (.hamset 2 (.s 4) (.s 5)) ∧
    decode 0xEA00C205 = .instr (.ring 3 (.s 4) 5) ∧ decode 0xEC802200 = .instr (.launchT (.k 4)) ∧
    decode 0xECA03300 = .instr (.launchD (.g 6)) ∧ decode 0xEE050A80 = .instr (.mapf 20 (.s 21)) ∧
    decode 0xEE200A80 = .instr (.tlbiPage (.s 21)) ∧ decode 0xEE200001 = .instr .tlbiCtx := by decide

/-- R74, R92: a zero word, a reserved OP, a reserved bit and an operand that its entry forbids hold no instruction. -/
theorem test_decode_refuses : decode 0 = .illegal .zeroWord ∧ decode 0xFFE00000 = .illegal .opReserved ∧
    decode 0xFFC64000 = .prefixWord ∧ decode 0x00A00001 ≠ .instr (.nop .g) := by decide

theorem test_decode_table_word : decodeTableWord 32 0x24404007 = some (.smovi (.s 1) 7) ∧ decodeTableWord 32 0 = none := by
  decide

/-! ### One step -/

/-- R137: SMOVI sign-extends its 14 bits, SLUI shifts by 14 and adds them unsigned. -/
theorem test_smovi : sAfter (run 0x24404007) 1 = some 7 ∧ sAfter (run 0x24407FFF) 1 = some 0xFFFFFFFFFFFFFFFF := by decide

theorem test_slui : sAfter (runG 0x24607F00 fun g => { g with sreg := [(1, 1)] }) 1 = some 0x7F00 := by decide

/-- R142, R42: 8-bit elements wrap apart: 0xFF + 0x01 in element 0 does not reach element 1. -/
theorem test_iadd_wraps : vAfter (runG 0x40410103 (lanesHold 2 [0x000000FF] ∘ lanesHold 3 [0x00000001])) 0 4 = some 0 := by
  decide

/-- R61, R107: BR.NZ taken goes to slot 1 of the sheaf that it names; -3 sheaves leave the code range. -/
theorem test_branch : pcAfter (run 0x01A13FFD) = some 0x10008 ∧
    causeAfter (runG 0x01A13FFD fun g => { g with sreg := [(4, 1)] }) = some 0x109 := by decide

/-- R92: a zero word is an illegal instruction. -/
theorem test_zero_word : causeAfter (run 0) = some 0x101 := by decide

/-- R40: 1.0 + 2.0 = 3.0 in FP32. -/
theorem test_fadd : vAfter (runG 0x8001C20A (lanesHold 4 [0x3F800000] ∘ lanesHold 10 [0x40000000])) 0 7 = some 0x40400000 := by
  decide

/-- R177: weights 0.25, 0.5, -1.0, 0.25 with u = 0.5 choose lane 1, and the negative weight raises INV. -/
theorem test_sample :
    let o := runG 0xAC024085 (lanesHold 1 [0x3E800000, 0x3F000000, 0xBF800000, 0x3E800000] ∘
      fun g => { g with sreg := [(5, 0x80000000)] })
    vAfter o 0 9 = some 1 ∧ vAfter o 15 9 = some 1 ∧ (landed o).map (·.fstat) = some 16 := by decide

/-- R180: LD.B64 at an address of 4 is misaligned in lane 0. -/
theorem test_misaligned : causeAfter (runG 0xC2850305 (lanesHold 6 [4])) = some 0x00D := by decide

/-- R65, R142: MOVI writes every active lane, and only those that m0 names. -/
theorem test_movi : vAfter (runG 0x5C00FFFF fun g => { g with m := [(0, 1)] }) 0 3 = some 0xFFFFFFFF ∧
    vAfter (runG 0x5C00FFFF fun g => { g with m := [(0, 1)] }) 1 3 = some 0 := by decide

/-- R118: END.G begins the group's retirement. -/
theorem test_end : (landed (run 0x07A00000)).map (·.st) = some .retiring := by decide

/-! ### Every instruction of a group issues in some state, with no check of R93 against it -/

/-- The instruction `i` issues in the placed group. -/
def issuesHere (i : Instr) : Bool :=
  issueTrap (issuing (encode i).toNat) ctx0 i == none && (issuing (encode i).toNat).gctx 0 == some ctx0

theorem issue_control : ([.nop .g, .brZ .g (.s 1) 0, .brNz .g (.s 1) 0, .brm .g false false 1 0, .jmp .g 0, .jmpr .g (.s 1),
    .call .g 0, .callr .g (.s 1), .ret .g, .loop .g (.s 1) 0, .next .g, .brk .g 0, .skip 1 0, .exit, .end_ .g, .revote .g,
    .fret .g, .win 7, .yield .g, .trap .g 5] : List Instr).all issuesHere = true := by decide

theorem issue_scalar : ([.sadd (.s 1) (.s 2) (.s (.s 3)), .ssub (.s 1) (.s 2) (.v 3), .smul (.s 1) (.s 2) (.vp 4),
    .smulhI64 (.s 1) (.s 2) (.s (.s 3)), .smulhN64 (.s 1) (.s 2) (.s (.s 3)), .sand (.s 1) (.s 2) (.s (.s 3)),
    .sor (.s 1) (.s 2) (.s (.s 3)), .sxor (.s 1) (.s 2) (.s (.s 3)), .sshl (.s 1) (.s 2) (.s (.s 3)),
    .sshr (.s 1) (.s 2) (.s (.s 3)), .ssar (.s 1) (.s 2) (.s (.s 3)), .sminI64 (.s 1) (.s 2) (.s (.s 3)),
    .sminN64 (.s 1) (.s 2) (.s (.s 3)), .smaxI64 (.s 1) (.s 2) (.s (.s 3)), .smaxN64 (.s 1) (.s 2) (.s (.s 3)),
    .scmpI64 .lt (.s 1) (.s 2) (.s (.s 3)), .scmpN64 .ge (.s 1) (.s 2) (.s (.s 3)), .ssel (.s 1) (.s 2) (.k 3),
    .smov (.s 1) (.s (.g 3)), .smovi (.s 1) 7, .slui (.s 1) 7, .saddi (.s 1) (.s 2) 7] : List Instr).all issuesHere = true := by
  decide

theorem issue_vector : ([.iadd .w8 4 2 (.v 3), .isub .w64 4 2 (.v 6), .iaddsI .w16 4 2 (.v 3), .iaddsN .w8 4 2 (.v 3),
    .isubsI .w32 4 2 (.s (.s 3)), .isubsN .w8 4 2 (.v 3), .imul .w64 4 2 (.v 6), .imulhI .w16 4 2 (.v 3),
    .imulhN .w32 4 2 (.v 3), .imad .w16 4 2 (.v 3), .iminI .w8 4 2 (.v 3), .iminN .w8 4 2 (.v 3), .imaxI .w8 4 2 (.v 3),
    .imaxN .w8 4 2 (.v 3)] : List Instr).all issuesHere = true := by decide

theorem issue_vector_bits : ([.iabs .w8 4 2, .and .w64 4 2 (.v 6), .or .w32 4 2 (.v 3), .xor .w16 4 2 (.v 3),
    .shl .w8 4 2 (.v 3), .shr .w8 4 2 (.v 3), .sar .w8 4 2 (.v 3), .bfxI .w64 4 2 3, .bfxN .w32 4 2 3, .bfi .w32 4 2 3,
    .popc .w64 4 2, .clz .w32 4 2, .sel .w64 4 2 (.v 6), .mov .w64 4 2, .movVs .w32 4 (.s 3), .movi 127 1] : List Instr).all
    issuesHere = true := by decide

theorem issue_mask : ([.icmp .ge true .w16 7 2 (.v 3), .fcmp .un 7 2 (.v 3), .ftst 7 2 0x7F, .mand 1 2 3, .mor 1 2 3,
    .mxor 1 2 3, .mandn 1 2 3, .mnot 1 2, .mmov 1 2, .mset 1 (.s 2), .mget 1 2, .mpop 1 2, .mfirst 1 2] : List Instr).all
    issuesHere = true := by decide

theorem issue_float : ([.fadd 7 4 (.v 10), .fsub 7 4 (.s (.s 1)), .fmul 7 4 (.v 10), .ffma 7 4 (.v 10), .fmin 7 4 (.v 10),
    .fmax 7 4 (.v 10), .frnd 7 4, .fclass 7 4, .hadd2 .fp16 7 4 10, .hmul2 .bf16 7 4 10, .hfma2 .fp16 7 4 10,
    .hmax2 .bf16 7 4 10] : List Instr).all issuesHere = true := by decide

theorem issue_convert : ([.cvt .i64 .fp32 4 3, .cvt .e4m3 .n64 4 2, .pack .fp16 5 4, .unpk .n8 8 3, .exp2 5 4, .log2 5 4,
    .rcp 5 4, .rsq 5 4, .sqrt 5 4, .sint 5 4, .cost 5 4, .tanh 5 4, .shfl .up 5 4 (.v 3), .bcast 5 4 15, .red .fadd 8 2,
    .scan .fadd 8 2, .voteAny 5 4, .voteAll 5 4, .voteEq 5 4, .ballot 5 4, .sample 9 1 (.s 5)] : List Instr).all
    issuesHere = true := by decide

theorem issue_memory : ([.ld .b128 4 2 (.reg 3), .ldAcq .b32 5 2 .dev, .st .n8 5 2 (.imm 9), .stRel .b64 6 2 .team,
    .atom .add .n64 6 2 .acqrel .dev, .cas .plain .grp 5 2 7, .casW64 .rel .clu 6 2 8, .ldbR .b32 5 2 1, .ldbS .b32 5 2 1,
    .lds .i16 (.s 1) (.s 2) 0x7F, .sts .b64 (.s 1) (.k 2) 1, .fence .acqrel .dev, .pref 2 true, .cinv 2 .dev, .cflush 2 .team,
    .ldp .b128 4 3 0, .stp .n16 5 3 1, .atompI32 .min 5 3 2, .atompN32 .max 5 3 3, .ldpr .b32 5 2 0, .stpr .b64 6 2 1] :
    List Instr).all issuesHere = true := by decide

theorem issue_system : ([.mmldb (.s 8) (.s 9) 0 7, .mmloop 5 (.s 8) 0, .mmzero 0 0, .amov 5 6, .anrw 5 6 (.s 7),
    .qtile (.s 7) (.s 8) 1, .rqt (.s 1) (.s 2) true, .tcopy 16 2, .tcopyMAll 16 2 3, .tcopyMJoin 16 2 3, .binit (.s 1) (.s 2),
    .barv 1 (.s 2) 1, .bexp (.s 1) (.s 2), .bwait (.s 1) (.s 2), .btest 1 (.s 2) (.s 3), .feedget 1 0, .feedput 0 (.s 1),
    .feedpop 1 0, .feedrel 0 (.s 1), .dlv .b32 9 2 3, .hamset 2 (.s 4) (.s 5), .hamand 1 2 3, .ring 3 (.s 4) 5, .bellr 3 63,
    .bellw (.s 3) 1, .rdsrV true 4 0x13, .rdsrS (.s 3) 0x10, .wrsrV 3 0x22, .wrsrS (.s 3) 0x14] : List Instr).all
    issuesHere = true := by decide

/-- A frame of the supervisor handler, in which MAPF and TLBI may run (R200, R401). -/
def supFrame : SFrame := ⟨0x10004, 0xFFFF, [], [], [], 0, 0, [], none, [], false, false⟩

theorem issue_supervisor : ([.mapf 20 (.s 21), .tlbiPage (.s 21), .tlbiCtx] : List Instr).all (fun i =>
    issueTrap (issuingG (encode i).toNat fun g => { g with sframe := some supFrame })
      (ctxG fun g => { g with sframe := some supFrame }) i == none) = true := by decide

/-- The instruction `i` executes in the placed team or grid sequencer. -/
def seqIssuesHere (i : Instr) : Bool :=
  let s := issuing (encode i).toNat
  seqTrap s s.iss.unit i == none && (s.seq? s.iss.unit).isSome

theorem issue_team : ([.nop .t, .brZ .t (.k 1) 0, .brm .t true true 1 0, .jmpr .t (.s 1), .callr .t (.k 1), .ret .t,
    .loop .t (.k 1) 0, .next .t, .brk .t 0, .end_ .t, .revote .t, .fret .t, .yield .t, .trap .t 5,
    .sadd (.k 1) (.s 2) (.s (.g 3)), .smovi (.k 1) 7, .lds .b64 (.k 1) (.k 2) 0, .sts .b64 (.k 1) (.k 2) 0, .rdsrS (.k 1) 0x13,
    .launchT (.k 4)] : List Instr).all seqIssuesHere = true := by decide

theorem issue_grid : ([.nop .d, .brNz .d (.g 1) 0, .brm .d false true 1 0, .jmp .d 0, .call .d 0, .ret .d, .loop .d (.g 1) 0,
    .next .d, .brk .d 0, .end_ .d, .revote .d, .fret .d, .trap .d 5, .ssel (.g 1) (.g 2) (.k 3), .saddi (.g 1) (.k 2) 7,
    .lds .b64 (.g 1) (.g 2) 0, .sts .b64 (.g 1) (.g 2) 0, .rdsrS (.g 1) 0x18, .launchD (.g 6)] : List Instr).all
    seqIssuesHere = true := by decide

/-! ### A state and operands that meet the hypotheses of each statement -/

/-- Lane registers 2 and 3 hold values in lanes 0 and 1, scalar 2 and 4 too. -/
def filled (g : Group) : Group :=
  { lanesHold 3 [5, 6] (lanesHold 2 [7, 7] g) with sreg := [(2, 9), (4, 1)] }

theorem meets_ScalarResult :
    (∃ f, scalarRule (.smovi (.s 1) 7) = some (.s 1, f)) ∧ Issues (issuing 0x24404007) 0 ctx0 (.smovi (.s 1) 7) ∧
    (∃ f, scalarRule (.ssel (.s 1) (.s 2) (.k 3)) = some (.s 1, f)) ∧
    Issues (issuing (encode (.ssel (.s 1) (.s 2) (.k 3))).toNat) 0 ctx0 (.ssel (.s 1) (.s 2) (.k 3)) :=
  ⟨⟨_, rfl⟩, issues_of (by decide), ⟨_, rfl⟩, issues_of (by decide)⟩

/-- SSUB s1, s2, v3 in a group changed by `f`. -/
def lanesDo (f : Group → Group) : State := issuingG (encode (.ssub (.s 1) (.s 2) (.v 3))).toNat f

/-- No active lane; lanes that agree; lanes 0 and 1 that differ. -/
theorem meets_LaneSourceResult :
    (∃ f, twoRule (.ssub (.s 1) (.s 2) (.v 3)) = some (.s 1, .s 2, .v 3, f)) ∧
    (∃ n : VReg, SSrc.v 3 = .v n ∧ (fun l => (ctx0.g.vreg l 3).signExtend 64) = fun l => (ctx0.g.vreg l n.toNat).signExtend 64) ∧
    Issues (lanesDo fun g => { g with m := [] }) 0 (ctxG fun g => { g with m := [] }) (.ssub (.s 1) (.s 2) (.v 3)) ∧
    lanesOf 16 ((ctxG fun g => { g with m := [] }).g.active 0) = [] ∧
    Issues (lanesDo id) 0 ctx0 (.ssub (.s 1) (.s 2) (.v 3)) ∧ lanesOf 16 (ctx0.g.active 0) = List.range 16 ∧
    Issues (lanesDo filled) 0 (ctxG filled) (.ssub (.s 1) (.s 2) (.v 3)) ∧
    (ctxG filled).g.vreg 0 3 ≠ (ctxG filled).g.vreg 1 3 :=
  ⟨⟨_, rfl⟩, ⟨3, rfl, rfl⟩, issues_of (by decide), by decide, issues_of (by decide), by decide, issues_of (by decide),
    by decide⟩

/-- `issuing w` with the placed team changed by `f`. -/
def issuingT (w : Nat) (f : Team → Team) : State := (issuing w).updTeam 0 f

def issuingD (w : Nat) (f : Grid → Grid) : State := (issuing w).updGrid 0 f

/-- Every group of the team still has runs that name versions 0 to 7. -/
def allNamed (s : State) : State :=
  s.updGroup 0 fun g => { g with race := (List.range 8).map fun v => .run ⟨0x10004, 0x10014, v, .none, false⟩ }

/-- A run names the current version; none is named; every version is named. -/
theorem meets_SequencerWrite :
    let i : Instr := .smovi (.k 1) 7
    let s := issuing (encode i).toNat
    let t := s.updGroup 0 fun g => { g with race := [.run ⟨0x10004, 0x10014, 0, .none, false⟩] }
    let q := (bootTeam .t).seq
    (∃ f, scalarRule i = some (.k 1, f)) ∧ SeqIssues s (.team 0) q i ∧ named s (.team 0) q.cur = false ∧
    SeqIssues t (.team 0) q i ∧ named t (.team 0) q.cur = true ∧ (freeVersion t (.team 0) q).isSome = true ∧
    SeqIssues (allNamed s) (.team 0) q i ∧ freeVersion (allNamed s) (.team 0) q = none :=
  ⟨⟨_, rfl⟩, seqIssues_of (by decide), by decide, seqIssues_of (by decide), by decide, by decide, seqIssues_of (by decide),
    by decide⟩

theorem meets_VoteRecord : (15 < 16) ∧ (2 < 2 ^ 16) ∧
    ((2, (1 : W64)) :: [(63, 1), (64, 3), (2 ^ 16 - 1, 1)]).Pairwise (fun p q => p.1 < q.1) ∧
    ∀ p ∈ [(63, (1 : W64)), (64, 3), (2 ^ 16 - 1, 1)], p.1 < 2 ^ 16 := by decide

/-- A lane source, a scalar source and a pair. -/
theorem meets_VectorResult :
    (∃ f, vecRule (.iadd .w8 4 2 (.v 3)) = some (.w8, 4, 2, .v 3, f)) ∧ (Instr.iadd .w8 4 2 (.v 3)).wf = true ∧
    Issues (issuing 0x40410103) 0 ctx0 (.iadd .w8 4 2 (.v 3)) ∧
    (∃ f, vecRule (.and .w64 4 2 (.s (.s 3))) = some (.w64, 4, 2, .s (.s 3), f)) ∧
    Issues (issuing (encode (.and .w64 4 2 (.s (.s 3)))).toNat) 0 ctx0 (.and .w64 4 2 (.s (.s 3))) :=
  ⟨⟨_, rfl⟩, rfl, issues_of (by decide), ⟨_, rfl⟩, issues_of (by decide)⟩

theorem meets_SelectResult : (Instr.sel .w64 4 2 (.v 6)).wf = true ∧
    Issues (issuing (encode (.sel .w64 4 2 (.v 6))).toNat) 0 ctx0 (.sel .w64 4 2 (.v 6)) := ⟨rfl, issues_of (by decide)⟩

theorem meets_MaskResult :
    let s := issuing 0x68808303
    (∃ p q, maskRule s ctx0 (.icmp .gt false .w32 2 6 (.s (.s 3))) = some (2, p, q)) ∧
    (Instr.icmp .gt false .w32 2 6 (.s (.s 3))).wf = true ∧ Issues s 0 ctx0 (.icmp .gt false .w32 2 6 (.s (.s 3))) :=
  ⟨⟨_, _, rfl⟩, rfl, issues_of (by decide)⟩

theorem meets_MaskMoves :
    (∃ v, maskMove ctx0 (.mandn 1 2 3) = some (1, v)) ∧
    Issues (issuing (encode (.mandn 1 2 3)).toNat) 0 ctx0 (.mandn 1 2 3) ∧
    (∃ v, countRule (issuing (encode (.mfirst 1 2)).toNat) ctx0 (.mfirst 1 2) = some (1, v)) ∧
    Issues (issuing (encode (.mfirst 1 2)).toNat) 0 ctx0 (.mfirst 1 2) :=
  ⟨⟨_, rfl⟩, issues_of (by decide), ⟨_, rfl⟩, issues_of (by decide)⟩

theorem meets_FloatResult :
    (∃ f, fpRule (.fadd 7 4 (.v 10)) = some (7, 4, .v 10, 1, f)) ∧ Issues (issuing 0x8001C20A) 0 ctx0 (.fadd 7 4 (.v 10)) ∧
    (∃ f, fpRule (.hadd2 .fp16 7 4 10) = some (7, 4, .v 10, 2, f)) ∧
    Issues (issuing (encode (.hadd2 .fp16 7 4 10)).toNat) 0 ctx0 (.hadd2 .fp16 7 4 10) :=
  ⟨⟨_, rfl⟩, issues_of (by decide), ⟨_, rfl⟩, issues_of (by decide)⟩

theorem meets_ConvertResult :
    Issues (issuing 0xA0010182) 0 ctx0 (.cvt .fp16 .fp32 4 3) ∧ (Instr.cvt .fp16 .fp32 4 3).wf = true ∧
    Issues (issuing (encode (.cvt .i64 .fp32 4 3)).toNat) 0 ctx0 (.cvt .i64 .fp32 4 3) :=
  ⟨issues_of (by decide), rfl, issues_of (by decide)⟩

theorem meets_PackResult : Issues (issuing (encode (.pack .e4m3 5 4)).toNat) 0 ctx0 (.pack .e4m3 5 4) := issues_of (by decide)

theorem meets_UnpackResult : Issues (issuing (encode (.unpk .n8 8 3)).toNat) 0 ctx0 (.unpk .n8 8 3) := issues_of (by decide)

theorem meets_CrossLaneResult :
    (∃ v f, crossRule (issuing 0xA7020100) ctx0 (.red .fadd 8 2) = some (8, v, f)) ∧
    Issues (issuing 0xA7020100) 0 ctx0 (.red .fadd 8 2) ∧ Issues (issuing 0xAC024085) 0 ctx0 (.sample 9 1 (.s 5)) :=
  ⟨⟨_, _, rfl⟩, issues_of (by decide), issues_of (by decide)⟩

/-! Control. The code range is 0x10004 to 0x10010: displacement 0 names slot 1, displacement 1 lies outside. -/

/-- The control instruction `i` of the placed group, whose control state is `c`. -/
def ctlState (i : Instr) (c : Ctl) : State := issuingG (encode i).toNat fun g => { g with ctl := c }

def ctlCtx (c : Ctl) : GCtx := ctxG fun g => { g with ctl := c }

theorem ctlIssues_of {i : Instr} {c : Ctl} (h : (ctlState i c).iss.unit = .group 0 ∧ (ctlState i c).gctx 0 = some (ctlCtx c) ∧
    issueTrap (ctlState i c) (ctlCtx c) i = none) : CtlIssues (ctlState i c) i (ctlCtx c).rd bootKcb c := by
  have h1 := h.1
  unfold CtlIssues
  rw [h1]
  exact ⟨ctlCtx c, issues_of h, rfl, rfl, rfl⟩

/-- The same of the placed team sequencer. -/
theorem ctlIssues_team {i : Instr} {s : State} {q : Seq} (h : s.iss.unit = .team 0 ∧ s.seq? (.team 0) = some q ∧
    seqTrap s (.team 0) i = none ∧ s.kcb? (.team 0) = some bootKcb) : CtlIssues s i (seqRead s (.team 0) i) bootKcb q.ctl := by
  have h1 := h.1
  unfold CtlIssues
  rw [h1]
  exact ⟨q, ⟨h1, h.2.1, h.2.2.1⟩, rfl, h.2.2.2, rfl⟩

def base : Ctl := Ctl.start 0x10004

/-- A branch that falls through, one to slot 1, and one outside the code range; at the team too. -/
theorem meets_BranchesAndJumps :
    CtlIssues (ctlState (.brNz .g (.s 1) 0) base) (.brNz .g (.s 1) 0) (ctlCtx base).rd bootKcb base ∧
    jumpRule 0x10004 (ctlCtx base).rd (.brNz .g (.s 1) 0) = some none ∧
    CtlIssues (ctlState (.jmp .g 0) base) (.jmp .g 0) (ctlCtx base).rd bootKcb base ∧
    jumpRule 0x10004 (ctlCtx base).rd (.jmp .g 0) = some (some (0x10004, false)) ∧ targetOk bootKcb (0x10004, false) ∧
    CtlIssues (ctlState (.jmp .g 1) base) (.jmp .g 1) (ctlCtx base).rd bootKcb base ∧
    jumpRule 0x10004 (ctlCtx base).rd (.jmp .g 1) = some (some (0x10014, false)) ∧ ¬ targetOk bootKcb (0x10014, false) ∧
    CtlIssues (issuing (encode (.nop .t)).toNat) (.nop .t) (seqRead (issuing (encode (.nop .t)).toNat) (.team 0) (.nop .t)) bootKcb
      (bootTeam .t).seq.ctl :=
  ⟨ctlIssues_of (by decide), by decide, ctlIssues_of (by decide), by decide, by unfold targetOk codeOk; decide,
    ctlIssues_of (by decide), by decide, by unfold targetOk codeOk; decide,
    ctlIssues_team (q := (bootTeam .t).seq) (by decide)⟩

/-- BRM in a group with its mask bit set, with no live lane, and at a team whose vote is taken. -/
theorem meets_BranchOnMask :
    let i : Instr := .brm .g false false 1 0
    let g (g : Group) : Group := { g with m := [(0, 0xFFFF), (1, 1)] }
    let s := issuingG (encode i).toNat g
    let dead (h : Group) : Group := { g h with live := 0 }
    let j : Instr := .brm .t true false 1 0
    let q : Seq := { (bootTeam .t).seq with voted := some [1, 0, 1] }
    let t := (issuing (encode j).toNat).updSeq (.team 0) fun _ => q
    CtlIssues s i (ctxG g).rd bootKcb (ctxG g).g.ctl ∧ s.gctx 0 = some (ctxG g) ∧
    ((ctxG g).g.mreg 1 &&& (ctxG g).g.live != 0) = true ∧ codeOk bootKcb (sheafTarget 0x10004 0) ∧
    CtlIssues (issuingG (encode i).toNat dead) i (ctxG dead).rd bootKcb (ctxG dead).g.ctl ∧ (ctxG dead).g.live = 0 ∧
    CtlIssues t j (seqRead t (.team 0) j) bootKcb q.ctl ∧ t.seq? (.team 0) = some q ∧ q.voted = some [1, 0, 1] :=
  ⟨⟨_, issues_of (by decide), rfl, rfl, rfl⟩, by decide, by decide, by unfold codeOk; decide,
    ⟨_, issues_of (by decide), rfl, rfl, rfl⟩, by decide, ctlIssues_team (by decide), by decide, rfl⟩

/-- A control state with `n` calls and a loop entry for each depth to `d`. -/
def deep (n d : Nat) : Ctl :=
  { base with calls := (List.range (min n 8)).map fun _ => 0x10008, spill := (List.range (n - 8)).map fun _ => 0x10008
              loops := (List.range d).map fun _ => ⟨1, 0x10008⟩ }

/-- Calls with 0, 39 and 40 entries in use and to a bad target; returns with none in use and with one, good and bad. -/
theorem meets_CallsAndReturns :
    CtlIssues (ctlState (.call .g 0) base) (.call .g 0) (ctlCtx base).rd bootKcb base ∧
    CtlIssues (ctlState (.callr .g (.s 1)) (deep 39 6)) (.callr .g (.s 1)) (ctlCtx (deep 39 6)).rd bootKcb (deep 39 6) ∧
    (callStack (deep 39 6)).length = 39 ∧
    CtlIssues (ctlState (.call .g 0) (deep 40 0)) (.call .g 0) (ctlCtx (deep 40 0)).rd bootKcb (deep 40 0) ∧
    (callStack (deep 40 0)).length = 40 ∧ targetOk bootKcb (sheafTarget 0x10004 0, false) ∧
    CtlIssues (ctlState (.call .g 1) base) (.call .g 1) (ctlCtx base).rd bootKcb base ∧
    ¬ targetOk bootKcb (sheafTarget 0x10004 1, false) ∧
    CtlIssues (ctlState (.ret .g) base) (.ret .g) (ctlCtx base).rd bootKcb base ∧ callStack base = [] ∧
    CtlIssues (ctlState (.ret .g) (deep 1 2)) (.ret .g) (ctlCtx (deep 1 2)).rd bootKcb (deep 1 2) ∧ codeOk bootKcb 0x10008 ∧
    CtlIssues (ctlState (.ret .g) { base with calls := [0] }) (.ret .g) (ctlCtx { base with calls := [0] }).rd bootKcb
      { base with calls := [0] } ∧ ¬ codeOk bootKcb 0 :=
  ⟨ctlIssues_of (by decide), ctlIssues_of (by decide), by decide, ctlIssues_of (by decide), by decide,
    by unfold targetOk codeOk; decide, ctlIssues_of (by decide), by unfold targetOk codeOk; decide, ctlIssues_of (by decide),
    by decide, ctlIssues_of (by decide), by unfold codeOk; decide, ctlIssues_of (by decide), by unfold codeOk; decide⟩

/-- LOOP with a zero count to a good and a bad exit, and with a count at depths 5 and 6. -/
theorem meets_Loops_loop :
    let x (d : Nat) : GCtx := ctxG fun g => { g with ctl := deep 0 d, sreg := [(1, 1)] }
    let s (d : Nat) := issuingG (encode (.loop .g (.s 1) 0)).toNat fun g => { g with ctl := deep 0 d, sreg := [(1, 1)] }
    CtlIssues (ctlState (.loop .g (.s 1) 0) base) (.loop .g (.s 1) 0) (ctlCtx base).rd bootKcb base ∧
    (ctlCtx base).rd (.s 1) = 0 ∧ codeOk bootKcb (sheafTarget 0x10004 0) ∧
    CtlIssues (ctlState (.loop .g (.s 1) 1) base) (.loop .g (.s 1) 1) (ctlCtx base).rd bootKcb base ∧
    ¬ codeOk bootKcb (sheafTarget 0x10004 1) ∧
    CtlIssues (s 5) (.loop .g (.s 1) 0) (x 5).rd bootKcb (deep 0 5) ∧ (x 5).rd (.s 1) ≠ 0 ∧
    CtlIssues (s 6) (.loop .g (.s 1) 0) (x 6).rd bootKcb (deep 0 6) ∧ (deep 0 6).loops.length = 6 :=
  ⟨ctlIssues_of (by decide), by decide, by unfold codeOk; decide, ctlIssues_of (by decide), by unfold codeOk; decide,
    ⟨_, issues_of (by decide), rfl, rfl, rfl⟩, by decide, ⟨_, issues_of (by decide), rfl, rfl, rfl⟩, by decide⟩

/-- NEXT and BRK with no loop of the frame, and with one. -/
theorem meets_Loops_next :
    CtlIssues (ctlState (.next .g) base) (.next .g) (ctlCtx base).rd bootKcb base ∧ base.loops.length ≤ recordedDepth base ∧
    CtlIssues (ctlState (.next .g) (deep 0 1)) (.next .g) (ctlCtx (deep 0 1)).rd bootKcb (deep 0 1) ∧
    recordedDepth (deep 0 1) < (deep 0 1).loops.length ∧
    CtlIssues (ctlState (.brk .g 0) base) (.brk .g 0) (ctlCtx base).rd bootKcb base ∧
    CtlIssues (ctlState (.brk .g 0) (deep 0 6)) (.brk .g 0) (ctlCtx (deep 0 6)).rd bootKcb (deep 0 6) ∧
    CtlIssues (ctlState (.brk .g 1) (deep 1 2)) (.brk .g 1) (ctlCtx (deep 1 2)).rd bootKcb (deep 1 2) ∧
    recordedDepth (deep 1 2) < (deep 1 2).loops.length ∧ ¬ codeOk bootKcb (sheafTarget 0x10004 1) :=
  ⟨ctlIssues_of (by decide), by decide, ctlIssues_of (by decide), by decide, ctlIssues_of (by decide),
    ctlIssues_of (by decide), ctlIssues_of (by decide), by decide, by unfold codeOk; decide⟩

/-- SKIP with no lane to a bad target and with a lane; WIN 7 within the allocation and beyond it; YIELD. -/
theorem meets_SkipWindowYield :
    let on (g : Group) : Group := { g with m := [(0, 0xFFFF), (1, 1)] }
    let small (g : Group) : Group := { g with alloc := 224 }
    let y := issuing (encode (.yield .t)).toNat
    Issues (issuing (encode (.skip 1 1)).toNat) 0 ctx0 (.skip 1 1) ∧ ctx0.g.mreg 1 &&& ctx0.g.live = 0 ∧
    ¬ codeOk ctx0.gr.kcb (sheafTarget 0x10004 1) ∧
    Issues (issuingG (encode (.skip 1 1)).toNat on) 0 (ctxG on) (.skip 1 1) ∧ (ctxG on).g.mreg 1 &&& (ctxG on).g.live ≠ 0 ∧
    Issues (issuing (encode (.win 7)).toNat) 0 ctx0 (.win 7) ∧ 32 * (7 : BitVec 3).toNat < ctx0.g.alloc ∧
    Issues (issuingG (encode (.win 7)).toNat small) 0 (ctxG small) (.win 7) ∧ (ctxG small).g.alloc ≤ 32 * (7 : BitVec 3).toNat ∧
    Issues (issuing (encode (.yield .g)).toNat) 0 ctx0 (.yield .g) ∧ SeqIssues y (.team 0) (bootTeam .t).seq (.yield .t) ∧
    SeqIssues (y.updSeq (.team 0) fun q => { q with stopReq := .preempt }) (.team 0)
      { (bootTeam .t).seq with stopReq := .preempt } (.yield .t) :=
  ⟨issues_of (by decide), by decide, by unfold codeOk; decide, issues_of (by decide), by decide, issues_of (by decide),
    by decide, issues_of (by decide), by decide, issues_of (by decide), seqIssues_of (by decide), seqIssues_of (by decide)⟩

/-- All lanes leave; lane 0 alone leaves. -/
theorem meets_Exit :
    let one (g : Group) : Group := { g with m := [(0, 1)] }
    Issues (issuing (encode .exit).toNat) 0 ctx0 .exit ∧
    ctx0.g.live &&& ~~~(ctx0.g.mreg (IX.of (issuing (encode .exit).toNat) ctx0).mask) = 0 ∧
    Issues (issuingG (encode .exit).toNat one) 0 (ctxG one) .exit ∧
    (ctxG one).g.live &&& ~~~((ctxG one).g.mreg (IX.of (issuingG (encode .exit).toNat one) (ctxG one)).mask) ≠ 0 :=
  ⟨issues_of (by decide), by decide, issues_of (by decide), by decide⟩

theorem meets_Ends :
    let t := issuing (encode (.end_ .t)).toNat
    let d := issuing (encode (.end_ .d)).toNat
    Issues (issuing 0x07A00000) 0 ctx0 (.end_ .g) ∧ SeqIssues t (.team 0) (bootTeam .t).seq (.end_ .t) ∧
    t.team? 0 = some (bootTeam .t) ∧ (bootTeam .t).activeG.Nodup ∧ SeqIssues d (.grid 0) (bootGrid .d).seq (.end_ .d) ∧
    d.grid? 0 = some (bootGrid .d) ∧ (bootGrid .d).teams.Nodup :=
  ⟨issues_of (by decide), seqIssues_of (by decide), by decide, by decide, seqIssues_of (by decide), by decide, by decide⟩

/-- A word with a field that its entry does not allow: NOP with an operand bit, alone and behind a prefix; EXIT.L with one. -/
theorem meets_TrapAndIllegal :
    let fields (w : W32) : Bool := match decode w with | .illegal (.fields _) => true | _ => false
    let p : Prefix := ⟨0, 0, false, 0, 0⟩
    CtlIssues (ctlState (.trap .g 0x3FFF) base) (.trap .g 0x3FFF) (ctlCtx base).rd bootKcb base ∧
    (issuing 0).ctl? (issuing 0).iss.unit = some base ∧ (issuing 0).iss.defect = false ∧
    ({ issuing 0 with iss := { (issuing 0).iss with defect := true } } : State).iss.defect = true ∧
    fields (encode .exit ||| 1) = true ∧ (raw (encode .exit ||| 1)).map laneScope = some true ∧
    fields 0x00A00001 = true ∧ (raw 0x00A00001).map laneScope = some false ∧
    (raw 0x00A00001).map (fun i => pfxOk i p) = some false ∧
    (raw 0x00A00001).map (fun i => (featureTrap (issuing 0) (.group 0) (featuresAt i none)).isNone) = some true :=
  ⟨ctlIssues_of (by decide), by decide, by decide, by decide, by decide, by decide, by decide, by decide, by decide, by decide⟩

theorem meets_SequencerFault :
    let s := issuing (encode (.nop .t)).toNat
    s.seq? (.team 0) = some (bootTeam .t).seq ∧ s.kcb? (.team 0) = some bootKcb ∧ (trap 0xFF (2 ^ 32 - 1)).lane = false ∧
    (trap 0xFF (2 ^ 32 - 1)).cause < 256 ∧ (trap 0xFF (2 ^ 32 - 1)).detail < 2 ^ 32 ∧ 0 ∈ s.groupsBelow (.team 0) ∧
    (s.group? 0).isSome = true := by decide

/-- The placed grid names a handler of NUF, FDT and TRAP at scope G, and one at scope T. -/
def handled (s : State) : State :=
  s.updGrid 0 fun g => { g with kcb := { bootKcb with handG := 0x10008, handT := 0x1000C } }

theorem meets_GroupFault :
    (handled (issuing 0)).gctx 0 = some { ctx0 with gr := { ctx0.gr with kcb := { bootKcb with handG := 0x10008, handT := 0x1000C } } } ∧
    (trap 0x06).cause < 256 ∧ (trap 0x06).detail < 2 ^ 32 ∧
    routeOf (handled (issuing 0)) (.group 0) 0x06 = .handler .fdt 0x10008 ∧ ctx0.t.seq.stopReq = .none ∧
    routeOf (issuing 0) (.group 0) 0x06 = .debug := by decide

/-- A group, a team sequencer and a group bound for the supervisor handler that stand before their handlers. -/
theorem meets_HandlerEntry :
    let g : Group := { ctx0.g with st := .stopped (.handler .fdt 0x10008) }
    let h : Group := { ctx0.g with st := .stopped .supervisor, sframe := some supFrame }
    let q : Seq := { (bootTeam .t).seq with st := .park, route := some (.handler .nuf 0x1000C) }
    let s := (issuing 0).setGroup 0 g
    let r : Group := { ctx0.g with st := .idle, run := none }
    let t := ((issuing 0).updSeq (.team 0) fun _ => q).setGroup 0 r
    let u := (issuing 0).setGroup 0 h
    s.group? 0 = some g ∧ g.flights = [] ∧ g.flags = [] ∧ t.seq? (.team 0) = some q ∧
    (∀ k ∈ t.groupsBelow (.team 0), k = 0) ∧ t.group? 0 = some r ∧ r.flights = [] ∧ r.flags = [] ∧ r.run = none ∧
    u.group? 0 = some h ∧ h.sframe = some supFrame := by decide

/-- A handler frame of each kind that stands at slot 1. -/
def frame (k : FrameKind) : Frame := ⟨0x10004, 0, 0, k, 0x10004, false⟩

def framed (k : FrameKind) (g : Group) : Group := { g with ctl := { g.ctl with frame := some (frame k) } }

def seqFramed (k : FrameKind) (q : Seq) : Seq := { q with ctl := { q.ctl with frame := some (frame k) } }

theorem meets_FaultReturn :
    let w := (encode (.fret .g)).toNat
    let t := issuing (encode (.fret .t)).toNat
    let sup (g : Group) : Group := { g with sframe := some supFrame }
    Issues (issuingG w (framed .trap)) 0 (ctxG (framed .trap)) (.fret .g) ∧
    Issues (issuing w) 0 ctx0 (.fret .g) ∧ ctx0.g.sframe = none ∧ ctx0.g.ctl.frame = none ∧
    Issues (issuingG w sup) 0 (ctxG sup) (.fret .g) ∧ (ctxG sup).g.sframe = some supFrame ∧
    SeqIssues t (.team 0) (bootTeam .t).seq (.fret (lvlOfUnit (.team 0))) ∧ (bootTeam .t).seq.ctl.frame = none ∧
    SeqIssues (t.updSeq (.team 0) (seqFramed .nuf)) (.team 0) (seqFramed .nuf (bootTeam .t).seq) (.fret (lvlOfUnit (.team 0))) :=
  ⟨issues_of (by decide), issues_of (by decide), rfl, rfl, issues_of (by decide), rfl, seqIssues_of (by decide), by decide,
    seqIssues_of (by decide)⟩

/-- REVOTE with no frame, in a frame of a TRAP, and in one of an FDT at a SMOVI, which reads no lane source. -/
theorem meets_Revote :
    let w := (encode (.revote .g)).toNat
    let t := issuing (encode (.revote .t)).toNat
    let s := issuingG w (framed .fdt)
    Issues (issuing w) 0 ctx0 (.revote .g) ∧ ctx0.g.ctl.frame = none ∧
    Issues (issuingG w (framed .trap)) 0 (ctxG (framed .trap)) (.revote .g) ∧ (frame .trap).kind = .trap ∧
    Issues s 0 (ctxG (framed .fdt)) (.revote .g) ∧ (frame .fdt).kind ≠ .trap ∧
    (∃ x, fetchSlot s (.group 0) bootKcb.paced 0x10004 none = .ok x ∧ unitBusy s 0 x.instr = false ∧ voteSource x.instr = none) ∧
    SeqIssues t (.team 0) (bootTeam .t).seq (.revote (lvlOfUnit (.team 0))) ∧ (bootTeam .t).seq.ctl.frame = none ∧
    SeqIssues (t.updSeq (.team 0) (seqFramed .fdt)) (.team 0) (seqFramed .fdt (bootTeam .t).seq)
      (.revote (lvlOfUnit (.team 0))) :=
  ⟨issues_of (by decide), rfl, issues_of (by decide), rfl, issues_of (by decide), by decide, ⟨_, rfl, by decide, by decide⟩,
    seqIssues_of (by decide), by decide, seqIssues_of (by decide)⟩

/-! Memory. Page 0x10000 of the placed context maps to 0x50000, under protocol S with grains of 128 bytes. -/

/-- Lane 0 alone is active and its registers 2 and 3 hold the address `a`. -/
def addrIs (a : W64) (g : Group) : Group :=
  { lanesHold 3 [a.extractLsb' 32 32] (lanesHold 2 [a.extractLsb' 0 32] g) with m := [(0, 1)] }

/-- The core's L1 holds the first four grains of the page in V, byte 0 of them 0xAB. -/
def warm (s : State) : State :=
  s.updCore 0 fun c => { c with
    l1 := [(0, ⟨5, .s, 128, 0, false, 1, 0, 0xFFFF, 0, [], [(0, 0xAB)],
      [(0, .v), (1, .v), (2, .v), (3, .v)], [], 0⟩)] }

/-- LD.B32 at the word `w`'s address register. -/
def ldAt (a : W64) : State := issuingG 0xC2028100 (addrIs a)

/-- A misaligned lane, one outside the address range, one without a page. -/
theorem meets_LaneAccessFaults :
    (∃ f, laneAccess (ctxG (addrIs 2)) (.ld .b32 10 2 (.imm 0)) = some (.rd, 4, false, f)) ∧
    Issues (ldAt 2) 0 (ctxG (addrIs 2)) (.ld .b32 10 2 (.imm 0)) ∧ (IX.of (ldAt 2) (ctxG (addrIs 2))).lanes = [0] ∧
    ((ctxG (addrIs 2)).g.vpair 0 2 + (0 : BitVec 7).zeroExtend 64 * BitVec.ofNat 64 (mtypeSize .b32)).toNat % 4 ≠ 0 ∧
    Issues (ldAt (1 <<< 55)) 0 (ctxG (addrIs (1 <<< 55))) (.ld .b32 10 2 (.imm 0)) ∧
    laneXlat (ldAt (1 <<< 55)) (ctxG (addrIs (1 <<< 55))) .rd false (1 <<< 55) = .prot ∧
    Issues (ldAt 0x20000) 0 (ctxG (addrIs 0x20000)) (.ld .b32 10 2 (.imm 0)) ∧
    laneXlat (ldAt 0x20000) (ctxG (addrIs 0x20000)) .rd false 0x20000 = .page false false ∧
    (ctxG (addrIs 0x20000)).g.sframe = none :=
  ⟨⟨_, rfl⟩, issues_of (by decide), by decide, by decide, issues_of (by decide), by decide, issues_of (by decide),
    by decide, rfl⟩

/-- The translation of address 0x10000. -/
def page0 : Xlat := ⟨0x50000, .s, 128, 0, false, false⟩

theorem meets_LoadFromL1 :
    let s := warm (ldAt 0x10000)
    let x := ctxG (addrIs 0x10000)
    Issues s 0 x (.ld .b32 10 2 (.imm 0)) ∧ (Instr.ld .b32 10 2 (.imm 0)).wf = true ∧
    (∃ f, laneAccess x (.ld .b32 10 2 (.imm 0)) = some (.rd, 4, false, f) ∧ f 0 = 0x10000) ∧ (IX.of s x).lanes = [0] ∧
    laneXlat s x .rd false 0x10000 = .ok page0 ∧ page0.prot ≠ .n ∧
    ((s.coreD (coreOfGroup 0)).miss? (gbase page0.gsz page0.pa)).isNone = true ∧ (s.coreD (coreOfGroup 0)).hit page0.pa = true ∧
    l1Load page0 (.ld .b32 10 2 (.imm 0)) = some (.b32, 10) :=
  ⟨issues_of (by decide), rfl, ⟨_, rfl, by decide⟩, by decide, by decide, by decide, by decide, by decide, rfl⟩

theorem meets_StoreToL1 :
    let i : Instr := .st .b32 10 2 (.imm 0)
    let s := warm (issuingG (encode i).toNat (addrIs 0x10000))
    let x := ctxG (addrIs 0x10000)
    Issues s 0 x i ∧ (∃ f, laneAccess x i = some (.wr, 4, false, f) ∧ f 0 = 0x10000) ∧ (IX.of s x).lanes = [0] ∧
    laneXlat s x .wr false 0x10000 = .ok page0 ∧ page0.prot ≠ .d ∧ (s.coreD (coreOfGroup 0)).hit page0.pa = true ∧
    page0.pa % 4 = 0 :=
  ⟨issues_of (by decide), ⟨_, rfl, by decide⟩, by decide, by decide, by decide, by decide, by decide⟩

theorem meets_MemoryIssues :
    let i : Instr := .atom .add .n64 6 2 .acqrel .dev
    let s := issuingG (encode i).toNat (addrIs 0x10000)
    let x := ctxG (addrIs 0x10000)
    Issues s 0 x i ∧ LanesOk s x i ∧ Issues (issuing 0xD9000011) 0 ctx0 (.fence .rel .team) ∧
    unchecked (.fence .rel .team) = true ∧ Issues (issuing (encode (.pref 2 true)).toNat) 0 ctx0 (.pref 2 true) ∧
    homeRule i = some (.atom .add .n64, some .dev, true, .dev, some 6, none) ∧ i.wf = true ∧
    (∃ f, laneAccess x i = some (.wr, 8, false, f) ∧ f 0 = 0x10000) ∧ (IX.of s x).lanes = [0] ∧
    laneXlat s x .wr false 0x10000 = .ok page0 ∧ throughL1 page0 i = false ∧ throughL1 page0 (.stRel .b64 6 2 .team) = true ∧
    homeRule (.ldAcq .b32 5 2 .dev) = some (.load .b32, some .dev, false, .dev, none, none) := by
  refine ⟨issues_of (by decide), ⟨.wr, 8, false, _, rfl, ?_⟩, issues_of (by decide), rfl, issues_of (by decide), rfl, rfl,
    ⟨_, rfl, by decide⟩, by decide, by decide, by decide, by decide, rfl⟩
  have h : (IX.of (issuingG (encode (.atom .add .n64 6 2 .acqrel .dev)).toNat (addrIs 0x10000))
      (ctxG (addrIs 0x10000))).lanes = [0] := by decide
  intro l hl
  rw [h] at hl
  obtain rfl := List.mem_singleton.mp hl
  exact ⟨by decide, page0, by decide⟩

/-- LDS at a misaligned address; LDS and STS in the L1. -/
theorem meets_ScalarMemory :
    let at_ (a : W64) (g : Group) : Group := { g with sreg := [(2, a)] }
    let w := (encode (.lds .b64 (.s 1) (.s 2) 0)).toNat
    let v := (encode (.sts .b64 (.s 1) (.s 2) 0)).toNat
    Issues (issuingG w (at_ 4)) 0 (ctxG (at_ 4)) (.lds .b64 (.s 1) (.s 2) 0) ∧
    (4 + (0 : BitVec 7).signExtend 64 * BitVec.ofNat 64 (stypeSize .b64) : W64).toNat % stypeSize .b64 ≠ 0 ∧
    Issues (warm (issuingG w (at_ 0x10000))) 0 (ctxG (at_ 0x10000)) (.lds .b64 (.s 1) (.s 2) 0) ∧
    laneXlat (warm (issuingG w (at_ 0x10000))) (ctxG (at_ 0x10000)) .rd false 0x10000 = .ok page0 ∧
    ((warm (issuingG w (at_ 0x10000))).coreD 0).hit page0.pa = true ∧
    Issues (warm (issuingG v (at_ 0x10000))) 0 (ctxG (at_ 0x10000)) (.sts .b64 (.s 1) (.s 2) 0) ∧
    laneXlat (warm (issuingG v (at_ 0x10000))) (ctxG (at_ 0x10000)) .wr false 0x10000 = .ok page0 ∧ page0.pa % 8 = 0 :=
  ⟨issues_of (by decide), by decide, issues_of (by decide), by decide, by decide, issues_of (by decide), by decide, by decide⟩

/-! Homes -/

/-- `warm` with byte 0 dirty. -/
def dirty (s : State) : State :=
  s.updCore 0 fun c => { c with
    l1 := [(0, ⟨5, .s, 128, 0, false, 1, 0, 0xFFFF, 0xF, [(0, 1)], [(0, 0xAB)],
      [(0, .vd), (1, .v), (2, .v), (3, .v)], [], 0⟩)] }

/-- A store of the placed group waits for its fill. -/
def stored (s : State) : State :=
  (s.updGroup 0 fun g => { g with flights := [⟨7, 0, none, 1, [], [], [], [], true, false, none, 0, false⟩] }).updCore 0 fun c =>
    { c with misses := [⟨0x50200, 128, .s, 0, false, 1, 0, false, false, 0, [⟨0, 7, 0, 0x10200, 0x50200, 4, .store [1, 2, 3, 4]⟩]⟩] }

/-- An atomic of the placed group's only flight, at a grain that nothing tracks. -/
def homeOp (act : HomeAct) : HomeOp :=
  ⟨0, 0, 7, 0x50000, 128, act, none, [⟨0, 0x10000, 0x50000, 4, 1, 0⟩], ⟨false, true, 0, false, 1, 0⟩, false, none⟩

def flight (id wait : Nat) : Flight := ⟨id, 0, none, wait, [], [], [], [], true, false, none, 0, false⟩

/-- The placed group with one flight. -/
def flying (s : State) (id wait : Nat) : State := s.updGroup 0 fun g => { g with flights := [flight id wait] }

theorem meets_HomeOperations :
    let s := flying (issuing 0) 7 1
    let d : Dir := { Dir.fresh 128 with rel := some (0, .clu) }
    let t := { s with dirs := [(0x50000, d)] }
    let full := { s with dirs := List.replicate sliceEntries (0, Dir.fresh 32) }
    let busy : Dir := { d with cur := some (.read 0), acks := 1 }
    let w := dirty (issuing 0)
    isRemote 0x50000 = false ∧ s.fab.timeFrame ≠ some (frameOf 0x50000) ∧ 8 * 4 = atypeBits .n32 ∧
    Untracked s 0x50000 ∧ (homeOp (.atom .add .n32)).acq = none ∧ (homeOp (.atom .add .n32)).rel = none ∧
    windowOf s 1 0x50000 = none ∧ ({ homeOp (.atom .add .n32) with rel := some .grp } : HomeOp).rel = some .grp ∧ s.fab.colls = [] ∧
    busy.cur = some (.read 0) ∧ busy.acks ≠ 0 ∧ full.groups.keys.Nodup ∧
    ({ ctx0.g with recs := some true } : Group).recs = some true ∧ (⟨7, .grp, true, [], [], []⟩ : PendRel).rel = true ∧
    s.group? 0 = some { ctx0.g with flights := [flight 7 1] } ∧ (flight 7 1).id = (homeOp .store).flight ∧
    dirRoom s 0x50000 = true ∧ t.dirs.get? 0x50000 = some d ∧ d.held = [] ∧ d.cur = none ∧
    dirRoom full 32 = false ∧ (full.coreD 0).vf = some 0 ∧
    pendingStores w 0 0 = [] ∧ (pendingStores (stored w) 0 0).length = 1 ∧
    ((w.coreD 0).allGrains.map fun p => (p.1, p.2.vf)) = [(0x50000, 0), (0x50080, 0), (0x50100, 0), (0x50180, 0)] ∧
    w.dirs = [] ∧ (w.coreD 0).dirtyOf 0x50000 = [(0x50000, 0xAB)] ∧
    (∀ g ∈ [0x50080, 0x50100, 0x50180], (w.coreD 0).dirtyOf g = []) := by
  refine ⟨by decide, by decide, by decide, by unfold Untracked; decide, by decide, by decide, by decide, by decide, by decide,
    by decide, by decide, by decide, by decide, by decide, by decide, by decide, by decide, by decide, by decide, by decide, ?_, by decide, by decide, by decide, by decide, by decide, by decide, by decide⟩
  decide +kernel

/-! Scratchpads. The team's share is 4096 bytes, with four barrier objects at its foot. -/

/-- Lanes 0 and 1 active, with offsets. -/
def offsets (xs : List W32) (g : Group) : Group := { lanesHold 3 xs g with m := [(0, 3)] }

theorem reports_of {lanes : List Nat} {cause : Nat → Option Nat} {c l : Nat} (h : l ∈ lanes ∧ cause l = some c ∧
    lanes.all (fun j => match cause j with
      | none => true
      | some d => decide (c ≤ d) && (c != d || decide (l ≤ j))) = true) : reports lanes cause c l := by
  refine ⟨h.1, h.2.1, fun j hj d hd => ?_⟩
  have := List.all_eq_true.mp h.2.2 j hj
  simp only [hd, Bool.and_eq_true, Bool.or_eq_true, decide_eq_true_eq, bne_iff_ne, ne_eq] at this
  exact ⟨this.1, fun e => this.2.resolve_left (fun n => n e)⟩

theorem apart_of {lanes : List Nat} {size : Nat} {tm off : Nat → Nat} {cell : Nat → Nat → Option RingId × Nat}
    (h : (lanes.all fun l => lanes.all fun j => (tm l == tm j && off l == off j) ||
      (List.range size).all fun n => (List.range size).all fun m => cell l n != cell j m) = true) :
    CellsApart lanes size tm off cell := by
  intro l hl j hj n hn m hm e _
  have := List.all_eq_true.mp (List.all_eq_true.mp h l hl) j hj
  simp only [Bool.or_eq_true, Bool.and_eq_true, beq_iff_eq] at this
  refine this.resolve_right fun h => ?_
  have := List.all_eq_true.mp (List.all_eq_true.mp h n (List.mem_range.mpr hn)) m (List.mem_range.mpr hm)
  simp only [bne_iff_ne, ne_eq] at this
  exact this e

/-- Good loads up to the last byte; a store that runs past the end and one into the barriers, reported at lane 1. -/
theorem meets_Scratchpad :
    let ld : Instr := .ldp .b32 5 3 0
    let st : Instr := .stp .b32 5 3 0
    let good := offsets [0, 4092]
    let bad := offsets [4092, 60]
    let s := issuingG (encode ld).toNat good
    let t := issuingG (encode st).toNat bad
    let c (l : Nat) := spCause t (ctxG bad).gr (ctxG bad).t true 4 ((ctxG bad).g.vreg l 3).toNat
    spAccess ld = some (5, 3, 0, 4, false) ∧ ld.wf = true ∧ Issues s 0 (ctxG good) ld ∧
    (∀ l ∈ (IX.of s (ctxG good)).lanes, spCause s (ctxG good).gr (ctxG good).t false 4 ((ctxG good).g.vreg l 3).toNat = none) ∧
    CellsApart (IX.of s (ctxG good)).lanes 4 (fun _ => 0) (fun l => ((ctxG good).g.vreg l 3).toNat)
      (fun l n => (spCell s (ctxG good).gr (ctxG good).t 0 ((ctxG good).g.vreg l 3).toNat n).getD (none, 0)) ∧
    Issues t 0 (ctxG bad) st ∧ reports (IX.of t (ctxG bad)).lanes c 0x0E 1 :=
  ⟨rfl, rfl, issues_of (by decide), by decide, apart_of (by decide), issues_of (by decide), reports_of (by decide)⟩

/-- An address that names no team; one that names the team's own core; an access on its way. -/
theorem meets_RemoteScratchpad :
    let i : Instr := .stpr .b32 5 2 1
    let good := addrIs 0x40
    let bad := addrIs (1 <<< 63)
    let s := issuingG (encode i).toNat good
    let t := issuingG (encode i).toNat bad
    let o : SpOp := ⟨7, 0, 1, 4, .store, [0], [⟨0, 0, 0x40, 0x40, 4, [1, 2, 3, 4], none⟩], []⟩
    let g : Group := { ctx0.g with remotes := [o], flights := [flight 7 1] }
    Issues s 0 (ctxG good) i ∧ i.wf = true ∧ (IX.of s (ctxG good)).lanes = [0] ∧
    remoteTarget s (ctxG good) 0x40 = some 0 ∧ s.team? 0 = some (ctxG good).t ∧
    spCause s (ctxG good).gr (ctxG good).t true 4 0x40 = none ∧ spCause s (ctxG good).gr (ctxG good).t true 4 0x42 = some 0x0D ∧
    CellsApart [0] 4 (fun _ => 0) (fun _ => 0x40) (fun _ n => (spCell s (ctxG good).gr (ctxG good).t 1 0x40 n).getD (none, 0)) ∧
    Issues t 0 (ctxG bad) i ∧ remoteTarget t (ctxG bad) (1 <<< 63) = none ∧
    ((issuing 0).setGroup 0 g).gctx 0 = some { ctx0 with g := g } ∧
    (remotesDue ((issuing 0).setGroup 0 g) g).find? (fun o => o.flight == 7) = some o ∧
    (bankStep (issuing 0) (ctxG good).gr 0 o).2 = none ∧
    ((bankStep (issuing 0) (ctxG good).gr 0 { o with pieces := [⟨0, 0, 0x40, 0x40, 4, [], none⟩, ⟨1, 0, 0x248, 0x248, 4, [], none⟩] }).2).isSome
      = true :=
  ⟨issues_of (by decide), rfl, by decide, by decide, by decide, by decide, by decide, apart_of (by decide),
    issues_of (by decide), by decide, by decide, by decide, by decide, by decide⟩

theorem meets_SpecialRegisters :
    let rv : Instr := .rdsrV true 4 0x13
    let rs : Instr := .rdsrS (.s 1) 0x20
    let rt : Instr := .rdsrS (.k 1) 0x13
    let rd : Instr := .rdsrS (.g 1) 0x1C
    let wv : Instr := .wrsrV 3 0x22
    let ws : Instr := .wrsrS (.s 1) 0x21
    rv.wf = true ∧ Issues (issuing (encode rv).toNat) 0 ctx0 rv ∧ rs.wf = true ∧ Issues (issuing (encode rs).toNat) 0 ctx0 rs ∧
    rt.wf = true ∧ SeqIssues (issuing (encode rt).toNat) (.team 0) (bootTeam .t).seq rt ∧
    (issuing (encode rt).toNat).team? 0 = some (bootTeam .t) ∧
    rd.wf = true ∧ SeqIssues (issuing (encode rd).toNat) (.grid 0) (bootGrid .d).seq rd ∧
    wv.wf = true ∧ Issues (issuing (encode wv).toNat) 0 ctx0 wv ∧ ws.wf = true ∧ Issues (issuing (encode ws).toNat) 0 ctx0 ws :=
  ⟨rfl, issues_of (by decide), rfl, issues_of (by decide), rfl, seqIssues_of (by decide), by decide, rfl,
    seqIssues_of (by decide), rfl, issues_of (by decide), rfl, issues_of (by decide)⟩

/-! Mapping: MAPF s20, s21 in the supervisor handler. Page 0x20000 is a first-touch page in `touch`. -/

def mapAt (a : W64) (g : Group) : Group := { g with sframe := some supFrame, sreg := [(21, a)] }

def mapState (a : W64) : State := issuingG 0xEE050A80 (mapAt a)

def touch (s : State) : State := { s with mem := memWrite s.mem 0x40010 (leBytes 8 0xB0) }

def pooled (fs : List Nat) (s : State) : State := { s with vfs := s.vfs.modify 0 fun v => { v with pool := fs } }

theorem meets_MappingAndTlbs :
    let i : Instr := .mapf 20 (.s 21)
    let x (a : W64) := ctxG (mapAt a)
    let s2 := { mapState 0x10000 with ctxs := (mapState 0x10000).ctxs.modify 1 fun c => { c with vf := 1 } }
    let inv : Inval := ⟨.page 1 0x10000, [], [], .flight 0 7⟩
    Issues (mapState (1 <<< 55)) 0 (x (1 <<< 55)) i ∧ 2 ^ 55 ≤ ((x (1 <<< 55)).rd (.s 21)).toNat ∧
    Issues (mapState 0x10000) 0 (x 0x10000) i ∧ walkVa (mapState 0x10000) 1 0x10000 = .leaf 0x50573 false false 0x50573 0x50000 ∧
    Issues (mapState 0x20000) 0 (x 0x20000) i ∧ walkVa (mapState 0x20000) 1 0x20000 = .invalid false 0x40010 ∧
    Issues s2 0 (x 0x10000) i ∧ walkVa s2 1 0x10000 = .stage2 1 0x20000 ∧
    Issues (touch (mapState 0x20000)) 0 (x 0x20000) i ∧ walkVa (touch (mapState 0x20000)) 1 0x20000 = .invalid true 0x40010 ∧
    walkVa (releaseAt (touch (mapState 0x20000)) 0 0 .dev) 1 0x20000 = .invalid true 0x40010 ∧
    ((mapState 0x20000).ctxs.get? 1).map (·.vf) = some 0 ∧ ((mapState 0x20000).coreD 0).l1 = [] ∧
    ((touch (mapState 0x20000)).vfs.get? 0).map (·.pool) = some [] ∧
    Issues (touch (pooled [9] (mapState 0x20000))) 0 (x 0x20000) i ∧ (touch (pooled [9] (mapState 0x20000))).dirs = [] ∧
    ((touch (pooled [9] (mapState 0x20000))).vfs.get? 0).map (·.pool) = some [9] ∧ isRemote 0x40010 = false ∧
    Issues (issuingG 0xEE200001 (mapAt 0)) 0 (x 0) .tlbiCtx ∧ Issues (issuingG 0xEE200A80 (mapAt 0)) 0 (x 0) (.tlbiPage (.s 21)) ∧
    inv.done = .flight 0 7 ∧ (flying (issuing 0) 7 1).group? 0 = some { ctx0.g with flights := [flight 7 1] } ∧
    (flying (issuing 0) 7 1).queuesOf = [] :=
  ⟨issues_of (by decide), by decide, issues_of (by decide), by decide, issues_of (by decide), by decide, issues_of (by decide),
    by decide, issues_of (by decide), by decide, by decide, by decide, by decide, by decide, issues_of (by decide), by decide,
    by decide, by decide, issues_of (by decide), issues_of (by decide), rfl, by decide, by decide⟩

theorem meets_Bells :
    let s := issuing 0xEA00C205
    let c : Ctx := ⟨0, 0x20000, 0, [], []⟩
    let o : HomeOp := { homeOp (.ring 1 5 1) with grain := 0 }
    let t := { flying s 7 1 with ringWaits := [⟨0, 7, 1⟩] }
    let w : Group := { ctx0.g with st := .waiting (.bellw 1 1 7), flights := [flight 7 1] }
    let late (g : Group) : Group := { g with sreg := [(3, 1)] }
    let j : Instr := .bellw (.s 3) 1
    Issues s 0 ctx0 (.ring 3 (.s 4) 5) ∧ s.ctxs.get? ctx0.gr.asid = some c ∧ o.grain = (c.bellBase + 4 * 5) / 32 * 32 ∧
    isRemote (c.bellBase + 4 * 5) = false ∧ s.fab.timeFrame ≠ some (frameOf (c.bellBase + 4 * 5)) ∧ Untracked s o.grain ∧
    (o.acq = none ∧ o.rel = none) ∧ s.cores.get? 0 = some bootCore ∧ (bootCore.views.get? 1).isSome = true ∧
    reached 1 (bootCore.view 1 5) ∧ ¬ reached 0xFFFFFFFF (bootCore.view 1 5) ∧
    t.ringWaits = [⟨0, 7, 0 + 1⟩] ∧ t.group? 0 = some { ctx0.g with flights := [flight 7 1] } ∧
    Issues (issuing (encode (.bellr 3 63)).toNat) 0 ctx0 (.bellr 3 63) ∧
    Issues (issuing (encode j).toNat) 0 ctx0 j ∧ reached (bootCore.view 1 1) ((ctx0.rd (.s 3)).extractLsb' 0 32) ∧
    Issues (issuingG (encode j).toNat late) 0 (ctxG late) j ∧
    ¬ reached (bootCore.view 1 1) (((ctxG late).rd (.s 3)).extractLsb' 0 32) ∧
    ((issuing 0).setGroup 0 w).gctx 0 = some { ctx0 with g := w } ∧
    ({ flight 7 1 with pendS := [3] } : Flight).pendS = [3] ∧
    (s.cores.keys.filter fun k => ((s.coreD k).views.get? 1).isSome) = [0] ∧
    (({ s with cores := [(0, { bootCore with views := [] })] } : State).cores.keys.filter fun k =>
      (({ s with cores := [(0, { bootCore with views := [] })] } : State).coreD k).views.get? 1 |>.isSome) = [] :=
  ⟨issues_of (by decide), by decide, by decide, by decide, by decide, by unfold Untracked; decide, ⟨rfl, rfl⟩, by decide, by decide,
    by unfold reached; decide, by unfold reached; decide, by decide, by decide, issues_of (by decide), issues_of (by decide),
    by unfold reached; decide, issues_of (by decide), by unfold reached; decide, by decide, rfl, by decide, by decide⟩

theorem meets_HamletsAndDeliveries :
    let i : Instr := .dlv .b32 9 2 3
    let s := issuingG 0xE8824103 (addrIs 0x10000)
    let o := homeOp (.dlv [0] 0)
    let t := flying (issuing 0) 7 1
    Issues (issuing 0xE9008205) 0 ctx0 (.hamset 2 (.s 4) (.s 5)) ∧
    Issues (issuing (encode (.hamand 1 2 3)).toNat) 0 ctx0 (.hamand 1 2 3) ∧
    Issues s 0 (ctxG (addrIs 0x10000)) i ∧ (IX.of s (ctxG (addrIs 0x10000))).lanes = [0] ∧
    ((ctxG (addrIs 0x10000)).g.vpair 0 2).toNat % mtypeSize .b32 = 0 ∧
    laneXlat s (ctxG (addrIs 0x10000)) .wr false ((ctxG (addrIs 0x10000)).g.vpair 0 2) = .ok page0 ∧
    i.wf = true ∧
    Untracked t o.grain ∧ (o.acq = none ∧ o.rel = none) ∧ (t.coreD o.core).grainSt o.grain = none ∧ (t.group? o.grp).isSome = true ∧
    windowOf t o.attr.asid o.grain = none ∧ o.attr.cached = true ∧
    ({ o with attr := { o.attr with cached := false } } : HomeOp).attr.cached = false :=
  ⟨issues_of (by decide), issues_of (by decide), issues_of (by decide), by decide, by decide, by decide, rfl,
    by unfold Untracked; decide, ⟨rfl, rfl⟩, by decide, by decide, by decide, by decide, rfl⟩

/-! Barriers: four objects, at offsets 0 to 48. -/

def barAtOff (off n : W64) (g : Group) : Group := { g with sreg := [(1, off), (2, n)] }

/-- A team whose first object is given. -/
def barred (b : Bar) (s : State) : State := s.updTeam 0 fun t => t.putBar 0 b

def ctxBar (b : Bar) (f : Group → Group) : GCtx := { ctxG f with t := (bootTeam .g).putBar 0 b }

theorem meets_Barriers_faults :
    let i : Instr := .binit (.s 1) (.s 2)
    let s (off n : W64) := issuingG 0xE5000082 (barAtOff off n)
    let x (off n : W64) := ctxG (barAtOff off n)
    barOperands i = some (.s 1, some (.s 2)) ∧ i.wf = true ∧
    Issues (s 0 (1 <<< 16)) 0 (x 0 (1 <<< 16)) i ∧ ((x 0 (1 <<< 16)).rd (.s 2)).toNat % 2 ^ 16 = 0 ∧
    Issues (s 8 1) 0 (x 8 1) i ∧ ((x 8 1).rd (.s 1)).toNat % 2 ^ 32 % 16 ≠ 0 ∧
    Issues (s 64 1) 0 (x 64 1) i ∧ 16 * (x 64 1).gr.kcb.nbar ≤ ((x 64 1).rd (.s 1)).toNat % 2 ^ 32 ∧
    Issues (s 48 0xFFFF) 0 (x 48 0xFFFF) i ∧ ((x 48 0xFFFF).rd (.s 1)).toNat % 2 ^ 32 < 16 * (x 48 0xFFFF).gr.kcb.nbar :=
  ⟨rfl, rfl, issues_of (by decide), by decide, issues_of (by decide), by decide, issues_of (by decide), by decide,
    issues_of (by decide), by decide⟩

theorem meets_Barriers_effects :
    let g1 := barAtOff 0 0
    let g2 := barAtOff 0 1
    let s (i : Instr) (f : Group → Group) := issuingG (encode i).toNat f
    let bad : Bar := ⟨0, true, 0, 1, 1, 0, 0⟩
    Issues (s (.bexp (.s 1) (.s 2)) g1) 0 (ctxG g1) (.bexp (.s 1) (.s 2)) ∧
    Issues (s (.btest 3 (.s 1) (.s 2)) g1) 0 (ctxG g1) (.btest 3 (.s 1) (.s 2)) ∧
    Issues (s (.bwait (.s 1) (.s 2)) g1) 0 (ctxG g1) (.bwait (.s 1) (.s 2)) ∧
    ((ctxG g1).t.bar 0).poison = false ∧ ((ctxG g1).t.bar 0).gen = ((ctxG g1).rd (.s 2)).toNat % 16 ∧
    Issues (s (.bwait (.s 1) (.s 2)) g2) 0 (ctxG g2) (.bwait (.s 1) (.s 2)) ∧
    ((ctxG g2).t.bar 0).gen ≠ ((ctxG g2).rd (.s 2)).toNat % 16 ∧
    Issues (barred bad (s (.bwait (.s 1) (.s 2)) g1)) 0 (ctxBar bad g1) (.bwait (.s 1) (.s 2)) ∧
    ((ctxBar bad g1).t.bar 0).poison = true ∧
    Issues (s (.barv 3 (.s 1) 127) g1) 0 (ctxG g1) (.barv 3 (.s 1) 127) :=
  ⟨issues_of (by decide), issues_of (by decide), issues_of (by decide), by decide, by decide, issues_of (by decide),
    by decide, issues_of (by decide), by decide, issues_of (by decide)⟩

/-- A BARV that waits for its carry to have room, and one that has it; a BWAIT that waits on each kind of object. -/
theorem meets_Barriers_waits :
    let full : Bar := ⟨3, false, 0xFFFF, 0, 1, 1, 0⟩
    let some_ : Bar := ⟨3, false, 0xFFFE, 0, 1, 1, 0⟩
    let bad : Bar := ⟨3, true, 0, 1, 1, 0, 0⟩
    let v : Group := { ctx0.g with flights := [flight 7 1], rels := [⟨7, .team, true, [], [], [.barv 0 1 3]⟩] }
    let w : Group := { ctx0.g with st := .waiting (.bwait 0 3 7), flights := [flight 7 1] }
    let s (b : Bar) (g : Group) := (barred b (issuing 0)).setGroup 0 g
    let x (b : Bar) (g : Group) : GCtx := { ctxBar b id with g := g }
    (s full v).gctx 0 = some (x full v) ∧ 0xFFFF < ((x full v).t.bar 0).carry + (1 - min 1 ((x full v).t.bar 0).pending) ∧
    (s some_ v).gctx 0 = some (x some_ v) ∧ ((x some_ v).t.bar 0).carry + (1 - min 1 ((x some_ v).t.bar 0).pending) ≤ 0xFFFF ∧
    (s bad w).gctx 0 = some (x bad w) ∧ ((x bad w).t.bar 0).poison = true ∧
    (s full w).gctx 0 = some (x full w) ∧ ((x full w).t.bar 0).gen = 3 ∧
    (s ⟨4, false, 0, 1, 1, 0, 0⟩ w).gctx 0 = some (x ⟨4, false, 0, 1, 1, 0, 0⟩ w) := by decide

theorem meets_Barriers_objects :
    (∀ p ∈ List.range 16, (bootTeam .g).sp.getD p 0 = 0) ∧
    (let b : Bar := ⟨15, true, 0xFFFF, 0xFFFF, 0xFFFF, 0xFFFFFFFF, 1⟩
     b.gen < 16 ∧ b.carry < 2 ^ 16 ∧ b.pending < 2 ^ 16 ∧ b.expect < 2 ^ 16) ∧
    phaseDone ⟨0, false, 0, 0, 1, 0, 0⟩ ∧ phaseDone ⟨0, false, 0, 0, 0, 0, 0⟩ ∧ ¬ phaseDone ⟨0, false, 0, 1, 1, 0, 0⟩ := by
  unfold phaseDone; decide

/-! Feeds: a whole grid of two stages, whose ring has two buffers of 64 bytes; the placed team is stage 0, team 1 stage 1. -/

def feedKcb : Kcb := { bootKcb with stages := 2, nfeed := 1, feeds := [(2, 64)] }

def ringOf (bufs : List FeedSt) : Ring := ⟨0, 0, 0, 0, 64, bufs, 0, 0, [], [], [], 4096⟩

/-- The placed group's team at a stage, with its neighbour. -/
def feeding (stage : Nat) (bufs : List FeedSt) (f : Group → Group) (s : State) : State :=
  let g : Grid := { bootGrid .g with kcb := feedKcb, teams := [0, 1] }
  { s with
    grids := s.grids.set 0 g
    teams := (s.teams.set 0 { bootTeam .g with stage := stage, member := stage }).set 1
      { bootTeam .g with slot := 1, stage := 1 - stage, member := 1 - stage, groups := [], activeG := [] }
    rings := [ringOf bufs]
    groups := s.groups.modify 0 f }

def feedCtx (stage : Nat) (f : Group → Group) : GCtx :=
  ⟨0, f ctx0.g, { bootTeam .g with stage := stage, member := stage }, { bootGrid .g with kcb := feedKcb, teams := [0, 1] }⟩

theorem meets_Feeds :
    let get := (encode (.feedget 1 0)).toNat
    let pop := (encode (.feedpop 1 0)).toNat
    let a := feeding 0 [.free, .full] id (issuing get)
    let b := feeding 1 [.full, .free] id (issuing pop)
    let e := { feeding 1 [.free, .free] id (issuing pop) with teams := [(0, { bootTeam .g with stage := 1, member := 1 })] }
    let w := feeding 0 [.full, .full] id (issuing get)
    Issues (issuing get) 0 ctx0 (.feedget 1 0) ∧ ringFor (issuing get) ctx0 0 true = none ∧
    Issues a 0 (feedCtx 0 id) (.feedget 1 0) ∧ ringFor a (feedCtx 0 id) 0 true = some (ringOf [.free, .full]) ∧
    stageTeam a (ringOf [.free, .full]).id 1 ≠ none ∧
    Issues b 0 (feedCtx 1 id) (.feedpop 1 0) ∧ ringFor b (feedCtx 1 id) 0 false = some (ringOf [.full, .free]) ∧
    Issues e 0 (feedCtx 1 id) (.feedpop 1 0) ∧ ringFor e (feedCtx 1 id) 0 false = some (ringOf [.free, .free]) ∧
    stageTeam e (ringOf [.free, .free]).id 0 = none ∧
    Issues w 0 (feedCtx 0 id) (.feedget 1 0) ∧ ringFor w (feedCtx 0 id) 0 true = some (ringOf [.full, .full]) :=
  ⟨issues_of (by decide), by decide, issues_of (by decide), by decide, by decide, issues_of (by decide), by decide,
    issues_of (by decide), by decide, by decide, issues_of (by decide), by decide⟩

/-- FEEDPUT at a filling buffer's offset and at one that is not a window; a FEEDGET that waits. -/
theorem meets_Feeds_put :
    let put : Instr := .feedput 0 (.s 1)
    let good (g : Group) : Group := { g with sreg := [(1, 2 ^ 31)] }
    let w (g : Group) : Group := { g with st := .waiting (.feedget 0 1 7), flights := [flight 7 1] }
    let s := feeding 0 [.filling, .free] good (issuing (encode put).toNat)
    let t := feeding 0 [.filling, .free] id (issuing (encode put).toNat)
    let q := { ringOf [.free, .free] with getQ := [0] }
    let u := { feeding 0 [.free, .free] w (issuing 0) with rings := [q] }
    let behind := { feeding 0 [.free, .free] id (issuing (encode (.feedget 1 0)).toNat) with rings := [{ q with getQ := [3] }] }
    Issues s 0 (feedCtx 0 good) put ∧ ringFor s (feedCtx 0 good) 0 true = some (ringOf [.filling, .free]) ∧
    winFeed (2 ^ 31) = 0 ∧ winBuf (2 ^ 31) = 0 ∧ (∀ n ∈ s.groupsOfTeam 0, (s.group? n).map (·.rels) = some []) ∧
    (ringOf [.filling, .free]).bufs[0]? = some .filling ∧ (ringOf [.filling, .free]).bufs[1]? ≠ some .filling ∧
    Issues t 0 (feedCtx 0 id) put ∧ ¬ 2 ^ 31 ≤ ((feedCtx 0 id).rd (.s 1)).toNat % 2 ^ 32 ∧
    u.gctx 0 = some (feedCtx 0 w) ∧ ringFor u (feedCtx 0 w) 0 true = some q ∧ q.getQ.head? = some 0 ∧
    stageTeam u q.id 1 ≠ none ∧ Issues behind 0 (feedCtx 0 id) (.feedget 1 0) ∧
    ringFor behind (feedCtx 0 id) 0 true = some { q with getQ := [3] } :=
  ⟨issues_of (by decide), by decide, by decide, by decide, by decide, by decide, by decide, issues_of (by decide), by decide,
    by decide, by decide, by decide, by decide, issues_of (by decide), by decide⟩

/-! ### Steps -/

theorem atSlot_of {s : State} {x : GCtx} {r : Run} (h : (s.agenda = [] ∧ s.inputs = []) ∧ s.gctx 0 = some x ∧
    (x.g.st = .running ∧ x.g.stopReq = .none ∧ x.g.sframe = none) ∧ x.g.run = some r ∧ x.g.ctl.pc ≠ r.end_ ∧
    x.gr.kcb.cstart.toNat ≤ x.g.ctl.pc.toNat ∧ x.g.ctl.pc.toNat < x.gr.kcb.cend.toNat ∧ x.g.flights = [] ∧ x.g.rels = [] ∧
    (s.coreD (coreOfGroup 0)).ldbWaits = [] ∧ s.s2waits = [] ∧ x.g.banks = [] ∧ x.g.remotes = []) : AtSlot s 0 x where
  first := h.1
  ctx := h.2.1
  running := h.2.2.1
  inRun := ⟨r, h.2.2.2.1, h.2.2.2.2.1⟩
  inCode := ⟨h.2.2.2.2.2.1, h.2.2.2.2.2.2.1⟩
  flights := by rw [h.2.2.2.2.2.2.2.1]; intro f hf; cases hf
  rels := h.2.2.2.2.2.2.2.2.1
  loads := by rw [h.2.2.2.2.2.2.2.2.2.1]; intro f hf; cases hf
  free := by rw [h.2.2.2.2.2.2.2.2.2.2.1]; intro f hf; cases hf
  served := by
    rw [h.2.2.2.2.2.2.2.2.2.2.2.1]
    exact ⟨fun o ho => absurd ho (List.not_mem_nil), by unfold remotesDue; rw [h.2.2.2.2.2.2.2.2.2.2.2.2]; rfl⟩

def isYes : Ready → Bool
  | .yes => true
  | _ => false

theorem issuable_of {s : State} {x : GCtx} {i : Instr} {iss : Issue} {pace : W32} {n : Nat}
    (h : isYes (slotReady s x ⟨i, iss, paceDist pace n, if paceWslot pace = n then paceWait pace else 0⟩) = true ∧
      quadAdmits s x iss.cls = true ∧
      isNext s 0 x.g = true) : Issuable s 0 x i iss pace n := by
  refine ⟨?_, h.2⟩
  have := h.1
  revert this
  cases slotReady s x _ <;> first | exact fun _ => rfl | (intro e; cases e)

/-- A plain slot, a prefix with IADD behind it, and a zero word. -/
theorem meets_StepRunsDecoded_group :
    let s (w : Nat) := State.reset.withFetchWord 32 w
    let p : State := { s 0xFFC64000 with mem := memWrite (s 0xFFC64000).mem 0x50008 (leBytes 4 0x40410103) }
    let pfx : Prefix := ⟨(0xFFC64000 : W32).extractLsb' 17 4, (0xFFC64000 : W32).extractLsb' 14 3, false, 0, 0⟩
    let zero : Issue := issueRecord 0 false 0x10004 0 0
    AtSlot (s 0x24404007) 0 ctx0 ∧ fetchWord (s 0x24404007) (.group 0) 0x10004 = .word 0x24404007 ∧
    fetchWord (s 0x24404007) (.group 0) 0x10000 = .word 0 ∧
    Issuable (s 0x24404007) 0 ctx0 (.smovi (.s 1) 7) (issueRecord 0 false 0x10004 0 0x24404007) 0 1 ∧
    AtSlot p 0 ctx0 ∧ fetchWord p (.group 0) 0x10004 = .word 0xFFC64000 ∧ fetchWord p (.group 0) 0x10008 = .word 0x40410103 ∧
    Issuable p 0 ctx0 (.iadd .w8 4 2 (.v 3)) ⟨.group 0, 0x10004, 0x10008, some pfx, 0, false, 2⟩ 0 2 ∧
    AtSlot (s 0) 0 ctx0 ∧ fetchWord (s 0) (.group 0) 0x10004 = .word 0 ∧
    Issuable (s 0) 0 ctx0 (.illegalInstruction .zeroWord) zero 0 1 :=
  ⟨atSlot_of (r := bootRun) (by decide), by decide, by decide, issuable_of (by decide), atSlot_of (r := bootRun) (by decide),
    by decide, by decide, issuable_of (by decide), atSlot_of (r := bootRun) (by decide), by decide, issuable_of (by decide)⟩

theorem meets_StepRunsDecoded_upper :
    let t := State.reset.withFetchWord 32 (encode (.smovi (.k 1) 7)).toNat
    let d := State.reset.withFetchWord 32 (encode (.smovi (.g 1) 7)).toNat
    (t.agenda = [] ∧ t.inputs = [] ∧ t.tctx 0 = some ⟨0, bootTeam .t, bootGrid .t⟩ ∧ (bootTeam .t).seq.st = .fetch ∧
      (bootTeam .t).seq.stopReq = .none ∧ t.s2waits = [] ∧ (bootTeam .t).seq.run = some bootRun ∧
      (bootTeam .t).seq.ctl.pc ≠ bootRun.end_ ∧ fetchWord t (.team 0) 0x10004 = .word (encode (.smovi (.k 1) 7)) ∧
      scopeOf (.smovi (.k 1) 7) = .t ∧ (bootTeam .t).seq.voted.isSome = true ∧ isLaunch (.smovi (.k 1) 7) = false) ∧
    (d.agenda = [] ∧ d.inputs = [] ∧ d.grid? 0 = some (bootGrid .d) ∧ (bootGrid .d).kcb.whole = true ∧
      (bootGrid .d).st = .running ∧ (bootGrid .d).gsNum.isSome = true ∧ (bootGrid .d).seq.st = .fetch ∧
      (bootGrid .d).seq.stopReq = .none ∧ d.s2waits = [] ∧ (bootGrid .d).seq.run = none ∧
      fetchWord d (.grid 0) 0x10004 = .word (encode (.smovi (.g 1) 7)) ∧ scopeOf (.smovi (.g 1) 7) = .d ∧
      (bootGrid .d).seq.voted.isSome = true ∧ isLaunch (.smovi (.g 1) 7) = false) ∧
    State.reset.agenda = [] ∧ fromOutside .moduleReset = true ∧ inputWaits State.reset .moduleReset = false ∧
    delayable (.launchQueueEntryFreed 0) = false ∧ messageHeld State.reset (.launchQueueEntryFreed 0) = false := by decide

/-- Messages of two cores on their way. -/
theorem meets_StepRunsDecoded_messages :
    let s := { State.reset with agenda := [.readRequest 0 0x50000, .readRequest 1 0x50080] }
    (∀ j ∈ s.agenda, delayable j = true) ∧ s.agenda[1]? = some (.readRequest 1 0x50080) ∧
    mayArrive s 1 (.readRequest 1 0x50080) = true ∧ mayArrive s 0 (.readRequest 0 0x50000) = true := by decide

/-- The fetch of a word translates, from memory of the device's own. -/
theorem meets_StepRunsDecoded_fetch :
    let s := State.reset.withFetchWord 32 0x24404007
    fetchXlat s (.group 0) 0x10004 = .ok { page0 with pa := 0x50004 } ∧ s.dirs = [] ∧ s.poison = [] ∧
    ∀ n < 4, isRemote (0x50004 + n) = false ∧ s.fab.timeFrame ≠ some (frameOf (0x50004 + n)) := by decide

theorem meets_DecodedWords : decode 0x24404007 = .instr (.smovi (.s 1) 7) ∧ (0xFFE00001 : W32).extractLsb' 21 11 = 0x7FF ∧
    (0xFFC64000 : W32).extractLsb' 21 11 = 0x7FE := by decide

theorem meets_EncodedWordsDecode : (Instr.iadd .w8 4 2 (.v 3)).wf = true := rfl

theorem meets_StepKeepsMemory : MemInv (State.reset.withFetchWord 32 0x24404007) ∧
    ∃ t, run 0x24404007 = .next t := ⟨⟨by decide, by decide⟩, _, rfl⟩

/-- A pace defect, a bound, a T slot that reaches a group, and an issue with nothing against it. -/
theorem meets_IssueChecks :
    let s := issuing 0x40410103
    let d : State := { s with iss := { s.iss with defect := true } }
    let top (g : Group) : Group := { g with vwb := 253 }
    (Instr.iadd .w8 4 2 (.v 3)).wf = true ∧ s.iss.unit = .group 0 ∧ s.gctx 0 = some ctx0 ∧
    firstFault s ctx0 (.iadd .w8 4 2 (.v 3)) = none ∧ firstFault d ctx0 (.iadd .w8 4 2 (.v 3)) = some (0x02, 0) ∧
    (issuingG 0x40410103 top).gctx 0 = some (ctxG top) ∧
    firstFault (issuingG 0x40410103 top) (ctxG top) (.iadd .w8 4 2 (.v 3)) = some (0x03, 257) ∧
    firstFault s ctx0 (.smovi (.k 1) 7) = some (0x0A, 0) ∧
    (let t := issuing (encode (.smovi (.k 1) 7)).toNat
     t.iss.unit = .team 0 ∧ t.seq? (.team 0) = some (bootTeam .t).seq ∧ t.gridOf (.team 0) = some 0 ∧
     t.grid? 0 = some (bootGrid .t)) := by decide

theorem meets_CompletionEvent :
    let f : Flight := { flight 7 0 with flag := 1, writes := [.v 0 255 1, .s 1 2, .m 1 3], pendV := [255], acq := some .dev }
    let g : Group := { ctx0.g with flights := [f], hold := some 7 }
    ((issuing 0).setGroup 0 g).gctx 0 = some { ctx0 with g := g } ∧ g.flights.find? (fun e => e.id == f.id) = some f ∧
    f.wait = 0 ∧ (f.writes.all fun w => match w with | .v _ p _ => decide (p < 256) | _ => true) = true := by decide

/-! ### Matrix instructions and copies -/

/-- Scalars 8 and 9 hold a descriptor pair. -/
def desc (a b : W64) (g : Group) : Group := { g with sreg := [(7, 0x22), (8, a), (9, b)] }

theorem meets_MatrixInstructions_issue :
    let i : Instr := .mmldb (.s 8) (.s 9) 0 0
    let z : Instr := .mmzero 0 1
    let m : Instr := .mmloop 5 (.s 8) 0
    let good := desc 64 2
    (∃ a r, matrixAct (issuingG 0xE0020480 good) (ctxG good) i = some (a, r)) ∧ Issues (issuingG 0xE0020480 good) 0 (ctxG good) i ∧
    matrixFault (issuingG 0xE0020480 good) (ctxG good) i = none ∧ (issuingG 0xE0020480 good).cores.get? 0 = some bootCore ∧
    Issues (issuing (encode z).toNat) 0 ctx0 z ∧ matrixFault (issuing (encode z).toNat) ctx0 z = some (trap 0x0E) ∧
    Issues (issuing 0xE0020480) 0 ctx0 i ∧ matrixFault (issuing 0xE0020480) ctx0 i = some (trap 0x01) ∧
    Issues (issuingG (encode m).toNat (lanesHold 5 (List.replicate 16 2))) 0 (ctxG (lanesHold 5 (List.replicate 16 2))) m ∧
    loopFault (issuing (encode m).toNat) ctx0 2 0 0 = none ∧
    loopFault (issuing (encode m).toNat) ctx0 2 0 (1 <<< 44) = some (trap 0x01) ∧
    Issues (issuingG (encode m).toNat (lanesHold 5 [2])) 0 (ctxG (lanesHold 5 [2])) m ∧
    (ctxG (lanesHold 5 [2])).g.vreg 0 5 ≠ (ctxG (lanesHold 5 [2])).g.vreg 1 5 :=
  ⟨⟨_, _, rfl⟩, issues_of (by decide), by decide, by decide, issues_of (by decide), by decide, issues_of (by decide), by decide,
    issues_of (by decide), by decide, by decide, issues_of (by decide), by decide⟩

/-- The core's engine with one instruction of the placed group at its head. -/
def engineAt (act : EngineAct) : State :=
  (flying (issuing 0) 7 1).updCore 0 fun c => { c with engine := [⟨0, 0, 7, 0, act, []⟩] }

theorem meets_MatrixInstructions_engine :
    let act : EngineAct := .qtile 0x22 0 (0x2000000000 + 64) 0
    EngineAt (engineAt act) 0 { bootCore with engine := [⟨0, 0, 7, 0, act, []⟩] } ⟨0, 0, 7, 0, act, []⟩ [] (bootTeam .g) (bootGrid .g)
      { ctx0.g with flights := [flight 7 1] } :=
  ⟨by decide, by decide, by decide, by decide, by decide, by decide, by decide, by decide, by decide⟩

/-- QTILE's copies at 0x1000 and 0x2000 lie apart from the source, of 32 rows of 128 bytes at 0x4000. -/
theorem meets_MatrixInstructions_tile :
    let d : W64 := 0x4000 + BitVec.ofNat 64 (128 * 2 ^ 32)
    let e : W64 := 0x1000 + BitVec.ofNat 64 (0x2000 * 2 ^ 32)
    let len := 32 * (fld d 51 4 + 1) * (32 * (fld d 55 4 + 1)) / 32 * (1 + 4 * 2)
    fld e 0 32 + len ≤ fld e 32 32 ∧ fld e 32 32 + len ≤ fld d 0 32 ∧ fld d 48 3 = 0 := by decide

/-- The record of a tile of `n` elements of 16 bytes in a tensor of 8 at 0x10000: DIR 0, or DIR 1 with 64 more in CTRL. -/
def copyRec (dir n : Nat) : List Byte :=
  leBytes 8 0x10000 ++ leBytes 4 (1 + 8 * 4 + dir) ++ leBytes 4 7 ++ leBytes 4 8 ++ List.replicate 32 0 ++ leBytes 2 n ++
    List.replicate 10 0

/-- The queue of the team holds the copy of one element, its record read. -/
def copyOf (kind : CopyKind) (st : CopySt) : Copy :=
  ⟨0, 0, kind, 0x10000, copyRec 0 1, [0, 0, 0, 0, 0], 64, 0, 0, 0, st, true, 7, none, some [⟨0, 0, 0, none⟩], false⟩

def copying (c : Copy) : State := (issuing 0).updCore 0 fun k => { k with copyq := k.copyq.set 0 [c] }

/-- TCOPY with no active lane, at a misaligned record, beyond the address range, at bad offsets, and sound. -/
theorem meets_Copies_issue :
    let i : Instr := .tcopy 16 2
    let at_ (a : W64) (bar : W32) (g : Group) : Group := lanesHold 22 [bar] (addrIs a g)
    let none_ (g : Group) : Group := { g with m := [] }
    let s (f : Group → Group) := issuingG 0xE4040100 f
    copyRule ctx0 i = some (16, 2, .plain) ∧ Issues (s none_) 0 (ctxG none_) i ∧ lanesOf 16 ((ctxG none_).g.active 0) = [] ∧
    Issues (s (at_ 0x10020 0)) 0 (ctxG (at_ 0x10020 0)) i ∧ ((ctxG (at_ 0x10020 0)).g.vpair 0 2).toNat % 64 ≠ 0 ∧
    Issues (s (at_ (1 <<< 55) 0)) 0 (ctxG (at_ (1 <<< 55) 0)) i ∧ ((ctxG (at_ (1 <<< 55) 0)).g.vpair 0 2).toNat = 2 ^ 55 ∧
    Issues (s (at_ 0x10000 8)) 0 (ctxG (at_ 0x10000 8)) i ∧ ((ctxG (at_ 0x10000 8)).g.vreg 0 22).toNat % 16 ≠ 0 ∧
    Issues (s (at_ 0x10000 64)) 0 (ctxG (at_ 0x10000 64)) i ∧ ((ctxG (at_ 0x10000 64)).g.vreg 0 22).toNat = 64 ∧
    Issues (s (at_ 0x10000 48)) 0 (ctxG (at_ 0x10000 48)) i ∧ ((ctxG (at_ 0x10000 48)).g.vpair 0 2).toNat % 64 = 0 :=
  ⟨rfl, issues_of (by decide), by decide, issues_of (by decide), by decide, issues_of (by decide), by decide,
    issues_of (by decide), by decide, issues_of (by decide), by decide, issues_of (by decide), by decide⟩

theorem moves_of {s : State} {q : Nat} {c : Copy} {cs : List Copy} {gr : Grid} {tm : Team}
    (h : s.cores.has (q / 16) = true ∧ s.copies q = c :: cs ∧ s.team? c.team = some tm ∧ s.grid? tm.grid = some gr ∧
      (c.readDone = true ∧ c.st = .run) ∧ (s.dirs = [] ∧ s.poison = [])) : Moves s q c cs gr tm :=
  ⟨h.1, h.2.1, h.2.2.1, h.2.2.2.1, h.2.2.2.2.1, h.2.2.2.2.2⟩

/-- The record to be read lies at 0x50000: sound, and of no dimension. -/
theorem meets_Copies_record :
    let c : Copy := { copyOf .plain .run with record := [], readDone := false, targets := none }
    let s (bs : List Byte) : State := { copying c with mem := memWrite (copying c).mem 0x50000 bs }
    let t := s (copyRec 64 1)
    (copyTargets t 0 (bootGrid .g) (bootTeam .g) c = [⟨0, 0, 0, none⟩]) ∧ t.agenda = [] ∧ t.cores.has 0 = true ∧
    t.copies 0 = [] ++ c :: [] ∧ t.team? c.team = some (bootTeam .g) ∧ t.grid? 0 = some (bootGrid .g) ∧ t.dirs = [] ∧
    t.poison = [] ∧ copyXlat t 0 1 0x10000 .rd = .ok page0 ∧ t.cutOff page0.pa = false ∧ t.pathHeld page0.pa 0 = false ∧
    recordDefect (bootGrid .g) [⟨0, 0, 0, none⟩] c (t.homeRead 0x50000 64) = none ∧ (Layout.of (t.homeRead 0x50000 64)).out = true ∧
    recordDefect (bootGrid .g) [⟨0, 0, 0, none⟩] c ((s (copyRec (2 ^ 12) 1)).homeRead 0x50000 64) = some (0x10000, 0x01) ∧
    copyXlat t 0 1 (1 <<< 55) .rd = .prot ∧ copyXlat t 0 1 0x20000 .rd = .page false false ∧
    copyXlat (touch t) 0 1 0x20000 .rd = .page true false := by
  decide +kernel

/-- A copy whose next grain is the record's own; one whose only element lies outside the tensor; one of DIR 1. -/
theorem meets_Copies_next :
    let c := copyOf .plain .run
    let o : Copy := { c with coords := [8, 0, 0, 0, 0] }
    let d : Copy := { c with record := copyRec 64 1 }
    NextAt (Layout.of c.record) c 0x10000 ∧ NextAt (Layout.of d.record) d 0x10000 ∧
    outsideLeft (Layout.of o.record) o 0 ∧ (Layout.of d.record).out = true ∧ (Layout.of c.record).out = false ∧
    (Layout.of d.record).inBounds o.coords 0 = false ∧ (Layout.of c.record).sp c.soff 0 = 64 := by
  have one : (Layout.of (copyOf .plain .run).record).elems = 1 := by decide
  refine ⟨?_, ?_, by unfold outsideLeft; decide, by decide, by decide, by decide, by decide⟩
  · unfold NextAt
    rw [if_neg (by decide)]
    refine ⟨fun p h => ?_, ⟨0, by decide, by decide, by decide, by decide⟩, fun p h _ _ => ?_⟩
    · have h1 := h.1
      obtain rfl : p = 0 := by omega
      exact absurd h.2.2.1 (by decide)
    · obtain rfl : p = 0 := by omega
      decide
  · unfold NextAt
    rw [if_pos (by decide)]
    decide

theorem meets_Copies_moves :
    let c := copyOf .plain .run
    let a := copyOf (.all 1) .run
    let j := copyOf (.join 1) .run
    Moves (copying c) 0 c [] (bootGrid .g) (bootTeam .g) ∧ Moves (copying a) 0 a [] (bootGrid .g) (bootTeam .g) ∧
    Moves (copying j) 0 j [] (bootGrid .g) (bootTeam .g) ∧ j.alone = false ∧
    copyXlat (copying c) 0 1 0x10000 .rd = .ok page0 ∧ (copying c).cutOff page0.pa = false ∧
    (copying c).pathHeld (gbase page0.gsz page0.pa) 0 = false ∧ (copying c).noData page0.pa 16 = false ∧
    ({ copying c with poison := [(0x50000, 32)] } : State).noData page0.pa 16 = true ∧
    copyXlat (copying c) 0 1 (1 <<< 55) .rd = .prot ∧ copyXlat (copying c) 0 1 0x20000 .rd = .page false false ∧
    copyXlat (touch (copying c)) 0 1 0x20000 .wr = .page true false := by
  refine ⟨moves_of (by decide), moves_of (by decide), moves_of (by decide), rfl, ?_⟩
  decide

theorem meets_Copies_events :
    let key : MergeKey := ⟨0x10000, [0, 0, 0, 0, 0], 3, 0, 128⟩
    let l : Copy := { copyOf (.join 3) .line with line := some (0x10000, 128, 1) }
    let st := copyOf .plain (.stalled 0x20000)
    let e : JoinEnt := ⟨servingSlice [] 0, 0, key, [0, 1], [16], [], 0, false⟩
    let s := copying l
    let t := { copying st with joins := [e] }
    (copying (copyOf (.all 3) .run)).copies 0 = [copyOf (.all 3) .run] ∧ key.recAddr = (copyOf (.all 3) .run).recAddr ∧
    s.cores.has 0 = true ∧ s.copies 0 = [l] ∧ s.team? l.team = some (bootTeam .g) ∧ l.st = .line ∧ key.coords = l.coords ∧
    l.line = some (0x10000, 128, 1) ∧ targetLives s ⟨0, 0, 0, none⟩ = true ∧ targetLives s ⟨0, 0, 5, none⟩ = false ∧
    touchAddr ((issuing (encode (.lds .b64 (.k 1) (.k 2) 0)).toNat).updSeq (.team 0) fun q => { q with st := .fetch }) (.team 0) =
      some 0 ∧
    t.dirs = [] ∧ openEntry t key = some e ∧ openEntry s key = none ∧
    t.joins.find? (fun x => x.slice == e.slice && x.idx == 0 && !x.timedOut) = some e ∧
    t.copies 0 = [st] ∧ (mapPage t 1 0x20000).2 ≠ 2 ∧ (mapPage (touch t) 1 0x20000).2 = 2 := by decide

/-- LDS of a team sequencer: misaligned, without a page, served by the L1; STS of a grid sequencer at the home. -/
theorem meets_SequencerMemory :
    let i : Instr := .lds .b64 (.k 1) (.k 2) 0
    let j : Instr := .sts .b64 (.g 1) (.g 2) 0
    let seqAt (q : Seq) (n : Nat) (a : W64) : Seq := { q with vers := [(0, ⟨[(n, a)], 0⟩)] }
    let s (a : W64) := (issuing (encode i).toNat).updSeq (.team 0) fun q => seqAt q 2 a
    let t (a : W64) := (issuing (encode j).toNat).updSeq (.grid 0) fun q => seqAt q 2 a
    SeqIssues (s 4) (.team 0) (seqAt (bootTeam .t).seq 2 4) i ∧
    (seqRead (s 4) (.team 0) i (.k 2) + (0 : BitVec 7).signExtend 64 * BitVec.ofNat 64 (stypeSize .b64)).toNat % 8 ≠ 0 ∧
    SeqIssues (s 0x20000) (.team 0) (seqAt (bootTeam .t).seq 2 0x20000) i ∧
    seqXlat (s 0x20000) (.team 0) .rd 0x20000 = .page false false ∧
    seqXlat (touch (s 0x20000)) (.team 0) .rd 0x20000 = .page true false ∧ seqXlat (s 0x20000) (.team 0) .rd (1 <<< 55) = .prot ∧
    SeqIssues (warm (s 0x10000)) (.team 0) (seqAt (bootTeam .t).seq 2 0x10000) i ∧
    seqXlat (warm (s 0x10000)) (.team 0) .rd 0x10000 = .ok page0 ∧ ((warm (s 0x10000)).coreD (0 / 16)).hit page0.pa = true ∧
    SeqIssues (t 0x10000) (.grid 0) (seqAt (bootGrid .d).seq 2 0x10000) j ∧
    seqXlat (t 0x10000) (.grid 0) .wr 0x10000 = .ok page0 ∧ (t 0x10000).poison = [] ∧ (t 0x10000).cutOff page0.pa = false ∧
    (t 0x10000).pathHeld page0.pa 0 = false ∧ (((warm (s 0x10000)).coreD 0).miss? (gbase page0.gsz page0.pa)).isNone = true ∧
    (t 0x10000).dirs = [] :=
  ⟨seqIssues_of (by decide), by decide, seqIssues_of (by decide), by decide, by decide, by decide, seqIssues_of (by decide),
    by decide, by decide, seqIssues_of (by decide), by decide, by decide, by decide, by decide, by decide, by decide⟩

/-! ### Launches, grains and deliveries -/

/-- A launch record of one team of the kernel at 0x10100, with its signal at 0x10200. -/
def launchBytes (x flags : Nat) : List Byte :=
  leBytes 8 0x10100 ++ leBytes 2 x ++ leBytes 2 1 ++ leBytes 2 1 ++ leBytes 2 flags ++ leBytes 8 0x10200 ++ leBytes 8 5 ++
    List.replicate 96 0

/-- The kernel at 0x10100 is one of a loaded object: streamed, and of one team at most. -/
def loaded (s : State) : State :=
  { s with
    mem := memWrite s.mem 0x50160 (leBytes 2 1 ++ leBytes 2 1 ++ leBytes 2 1)
    objs := s.objs.set 3 ⟨0, 1, [], [], [0x10100], [], []⟩ }

def queuedLaunch (bs : List Byte) (s : State) : State :=
  { s with vfs := s.vfs.modify 0 fun v => { v with launchq := [⟨bs, 1, 9, none⟩] }, nextKey := 100 }

/-- LAUNCH.T with its record misaligned, beyond the range, and in the L1; LAUNCH.D with its record at the home. -/
theorem meets_Launches_issue :
    let i : Instr := .launchT (.k 4)
    let seqAt (a : W64) (q : Seq) : Seq := { q with vers := [(0, ⟨[(4, a), (6, a)], 0⟩)] }
    let s (a : W64) := warm ((issuing 0xEC802200).updSeq (.team 0) (seqAt a))
    let d := (issuing 0xECA03300).updSeq (.grid 0) (seqAt 0x10080)
    SeqIssues (s 64) (.team 0) (seqAt 64 (bootTeam .t).seq) i ∧ launchReady (s 64) (.team 0) = true ∧
    (seqRead (s 64) (.team 0) i (.k 4)).toNat % 128 ≠ 0 ∧
    SeqIssues (s (1 <<< 55)) (.team 0) (seqAt (1 <<< 55) (bootTeam .t).seq) i ∧
    (seqRead (s (1 <<< 55)) (.team 0) i (.k 4)).toNat = 2 ^ 55 ∧
    SeqIssues (s 0x10000) (.team 0) (seqAt 0x10000 (bootTeam .t).seq) i ∧
    seqXlat (launchRelease (s 0x10000) (.team 0)) (.team 0) .rd 0x10000 = .ok page0 ∧
    (∀ n < 4, ((launchRelease (s 0x10000) (.team 0)).coreD 0).hit (page0.pa + 32 * n) = true) ∧
    SeqIssues d (.grid 0) (seqAt 0x10080 (bootGrid .d).seq) (.launchD (.g 6)) ∧ launchReady d (.grid 0) = true ∧
    seqXlat (launchRelease d (.grid 0)) (.grid 0) .rd 0x10080 = .ok { page0 with pa := 0x50080 } ∧
    (launchRelease d (.grid 0)).dirs = [] ∧ (∀ n < 4, (launchRelease d (.grid 0)).pathHeld (0x50080 + 32 * n) 0 = false) ∧
    (d.vfs.get? (vfOf d (.grid 0))).isSome = true :=
  ⟨seqIssues_of (by decide), by decide, by decide, seqIssues_of (by decide), by decide, seqIssues_of (by decide), by decide,
    by decide, seqIssues_of (by decide), by decide, by decide, by decide, by decide, by decide⟩

/-- A record that is accepted, one refused without a signal and one with it; a place freed with none waiting and with one. -/
theorem meets_Launches_entries :
    let ok := loaded (queuedLaunch (launchBytes 1 0) (issuing (encode (.nop .d)).toNat))
    let big := loaded (queuedLaunch (launchBytes 2 0) (issuing 0))
    let sig := loaded (queuedLaunch (launchBytes 2 1) (issuing 0))
    let w := ok.updSeq (.team 0) fun q => { q with st := .launch, heldRec := some (launchBytes 1 0) }
    launchRefusal ok 0 1 (launchBytes 1 0) false = none ∧ launchRefusal big 0 1 (launchBytes 2 0) false = some 0x02 ∧
    launchRefusal sig 0 1 (launchBytes 2 1) false = some 0x02 ∧
    SignalReaches sig 1 (BitVec.ofNat 64 (fieldAt (launchBytes 2 1) 0x10 8)) { page0 with pa := 0x50200 } ∧
    waitingLaunch ok 0 = none ∧ waitingLaunch w 0 = some (.team 0) ∧ vfOf w (.team 0) = 0 := by
  unfold SignalReaches; decide

/-- A pending miss of the core at the page's first grain. -/
def missOf (p : Prot) : Miss := ⟨0x50000, 32, p, 0, false, 1, 0, false, false, 0, [⟨0, 7, 0, 0x10000, 0x50000, 4, .loadV .b32 5⟩]⟩

def missing (m : Miss) (ds : Tab Dir) : State :=
  { (flying (issuing 0) 7 1).updCore 0 fun c => { c with misses := [m] } with dirs := ds }

theorem meets_GrainRequests_reads :
    let shd : Dir := { Dir.fresh 128 with st := .shd, ptrs := [(1, false)] }
    let own : Dir := { Dir.fresh 128 with st := .own 1 }
    let lck : Dir := { Dir.fresh 128 with lock := true }
    ((missing (missOf .s) []).coreD 0).miss? 0x50000 = some (missOf .s) ∧ Fillable (missing (missOf .s) []) (missOf .s) ∧
    (missOf .s).prot ≠ .d ∧ ((missing (missOf .d) []).coreD 0).miss? 0x50000 = some (missOf .d) ∧
    Fillable (missing (missOf .d) []) (missOf .d) ∧
    dirRoom (missing (missOf .d) []) 0x50000 = true ∧ QuietDir ((missing (missOf .d) []).dirD 0x50000 32) ∧
    (missing (missOf .d) [(0x50000, shd)]).holders shd ≠ [] ∧ QuietDir shd ∧ shd.st = .shd ∧
    ((missing (missOf .d) [(0x50000, shd)]).holders shd).filter (· != 0) ≠ [] ∧ QuietDir own ∧ own.st = .own 1 ∧
    dirRoom (missing (missOf .d) [(0x50000, own)]) 0x50000 = true ∧ QuietDir lck ∧ lck.lock = true := by
  unfold QuietDir Fillable; decide

/-- A slice whose entries are all in use, each free to be taken. -/
def fullSlice : Tab Dir := (List.range sliceEntries).map fun n => (n, Dir.fresh 32)

theorem full_entries {p : Nat × Dir} (h : p ∈ fullSlice) : p.1 < 12288 ∧ p.2 = Dir.fresh 32 := by
  obtain ⟨n, hn, rfl⟩ := List.mem_map.mp h
  exact ⟨List.mem_range.mp hn, rfl⟩

theorem full_first : ∃ ps, fullSlice = (0, Dir.fresh 32) :: ps :=
  ⟨_, by rw [fullSlice, show sliceEntries = 12287 + 1 from rfl, List.range_succ_eq_map, List.map_cons]⟩

theorem get_none {α : Type} (n : Nat) : ∀ t : Tab α, (∀ p ∈ t, p.1 ≠ n) → Tab.get? t n = none
  | [], _ => rfl
  | (k, x) :: t, h => by
    unfold Tab.get?
    rw [if_neg fun e => h (k, x) (List.mem_cons_self ..) e.symm]
    exact get_none n t fun p hp => h p (List.mem_cons_of_mem _ hp)

theorem full_has : Tab.has fullSlice 0xFFE0 = false := by
  unfold Tab.has
  rw [get_none _ fullSlice fun p hp => by have := (full_entries hp).1; omega]
  rfl

theorem full_length : decide (fullSlice.length < sliceEntries) = false := by
  rw [fullSlice, List.length_map, List.length_range]
  exact decide_eq_false (Nat.lt_irrefl _)

theorem full_keys : (Tab.keys fullSlice).Nodup := by
  rw [Tab.keys, fullSlice, List.map_map]
  exact (List.map_id _).symm ▸ List.nodup_range

theorem full_get : Tab.get? fullSlice 0 = some (Dir.fresh 32) := by
  obtain ⟨ps, e⟩ := full_first
  rw [e]
  rfl

/-- Addresses below 65536 have one home slice. -/
theorem low_slice {n : Nat} (h : n < 65536) : servingSlice [] n = 0 := by
  have hd : homeDie n = 0 := by
    unfold homeDie
    simp only [List.map, Nat.div_eq_of_lt (show n < 2 ^ 16 by omega), Nat.div_eq_of_lt (show n < 2 ^ 23 by omega),
      Nat.div_eq_of_lt (show n < 2 ^ 30 by omega), Nat.div_eq_of_lt (show n < 2 ^ 37 by omega),
      Nat.div_eq_of_lt (show n < 2 ^ 44 by omega), Nat.div_eq_of_lt (show n < 2 ^ 51 by omega)]
    rfl
  have hs : homeSlice n = 0 := by
    unfold homeSlice
    simp only [List.map, Nat.div_eq_of_lt (show n < 2 ^ 17 by omega), Nat.div_eq_of_lt (show n < 2 ^ 24 by omega),
      Nat.div_eq_of_lt (show n < 2 ^ 31 by omega), Nat.div_eq_of_lt (show n < 2 ^ 38 by omega),
      Nat.div_eq_of_lt (show n < 2 ^ 45 by omega)]
    rfl
  unfold servingSlice
  rw [hd, hs]
  rfl

theorem full_slice {s : State} (h : s.dirs = fullSlice) (o : s.fw.slicesOut = []) : sliceDirs s 0xFFE0 = fullSlice := by
  unfold sliceDirs
  simp only [h, o]
  refine List.filter_eq_self.mpr fun p hp => ?_
  rw [low_slice (show p.1 < 65536 by have := (full_entries hp).1; omega), low_slice (by omega)]
  rfl

theorem oldest_first (p : Nat × Dir) : ∀ ps : List (Nat × Dir), (∀ q ∈ ps, ¬ q.2.lru < p.2.lru) →
    ps.foldl (fun (m : Nat × Dir) q => if q.2.lru < m.2.lru then q else m) p = p
  | [], _ => rfl
  | q :: qs, h => by
    rw [List.foldl_cons, if_neg (h q (List.mem_cons_self ..))]
    exact oldest_first p qs fun r hr => h r (List.mem_cons_of_mem _ hr)

theorem full_victim {s : State} (h : s.dirs = fullSlice) (o : s.fw.slicesOut = []) : victimEntry s 0xFFE0 = some 0 := by
  obtain ⟨ps, e⟩ := full_first
  have free : (fullSlice.filter fun p => !p.2.lock && p.2.held.isEmpty && p.2.cur.isNone && !(p.2.ptrs.any fun q => q.2)) = fullSlice := by
    refine List.filter_eq_self.mpr fun p hp => ?_
    rw [(full_entries hp).2]
    rfl
  unfold victimEntry
  simp only [full_slice h o, free]
  rw [e]
  simp only
  rw [oldest_first _ ps fun q hq => ?_]
  rw [(full_entries (e ▸ List.mem_cons_of_mem _ hq)).2]
  decide

theorem missing_dirs (m : Miss) (ds : Tab Dir) : (missing m ds).dirs = ds := rfl
theorem missing_slices (m : Miss) (ds : Tab Dir) : (missing m ds).fw.slicesOut = [] := rfl

theorem meets_GrainRequests_room : ∃ s m, (s.coreD 0).miss? 0xFFE0 = some m ∧ Fillable s m ∧ m.prot = .d ∧
    dirRoom s 0xFFE0 = false ∧ s.dirs.keys.Nodup ∧ roomAt s 0xFFE0 = none ∧ victimEntry s 0xFFE0 = some 0 ∧
    s.dirs.get? 0 = some (Dir.fresh 32) ∧ (Dir.fresh 32).acks = 0 ∧ (Dir.fresh 32).hostown = false ∧
    (Dir.fresh 32).rel = none ∧ (Dir.fresh 32).st = .un := by
  have h : (missing { missOf .d with grain := 0xFFE0 } fullSlice).dirs = fullSlice := missing_dirs _ _
  have o : (missing { missOf .d with grain := 0xFFE0 } fullSlice).fw.slicesOut = [] := missing_slices _ _
  refine ⟨missing { missOf .d with grain := 0xFFE0 } fullSlice, { missOf .d with grain := 0xFFE0 }, by decide +kernel,
    ⟨by decide, by decide +kernel⟩, rfl, ?_, ?_, ?_, full_victim h o, ?_, rfl, rfl, rfl, rfl⟩
  · unfold dirRoom
    rw [full_slice h o, h, full_has, full_length]
    rfl
  · rw [h]
    exact full_keys
  · unfold roomAt
    rw [h, List.find?_eq_none.mpr fun p hp => ?_]
    · rfl
    · rw [(full_entries hp).2]
      decide
  · rw [h]
    exact full_get

theorem meets_GrainRequests_answers :
    let own : Dir := { Dir.fresh 128 with st := .own 0 }
    let rd : Dir := { Dir.fresh 128 with st := .own 0, cur := some (.read 1), acks := 1 }
    let up (n : Nat) : Dir := { Dir.fresh 128 with st := .shd, ptrs := [(0, false)], cur := some (.own 1), acks := n }
    let s := missing (missOf .d) [(0x50000, own)]
    let shd : Dir := { Dir.fresh 128 with st := .shd, ptrs := [(1, false)] }
    let win (s : State) : State := (warm s).updCore 0 fun c => { c with l1 := c.l1.map fun p => (p.1, { p.2 with prot := .w }) }
    s.dirs.get? 0x50000 = some own ∧ own.lock = false ∧ own.st = .own 0 ∧ s.owesAnswer 0x50000 0 = false ∧
    ({ s with dirs := [(0x50000, shd)] } : State).holders shd ≠ [] ∧
    (({ s with dirs := [(0x50000, shd)] } : State).holders shd).filter (fun c => c != 0 || s.owesAnswer 0x50000 0) ≠ [] ∧
    s.poison = [] ∧ (missOf .d).waiters ≠ [] ∧ noDataFor s (missOf .d) = [] ∧ (s.coreD 0).windowed 0x50000 = false ∧
    ((win (issuing 0)).coreD 0).windowed 0x50000 = true ∧
    (∀ p ∈ [(0x50000, (1 : Byte)), (2 ^ 39 - 1, 2)], isRemote p.1 = false) ∧
    rd.cur = some (.read 1) ∧ rd.acks = 1 ∧ rd.held = [] ∧ (up 1).cur = some (.own 1) ∧ (up 2).acks = 0 + 2 ∧
    (∀ p ∈ (up 1).ptrs, p.1 = 0 ∨ p.1 = 1) ∧ (warm (issuing 0)).dirs = [] ∧
    ((warm (issuing 0)).coreD 0).grainSt 0x50000 = some .v ∧
    (((warm (issuing 0)).updCore 0 fun c => c.setGrain 0x50000 .ex).coreD 0).grainSt 0x50000 = some .ex := by decide

theorem meets_FillsAndDeliveries :
    let m := missOf .s
    let s := missing m []
    let st : Miss := { m with waiters := [⟨0, 7, 0, 0x10000, 0x50000, 4, .store [1, 2, 3, 4]⟩] }
    let wt : Waiter := ⟨0, 7, 0, 0x10000, 0x50000, 4, .loadV .b32 5⟩
    let lw : LdbWait := ⟨0, 7, 0, 0x50000, 4, .b32, 5, 0x50000, 1, 0, m⟩
    let late := (flying (issuing 0) 7 1).updCore 0 fun c => { c with ldbWaits := [lw] }
    let early := (flying (issuing 0) 7 1).updCore 0 fun c => { c with ldbWaits := [lw], misses := [m] }
    let bound : Miss := { m with waiters := [⟨0, 7, 0, 0x10000, 0x50000, 4, .loadB .b32 5 1⟩] }
    ((missing bound []).coreD 0).miss? 0x50000 = some bound ∧ ge32 bound.frnd 1 = false ∧ ge32 bound.frnd 0 = true ∧
    (early.coreD 0).miss? lw.miss.grain = some m ∧ (late.coreD 0).miss? lw.miss.grain = none ∧
    FillFor s 0 0x50000 (List.replicate 32 7) m wt { ctx0.g with flights := [flight 7 1] } ∧ isStore wt = false ∧
    m.useOnce = false ∧ (s.coreD 0).pickWay 0x50000 ≠ none ∧
    ((missing st []).coreD 0).miss? 0x50000 = some st ∧
    translate s 0 1 0x10000 .rd = .ok page0 ∧ (s.coreD 0).misses = [m] ∧
    s.cores.get? 0 = some { bootCore with misses := [m] } ∧ GrainAt 0x50000 32 ∧
    mayInstall (issuing 0) bootCore 0x50000 32 0 (List.replicate 32 1) = true ∧
    mayInstall (issuing 0) bootCore 0x50000 32 0 [] = false ∧
    late.gctx 0 = some { ctx0 with g := { ctx0.g with flights := [flight 7 1] } } ∧
    late.cores.get? (coreOfGroup 0) = some { bootCore with ldbWaits := [lw] } ∧ lw.miss.waiters = [wt] ∧ lw.miss.own = false := by
  refine ⟨by decide, by decide, by decide, by decide, by decide,
    ⟨by decide, by decide, by decide, ⟨⟨by decide, by decide⟩, by decide⟩, by decide, by decide⟩, by decide, by decide,
    by decide, by decide, by decide, by decide, by decide, ⟨by decide, by decide⟩, ?_⟩
  decide

/-! ### Runs and votes -/

/-- The placed team's sequencer waits below, its group stands idle with a race. -/
def racing (race : List RaceItem) (q : Seq → Seq) : State :=
  ((issuing 0).updGroup 0 fun g => { g with st := .idle, run := none, race := race }).updSeq (.team 0) q

theorem meets_RunEvents_runs :
    let r : Run := ⟨0x10004, 0x1000C, 0, .regs [1, 2], true⟩
    let s := racing [.run r] id
    let e := (issuing 0).updGroup 0 fun g => { g with run := some r }
    let m := racing [.marker] id
    let t := (issuing 0).updTeam 0 fun t => { t with race := [.marker] }
    let u := (issuing 0).updTeam 0 fun t => { t with race := [.run r] }
    let v := (racing [] id).updTeam 0 fun t => { t with race := [.run r] }
    (s.group? 0).map (fun g => (g.race, g.drained)) = some ([.run r], true) ∧ r.first = true ∧
    ((s.updGroup 0 fun g => { g with flights := [flight 7 1] }).group? 0).map (·.flights) = some [flight 7 1] ∧
    v.groupsOfTeam 0 = [0] ∧ (v.group? 0).map (fun g => (g.drained, g.run.isNone, runCount g.race)) = some (true, true, 0) ∧
    (s.group? 0).map (·.st) = some .idle ∧
    (s.seq? (.team 0)).map (·.st) = some .upwait ∧
    (e.group? 0).map (·.run) = some (some r) ∧ (e.group? 0).map (·.st) = some .running ∧
    (∀ n ∈ [1, 2], ctx0.g.pendS.has n = false) ∧
    (m.gctx 0).map (fun x => (x.g.st, x.g.race)) = some (.idle, [.marker]) ∧
    (t.team? 0).map (fun x => (x.seq.st, x.race)) = some (.upwait, [.marker]) ∧ (bootTeam .g).activeG.Nodup ∧
    (u.team? 0).map (fun x => (x.seq.st, x.race)) = some (.upwait, [.run r]) ∧
    (v.team? 0).map (fun x => (x.seq.st, x.race)) = some (.upwait, [.run r]) ∧ (u.seq? (.grid (bootTeam .g).grid)).map (·.st) = some .launch ∧ (s.grid? 0).map (·.seq.st) = some .launch ∧
    ((racing [.run r] fun q => { q with st := .park }).seq? (.team 0)).map (·.st) = some .park ∧
    ((s.updGrid 0 fun g => { g with kcb := { g.kcb with whole := true }, seq := { g.seq with st := .park, route := some .debug } }).grid? 0).map
      (fun g => (g.kcb.whole, g.seq.st, g.seq.route)) = some (true, .park, some .debug) := by decide

theorem meets_RunEvents_sequencers :
    let full := racing [] fun q => { q with st := .full }
    let held := racing [] fun q => { q with st := .vers, heldWrite := some (1, 7) }
    let pin := racing [] fun q => { q with st := .vers, heldWrite := none, run := some ⟨0x10004, 0x1000C, 3, .none, false⟩ }
    let stop := racing [] fun q => { q with st := .fetch, stopReq := .tree }
    (full.seq? (.team 0)).map (·.st) = some .full ∧ raceFull full (.team 0) = false ∧
    (held.seq? (.team 0)).map (·.heldWrite) = some (some (1, 7)) ∧ named held (.team 0) (bootTeam .g).seq.cur = false ∧
    (pin.seq? (.team 0)).map (fun q => (q.st, q.heldWrite)) = some (.vers, none) ∧
    named pin (.team 0) (bootTeam .g).seq.cur = false ∧
    (stop.seq? (.team 0)).map (fun q => (q.st, q.stopReq)) = some (.fetch, .tree) ∧
    (((issuing 0).updSeq (.grid 0) fun q => { q with stopReq := .tree }).seq? (.grid 0)).map (·.stopReq) = some .tree ∧
    ((issuing 0).teamsOfGrid 0).Nodup ∧ (allNamed (racing [] id)).seq? (.team 0) ≠ none ∧
    freeVersion (allNamed (racing [] id)) (.team 0) (bootTeam .g).seq = none := by decide

/-- A vote over one report, at an instruction that asks for registers and at one that asks for a mask. -/
theorem meets_RunEvents_votes :
    let reg := (issuing (encode (.sadd (.k 1) (.s 2) (.s (.s 3)))).toNat).updSeq (.team 0) fun q =>
      { q with st := .vote, voted := none, reports := [(0, [5, 6])] }
    let msk := (issuing (encode (.brm .t false false 1 0)).toNat).updSeq (.team 0) fun q =>
      { q with st := .vote, voted := none, reports := [(0, [1, 3])] }
    instrAt reg (.team 0) 0x10004 = some (.sadd (.k 1) (.s 2) (.s (.s 3))) ∧
    allReports reg (.team 0) (askOf (.sadd (.k 1) (.s 2) (.s (.s 3)))) = some [(0, [5, 6])] ∧
    (∀ m, askOf (.sadd (.k 1) (.s 2) (.s (.s 3))) ≠ .mask m) ∧
    (voteRegs 2 [(0, [5, 6])] 2).map (·.uniform) = some true ∧ (voteRegs 2 [(0, [5, 6]), (1, [5, 7])] 2).map (·.uniform) = some false ∧
    instrAt msk (.team 0) 0x10004 = some (.brm .t false false 1 0) ∧ askOf (.brm .t false false 1 0) = .mask 1 ∧
    allReports msk (.team 0) (.mask 1) = some [(0, [1, 3])] := by
  refine ⟨by decide, by decide, ?_, ?_⟩
  · intro m h; cases h
  · decide

theorem meets_RunEvents_stops :
    let park : Group := { ctx0.g with st := .idle, stopReq := .preempt }
    let wait : Group := { ctx0.g with st := .waiting (.bwait 0 3 7), stopReq := .preempt, flights := [flight 7 1] }
    let debug : Group := { ctx0.g with st := .idle, stopReq := .debug, flights := [flight 7 1] }
    let esc : Group := { ctx0.g with st := .escalated, sframe := some supFrame }
    let hold (g : Group) : Group := { framed .fdt g with st := .revoteHeld }
    let rev := issuingG (encode (.smovi (.s 1) 7)).toNat hold
    let ret (g : Group) : Group := { g with st := .retiring }
    ((issuing 0).setGroup 0 park).group? 0 = some park ∧ park.flights = [] ∧
    ((issuing 0).setGroup 0 wait).group? 0 = some wait ∧ (flight 7 1).id = 7 ∧
    ((issuing 0).setGroup 0 esc).group? 0 = some esc ∧ esc.sframe = some supFrame ∧
    rev.gctx 0 = some (ctxG hold) ∧
    (∃ x, fetchSlot rev (.group 0) bootKcb.paced 0x10004 none = .ok x ∧ unitBusy rev 0 x.instr = false) ∧
    ((issuing 0).setGroup 0 debug).group? 0 = some debug ∧
    ((engineAt (.mmloop 0 0 0 0 0)).coreD (coreOfGroup 0)).engine = [⟨0, 0, 7, 0, .mmloop 0 0 0 0 0, []⟩] ∧
    (ctxG ret).g.flags = [] ∧ (ctxG ret).g.acks = [] ∧ (ctxG ret).g.issue = none ∧ (ctxG ret).g.rels = [] ∧ (issuingG 0 ret).saved = [] ∧
    (issuingG 0 ret).gctx 0 = some (ctxG ret) ∧ (ctxG ret).g.flights = [] ∧ (ctxG ret).g.unsettled = [] ∧
    (∀ j ∈ (issuingG 0 ret).groupsOfTeam 0, j = 0) ∧ (issuingG 0 ret).copies 0 = [] ∧
    1 ∈ (((issuingG 0 ret).setGroup 1 ctx0.g).updTeam 0 fun t => { t with groups := [0, 1] }).groupsOfTeam 0 :=
  ⟨by decide, by decide, by decide, by decide, by decide, by decide, by decide, ⟨_, rfl, by decide⟩, by decide, by decide,
    by decide, by decide, by decide, by decide, by decide, by decide, by decide, by decide, by decide, by decide, by decide⟩

/-! ### Grids, queues and packets -/

/-- A mapped queue whose ring lies at 0x10400 and whose control block lies at 0x60000, with one packet. -/
def queue0 : Queue :=
  { qcb := 0x60000, rbase := 0x10400, rsize := 4, prio := 5, asid := 1, dbidx := 1, vf := 0, evbase := 0x10000, esize := 4
    wptr := 1, rptr := 0, ewptr := 0, edrop := 0, err := false, ecode := 0, parked := false, slot := some 0
    pending := none, levels := 0, mappedAt := 0, resident := false, watch := none, unmapReq := false }

def withQueue (q : Queue) (s : State) : State := { s with queues := s.queues.set 5 q, nextKey := 100 }

/-- The packet of a type with flags, whose first 32 bytes and bytes from 0x24 are given, at the head of the queue. -/
def packet (type flags : Nat) (first rest : List Byte) : State :=
  let s := withQueue queue0 (issuing 0)
  { s with mem := memWrite (memWrite s.mem 0x50400 first) 0x50420 (leBytes 1 type ++ leBytes 1 flags ++ leBytes 2 0 ++ rest) }

def packetBytes (s : State) : List Byte := peek s 0x50400 128

/-- The translation of the packet's address. -/
def pageAt (pa : Nat) : Xlat := { page0 with pa := pa }

theorem head_of {s : State} {q : Queue} (h : s.queues.get? 5 = some q ∧
    (q.slot.isNone || q.err || !q.holds || s.s2waits.any fun w => w.unit == .queue 5) = false ∧
    queueXlat s q q.headVa = .ok (pageAt 0x50400) ∧ (s.pathHeld 0x50400 0 = false ∧ s.noData 0x50400 128 = false) ∧
    pktBad q (peek s 0x50400 128) = false) :
    headOf s 5 = .packet q 0x50400 (packetBytes s) := by
  obtain ⟨h1, h2, h3, ⟨hp, h4⟩, h5⟩ := h
  have e : (pageAt 0x50400).pa = 0x50400 := rfl
  unfold headOf packetBytes
  simp only [h1, h2, h3, e, hp, h4, h5, Bool.false_eq_true, if_false]

/-- No core of the state holds a grain, and so none holds host-memory bytes. -/
theorem blockHere_of {s : State} {vf qcb : Nat} (h : (s.dirs = [] ∧ s.fab.timeFrame = none ∧
    ∀ n < 128, isRemote (qcb + n) = false ∧ movedTo s (qcb + n) = none) ∧ s.cores.all (fun p => p.2.l1 == []) = true) :
    BlockHere s vf qcb := by
  refine ⟨h.1.1, h.1.2.1, h.1.2.2, fun c => ?_⟩
  have e : (s.coreD c).l1 = [] := by
    unfold State.coreD
    unfold Tab.getD
    cases g : s.cores.get? c with
    | none => rfl
    | some x => simpa using List.all_eq_true.mp h.2 (c, x) (Laws.mem_of_get? g)
  unfold hostShared grainsOf Core.allGrains
  rw [e]
  rfl

theorem answered_of {s : State} {q : Queue} {y : Xlat} (h : packetXlat s q = .ok y) : ∀ l ipa, packetXlat s q ≠ .stage2 l ipa := by
  intro l ipa e
  rw [h] at e
  cases e

theorem packetAt_of {s : State} {type : Nat} {q : Queue} (h : s.queues.get? 5 = some q ∧
    (q.slot.isNone || q.err || !q.holds || s.s2waits.any fun w => w.unit == .queue 5) = false ∧
    queueXlat s q q.headVa = .ok (pageAt 0x50400) ∧ (s.pathHeld 0x50400 0 = false ∧ s.noData 0x50400 128 = false) ∧
    pktBad q (peek s 0x50400 128) = false ∧ fieldAt (packetBytes s) 0x20 1 = type ∧
    (fieldAt (packetBytes s) 0x21 1 % 2 = 0 ∨ openGrids s 5 = false)) :
    PacketAt s 5 type q 0x50400 (packetBytes s) :=
  ⟨head_of ⟨h.1, h.2.1, h.2.2.1, h.2.2.2.1, h.2.2.2.2.1⟩, h.2.2.2.2.2.1, h.2.2.2.2.2.2⟩

/-- A grid that waits for its first team, streamed or whole, on the placed core emptied of its own. -/
def waitingGrid (whole : Bool) : State :=
  let s := loaded (issuing 0)
  { s with
    groups := [], teams := []
    grids := [(0, { bootGrid .d with
      kcb := { bootKcb with whole := whole, reqfeat := 0, gcode := false }, st := .waiting, gsNum := none
      nextTeam := 0, teams := [], cores := [] })] }

/-- A streamed grid fits core 0, where its units are awake, or all are gated. -/
def teamFits (s : State) (asleep : Bool) : Bool :=
  match s.grid? 0 with
  | some g => !g.kcb.whole && mayPlace s 0 g && g.host &&
    (match findCore s g.asid g.kcb (searchOrder s g.vf g.lastV) with
    | some p => p.1 == 0 && sleeping s 0 (unitsOf g.kcb p.2) == asleep
    | none => false)
  | none => false

/-- A whole grid fits the partition's cores, and its units are awake. -/
def columnsFit (s : State) : Bool :=
  match s.grid? 0 with
  | some g => g.kcb.whole && mayPlace s 0 g && g.host && decide (seqsHeld s g.vf < gsmaxOf s g.vf) && freeGridSeq s == some 0 &&
    (match findColumns g.kcb (g.x * g.y * g.z) ((searchOrder s g.vf none).filterMap fun c =>
        (offerOf s c g.asid g.kcb).map fun u => (c, u)) with
    | some ps => ps.all fun q => q.spots.all fun sp => !sleeping s q.core (unitsOf g.kcb sp)
    | none => false)
  | none => false

theorem meets_Dispatcher_placement : teamFits (waitingGrid false) false = true ∧
    teamFits ((waitingGrid false).updCore 0 fun c => { c with units := (List.range 48).map fun n => (n, .gated) }) true = true ∧
    columnsFit (waitingGrid true) = true ∧ gridSaved (waitingGrid false) 0 = false ∧ teamsOn (waitingGrid false) 0 = [] ∧
    gridSaved { waitingGrid false with saved := [(4, ⟨1, 0, 0, 0, [(16, bootTeam .g)], [], [], [], [], []⟩)] } 0 = true ∧
    (bootGrid .d).x * (bootGrid .d).y * (bootGrid .d).z ≤ 8192 := by decide

theorem meets_Dispatcher_queues :
    let ending (sig : Bool) := (issuing 0).updGrid 0 fun g => { g with st := .ending, sig := sig, sigaddr := 0x10200 }
    let pend : Queue := { queue0 with slot := none, pending := some 0, wptr := 0 }
    let s := withQueue pend (issuing 0)
    let full := { s with
      queues := s.queues.set 6 { queue0 with dbidx := 2, prio := 2, wptr := 0 }
      vfs := s.vfs.modify 0 fun v => { v with quota := 1 } }
    let high := { full with queues := full.queues.set 6 { queue0 with dbidx := 2, prio := 15, wptr := 0 } }
    let unm := withQueue { queue0 with unmapReq := true } (issuing 0)
    let wat := withQueue { queue0 with watch := some (0x10200, 0, false), parked := true, slot := none } (issuing 0)
    let not_ := withQueue { queue0 with watch := some (0x10200, 1, false), parked := true, slot := none } (issuing 0)
    ((ending true).grid? 0).map (·.st) = some .ending ∧ ((ending false).grid? 0).map (·.sig) = some false ∧
    SignalReaches (ending true) 1 0x10200 { page0 with pa := 0x50200 } ∧
    pendingOrder (issuing 0) = [] ∧ pendingOrder s = [5] ∧ (mappedOf s 0).length < quotaOf s 0 ∧ freeSlot s = some 0 ∧
    (BlockHere s pend.vf pend.qcb ∧ ∀ c, hostShared (ending true) c 0 = []) ∧ (wat.queues.get? 5).map (·.parked) = some true ∧ (numAt s 0x60008 8 + 2 ^ 64 - pend.rptr) % 2 ^ 64 ≤ 2 ^ pend.rsize ∧
    pendingOrder full = [5] ∧ quotaOf full 0 ≤ (mappedOf full 0).length ∧ (victim full 0).map (·.1) = some 6 ∧ 2 < effPrio full pend ∧
    (victim high 0).map (·.1) = some 6 ∧ effPrio high pend ≤ 15 ∧
    (unm.queues.get? 5).map (fun q => (q.unmapReq, q.slot.isSome)) = some (true, true) ∧
    waitWord wat queue0 0x10200 = some 0 ∧ waitWord not_ queue0 0x10200 = some 0 := by
  refine ⟨by decide, by decide, by unfold SignalReaches; decide, by decide, by decide, by decide, by decide,
    ⟨blockHere_of (by decide), (blockHere_of (qcb := 0x60000) (by decide)).2.2.2⟩, ?_⟩
  decide

theorem meets_Packets_plain :
    let n := packet 0x01 0 [] []
    let held := packet 0x01 1 [] []
    let busy := held.updGrid 0 fun g => { g with queue := 5 }
    let l (x flags : Nat) := loaded (packet 0x02 0 ((launchBytes x flags).take 32) [])
    let at_ (s : State) := walked s 5 queue0 (fieldAt (packetBytes s) 0 8)
    PacketAt n 5 0x01 queue0 0x50400 (packetBytes n) ∧ BlockHere n queue0.vf queue0.qcb ∧
    PacketAt held 5 0x01 queue0 0x50400 (packetBytes held) ∧ openGrids held 5 = false ∧
    headOf busy 5 = .packet queue0 0x50400 (packetBytes busy) ∧ fieldAt (packetBytes busy) 0x21 1 % 2 = 1 ∧
    openGrids busy 5 = true ∧ headOf (packet 0x05 0 [] []) 5 = .defect 0x01 ∧
    PacketAt (l 1 0) 5 0x02 queue0 0x50400 (packetBytes (l 1 0)) ∧ launchRefusal (at_ (l 1 0)) 0 1 (packetBytes (l 1 0)) true = none ∧
    PacketAt (l 2 0) 5 0x02 queue0 0x50400 (packetBytes (l 2 0)) ∧
    launchRefusal (at_ (l 2 0)) 0 1 (packetBytes (l 2 0)) true = some 0x02 ∧ PacketAt (l 2 1) 5 0x02 queue0 0x50400 (packetBytes (l 2 1)) ∧
    SignalReaches (at_ (l 2 1)) 1 (BitVec.ofNat 64 (fieldAt (packetBytes (l 2 1)) 0x10 8)) { page0 with pa := 0x50200 } ∧
    BlockHere (l 2 1) queue0.vf queue0.qcb ∧ (∀ m < 8, 0x50200 + m < queue0.qcb ∨ queue0.qcb + 128 ≤ 0x50200 + m) ∧
    launchRefusal (at_ (l 2 1)) 0 1 (packetBytes (l 2 1)) true = some 0x02 ∧ fieldAt (packetBytes (l 2 1)) 0x0E 2 % 2 = 1 := by
  refine ⟨packetAt_of ?_, blockHere_of ?_, packetAt_of ?_, ?_, head_of ?_, ?_, ?_, ?_, packetAt_of ?_, ?_, packetAt_of ?_, ?_,
    packetAt_of ?_, ?_, blockHere_of ?_, ?_, ?_, ?_⟩ <;> first | (unfold SignalReaches; decide +kernel) | decide +kernel

theorem meets_Packets_words :
    let w (a v : Nat) := packet 0x03 0 (leBytes 8 a ++ leBytes 8 v) []
    let refused := { w 0x10200 0 with mem := memWrite (w 0x10200 0).mem 0x50200 (leBytes 8 (2 ^ 63 + 2)) }
    let sig := packet 0x04 0 (leBytes 16 0 ++ leBytes 8 0x10200 ++ leBytes 8 9) []
    let busy := sig.updGrid 0 fun g => { g with queue := 5 }
    let at_ (s : State) (a : Nat) := walked s 5 queue0 a
    PacketAt (w 4 0) 5 0x03 queue0 0x50400 (packetBytes (w 4 0)) ∧ waitWord (at_ (w 4 0) 4) queue0 4 = none ∧
    waitStage2 (at_ (w 4 0) 4) queue0 4 = none ∧
    PacketAt (w 0x10200 0) 5 0x03 queue0 0x50400 (packetBytes (w 0x10200 0)) ∧
    waitWord (at_ (w 0x10200 0) 0x10200) queue0 0x10200 = some 0 ∧
    PacketAt (w 0x10200 1) 5 0x03 queue0 0x50400 (packetBytes (w 0x10200 1)) ∧
    waitWord (at_ (w 0x10200 1) 0x10200) queue0 0x10200 = some 0 ∧
    PacketAt refused 5 0x03 queue0 0x50400 (packetBytes refused) ∧
    waitWord (at_ refused 0x10200) queue0 0x10200 = some (BitVec.ofNat 64 (2 ^ 63 + 2)) ∧
    PacketAt sig 5 0x04 queue0 0x50400 (packetBytes sig) ∧ openGrids sig 5 = false ∧
    SignalReaches (fillQueue sig 5) 1 (BitVec.ofNat 64 (fieldAt (packetBytes sig) 0x10 8)) { page0 with pa := 0x50200 } ∧
    BlockHere sig queue0.vf queue0.qcb ∧ PacketAt busy 5 0x04 queue0 0x50400 (packetBytes busy) ∧ openGrids busy 5 = true := by
  refine ⟨packetAt_of ?_, ?_, ?_, packetAt_of ?_, ?_, packetAt_of ?_, ?_, packetAt_of ?_, ?_, packetAt_of ?_, ?_, ?_,
    blockHere_of ?_, packetAt_of ?_, ?_⟩ <;>
    first | (unfold SignalReaches; decide +kernel) | decide +kernel

/-- A packet, and a WAIT's word, behind a second stage that has no root. -/
theorem meets_Packets_stage2 :
    let n := packet 0x01 0 [] []
    let t := { n with ctxs := n.ctxs.modify 1 fun c => { c with vf := 1 } }
    headOf t 5 = .stage2 queue0 1 0x20000 ∧ t.queues.get? 5 = some queue0 ∧ waitStage2 n queue0 4 = none ∧
    (waitStage2 t queue0 0x10200).isSome = true := by decide +kernel

/-! Commands: the admin queue is queue 5 with DBIDX 0. -/

def admin : Queue := { queue0 with dbidx := 0 }

/-- A command of a code, whose argument words at 0x00 and 0x08 are given, and its 16 bytes at 0x40. -/
def command (code a b c : Nat) : State :=
  withQueue admin (packet 0x20 0 (leBytes 8 a ++ leBytes 8 b) (leBytes 2 code ++ leBytes 2 0 ++ leBytes 24 0 ++ leBytes 16 c))

/-- The command is at the head of the admin queue, and sound. -/
def commandHere (code a b c : Nat) : Bool :=
  let s := command code a b c
  let bs := packetBytes s
  queueXlat s admin admin.headVa == .ok (pageAt 0x50400) && !pktBad admin bs && fieldAt bs 0x20 1 == 0x20 && fieldAt bs 0x21 1 % 2 == 0 &&
    fieldAt bs 0x24 2 == code && fieldAt bs 0x26 2 == 0 && fieldAt bs 0 8 == a && fieldAt bs 8 8 == b && fieldAt bs 0x40 16 == c

theorem meets_Commands :
    CommandAt (command 0x01 0 0 0) 5 0x01 admin 0x50400 (packetBytes (command 0x01 0 0 0)) :=
  ⟨packetAt_of (by decide +kernel), by decide +kernel, answered_of (y := pageAt 0x50400) (by decide +kernel)⟩

/-- Each command with arguments at both sides of its checks. -/
theorem meets_Commands_arguments : ([commandHere 0x01 0 0 (2 ^ 16), commandHere 0x02 1 0 0, commandHere 0x03 2 0 0,
    commandHere 0x04 0x60000 0 0, commandHere 0x05 9 0 0, commandHere 0x06 0x10000 1 0, commandHere 0x07 0x0F0001 0 0,
    commandHere 0x08 1 0 0, commandHere 0x09 0x10000 0 0, commandHere 0x0A 1 0 0, commandHere 0x0B 1 (2 ^ 48) 0,
    commandHere 0x0C 0 786432 0, commandHere 0x0D 0x10000 0 0, commandHere 0x0E 1 0 0, commandHere 0x0F 32 0 0,
    commandHere 0x10 1 0x10000 0, commandHere 0x11 1 0 0] : List Bool).all id = true := by decide +kernel

theorem meets_Commands_states :
    let s := command 0x03 1 0 0
    let st := (command 0x08 1 0 0).updGrid 0 fun g => { g with debugStop := true }
    let esc := { (command 0x09 0x10000 0 0) with s2waits := [⟨0, .group 0, 0, 0⟩] }.updGroup 0 fun g =>
      { g with st := .escalated, sframe := some supFrame }
    let mig := pooled [9] (command 0x10 1 0x10000 0)
    s.ctxs.get? 1 = some ⟨0, 0x20000, 0, [], []⟩ ∧ ctxUsed s 1 = true ∧ ctxUsed { s with grids := [], queues := [], teams := [] } 1 = false ∧
    s.ctxs.get? 2 = none ∧ s.ctxs.length < 65535 ∧ (s.vfs.get? 0).map (·.s2root) = some none ∧ stoppedGrid s 0 1 = none ∧
    stoppedGrid st 0 1 = some 0 ∧ esc.s2waits.filter (fun w => w.vf == 0 && w.va == 0) = [⟨0, .group 0, 0, 0⟩] ∧
    (esc.group? 0).map (·.st) = some .escalated ∧ esc.reeveWaits = [] ∧ ownPa (fillTwo s 0 0x60000) 0 0x60000 = some 0x60000 ∧
    pageEntry (fillWalk mig 1 0x10000) 1 0x10000 = some (0x40008, 0x50573) ∧ (mig.vfs.get? 0).map (·.pool) = some [9] ∧
    mig.dirs = [] ∧ (∀ p ∈ mig.cores, p.2.l1 = []) ∧ isRemote (eFrame 0x50573 * 65536) = false ∧ 9 ≠ eFrame 0x50573 ∧
    (stage2 s 0 (1 * 65536)).map (·.pa) = some 65536 ∧ (stage2 s 0 (2 ^ 23 * 65536)).map (·.pa) = some (2 ^ 39) := by decide +kernel

/-- Where a command's answer is written: the packet in the device's memory, clear of the queue's control block. -/
theorem meets_Commands_answer :
    let s := command 0x03 1 0 0
    packetXlat s admin = .ok (pageAt 0x50400) ∧ (∀ n < 128, isRemote (0x50400 + n) = false ∧ movedTo s (0x50400 + n) = none) ∧
    (∀ n < 128, 0x50400 + n < admin.qcb ∨ admin.qcb + 128 ≤ 0x50400 + n) ∧ BlockHere s admin.vf admin.qcb := by
  refine ⟨?_, ?_, ?_, blockHere_of ?_⟩ <;> decide +kernel

/-- REPAIR of a word that waits, and of a saved unit; ATTEST's report where it may be written and where it may not. -/
theorem meets_Commands_reeves :
    let va : W64 := 0x10000
    let w : ReeveWait := ⟨0, va, true, .word ⟨some 5, 0, 1, 9, false⟩ 1 0⟩
    let r := { command 0x09 0x10000 0 0 with reeveWaits := [w] }
    let u : State := { command 0x09 0x10000 0 0 with
      saved := [(4, ⟨1, 0, 0, 0, [], [], [], [], [], [⟨0, .group 0, va, 0⟩]⟩)] }
    let far (s : State) : State := { s with
      mem := memWrite s.mem 0x40008 (leBytes 8 ((2 ^ 35 + 3 * 2 ^ 23) * 2 ^ 16 + 0x673)), fab := { s.fab with dev := 1 } }
    let cut (s : State) : State := { far s with fab := { (far s).fab with unreachable := [3] } }
    let drain (s : State) : State := { far s with
      fab := { (far s).fab with links := [(2, { Link.start with draining := true })], route := [(9, (2, 2))] } }
    let two (s : State) : State := { s with ctxs := s.ctxs.modify 1 fun c => { c with vf := 1 } }
    let look (s : State) (a : Nat) : ReeveRes := (reeveCheck s 0 1 .wr a (List.replicate 44 8)).2
    let c := command 0x0F 0x10000 0 0
    r.s2waits = [] ∧ r.reeveWaits.filter (reeveAt 0 va) = [w] ∧ u.s2waits = [] ∧ u.reeveWaits = [] ∧
    (∃ p ∈ u.saved, (p.2.waits.any fun w => w.vf == 0 && w.va == va) = true) ∧ 0x10000 % 64 = 0 ∧ look c 0x10000 = .ok ∧
    look c 0x20000 = .bad ∧ look (cut c) 0x10000 = .cut (2 ^ 51 + 3 * 2 ^ 39) 0x10000 ∧ look (drain c) 0x10000 = .wait 0x10000 ∧
    look (two c) 0x10000 = .two 1 0x20000 0x10000 := by decide +kernel

/-- INVAL_FN and MIGRATE while their invalidation is not complete, and its end; ABORT of a stopped grid; a queue that waits. -/
theorem meets_Commands_waiting :
    let s := command 0x0A 1 0 0
    let i : Inval := ⟨.fn 1, [], [], .command 5⟩
    let t := { s with invals := [i] }
    let a := (command 0x11 1 0 0).updGrid 0 fun g => { g with debugStop := true }
    let w := { command 0x09 0 0 0 with s2waits := [⟨0, .queue 6, 0, 0⟩] }
    PacketAt a 5 0x20 admin 0x50400 (packetBytes a) ∧ fieldAt (packetBytes a) 0x24 2 = 0x11 ∧ stoppedGrid a 0 1 = some 0 ∧
    (a.grid? 0).isSome = true ∧ (∀ l ipa, packetXlat (fillQueue a 5) admin ≠ .stage2 l ipa) ∧ cmdRuns s 5 = false ∧ cmdRuns t 5 = true ∧ (s.vfs.get? 0).isSome = true ∧
    headOf (settleInval t i) 5 = .packet admin 0x50400 (packetBytes s) ∧
    ({ w with queues := w.queues.set 6 queue0 }.queues.get? 6) = some queue0 ∧
    w.s2waits.filter (fun x => x.vf == 0 && x.va == 0) = [⟨0, .queue 6, 0, 0⟩] ∧ s.s2waits = [] ∧ s.saved = [] := by
  refine ⟨packetAt_of ?_, ?_, ?_, ?_, answered_of (y := pageAt 0x50400) ?_, ?_⟩ <;> decide +kernel

/-- A command whose packet, found while its page still translated, no longer takes its answer. -/
theorem meets_Commands_stage2 :
    let s := command 0x01 0 0 0
    let t := { s with ctxs := s.ctxs.modify 1 fun c => { c with vf := 1 } }
    packetXlat t admin = .stage2 1 0x20000 := by decide +kernel

/-- The move of the page at 0x10000 in its steps: the page under protocol S and under D, from frame 5 to frame 9. -/
theorem meets_Commands_move :
    let m (d : Bool) (step grains : Nat) : PageMove :=
      ⟨5, 1, 0, 0x10000, 0x40008, if d then 0x50473 else 0x50573, 0x50000, 0x90000, 9, d, step, grains⟩
    let s (x : PageMove) : State := { command 0x10 1 0x10000 0 with moves := [x], cores := [] }
    let mig := pooled [9] (command 0x10 1 0x10000 0)
    let lck : Dir := { Dir.fresh 128 with lock := true, held := [.own 0] }
    let mrg : Dir := { Dir.fresh 128 with lock := true, held := [.merge 0 [(0x50000, 1)]] }
    let hst : Dir := { Dir.fresh 128 with hostown := true }
    framePa mig 0 (eFrame 0x50573) = some 0x50000 ∧ framePa mig 0 9 = some 0x90000 ∧ (mig.ctxs.get? 1).map (·.vf) = some 0 ∧
    mig.moves = [] ∧ isRemote 0x50000 = false ∧ (∀ n < 8, isRemote (0x40008 + n) = false) ∧ (s (m true 1 0)).fab.timeFrame = none ∧
    (m true 1 0).locks = true ∧ (m false 1 0).locks = false ∧ (m true 1 0).base0 = 0x50000 ∧ 0 * (m true 1 0).gsz < 65536 ∧
    65536 ≤ 512 * (m true 1 512).gsz ∧ roomAt (s (m true 1 0)) 0x50000 = none ∧ dirRoom (s (m true 1 0)) 0x50000 = true ∧
    ({ s (m true 2 0) with dirs := [(0x50000, hst)] } : State).dirs.get? 0x50000 = some hst ∧ hst.hostown = true ∧
    NoCopies (s (m true 2 0)) ∧ (s (m true 2 0)).invals = [] ∧ frameOf 0x50000 ≠ frameOf 0x90000 ∧
    Memory.wf (s (m true 3 0)).mem = true ∧ Memory.wf (s (m true 3 0)).fab.remote = true ∧
    lck.cur = none ∧ lck.rel = none ∧ (0x50000 : Nat) < 0x50000 + 65536 ∧ (0x50000 : Nat) < 0x50000 + lck.gsz ∧
    (m true 6 0).inOld 0x50000 = true ∧ isRemote ((m true 6 0).shift 0x50000) = false ∧
    mrg.held = [.merge 0 [(0x50000, 1)]] ∧ Tab.wf [((0x50000 : Nat), (1 : Byte))] = true ∧ ((s (m true 7 0)).vfs.get? 0).isSome = true ∧
    headOf { s (m true 7 0) with moves := [] } 5 = .packet admin 0x50400 (packetBytes (command 0x10 1 0x10000 0)) := by
  unfold NoCopies; decide +kernel

/-! ### Fabric, failures and bring-up -/

def linked (x : Link) : State := { issuing 0 with fab := { (issuing 0).fab with links := [(2, x)] } }

theorem meets_FabricAndHost :
    let s := flying (issuing 0) 7 1
    let w : W128 := BitVec.ofNat 128 (2 ^ 63 + 2 ^ 61 + 4 * 65536 + 5 * 2 ^ 80)
    let own : Dir := { Dir.fresh 128 with hostown := true }
    let c (n : Nat) : Coll := ⟨0, 0, 2, [0, 1], List.replicate n ⟨1, 0x10000, 0⟩, none, [(1, [([], [])])], [], false⟩
    (s.group? 0).isSome = true ∧ s.dirs = [] ∧ s.poison = [] ∧ isRemote 0x50000 = false ∧
    ({ s with poison := [(0x50000, 32)] } : State).poisoned 0x5001F 1 = true ∧ 1 ≠ s.fab.dev ∧
    Admits w false 3 0x5FFF8 8 ∧ ¬ Admits w false 3 0x5FFF9 8 ∧ ¬ Admits w true 3 0x50000 8 ∧
    (linked Link.start).fab.links.get? 2 = some Link.start ∧ Link.start.inService = true ∧ (0 : Nat) ∉ Link.start.crcFail ∧
    (0 : Nat) = Link.start.rxNext ∧ (linked { Link.start with crcFail := [0] }).fab.links.has 2 = true ∧
    own.cur = none ∧ own.lock = false ∧ own.hostown = true ∧ own.st = .un ∧ own.held = [] ∧
    (0 : Nat) + 50 < 2 ^ 64 ∧ (c 15).queue.length < 16 ∧ 16 ≤ (c 16).queue.length := by
  unfold Admits; decide

/-- A function that accepts every service; a path to device 3 over link 2; a host's line, busy and free; a member's part. -/
theorem meets_FabricAndHost_paths :
    let a (s : State) : State := { s with vfs := s.vfs.modify 0 fun v => { v with accepted := BitVec.allOnes 128 } }
    let far := linked Link.start
    let s : State := { far with fab := { far.fab with route := [(9, (2, 5))] } }
    let lck : Dir := { Dir.fresh 128 with lock := true }
    let busy : State := { a (issuing 0) with dirs := [(0x50000, lck)] }
    let free : State := { a (issuing 0) with dirs := [(0x50000, Dir.fresh 128)] }
    let host : Dir := { Dir.fresh 128 with hostown := true, held := [.own 0] }
    let c : Coll := ⟨0, 0, 2, [0, 3], [], none, [], [], false⟩
    isRemote (2 ^ 51 + 3 * 2 ^ 39) = true ∧ remoteDev (2 ^ 51 + 3 * 2 ^ 39) = 3 ∧ s.devCut 3 = false ∧ linkFor s 3 0 = some 2 ∧
    (a s).accepts 0 0 = true ∧ (a s).accepts 0 7 = true ∧ (a s).accepts 0 8 = true ∧ (issuing 0).accepts 5 8 = false ∧
    busy.busyAt 0x50000 128 true = true ∧ busy.dirs.keys = [0x50000] ∧ free.busyAt 0x50000 128 true = false ∧
    (0x50040 : Nat) / 128 * 128 = 0x50000 ∧ host.held = [.own 0] ∧ host.acks = 0 ∧ (s.dirs = [] ∧ s.agenda = []) ∧
    c.rankOf 3 = some 1 ∧ c.owed.getD 1 0 = 0 ∧ 3 ≠ s.fab.dev ∧
    ({ Link.start with draining := true } : Link).draining = true ∧ (∀ v ∈ s.vfs.keys, s.adminOf v = none) ∧
    ({ Link.start with inService := false } : Link).inService = false ∧ ({ Link.start with rxNext := 4 } : Link).rxNext ≠ 0 := by
  decide +kernel

/-- The descriptor at 0x10000 of an all-reduce of one 32-bit integer that two members have submitted: 7 here, 2 there. -/
def reducing : State :=
  let s := mapState 0x10000
  let c : Coll := ⟨0, 0, 2, [0, 1], [⟨1, 0x10000, 0⟩], none, [(1, [(leBytes 4 2, leBytes 8 1)])], [], false⟩
  let desc := leBytes 8 0x10040 ++ leBytes 8 0x10044 ++ leBytes 8 0x10048 ++ leBytes 8 1 ++ leBytes 32 0
  { s with
    mem := memWrite s.mem 0x50000 (desc ++ leBytes 4 7)
    fab := { s.fab with links := [(2, Link.start)], route := [(3, (5, 2))], colls := [(9, c)] } }

/-- A peer's access through an enabled window, admitted at once and behind another of its source; a part that was owed; a path
with an unacknowledged flit. -/
theorem meets_FabricAndHost_posted :
    let w : W128 := BitVec.ofNat 128 (2 ^ 63 + 2 ^ 61 + 4 * 65536 + 5 * 2 ^ 80)
    let s : State := { issuing 0 with fab := { (issuing 0).fab with ingest := [(0, w)], posted := [(false, 3, 0x50000, .read 8)] } }
    let lck : State := { s with dirs := [(0x50000, { Dir.fresh 128 with lock := true })] }
    let c : Coll := ⟨0, 0, 2, [0, 3], [], none, [], [(1, 2)], false⟩
    let far := linked { Link.start with unacked := [0] }
    s.fab.ingest.get? 0 = some w ∧ (w.extractLsb' 55 6).toNat = 0 ∧ (∃ y ∈ s.fab.posted, y.1 = false ∧ y.2.1 = 3) ∧
    (∀ y ∈ s.fab.posted, ¬ (y.1 = false ∧ y.2.1 = 4)) ∧ s.busyAt 0x5FFF8 8 true = false ∧ lck.busyAt 0x50000 8 true = true ∧
    c.owed.getD 1 0 = 1 + 1 ∧ movedTo reducing 0x50000 = none ∧
    ({ far with fab := { far.fab with route := [(9, (2, 5))] } } : State).pathIdle 9 = false := by decide +kernel

theorem meets_FabricAndHost_collective :
    reducing.devCut 1 = false ∧ reducing.devCut 2 = true ∧
    (match reducing.fab.colls.get? 9 with
      | none => false
      | some c =>
        let a : Submission := ⟨1, 0x10000, 0⟩
        let r := readDesc reducing c a
        let d := Desc.of r.2.2
        let look := collCheck r.1 c a .rd d.src (List.replicate d.count 4)
        let own := reeveRead look.1 c.vf 1 d.count d.src 4
        let out := dstCheck own.1 c a d
        let u := reeveWrite out.1 c.vf 1 d.dst [leBytes 4 (collElem d [own.2, leBytes 4 2] 0)]
        r.2.1 == .ok && look.2 == .ok && out.2 == .ok && c.queue == [a] && descOk r.2.2 c.n &&
          c.members.all (fun m => !r.1.devCut m) && etypeSize d.etype == 4 && own.2 == leBytes 4 7 &&
          (c.contrib.getD 1 []).head? == some (leBytes 4 2, d.shape) && d.shape != [] && d.dst % 4 == 0 &&
          (complete u c a d 1).fab.colls.get? 9 == some c && c.contrib.wf) = true := by
  decide +kernel

/-- What a collective's reeve meets where its page leads nowhere, to a device that is cut off or to a second stage with no root. -/
theorem meets_FabricAndHost_reeve :
    let a : Submission := ⟨1, 0x10000, 0⟩
    let gone : State := { reducing with mem := memWrite reducing.mem 0x40008 (leBytes 8 0) }
    let drop : State := { reducing with
      mem := memWrite reducing.mem 0x40008 (leBytes 8 ((2 ^ 35 + 2 * 2 ^ 23) * 2 ^ 16 + 0x673)) }
    let drain : State := { drop with
      fab := { drop.fab with links := [(2, { Link.start with draining := true })], route := [(6, (2, 2))] } }
    let two : State := { reducing with ctxs := reducing.ctxs.modify 1 fun c => { c with vf := 1 } }
    (match reducing.fab.colls.get? 9 with
      | none => false
      | some c => (readDesc gone c a).2.1 == .bad && (readDesc drain c a).2.1 == .wait 0x10000 &&
          (match (readDesc two c a).2.1 with | .two _ _ _ => true | _ => false) &&
          (collCheck gone c a .rd 0x10040 [4]).2 == .bad && (dstCheck gone c a (Desc.of (leBytes 64 0x10040))).2 == .ok &&
          (match (collCheck drop c a .rd 0x10040 [4]).2 with | .cut _ _ => true | _ => false)) = true := by
  decide +kernel

theorem meets_PowerFailureWeir :
    let s := issuing 0
    let gate (g : Gate) := s.updCore 0 fun c => { c with ways := [(1, g)], units := [(2, g)] }
    let stop := (s.updCore 0 fun c => { c with preempt := true }).updGroup 0 fun g => { g with st := .parked }
    let stop := stop.updSeq (.team 0) fun q => { q with st := .park }
    s.dirs = [] ∧ (∀ p ∈ s.cores, p.2.l1 = []) ∧ s.cores.has 0 = true ∧ (0 : Nat) ∉ s.fw.slicesOut ∧
    (linked Link.start).fab.links.has 2 = true ∧ bootCore.ways.get? 5 = none ∧
    (((gate .gated).cores.get? 0).bind fun c => c.ways.get? 1) = some .gated ∧
    (((gate .waking).cores.get? 0).bind fun c => c.ways.get? 1) = some .waking ∧
    47 ∉ unitsUsed s 0 ∧ 0 ∈ unitsUsed s 0 ∧
    (((gate .gated).cores.get? 0).bind fun c => c.units.get? 2) = some .gated ∧
    s.cores.get? 0 = some bootCore ∧ bootCore.vf = some 0 ∧ coreStopped s 0 = false ∧
    coreStopped (stop.updSeq (.grid 0) fun q => { q with st := .park }) 0 = true ∧ teamsOn stop 0 ≠ [] ∧ bootCore.giveTo = none := by
  decide

/-- The other die serves; all of a group of four slices but one have left service; a unit of a receiving core wakes. -/
theorem meets_PowerFailureWeir_units :
    let s := issuing 0
    let three := { s with fw := { s.fw with slicesOut := [1, 2, 3] } }
    let x : Saved := ⟨1, 0, 0, 0x4081, [(16, { bootTeam .g with core := 1 })], [], [], [], [], []⟩
    let t := ({ s with teams := [], groups := [], saved := [(4, x)] } : State).updCore 0 fun c =>
      { c with units := (List.range 48).map fun n => (n, .gated) }
    (∀ d < 2, deadDie s.fw d = false) ∧ (∀ m < 128, m / 4 = 0 / 4 → m ≠ 0 → 0 * 128 + m ∈ three.fw.slicesOut) ∧
    0 * 128 + 0 ∉ three.fw.slicesOut ∧ asleepIn t [(4, 0)] ≠ [] ∧
    asleepIn ({ s with teams := [], groups := [], saved := [(4, x)] } : State) [(4, 0)] = [] := by decide +kernel

/-- Saved teams that a core of their cluster takes; a partition short of its floor past its deadline. -/
theorem meets_PowerFailureWeir_moves :
    let x : Saved := ⟨1, 0, 0, 0x4081, [(16, { bootTeam .g with core := 1 })], [(64, { ctx0.g with team := 16 })], [], [], [], []⟩
    let gone := { bootGrid .g with teams := [], gsNum := none }
    let s := { issuing 0 with teams := [], groups := [], grids := [(0, gone)], saved := [(4, x)] }
    let y : Saved := { x with core := 2, teams := [(32, { bootTeam .g with core := 2 })], groups := [] }
    let two := { s with saved := [(4, x), (5, y)], cores := [(0, bootCore), (3, bootCore)] }
    let w := { issuing 0 with
      clk := 10 ^ 9
      grids := [(0, { bootGrid .d with vf := 1, nextTeam := 0, teams := [] })]
      teams := []
      cores := [(0, bootCore), (1, bootCore)]
      vfs := [(0, Vf.start true), (1, { Vf.start false with floor := 1, deadline := 1, shortSince := some 0 })] }
    s.saved.get? 4 = some x ∧ x.teams ≠ [] ∧ restorePlan s 4 0 = some [(4, 0)] ∧ (x.teams.map (fun p => p.1 % 16)).Nodup ∧
    restorePlan two 4 3 = some [(4, 3), (5, 0)] ∧ wholeSaved two [4] = [0] ∧ restorePlan two 4 1 = none ∧
    (x.groups.map (fun p => p.1 % 64)).Nodup ∧ (∀ p ∈ x.groups, p.2.sframe = none) ∧ deadlineDue w 1 = true ∧ donor w 1 = some 0 ∧ deadlineDue w 0 = false := by decide

theorem meets_Firmware :
    let at_ (n : Nat) : State := { State.reset with fw := { State.reset.fw with stage := BitVec.ofNat 32 n } }
    let dev := { at_ 4 with vfs := [(0, { Vf.start true with adminAddr := 0x60000 }), (1, Vf.start false)] }
    let s := withQueue queue0 (issuing 0)
    let far := { s with mem := memWrite s.mem 0x60008 (leBytes 8 17) }
    (at_ 1).fw.stage = BitVec.ofNat 32 1 ∧ (at_ 3).fw.stage = BitVec.ofNat 32 3 ∧ (at_ 4).fw.stage = 4 ∧
    (dev.vfs.get? 0).map (fun v => (v.ready, v.s2root, v.adminAddr)) = some (false, none, 0x60000) ∧
    ownPa dev 0 0x60000 = some 0x60000 ∧ ownPa dev 1 0x60000 = none ∧ BlockHere dev 0 0x60000 ∧
    fusedOff { (at_ 3).fw with grade7384 := false } = [] ∧ (s.ctxs.get? 1).map (·.vf) = some 0 ∧ (mapStretches 0 0x20000 [] s).isSome = true ∧
    (loaded { s with grids := [] }).objs.get? 3 = some ⟨0, 1, [], [], [0x10100], [], []⟩ ∧
    (settleInval (loaded s) ⟨.ctx 1, [], [], .unload 3⟩).objs.get? 3 = some ⟨0, 1, [], [], [0x10100], [], []⟩ ∧
    BlockHere s queue0.vf queue0.qcb ∧ s.pathIdle 9 = true ∧ ({ queue0 with slot := none } : Queue).slot = none ∧
    dev.vfs.get? 1 ≠ none ∧ planLoad s 1 [] = none ∧
    ((loaded s).objs.get? 3).map (fun o => (o.vf, o.kcbs)) = some (0, [0x10100]) ∧
    s.serves 0 = true ∧ (s.queues.find? fun p => p.2.vf == 0 && p.2.dbidx == 1) = some (5, queue0) ∧ queue0.err = false ∧
    (numAt s 0x60008 8 + 2 ^ 64 - queue0.rptr) % 2 ^ 64 ≤ 2 ^ queue0.rsize ∧
    2 ^ queue0.rsize < (numAt far 0x60008 8 + 2 ^ 64 - queue0.rptr) % 2 ^ 64 := by
  refine ⟨?_, ?_, ?_, ?_, ?_, ?_, blockHere_of ?_, ?_, ?_, ?_, ?_, ?_, blockHere_of ?_, ?_⟩ <;> decide +kernel

end Sys2Proof.Tests
end

section
/-! ## Issues and sequencers
SUPPORT. What `Issued` says of each part of the state, and what a read of a sequencer sees after its update. -/

namespace Sys2Proof.Proofs

open Sys2Proof Sys2Proof.Machine Sys2Proof.Laws

/-! ### What an issue leaves of the units -/

section Issued

variable {s t : State} {k : Nat} {g g' : Group} {pc : W64} {fl : Nat} (h : Issued s t k g g' pc fl)
include h

theorem issued_group? (j : Nat) : t.group? j = if j = k then some g' else s.group? j := by
  rw [h.state]
  split
  · next hj => rw [hj]; exact get?_set_self _ _ _
  · next hj => exact get?_set_ne hj _ _

theorem issued_self : t.group? k = some g' := by rw [issued_group? h, if_pos rfl]
theorem issued_others (j : Nat) (hj : j ≠ k) : t.group? j = s.group? j := by rw [issued_group? h, if_neg hj]
theorem issued_teams : t.teams = s.teams := by rw [h.state]
theorem issued_team? (j : Nat) : t.team? j = s.team? j := by rw [h.state]; rfl
theorem issued_cores : t.cores = s.cores := by rw [h.state]
theorem issued_coreD (j : Nat) : t.coreD j = s.coreD j := by rw [h.state]; rfl
theorem issued_mem : t.mem = s.mem := by rw [h.state]
theorem issued_pc : g'.ctl.pc = pc := by rw [h.frame]

theorem issued_fstat (hf : fl = 0) : g'.fstat = g.fstat := by
  rw [h.frame, hf]
  exact BitVec.or_zero

end Issued

theorem lanesAre_congr {ix : IX} {h : Group} {d count : Nat} {f f' : Nat → Nat → W32} (hl : LanesAre ix h d count f)
    (hf : ∀ l j, j < count → f l j = f' l j) : LanesAre ix h d count f' := by
  refine ⟨fun l p hp => ?_, hl.s, hl.m⟩
  rw [hl.v l p hp]
  split
  · next hr => rw [hf l _ (by omega)]
  · rfl

/-! ### Updates of a sequencer -/

theorem modify_modify {α : Type} (t : Tab α) (k : Nat) (f f' : α → α) :
    (t.modify k f).modify k f' = t.modify k fun x => f' (f x) := by
  unfold Tab.modify
  rw [List.map_map]
  refine List.map_congr_left fun p _ => ?_
  by_cases hp : p.1 = k <;> simp [hp]

theorem updSeq_updSeq (s : State) (u : UnitId) (f f' : Seq → Seq) :
    (s.updSeq u f).updSeq u f' = s.updSeq u fun q => f' (f q) := by
  cases u with
  | team k => simp only [State.updSeq, State.updTeam, modify_modify]
  | grid k => simp only [State.updSeq, State.updGrid, modify_modify]
  | _ => rfl

theorem seq?_updSeq {s : State} {u : UnitId} {q : Seq} (h : s.seq? u = some q) (f : Seq → Seq) :
    (s.updSeq u f).seq? u = some (f q) := by
  cases u with
  | team k =>
    simp only [State.seq?, Option.map_eq_some_iff] at h
    obtain ⟨tm, ht, rfl⟩ := h
    simp [State.seq?, State.updSeq, ht]
  | grid k =>
    simp only [State.seq?, Option.map_eq_some_iff] at h
    obtain ⟨gr, hg, rfl⟩ := h
    simp [State.seq?, State.updSeq, hg]
  | _ => cases h

end Sys2Proof.Proofs
end

section
/-! ## O4: the record of a vote
The fields of SR.VOTEX, the bits of SR.VOTE, and the lowest member that differs. -/

namespace Sys2Proof.Proofs

open Sys2Proof Sys2Proof.Machine

/-- What `voteRecord` adds to SR.VOTE for one differing member. -/
def voteBit (base : Nat) (b : W64) (p : Nat × W64) : W64 :=
  if base ≤ p.1 ∧ p.1 < base + 64 then b ||| ((1 : W64) <<< (p.1 - base)) else b

theorem getLsbD_voteBit (base : Nat) (b : W64) (p : Nat × W64) {j : Nat} (hj : j < 64) :
    (voteBit base b p).getLsbD j = (b.getLsbD j || p.1 == base + j) := by
  unfold voteBit
  split
  · next hp =>
    have hbit : ((1 : W64) <<< (p.1 - base)).getLsbD j = decide (j = p.1 - base) := by
      rw [show (1 : W64) <<< (p.1 - base) = BitVec.twoPow 64 (p.1 - base) from (BitVec.twoPow_eq ..).symm,
        BitVec.getLsbD_twoPow]
      simp only [show p.1 - base < 64 by omega, decide_true, Bool.true_and]
      exact decide_eq_decide.mpr eq_comm
    rw [BitVec.getLsbD_or, hbit]
    congr 1
    exact Bool.eq_iff_iff.mpr (by simp; omega)
  · next hp =>
    have : (p.1 == base + j) = false := by simp; omega
    rw [this, Bool.or_false]

theorem getLsbD_foldl_voteBit (base : Nat) (ps : List (Nat × W64)) (b : W64) {j : Nat} (hj : j < 64) :
    (ps.foldl (voteBit base) b).getLsbD j = (b.getLsbD j || ps.any fun p => p.1 == base + j) := by
  induction ps generalizing b with
  | nil => simp
  | cons p ps ih => rw [List.foldl_cons, ih, getLsbD_voteBit base b p hj, List.any_cons, Bool.or_assoc]

section Fields

variable (u : Bool) (refm base refnum scope : Nat)

theorem votexWord_toNat : (votexWord u refm base refnum scope).toNat = (if u then 2 ^ 63 else 0) + refm % 256 * 2 ^ 48 +
    base % 2 ^ 16 * 2 ^ 32 + refnum % 2 ^ 16 * 2 ^ 16 + scope % 16 := by
  unfold votexWord
  rw [BitVec.toNat_ofNat]
  split <;> omega

theorem votexWord_uniform : (votexWord u refm base refnum scope).getLsbD 63 = u := by
  rw [BitVec.getLsbD, Nat.testBit_eq_decide_div_mod_eq, votexWord_toNat]
  cases u
  · exact decide_eq_false (by simp; omega)
  · exact decide_eq_true (by simp; omega)

/-- A field of SR.VOTEX, from its place and its length. -/
theorem votexWord_field {i n : Nat} (f : BitVec n)
    (h : ((if u then 2 ^ 63 else 0) + refm % 256 * 2 ^ 48 + base % 2 ^ 16 * 2 ^ 32 + refnum % 2 ^ 16 * 2 ^ 16 + scope % 16) /
      2 ^ i % 2 ^ n = f.toNat) : (votexWord u refm base refnum scope).extractLsb' i n = f := by
  apply BitVec.eq_of_toNat_eq
  rw [BitVec.extractLsb'_toNat, votexWord_toNat, Nat.shiftRight_eq_div_pow, h]

theorem votexWord_refm : (votexWord u refm base refnum scope).extractLsb' 48 8 = BitVec.ofNat 8 refm := by
  refine votexWord_field _ _ _ _ _ _ ?_
  rw [BitVec.toNat_ofNat]
  split <;> omega

theorem votexWord_base : (votexWord u refm base refnum scope).extractLsb' 32 16 = BitVec.ofNat 16 base := by
  refine votexWord_field _ _ _ _ _ _ ?_
  rw [BitVec.toNat_ofNat]
  split <;> omega

theorem votexWord_refnum : (votexWord u refm base refnum scope).extractLsb' 16 16 = BitVec.ofNat 16 refnum := by
  refine votexWord_field _ _ _ _ _ _ ?_
  rw [BitVec.toNat_ofNat]
  split <;> omega

theorem votexWord_scope : (votexWord u refm base refnum scope).extractLsb' 0 4 = BitVec.ofNat 4 scope := by
  refine votexWord_field _ _ _ _ _ _ ?_
  rw [BitVec.toNat_ofNat]
  split <;> omega

theorem votexWord_reserved : (votexWord u refm base refnum scope).extractLsb' 4 12 = 0 ∧
    (votexWord u refm base refnum scope).extractLsb' 56 7 = 0 := by
  constructor
  all_goals
    refine votexWord_field _ _ _ _ _ _ ?_
    simp only [BitVec.ofNat_eq_ofNat, BitVec.toNat_ofNat]
    split <;> omega

end Fields

/-- The first member of the block that SR.VOTE shows (R30): that of the lowest member that differs, else the reference's. -/
def voteBase (r : Nat) (v : W64) (rest : List (Nat × W64)) : Nat :=
  match rest.find? fun p => p.2 != v with | some p => p.1 / 64 * 64 | none => r / 64 * 64

/-- `voteRecord` by the lowest differing member as the statement finds it. -/
theorem voteRecord_cons (scope r : Nat) (v : W64) (rest : List (Nat × W64)) :
    Machine.voteRecord scope ((r, v) :: rest) =
      ⟨(rest.filter fun p => p.2 != v).isEmpty, (rest.filter fun p => p.2 != v).foldl (voteBit (voteBase r v rest)) 0,
        votexWord (rest.filter fun p => p.2 != v).isEmpty (if voteBase r v rest ≤ r then r - voteBase r v rest else 0xFF)
          (voteBase r v rest) r scope⟩ := by
  have hbase : (match rest.filter fun p => p.2 != v with | [] => r | (n, _) :: _ => n) / 64 * 64 = voteBase r v rest := by
    unfold voteBase
    rw [← List.head?_filter]
    cases rest.filter fun p => p.2 != v <;> rfl
  rw [← hbase]
  rfl

/-- The bits of SR.VOTE: the members of the block that differ. -/
theorem voteRecord_vote (scope r : Nat) (v : W64) (rest : List (Nat × W64)) {j : Nat} (hj : j < 64) :
    (Machine.voteRecord scope ((r, v) :: rest)).vote.getLsbD j = true ↔
      ∃ p ∈ rest, p.1 = voteBase r v rest + j ∧ p.2 ≠ v := by
  rw [voteRecord_cons, getLsbD_foldl_voteBit _ _ _ hj]
  simp [and_comm, and_left_comm]

/-- REFM: the reference's bit in the block, or 0xFF where the block lies above it. -/
theorem voteRecord_refm (scope r : Nat) (v : W64) (rest : List (Nat × W64)) :
    (Machine.voteRecord scope ((r, v) :: rest)).votex.extractLsb' 48 8 =
      if voteBase r v rest ≤ r then BitVec.ofNat 8 (r - voteBase r v rest) else 0xFF := by
  rw [voteRecord_cons, votexWord_refm]
  split <;> rfl

/-- Settles O4: field by field of the record, over the lowest differing member as `find?` gives it. -/
theorem voteRecord : Obligations.VoteRecord := by
  unfold Obligations.VoteRecord
  intro scope r v rest _ _ _ _
  refine ⟨?_, fun j hj => voteRecord_vote scope r v rest hj, ?_, voteRecord_refm scope r v rest, ?_, ?_, ?_, ?_⟩
  all_goals rw [voteRecord_cons]
  · simp
  · exact votexWord_uniform ..
  · exact votexWord_base ..
  · exact votexWord_refnum ..
  · exact votexWord_scope ..
  · exact votexWord_reserved ..

end Sys2Proof.Proofs
end

section
/-! ## O35: special registers
What a selector reads, the write of an upper sequencer, and the generators that a write of SR.SEED leaves. -/

namespace Sys2Proof.Proofs

open Sys2Proof Sys2Proof.Machine Sys2Proof.Laws

theorem exec_rdsrV (pair : Bool) (a : VReg) (n : BitVec 7) (s : State) :
    exec (.rdsrV pair a n) s = execRdsrV pair a n s := rfl
theorem exec_rdsrS (a : SReg) (n : BitVec 7) (s : State) : exec (.rdsrS a n) s = execRdsrS a n s := rfl
theorem exec_wrsrV (b : VReg) (n : BitVec 7) (s : State) : exec (.wrsrV b n) s = execWrsrV b n s := rfl
theorem exec_wrsrS (b : SReg) (n : BitVec 7) (s : State) : exec (.wrsrS b n) s = execWrsrS b n s := rfl

/-! ### What a selector reads -/

theorem isCtlReg_iff (sel : Nat) : isCtlReg sel = true ↔ 0x18 ≤ sel ∧ sel ≤ 0x1C := by simp [isCtlReg]

theorem groupReg_eq (s : State) (x : GCtx) (sel l : Nat) : groupReg s x sel l = srValue s x sel l := by
  by_cases hc : isCtlReg sel = true
  · obtain ⟨hlo, hhi⟩ := (isCtlReg_iff sel).mp hc
    obtain rfl | rfl | rfl | rfl | rfl : sel = 0x18 ∨ sel = 0x19 ∨ sel = 0x1A ∨ sel = 0x1B ∨ sel = 0x1C := by omega
    all_goals rfl
  · unfold groupReg
    split
    case h_7 =>
      rw [if_neg hc]
      unfold srValue
      split
      case h_12 => rfl
      all_goals contradiction
    all_goals rfl

/-- A core after a read of a selector (R205). -/
theorem coreD_afterRead (s : State) (c sel j : Nat) : (afterRead s c sel).coreD j =
    if j = c ∧ sel = 0x20 ∧ s.cores.has c = true then { s.coreD c with refused := 0 } else s.coreD j := by
  unfold afterRead
  by_cases hs : sel = 0x20
  · rw [if_pos hs]
    simp only [hs, true_and, State.coreD, updCore_cores, getD_def, get?_modify, Tab.has]
    by_cases hj : j = c
    · subst hj
      cases s.cores.get? j <;> simp
    · simp [hj]
  · rw [if_neg hs, if_neg fun h => hs h.2.1]

@[simp] theorem group?_afterRead (s : State) (c sel j : Nat) : (afterRead s c sel).group? j = s.group? j := by
  unfold afterRead; split <;> rfl
@[simp] theorem teams_afterRead (s : State) (c sel : Nat) : (afterRead s c sel).teams = s.teams := by
  unfold afterRead; split <;> rfl
@[simp] theorem mem_afterRead (s : State) (c sel : Nat) : (afterRead s c sel).mem = s.mem := by
  unfold afterRead; split <;> rfl

/-! ### RDSR -/

/-- The read that follows an issue changes SR.REFUSED alone. -/
theorem afterRead_issued {s t : State} {k : Nat} {g g' : Group} {pc : W64} {fl : Nat} (h : Issued s t k g g' pc fl)
    (sel : Nat) :
    (afterRead t (coreOfGroup k) sel).group? k = some g' ∧
    (∀ j, (afterRead t (coreOfGroup k) sel).coreD j =
      if j = coreOfGroup k ∧ sel = 0x20 ∧ s.cores.has (coreOfGroup k) = true then { s.coreD (coreOfGroup k) with refused := 0 }
      else s.coreD j) ∧
    (∀ j, j ≠ k → (afterRead t (coreOfGroup k) sel).group? j = s.group? j) ∧
    (afterRead t (coreOfGroup k) sel).teams = s.teams ∧ (afterRead t (coreOfGroup k) sel).mem = s.mem := by
  refine ⟨?_, fun j => ?_, fun j hj => ?_, ?_, ?_⟩
  · rw [group?_afterRead, issued_self h]
  · rw [coreD_afterRead, issued_coreD h, issued_coreD h, issued_cores h]
  · rw [group?_afterRead, issued_others h j hj]
  · rw [teams_afterRead, issued_teams h]
  · rw [mem_afterRead, issued_mem h]

/-- The words that RDSR.V gives to a lane. -/
def rdsrWords (pair : Bool) (x : W64) : List W32 :=
  if pair then [x.setWidth 32, (x >>> 32).setWidth 32] else [x.setWidth 32]

theorem length_rdsrWords (pair : Bool) (x : W64) : (rdsrWords pair x).length = if pair then 2 else 1 := by
  cases pair <;> rfl

theorem getD_rdsrWords (pair : Bool) (x : W64) {j : Nat} (hj : j < if pair then 2 else 1) :
    (rdsrWords pair x).getD j 0 = x.extractLsb' (32 * j) 32 := by
  have h0 : x.setWidth 32 = x.extractLsb' 0 32 := BitVec.setWidth_eq_extractLsb' (by decide)
  have h1 : (x >>> 32).setWidth 32 = x.extractLsb' 32 32 := rfl
  cases pair with
  | false =>
    obtain rfl : j = 0 := by simpa using hj
    exact h0
  | true =>
    rcases (show j = 0 ∨ j = 1 by simp at hj; omega) with rfl | rfl
    · exact h0
    · exact h1

theorem foldl_or_zero {α : Type} (ls : List α) : ls.foldl (fun (fs : Nat) _ => fs ||| 0) 0 = 0 := by
  induction ls with
  | nil => rfl
  | cons _ _ ih => exact ih

theorem execRdsrV_issues {s : State} {k : Nat} {x : GCtx} {pair : Bool} {a : VReg} {n : BitVec 7}
    (hw : (Instr.rdsrV pair a n).wf = true) (h : Issues s k x (.rdsrV pair a n)) :
    ∃ t g', execRdsrV pair a n s = .next (if (IX.of s x).lanes.isEmpty then t else afterRead t (coreOfGroup k) n.toNat) ∧
      Issued s t k x.g g' s.nextPc 0 ∧
      LanesAre (IX.of s x) (g'.settled x.g) a.toNat (if pair then 2 else 1)
        fun l j => (srValue s x n.toNat l).extractLsb' (32 * j) 32 := by
  have hk : selKnown n = true := (Bool.and_eq_true_iff.mp (show (selKnown n && (!pair || even7 a)) = true from hw)).1
  have hb : x.g.vwb + a.toNat + (if pair then 2 else 1) ≤ 256 :=
    issues_bound_regs h (by split <;> omega) fun m hm => List.mem_append_left _ hm
  let val (l : Nat) : List W32 := rdsrWords pair (groupReg s x n.toNat l)
  let e := laneEff (IX.of s x) a.toNat (if pair then 2 else 1) fun l => ⟨val l, 0⟩
  have hf : e.fstat = 0 := by
    simp only [e, laneEff, List.foldl_map]
    exact foldl_or_zero _
  have hws : e.writes = ((IX.of s x).lanes.flatMap fun l => laneWrites x.g l a.toNat (val l) 0) ++
      zeroWrites (IX.of s x) a.toNat (if pair then 2 else 1) := by
    simp only [e, laneEff, List.flatMap_map, ixOf_x]
  obtain ⟨g', hi, -, hv, hs, hm⟩ := commit_issued s (IX.of s x) (.rdsrV pair a n) e s.nextPc
  rw [ixOf_x, gctx_k h.ctx, hf] at hi
  rw [hws] at hv hs hm
  refine ⟨commit s (IX.of s x) (.rdsrV pair a n) e s.nextPc, g', ?_, hi,
    lanesAre_congr (lanesAre_of_writes (IX.of s x) (ixOf_act s x) a.toNat _ hb val (fun l _ => length_rdsrWords _ _) _ hv hs hm)
      fun l j hj => ?_⟩
  · rw [execRdsrV, withGroup_issues h, hk, ← gctx_k h.ctx]
    rfl
  · rw [← groupReg_eq]
    exact getD_rdsrWords _ _ hj

theorem execRdsrS_issues {s : State} {k : Nat} {x : GCtx} {a : SReg} {n : BitVec 7}
    (hw : (Instr.rdsrS a n).wf = true) (h : Issues s k x (.rdsrS a n)) :
    ∃ t g', execRdsrS a n s = .next (afterRead t (coreOfGroup k) n.toNat) ∧ Issued s t k x.g g' s.nextPc 0 ∧
      ScalarIs x.g (g'.settled x.g) a.num (srValue s x n.toNat 0) := by
  have hk : selAt n a.lvl = true := hw
  obtain ⟨g', hi, -, hv⟩ :=
    commit_scalar s (IX.of s x) (.rdsrS a n) a.num (groupReg s x n.toNat 0) 0 s.nextPc
  rw [ixOf_x, gctx_k h.ctx] at hi
  rw [ixOf_x, groupReg_eq] at hv
  refine ⟨_, g', ?_, hi, hv⟩
  rw [execRdsrS, withUnit_issues h, hk, ← gctx_k h.ctx]
  rfl

/-! ### The write of an upper sequencer (R105, R225) -/

theorem groupsOfTeam_updSeq (s : State) (u : UnitId) (f : Seq → Seq) (t : Nat) :
    (s.updSeq u f).groupsOfTeam t = s.groupsOfTeam t := by
  cases u with
  | team k =>
    simp only [State.groupsOfTeam, State.updSeq, team?_updTeam, group?_updTeam]
    by_cases hk : t = k
    · rw [if_pos hk]
      cases s.team? t <;> rfl
    · rw [if_neg hk]
  | _ => rfl

/-- What names a version lies below the sequencer, which is not in it. -/
theorem named_updSeq (s : State) (u : UnitId) (f : Seq → Seq) (v : Nat) : named (s.updSeq u f) u v = named s u v := by
  cases u with
  | team k =>
    simp only [named, teamNames, groupsOfTeam_updSeq]
    rfl
  | grid k =>
    have ht : (s.updSeq (.grid k) f).teamsOfGrid k = s.teamsOfGrid k := by
      simp only [State.teamsOfGrid, State.updSeq, grid?_updGrid, team?_updGrid]
      cases s.grid? k <;> simp
    simp only [named, gridNames, ht]
    rfl
  | _ => rfl

theorem seqWrite_wrote {s : State} {u : UnitId} {q : Seq} (h : s.seq? u = some q) (n : Nat) (v : W64) :
    SeqWrote s (seqWrite s u n v) u q n v := by
  have hs : (seqDone s u s.nextPc).seq? u = some { q with voted := none, ctl := { q.ctl with pc := s.nextPc } } :=
    seq?_updSeq h _
  have hn : ∀ w, named (seqDone s u s.nextPc) u w = named s u w := named_updSeq s u _
  have hf : freeVersion (seqDone s u s.nextPc) u { q with voted := none, ctl := { q.ctl with pc := s.nextPc } } =
      freeVersion s u q := by simp only [freeVersion, hn]
  simp only [SeqWrote, seqWrite, versWrite, hs, hn, hf]
  by_cases hc : named s u q.cur = false
  · simp only [hc, if_true, Bool.false_eq_true, if_false]
    exact updSeq_updSeq ..
  · rw [if_neg hc, if_pos (eq_true_of_ne_false hc)]
    cases freeVersion s u q <;> exact updSeq_updSeq ..

theorem execRdsrS_seq {s : State} {u : UnitId} {q : Seq} {a : SReg} {n : BitVec 7} (hw : (Instr.rdsrS a n).wf = true)
    (h : SeqIssues s u q (.rdsrS a n)) : execRdsrS a n s =
      if isCtlReg n.toNat then .next (seqWrite s u a.num (ctlReg q.ctl n.toNat))
      else match (generalizing := false) u with
        | .team k => match s.team? k with
          | some t =>
            .next (seqWrite (afterRead s (coreOfTeam k) n.toNat) u a.num (teamReg s t (coreOfTeam k) n.toNat))
          | none => .fault .noSuchUnit
        | _ => illegalHere s u := by
  have hk : selAt n a.lvl = true := hw
  rw [execRdsrS, withUnit_seqIssues h, h.seq, hk]
  rfl

theorem seq?_afterRead (s : State) (c sel : Nat) (u : UnitId) : (afterRead s c sel).seq? u = s.seq? u := by
  unfold afterRead; split <;> rfl

/-! ### WRSR -/

/-- Setting the keys of a list, each to a value of its own. -/
theorem getD_foldl_set {α : Type} (ls : List Nat) (f : Nat → α) (t : Tab α) (l : Nat) (d : α) :
    ((ls.map fun l => (l, f l)).foldl (fun (t : Tab α) (p : Nat × α) => t.set p.1 p.2) t).getD l d =
      if l ∈ ls then f l else t.getD l d := by
  induction ls generalizing t with
  | nil => simp
  | cons m ls ih =>
    rw [List.map_cons, List.foldl_cons, ih]
    by_cases hl : l ∈ ls
    · simp [hl]
    · by_cases hm : l = m
      · subst hm; simp [hl, getD_def]
      · simp [hl, hm, getD_def, get?_set_ne hm]

theorem execWrsrV_issues {s : State} {k : Nat} {x : GCtx} {b : VReg} {n : BitVec 7}
    (hw : (Instr.wrsrV b n).wf = true) (h : Issues s k x (.wrsrV b n)) :
    ∃ t g', execWrsrV b n s = .next t ∧ Issued s t k x.g g' s.nextPc 0 ∧ RegsSame x.g (g'.settled x.g) ∧
      ∀ l, g'.genAfter l 0 = if l ∈ (IX.of s x).lanes then seedState (x.g.vreg l b.toNat) else x.g.genAfter l 0 := by
  have hk : n.toNat = 0x22 := beq_iff_eq.mp (show (n.toNat == 0x22) = true from hw)
  let gens := (IX.of s x).lanes.map fun l => (l, seedState (x.g.vreg l b.toNat))
  obtain ⟨g', hi, hg, hv, hs, hm⟩ := commit_issued s (IX.of s x) (.wrsrV b n) ⟨[], 0, gens⟩ s.nextPc
  rw [ixOf_x, gctx_k h.ctx] at hi
  refine ⟨_, g', ?_, hi, ⟨fun l p => ?_, fun m => ?_, fun m => ?_⟩, fun l => ?_⟩
  · rw [execWrsrV, withGroup_issues h, if_neg (by simp [hk])]
    rfl
  · exact congrArg (fun v : Tab W32 => v.getD (l * 256 + p) 0) hv
  · exact congrArg (fun r : Tab W64 => r.getD m 0) hs
  · exact congrArg (fun r : Tab W64 => r.getD m 0) hm
  · rw [Group.genAfter, hg]
    exact getD_foldl_set ..

theorem execWrsrS_fstat {s : State} {k : Nat} {x : GCtx} {b : SReg} {n : BitVec 7} (hn : n.toNat = 0x14)
    (h : Issues s k x (.wrsrS b n)) : ∃ t g', execWrsrS b n s = .next t ∧
      Issued s t k { x.g with fstat := x.rd b &&& 31 } g' s.nextPc 0 ∧ RegsSame x.g (g'.settled x.g) := by
  obtain ⟨g', hi, -, hr⟩ :=
    commit_none s { IX.of s x with x := { x with g := { x.g with fstat := x.rd b &&& 31 } } } (.wrsrS b n) 0 s.nextPc
  have hk : x.k = k := gctx_k h.ctx
  simp only [hk] at hi
  refine ⟨_, g', ?_, hi, hr.v, hr.s, hr.m⟩
  rw [execWrsrS, withGroup_issues h]
  simp only [hn, ← hk]
  rfl

theorem execWrsrS_bellto {s : State} {k : Nat} {x : GCtx} {b : SReg} {n : BitVec 7} (hn : n.toNat = 0x21)
    (h : Issues s k x (.wrsrS b n)) : ∃ t g', execWrsrS b n s =
        .next (t.updTeam x.g.team fun tm => { tm with bellto := x.rd b &&& 0xFFFFFF }) ∧
      Issued s t k x.g g' s.nextPc 0 ∧ RegsSame x.g (g'.settled x.g) := by
  obtain ⟨g', hi, -, hr⟩ := commit_none s (IX.of s x) (.wrsrS b n) 0 s.nextPc
  rw [ixOf_x, gctx_k h.ctx] at hi
  refine ⟨_, g', ?_, hi, hr⟩
  rw [execWrsrS, withGroup_issues h]
  simp only [hn]
  rfl

/-- Settles O35: each form's effect from the lemma on it, and the frame from the issue. -/
theorem specialRegisters : Obligations.SpecialRegisters := by
  unfold Obligations.SpecialRegisters
  refine ⟨fun s k x pair a n hw h => ?_, fun s k x a n hw h => ?_, fun s u q a n hw h => ⟨fun hlo hhi => ?_, ?_⟩,
    fun s k x b n hw h => ?_, fun s k x b n hw h => ?_⟩
  · obtain ⟨t, g', he, hi, hl⟩ := execRdsrV_issues hw h
    rw [exec_rdsrV, he]
    by_cases hn : (IX.of s x).lanes = []
    · rw [if_pos (List.isEmpty_iff.mpr hn)]
      exact ⟨t, g', rfl, issued_self hi, issued_pc hi, issued_fstat hi rfl, hl,
        fun j => by rw [issued_coreD hi, if_neg fun hj => hj.2.2.1 hn], issued_others hi, issued_teams hi, issued_mem hi⟩
    · rw [if_neg fun he => hn (List.isEmpty_iff.mp he)]
      obtain ⟨hk, hc, ho, ht, hm⟩ := afterRead_issued hi n.toNat
      refine ⟨_, g', rfl, hk, issued_pc hi, issued_fstat hi rfl, hl, fun j => ?_, ho, ht, hm⟩
      simpa only [ne_eq, hn, not_false_eq_true, true_and] using hc j
  · obtain ⟨t, g', he, hi, hv⟩ := execRdsrS_issues hw h
    obtain ⟨hk, hc, ho, ht, hm⟩ := afterRead_issued hi n.toNat
    exact ⟨_, g', (exec_rdsrS a n s).trans he, hk, issued_pc hi, issued_fstat hi rfl, hv, hc, ho, ht, hm⟩
  · rw [exec_rdsrS, execRdsrS_seq hw h, if_pos ((isCtlReg_iff _).mpr ⟨hlo, hhi⟩)]
    exact ⟨_, rfl, seqWrite_wrote h.seq _ _⟩
  · rintro tk tm rfl ht hn
    rw [exec_rdsrS, execRdsrS_seq hw h, if_neg fun hc => by have := (isCtlReg_iff _).mp hc; omega]
    simp only [ht]
    exact ⟨_, rfl, seqWrite_wrote ((seq?_afterRead ..).trans h.seq) _ _⟩
  · obtain ⟨t, g', he, hi, hr, hg⟩ := execWrsrV_issues hw h
    exact ⟨t, g', (exec_wrsrV b n s).trans he, hi, hr, hg⟩
  · have hn : n.toNat = 0x14 ∨ n.toNat = 0x21 := by
      have hw' : (n.toNat == 0x14 || n.toNat == 0x21) = true := hw
      simpa using hw'
    rw [exec_wrsrS]
    rcases hn with hn | hn
    · obtain ⟨t, g', he, hi, hr⟩ := execWrsrS_fstat hn h
      rw [he]
      refine ⟨t, g', rfl, issued_self hi, issued_pc hi, hr, ?_, fun j => ?_, issued_others hi, issued_cores hi, issued_mem hi⟩
      · rw [issued_fstat hi rfl, if_pos hn]
      · rw [issued_team? hi, if_neg (by omega)]
    · obtain ⟨t, g', he, hi, hr⟩ := execWrsrS_bellto hn h
      rw [he]
      refine ⟨_, g', rfl, (issued_self hi :), issued_pc hi, hr, ?_, fun j => ?_, (issued_others hi :), (issued_cores hi :),
        (issued_mem hi :)⟩
      · rw [issued_fstat hi rfl, if_neg (by omega)]
      · have ht : s.team? x.g.team = some x.t := (gctx_some s h.ctx).2.1
        rw [team?_updTeam, issued_team? hi]
        by_cases hj : j = x.g.team
        · rw [if_pos hj, if_pos ⟨hj, hn⟩, hj, ht]
          rfl
        · rw [if_neg hj, if_neg fun h => hj h.1]

end Sys2Proof.Proofs
end

section
/-! ## The sequencers under the operations of the homes and the L1s
SUPPORT. No access at a home, no writeback of an L1 and no record of a reeve changes a group, a team or a grid: one
law for each operation. -/

namespace Sys2Proof.Proofs

open Sys2Proof Sys2Proof.Machine Sys2Proof.Laws

/-- The sequencers of a state. -/
def units (s : State) : Tab Group × Tab Team × Tab Grid := (s.groups, s.teams, s.grids)

section Reads

variable {s t : State} (h : units t = units s)
include h

theorem groups_of_units : t.groups = s.groups := congrArg (·.1) h
theorem teams_of_units : t.teams = s.teams := congrArg (·.2.1) h
theorem grids_of_units : t.grids = s.grids := congrArg (·.2.2) h
theorem group?_of_units (k : Nat) : t.group? k = s.group? k := congrArg (Tab.get? · k) (groups_of_units h)

end Reads

variable (s : State)

@[simp] theorem units_setCore (c : Nat) (x : Core) : units (s.setCore c x) = units s := rfl
@[simp] theorem units_updCore (c : Nat) (f : Core → Core) : units (s.updCore c f) = units s := rfl
@[simp] theorem units_post (es : List Instr) : units (s.post es) = units s := rfl
@[simp] theorem units_putDir (g : Nat) (d : Dir) : units (s.putDir g d) = units s := rfl
@[simp] theorem units_raise (src : EvSrc) (vf : Nat) (q : Option Nat) : units (s.raise src vf q) = units s := by
  unfold State.raise; split <;> rfl

theorem units_foldl {α : Type} {f : State → α → State} (h : ∀ s a, units (f s a) = units s) (xs : List α) :
    units (xs.foldl f s) = units s := by
  induction xs generalizing s with
  | nil => rfl
  | cons x xs ih => rw [List.foldl_cons, ih, h]

theorem units_foldS {α : Type} {f : State → α → State} (h : ∀ s a, units (f s a) = units s) (xs : List α) :
    units (foldS s xs f) = units s := units_foldl s h xs

/-! ### At the home -/

@[simp] theorem units_sendFlit (pa cls : Nat) : units (s.sendFlit pa cls) = units s := by
  unfold State.sendFlit; split <;> rfl

@[simp] theorem units_l2Out (pa : Nat) : units (s.l2Out pa) = units s := by
  unfold State.l2Out; dsimp only; split <;> rfl

@[simp] theorem units_sysOut : units s.sysOut = units s := units_foldl s (fun s => units_l2Out s) _

@[simp] theorem units_l2Take (pa n : Nat) : units (s.l2Take pa n) = units s := by
  unfold State.l2Take; rfl

@[simp] theorem units_homeWrite (pa : Nat) (bs : List Byte) : units (s.homeWrite pa bs) = units s := by
  unfold State.homeWrite
  split
  · rfl
  · split
    · exact units_sendFlit s pa 0
    · exact units_l2Take _ _ _

@[simp] theorem units_clearCovered (p : Nat → Bool) : units (s.clearCovered p) = units s := by
  unfold State.clearCovered; rfl

@[simp] theorem units_clearPoison (pa n : Nat) : units (s.clearPoison pa n) = units s := units_clearCovered s _

@[simp] theorem units_homeMerge (bs : Tab Byte) : units (s.homeMerge bs) = units s := by
  unfold State.homeMerge
  rw [units_clearCovered]
  exact units_foldl s (fun s p => units_homeWrite s _ _) bs

@[simp] theorem units_mergeHome (bs : Tab Byte) : units (mergeHome s bs) = units s := units_homeMerge s bs

@[simp] theorem units_coreInvalidate (c g : Nat) : units (coreInvalidate s c g).1 = units s := by
  unfold coreInvalidate; dsimp only; split <;> rfl

@[simp] theorem units_coreRecall (c g : Nat) : units (coreRecall s c g).1 = units s := by
  unfold coreRecall; dsimp only; split <;> rfl

@[simp] theorem units_syncGrain (g : Nat) : units (syncGrain s g) = units s := by
  unfold syncGrain
  split
  · rfl
  · split
    · simp
    · rfl

@[simp] theorem units_exclGrain (g : Nat) : units (exclGrain s g) = units s := by
  unfold exclGrain
  split
  · rfl
  · dsimp only
    rw [units_putDir, units_foldS _ fun s c => ?_]
    · rfl
    · simp

@[simp] theorem units_devSync (pa n : Nat) : units (devSync s pa n) = units s := units_foldS s units_syncGrain _

@[simp] theorem units_devRead (pa n : Nat) : units (devRead s pa n).1 = units s := by simp [devRead]

@[simp] theorem units_devWrite (pa : Nat) (bs : List Byte) : units (devWrite s pa bs) = units s := by
  simp [devWrite, units_foldS s units_exclGrain]

@[simp] theorem units_devMerge (c : Nat) (bs : Tab Byte) : units (devMerge s c bs) = units s := by
  unfold devMerge
  split
  · rfl
  · rw [units_homeMerge, units_foldS s fun s g => ?_]
    split
    · split <;> simp
    · rfl

@[simp] theorem units_mergeBack (c g : Nat) (b : Block) (bs : Tab Byte) : units (mergeBack s c g b bs) = units s := by
  unfold mergeBack
  repeat' split
  all_goals simp

/-! ### From an L1 -/

@[simp] theorem units_mergeOwner (c g : Nat) (bs : Tab Byte) : units (mergeOwner s c g bs) = units s := by
  unfold mergeOwner
  repeat' split
  all_goals simp

@[simp] theorem units_flushGrain (c g : Nat) : units (flushGrain s c g) = units s := by
  unfold flushGrain
  dsimp only
  split
  · split <;> simp
  · rfl

@[simp] theorem units_purgeGrain (c g : Nat) : units (purgeGrain s c g) = units s := by
  unfold purgeGrain
  dsimp only
  repeat' split
  all_goals simp

@[simp] theorem units_releaseSys (vf : Nat) : units (releaseSys s vf) = units s := by
  unfold releaseSys
  rw [units_sysOut]
  exact units_foldS s (fun s c => units_foldS s (fun s g => units_flushGrain s c g) _) _

@[simp] theorem units_sysStore (vf pa : Nat) (bs : List Byte) : units (sysStore s vf pa bs) = units s := by
  unfold sysStore
  rw [units_foldS _ units_l2Out, units_devWrite, units_releaseSys]

@[simp] theorem units_reeveStore (vf pa : Nat) (bs : List Byte) (sys : Bool) : units (reeveStore s vf pa bs sys) = units s := by
  unfold reeveStore
  dsimp only
  cases sys <;> split <;> simp

/-! ### Translations -/

@[simp] theorem units_fillWalk (asid va : Nat) : units (fillWalk s asid va) = units s := by
  unfold fillWalk; split <;> rfl

@[simp] theorem units_fillFor (vf asid va : Nat) : units (fillFor s vf asid va) = units s := by
  unfold fillFor
  split
  · rfl
  · exact units_fillWalk s asid va

@[simp] theorem units_mapPage (asid va : Nat) : units (mapPage s asid va).1 = units s := by
  unfold mapPage
  dsimp only
  have hw := units_fillWalk s asid va
  split
  case h_5 =>
    split
    · exact hw
    · split
      · exact hw
      · exact (units_devWrite _ _ _).trans hw
  all_goals exact hw

@[simp] theorem units_reeveAddr (vf asid va : Nat) (a : Acc) : units (reeveAddr s vf asid va a).1 = units s := by
  unfold reeveAddr
  split <;> simp

/-! ### Records of the reeves -/

@[simp] theorem units_writeQcb (k : Nat) : units (writeQcb s k) = units s := by
  unfold writeQcb
  split
  · rfl
  · simp

@[simp] theorem units_updQueue (k : Nat) (f : Queue → Queue) : units (s.updQueue k f) = units s := units_writeQcb _ k

@[simp] theorem units_dropRecord (k : Nat) : units (dropRecord s k) = units s := units_updQueue s k _

theorem units_tryRecord (k : Nat) (r : FRec) : units (tryRecord s k r).1 = units s := by
  unfold tryRecord
  split
  · rfl
  · next q _ =>
    dsimp only
    have hr : units (devRead (s.raise .fault q.vf (some k)) (q.qcb + 0x18) 8).1 = units s := by simp
    split
    · rw [units_dropRecord, hr]
    · have ha := units_reeveAddr (devRead (s.raise .fault q.vf (some k)) (q.qcb + 0x18) 8).1 q.vf q.asid
        (q.evbase.toNat + 64 * (q.ewptr % 2 ^ q.esize)) .wr
      rw [hr] at ha
      split
      · next heq =>
        rw [heq] at ha
        repeat' split
        · simpa using ha
        · exact ha
        · simpa using ha
      · next heq => rw [heq] at ha; exact ha
      · next heq => rw [heq] at ha; simpa using ha

theorem units_putRecord (k : Nat) (r : FRec) : units (putRecord s k r) = units s := by
  unfold putRecord
  have h := units_tryRecord s k r
  split
  · next heq => rw [heq] at h; exact h
  · next heq =>
    rw [heq] at h
    split
    · split
      · exact h
      · rw [units_tryRecord]; exact h
    · exact h

@[simp] theorem units_recordTo (q : Option Nat) (r : FRec) : units (recordTo s q r) = units s := by
  unfold recordTo
  split
  · exact units_putRecord s _ r
  · rfl

@[simp] theorem units_unitRecord (u : UnitId) (r : FRec) : units (unitRecord s u r) = units s := by
  unfold unitRecord
  split
  · rfl
  · split
    · rfl
    · exact units_recordTo s _ _

@[simp] theorem units_stopRecord (u : UnitId) (wr fetch : Bool) : units (stopRecord s u wr fetch) = units s :=
  units_unitRecord s u _

end Sys2Proof.Proofs
end

section
/-! ## O23: a fault of a group
The stop of a group changes its state, pc and fault record; what follows it, the park of the sequencer above and
the debug stop, changes of a group its stop request alone. -/

namespace Sys2Proof.Proofs

open Sys2Proof Sys2Proof.Machine Sys2Proof.Laws

/-! ### The fields of SR.FCAUSE (R32) -/

section Fields

variable (cause scope detail : Nat)

theorem fcauseWord_field {i n : Nat} (f : BitVec n)
    (h : (cause % 256 + scope % 16 * 256 + detail % 2 ^ 32 * 2 ^ 32) / 2 ^ i % 2 ^ n = f.toNat) :
    (fcauseWord cause scope detail).extractLsb' i n = f := by
  have hw : (fcauseWord cause scope detail).toNat = cause % 256 + scope % 16 * 256 + detail % 2 ^ 32 * 2 ^ 32 := by
    unfold fcauseWord
    rw [BitVec.toNat_ofNat]
    omega
  apply BitVec.eq_of_toNat_eq
  rw [BitVec.extractLsb'_toNat, hw, Nat.shiftRight_eq_div_pow, h]

theorem fcauseWord_cause : (fcauseWord cause scope detail).extractLsb' 0 8 = BitVec.ofNat 8 cause := by
  refine fcauseWord_field _ _ _ _ ?_
  rw [BitVec.toNat_ofNat]
  omega

theorem fcauseWord_scope : (fcauseWord cause scope detail).extractLsb' 8 4 = BitVec.ofNat 4 scope := by
  refine fcauseWord_field _ _ _ _ ?_
  rw [BitVec.toNat_ofNat]
  omega

theorem fcauseWord_reserved : (fcauseWord cause scope detail).extractLsb' 12 20 = 0 := by
  refine fcauseWord_field _ _ _ _ ?_
  simp only [BitVec.ofNat_eq_ofNat, BitVec.toNat_ofNat]
  omega

theorem fcauseWord_detail : (fcauseWord cause scope detail).extractLsb' 32 32 = BitVec.ofNat 32 detail := by
  refine fcauseWord_field _ _ _ _ ?_
  rw [BitVec.toNat_ofNat]
  omega

end Fields

/-! ### The route (R123, R129) -/

/-- Which causes have a handler. -/
theorem frameKindOf_route (cause : Nat) (e : W64) :
    (match frameKindOf cause with | some kind => Route.handler kind e | none => .debug) =
      if cause = 0x05 then .handler .nuf e else if cause = 0x06 then .handler .fdt e
      else if cause = 0x11 then .handler .trap e else .debug := by
  unfold frameKindOf cNuf cFdt cTrap
  by_cases h5 : cause = 0x05
  · rw [if_pos h5, if_pos h5]
  · rw [if_neg h5, if_neg h5]
    by_cases h6 : cause = 0x06
    · rw [if_pos h6, if_pos h6]
    · rw [if_neg h6, if_neg h6]
      by_cases h11 : cause = 0x11
      · rw [if_pos h11, if_pos h11]
      · rw [if_neg h11, if_neg h11]

theorem routeOf_group {s : State} {k : Nat} {x : GCtx} (h : s.gctx k = some x) (cause : Nat) :
    routeOf s (.group k) cause = goesTo x.gr.kcb .g x.g.ctl x.g.sframe.isSome cause := by
  obtain ⟨hg, -, -, -⟩ := gctx_some s h
  have hc : s.ctl? (.group k) = some x.g.ctl := by simp [State.ctl?, hg]
  have hk : s.kcb? (.group k) = some x.gr.kcb := by simp [State.kcb?, h]
  have hopen : (x.g.ctl.frame.isNone && !x.g.sframe.isSome && x.gr.kcb.handG != 0) = true ↔
      x.g.ctl.frame = none ∧ x.g.sframe.isSome = false ∧ x.gr.kcb.handG ≠ 0 := by
    simp [and_assoc]
  have hto := frameKindOf_route cause x.gr.kcb.handG
  unfold routeOf goesTo
  simp only [hc, hk, hg, Kcb.handler, lvlOfUnit]
  rw [← hto]
  cases frameKindOf cause with
  | none => exact (ite_self _).symm
  | some kind => exact ite_congr (propext hopen) (fun _ => rfl) fun _ => rfl

/-! ### What the stop leaves -/

/-- Of the groups that a state lists, only their stop requests change. -/
def StopReqOnly (s t : State) : Prop := ∀ j g, s.group? j = some g → ∃ r, t.group? j = some { g with stopReq := r }

theorem StopReqOnly.of_group? {s t : State} (h : ∀ j, t.group? j = s.group? j) : StopReqOnly s t :=
  fun j g hg => ⟨g.stopReq, (h j).trans hg⟩

theorem StopReqOnly.refl (s : State) : StopReqOnly s s := .of_group? fun _ => rfl

theorem StopReqOnly.trans {s t u : State} (h : StopReqOnly s t) (h' : StopReqOnly t u) : StopReqOnly s u := by
  intro j g hg
  obtain ⟨r, hr⟩ := h j g hg
  obtain ⟨r', hr'⟩ := h' j _ hr
  exact ⟨r', hr'⟩

theorem StopReqOnly.foldS {α : Type} {f : State → α → State} (h : ∀ s a, StopReqOnly s (f s a)) (s : State) (xs : List α) :
    StopReqOnly s (Machine.foldS s xs f) := by
  induction xs generalizing s with
  | nil => exact .refl s
  | cons a xs ih => exact (h s a).trans (ih (f s a))

theorem stopReqOnly_updGroup (s : State) (k : Nat) (r : StopReq) :
    StopReqOnly s (s.updGroup k fun g => { g with stopReq := r }) := by
  intro j g hg
  rw [group?_updGroup, hg]
  split
  · exact ⟨r, rfl⟩
  · exact ⟨g.stopReq, rfl⟩

theorem group?_updSeq_team (s : State) (n : Nat) (f : Seq → Seq) (j : Nat) :
    (s.updSeq (.team n) f).group? j = s.group? j := rfl

/-- The park of one team for a debug stop. -/
theorem stopReqOnly_debugParkTeam (s : State) (n : Nat) : StopReqOnly s
    ((Machine.foldS (s.updSeq (.team n) fun q => { q with stopReq := .debug })
      ((s.updSeq (.team n) fun q => { q with stopReq := .debug }).groupsOfTeam n) fun s k =>
        s.updGroup k fun g => { g with stopReq := .debug }).post [.sequencerPark (.team n)]) :=
  (StopReqOnly.of_group? fun j => group?_updSeq_team s n _ j).trans
    ((StopReqOnly.foldS (fun s k => stopReqOnly_updGroup s k .debug) _ _).trans (.of_group? fun _ => rfl))

theorem stopReqOnly_debugPark (s : State) (u : UnitId) : StopReqOnly s (debugPark s u) := by
  unfold debugPark
  split
  · exact .refl s
  · next gk _ =>
    split
    · exact .refl s
    · next gr _ =>
      refine .trans (t := s.updGrid gk fun g => { g with debugStop := true }) (.of_group? fun _ => rfl) ?_
      dsimp only
      have hf := fun ts => StopReqOnly.foldS stopReqOnly_debugParkTeam (s.updGrid gk fun g => { g with debugStop := true }) ts
      split
      · exact (hf _).trans (.of_group? fun _ => rfl)
      · exact hf _

theorem stopReqOnly_debugStop (s : State) (u : UnitId) (wr fetch : Bool) : StopReqOnly s (debugStop s u wr fetch) :=
  (stopReqOnly_debugPark s u).trans (.of_group? (group?_of_units (units_stopRecord _ u wr fetch)))

/-- The request that a stop below makes of a sequencer (R124). -/
def askTree (q : Seq) : Seq := { q with stopReq := if q.stopReq = .none then .tree else q.stopReq }

theorem stopTree_group_none {s : State} {k : Nat} (h : s.group? k = none) : stopTree s (.group k) = s := by
  have hp : parentOf s (.group k) = none := by simp [parentOf, h]
  rw [stopTree, hp]

theorem stopTree_group {s : State} {k : Nat} {g : Group} (h : s.group? k = some g) : stopTree s (.group k) =
    (s.updSeq (.team g.team) askTree).post [.sequencerPark (.team g.team)] := by
  have hp : parentOf s (.group k) = some (.team g.team) := by simp [parentOf, h]
  rw [stopTree, hp]
  rfl

theorem stopReqOnly_stopTree_group (s : State) (k : Nat) : StopReqOnly s (stopTree s (.group k)) := by
  cases h : s.group? k with
  | none => rw [stopTree_group_none h]; exact .refl s
  | some g => rw [stopTree_group h]; exact .of_group? fun _ => rfl

/-! ### The fault -/

/-- The scope that the record of a group's fault names (R32, R203). -/
def groupScope (g : Group) (f : Trap) : Nat := if f.lane && !g.sframe.isSome then 0 else 1

/-- A fault record placed in a control state (R125). -/
def recorded (w x faddr : W64) (c : Ctl) : Ctl := { c with fcause := w, fpc := x, faddr := faddr }

/-- The cause word of a group's fault. -/
def groupCause (g : Group) (f : Trap) : W64 := fcauseWord f.cause (groupScope g f) f.detail

/-- The state in which the group has its record and is stopped, before the park of anything else. -/
def groupStopped (s : State) (k : Nat) (g : Group) (f : Trap) : State :=
  stopUnit (writeRecord s (.group k) (recorded (groupCause g f) s.iss.fpc f.addr)) (.group k)
    (routeOf s (.group k) f.cause) s.iss.fpc

/-- A group that stops at the slot `x` on a route, with the cause word `w` and an address in its record. -/
def stoppedAt (g : Group) (route : Route) (w x faddr : W64) : Group :=
  { g with st := .stopped route, ctl := { recorded w x faddr g.ctl with pc := x } }

/-- What the statement says of the stopped group, with the stop request that it has in the end. -/
theorem stoppedAt_frame (g : Group) (route : Route) (w x faddr : W64) (r : StopReq) :
    ∃ g' : Group, g' = { stoppedAt g route w x faddr with stopReq := r } ∧ g'.st = .stopped route ∧ g'.ctl.fcause = w ∧
      g' = { g with
        st := g'.st, stopReq := g'.stopReq
        ctl := { g.ctl with pc := x, fpc := x, faddr := faddr, fcause := g'.ctl.fcause } } :=
  ⟨_, rfl, rfl, rfl, rfl⟩

/-- The group as it stops: with its record, its route and its pc. -/
def stoppedGroup (s : State) (k : Nat) (g : Group) (f : Trap) : Group :=
  stoppedAt g (routeOf s (.group k) f.cause) (groupCause g f) s.iss.fpc f.addr

/-- The record and the stop of a group are two updates of it. -/
theorem stopUnit_writeRecord_group (s : State) (k : Nat) (g : Group) (h : s.group? k = some g) (r : Route) (w x faddr : W64) :
    (stopUnit (writeRecord s (.group k) (recorded w x faddr)) (.group k) r x).group? k = some (stoppedAt g r w x faddr) := by
  show ((s.updGroup k fun g => { g with ctl := recorded w x faddr g.ctl }).updGroup k fun g =>
    { g with st := .stopped r, ctl := { g.ctl with pc := x } }).group? k = _
  rw [group?_updGroup, group?_updGroup, h]
  simp only [if_true, Option.map_some]
  rfl

theorem groupStopped_group? {s : State} {k : Nat} {g : Group} (h : s.group? k = some g) (f : Trap) :
    (groupStopped s k g f).group? k = some (stoppedGroup s k g f) := stopUnit_writeRecord_group s k g h _ _ _ _

/-- A group's fault is its stop, then the park of the sequencer above where the cause asks for it, then the debug stop where
that is the route. -/
theorem takeFault_group {s : State} {k : Nat} {g : Group} (h : s.group? k = some g) (f : Trap) :
    takeFault s (.group k) f =
      let p := groupStopped s k g f
      let p := if parksParent p (.group k) f.cause (routeOf s (.group k) f.cause) then stopTree p (.group k) else p
      match routeOf s (.group k) f.cause with
      | .debug => debugStop p (.group k) f.wr f.fetch
      | _ => p := by
  unfold takeFault groupStopped
  simp only [h]
  rfl

theorem stopReqOnly_takeFault {s : State} {k : Nat} {g : Group} (h : s.group? k = some g) (f : Trap) :
    StopReqOnly (groupStopped s k g f) (takeFault s (.group k) f) := by
  rw [takeFault_group h]
  have ht : StopReqOnly (groupStopped s k g f)
      (if parksParent (groupStopped s k g f) (.group k) f.cause (routeOf s (.group k) f.cause) then
        stopTree (groupStopped s k g f) (.group k) else groupStopped s k g f) := by
    split
    · exact stopReqOnly_stopTree_group _ k
    · exact .refl _
  dsimp only
  split
  · exact ht.trans (stopReqOnly_debugStop _ _ _ _)
  · exact ht

theorem parksParent_of_tree (s : State) (u : UnitId) (r : Route) {cause : Nat} (h : cause = 0x05 ∨ cause = 0x06) :
    parksParent s u cause r = true := by
  unfold parksParent
  rcases h with rfl | rfl <;> rfl

/-- R124: a NUF or FDT asks the team above to park. -/
theorem takeFault_group_tree {s : State} {k : Nat} {g : Group} (h : s.group? k = some g) {f : Trap} {kind : FrameKind}
    {entry : W64} (hf : f.cause = 0x05 ∨ f.cause = 0x06) (hr : routeOf s (.group k) f.cause = .handler kind entry) :
    takeFault s (.group k) f =
      ((groupStopped s k g f).updSeq (.team g.team) askTree).post [.sequencerPark (.team g.team)] := by
  rw [takeFault_group h]
  simp only [hr, parksParent_of_tree _ _ _ hf, if_true]
  rw [stopTree_group (groupStopped_group? h f), show (stoppedGroup s k g f).team = g.team from rfl]

/-- Settles O23: the group stops (`groupStopped`), and the rest changes of it the stop request alone. -/
theorem groupFault : Obligations.GroupFault := by
  unfold Obligations.GroupFault
  refine ⟨fun s k x f hx _ _ => ?_, fun s k x f kind entry hx hf hr hq => ?_⟩
  · obtain ⟨hg, -, -, -⟩ := gctx_some s hx
    obtain ⟨r, hgr⟩ := stopReqOnly_takeFault hg f k _ (groupStopped_group? hg f)
    obtain ⟨g', he, hst, hw, hf⟩ := stoppedAt_frame x.g (routeOf s (.group k) f.cause)
      (groupCause x.g f) s.iss.fpc f.addr r
    refine ⟨g', hgr.trans (congrArg some he.symm), ?_, hf, ?_⟩
    · rw [hst, routeOf_group hx]
    · rw [hw, groupCause, fcauseWord_cause, fcauseWord_scope, fcauseWord_reserved, fcauseWord_detail]
      refine ⟨rfl, ?_, rfl, rfl⟩
      unfold groupScope
      cases f.lane <;> cases x.g.sframe <;> rfl
  · obtain ⟨hg, ht, -, -⟩ := gctx_some s hx
    rw [takeFault_group_tree hg hf hr]
    have hs : (groupStopped s k x.g f).seq? (.team x.g.team) = some x.t.seq :=
      congrArg (Option.map fun t : Team => t.seq) ht
    refine ⟨⟨askTree x.t.seq, seq?_updSeq hs askTree, if_pos hq⟩, ?_⟩
    exact List.mem_append_right _ List.mem_cons_self

end Sys2Proof.Proofs
end

section
/-! ## The data that a lane memory instruction carries
SUPPORT for O30. Bytes of lane registers (R180, R184), and the operations that a core makes of its lanes (R326, R328). -/

namespace Sys2Proof.Proofs

open Sys2Proof Sys2Proof.Machine Sys2Proof.Laws

/-! ### Bytes of registers -/

theorem testBit_laneData (g : Group) (l n count m : Nat) (hm : m < 32 * count) :
    (g.laneData l n count).testBit m = (g.vreg l (n + m / 32)).getLsbD (m % 32) := by
  induction count generalizing n m with
  | zero => omega
  | succ count ih =>
    rw [Group.laneData, Nat.add_comm, Nat.testBit_two_pow_mul_add _ (g.vreg l n).isLt]
    split
    · next hlt => rw [Nat.div_eq_of_lt hlt, Nat.mod_eq_of_lt hlt, BitVec.testBit_toNat, Nat.add_zero]
    · next hge =>
      rw [ih _ _ (by omega), show n + 1 + (m - 32) / 32 = n + m / 32 by omega, show (m - 32) % 32 = m % 32 by omega]

/-- Byte `j` of a lane's registers, read as one number, is that of the statement's `dataByte`. -/
theorem laneData_byte (g : Group) (a : VReg) (l count j : Nat) (hj : j < 4 * count) :
    BitVec.ofNat 8 (g.laneData l a.toNat count >>> (8 * j)) = dataByte g a l j := by
  apply BitVec.eq_of_getLsbD_eq
  intro i hi
  rw [BitVec.getLsbD_ofNat, Nat.testBit_shiftRight, testBit_laneData _ _ _ _ _ (by omega), dataByte,
    BitVec.getLsbD_extractLsb', show (8 * j + i) / 32 = j / 4 by omega, show (8 * j + i) % 32 = 8 * (j % 4) + i by omega]

theorem extractLsb'_laneData (g : Group) (a : VReg) (l count j : Nat) (hc : count ≤ 4) (hj : j < 4 * count) :
    (BitVec.ofNat 128 (g.laneData l a.toNat count)).extractLsb' (8 * j) 8 = dataByte g a l j := by
  rw [← laneData_byte g a l count j hj]
  apply BitVec.eq_of_getLsbD_eq
  intro i hi
  rw [BitVec.getLsbD_extractLsb', BitVec.getLsbD_ofNat, BitVec.getLsbD_ofNat, Nat.testBit_shiftRight,
    decide_eq_true (show 8 * j + i < 128 by omega), Bool.true_and]

theorem leBytes_eq (n x : Nat) : leBytes n x = (List.range n).map fun j => BitVec.ofNat 8 (x >>> (8 * j)) := by
  induction n generalizing x with
  | zero => rfl
  | succ n ih =>
    rw [leBytes, ih, List.range_succ_eq_map, List.map_cons, List.map_map]
    refine List.cons_eq_cons.mpr ⟨?_, List.map_congr_left fun j _ => ?_⟩
    · apply BitVec.eq_of_toNat_eq
      simp
    · show BitVec.ofNat 8 ((x / 2 ^ 8) >>> (8 * j)) = BitVec.ofNat 8 (x >>> (8 * (j + 1)))
      rw [← Nat.shiftRight_eq_div_pow, ← Nat.shiftRight_add, show 8 + 8 * j = 8 * (j + 1) by omega]

theorem mtypeSize_le (t : MType) : mtypeSize t ≤ 4 * t.regs := by cases t <;> decide

theorem mtypeRegs_le (t : MType) : t.regs ≤ 4 := by cases t <;> decide

theorem atypeSize_eq (t : AType) : atypeSize t = 4 * t.regs := by cases t <;> rfl

/-- The size of an atomic's lanes, as the statement writes it. -/
theorem atypeSize_eq' (t : AType) : atypeSize t = if t.is64 then 8 else 4 := by cases t <;> rfl

theorem atypeRegs_le (t : AType) : t.regs ≤ 4 := by cases t <;> decide

/-- The bytes that a lane stores (R184). -/
theorem storeBytes_eq (ix : IX) (t : MType) (a : VReg) (l : Nat) :
    storeBytes ix t a l = (List.range (mtypeSize t)).map (dataByte ix.x.g a l) := by
  rw [storeBytes, leBytes_eq]
  refine List.map_congr_left fun j hj => laneData_byte _ _ _ _ _ ?_
  have := List.mem_range.mp hj
  have := mtypeSize_le t
  omega

/-! ### One operation for each grain -/

theorem nodup_eraseDups (l : List Nat) : l.eraseDups.Nodup := by
  generalize hn : l.length = n
  induction n using Nat.strongRecOn generalizing l with
  | _ n ih =>
    cases l with
    | nil => exact List.nodup_nil
    | cons a l =>
      rw [List.eraseDups_cons, List.nodup_cons]
      have hlen := List.length_filter_le (fun b => !b == a) l
      simp only [List.length_cons] at hn
      exact ⟨by simp [List.mem_eraseDups], ih _ (by omega) _ rfl⟩

section Ops

variable (x : GCtx) (fl : Nat) (act : HomeAct) (acq : Option MScope) (xs : List (Xlat × LaneOp)) (rel : Option MScope)

/-- The lanes of a grain. -/
def ofGrain (g : Nat) : List (Xlat × LaneOp) := xs.filter fun p => gbase p.1.gsz p.1.pa == g

/-- The operation that a core makes of a grain's lanes. -/
def opOf (g : Nat) : Option HomeOp :=
  match ofGrain xs g with
  | [] => none
  | p :: ps => some ⟨x.core, x.k, fl, g, p.1.gsz, act, acq, (p :: ps).map (·.2), pageAttr x p.1, false, rel⟩

theorem mkOps_eq : mkOps x fl act acq xs rel =
    (xs.map fun p => gbase p.1.gsz p.1.pa).eraseDups.filterMap (opOf x fl act acq xs rel) := rfl

variable {x fl act acq xs rel}

theorem opOf_some {g : Nat} {o : HomeOp} (h : opOf x fl act acq xs rel g = some o) :
    o.grain = g ∧ o.core = x.core ∧ o.grp = x.k ∧ o.flight = fl ∧ o.act = act ∧ o.acq = acq ∧
      o.lanes = (ofGrain xs g).map (·.2) := by
  unfold opOf at h
  split at h
  · cases h
  · next p ps heq =>
    obtain rfl := Option.some.inj h
    exact ⟨rfl, rfl, rfl, rfl, rfl, rfl, by rw [heq]⟩

theorem mkOps_nodup : ((mkOps x fl act acq xs rel).map (·.grain)).Nodup := by
  rw [mkOps_eq, List.Nodup, List.pairwise_map]
  refine List.Pairwise.filterMap _ (fun g g' hg o ho o' ho' => ?_) (nodup_eraseDups _)
  rwa [(opOf_some ho).1, (opOf_some ho').1]

theorem mkOps_mem {o : HomeOp} (h : o ∈ mkOps x fl act acq xs rel) :
    o.core = x.core ∧ o.grp = x.k ∧ o.flight = fl ∧ o.act = act ∧ o.acq = acq ∧
      o.lanes = (ofGrain xs o.grain).map (·.2) := by
  rw [mkOps_eq] at h
  obtain ⟨g, -, hg⟩ := List.mem_filterMap.mp h
  obtain ⟨hgr, hrest⟩ := opOf_some hg
  rw [← hgr] at hrest
  exact hrest

theorem mkOps_of_mem {p : Xlat × LaneOp} (hp : p ∈ xs) :
    ∃ o ∈ mkOps x fl act acq xs rel, o.grain = gbase p.1.gsz p.1.pa ∧ p.2 ∈ o.lanes := by
  have hof : p ∈ ofGrain xs (gbase p.1.gsz p.1.pa) := List.mem_filter.mpr ⟨hp, beq_self_eq_true _⟩
  obtain ⟨o, ho⟩ : ∃ o, opOf x fl act acq xs rel (gbase p.1.gsz p.1.pa) = some o := by
    unfold opOf
    split
    · next heq => rw [heq] at hof; cases hof
    · exact ⟨_, rfl⟩
  obtain ⟨hg, -, -, -, -, -, hl⟩ := opOf_some ho
  refine ⟨o, ?_, hg, hl ▸ List.mem_map.mpr ⟨p, hof, rfl⟩⟩
  rw [mkOps_eq]
  exact List.mem_filterMap.mpr ⟨_, List.mem_eraseDups.mpr (List.mem_map.mpr ⟨p, hp, rfl⟩), ho⟩

end Ops

/-- The lanes of an access with their translations, as the checks hand them on. -/
def laneXs (addr : Nat → W64) (y : Nat → Xlat) (ls : List Nat) : List LaneX := ls.map fun l => ⟨l, addr l, y l⟩

theorem filter_laneXs (addr : Nat → W64) (y : Nat → Xlat) (ls : List Nat) (p : Xlat → Bool) :
    (laneXs addr y ls).filter (fun x => p x.x) = laneXs addr y (ls.filter fun l => p (y l)) := List.filter_map

/-- What a core makes of its lanes is what the statement asks of the operations. -/
theorem opsFor_mkOps (x : GCtx) (act : HomeAct) (acq rel : Option MScope) (ls : List Nat) (addr : Nat → W64) (y : Nat → Xlat)
    (size : Nat) (v cmp : Nat → W128) (data cmpR : Option VReg)
    (hv : ∀ d, data = some d → ∀ l, ∀ n < size, (v l).extractLsb' (8 * n) 8 = dataByte x.g d l n)
    (hc : ∀ d, cmpR = some d → ∀ l, ∀ n < size, (cmp l).extractLsb' (8 * n) 8 = dataByte x.g d l n) :
    OpsFor x (mkOps x x.g.nextFlight act acq
      ((laneXs addr y ls).map fun z => (z.x, laneOpOf z size (v z.lane) (cmp z.lane))) rel) ls addr y size data cmpR := by
  refine ⟨mkOps_nodup, fun o ho => ?_, fun l hl => ?_⟩
  · obtain ⟨hcore, hgrp, hfl, -, -, hlanes⟩ := mkOps_mem ho
    refine ⟨hcore, hgrp, hfl, fun p hp => ?_⟩
    rw [hlanes] at hp
    obtain ⟨q, hq, rfl⟩ := List.mem_map.mp hp
    obtain ⟨z, hz, rfl⟩ := List.mem_map.mp (List.mem_filter.mp hq).1
    obtain ⟨l, hl, rfl⟩ := List.mem_map.mp hz
    exact hl
  · obtain ⟨o, ho, hg, hp⟩ := mkOps_of_mem (x := x) (fl := x.g.nextFlight) (act := act) (acq := acq) (rel := rel)
      (List.mem_map.mpr ⟨_, List.mem_map.mpr ⟨l, hl, rfl⟩, rfl⟩ : (y l, laneOpOf ⟨l, addr l, y l⟩ size (v l) (cmp l)) ∈
        (laneXs addr y ls).map fun z => (z.x, laneOpOf z size (v z.lane) (cmp z.lane)))
    exact ⟨o, ho, hg, _, hp, rfl, rfl, rfl, rfl, fun d hd => hv d hd l, fun d hd => hc d hd l⟩

end Sys2Proof.Proofs
end

section
/-! ## The issue of a memory instruction and the parts that follow it
SUPPORT for O30. After the issue a memory instruction only makes parts: each changes, of the sequencers, the flights and the
unacknowledged stores of its group alone. -/

namespace Sys2Proof.Proofs

open Sys2Proof Sys2Proof.Machine Sys2Proof.Laws

/-! ### The checks of the lanes (R199) -/

theorem checkLanes_ok {s : State} {c : GCtx} {a : Acc} {size : Nat} {ld64 : Bool} {ls : List Nat} {addr : Nat → W64}
    {y : Nat → Xlat} (h : ∀ l ∈ ls, (addr l).toNat % size = 0 ∧ xlatOne s c.core c.asid a ld64 (addr l) = .ok (y l)) :
    checkLanes s c a size ld64 (ls.map fun l => (l, addr l)) = .ok (laneXs addr y ls) := by
  have halign : (ls.map fun l => (l, addr l)).find? (fun p => p.2.toNat % size != 0) = none := by
    simpa [List.find?_eq_none] using fun l hl => (h l hl).1
  have hx : ((ls.map fun l => (l, addr l)).map fun p => (p, xlatOne s c.core c.asid a ld64 p.2)) =
      ls.map fun l => ((l, addr l), XRes.ok (y l)) := by
    rw [List.map_map]
    exact List.map_congr_left fun l hl => by simp only [Function.comp, (h l hl).2]
  unfold checkLanes
  rw [halign]
  simp only [hx]
  have hprot : (ls.map fun l => ((l, addr l), XRes.ok (y l))).find? (fun p => p.2 == .prot) = none := by
    simp [List.find?_eq_none]
  rw [hprot]
  have hpage : (ls.filterMap fun _ => (none : Option (Nat × W64))) = [] := List.filterMap_eq_nil_iff.mpr fun _ _ => rfl
  simp only [List.filterMap_map, Function.comp_def, hpage]
  exact congrArg Checked.ok (congrFun List.filterMap_eq_map ls)

/-! ### Filling the TLB (R399) -/

/-- The state in which the translations of an access are in the core's TLB. -/
def filled (s : State) (x : GCtx) (xs : List LaneX) : State :=
  foldS s xs fun s y => fillTlb s x.core x.asid y.va.toNat false

theorem fillWalk_eq (s : State) (asid va : Nat) : ∃ w w2, fillWalk s asid va = { s with walk := w, walk2 := w2 } := by
  unfold fillWalk
  split
  · exact ⟨s.walk, s.walk2, rfl⟩
  · exact ⟨_, _, rfl⟩

theorem fillTlb_eq (s : State) (c asid va : Nat) :
    ∃ w w2 cs, fillTlb s c asid va false = { s with walk := w, walk2 := w2, cores := cs } := by
  unfold fillTlb
  simp only [Bool.false_eq_true, if_false]
  split
  · exact ⟨s.walk, s.walk2, s.cores, rfl⟩
  · split
    · obtain ⟨w, w2, hw⟩ := fillWalk_eq s asid va
      rw [hw]
      exact ⟨w, w2, _, rfl⟩
    · exact ⟨s.walk, s.walk2, s.cores, rfl⟩

theorem filled_eq (s : State) (x : GCtx) (xs : List LaneX) :
    ∃ w w2 cs, filled s x xs = { s with walk := w, walk2 := w2, cores := cs } := by
  induction xs generalizing s with
  | nil => exact ⟨s.walk, s.walk2, s.cores, rfl⟩
  | cons y xs ih =>
    obtain ⟨w, w2, cs, h⟩ := fillTlb_eq s x.core x.asid y.va.toNat
    obtain ⟨w', w2', cs', h'⟩ := ih (fillTlb s x.core x.asid y.va.toNat false)
    refine ⟨w', w2', cs', ?_⟩
    show filled (fillTlb s x.core x.asid y.va.toNat false) x xs = _
    rw [h', h]

/-! ### The parts of an access -/

/-- What tells a flight from another: its number, whether it is of memory, and its acquire. -/
def flightKey (f : Flight) : Nat × Bool × Option MScope := (f.id, f.mem, f.acq)

/-- Of the sequencers only the flights of group `k`, and its stores without acknowledgement, change. -/
structure Parts (k : Nat) (s t : State) : Prop where
  teams : t.teams = s.teams
  grids : t.grids = s.grids
  others : ∀ j, j ≠ k → t.group? j = s.group? j
  own : ∀ g, s.group? k = some g → ∃ fs acks, t.group? k = some { g with flights := fs, acks := acks } ∧
    fs.map flightKey = g.flights.map flightKey

theorem Parts.of_units {k : Nat} {s t : State} (h : units t = units s) : Parts k s t :=
  ⟨teams_of_units h, grids_of_units h, fun j _ => group?_of_units h j,
    fun g hg => ⟨g.flights, g.acks, (group?_of_units h k).trans hg, rfl⟩⟩

theorem Parts.refl (k : Nat) (s : State) : Parts k s s := .of_units rfl

theorem Parts.trans {k : Nat} {s t u : State} (h : Parts k s t) (h' : Parts k t u) : Parts k s u := by
  refine ⟨h'.teams.trans h.teams, h'.grids.trans h.grids, fun j hj => (h'.others j hj).trans (h.others j hj), fun g hg => ?_⟩
  obtain ⟨fs, acks, ht, hk⟩ := h.own g hg
  obtain ⟨fs', acks', hu, hk'⟩ := h'.own _ ht
  exact ⟨fs', acks', hu, hk'.trans hk⟩

theorem Parts.foldS {α : Type} {k : Nat} {f : State → α → State} (xs : List α) (h : ∀ s, ∀ a ∈ xs, Parts k s (f s a))
    (s : State) : Parts k s (Machine.foldS s xs f) := by
  induction xs generalizing s with
  | nil => exact .refl k s
  | cons a xs ih =>
    exact (h s a List.mem_cons_self).trans (ih (fun s b hb => h s b (List.mem_cons_of_mem _ hb)) (f s a))

/-- An update of the group's flights that keeps their keys is a part. -/
theorem parts_updFlights (s : State) (k : Nat) (f : Flight → Flight) (hf : ∀ x, flightKey (f x) = flightKey x) :
    Parts k s (s.updGroup k fun g => { g with flights := g.flights.map f }) := by
  refine ⟨rfl, rfl, fun j hj => ?_, fun g hg => ⟨g.flights.map f, g.acks, ?_, ?_⟩⟩
  · rw [group?_updGroup, if_neg hj]
  · rw [group?_updGroup, if_pos rfl, hg]
    rfl
  · rw [List.map_map]
    exact List.map_congr_left fun x _ => hf x

theorem parts_awaitPart (s : State) (k fl : Nat) : Parts k s (awaitPart s k fl) :=
  parts_updFlights s k _ fun x => by split <;> rfl

theorem parts_giveNow (s : State) (k fl : Nat) (ws : List RegW) : Parts k s (giveNow s k fl ws) :=
  parts_updFlights s k _ fun x => by split <;> rfl

theorem units_addWaiter (s : State) (c : Nat) (m : Miss) (w : Waiter) : units (addWaiter s c m w) = units s := by
  unfold addWaiter
  dsimp only
  split
  · rfl
  · split <;> rfl

theorem parts_accessPart {k : Nat} (s : State) (c : Nat) (m : Miss) {w : Waiter} (hw : w.grp = k) :
    Parts k s (accessPart s c m w) := by
  subst hw
  unfold accessPart
  dsimp only
  split
  · split
    · exact .of_units rfl
    · exact .trans (.of_units (units_updCore s _ _)) (parts_giveNow _ _ _ _)
  · exact (parts_awaitPart s _ _).trans (.of_units (units_addWaiter _ _ _ _))

theorem parts_ldbPart (s : State) (ix : IX) (fl : Nat) (wait : Bool) (t : MType) (a : VReg) (n : Nat) (z : LaneX) :
    Parts ix.x.k s (ldbPart s ix fl wait t a n z) := by
  unfold ldbPart
  dsimp only
  split
  · exact parts_accessPart _ _ _ rfl
  · split
    · exact .trans (.of_units (units_updCore s _ _)) (parts_giveNow _ _ _ _)
    · split
      · exact (parts_awaitPart s _ _).trans (.of_units (units_addWaiter _ _ _ _))
      · exact (parts_awaitPart s _ _).trans (.of_units rfl)

theorem units_demote (s : State) (c g : Nat) : units (demote s c g) = units s := by
  unfold demote
  split
  · rfl
  · dsimp only
    split
    · split <;> rfl
    · rfl

theorem units_beforeOp (s : State) (o : HomeOp) : units (beforeOp s o) = units s := by
  unfold beforeOp
  split
  · exact units_flushGrain s _ _
  · exact units_flushGrain s _ _
  · rw [units_demote, units_flushGrain]
  · rfl
  · exact units_purgeGrain s _ _

theorem parts_departs (s : State) (o : HomeOp) : Parts o.grp s (departs s o) := by
  unfold departs
  split
  · refine ⟨rfl, rfl, fun j hj => ?_, fun g hg => ⟨g.flights, g.acks ++ [o.flight], ?_, rfl⟩⟩
    · rw [group?_updGroup, if_neg hj]
    · rw [group?_updGroup, if_pos rfl, hg]
      rfl
  · exact parts_awaitPart s _ _

theorem parts_sendOp (s : State) (o : HomeOp) : Parts o.grp s (sendOp s o) :=
  (parts_departs s o).trans (.of_units (units_beforeOp _ o))

/-! ### The issue -/

/-- A memory instruction of group `k` has issued in `s` and made its parts: its flight, with its acquire, is the newest, its
group's later accesses wait where it acquires, and `rels` has joined the group's pending list. -/
structure Begun (s t : State) (k : Nat) (g : Group) (acq : Option MScope) (rels : List PendRel) (g' : Group) : Prop where
  issued : MemIssued s t k g g'
  flights : g'.flights.map flightKey = g.flights.map flightKey ++ [(g.nextFlight, true, acq)]
  hold : acq.isSome → g'.hold = some g.nextFlight
  rels : g'.rels = g.rels ++ rels

theorem Begun.newest {s t : State} {k : Nat} {g g' : Group} {acq : Option MScope} {rels : List PendRel}
    (h : Begun s t k g acq rels g') : ∃ f, g'.flights.getLast? = some f ∧ f.mem = true ∧ f.id = g.nextFlight ∧
      (f.acq.isSome → g'.hold = some f.id) := by
  have hl := congrArg List.getLast? h.flights
  rw [List.getLast?_concat, List.getLast?_map, Option.map_eq_some_iff] at hl
  obtain ⟨f, hf, hk⟩ := hl
  obtain ⟨hid, hmem, hacq⟩ : f.id = g.nextFlight ∧ f.mem = true ∧ f.acq = acq := by
    simpa [flightKey] using hk
  exact ⟨f, hf, hmem, hid, fun ha => by rw [hid]; exact h.hold (hacq ▸ ha)⟩

theorem Begun.parts {s t u : State} {k : Nat} {g g' : Group} {acq : Option MScope} {rels : List PendRel}
    (h : Begun s t k g acq rels g') (hp : Parts k t u) : ∃ g'', Begun s u k g acq rels g'' := by
  obtain ⟨fs, acks, hu, hk⟩ := hp.own g' h.issued.own
  refine ⟨_, ⟨hu, fun j hj => (hp.others j hj).trans (h.issued.others j hj),
    ⟨hp.teams.trans h.issued.units.1, hp.grids.trans h.issued.units.2⟩, ?_⟩, hk.trans h.flights, h.hold, h.rels⟩
  conv => lhs; rw [h.issued.frame]

theorem Begun.pend {s t : State} {k : Nat} {g g' : Group} {acq : Option MScope} {rels : List PendRel}
    (h : Begun s t k g acq rels g') (p : PendRel) : ∃ g'', Begun s (pendRel t k p) k g acq (rels ++ [p]) g'' := by
  obtain ⟨g'', h'⟩ := h.parts (parts_awaitPart t k p.flight)
  refine ⟨{ g'' with rels := g''.rels ++ [p] }, ⟨?_, fun j hj => ?_, h'.issued.units, ?_⟩, h'.flights, h'.hold, ?_⟩
  · rw [pendRel, group?_updGroup, if_pos rfl, h'.issued.own]
    rfl
  · rw [pendRel, group?_updGroup, if_neg hj]
    exact h'.issued.others j hj
  · conv => lhs; rw [h'.issued.frame]
  · show g''.rels ++ [p] = _
    rw [h'.rels, List.append_assoc]

/-- The group as its memory instruction issues. -/
def begunGroup (s : State) (x : GCtx) (f : Flight) : Group :=
  let g := (x.g.launch { f with flag := issueFlag s x, fpc := s.iss.fpc }).issued s s.nextPc
  { g with hold := if f.acq.isSome then some x.g.nextFlight else g.hold }

theorem memIssue_eq (s : State) (ix : IX) (f : Flight) :
    memIssue s ix f = ((s.setGroup ix.x.k (begunGroup s ix.x f)).bumpKey, ix.x.g.nextFlight) := rfl

theorem begunGroup_filled (s : State) (x : GCtx) (xs : List LaneX) (f : Flight) :
    begunGroup (filled s x xs) x f = begunGroup s x f := by
  obtain ⟨w, w2, cs, h⟩ := filled_eq s x xs
  rw [h]
  rfl

theorem launch_frame (g : Group) (f : Flight) : g.launch f = { g with
    flags := (g.launch f).flags, pendV := (g.launch f).pendV, pendS := (g.launch f).pendS, pendM := (g.launch f).pendM
    flights := g.flights ++ [{ f with id := g.nextFlight }], nextFlight := g.nextFlight + 1 } := by
  unfold Group.launch Group.raiseFlag
  split <;> rfl

theorem memIssue_begun {s : State} {k : Nat} {x : GCtx} (hx : s.gctx k = some x) (xs : List LaneX) {ix : IX} (hix : ix.x = x)
    {f : Flight} (hf : f.mem = true) :
    ∃ g', Begun s (memIssue (filled s x xs) ix f).1 k x.g f.acq [] g' := by
  have hk : x.k = k := gctx_k hx
  have hu : units (filled s x xs) = units s := by
    obtain ⟨w, w2, cs, h⟩ := filled_eq s x xs
    rw [h]
    rfl
  have hl := launch_frame x.g { f with flag := issueFlag s x, fpc := s.iss.fpc }
  refine ⟨begunGroup s x f, ⟨?_, fun j hj => ?_, ⟨(teams_of_units hu :), (grids_of_units hu :)⟩, ?_⟩, ?_, fun ha => ?_, ?_⟩
  · rw [memIssue_eq, hix, hk, begunGroup_filled]
    exact group?_setGroup _ _ _
  · rw [memIssue_eq, hix, hk]
    exact (group?_setGroup_ne _ hj _).trans (group?_of_units hu j)
  · unfold begunGroup
    rw [hl]
    rfl
  · unfold begunGroup
    rw [hl]
    simp [Group.issued, flightKey, hf]
  · simp [begunGroup, ha]
  · unfold begunGroup
    rw [hl]
    simp [Group.issued]

end Sys2Proof.Proofs
end

section
/-! ## Operations on their way to a home
SUPPORT for O30. An operation that leaves stays pending whatever its core does before the next leaves, and is the last event
where it does not travel to another device (R326, R449). -/

namespace Sys2Proof.Proofs

open Sys2Proof Sys2Proof.Machine Sys2Proof.Laws

/-! ### The pending events under the writebacks of a core -/

section Agenda

variable (s : State)

@[simp] theorem agenda_putDir (g : Nat) (d : Dir) : (s.putDir g d).agenda = s.agenda := rfl

@[simp] theorem agenda_sendFlit (pa cls : Nat) : (s.sendFlit pa cls).agenda = s.agenda := by
  unfold State.sendFlit; split <;> rfl

@[simp] theorem agenda_homeWrite (pa : Nat) (bs : List Byte) : (s.homeWrite pa bs).agenda = s.agenda := by
  unfold State.homeWrite
  split
  · rfl
  · split
    · exact agenda_sendFlit s pa 0
    · rfl

@[simp] theorem agenda_homeMerge (bs : Tab Byte) : (s.homeMerge bs).agenda = s.agenda := by
  show (bs.foldl (fun s p => s.homeWrite p.1 [p.2]) s).agenda = s.agenda
  induction bs generalizing s with
  | nil => rfl
  | cons b bs ih => rw [List.foldl_cons, ih, agenda_homeWrite]

@[simp] theorem agenda_mergeHome (bs : Tab Byte) : (mergeHome s bs).agenda = s.agenda := agenda_homeMerge s bs

@[simp] theorem agenda_coreInvalidate (c g : Nat) : (coreInvalidate s c g).1.agenda = s.agenda := by
  unfold coreInvalidate; dsimp only; split <;> rfl

@[simp] theorem agenda_mergeOwner (c g : Nat) (bs : Tab Byte) : (mergeOwner s c g bs).agenda = s.agenda := by
  unfold mergeOwner
  repeat' split
  all_goals simp

end Agenda

/-- The pending events of `t` are those of `s`, of which deliveries may have been overtaken, and then `ws`. -/
def Overtaken (ws : List Instr) (s t : State) : Prop :=
  ∃ h : Instr → Instr, (∀ o, h (.homeExecutedOperation o) = .homeExecutedOperation o) ∧ t.agenda = s.agenda.map h ++ ws

theorem Overtaken.of_agenda {s t : State} (h : t.agenda = s.agenda) : Overtaken [] s t :=
  ⟨id, fun _ => rfl, by rw [h, List.map_id, List.append_nil]⟩

theorem Overtaken.trans {s t u : State} {ws : List Instr} (h : Overtaken [] s t) (h' : Overtaken ws t u) :
    Overtaken ws s u := by
  obtain ⟨f, hf, ht⟩ := h
  obtain ⟨f', hf', hu⟩ := h'
  refine ⟨f' ∘ f, fun o => by rw [Function.comp, hf, hf'], ?_⟩
  rw [hu, ht, List.append_nil, List.map_map]

theorem Overtaken.foldS {α : Type} {f : State → α → State} (h : ∀ s a, Overtaken [] s (f s a)) (s : State) (xs : List α) :
    Overtaken [] s (Machine.foldS s xs f) := by
  induction xs generalizing s with
  | nil => exact .of_agenda rfl
  | cons a xs ih => exact (h s a).trans (ih (f s a))

theorem overtaken_exclGrain (s : State) (g : Nat) : Overtaken [] s (exclGrain s g) := by
  unfold exclGrain
  split
  · exact .of_agenda rfl
  · next d _ =>
    have hmap : Overtaken [] s { s with agenda := s.agenda.map (overtake g) } :=
      ⟨overtake g, fun _ => rfl, (List.append_nil _).symm⟩
    refine hmap.trans ((Overtaken.foldS (fun s c => .of_agenda ?_) _ _).trans (.of_agenda rfl))
    simp

theorem overtaken_devMerge (s : State) (c : Nat) (bs : Tab Byte) : Overtaken [] s (devMerge s c bs) := by
  unfold devMerge
  split
  · exact .of_agenda rfl
  · refine (Overtaken.foldS (fun s g => ?_) s _).trans (.of_agenda (agenda_homeMerge _ _))
    split
    · split
      · exact .of_agenda rfl
      · exact .trans (.of_agenda (agenda_putDir _ _ _)) (overtaken_exclGrain _ g)
    · exact .of_agenda rfl

/-- What waits at a home whose path is held lies on another device. -/
theorem isRemote_of_waits {s : State} {g : Nat} (h : (s.cutOff g || s.pathHeld g 0) = true) : isRemote g = true := by
  cases hr : isRemote g with
  | true => rfl
  | false => simp [State.cutOff, State.pathHeld, State.pathDraining, hr] at h

/-- What a core does to its copy of a grain: anything new that is pending travels to another device. -/
def OvertakenFor (g : Nat) (s t : State) : Prop := ∃ ws, Overtaken ws s t ∧ (isRemote g = false → ws = [])

theorem Overtaken.atGrain {s t : State} (h : Overtaken [] s t) (g : Nat) : OvertakenFor g s t := ⟨[], h, fun _ => rfl⟩

theorem OvertakenFor.after {s t u : State} {g : Nat} (h' : OvertakenFor g t u) (h : t.agenda = s.agenda) :
    OvertakenFor g s u := by
  obtain ⟨ws, hu, hl⟩ := h'
  exact ⟨ws, (Overtaken.of_agenda h).trans hu, hl⟩

theorem overtaken_mergeBack (s : State) (c g : Nat) (b : Block) (bs : Tab Byte) :
    OvertakenFor g s (mergeBack s c g b bs) := by
  unfold mergeBack
  split
  · exact Overtaken.atGrain (.of_agenda rfl) _
  · split
    · next hw =>
      exact ⟨_, ⟨id, fun _ => rfl, by rw [List.map_id]; rfl⟩, fun hl => by rw [isRemote_of_waits hw] at hl; cases hl⟩
    · refine ⟨[], ?_, fun _ => rfl⟩
      split
      · exact .of_agenda (agenda_homeMerge _ _)
      · split
        · split
          · exact .of_agenda rfl
          · exact overtaken_devMerge s c bs
        · exact overtaken_devMerge s c bs

theorem overtaken_flushGrain (s : State) (c g : Nat) : OvertakenFor g s (flushGrain s c g) := by
  unfold flushGrain
  dsimp only
  split
  · split
    · exact Overtaken.atGrain (.of_agenda (agenda_mergeOwner _ _ _ _)) _
    · exact (overtaken_mergeBack _ _ _ _ _).after (setCore_agenda s c _)
  · exact Overtaken.atGrain (.of_agenda rfl) _

theorem overtaken_purgeGrain (s : State) (c g : Nat) : OvertakenFor g s (purgeGrain s c g) := by
  unfold purgeGrain
  dsimp only
  split
  · exact Overtaken.atGrain (.of_agenda rfl) _
  · split
    · refine ⟨[], .of_agenda ?_, fun _ => rfl⟩
      split
      · split <;> simp
      · simp
    · exact (overtaken_mergeBack _ _ _ _ _).after (setCore_agenda s c _)

theorem overtaken_beforeOp (s : State) (o : HomeOp) : OvertakenFor o.grain s (beforeOp s o) := by
  have hd : ∀ s, (demote s o.core o.grain).agenda = s.agenda := by
    intro s
    unfold demote
    split
    · rfl
    · dsimp only
      split
      · split <;> rfl
      · rfl
  unfold beforeOp
  split
  · exact overtaken_flushGrain s _ _
  · exact overtaken_flushGrain s _ _
  · obtain ⟨ws, ⟨f, hf, ha⟩, hl⟩ := overtaken_flushGrain s o.core o.grain
    exact ⟨ws, ⟨f, hf, (hd _).trans ha⟩, hl⟩
  · exact Overtaken.atGrain (.of_agenda rfl) _
  · exact overtaken_purgeGrain s _ _

theorem agenda_departs (s : State) (o : HomeOp) : (departs s o).agenda = s.agenda := by
  unfold departs awaitPart
  split <;> rfl

/-- An operation leaves: the pending events, and then it. -/
theorem agenda_sendOp (s : State) (o : HomeOp) : ∃ (h : Instr → Instr) (ws : List Instr),
    (∀ o, h (.homeExecutedOperation o) = .homeExecutedOperation o) ∧
    (sendOp s o).agenda = s.agenda.map h ++ ws ++ [.homeExecutedOperation o] ∧ (isRemote o.grain = false → ws = []) := by
  obtain ⟨ws, ⟨h, hh, ha⟩, hl⟩ := (overtaken_beforeOp (departs s o) o).after (agenda_departs s o)
  exact ⟨h, ws, hh, congrArg (· ++ _) ha, hl⟩

/-! ### A list of operations -/

theorem map_ops_fixed {h : Instr → Instr} (hh : ∀ o, h (.homeExecutedOperation o) = .homeExecutedOperation o)
    (ops : List HomeOp) : (ops.map Instr.homeExecutedOperation).map h = ops.map .homeExecutedOperation := by
  rw [List.map_map]
  exact List.map_congr_left fun o _ => hh o

theorem sendOps_sublist (ops sent : List HomeOp) (s : State) (h : (sent.map Instr.homeExecutedOperation).Sublist s.agenda) :
    ((sent ++ ops).map Instr.homeExecutedOperation).Sublist (foldS s ops sendOp).agenda := by
  induction ops generalizing sent s with
  | nil => rwa [List.append_nil]
  | cons o ops ih =>
    obtain ⟨f, ws, hf, ha, -⟩ := agenda_sendOp s o
    have := ih (sent ++ [o]) (sendOp s o) (by
      rw [ha, List.map_append]
      refine List.Sublist.append ?_ (List.Sublist.refl _)
      rw [← map_ops_fixed hf]
      exact (h.map f).trans (List.sublist_append_left _ _))
    rwa [List.append_assoc] at this

theorem sendOps_suffix (ops sent : List HomeOp) (s : State) (hl : ∀ o ∈ ops, isRemote o.grain = false)
    (h : sent.map Instr.homeExecutedOperation <:+ s.agenda) :
    (sent ++ ops).map Instr.homeExecutedOperation <:+ (foldS s ops sendOp).agenda := by
  induction ops generalizing sent s with
  | nil => rwa [List.append_nil]
  | cons o ops ih =>
    obtain ⟨f, ws, hf, ha, hw⟩ := agenda_sendOp s o
    have := ih (sent ++ [o]) (sendOp s o) (fun p hp => hl p (List.mem_cons_of_mem _ hp)) (by
      rw [ha, hw (hl o List.mem_cons_self), List.append_nil, List.map_append, ← map_ops_fixed hf]
      exact (List.suffix_append_inj_of_length_eq rfl).mpr ⟨h.map f, rfl⟩)
    rwa [List.append_assoc] at this

/-- The operations of an access that has begun: they wait in the group's pending list, or have left. -/
def Sent (s t : State) (k : Nat) (g : Group) (acq : Option MScope) (fl : Nat) (sc : MScope) (rel : Bool)
    (ops : List HomeOp) : Prop :=
  (∃ g', Begun s t k g acq [⟨fl, sc, rel, [], ops, []⟩] g') ∨
  rel = false ∧ (∃ g', Begun s t k g acq [] g') ∧ (ops.map Instr.homeExecutedOperation).Sublist t.agenda ∧
    ((∀ o ∈ ops, isRemote o.grain = false) → ops.map Instr.homeExecutedOperation <:+ t.agenda)

theorem Sent.begun {s t : State} {k : Nat} {g : Group} {acq : Option MScope} {fl : Nat} {sc : MScope} {rel : Bool}
    {ops : List HomeOp} (h : Sent s t k g acq fl sc rel ops) : ∃ rels g', Begun s t k g acq rels g' := by
  rcases h with ⟨g', h⟩ | ⟨-, ⟨g', h⟩, -⟩ <;> exact ⟨_, g', h⟩

theorem sendOps_sent {s t : State} {k : Nat} {x : GCtx} {g g' : Group} {acq : Option MScope} (hk : x.k = k)
    (h : Begun s t k g acq [] g') (fl : Nat) (sc : MScope) (rel : Bool) {ops : List HomeOp} (ho : ∀ o ∈ ops, o.grp = x.k) :
    Sent s (sendOps t x fl sc rel ops) k g acq fl sc rel ops := by
  unfold sendOps
  split
  · exact .inl (hk ▸ h.pend _)
  · next hn =>
    have hrel : rel = false := by
      cases rel
      · rfl
      · simp at hn
    refine .inr ⟨hrel, h.parts (Parts.foldS ops (fun s o hm => ?_) t), ?_, fun hl => ?_⟩
    · rw [← hk, ← ho o hm]
      exact parts_sendOp s o
    · exact sendOps_sublist ops [] t (List.nil_sublist _)
    · exact sendOps_suffix ops [] t hl List.nil_suffix

end Sys2Proof.Proofs
end

section
/-! ## O30: memory instructions issue
Each form is: the checks pass (`memLanes_translates`), the flight begins (`memIssue_begun`), the parts follow, and the
operations that remain are sent or wait (`sendOps_sent`). -/

namespace Sys2Proof.Proofs

open Sys2Proof Sys2Proof.Machine Sys2Proof.Laws

theorem exec_ld (t : MType) (a b : VReg) (c : LdOff) (s : State) : exec (.ld t a b c) s = execLd t a b c s := rfl
theorem exec_st (t : MType) (a b : VReg) (c : LdOff) (s : State) : exec (.st t a b c) s = execSt t a b c s := rfl
theorem exec_ldAcq (t : MType) (a b : VReg) (sc : MScope) (s : State) :
    exec (.ldAcq t a b sc) s = execLdAcq t a b sc s := rfl
theorem exec_stRel (t : MType) (a b : VReg) (sc : MScope) (s : State) :
    exec (.stRel t a b sc) s = execStRel t a b sc s := rfl
theorem exec_ldbR (t : MType) (a b : VReg) (n : BitVec 3) (s : State) :
    exec (.ldbR t a b n) s = ldbOp s (.ldbR t a b n) false t a b n := rfl
theorem exec_ldbS (t : MType) (a b : VReg) (n : BitVec 3) (s : State) :
    exec (.ldbS t a b n) s = ldbOp s (.ldbS t a b n) true t a b n := rfl
theorem exec_atom (o : AOp) (t : AType) (a b : VReg) (r : Ord) (sc : MScope) (s : State) :
    exec (.atom o t a b r sc) s = execAtom o t a b r sc s := rfl
theorem exec_cas (r : Ord) (sc : MScope) (a b c : VReg) (s : State) :
    exec (.cas r sc a b c) s = casOp s (.cas r sc a b c) r sc a b c 1 := rfl
theorem exec_casW64 (r : Ord) (sc : MScope) (a b c : VReg) (s : State) :
    exec (.casW64 r sc a b c) s = casOp s (.casW64 r sc a b c) r sc a b c 2 := rfl
theorem exec_fence (r : Ord) (sc : MScope) (s : State) : exec (.fence r sc) s = execFence r sc s := rfl
theorem exec_cinv (b : VReg) (sc : MScope) (s : State) : exec (.cinv b sc) s = maintOp s (.cinv b sc) b sc true := rfl
theorem exec_cflush (b : VReg) (sc : MScope) (s : State) : exec (.cflush b sc) s = maintOp s (.cflush b sc) b sc false := rfl
theorem exec_pref (b : VReg) (l2 : Bool) (s : State) : exec (.pref b l2) s = execPref b l2 s := rfl

/-! ### The shared shape -/

/-- Every active lane's access is aligned and translates, lane `l`'s to `y l`. -/
def Translates (s : State) (x : GCtx) (a : Acc) (size : Nat) (ld64 : Bool) (addr : Nat → W64) (y : Nat → Xlat) : Prop :=
  ∀ l ∈ (IX.of s x).lanes, (addr l).toNat % size = 0 ∧ laneXlat s x a ld64 (addr l) = .ok (y l)

theorem translates_of_ok {s : State} {x : GCtx} {a : Acc} {size : Nat} {ld64 : Bool} {addr : Nat → W64}
    (h : ∀ l ∈ (IX.of s x).lanes, (addr l).toNat % size = 0 ∧ ∃ y, laneXlat s x a ld64 (addr l) = .ok y) :
    ∃ y, Translates s x a size ld64 addr y := by
  have : ∀ l, ∃ y, l ∈ (IX.of s x).lanes → (addr l).toNat % size = 0 ∧ laneXlat s x a ld64 (addr l) = .ok y := by
    intro l
    by_cases hl : l ∈ (IX.of s x).lanes
    · obtain ⟨ha, y, hy⟩ := h l hl
      exact ⟨y, fun _ => ⟨ha, hy⟩⟩
    · exact ⟨⟨0, .n, 32, 0, false, false⟩, fun hl' => absurd hl' hl⟩
  obtain ⟨y, hy⟩ := Classical.axiomOfChoice this
  exact ⟨y, hy⟩

section Issue

variable {s : State} {k : Nat} {x : GCtx} {i : Instr} (h : Issues s k x i)
include h

theorem memLanes_translates {a : Acc} {size : Nat} {ld64 : Bool} {addr : IX → Nat → W64} {y : Nat → Xlat}
    (hl : Translates s x a size ld64 (addr (IX.of s x)) y) (body : IX → State → List LaneX → Out) :
    memLanes s i a size ld64 addr body =
      body (IX.of s x) (filled s x (laneXs (addr (IX.of s x)) y (IX.of s x).lanes))
        (laneXs (addr (IX.of s x)) y (IX.of s x).lanes) := by
  unfold memLanes
  rw [withGroup_issues h]
  simp only [IX.addrs, ixOf_x]
  rw [checkLanes_ok hl]
  rfl

/-- The flight begins, its parts lead to `u`, and its operations are sent. -/
theorem access_sent (xs : List LaneX) {f : Flight} (hf : f.mem = true) {u : State}
    (hu : Parts k (memIssue (filled s x xs) (IX.of s x) f).1 u) (sc : MScope) (rel : Bool) (act : HomeAct)
    (acq hrel : Option MScope) (ls : List (Xlat × LaneOp)) :
    Sent s (sendOps u x x.g.nextFlight sc rel (mkOps x x.g.nextFlight act acq ls hrel)) k x.g f.acq x.g.nextFlight sc rel
      (mkOps x x.g.nextFlight act acq ls hrel) := by
  obtain ⟨g', hb⟩ := memIssue_begun h.ctx xs (ixOf_x s x) hf
  obtain ⟨g'', hb'⟩ := hb.parts hu
  exact sendOps_sent (gctx_k h.ctx) hb' _ _ _ fun o ho => (mkOps_mem ho).2.1

/-- The flight begins and waits for the group's earlier accesses. -/
theorem access_pends (xs : List LaneX) {f : Flight} (hf : f.mem = true) (p : PendRel) :
    ∃ g', Begun s (pendRel (memIssue (filled s x xs) (IX.of s x) f).1 x.k p) k x.g f.acq [p] g' := by
  obtain ⟨g', hb⟩ := memIssue_begun h.ctx xs (ixOf_x s x) hf
  rw [gctx_k h.ctx]
  exact hb.pend p

/-- Parts of the group's lanes through the L1. -/
theorem parts_l1Loads (u : State) (fl : Nat) (t : MType) (a : VReg) (xs : List LaneX) :
    Parts k u (l1Loads u (IX.of s x) fl t a xs) :=
  Parts.foldS xs (fun _ _ _ => parts_accessPart _ _ _ (gctx_k h.ctx)) u

theorem plainLoad_sent (xs : List LaneX) (t : MType) (a : VReg) (acq : Option MScope) :
    Sent s (plainLoad (filled s x xs) (IX.of s x) t a acq xs) k x.g acq x.g.nextFlight .grp false
      (loadOps (IX.of s x) x.g.nextFlight t none (homeLanes xs)) :=
  access_sent h xs (f := loadFlight (IX.of s x) t a acq) rfl (parts_l1Loads h _ _ t a _) .grp false _ _ _ _

end Issue

/-- The instruction issues as a memory instruction does. -/
def Starts (s : State) (k : Nat) (x : GCtx) (i : Instr) : Prop :=
  ∃ t acq rels g', exec i s = .next t ∧ Begun s t k x.g acq rels g'

theorem Sent.starts {s t : State} {k : Nat} {x : GCtx} {i : Instr} {acq : Option MScope} {fl : Nat} {sc : MScope} {rel : Bool}
    {ops : List HomeOp} (h : Sent s t k x.g acq fl sc rel ops) (he : exec i s = .next t) : Starts s k x i := by
  obtain ⟨rels, g', hb⟩ := h.begun
  exact ⟨t, acq, rels, g', he, hb⟩

/-- How the first statement reads a start. -/
theorem Starts.newest {s : State} {k : Nat} {x : GCtx} {i : Instr} (h : Starts s k x i) :
    ∃ t g' f, exec i s = .next t ∧ MemIssued s t k x.g g' ∧ g'.flights.getLast? = some f ∧ f.mem = true ∧
      f.id = x.g.nextFlight ∧ (f.acq.isSome → g'.hold = some f.id) := by
  obtain ⟨t, acq, rels, g', he, hb⟩ := h
  obtain ⟨f, hf⟩ := hb.newest
  exact ⟨t, g', f, he, hb.issued, hf⟩

/-! ### LD, ST and LDB -/

/-- The address of a plain access (R179), as the statement writes it. -/
theorem offAddr_eq (s : State) (x : GCtx) (b : VReg) (size : Nat) (c : LdOff) : offAddr b size c (IX.of s x) = fun l =>
    x.g.vpair l b.toNat + match c with
      | .imm n => n.zeroExtend 64 * BitVec.ofNat 64 size
      | .reg n => x.g.sregD n.toNat := by
  funext l
  cases c with
  | imm n =>
    show x.g.vpair l b.toNat + BitVec.ofNat 64 (n.toNat * size) = x.g.vpair l b.toNat + n.zeroExtend 64 * BitVec.ofNat 64 size
    rw [BitVec.ofNat_mul]
    congr 2
    apply BitVec.eq_of_toNat_eq
    simp
  | reg n => rfl

section Forms

variable {s : State} {k : Nat} {x : GCtx} {size : Nat} {ld64 : Bool} {y : Nat → Xlat}

theorem ld_starts {t : MType} {a b : VReg} {c : LdOff} (h : Issues s k x (.ld t a b c))
    (hl : Translates s x .rd (mtypeSize t) (t == .b64) (offAddr b (mtypeSize t) c (IX.of s x)) y) :
    Starts s k x (.ld t a b c) :=
  (plainLoad_sent h _ t a none).starts ((exec_ld t a b c s).trans (memLanes_translates h hl _))

theorem st_starts {t : MType} {a b : VReg} {c : LdOff} (h : Issues s k x (.st t a b c))
    (hl : Translates s x .wr (mtypeSize t) false (offAddr b (mtypeSize t) c (IX.of s x)) y) :
    Starts s k x (.st t a b c) := by
  refine (access_sent h (laneXs (offAddr b (mtypeSize t) c (IX.of s x)) y (IX.of s x).lanes) (f := memFlight [] [] none) rfl
    (Parts.foldS (l1Lanes _) (fun s' z _ => ?_) _) .grp false .store none none _).starts
    ((exec_st t a b c s).trans (memLanes_translates h hl _))
  exact parts_accessPart s' _ _ (gctx_k h.ctx)

theorem ldbOp_sent {i : Instr} (h : Issues s k x i) (wait : Bool) (t : MType) (a : VReg) (n : Nat) (xs : List LaneX) :
    Sent s (sendOps (foldS (memIssue (filled s x xs) (IX.of s x) (loadFlight (IX.of s x) t a none)).1 (l1Lanes xs)
      fun s z => ldbPart s (IX.of s x) x.g.nextFlight wait t a n z) x x.g.nextFlight .grp false
      (loadOps (IX.of s x) x.g.nextFlight t none (homeLanes xs))) k x.g none x.g.nextFlight .grp false
      (loadOps (IX.of s x) x.g.nextFlight t none (homeLanes xs)) :=
  access_sent h xs (f := loadFlight (IX.of s x) t a none) rfl
    (Parts.foldS _ (fun s' z _ => gctx_k h.ctx ▸ parts_ldbPart s' (IX.of s x) _ wait t a n z) _) .grp false _ _ _ _

theorem ldbR_starts {t : MType} {a b : VReg} {n : BitVec 3} (h : Issues s k x (.ldbR t a b n))
    (hl : Translates s x .rd (mtypeSize t) false (fun l => x.g.vpair l b.toNat) y) : Starts s k x (.ldbR t a b n) :=
  (ldbOp_sent h false t a n.toNat _).starts ((exec_ldbR t a b n s).trans (memLanes_translates h hl _))

theorem ldbS_starts {t : MType} {a b : VReg} {n : BitVec 3} (h : Issues s k x (.ldbS t a b n))
    (hl : Translates s x .rd (mtypeSize t) false (fun l => x.g.vpair l b.toNat) y) : Starts s k x (.ldbS t a b n) :=
  (ldbOp_sent h true t a n.toNat _).starts ((exec_ldbS t a b n s).trans (memLanes_translates h hl _))

/-! ### LD.ACQ, ST.REL and the atomics -/

theorem ldAcq_narrow_starts {t : MType} {a b : VReg} {sc : MScope} (hs : sc.wide = false) (h : Issues s k x (.ldAcq t a b sc))
    (hl : Translates s x .rd (mtypeSize t) false (fun l => x.g.vpair l b.toNat) y) : Starts s k x (.ldAcq t a b sc) := by
  have he := (exec_ldAcq t a b sc s).trans (memLanes_translates h hl _)
  rw [hs] at he
  exact (plainLoad_sent h _ t a (some sc)).starts he

/-- The operations of LD.ACQ at .CLU or wider: those of the lanes on no window. -/
def ldAcqOps (s : State) (x : GCtx) (t : MType) (sc : MScope) (addr : Nat → W64) (y : Nat → Xlat) : List HomeOp :=
  loadOps (IX.of s x) x.g.nextFlight t (some sc) (laneXs addr y ((IX.of s x).lanes.filter fun l => (y l).prot != .w))

theorem ldAcq_wide_sent {t : MType} {a b : VReg} {sc : MScope} (hs : sc.wide = true) (h : Issues s k x (.ldAcq t a b sc))
    (hl : Translates s x .rd (mtypeSize t) false (fun l => x.g.vpair l b.toNat) y) :
    ∃ u, exec (.ldAcq t a b sc) s = .next u ∧
      Sent s u k x.g (some sc) x.g.nextFlight sc false (ldAcqOps s x t sc (fun l => x.g.vpair l b.toNat) y) := by
  have he := (exec_ldAcq t a b sc s).trans (memLanes_translates h hl _)
  rw [hs] at he
  refine ⟨_, he, ?_⟩
  rw [ldAcqOps, ← filter_laneXs _ _ _ (fun z => z.prot != .w)]
  exact access_sent h _ (f := loadFlight (IX.of s x) t a (some sc)) rfl (parts_l1Loads h _ _ t a _) sc false _ _ _ _

/-- The lanes of ST.REL that the L1 serves. -/
def relInL1 (sc : MScope) (z : Xlat) : Bool := if sc.wide then z.prot == .w else z.prot != .n

/-- What ST.REL leaves in the group's pending list. -/
def relPend (s' s : State) (x : GCtx) (t : MType) (a : VReg) (sc : MScope) (addr : Nat → W64) (y : Nat → Xlat) : PendRel :=
  ⟨x.g.nextFlight, sc, true,
    relStores s' (IX.of s x) t a (laneXs addr y ((IX.of s x).lanes.filter fun l => relInL1 sc (y l))),
    storeOps (IX.of s x) x.g.nextFlight t a (laneXs addr y ((IX.of s x).lanes.filter fun l => !relInL1 sc (y l))), []⟩

theorem stRel_begun {t : MType} {a b : VReg} {sc : MScope} (h : Issues s k x (.stRel t a b sc))
    (hl : Translates s x .wr (mtypeSize t) false (fun l => x.g.vpair l b.toNat) y) :
    ∃ u s' g', exec (.stRel t a b sc) s = .next u ∧
      Begun s u k x.g none [relPend s' s x t a sc (fun l => x.g.vpair l b.toNat) y] g' := by
  have he := (exec_stRel t a b sc s).trans (memLanes_translates h hl _)
  obtain ⟨g', hb⟩ := access_pends h (laneXs (fun l => x.g.vpair l b.toNat) y (IX.of s x).lanes) (f := memFlight [] [] none) rfl
    (relPend (memIssue (filled s x (laneXs (fun l => x.g.vpair l b.toNat) y (IX.of s x).lanes)) (IX.of s x)
      (memFlight [] [] none)).1 s x t a sc (fun l => x.g.vpair l b.toNat) y)
  refine ⟨_, _, g', he.trans ?_, hb⟩
  rw [relPend, ← filter_laneXs, ← filter_laneXs _ _ _ fun z => !relInL1 sc z]
  rfl

/-- The operations of an atomic. -/
def atomicOps (s : State) (x : GCtx) (act : HomeAct) (r : Ord) (sc : MScope) (size : Nat) (v cmp : Nat → Nat)
    (addr : Nat → W64) (y : Nat → Xlat) : List HomeOp :=
  mkOps x x.g.nextFlight act (homeAcq r sc) ((laneXs addr y (IX.of s x).lanes).map fun z =>
    (z.x, laneOpOf z size (BitVec.ofNat 128 (v z.lane)) (BitVec.ofNat 128 (cmp z.lane)))) (homeRel r sc)

theorem atomicOp_sent {i : Instr} (h : Issues s k x i) (act : HomeAct) (r : Ord) (sc : MScope) (a : VReg) (count size : Nat)
    (v cmp : Nat → Nat) (addr : Nat → W64) :
    ∃ u acq, atomicOp (filled s x (laneXs addr y (IX.of s x).lanes)) (IX.of s x) act r sc a count size v cmp
        (laneXs addr y (IX.of s x).lanes) = .next u ∧
      Sent s u k x.g acq x.g.nextFlight sc r.releases (atomicOps s x act r sc size v cmp addr y) :=
  ⟨_, _, rfl, access_sent h (laneXs addr y (IX.of s x).lanes)
    (f := memFlight ((IX.of s x).destKeys a count) (zeroWrites (IX.of s x) a.toNat count) (if r.acquires then some sc else none))
    rfl (.refl k _) sc r.releases _ _ _ _⟩

theorem atom_sent {o : AOp} {t : AType} {a b : VReg} {r : Ord} {sc : MScope} (h : Issues s k x (.atom o t a b r sc))
    (hl : Translates s x .wr (atypeSize t) false (fun l => x.g.vpair l b.toNat) y) :
    ∃ u acq, exec (.atom o t a b r sc) s = .next u ∧ Sent s u k x.g acq x.g.nextFlight sc r.releases
      (atomicOps s x (.atom o t) r sc (atypeSize t) (fun l => x.g.laneData l a.toNat t.regs) (fun _ => 0)
        (fun l => x.g.vpair l b.toNat) y) := by
  obtain ⟨u, acq, he, hs⟩ := atomicOp_sent (y := y) h (.atom o t) r sc a t.regs (atypeSize t)
    (fun l => x.g.laneData l a.toNat t.regs) (fun _ => 0) (fun l => x.g.vpair l b.toNat)
  exact ⟨u, acq, (exec_atom o t a b r sc s).trans ((memLanes_translates h hl _).trans he), hs⟩

theorem casOp_sent {i : Instr} {r : Ord} {sc : MScope} {a b c : VReg} {count : Nat} (h : Issues s k x i)
    (hl : Translates s x .wr (4 * count) false (fun l => x.g.vpair l b.toNat) y) :
    ∃ u acq, casOp s i r sc a b c count = .next u ∧ Sent s u k x.g acq x.g.nextFlight sc r.releases
      (atomicOps s x .cas r sc (4 * count) (fun l => x.g.laneData l c.toNat count) (fun l => x.g.laneData l a.toNat count)
        (fun l => x.g.vpair l b.toNat) y) := by
  obtain ⟨u, acq, he, hs⟩ := atomicOp_sent (y := y) h .cas r sc a count (4 * count)
    (fun l => x.g.laneData l c.toNat count) (fun l => x.g.laneData l a.toNat count) (fun l => x.g.vpair l b.toNat)
  exact ⟨u, acq, (memLanes_translates h hl _).trans he, hs⟩

/-! ### FENCE, CINV, CFLUSH -/

theorem fence_starts {r : Ord} {sc : MScope} (hr : r ≠ .plain) (h : Issues s k x (.fence r sc)) :
    Starts s k x (.fence r sc) := by
  obtain ⟨g', hb⟩ := access_pends h [] (f := memFlight [] [] (if r.acquires then some sc else none)) rfl
    ⟨x.g.nextFlight, sc, r.releases, [], [], []⟩
  refine ⟨_, _, _, g', ?_, hb⟩
  rw [exec_fence, execFence, withGroup_issues h, if_neg hr]
  rfl

theorem maintOp_starts {i : Instr} (h : Issues s k x i) {b : VReg} {sc : MScope} {inv : Bool}
    (he : exec i s = maintOp s i b sc inv) : Starts s k x i := by
  obtain ⟨g', hb⟩ := access_pends h [] (f := memFlight [] [] none) rfl ⟨x.g.nextFlight, sc, false, [], [],
    (if sc.wide then maintGrains s (IX.of s x) b else []).map fun g => .maint g.1 g.2 inv⟩
  refine ⟨_, _, _, g', ?_, hb⟩
  rw [he, maintOp, withGroup_issues h]
  rfl

end Forms

/-! ### The first statement -/

theorem lanes_start {s : State} {k : Nat} {x : GCtx} {i : Instr} (h : Issues s k x i) (hok : LanesOk s x i) :
    Starts s k x i := by
  obtain ⟨a, size, ld64, addr, hacc, hlanes⟩ := hok
  obtain ⟨y, hl⟩ := translates_of_ok hlanes
  unfold laneAccess at hacc
  split at hacc
  case h_10 => cases hacc
  all_goals
    simp only [Option.some.injEq, Prod.mk.injEq] at hacc
    obtain ⟨rfl, rfl, rfl, rfl⟩ := hacc
  · exact ld_starts h (by rw [offAddr_eq]; exact hl)
  · exact st_starts h (by rw [offAddr_eq]; exact hl)
  · next t a b sc =>
    cases hs : sc.wide with
    | false => exact ldAcq_narrow_starts hs h hl
    | true =>
      obtain ⟨u, he, hsent⟩ := ldAcq_wide_sent hs h hl
      exact hsent.starts he
  · exact ldbR_starts h hl
  · exact ldbS_starts h hl
  · obtain ⟨u, s', g', he, hb⟩ := stRel_begun h hl
    exact ⟨u, _, _, g', he, hb⟩
  · next o t a b r sc =>
    obtain ⟨u, acq, he, hsent⟩ := atom_sent (o := o) (t := t) h (y := y) (by rw [atypeSize_eq']; exact hl)
    exact hsent.starts he
  · obtain ⟨u, acq, he, hsent⟩ := casOp_sent (count := 1) h hl
    exact hsent.starts ((exec_cas ..).trans he)
  · obtain ⟨u, acq, he, hsent⟩ := casOp_sent (count := 2) h hl
    exact hsent.starts ((exec_casW64 ..).trans he)

theorem unchecked_starts {s : State} {k : Nat} {x : GCtx} {i : Instr} (h : Issues s k x i) (hu : unchecked i = true) :
    Starts s k x i := by
  unfold unchecked at hu
  split at hu
  · exact fence_starts (by simpa using hu) h
  · exact maintOp_starts h (exec_cinv ..)
  · exact maintOp_starts h (exec_cflush ..)
  · cases hu

/-! ### The third statement -/

/-- What the homes are sent, or the group's pending list holds. -/
theorem Sent.rels {s u : State} {k : Nat} {x : GCtx} {acq : Option MScope} {sc : MScope} {rel : Bool} {ops : List HomeOp}
    (h : Sent s u k x.g acq x.g.nextFlight sc rel ops) : ∃ g', MemIssued s u k x.g g' ∧
      (rel = true → g'.rels = x.g.rels ++ [⟨x.g.nextFlight, sc, true, [], ops, []⟩]) ∧
      (rel = false → g'.rels = x.g.rels ++ [⟨x.g.nextFlight, sc, false, [], ops, []⟩] ∨
        g'.rels = x.g.rels ∧ (ops.map Instr.homeExecutedOperation).Sublist u.agenda ∧
          ((∀ o ∈ ops, isRemote o.grain = false) → ops.map Instr.homeExecutedOperation <:+ u.agenda)) := by
  rcases h with ⟨g', hb⟩ | ⟨hr, ⟨g', hb⟩, hsub, hsuf⟩
  · refine ⟨g', hb.issued, fun hr => ?_, fun hr => .inl ?_⟩
    all_goals
      subst hr
      exact hb.rels
  · subst hr
    exact ⟨g', hb.issued, fun ht => (nomatch ht), fun _ => .inr ⟨hb.rels.trans (List.append_nil _), hsub, hsuf⟩⟩

/-- The conclusion of the third statement. -/
def SendsToHomes (s : State) (k : Nat) (x : GCtx) (i : Instr) (act : HomeAct) (acq : Option MScope) (rel : Bool) (sc : MScope)
    (data cmp : Option VReg) (size : Nat) (addr : Nat → W64) (y : Nat → Xlat) : Prop :=
  let lanes := (IX.of s x).lanes
  ∃ t g' ops, exec i s = .next t ∧ MemIssued s t k x.g g' ∧
    OpsFor x ops (lanes.filter fun l => !throughL1 (y l) i) addr y size data cmp ∧
    (∀ o ∈ ops, o.act = act ∧ o.acq = acq) ∧
    (rel = true → ∃ stores, g'.rels = x.g.rels ++ [⟨x.g.nextFlight, sc, true, stores, ops, []⟩] ∧
      ∀ l ∈ lanes, throughL1 (y l) i = true → ∀ d, data = some d → ∃ r ∈ stores, r.lane = l ∧ r.va = (addr l).toNat ∧
        r.pa = (y l).pa ∧ r.bytes = (List.range size).map (dataByte x.g d l)) ∧
    (rel = false → g'.rels = x.g.rels ++ [⟨x.g.nextFlight, sc, false, [], ops, []⟩] ∨
      g'.rels = x.g.rels ∧ (ops.map Instr.homeExecutedOperation).Sublist t.agenda ∧
        ((∀ o ∈ ops, isRemote o.grain = false) → ops.map Instr.homeExecutedOperation <:+ t.agenda))

/-- A form whose lanes, where it releases, all go to the homes. -/
theorem sendsToHomes_of_sent {s u : State} {k : Nat} {x : GCtx} {i : Instr} {act : HomeAct} {acq acq' hrel : Option MScope}
    {rel : Bool} {sc : MScope} {data cmp : Option VReg} {size : Nat} {addr : Nat → W64} {y : Nat → Xlat}
    {ls : List (Xlat × LaneOp)} (he : exec i s = .next u)
    (h : Sent s u k x.g acq' x.g.nextFlight sc rel (mkOps x x.g.nextFlight act acq ls hrel))
    (ho : OpsFor x (mkOps x x.g.nextFlight act acq ls hrel) ((IX.of s x).lanes.filter fun l => !throughL1 (y l) i) addr y size
      data cmp) (hthru : rel = true → ∀ l, throughL1 (y l) i = false) :
    SendsToHomes s k x i act acq rel sc data cmp size addr y := by
  obtain ⟨g', hi, hrelT, hrelF⟩ := h.rels
  refine ⟨u, g', _, he, hi, ho, fun o hm => ?_, fun hr => ⟨[], hrelT hr, fun l _ ht => ?_⟩, hrelF⟩
  · obtain ⟨-, -, -, hact, hacq, -⟩ := mkOps_mem hm
    exact ⟨hact, hacq⟩
  · rw [hthru hr l] at ht
    cases ht

section ThirdForms

variable {s : State} {k : Nat} {x : GCtx} {y : Nat → Xlat}

/-- The lanes of an atomic all go to the homes. -/
theorem atomic_sends {u : State} {i : Instr} {act : HomeAct} {acq' : Option MScope} {r : Ord} {sc : MScope}
    {data cmp : Option VReg} {size : Nat} {addr : Nat → W64} {v c : Nat → Nat} (hi : ∀ z, throughL1 z i = false)
    (he : exec i s = .next u)
    (h : Sent s u k x.g acq' x.g.nextFlight sc r.releases (atomicOps s x act r sc size v c addr y))
    (hv : ∀ d, data = some d → ∀ l, ∀ n < size, (BitVec.ofNat 128 (v l)).extractLsb' (8 * n) 8 = dataByte x.g d l n)
    (hc : ∀ d, cmp = some d → ∀ l, ∀ n < size, (BitVec.ofNat 128 (c l)).extractLsb' (8 * n) 8 = dataByte x.g d l n) :
    SendsToHomes s k x i act (homeAcq r sc) r.releases sc data cmp size addr y := by
  refine sendsToHomes_of_sent he h ?_ fun _ l => hi _
  have hall : ((IX.of s x).lanes.filter fun l => !throughL1 (y l) i) = (IX.of s x).lanes :=
    List.filter_eq_self.mpr fun l _ => by rw [hi]; rfl
  rw [hall]
  exact opsFor_mkOps x act _ _ _ addr y size (fun l => BitVec.ofNat 128 (v l)) (fun l => BitVec.ofNat 128 (c l)) data cmp hv hc

theorem atom_sends {o : AOp} {t : AType} {a b : VReg} {r : Ord} {sc : MScope} (h : Issues s k x (.atom o t a b r sc))
    (hl : Translates s x .wr (atypeSize t) false (fun l => x.g.vpair l b.toNat) y) :
    SendsToHomes s k x (.atom o t a b r sc) (.atom o t) (homeAcq r sc) r.releases sc (some a) none (atypeSize t)
      (fun l => x.g.vpair l b.toNat) y := by
  obtain ⟨u, acq, he, hs⟩ := atom_sent h hl
  refine atomic_sends (fun _ => rfl) he hs (fun d hd l n hn => ?_) (fun d hd => nomatch hd)
  obtain rfl := Option.some.inj hd
  exact extractLsb'_laneData _ _ _ _ _ (atypeRegs_le t) (atypeSize_eq t ▸ hn)

theorem casOp_sends {i : Instr} {r : Ord} {sc : MScope} {a b c : VReg} {count : Nat} (hcount : count ≤ 4)
    (hi : ∀ z, throughL1 z i = false) (he : exec i s = casOp s i r sc a b c count) (h : Issues s k x i)
    (hl : Translates s x .wr (4 * count) false (fun l => x.g.vpair l b.toNat) y) :
    SendsToHomes s k x i .cas (homeAcq r sc) r.releases sc (some c) (some a) (4 * count) (fun l => x.g.vpair l b.toNat) y := by
  obtain ⟨u, acq, hu, hs⟩ := casOp_sent h hl
  refine atomic_sends hi (he.trans hu) hs (fun d hd l n hn => ?_) (fun d hd l n hn => ?_)
  all_goals
    obtain rfl := Option.some.inj hd
    exact extractLsb'_laneData _ _ _ _ _ hcount hn

theorem ldAcq_sends {t : MType} {a b : VReg} {sc : MScope} (hw : sc.wide = true) (h : Issues s k x (.ldAcq t a b sc))
    (hl : Translates s x .rd (mtypeSize t) false (fun l => x.g.vpair l b.toNat) y) :
    SendsToHomes s k x (.ldAcq t a b sc) (.load t) (some sc) false sc none none (mtypeSize t) (fun l => x.g.vpair l b.toNat) y := by
  obtain ⟨u, he, hs⟩ := ldAcq_wide_sent hw h hl
  exact sendsToHomes_of_sent he hs
    (opsFor_mkOps x _ _ _ _ _ y _ (fun _ => 0) (fun _ => 0) none none (fun d hd => nomatch hd) (fun d hd => nomatch hd))
    (fun hr => nomatch hr)

theorem stRel_sends {t : MType} {a b : VReg} {sc : MScope} (h : Issues s k x (.stRel t a b sc))
    (hl : Translates s x .wr (mtypeSize t) false (fun l => x.g.vpair l b.toNat) y) :
    SendsToHomes s k x (.stRel t a b sc) .store none true sc (some a) none (mtypeSize t) (fun l => x.g.vpair l b.toNat) y := by
  obtain ⟨u, s', g', he, hb⟩ := stRel_begun h hl
  have hv : ∀ d, some a = some d → ∀ l, ∀ n < mtypeSize t,
      (BitVec.ofNat 128 (x.g.laneData l a.toNat t.regs)).extractLsb' (8 * n) 8 = dataByte x.g d l n := by
    intro d hd l n hn
    obtain rfl := Option.some.inj hd
    exact extractLsb'_laneData _ _ _ _ _ (mtypeRegs_le t) (Nat.lt_of_lt_of_le hn (mtypeSize_le t))
  refine ⟨u, g', _, he, hb.issued, ?_, fun o hm => ?_, fun _ => ⟨_, hb.rels, fun l hm ht d hd => ?_⟩, fun hr => nomatch hr⟩
  · exact opsFor_mkOps x .store none none _ _ y _ (fun l => BitVec.ofNat 128 (x.g.laneData l a.toNat t.regs)) (fun _ => 0)
      (some a) none hv (fun d hd => nomatch hd)
  · obtain ⟨-, -, -, hact, hacq, -⟩ := mkOps_mem hm
    exact ⟨hact, hacq⟩
  · obtain rfl := Option.some.inj hd
    have hz : (⟨l, x.g.vpair l b.toNat, y l⟩ : LaneX) ∈
        laneXs (fun l => x.g.vpair l b.toNat) y ((IX.of s x).lanes.filter fun l => relInL1 sc (y l)) :=
      List.mem_map.mpr ⟨l, List.mem_filter.mpr ⟨hm, ht⟩, rfl⟩
    exact ⟨_, List.mem_map.mpr ⟨_, hz, rfl⟩, rfl, rfl, rfl, storeBytes_eq _ t a l⟩

end ThirdForms

theorem homes_sent {s : State} {k : Nat} {x : GCtx} {i : Instr} {act : HomeAct} {acq : Option MScope} {rel : Bool}
    {sc : MScope} {data cmp : Option VReg} {a : Acc} {size : Nat} {ld64 : Bool} {addr : Nat → W64} {y : Nat → Xlat}
    (hrule : homeRule i = some (act, acq, rel, sc, data, cmp)) (hacc : laneAccess x i = some (a, size, ld64, addr))
    (h : Issues s k x i) (hl : Translates s x a size ld64 addr y) :
    SendsToHomes s k x i act acq rel sc data cmp size addr y := by
  unfold homeRule at hrule
  split at hrule
  case h_6 => cases hrule
  all_goals
    simp only [laneAccess, Option.some.injEq, Prod.mk.injEq] at hacc
    obtain ⟨rfl, rfl, rfl, rfl⟩ := hacc
  case h_4 t a' b sc' =>
    split at hrule
    · next hw =>
      simp only [Option.some.injEq, Prod.mk.injEq] at hrule
      obtain ⟨rfl, rfl, rfl, rfl, rfl, rfl⟩ := hrule
      exact ldAcq_sends hw h hl
    · cases hrule
  all_goals
    simp only [Option.some.injEq, Prod.mk.injEq] at hrule
    obtain ⟨rfl, rfl, rfl, rfl, rfl, rfl⟩ := hrule
  · rw [← atypeSize_eq'] at hl ⊢
    exact atom_sends h hl
  · exact casOp_sends (count := 1) (by decide) (fun _ => rfl) (exec_cas ..) h hl
  · exact casOp_sends (count := 2) (by decide) (fun _ => rfl) (exec_casW64 ..) h hl
  · exact stRel_sends h hl

/-- Settles O30: the start of every form, PREF as an issue without results, and what the homes are sent. -/
theorem memoryIssues : Obligations.MemoryIssues := by
  unfold Obligations.MemoryIssues
  refine ⟨fun s k x i h hor => ?_, fun s k x b l2 h => ?_, ?_⟩
  · exact (hor.elim (lanes_start h) (unchecked_starts h)).newest
  · obtain ⟨g', hi, hg, hr⟩ := commit_none s (IX.of s x) (.pref b l2) 0 s.nextPc
    rw [ixOf_x, gctx_k h.ctx] at hi
    exact ⟨_, g', (exec_pref b l2 s).trans (withGroup_issues h _), hi, hg, hr⟩
  · intro s k x i act acq rel sc data cmp a size ld64 addr y hrule hacc _ h hl
    exact homes_sent hrule hacc h hl

end Sys2Proof.Proofs
end

section
/-! ## O54: runs
`Tab.modify` writes every pair of its key, and the park of `.sequencerPark` is decided for each of them by its own
stop request; the statement decides it once, by the pair that is read. A state whose team table lists a key twice tells the
two apart. -/

namespace Sys2Proof.Proofs

open Sys2Proof Sys2Proof.Machine

/-- A team in FETCH with the stop request `r` and nothing else under way. -/
def fetchingTeam (r : StopReq) : Team :=
  { core := 0, slot := 0, grid := 0, member := 0, x := 0, y := 0, z := 0, stage := 0, vcore := 0
    seq := { Seq.start .fetch 0x10004 [] with stopReq := r }
    race := [], groups := [], activeG := [], ham := [], bellto := 0, sp := [], spBase := 0, spSize := 0, rfBase := 0
    rfSize := 0, acc := [], accBase := 0, barRec := [] }

/-- The key 0 is listed twice: asked to stop where it is read, not asked in the second pair. -/
def twiceListed : State := { State.reset with teams := [(0, fetchingTeam .preempt), (0, fetchingTeam .none)] }

theorem exec_sequencerPark (u : UnitId) (s : State) : exec (.sequencerPark u) s = execSequencerPark u s := rfl

theorem twiceListed_seq? : twiceListed.seq? (.team 0) = some (fetchingTeam .preempt).seq := rfl

/-- The pair that is not asked to stop fetches on. -/
theorem twiceListed_parks : exec (.sequencerPark (.team 0)) twiceListed = .next (twiceListed.updSeq (.team 0) Seq.park) := by
  rw [exec_sequencerPark, execSequencerPark, twiceListed_seq?]

theorem twiceListed_parked_states :
    (twiceListed.updSeq (.team 0) Seq.park).teams.map (fun p => p.2.seq.st) = [.park, .fetch] := by decide

/-- Refutes O54. Its clause on parking says that `exec (.sequencerPark u)` sets the state of the sequencer `u` to PARK in
every pair of the table under its key. Nothing in the statement keeps a table from listing a key twice, and in `twiceListed`
the second pair, not asked to stop, does not park. (A table with rising keys lists a key once, and the two agree.) -/
theorem not_runEvents : ¬ Obligations.RunEvents := by
  unfold Obligations.RunEvents
  intro h
  obtain ⟨-, -, -, -, -, -, -, -, -, -, hpark, -⟩ := h twiceListed
  have hp := (hpark (.team 0) _ twiceListed_seq? (by decide) (by decide)).1 (fun g hg => nomatch hg)
  rw [twiceListed_parks] at hp
  have hs := congrArg (fun t : State => t.teams.map fun p => p.2.seq.st) (Host.Outcome.next.inj hp)
  exact absurd (twiceListed_parked_states.symm.trans hs) (by decide)

end Sys2Proof.Proofs
end

section
/-! ## O41: decoding the word of an instruction
The family `Laws.EncodeDecode` has a lemma for each encoded instruction; an event has no word and is never well formed. -/

namespace Sys2Proof.Proofs

open Sys2Proof Sys2Proof.Machine

/-- Settles O41, by the lemma of each constructor. -/
theorem encodedWordsDecode : Obligations.EncodedWordsDecode := by
  unfold Obligations.EncodedWordsDecode
  intro i
  change Laws.EncodeDecode.Statement i
  cases i with
  -- Control (R84)
  | nop sc => exact Laws.EncodeDecode.nop sc
  | brZ sc a d => exact Laws.EncodeDecode.brZ sc a d
  | brNz sc a d => exact Laws.EncodeDecode.brNz sc a d
  | brm sc all not m d => exact Laws.EncodeDecode.brm sc all not m d
  | jmp sc d => exact Laws.EncodeDecode.jmp sc d
  | jmpr sc b => exact Laws.EncodeDecode.jmpr sc b
  | call sc d => exact Laws.EncodeDecode.call sc d
  | callr sc b => exact Laws.EncodeDecode.callr sc b
  | ret sc => exact Laws.EncodeDecode.ret sc
  | loop sc a d => exact Laws.EncodeDecode.loop sc a d
  | next sc => exact Laws.EncodeDecode.next sc
  | brk sc d => exact Laws.EncodeDecode.brk sc d
  | skip m d => exact Laws.EncodeDecode.skip m d
  | exit => exact Laws.EncodeDecode.exit
  | end_ sc => exact Laws.EncodeDecode.end_ sc
  | revote sc => exact Laws.EncodeDecode.revote sc
  | fret sc => exact Laws.EncodeDecode.fret sc
  | win i => exact Laws.EncodeDecode.win i
  | yield sc => exact Laws.EncodeDecode.yield sc
  | trap sc c => exact Laws.EncodeDecode.trap sc c
  -- Scalar integer (R85, R137, R139)
  | sadd a b c => exact Laws.EncodeDecode.sadd a b c
  | ssub a b c => exact Laws.EncodeDecode.ssub a b c
  | smul a b c => exact Laws.EncodeDecode.smul a b c
  | smulhI64 a b c => exact Laws.EncodeDecode.smulhI64 a b c
  | smulhN64 a b c => exact Laws.EncodeDecode.smulhN64 a b c
  | sand a b c => exact Laws.EncodeDecode.sand a b c
  | sor a b c => exact Laws.EncodeDecode.sor a b c
  | sxor a b c => exact Laws.EncodeDecode.sxor a b c
  | sshl a b c => exact Laws.EncodeDecode.sshl a b c
  | sshr a b c => exact Laws.EncodeDecode.sshr a b c
  | ssar a b c => exact Laws.EncodeDecode.ssar a b c
  | sminI64 a b c => exact Laws.EncodeDecode.sminI64 a b c
  | sminN64 a b c => exact Laws.EncodeDecode.sminN64 a b c
  | smaxI64 a b c => exact Laws.EncodeDecode.smaxI64 a b c
  | smaxN64 a b c => exact Laws.EncodeDecode.smaxN64 a b c
  | scmpI64 k a b c => exact Laws.EncodeDecode.scmpI64 k a b c
  | scmpN64 k a b c => exact Laws.EncodeDecode.scmpN64 k a b c
  | ssel a b c => exact Laws.EncodeDecode.ssel a b c
  | smov a b => exact Laws.EncodeDecode.smov a b
  | smovi a i => exact Laws.EncodeDecode.smovi a i
  | slui a i => exact Laws.EncodeDecode.slui a i
  | saddi a b i => exact Laws.EncodeDecode.saddi a b i
  -- Vector integer (R86, R142)
  | iadd w a b c => exact Laws.EncodeDecode.iadd w a b c
  | isub w a b c => exact Laws.EncodeDecode.isub w a b c
  | iaddsI w a b c => exact Laws.EncodeDecode.iaddsI w a b c
  | iaddsN w a b c => exact Laws.EncodeDecode.iaddsN w a b c
  | isubsI w a b c => exact Laws.EncodeDecode.isubsI w a b c
  | isubsN w a b c => exact Laws.EncodeDecode.isubsN w a b c
  | imul w a b c => exact Laws.EncodeDecode.imul w a b c
  | imulhI w a b c => exact Laws.EncodeDecode.imulhI w a b c
  | imulhN w a b c => exact Laws.EncodeDecode.imulhN w a b c
  | imad w a b c => exact Laws.EncodeDecode.imad w a b c
  | iminI w a b c => exact Laws.EncodeDecode.iminI w a b c
  | iminN w a b c => exact Laws.EncodeDecode.iminN w a b c
  | imaxI w a b c => exact Laws.EncodeDecode.imaxI w a b c
  | imaxN w a b c => exact Laws.EncodeDecode.imaxN w a b c
  | iabs w a b => exact Laws.EncodeDecode.iabs w a b
  | and w a b c => exact Laws.EncodeDecode.and w a b c
  | or w a b c => exact Laws.EncodeDecode.or w a b c
  | xor w a b c => exact Laws.EncodeDecode.xor w a b c
  | shl w a b c => exact Laws.EncodeDecode.shl w a b c
  | shr w a b c => exact Laws.EncodeDecode.shr w a b c
  | sar w a b c => exact Laws.EncodeDecode.sar w a b c
  | bfxI w a b c => exact Laws.EncodeDecode.bfxI w a b c
  | bfxN w a b c => exact Laws.EncodeDecode.bfxN w a b c
  | bfi w a b c => exact Laws.EncodeDecode.bfi w a b c
  | popc w a b => exact Laws.EncodeDecode.popc w a b
  | clz w a b => exact Laws.EncodeDecode.clz w a b
  | sel w a b c => exact Laws.EncodeDecode.sel w a b c
  | mov w a b => exact Laws.EncodeDecode.mov w a b
  | movVs w a c => exact Laws.EncodeDecode.movVs w a c
  | movi a i => exact Laws.EncodeDecode.movi a i
  -- Mask and compare (R87)
  | icmp k n w a b c => exact Laws.EncodeDecode.icmp k n w a b c
  | fcmp k a b c => exact Laws.EncodeDecode.fcmp k a b c
  | ftst a b c => exact Laws.EncodeDecode.ftst a b c
  | mand a b c => exact Laws.EncodeDecode.mand a b c
  | mor a b c => exact Laws.EncodeDecode.mor a b c
  | mxor a b c => exact Laws.EncodeDecode.mxor a b c
  | mandn a b c => exact Laws.EncodeDecode.mandn a b c
  | mnot a b => exact Laws.EncodeDecode.mnot a b
  | mmov a b => exact Laws.EncodeDecode.mmov a b
  | mset a b => exact Laws.EncodeDecode.mset a b
  | mget a b => exact Laws.EncodeDecode.mget a b
  | mpop a b => exact Laws.EncodeDecode.mpop a b
  | mfirst a b => exact Laws.EncodeDecode.mfirst a b
  -- Floating point (R88)
  | fadd a b c => exact Laws.EncodeDecode.fadd a b c
  | fsub a b c => exact Laws.EncodeDecode.fsub a b c
  | fmul a b c => exact Laws.EncodeDecode.fmul a b c
  | ffma a b c => exact Laws.EncodeDecode.ffma a b c
  | fmin a b c => exact Laws.EncodeDecode.fmin a b c
  | fmax a b c => exact Laws.EncodeDecode.fmax a b c
  | frnd a b => exact Laws.EncodeDecode.frnd a b
  | fclass a b => exact Laws.EncodeDecode.fclass a b
  | hadd2 f a b c => exact Laws.EncodeDecode.hadd2 f a b c
  | hmul2 f a b c => exact Laws.EncodeDecode.hmul2 f a b c
  | hfma2 f a b c => exact Laws.EncodeDecode.hfma2 f a b c
  | hmax2 f a b c => exact Laws.EncodeDecode.hmax2 f a b c
  -- Conversion, special functions, cross-lane (R89)
  | cvt dst src a b => exact Laws.EncodeDecode.cvt dst src a b
  | pack k a b => exact Laws.EncodeDecode.pack k a b
  | unpk k a b => exact Laws.EncodeDecode.unpk k a b
  | exp2 a b => exact Laws.EncodeDecode.exp2 a b
  | log2 a b => exact Laws.EncodeDecode.log2 a b
  | rcp a b => exact Laws.EncodeDecode.rcp a b
  | rsq a b => exact Laws.EncodeDecode.rsq a b
  | sqrt a b => exact Laws.EncodeDecode.sqrt a b
  | sint a b => exact Laws.EncodeDecode.sint a b
  | cost a b => exact Laws.EncodeDecode.cost a b
  | tanh a b => exact Laws.EncodeDecode.tanh a b
  | shfl m a b c => exact Laws.EncodeDecode.shfl m a b c
  | bcast a b l => exact Laws.EncodeDecode.bcast a b l
  | red r a b => exact Laws.EncodeDecode.red r a b
  | scan r a b => exact Laws.EncodeDecode.scan r a b
  | voteAny a b => exact Laws.EncodeDecode.voteAny a b
  | voteAll a b => exact Laws.EncodeDecode.voteAll a b
  | voteEq a b => exact Laws.EncodeDecode.voteEq a b
  | ballot a b => exact Laws.EncodeDecode.ballot a b
  | sample a b c => exact Laws.EncodeDecode.sample a b c
  -- Memory (R90)
  | ld t a b c => exact Laws.EncodeDecode.ld t a b c
  | ldAcq t a b s => exact Laws.EncodeDecode.ldAcq t a b s
  | st t a b c => exact Laws.EncodeDecode.st t a b c
  | stRel t a b s => exact Laws.EncodeDecode.stRel t a b s
  | atom o t a b r s => exact Laws.EncodeDecode.atom o t a b r s
  | cas r s a b c => exact Laws.EncodeDecode.cas r s a b c
  | casW64 r s a b c => exact Laws.EncodeDecode.casW64 r s a b c
  | ldbR t a b n => exact Laws.EncodeDecode.ldbR t a b n
  | ldbS t a b n => exact Laws.EncodeDecode.ldbS t a b n
  | lds t a b c => exact Laws.EncodeDecode.lds t a b c
  | sts t a b c => exact Laws.EncodeDecode.sts t a b c
  | fence r s => exact Laws.EncodeDecode.fence r s
  | pref b l2 => exact Laws.EncodeDecode.pref b l2
  | cinv b s => exact Laws.EncodeDecode.cinv b s
  | cflush b s => exact Laws.EncodeDecode.cflush b s
  | ldp t a b w => exact Laws.EncodeDecode.ldp t a b w
  | stp t a b w => exact Laws.EncodeDecode.stp t a b w
  | atompI32 o a b w => exact Laws.EncodeDecode.atompI32 o a b w
  | atompN32 o a b w => exact Laws.EncodeDecode.atompN32 o a b w
  | ldpr t a b w => exact Laws.EncodeDecode.ldpr t a b w
  | stpr t a b w => exact Laws.EncodeDecode.stpr t a b w
  -- Matrix, copies, barriers, feeds, delivery, bells, system (R91)
  | mmldb a b m n => exact Laws.EncodeDecode.mmldb a b m n
  | mmloop a b m => exact Laws.EncodeDecode.mmloop a b m
  | mmzero u n => exact Laws.EncodeDecode.mmzero u n
  | amov a b => exact Laws.EncodeDecode.amov a b
  | anrw a b c => exact Laws.EncodeDecode.anrw a b c
  | qtile a b m => exact Laws.EncodeDecode.qtile a b m
  | rqt a b row => exact Laws.EncodeDecode.rqt a b row
  | tcopy a b => exact Laws.EncodeDecode.tcopy a b
  | tcopyMAll a b h => exact Laws.EncodeDecode.tcopyMAll a b h
  | tcopyMJoin a b h => exact Laws.EncodeDecode.tcopyMJoin a b h
  | binit b c => exact Laws.EncodeDecode.binit b c
  | barv a b n => exact Laws.EncodeDecode.barv a b n
  | bexp b c => exact Laws.EncodeDecode.bexp b c
  | bwait b c => exact Laws.EncodeDecode.bwait b c
  | btest a b c => exact Laws.EncodeDecode.btest a b c
  | feedget a f => exact Laws.EncodeDecode.feedget a f
  | feedput f c => exact Laws.EncodeDecode.feedput f c
  | feedpop a f => exact Laws.EncodeDecode.feedpop a f
  | feedrel f c => exact Laws.EncodeDecode.feedrel f c
  | dlv t a b h => exact Laws.EncodeDecode.dlv t a b h
  | hamset a b c => exact Laws.EncodeDecode.hamset a b c
  | hamand a b c => exact Laws.EncodeDecode.hamand a b c
  | ring a b n => exact Laws.EncodeDecode.ring a b n
  | bellr a n => exact Laws.EncodeDecode.bellr a n
  | bellw b n => exact Laws.EncodeDecode.bellw b n
  | rdsrV pair a s => exact Laws.EncodeDecode.rdsrV pair a s
  | rdsrS a s => exact Laws.EncodeDecode.rdsrS a s
  | wrsrV b s => exact Laws.EncodeDecode.wrsrV b s
  | wrsrS b s => exact Laws.EncodeDecode.wrsrS b s
  | launchT b => exact Laws.EncodeDecode.launchT b
  | launchD b => exact Laws.EncodeDecode.launchD b
  | mapf a b => exact Laws.EncodeDecode.mapf a b
  | tlbiPage b => exact Laws.EncodeDecode.tlbiPage b
  | tlbiCtx => exact Laws.EncodeDecode.tlbiCtx
  | _ => exact fun h => nomatch h

end Sys2Proof.Proofs
end

section
/-! ## O46: the checks before an issue
Every encoded instruction passes the checks of R93 before its effect, and what the checks find is the first fault of the
statement's table. -/

namespace Sys2Proof.Proofs

open Sys2Proof Sys2Proof.Machine Sys2Proof.Laws

/-! ### Every instruction passes the checks of R93 first -/

/-- The outcome of an instruction is that of the checks of R93, then an effect of its own: in a group alone, or at any
sequencer. -/
inductive Guarded (s : State) (i : Instr) : Out → Prop
  | group (body : IX → Out) : Guarded s i (withGroup s i body)
  | unit (g : IX → Out) (q : UnitId → Out) : Guarded s i (withUnit s i g q)

/-- The checks find a fault in a group. -/
theorem withGroup_fault {s : State} {k : Nat} {x : GCtx} {i : Instr} {t : Trap} (hu : s.iss.unit = .group k)
    (hx : s.gctx k = some x) (ht : issueTrap s x i = some t) (body : IX → Out) :
    withGroup s i body = .next (takeFault s (.group k) t) := by
  unfold withGroup
  rw [hu]
  simp only [hx, ht]

theorem Guarded.groupFault {s : State} {k : Nat} {x : GCtx} {i : Instr} {t : Trap} {o : Out} (h : Guarded s i o)
    (hu : s.iss.unit = .group k) (hx : s.gctx k = some x) (ht : issueTrap s x i = some t) :
    o = .next (takeFault s (.group k) t) := by
  cases h with
  | group body => exact withGroup_fault hu hx ht body
  | unit g q =>
    unfold withUnit
    rw [hu]
    exact withGroup_fault hu hx ht g

theorem Guarded.seqFault {s : State} {u : UnitId} {q : Seq} {i : Instr} {t : Trap} {o : Out} (h : Guarded s i o)
    (hu : s.iss.unit = u) (hq : s.seq? u = some q) (ht : seqTrap s u i = some t) : o = .next (takeFault s u t) := by
  cases h with
  | group body =>
    unfold withGroup
    rw [hu]
    cases u with
    | group k => cases hq
    | _ => simp only [ht]
  | unit g r =>
    unfold withUnit
    rw [hu]
    cases u with
    | group k => cases hq
    | _ => simp only [hq, ht]

/-! Each operation that meanings share passes them, by the one that it is made of. -/

section Shared

variable (s : State) (i : Instr)

theorem guarded_groupOp (body : IX → Except Trap Eff) : Guarded s i (groupOp s i body) :=
  .group _

theorem guarded_plainOp (f : IX → List RegW) : Guarded s i (plainOp s i f) :=
  guarded_groupOp ..

theorem guarded_laneOp (dst : VReg) (count : Nat) (f : IX → Nat → LaneRes) : Guarded s i (laneOp s i dst count f) :=
  guarded_groupOp ..

theorem guarded_vecOp (w : Width) (a b : VReg) (c : VSrc) (f : Nat → Nat → Nat → Nat) :
    Guarded s i (vecOp s i w a b c f) :=
  guarded_laneOp ..

theorem guarded_vecOp1 (w : Width) (a b : VReg) (f : Nat → Nat → Nat) : Guarded s i (vecOp1 s i w a b f) :=
  guarded_laneOp ..

theorem guarded_bfxOp (w : Width) (a b c : VReg) (sgn : Bool) : Guarded s i (bfxOp s i w a b c sgn) :=
  guarded_laneOp ..

theorem guarded_maskOp (a : MReg) (f : IX → Nat → Bool × Nat) : Guarded s i (maskOp s i a f) :=
  guarded_groupOp ..

theorem guarded_maskLogic (a : MReg) (f : Group → W64) : Guarded s i (maskLogic s i a f) :=
  guarded_plainOp ..

theorem guarded_roundOp (dst : VReg) (count draws : Nat) (dflt : Rnd) (f : IX → Rnd → Nat → LaneRes) :
    Guarded s i (roundOp s i dst count draws dflt f) :=
  guarded_groupOp ..

theorem guarded_fpOp (a b : VReg) (c : VSrc) (f : Rnd → Nat → Nat → Nat → Nat × Nat) : Guarded s i (fpOp s i a b c f) :=
  guarded_roundOp ..

theorem guarded_halfOp (a b c : VReg) (f : Rnd → Nat → Nat → Nat → Nat × Nat) : Guarded s i (halfOp s i a b c f) :=
  guarded_roundOp ..

theorem guarded_specialOp (a b : VReg) (f : Nat → Nat × Nat) : Guarded s i (specialOp s i a b f) :=
  guarded_laneOp ..

theorem guarded_voteOp (a : SIdx) (b : VReg) (f : List W32 → Bool) : Guarded s i (voteOp s i a b f) :=
  guarded_plainOp ..

theorem guarded_memLanes (a : Acc) (size : Nat) (ld64 : Bool) (addr : IX → Nat → W64) (body : IX → State → List LaneX → Out) :
    Guarded s i (memLanes s i a size ld64 addr body) :=
  .group _

theorem guarded_casOp (r : Ord) (sc : MScope) (a b c : VReg) (count : Nat) : Guarded s i (casOp s i r sc a b c count) :=
  guarded_memLanes ..

theorem guarded_ldbOp (wait : Bool) (t : MType) (a b : VReg) (n : BitVec 3) : Guarded s i (ldbOp s i wait t a b n) :=
  guarded_memLanes ..

theorem guarded_maintOp (b : VReg) (sc : MScope) (inv : Bool) : Guarded s i (maintOp s i b sc inv) :=
  .group _

theorem guarded_spLanes (write : Bool) (size : Nat) (b : VReg) (body : IX → Out) :
    Guarded s i (spLanes s i write size b body) :=
  .group _

theorem guarded_atompOp (o : AOp) (t : AType) (a b : VReg) (w : BitVec 3) : Guarded s i (atompOp s i o t a b w) :=
  guarded_spLanes ..

theorem guarded_remoteOp (a b : VReg) (w : BitVec 3) (size : Nat) (load : Option MType) (data : IX → Nat → List Byte) :
    Guarded s i (remoteOp s i a b w size load data) :=
  .group _

theorem guarded_matrixOp (checks : IX → List (Option Trap)) (body : IX → State) :
    Guarded s i (matrixOp s i checks body) :=
  .group _

theorem guarded_tcopyOp (a b : VReg) (kind : IX → CopyKind) : Guarded s i (tcopyOp s i a b kind) :=
  .group _

theorem guarded_barOp (b : SReg) (illegal : IX → Bool) (body : IX → Nat → Out) :
    Guarded s i (barOp s i b illegal body) :=
  .group _

theorem guarded_feedOp (f : FReg) (out : Bool) (body : IX → Ring → Out) : Guarded s i (feedOp s i f out body) :=
  .group _

theorem guarded_giveOp (f : FReg) (c : SReg) (put : Bool) : Guarded s i (giveOp s i f c put) :=
  guarded_feedOp ..

theorem guarded_ctlOp (f : (SReg → W64) → Kcb → Ctl → Except Trap Ctl) : Guarded s i (ctlOp s i f) :=
  .unit _ _

theorem guarded_branchOp (d : BitVec 14) (cond : (SReg → W64) → Bool) : Guarded s i (branchOp s i d cond) :=
  guarded_ctlOp ..

theorem guarded_scalarOp (a b : SReg) (c : SSrc) (f : W64 → W64 → W64) : Guarded s i (scalarOp s i a b c f) :=
  .unit _ _

theorem guarded_scalarOf (a : SReg) (f : (SReg → W64) → W64) : Guarded s i (scalarOf s i a f) :=
  .unit _ _

theorem guarded_launchOp (b : SReg) : Guarded s i (launchOp s i b) :=
  .unit _ _

end Shared

/-- Every encoded instruction, by the shared operation that gives its meaning. -/
theorem exec_guarded (i : Instr) (h : i.wf = true) (s : State) : Guarded s i (exec i s) := by
  cases i with
  -- Control (R84)
  | nop sc => exact (guarded_ctlOp .. : Guarded s _ (execNop sc s))
  | brZ sc a d => exact (guarded_branchOp .. : Guarded s _ (execBrZ sc a d s))
  | brNz sc a d => exact (guarded_branchOp .. : Guarded s _ (execBrNz sc a d s))
  | brm sc all not m d => exact (.unit _ _ : Guarded s _ (execBrm sc all not m d s))
  | jmp sc d => exact (guarded_ctlOp .. : Guarded s _ (execJmp sc d s))
  | jmpr sc b => exact (guarded_ctlOp .. : Guarded s _ (execJmpr sc b s))
  | call sc d => exact (guarded_ctlOp .. : Guarded s _ (execCall sc d s))
  | callr sc b => exact (guarded_ctlOp .. : Guarded s _ (execCallr sc b s))
  | ret sc => exact (guarded_ctlOp .. : Guarded s _ (execRet sc s))
  | loop sc a d => exact (guarded_ctlOp .. : Guarded s _ (execLoop sc a d s))
  | next sc => exact (guarded_ctlOp .. : Guarded s _ (execNext sc s))
  | brk sc d => exact (guarded_ctlOp .. : Guarded s _ (execBrk sc d s))
  | skip m d => exact (.group _ : Guarded s _ (execSkip m d s))
  | exit => exact (.group _ : Guarded s _ (execExit s))
  | end_ sc => exact (.unit _ _ : Guarded s _ (execEnd sc s))
  | revote sc => exact (.unit _ _ : Guarded s _ (execRevote sc s))
  | fret sc => exact (.unit _ _ : Guarded s _ (execFret sc s))
  | win i => exact (.group _ : Guarded s _ (execWin i s))
  | yield sc => exact (.unit _ _ : Guarded s _ (execYield sc s))
  | trap sc c => exact (.unit _ _ : Guarded s _ (execTrap sc c s))
  -- Scalar integer (R85, R137, R139)
  | sadd a b c => exact (guarded_scalarOp .. : Guarded s _ (execSadd a b c s))
  | ssub a b c => exact (guarded_scalarOp .. : Guarded s _ (execSsub a b c s))
  | smul a b c => exact (guarded_scalarOp .. : Guarded s _ (execSmul a b c s))
  | smulhI64 a b c => exact (guarded_scalarOp .. : Guarded s _ (execSmulhI64 a b c s))
  | smulhN64 a b c => exact (guarded_scalarOp .. : Guarded s _ (execSmulhN64 a b c s))
  | sand a b c => exact (guarded_scalarOp .. : Guarded s _ (execSand a b c s))
  | sor a b c => exact (guarded_scalarOp .. : Guarded s _ (execSor a b c s))
  | sxor a b c => exact (guarded_scalarOp .. : Guarded s _ (execSxor a b c s))
  | sshl a b c => exact (guarded_scalarOp .. : Guarded s _ (execSshl a b c s))
  | sshr a b c => exact (guarded_scalarOp .. : Guarded s _ (execSshr a b c s))
  | ssar a b c => exact (guarded_scalarOp .. : Guarded s _ (execSsar a b c s))
  | sminI64 a b c => exact (guarded_scalarOp .. : Guarded s _ (execSminI64 a b c s))
  | sminN64 a b c => exact (guarded_scalarOp .. : Guarded s _ (execSminN64 a b c s))
  | smaxI64 a b c => exact (guarded_scalarOp .. : Guarded s _ (execSmaxI64 a b c s))
  | smaxN64 a b c => exact (guarded_scalarOp .. : Guarded s _ (execSmaxN64 a b c s))
  | scmpI64 k a b c => exact (guarded_scalarOp .. : Guarded s _ (execScmpI64 k a b c s))
  | scmpN64 k a b c => exact (guarded_scalarOp .. : Guarded s _ (execScmpN64 k a b c s))
  | ssel a b c => exact (guarded_scalarOf .. : Guarded s _ (execSsel a b c s))
  | smov a b => exact (.unit _ _ : Guarded s _ (execSmov a b s))
  | smovi a i => exact (guarded_scalarOf .. : Guarded s _ (execSmovi a i s))
  | slui a i => exact (guarded_scalarOf .. : Guarded s _ (execSlui a i s))
  | saddi a b i => exact (guarded_scalarOf .. : Guarded s _ (execSaddi a b i s))
  -- Vector integer (R86, R142)
  | iadd w a b c => exact (guarded_vecOp .. : Guarded s _ (execIadd w a b c s))
  | isub w a b c => exact (guarded_vecOp .. : Guarded s _ (execIsub w a b c s))
  | iaddsI w a b c => exact (guarded_vecOp .. : Guarded s _ (execIaddsI w a b c s))
  | iaddsN w a b c => exact (guarded_vecOp .. : Guarded s _ (execIaddsN w a b c s))
  | isubsI w a b c => exact (guarded_vecOp .. : Guarded s _ (execIsubsI w a b c s))
  | isubsN w a b c => exact (guarded_vecOp .. : Guarded s _ (execIsubsN w a b c s))
  | imul w a b c => exact (guarded_vecOp .. : Guarded s _ (execImul w a b c s))
  | imulhI w a b c => exact (guarded_vecOp .. : Guarded s _ (execImulhI w a b c s))
  | imulhN w a b c => exact (guarded_vecOp .. : Guarded s _ (execImulhN w a b c s))
  | imad w a b c => exact (guarded_laneOp .. : Guarded s _ (execImad w a b c s))
  | iminI w a b c => exact (guarded_vecOp .. : Guarded s _ (execIminI w a b c s))
  | iminN w a b c => exact (guarded_vecOp .. : Guarded s _ (execIminN w a b c s))
  | imaxI w a b c => exact (guarded_vecOp .. : Guarded s _ (execImaxI w a b c s))
  | imaxN w a b c => exact (guarded_vecOp .. : Guarded s _ (execImaxN w a b c s))
  | iabs w a b => exact (guarded_vecOp1 .. : Guarded s _ (execIabs w a b s))
  | and w a b c => exact (guarded_vecOp .. : Guarded s _ (execAnd w a b c s))
  | or w a b c => exact (guarded_vecOp .. : Guarded s _ (execOr w a b c s))
  | xor w a b c => exact (guarded_vecOp .. : Guarded s _ (execXor w a b c s))
  | shl w a b c => exact (guarded_vecOp .. : Guarded s _ (execShl w a b c s))
  | shr w a b c => exact (guarded_vecOp .. : Guarded s _ (execShr w a b c s))
  | sar w a b c => exact (guarded_vecOp .. : Guarded s _ (execSar w a b c s))
  | bfxI w a b c => exact (guarded_bfxOp .. : Guarded s _ (execBfxI w a b c s))
  | bfxN w a b c => exact (guarded_bfxOp .. : Guarded s _ (execBfxN w a b c s))
  | bfi w a b c => exact (guarded_laneOp .. : Guarded s _ (execBfi w a b c s))
  | popc w a b => exact (guarded_vecOp1 .. : Guarded s _ (execPopc w a b s))
  | clz w a b => exact (guarded_vecOp1 .. : Guarded s _ (execClz w a b s))
  | sel w a b c => exact (guarded_plainOp .. : Guarded s _ (execSel w a b c s))
  | mov w a b => exact (guarded_vecOp1 .. : Guarded s _ (execMov w a b s))
  | movVs w a c => exact (guarded_laneOp .. : Guarded s _ (execMovVs w a c s))
  | movi a i => exact (guarded_laneOp .. : Guarded s _ (execMovi a i s))
  -- Mask and compare (R87)
  | icmp k n w a b c => exact (guarded_maskOp .. : Guarded s _ (execIcmp k n w a b c s))
  | fcmp k a b c => exact (guarded_maskOp .. : Guarded s _ (execFcmp k a b c s))
  | ftst a b c => exact (guarded_maskOp .. : Guarded s _ (execFtst a b c s))
  | mand a b c => exact (guarded_maskLogic .. : Guarded s _ (execMand a b c s))
  | mor a b c => exact (guarded_maskLogic .. : Guarded s _ (execMor a b c s))
  | mxor a b c => exact (guarded_maskLogic .. : Guarded s _ (execMxor a b c s))
  | mandn a b c => exact (guarded_maskLogic .. : Guarded s _ (execMandn a b c s))
  | mnot a b => exact (guarded_maskLogic .. : Guarded s _ (execMnot a b s))
  | mmov a b => exact (guarded_maskLogic .. : Guarded s _ (execMmov a b s))
  | mset a b => exact (guarded_plainOp .. : Guarded s _ (execMset a b s))
  | mget a b => exact (guarded_plainOp .. : Guarded s _ (execMget a b s))
  | mpop a b => exact (guarded_plainOp .. : Guarded s _ (execMpop a b s))
  | mfirst a b => exact (guarded_plainOp .. : Guarded s _ (execMfirst a b s))
  -- Floating point (R88)
  | fadd a b c => exact (guarded_fpOp .. : Guarded s _ (execFadd a b c s))
  | fsub a b c => exact (guarded_fpOp .. : Guarded s _ (execFsub a b c s))
  | fmul a b c => exact (guarded_fpOp .. : Guarded s _ (execFmul a b c s))
  | ffma a b c => exact (guarded_roundOp .. : Guarded s _ (execFfma a b c s))
  | fmin a b c => exact (guarded_laneOp .. : Guarded s _ (execFmin a b c s))
  | fmax a b c => exact (guarded_laneOp .. : Guarded s _ (execFmax a b c s))
  | frnd a b => exact (guarded_roundOp .. : Guarded s _ (execFrnd a b s))
  | fclass a b => exact (guarded_laneOp .. : Guarded s _ (execFclass a b s))
  | hadd2 f a b c => exact (guarded_halfOp .. : Guarded s _ (execHadd2 f a b c s))
  | hmul2 f a b c => exact (guarded_halfOp .. : Guarded s _ (execHmul2 f a b c s))
  | hfma2 f a b c => exact (guarded_roundOp .. : Guarded s _ (execHfma2 f a b c s))
  | hmax2 f a b c => exact (guarded_laneOp .. : Guarded s _ (execHmax2 f a b c s))
  -- Conversion, special functions, cross-lane (R89)
  | cvt dst src a b => exact (guarded_groupOp .. : Guarded s _ (execCvt dst src a b s))
  | pack k a b => exact (guarded_roundOp .. : Guarded s _ (execPack k a b s))
  | unpk k a b => exact (guarded_laneOp .. : Guarded s _ (execUnpk k a b s))
  | exp2 a b => exact (guarded_specialOp .. : Guarded s _ (execExp2 a b s))
  | log2 a b => exact (guarded_specialOp .. : Guarded s _ (execLog2 a b s))
  | rcp a b => exact (guarded_specialOp .. : Guarded s _ (execRcp a b s))
  | rsq a b => exact (guarded_specialOp .. : Guarded s _ (execRsq a b s))
  | sqrt a b => exact (guarded_specialOp .. : Guarded s _ (execSqrt a b s))
  | sint a b => exact (guarded_specialOp .. : Guarded s _ (execSint a b s))
  | cost a b => exact (guarded_specialOp .. : Guarded s _ (execCost a b s))
  | tanh a b => exact (guarded_specialOp .. : Guarded s _ (execTanh a b s))
  | shfl m a b c => exact (guarded_laneOp .. : Guarded s _ (execShfl m a b c s))
  | bcast a b l => exact (guarded_laneOp .. : Guarded s _ (execBcast a b l s))
  | red r a b => exact (guarded_groupOp .. : Guarded s _ (execRed r a b s))
  | scan r a b => exact (guarded_groupOp .. : Guarded s _ (execScan r a b s))
  | voteAny a b => exact (guarded_voteOp .. : Guarded s _ (execVoteAny a b s))
  | voteAll a b => exact (guarded_voteOp .. : Guarded s _ (execVoteAll a b s))
  | voteEq a b => exact (guarded_voteOp .. : Guarded s _ (execVoteEq a b s))
  | ballot a b => exact (guarded_maskOp .. : Guarded s _ (execBallot a b s))
  | sample a b c => exact (guarded_groupOp .. : Guarded s _ (execSample a b c s))
  -- Memory (R90)
  | ld t a b c => exact (guarded_memLanes .. : Guarded s _ (execLd t a b c s))
  | ldAcq t a b sc => exact (guarded_memLanes .. : Guarded s _ (execLdAcq t a b sc s))
  | st t a b c => exact (guarded_memLanes .. : Guarded s _ (execSt t a b c s))
  | stRel t a b sc => exact (guarded_memLanes .. : Guarded s _ (execStRel t a b sc s))
  | atom o t a b r sc => exact (guarded_memLanes .. : Guarded s _ (execAtom o t a b r sc s))
  | cas r sc a b c => exact (guarded_casOp .. : Guarded s _ (execCas r sc a b c s))
  | casW64 r sc a b c => exact (guarded_casOp .. : Guarded s _ (execCasW64 r sc a b c s))
  | ldbR t a b n => exact (guarded_ldbOp .. : Guarded s _ (execLdbR t a b n s))
  | ldbS t a b n => exact (guarded_ldbOp .. : Guarded s _ (execLdbS t a b n s))
  | lds t a b c => exact (.unit _ _ : Guarded s _ (execLds t a b c s))
  | sts t a b c => exact (.unit _ _ : Guarded s _ (execSts t a b c s))
  | fence r sc => exact (.group _ : Guarded s _ (execFence r sc s))
  | pref b l2 => exact (.group _ : Guarded s _ (execPref b l2 s))
  | cinv b sc => exact (guarded_maintOp .. : Guarded s _ (execCinv b sc s))
  | cflush b sc => exact (guarded_maintOp .. : Guarded s _ (execCflush b sc s))
  | ldp t a b w => exact (guarded_spLanes .. : Guarded s _ (execLdp t a b w s))
  | stp t a b w => exact (guarded_spLanes .. : Guarded s _ (execStp t a b w s))
  | atompI32 o a b w => exact (guarded_atompOp .. : Guarded s _ (execAtompI32 o a b w s))
  | atompN32 o a b w => exact (guarded_atompOp .. : Guarded s _ (execAtompN32 o a b w s))
  | ldpr t a b w => exact (guarded_remoteOp .. : Guarded s _ (execLdpr t a b w s))
  | stpr t a b w => exact (guarded_remoteOp .. : Guarded s _ (execStpr t a b w s))
  -- Matrix, copies, barriers, feeds, delivery, bells, system (R91)
  | mmldb a b m n => exact (guarded_matrixOp .. : Guarded s _ (execMmldb a b m n s))
  | mmloop a b m => exact (.group _ : Guarded s _ (execMmloop a b m s))
  | mmzero u n => exact (guarded_matrixOp .. : Guarded s _ (execMmzero u n s))
  | amov a b => exact (guarded_matrixOp .. : Guarded s _ (execAmov a b s))
  | anrw a b c => exact (guarded_matrixOp .. : Guarded s _ (execAnrw a b c s))
  | qtile a b m => exact (guarded_matrixOp .. : Guarded s _ (execQtile a b m s))
  | rqt a b row => exact (guarded_matrixOp .. : Guarded s _ (execRqt a b row s))
  | tcopy a b => exact (guarded_tcopyOp .. : Guarded s _ (execTcopy a b s))
  | tcopyMAll a b n => exact (guarded_tcopyOp .. : Guarded s _ (execTcopyMAll a b n s))
  | tcopyMJoin a b n => exact (guarded_tcopyOp .. : Guarded s _ (execTcopyMJoin a b n s))
  | binit b c => exact (guarded_barOp .. : Guarded s _ (execBinit b c s))
  | barv a b n => exact (guarded_barOp .. : Guarded s _ (execBarv a b n s))
  | bexp b c => exact (guarded_barOp .. : Guarded s _ (execBexp b c s))
  | bwait b c => exact (guarded_barOp .. : Guarded s _ (execBwait b c s))
  | btest a b c => exact (guarded_barOp .. : Guarded s _ (execBtest a b c s))
  | feedget a f => exact (guarded_feedOp .. : Guarded s _ (execFeedget a f s))
  | feedput f c => exact (guarded_giveOp .. : Guarded s _ (execFeedput f c s))
  | feedpop a f => exact (guarded_feedOp .. : Guarded s _ (execFeedpop a f s))
  | feedrel f c => exact (guarded_giveOp .. : Guarded s _ (execFeedrel f c s))
  | dlv t a b n => exact (guarded_memLanes .. : Guarded s _ (execDlv t a b n s))
  | hamset a b c => exact (.group _ : Guarded s _ (execHamset a b c s))
  | hamand a b c => exact (.group _ : Guarded s _ (execHamand a b c s))
  | ring a b n => exact (.group _ : Guarded s _ (execRing a b n s))
  | bellr a n => exact (guarded_plainOp .. : Guarded s _ (execBellr a n s))
  | bellw b n => exact (.group _ : Guarded s _ (execBellw b n s))
  | rdsrV pair a n => exact (.group _ : Guarded s _ (execRdsrV pair a n s))
  | rdsrS a n => exact (.unit _ _ : Guarded s _ (execRdsrS a n s))
  | wrsrV b n => exact (.group _ : Guarded s _ (execWrsrV b n s))
  | wrsrS b n => exact (.group _ : Guarded s _ (execWrsrS b n s))
  | launchT b => exact (guarded_launchOp .. : Guarded s _ (execLaunchT b s))
  | launchD b => exact (guarded_launchOp .. : Guarded s _ (execLaunchD b s))
  | mapf a b => exact (.group _ : Guarded s _ (execMapf a b s))
  | tlbiPage b => exact (.group _ : Guarded s _ (execTlbiPage b s))
  | tlbiCtx => exact (.group _ : Guarded s _ (execTlbiCtx s))
  | _ => cases h

/-! ### The checks one by one -/

theorem all_eq_not_any {α : Type} (l : List α) (p : α → Bool) : (l.all p = true) ↔ ¬ (l.any fun a => !p a) = true := by
  simp

/-- The features that a function's driver offers (R94). -/
def offeredTo (s : State) (vf : Nat) : BitVec 128 := match s.vfs.get? vf with | some v => v.offered | none => 0

theorem featureTrap_eq {s : State} {u : UnitId} {gk : Nat} {gr : Grid} (hk : s.gridOf u = some gk) (hg : s.grid? gk = some gr)
    (need : List Nat) : featureTrap s u need =
      if need.any (fun f => !(offeredTo s gr.vf).getLsbD f) then some (trap cIllegal)
      else if need.any (fun f => !gr.kcb.reqfeat.getLsbD f) then some (trap cMasked) else none := by
  unfold featureTrap
  simp only [hk, hg, all_eq_not_any, ite_not]
  rfl

theorem gridOf_group {s : State} {k : Nat} {x : GCtx} (hx : s.gctx k = some x) :
    s.gridOf (.group x.k) = some x.t.grid ∧ s.grid? x.t.grid = some x.gr := by
  obtain ⟨-, -, hgr, hk⟩ := gctx_some s hx
  refine ⟨?_, hgr⟩
  simp only [State.gridOf, hk, hx, Option.map_some]

/-- The trap of a fault that R93 finds at issue. -/
def issueTrapOf (i : Instr) (p : Nat × Nat) : Trap := ⟨p.1, p.2, 0, laneScope i, false, false⟩

/-- The first trap of a list of checks, with the scope of the instruction, is the fault `r`. -/
def Finds (i : Instr) (os : List (Option Trap)) (r : Option (Nat × Nat)) : Prop :=
  (firstTrap os).map (fun t => { t with lane := laneScope i }) = r.map (issueTrapOf i)

section Finds

variable {i : Instr} {os : List (Option Trap)} {r : Option (Nat × Nat)} (h : Finds i os r)
include h

theorem finds_if {c d : Prop} [Decidable c] [Decidable d] (hcd : c ↔ d) (cause : Nat) :
    Finds i ((if c then some (trap cause) else none) :: os) (if d then some (cause, 0) else r) := by
  by_cases hc : c
  · rw [if_pos hc, if_pos (hcd.mp hc)]; rfl
  · rw [if_neg hc, if_neg (mt hcd.mpr hc)]; exact h

theorem finds_unless {c d : Prop} [Decidable c] [Decidable d] (hcd : c ↔ ¬ d) (cause : Nat) :
    Finds i ((if c then none else some (trap cause)) :: os) (if d then some (cause, 0) else r) := by
  by_cases hd : d
  · rw [if_pos hd, if_neg (mt hcd.mp (not_not_intro hd))]; rfl
  · rw [if_neg hd, if_pos (hcd.mpr hd)]; exact h

theorem finds_none : Finds i (none :: os) r := h

theorem finds_features {s : State} {u : UnitId} {gk : Nat} {gr : Grid} (hk : s.gridOf u = some gk) (hg : s.grid? gk = some gr)
    (need : List Nat) : Finds i (featureTrap s u need :: os)
      (if need.any (fun f => !(offeredTo s gr.vf).getLsbD f) then some (cIllegal, 0)
      else if need.any (fun f => !gr.kcb.reqfeat.getLsbD f) then some (cMasked, 0) else r) := by
  rw [featureTrap_eq hk hg]
  by_cases ho : need.any (fun f => !(offeredTo s gr.vf).getLsbD f) = true
  · rw [if_pos ho, if_pos ho]; rfl
  · rw [if_neg ho, if_neg ho]; exact finds_if h .rfl cMasked

end Finds

theorem paceFree_iff (i : Instr) : paceFree i = true ↔ i = .exit := by
  constructor
  · unfold paceFree
    split
    · exact fun _ => rfl
    · exact fun h => nomatch h
  · rintro rfl; rfl

/-- Steps 7 and 8 of R93: the bound, then in paced mode a pending register. -/
theorem finds_registers (x : GCtx) (i : Instr) (u : Use) (mask : Nat) (mz : Bool) :
    Finds i [boundTrap x.g u.v, if x.gr.kcb.paced && !paceFree i then (pendingReg x.g u mask mz).map fun r => trap cPace r else none]
      (match u.v.find? fun n => decide (min x.g.alloc 256 ≤ x.g.vwb + n) with
        | some n => some (cBound, x.g.vwb + n)
        | none => if x.gr.kcb.paced ∧ i ≠ .exit then (pendingReg x.g u mask mz).map fun r => (cPace, r) else none) := by
  unfold boundTrap Group.outOfBound
  cases u.v.find? fun n => decide (min x.g.alloc 256 ≤ x.g.vwb + n) with
  | some n => rfl
  | none =>
    have hc : (x.gr.kcb.paced && !paceFree i) = true ↔ x.gr.kcb.paced = true ∧ i ≠ .exit := by
      simp [← paceFree_iff]
    refine finds_none ?_
    by_cases h : x.gr.kcb.paced = true ∧ i ≠ .exit
    · rw [if_pos (hc.mpr h)]
      dsimp only
      rw [if_pos h]
      cases pendingReg x.g u mask mz <;> rfl
    · rw [if_neg (mt hc.mp h)]
      dsimp only
      rw [if_neg h]
      rfl

theorem issueTrap_eq {s : State} {k : Nat} {x : GCtx} (hx : s.gctx k = some x) (i : Instr) :
    issueTrap s x i = (firstFault s x i).map (issueTrapOf i) := by
  obtain ⟨hk, hg⟩ := gridOf_group hx
  have hs : (scopeOf i == .g) = true ↔ ¬ scopeOf i ≠ .g := by simp
  unfold issueTrap firstFault
  cases s.iss.pfx with
  | none =>
    refine finds_if (finds_none ?_) .rfl cEncoding
    exact finds_if (finds_features (finds_if (finds_unless (finds_registers ..) hs cRun) .rfl cIllegal) hk hg _) .rfl cIllegal
  | some q =>
    refine finds_if (finds_unless ?_ (by simp) cEncoding) .rfl cEncoding
    exact finds_if (finds_features (finds_if (finds_unless (finds_registers ..) hs cRun) .rfl cIllegal) hk hg _) .rfl cIllegal

/-- R25, R94: what is found at a team or grid sequencer, the features before the scope. -/
theorem seqTrap_eq {s : State} {u : UnitId} {gk : Nat} {gr : Grid} (hk : s.gridOf u = some gk) (hg : s.grid? gk = some gr)
    (i : Instr) : seqTrap s u i =
      if (featuresOf i).any (fun f => !(offeredTo s gr.vf).getLsbD f) then some (trap cIllegal)
      else if (featuresOf i).any (fun f => !gr.kcb.reqfeat.getLsbD f) then some (trap cMasked)
      else if scopeOf i ≠ lvlOfUnit u then some (trap cRun) else none := by
  unfold seqTrap
  rw [featureTrap_eq hk hg]
  split
  · rfl
  · split
    · rfl
    · by_cases hs : scopeOf i = lvlOfUnit u <;> simp [hs, firstTrap]

/-- Settles O46: what the checks find is the statement's table (`issueTrap_eq`, `seqTrap_eq`), and every instruction passes
the checks before its effect (`exec_guarded`). -/
theorem issueChecks : Obligations.IssueChecks := by
  unfold Obligations.IssueChecks
  refine ⟨fun s k x i hw hu hx => ?_, fun s u q gk gr i hw hu hq hk hg => ?_⟩
  · have ht := issueTrap_eq hx i
    cases hf : firstFault s x i with
    | some p =>
      rw [hf] at ht
      exact (exec_guarded i hw s).groupFault hu hx ht
    | none =>
      rw [hf] at ht
      exact ⟨hu, hx, ht⟩
  · have ht := seqTrap_eq hk hg i
    have fault {t : Trap} (h : seqTrap s u i = some t) := (exec_guarded i hw s).seqFault hu hq h
    change if (featuresOf i).any (fun f => !(offeredTo s gr.vf).getLsbD f) = true then _ else _
    split
    · next h => exact fault (ht.trans (if_pos h))
    · next h =>
      rw [if_neg h] at ht
      split
      · next h' => exact fault (ht.trans (if_pos h'))
      · next h' =>
        rw [if_neg h'] at ht
        split
        · next h'' => exact fault (ht.trans (if_pos h''))
        · next h'' => exact ⟨hu, hq, ht.trans (if_neg h'')⟩

end Sys2Proof.Proofs
end

section
/-! ## O42: what a word decodes to
One lemma for each answer of the decoder. -/

namespace Sys2Proof.Proofs

open Sys2Proof Sys2Proof.Machine

theorem opOf_zero : Sys2Proof.opOf 0 = 0 := by decide

/-- The reserved OP values are those of no zero word. -/
theorem ne_zero_of_op {w : W32} (h : Sys2Proof.opOf w ≠ 0) : w ≠ 0 := by
  rintro rfl
  exact h opOf_zero

theorem decode_prefix_iff (w : W32) : decode w = .prefixWord ↔ Sys2Proof.opOf w = 0x7FE := by
  unfold decode
  constructor
  · intro h
    repeat' split at h
    case isFalse.isTrue ho => exact ho
    all_goals cases h
  · intro h
    rw [if_neg (ne_zero_of_op (by omega)), if_pos h]

/-- A word that decodes to an instruction is read as it, meets the operand rules, and is its encoding. -/
theorem decode_instr {w : W32} {i : Instr} (h : decode w = .instr i) : raw w = some i ∧ i.wf = true ∧ encode i = w := by
  unfold decode at h
  repeat' split at h
  case h_2.isTrue j hr hw =>
    cases h
    simp only [Bool.and_eq_true, beq_iff_eq] at hw
    exact ⟨hr, hw⟩
  all_goals cases h

/-- OP 0x7FF is permanently reserved (R92). -/
theorem decode_reserved {w : W32} (h : Sys2Proof.opOf w = 0x7FF) : decode w = .illegal .opReserved := by
  unfold decode
  rw [if_neg (ne_zero_of_op (by omega)), if_neg (by omega), if_pos h]

/-- Settles O42, by the lemma of each answer; the words written out are evaluated. -/
theorem decodedWords : Obligations.DecodedWords := by
  unfold Obligations.DecodedWords
  refine ⟨fun w i h => (decode_instr h).2, by decide, fun w h => decode_reserved (congrArg BitVec.toNat h),
    fun w h => (decode_prefix_iff w).mpr (congrArg BitVec.toNat h), ?_⟩
  decide

end Sys2Proof.Proofs
end

section
/-! ## O14: branches, jumps and NOP
What a control effect leaves, once for every instruction whose meaning is `ctlOp`, at every scope. -/

namespace Sys2Proof.Proofs

open Sys2Proof Sys2Proof.Machine Sys2Proof.Laws

/-! ### A control effect at any scope -/

/-- A group's control instruction that leaves the control state `c` (R97). -/
theorem commitCtl_done {s : State} {k : Nat} {x : GCtx} {i : Instr} (h : Issues s k x i) (c : Ctl) :
    CtlDone s (commitCtl s (IX.of s x) i c) c := by
  obtain rfl := gctx_k h.ctx
  unfold CtlDone
  rw [h.unit]
  obtain ⟨g', hi, hg, hr⟩ := commit_none s { IX.of s x with x := { x with g := { x.g with ctl := c } } } i 0 c.pc
  exact ⟨x, g', h.ctx, hi, hg, hr.v, hr.s, hr.m⟩

/-- The same of a team or grid sequencer. -/
theorem seqDone_updCtl (s : State) (u : UnitId) (c : Ctl) (hu : ∀ k, u ≠ .group k) :
    seqDone (s.updCtl u fun _ => c) u c.pc = s.updSeq u fun q => { q with voted := none, ctl := c } := by
  cases u with
  | group k => exact absurd rfl (hu k)
  | team k => exact updSeq_updSeq s (.team k) (fun q => { q with ctl := c }) _
  | grid k => exact updSeq_updSeq s (.grid k) (fun q => { q with ctl := c }) _
  | _ => rfl

theorem ctl?_of_seq? {s : State} {u : UnitId} {q : Seq} (h : s.seq? u = some q) : s.ctl? u = some q.ctl := by
  cases u with
  | team k =>
    simp only [State.seq?, Option.map_eq_some_iff] at h
    obtain ⟨t, ht, rfl⟩ := h
    simp only [State.ctl?, ht, Option.map_some]
  | grid k =>
    simp only [State.seq?, Option.map_eq_some_iff] at h
    obtain ⟨g, hg, rfl⟩ := h
    simp only [State.ctl?, hg, Option.map_some]
  | _ => cases h

/-- The unit that issues a control instruction: a group, or a team or grid sequencer. -/
theorem ctlIssues_cases {s : State} {i : Instr} {rd : SReg → W64} {k : Kcb} {c : Ctl} (h : CtlIssues s i rd k c) :
    (∃ n x, Issues s n x i ∧ rd = x.rd ∧ k = x.gr.kcb ∧ c = x.g.ctl) ∨
    (∃ u q, SeqIssues s u q i ∧ (∀ n, u ≠ .group n) ∧ rd = seqRead s u i ∧ s.kcb? u = some k ∧ c = q.ctl) := by
  unfold CtlIssues at h
  split at h
  · next n _ => exact .inl ⟨n, h⟩
  · next hu =>
    obtain ⟨q, hq⟩ := h
    exact .inr ⟨_, q, hq.1, hu, hq.2⟩

section CtlOp

variable {s : State} {i : Instr} {rd : SReg → W64} {k : Kcb} {c : Ctl} (h : CtlIssues s i rd k c)
  {f : (SReg → W64) → Kcb → Ctl → Except Trap Ctl}
include h

theorem ctlOp_done {c' : Ctl} (hf : f rd k c = .ok c') : ∃ t, ctlOp s i f = .next t ∧ CtlDone s t c' := by
  unfold ctlOp
  obtain ⟨n, x, hi, rfl, rfl, rfl⟩ | ⟨u, q, hi, hu, rfl, hk, rfl⟩ := ctlIssues_cases h
  · rw [withUnit_issues hi]
    simp only [ixOf_x, hf]
    exact ⟨_, rfl, commitCtl_done hi c'⟩
  · rw [withUnit_seqIssues hi]
    simp only [ctl?_of_seq? hi.seq, hk, hf]
    refine ⟨_, rfl, ?_⟩
    rw [seqDone_updCtl s u c' hu]
    unfold CtlDone
    rw [hi.unit]
    cases u with
    | group n => exact absurd rfl (hu n)
    | _ => rfl

theorem ctlOp_fault {t : Trap} (hf : f rd k c = .error t) : ctlOp s i f = .next (takeFault s s.iss.unit t) := by
  unfold ctlOp
  obtain ⟨n, x, hi, rfl, rfl, rfl⟩ | ⟨u, q, hi, hu, rfl, hk, rfl⟩ := ctlIssues_cases h
  · rw [withUnit_issues hi]
    simp only [ixOf_x, hf, gctx_k hi.ctx, hi.unit]
  · rw [withUnit_seqIssues hi]
    simp only [ctl?_of_seq? hi.seq, hk, hf, hi.unit]

end CtlOp

/-! ### Transfers (R62, R131) -/

theorem inRange_iff (k : Kcb) (a : W64) : k.inRange a = true ↔ codeOk k a := by
  unfold Kcb.inRange codeOk
  simp only [Bool.and_eq_true, decide_eq_true_eq]

theorem goto_ok {c : Ctl} {k : Kcb} {t : W64} (h : codeOk k t) : c.goto k t = .ok { c with pc := t } := by
  unfold Ctl.goto
  rw [if_pos ((inRange_iff k t).mpr h)]

theorem goto_error {c : Ctl} {k : Kcb} {t : W64} (h : ¬ codeOk k t) : c.goto k t = .error (trap cCode) := by
  unfold Ctl.goto
  rw [if_neg (mt (inRange_iff k t).mp h)]

theorem slot1_iff (a : W64) : slot1 a = true ↔ a &&& 15 = 4 := by
  unfold slot1
  exact decide_eq_true_iff

/-- A transfer to a target: by a displacement, or held in a register. -/
def transfer (c : Ctl) (k : Kcb) (t : W64 × Bool) : Except Trap Ctl := if t.2 then c.gotoReg k t.1 else c.goto k t.1

theorem transfer_ok {c : Ctl} {k : Kcb} {t : W64 × Bool} (h : targetOk k t) : transfer c k t = .ok { c with pc := t.1 } := by
  obtain ⟨a, held⟩ := t
  obtain ⟨hc, hs⟩ := h
  cases held with
  | false => exact goto_ok hc
  | true => exact (if_pos ((slot1_iff a).mpr (hs rfl))).trans (goto_ok hc)

theorem transfer_error {c : Ctl} {k : Kcb} {t : W64 × Bool} (h : ¬ targetOk k t) : transfer c k t = .error (trap cCode) := by
  obtain ⟨a, held⟩ := t
  cases held with
  | false => exact goto_error fun hc => h ⟨hc, nofun⟩
  | true =>
    by_cases hs : slot1 a = true
    · exact (if_pos hs).trans (goto_error fun hc => h ⟨hc, fun _ => (slot1_iff a).mp hs⟩)
    · exact if_neg hs

/-! ### The statement -/

/-- The control effect of a branch, a jump or a NOP: the next slot, or a transfer. -/
def jumpEffect (next : W64) (c : Ctl) (k : Kcb) : Option (W64 × Bool) → Except Trap Ctl
  | none => c.step next
  | some t => transfer c k t

theorem branch_effect (next : W64) (c : Ctl) (k : Kcb) (t : W64) {b : Bool} {p : Prop} [Decidable p] (hb : b = true ↔ p) :
    (if b then c.goto k t else c.step next) = jumpEffect next c k (if p then some (t, false) else none) := by
  by_cases hp : p
  · rw [if_pos hp, if_pos (hb.mpr hp)]; rfl
  · rw [if_neg hp, if_neg (mt hb.mp hp)]; rfl

/-- Each of these instructions is a control effect with the destination that its rule gives. -/
theorem exec_jump {s : State} {i : Instr} {rd : SReg → W64} {dest : Option (W64 × Bool)}
    (h : jumpRule s.iss.slot rd i = some dest) :
    ∃ f, exec i s = ctlOp s i f ∧ ∀ k c, f rd k c = jumpEffect s.nextPc c k dest := by
  cases i with
  | nop sc => cases h; exact ⟨fun _ _ c => c.step s.nextPc, rfl, fun _ _ => rfl⟩
  | brZ sc a d =>
    cases h
    exact ⟨fun rd k c => if rd a == 0 then c.goto k (target s.iss.slot d) else c.step s.nextPc, rfl,
      fun k c => branch_effect _ c k _ beq_iff_eq⟩
  | brNz sc a d =>
    cases h
    exact ⟨fun rd k c => if rd a != 0 then c.goto k (target s.iss.slot d) else c.step s.nextPc, rfl,
      fun k c => branch_effect _ c k _ bne_iff_ne⟩
  | jmp sc d => cases h; exact ⟨fun _ k c => c.goto k (target s.iss.slot d), rfl, fun _ _ => rfl⟩
  | jmpr sc b => cases h; exact ⟨fun rd k c => c.gotoReg k (rd b), rfl, fun _ _ => rfl⟩
  | _ => cases h

/-- Settles O14: each instruction is a control effect (`exec_jump`), and a transfer goes to its target or is a code-range fault
(`transfer_ok`, `transfer_error`). -/
theorem branchesAndJumps : Obligations.BranchesAndJumps := by
  unfold Obligations.BranchesAndJumps
  intro s i rd k c dest h hd
  obtain ⟨f, he, hf⟩ := exec_jump hd
  rw [he]
  cases dest with
  | none => exact ctlOp_done h (hf k c)
  | some t =>
    exact ⟨fun ht => ctlOp_done h ((hf k c).trans (transfer_ok ht)),
      fun ht => ctlOp_fault h ((hf k c).trans (transfer_error ht))⟩

end Sys2Proof.Proofs
end

section
/-! ## O47: a completion event
SUPPORT, then the statement. The register that a list of writes leaves is that of its last write to it; a flight that
lands lowers its flag and its pending bits; an acquire changes no unit. -/

namespace Sys2Proof.Proofs

open Sys2Proof Sys2Proof.Machine Sys2Proof.Laws

/-! ### Registers after a list of writes -/

/-- The last write of a list is that of its tail, or else that of its head. -/
theorem lastV_cons (w : RegW) (ws : List RegW) (l p : Nat) : lastV (w :: ws) l p = (lastV ws l p).or (lastV [w] l p) := by
  simp only [lastV, List.reverse_cons, List.findSome?_append, List.reverse_nil, List.nil_append]

theorem lastS_cons (w : RegW) (ws : List RegW) (n : Nat) : lastS (w :: ws) n = (lastS ws n).or (lastS [w] n) := by
  simp only [lastS, List.reverse_cons, List.findSome?_append, List.reverse_nil, List.nil_append]

theorem lastM_cons (w : RegW) (ws : List RegW) (n : Nat) : lastM (w :: ws) n = (lastM ws n).or (lastM [w] n) := by
  simp only [lastM, List.reverse_cons, List.findSome?_append, List.reverse_nil, List.nil_append]

/-- A lane's register below 256, numbered with its lane. -/
theorem laneReg_inj {l l' p p' : Nat} (hp : p < 256) (hp' : p' < 256) :
    l * 256 + p = l' * 256 + p' ↔ l' = l ∧ p' = p := by omega

theorem vget_writes {ws : List RegW} (hws : ∀ w ∈ ws, match w with | .v _ p _ => p < 256 | _ => True) (g : Group)
    (l : Nat) {p : Nat} (hp : p < 256) : (g.writes ws).vget l p = (lastV ws l p).getD (g.vget l p) := by
  induction ws generalizing g with
  | nil => rfl
  | cons w ws ih =>
    rw [writes_cons, ih (fun u hu => hws u (List.mem_cons_of_mem _ hu)), vget_write, lastV_cons, Option.getD_or]
    congr 1
    cases w with
    | v l' p' y =>
      have hp' : p' < 256 := hws _ List.mem_cons_self
      simp only [laneReg_inj hp hp']
      by_cases h : l' = l ∧ p' = p <;> simp [lastV, h]
    | s n y => rfl
    | m n y => rfl

theorem sregD_writes (ws : List RegW) (g : Group) (n : Nat) :
    (g.writes ws).sregD n = (lastS ws n).getD (g.sregD n) := by
  induction ws generalizing g with
  | nil => rfl
  | cons w ws ih =>
    rw [writes_cons, ih, sregD_write, lastS_cons, Option.getD_or]
    congr 1
    cases w with
    | s n' y =>
      by_cases h : n = n'
      · simp [lastS, h]
      · simp [lastS, h, Ne.symm h]
    | v l p y => rfl
    | m n' y => rfl

theorem mreg_writes (ws : List RegW) (g : Group) (n : Nat) :
    (g.writes ws).mreg n = (lastM ws n).getD (g.mreg n) := by
  induction ws generalizing g with
  | nil => rfl
  | cons w ws ih =>
    rw [writes_cons, ih, mreg_write, lastM_cons, Option.getD_or]
    congr 1
    cases w with
    | m n' y =>
      by_cases h : n = n'
      · simp [lastM, h]
      · simp [lastM, h, Ne.symm h]
    | v l p y => rfl
    | s n' y => rfl

/-! ### A flight that lands -/

/-- A table after the entries of a list of keys are erased. -/
theorem has_clearAll (ks : List Nat) (t : Tab Bool) (n : Nat) :
    Tab.has (clearAll t ks) n = (Tab.has t n && !ks.contains n) := by
  induction ks generalizing t with
  | nil => simp [clearAll]
  | cons k ks ih =>
    have hk : Tab.has (Tab.erase t k) n = (Tab.has t n && !(n == k)) := by
      by_cases h : n = k
      · simp [Tab.has, h]
      · simp [Tab.has, h, get?_erase_ne h]
    rw [clearAll, List.foldl_cons, ← clearAll, ih, hk, List.contains_cons, Bool.not_or, Bool.and_assoc]

theorem flag_dropFlag (g : Group) (m n : Nat) :
    (g.dropFlag m).flag n = if n = m ∧ n ≠ 0 then g.flag n - 1 else g.flag n := by
  unfold Group.dropFlag
  by_cases hm : m = 0
  · rw [if_pos hm, if_neg (by omega)]
  · simp only [if_neg hm, Group.flag, getD_put]
    by_cases hn : n = m
    · rw [if_pos hn, if_pos (by omega), hn]
    · rw [if_neg hn, if_neg (by omega)]

/-- A group after a flight landed, with the fields of `land` that the writes and the flag do not reach. -/
theorem land_frame (g : Group) (f : Flight) : g.land f = { g with
    v := (g.land f).v, sreg := (g.land f).sreg, m := (g.land f).m, flags := (g.land f).flags
    pendV := clearAll g.pendV f.pendV, pendS := clearAll g.pendS f.pendS, pendM := clearAll g.pendM f.pendM
    flights := g.flights.filter fun e => e.id != f.id
    hold := if g.hold = some f.id then none else g.hold } := by
  unfold Group.land Group.dropFlag
  rw [writes_frame]
  split <;> rfl

theorem land_pend (g : Group) (f : Flight) : (g.land f).pendV = clearAll g.pendV f.pendV ∧
    (g.land f).pendS = clearAll g.pendS f.pendS ∧ (g.land f).pendM = clearAll g.pendM f.pendM := by
  rw [land_frame]
  exact ⟨rfl, rfl, rfl⟩

theorem land_flights (g : Group) (f : Flight) : (g.land f).flights = g.flights.filter (fun e => e.id != f.id) := by
  rw [land_frame]

theorem land_hold (g : Group) (f : Flight) : (g.land f).hold = if g.hold = some f.id then none else g.hold := by
  rw [land_frame]

theorem flag_land (g : Group) (f : Flight) (n : Nat) :
    (g.land f).flag n = if n = f.flag ∧ n ≠ 0 then g.flag n - 1 else g.flag n := by
  have hw : (g.writes f.writes).flag n = g.flag n := by rw [writes_frame]; rfl
  rw [← hw]
  exact flag_dropFlag _ _ _

/-! ### Acquires -/

@[simp] theorem units_acquireDrop (s : State) (core vf : Nat) : units (acquireDrop s core vf) = units s := by
  unfold acquireDrop
  refine units_foldS s (fun s g => ?_) _
  dsimp only
  rw [apply_ite units, units_updCore, units_updCore, ite_self, units_flushGrain]

@[simp] theorem units_acquireAt (s : State) (core vf : Nat) (sc : MScope) : units (acquireAt s core vf sc) = units s := by
  unfold acquireAt
  dsimp only
  split
  · rw [units_foldS _ fun s g => units_purgeGrain s core g]
    split <;> simp
  · split <;> simp

/-- R191: an acquire below .CLU does nothing to a core. -/
theorem acquireAt_narrow (s : State) (core vf : Nat) {sc : MScope} (h : sc = .grp ∨ sc = .team) :
    acquireAt s core vf sc = s := by
  rcases h with rfl | rfl <;> rfl

/-- The acquire action of a flight, where it has one. -/
def acquireOf (s : State) (x : GCtx) (f : Flight) : State :=
  match f.acq with
  | some sc => acquireAt s x.core x.vf sc
  | none => s

theorem exec_completionEvent {s : State} {k : Nat} {x : GCtx} {f : Flight} (hx : s.gctx k = some x)
    (hf : x.g.flights.find? (fun e => e.id == f.id) = some f) (hw : f.wait = 0) :
    exec (.completionEvent k f.id) s = .next (acquireOf (s.setGroup k (x.g.land f)) x f) := by
  change execCompletionEvent k f.id s = _
  unfold execCompletionEvent acquireOf
  simp only [hx, hf, hw, ne_eq, not_true_eq_false, if_false]
  cases f.acq <;> rfl

theorem units_acquireOf (s : State) (x : GCtx) (f : Flight) : units (acquireOf s x f) = units s := by
  unfold acquireOf
  split <;> simp

theorem acquireOf_narrow (s : State) (x : GCtx) {f : Flight} (h : ∀ sc, f.acq = some sc → sc = .grp ∨ sc = .team) :
    acquireOf s x f = s := by
  unfold acquireOf
  split
  · next sc hsc => exact acquireAt_narrow s _ _ (h sc hsc)
  · rfl

/-- Settles O47: the event is `land`, whose registers are those of the last writes, and an acquire that leaves the units. -/
theorem completionEvent : Obligations.CompletionEvent := by
  intro s k x f hx hf hw hv
  have hu := units_acquireOf (s.setGroup k (x.g.land f)) x f
  obtain ⟨hrv, hrs, hrm⟩ := land_regs x.g f
  obtain ⟨hpv, hps, hpm⟩ := land_pend x.g f
  refine ⟨_, x.g.land f, exec_completionEvent hx hf hw, groups_of_units hu, (teams_of_units hu :), (grids_of_units hu :), ?_,
    fun l p hp => ?_, fun n => ?_, fun n => ?_, flag_land x.g f, fun n => ?_, fun n => ?_, fun n => ?_, land_flights x.g f,
    land_hold x.g f, fun ha => ?_⟩
  · rw [hpv, hps, hpm, land_flights, land_hold]
    exact land_frame x.g f
  · rw [← vget_writes hv x.g l hp]
    simp only [Group.vget, hrv]
  · rw [← sregD_writes]
    simp only [Group.sregD, hrs]
  · rw [← mreg_writes]
    simp only [Group.mreg, hrm]
  · rw [hpv, has_clearAll]
  · rw [hps, has_clearAll]
  · rw [hpm, has_clearAll]
  · rw [acquireOf_narrow _ _ ha]
    exact ⟨rfl, rfl⟩

end Sys2Proof.Proofs
end

section
/-! ## O43: a step runs what the word at the pc decodes to
SUPPORT, then the statement. What is chosen first; the slot that a fetch gives a group, and the move of a group that stands
at it; the walk of an upper sequencer that stands at a slot of its own; what a fetch reads and leaves. -/

namespace Sys2Proof.Proofs

open Sys2Proof Sys2Proof.Machine Sys2Proof.Laws

/-! ### What happens next -/

theorem step_of_choose {s t : State} {i : Instr} (h : choose s = .run i t) : step s = exec i t := by
  unfold step
  rw [h]

/-- Nothing happens at once where every message is one that others may overtake. -/
theorem atOnce_none {s : State} (h : ∀ j ∈ s.agenda, delayable j = true) : atOnce s = none := by
  unfold atOnce
  rw [List.findSome?_eq_none_iff]
  intro p hp
  rw [if_pos (h p.1 (List.fst_mem_of_mem_zipIdx hp))]

/-- What the schedule names is the step, where it can happen and nothing is due at once. -/
theorem step_scheduled {s t : State} {p : Pick} {i : Instr} (h : ∀ j ∈ s.agenda, delayable j = true)
    (hm : pickMove s p = some (.run i t)) : step { s with sched := p :: s.sched } = exec i t := by
  apply step_of_choose
  have hs : scheduled { s with sched := p :: s.sched } = pickMove s p := rfl
  unfold choose
  rw [atOnce_none (s := { s with sched := p :: s.sched }) h, hs, hm]

/-- With no schedule the first message is the step, or else the next input. -/
theorem step_unscheduled {s t : State} {i : Instr} (h : ∀ j ∈ s.agenda, delayable j = true) (hs : s.sched = [])
    (hm : firstMessage s = some (.run i t) ∨ firstMessage s = none ∧ inputMove s = some (.run i t)) :
    step s = exec i t := by
  apply step_of_choose
  have hn : scheduled s = none := by unfold scheduled; rw [hs]
  have hd : { s with sched := s.sched.drop 1 } = s := by rw [hs, List.drop_nil, ← hs]
  unfold choose
  rw [atOnce_none h, hn]
  dsimp only
  rw [hd]
  rcases hm with hm | ⟨hf, hm⟩
  · rw [hm]
  · rw [hf, hm]

/-- A message is held by the paths alone, wherever it waits. -/
theorem messageHeld_agenda (s : State) (es : List Instr) (i : Instr) :
    messageHeld { s with agenda := es } i = messageHeld s i := rfl

/-- The first message shares a path with none before it. -/
theorem mayArrive_zero (s : State) (i : Instr) : mayArrive s 0 i = !messageHeld s i := by
  simp only [mayArrive, List.take_zero, List.all_nil, Bool.true_and]

theorem deliverAt_some {s : State} {n : Nat} {i : Instr} (hn : s.agenda[n]? = some i) (ha : mayArrive s n i = true) :
    deliverAt s n = some (.run i { s with agenda := s.agenda.eraseIdx n }) := by
  unfold deliverAt
  rw [hn]
  exact if_pos ha

theorem foremost_zero (s : State) (fuel : Nat) : foremost s fuel 0 = 0 := by
  cases fuel with
  | zero => rfl
  | succ fuel =>
    unfold foremost
    split
    · rfl
    · rw [List.take_zero, List.findIdx?_nil]

/-- The event at the head happens at once, where it is no message that others may overtake. -/
theorem step_head {s : State} {i : Instr} (hd : delayable i = false) (hh : messageHeld s i = false) :
    step { s with agenda := i :: s.agenda } = exec i s := by
  apply step_of_choose
  have ha : mayArrive { s with agenda := i :: s.agenda } 0 i = true := by
    rw [mayArrive_zero, messageHeld_agenda, hh]
    rfl
  have ho : atOnce { s with agenda := i :: s.agenda } = some (.run i s) := by
    unfold atOnce
    rw [List.zipIdx_cons, List.findSome?_cons, foremost_zero, deliverAt_some rfl ha, hd]
    rfl
  unfold choose
  rw [ho]

/-- The first message, where it may arrive. -/
theorem firstMessage_head {s : State} {i : Instr} (hn : s.agenda[0]? = some i) (ha : mayArrive s 0 i = true) :
    firstMessage s = some (.run i { s with agenda := s.agenda.drop 1 }) := by
  have hz : s.agenda.zipIdx.find? (fun p => mayArrive s p.2 p.1) = some (i, 0) := by
    cases hs : s.agenda with
    | nil => rw [hs] at hn; cases hn
    | cons j es =>
      rw [hs] at hn
      cases hn
      exact List.find?_cons_of_pos (p := fun p : Instr × Nat => mayArrive s p.2 p.1) ha
  unfold firstMessage
  rw [hz, Option.bind_some, deliverAt_some hn ha, List.eraseIdx_zero, List.drop_one]

theorem inputMove_head {s : State} {i : Instr} (hf : fromOutside i = true) (hw : inputWaits s i = false) :
    inputMove { s with inputs := i :: s.inputs } = some (.run i s) := by
  have hw' : inputWaits { s with inputs := i :: s.inputs } i = false := hw
  unfold inputMove
  dsimp only
  rw [hw', hf]
  rfl

/-! ### The slot of a group -/

/-- The class of a word is the high part of its OP (R74). -/
theorem class_of_op (w : W32) : (w.extractLsb' 29 3).toNat = Sys2Proof.opOf w / 256 := by
  have h : Sys2Proof.opOf w = w.toNat >>> 21 % 2 ^ 11 := by
    rw [Sys2Proof.opOf, BitVec.extractLsb'_toNat]
  rw [h, BitVec.extractLsb'_toNat, Nat.shiftRight_eq_div_pow, Nat.shiftRight_eq_div_pow]
  omega

/-- The slot of an instruction's word in a pace word's sheaf, issued with a record. -/
def slotWith (i : Instr) (iss : Issue) (pace : W32) (n : Nat) : Slot :=
  ⟨i, iss, paceDist pace n, if paceWslot pace = n then paceWait pace else 0⟩

theorem slotOf_plain {k : Nat} {paced : Bool} {pc : W64} {e : Option W64} {pace w w2 : W32}
    (h : decode w ≠ .prefixWord) : slotOf (.group k) paced pc e pace w w2 =
      slotWith (instrOf (decode w)) (issueRecord k paced pc pace w) pace (slotIndex pc) := by
  unfold slotOf
  dsimp only
  split
  · next hd => exact absurd hd h
  · rw [← class_of_op]
    rfl

/-- The record of a slot that issues with the modifying word before it (R78, R79). -/
def prefixRecord (k : Nat) (paced : Bool) (pc : W64) (pace w w2 : W32) : Issue :=
  ⟨.group k, pc, pc + 4, some (prefixOf w), paceSetf pace (slotIndex pc + 1),
    paced && (paceDefect pace (slotIndex pc) true || paceDefect pace (slotIndex pc + 1) false), (w2.extractLsb' 29 3).toNat⟩

theorem slotOf_prefix {k : Nat} {paced : Bool} {pc : W64} {e : Option W64} {pace w w2 : W32} {i : Instr}
    (hw : decode w = .prefixWord) (hi : decode w2 = .instr i) (hn : slotIndex pc ≠ 3) (he : e ≠ some (pc + 4)) :
    slotOf (.group k) paced pc e pace w w2 =
      slotWith i (prefixRecord k paced pc pace w w2) pace (slotIndex pc + 1) := by
  have hbad : (slotIndex pc == 3 || e == some (pc + 4)) = false := by
    rw [Bool.or_eq_false_iff, beq_eq_false_iff_ne, beq_eq_false_iff_ne]
    exact ⟨hn, he⟩
  unfold slotOf
  simp only [hw, hi, hbad, ← class_of_op, Bool.not_false, Bool.true_and, Bool.false_eq_true, if_false, beq_iff_eq]
  rfl

variable {s : State} {k : Nat} {x : GCtx}

theorem slotAt_plain (h : s.gctx k = some x) {w pace : W32} {d : Decoded}
    (hw : fetchWord s (.group k) x.g.ctl.pc = .word w) (hp : fetchWord s (.group k) (sheafBase x.g.ctl.pc) = .word pace)
    (hd : decode w = d) (hne : d ≠ .prefixWord) : slotAt s x = .ok (slotWith (instrOf d)
      (issueRecord k x.gr.kcb.paced x.g.ctl.pc pace w) pace (slotIndex x.g.ctl.pc)) := by
  subst hd
  have ho : decide (Sys2Proof.opOf w = 0x7FE) = false := decide_eq_false fun ho => hne ((decode_prefix_iff w).mpr ho)
  unfold slotAt fetchSlot
  simp only [gctx_k h, hw, hp, ho, slotOf_plain hne, Bool.false_and, Bool.false_eq_true, if_false]

theorem slotAt_prefix (h : s.gctx k = some x) {w w2 pace : W32} {i : Instr}
    (hw : fetchWord s (.group k) x.g.ctl.pc = .word w) (hp : fetchWord s (.group k) (sheafBase x.g.ctl.pc) = .word pace)
    (hw2 : fetchWord s (.group k) (x.g.ctl.pc + 4) = .word w2) (hd : decode w = .prefixWord) (hi : decode w2 = .instr i)
    (hn : slotIndex x.g.ctl.pc ≠ 3) (he : ∀ r, x.g.run = some r → x.g.ctl.pc + 4 ≠ r.end_) :
    slotAt s x = .ok (slotWith i (prefixRecord k x.gr.kcb.paced x.g.ctl.pc pace w w2) pace (slotIndex x.g.ctl.pc + 1)) := by
  have ho : (decide (Sys2Proof.opOf w = 0x7FE) && slotIndex x.g.ctl.pc != 3) = true := by
    rw [Bool.and_eq_true, decide_eq_true_eq, bne_iff_ne]
    exact ⟨(decode_prefix_iff w).mp hd, hn⟩
  have he' : x.g.run.map (·.end_) ≠ some (x.g.ctl.pc + 4) := by
    rw [Ne, Option.map_eq_some_iff]
    rintro ⟨r, hr, hpc⟩
    exact he r hr hpc.symm
  unfold slotAt fetchSlot
  simp only [gctx_k h, hw, hp, hw2, ho, if_true, slotOf_prefix hd hi hn he']

/-! ### The move of a group at a slot -/

/-- A unit is not held where no second-stage fault waits for it (R398). -/
theorem held2_eq_false {s : State} {u : UnitId} (h : ∀ w ∈ s.s2waits, w.unit ≠ u) : held2 s u = false := by
  unfold held2
  rw [List.any_eq_false]
  intro w hw
  rw [beq_iff_eq]
  exact h w hw

section AtSlot

variable (h : AtSlot s k x)
include h

theorem landMove_atSlot : landMove s k x.g = none := by
  unfold landMove
  rw [Option.map_eq_none_iff, List.find?_eq_none]
  intro f hf
  rw [Bool.and_eq_true, beq_iff_eq]
  rintro ⟨hw, hd⟩
  cases hdue : f.due with
  | none => rw [hdue] at hd; cases hd
  | some d =>
    rw [hdue, decide_eq_true_eq] at hd
    exact absurd (h.flights f hf hw d hdue) (Nat.not_lt.mpr hd)

theorem relMove_atSlot : relMove s k = none := by
  have hfirst : relFirst s k = none := by
    unfold relFirst
    simp only [h.ctx, h.rels]
  unfold relMove recordsTurn relDue
  simp only [hfirst, Bool.false_eq_true, if_false, Option.map_none]

theorem ldbMove_atSlot : ldbMove s k = none := by
  unfold ldbMove
  rw [Option.map_eq_none_iff, List.find?_eq_none]
  intro w hw
  rw [Bool.and_eq_true, beq_iff_eq]
  exact fun hg => h.loads w hw hg.1

theorem bankMove_atSlot : bankMove s k x.g = none := by
  unfold bankMove
  split
  · next o os ho =>
    rw [h.served.1 o (ho ▸ List.mem_cons_self)]
    rfl
  · rfl

theorem remoteMove_atSlot : remoteMove s k x.g = none := by
  unfold remoteMove
  rw [h.served.2]
  rfl

theorem runningMove_atSlot : runningMove s x = issueMove s x := by
  obtain ⟨_, hstop, hsf⟩ := h.running
  obtain ⟨r, hrun, hpc⟩ := h.inRun
  have hheld : held2 s (.group x.k) = false := held2_eq_false (gctx_k h.ctx ▸ h.free)
  unfold runningMove
  simp only [hstop, mustStop, hsf, hheld, (inRange_iff _ _).mpr h.inCode, hrun, if_neg hpc, Bool.false_and,
    Bool.false_eq_true, if_false, Bool.not_true]

/-- Nothing of a group comes before its own slot. -/
theorem groupMove_atSlot : groupMove s k = issueMove s x := by
  unfold groupMove stateMove
  simp only [h.ctx, landMove_atSlot h, relMove_atSlot h, ldbMove_atSlot h, bankMove_atSlot h, remoteMove_atSlot h,
    h.running.1, runningMove_atSlot h]
  cases issueMove s x <;> rfl

end AtSlot

/-- The step of a group at a slot that may issue. -/
theorem step_slot (h : AtSlot s k x) {i : Instr} {iss : Issue} {pace : W32} {n : Nat}
    (hs : slotAt s x = .ok (slotWith i iss pace n)) (hi : Issuable s k x i iss pace n) :
    step { s with sched := .unit (.group k) :: s.sched } =
      exec i { fetchFill s (.group k) x.g.ctl.pc with iss := iss } := by
  have hk := gctx_k h.ctx
  obtain ⟨hready, hquad, hnext⟩ := hi
  apply step_scheduled (fun j hj => by rw [h.first.1] at hj; cases hj)
  change groupMove s k = _
  rw [groupMove_atSlot h]
  unfold issueMove
  have hready' : slotReady s x (slotWith i iss pace n) = .yes := hready
  simp only [hs, hready']
  rw [hk]
  simp only [slotWith, hquad, hnext, moveIf, Bool.and_self, if_true]

/-! ### An upper sequencer at a slot of its own scope -/

/-- The walk stands at the slot from which it begins, where the sequencer stops there. -/
theorem scan_own {s : State} {u : UnitId} {kcb : Kcb} {own : Option W64} {pc : W64} {w : W32} (hown : own ≠ some pc)
    (hin : codeOk kcb pc) (hw : fetchWord s u pc = .word w) (hl : levelOf w = lvlOfUnit u) (hu : lvlOfUnit u ≠ .g) :
    scan s u kcb own pc = .slot pc w := by
  unfold scan scanFrom
  simp only [if_neg hown, (inRange_iff kcb pc).mpr hin, hw, hl, Bool.not_true, Bool.false_eq_true, if_false]
  cases hlvl : lvlOfUnit u with
  | g => exact absurd hlvl hu
  | t => rfl
  | d => rfl

/-- The walk of sequencer `u` stands at a slot of its own scope whose word is instruction `i`: nothing stops or holds it, its
vote is taken where the slot asks one, and a launch waits no more. -/
structure WalkAt (s : State) (u : UnitId) (kcb : Kcb) (q : Seq) (w : W32) (i : Instr) : Prop where
  fetching : q.st = .fetch ∧ q.stopReq = .none
  free : ∀ v ∈ s.s2waits, v.unit ≠ u
  inCode : codeOk kcb q.ctl.pc
  inRun : ∀ r, q.run = some r → q.ctl.pc ≠ r.end_
  fetched : fetchWord s u q.ctl.pc = .word w ∧ decode w = .instr i
  scope : scopeOf i = lvlOfUnit u ∧ lvlOfUnit u ≠ .g
  voted : askOf i = .none ∨ q.voted.isSome = true ∨ (featureTrap s u (featuresOf i)).isSome = true
  launch : isLaunch i = false ∨ launchReady s u = true

section WalkAt

variable {s : State} {u : UnitId} {kcb : Kcb} {q : Seq} {w : W32} {i : Instr} (h : WalkAt s u kcb q w i)
include h

theorem levelOf_walkAt : levelOf w = lvlOfUnit u := by
  unfold levelOf
  rw [(decode_instr h.fetched.2).1]
  exact h.scope.1

/-- A vote that is taken, and a launch that is ready, let the slot execute. -/
theorem ownSlot_walkAt :
    ownSlot s u q q.ctl.pc w = some (.run i { fetchFill s u q.ctl.pc with iss := Issue.at u q.ctl.pc }) := by
  have hvote : (decide (askOf i ≠ .none) && q.voted.isNone && (featureTrap s u (featuresOf i)).isNone) = false := by
    rcases h.voted with hv | hv | hv
    · rw [hv]
      rfl
    · rw [← Option.not_isSome q.voted, hv, Bool.not_true, Bool.and_false, Bool.false_and]
    · rw [← Option.not_isSome (featureTrap _ _ _), hv, Bool.not_true, Bool.and_false]
  have hlaunch : (isLaunch i && !launchReady s u) = false := by
    rcases h.launch with hl | hl
    · rw [hl, Bool.false_and]
    · rw [hl, Bool.not_true, Bool.and_false]
  unfold ownSlot
  simp only [h.fetched.2, instrOf, hvote, hlaunch, Bool.false_eq_true, if_false]

theorem walkMove_walkAt :
    walkMove s u kcb q = some (.run i { fetchFill s u q.ctl.pc with iss := Issue.at u q.ctl.pc }) := by
  have hown : (if q.ctl.frame.isNone then q.run.map (·.end_) else none) ≠ some q.ctl.pc := by
    split
    · rw [Ne, Option.map_eq_some_iff]
      rintro ⟨r, hr, hpc⟩
      exact h.inRun r hr hpc.symm
    · exact (Option.some_ne_none _).symm
  have hlvl := levelOf_walkAt h
  unfold walkMove
  simp only [scan_own hown h.inCode h.fetched.1 hlvl h.scope.2, ne_eq, not_true_eq_false, if_false, hlvl,
    beq_self_eq_true, if_true, ownSlot_walkAt h]

theorem seqMove_walkAt :
    seqMove s u kcb q = some (.run i { fetchFill s u q.ctl.pc with iss := Issue.at u q.ctl.pc }) := by
  unfold seqMove
  simp only [h.fetching.1, h.fetching.2, held2_eq_false h.free, ne_eq, not_true_eq_false, Bool.false_eq_true, if_false,
    walkMove_walkAt h]

end WalkAt

/-! ### What a fetch leaves and reads (R396, R399) -/

theorem coreD_fillWalk (s : State) (asid va c : Nat) : (fillWalk s asid va).coreD c = s.coreD c := by
  obtain ⟨w, w2, h⟩ := fillWalk_eq s asid va
  rw [h]
  rfl

/-- A core that gets an entry of its TLB; one that is not in service stays as it is. -/
theorem coreD_addTlb (s : State) (core c : Nat) (e : TlbEnt) :
    ∃ t, (s.updCore core fun x => { x with tlb := e :: x.tlb }).coreD c = { s.coreD c with tlb := t } := by
  simp only [State.coreD, updCore_cores, getD_def, get?_modify]
  split
  · cases s.cores.get? c with
    | none => exact ⟨_, rfl⟩
    | some x => exact ⟨e :: x.tlb, rfl⟩
  · exact ⟨_, rfl⟩

/-- Filling a TLB changes that TLB of that core. -/
theorem coreD_fillTlb (s : State) (core asid va c : Nat) :
    ∃ t, (fillTlb s core asid va false).coreD c = { s.coreD c with tlb := t } := by
  unfold fillTlb
  simp only [Bool.false_eq_true, if_false]
  split
  · exact ⟨_, rfl⟩
  · split
    · next e _ =>
      rw [← coreD_fillWalk s asid va c]
      exact coreD_addTlb _ core c e
    · exact ⟨_, rfl⟩

theorem fetchFill_frame (s : State) (u : UnitId) (a : W64) :
    ∃ w w2 cs, fetchFill s u a = { s with walk := w, walk2 := w2, cores := cs } := by
  unfold fetchFill
  split
  · exact fillTlb_eq s _ _ _
  · obtain ⟨w, w2, h⟩ := fillWalk_eq s (s.asidOf u) a.toNat
    exact ⟨w, w2, s.cores, h⟩

theorem coreD_fetchFill (s : State) (u : UnitId) (a : W64) (c : Nat) :
    ∃ t, (fetchFill s u a).coreD c = { s.coreD c with tlb := t } := by
  unfold fetchFill
  split
  · exact coreD_fillTlb s _ _ _ c
  · exact ⟨_, coreD_fillWalk s _ _ c⟩

/-- A byte of this device's memory outside the time page, where no directory entry stands. -/
theorem peekByte_home {s : State} {a : Nat} (hd : s.dirs = []) (hr : isRemote a = false)
    (ht : s.fab.timeFrame ≠ some (frameOf a)) : peekByte s a = memGet s.mem a := by
  have hh : s.homeRead a 1 = [memGet s.mem a] := by
    simp only [State.homeRead, hr, if_neg ht, Bool.false_eq_true, if_false]
    rfl
  unfold peekByte
  rw [hd, List.find?_nil, hh]
  rfl

theorem noData_home {s : State} {pa n : Nat} (hp : s.poison = []) (hr : isRemote pa = false) : s.noData pa n = false := by
  simp only [State.noData, State.poisoned, State.cutOff, hp, hr, List.any_nil, Bool.false_and, Bool.or_false]

theorem fetchWord_home {s : State} {u : UnitId} {a : W64} {y : Xlat} (hy : fetchXlat s u a = .ok y) (hd : s.dirs = [])
    (hp : s.poison = []) (hm : ∀ n < 4, isRemote (y.pa + n) = false ∧ s.fab.timeFrame ≠ some (frameOf (y.pa + n))) :
    fetchWord s u a = .word (memGet s.mem (y.pa + 3) ++ (memGet s.mem (y.pa + 2) ++
      (memGet s.mem (y.pa + 1) ++ memGet s.mem y.pa))) := by
  have hbytes : peek s y.pa 4 = (List.range 4).map fun n => memGet s.mem (y.pa + n) :=
    List.map_congr_left fun n hn => by
      obtain ⟨hr, ht⟩ := hm n (List.mem_range.mp hn)
      exact peekByte_home hd hr ht
  have hdata : s.noData y.pa 4 = false := noData_home hp (hm 0 (by decide)).1
  unfold fetchWord
  simp only [hy, hdata, hbytes, Bool.false_eq_true, if_false]
  rfl

/-! ### The statement -/

/-- Settles O43, one clause after another: a group's slot, the walk of a team and of a grid, the fetch, the order of what
happens. -/
theorem stepRunsDecoded : Obligations.StepRunsDecoded := by
  refine ⟨?_, ?_, ?_, ?_, ?_, fun s u a => ⟨fetchFill_frame s u a, coreD_fetchFill s u a⟩, fun s i => step_head, ?_, ?_,
    fun s u a y => fetchWord_home⟩
  · intro s k x w pace i h pc iss hw hp hd hi
    exact step_slot h (slotAt_plain h.ctx hw hp hd nofun) hi
  · intro s k x w w2 pace i h pc n p iss hw hp hw2 hd hdi hn he hi
    exact step_slot h (slotAt_prefix h.ctx hw hp hw2 hd hdi hn he) hi
  · intro s k x w pace why h pc iss hw hp hd hi
    exact step_slot h (slotAt_plain h.ctx hw hp hd nofun) hi
  · intro s t x w i ha _ hx hst hstop hheld hin hrun hw hd hsc hvote hlaunch
    refine step_scheduled (fun j hj => by rw [ha] at hj; cases hj) ?_
    change teamMove s t = _
    unfold teamMove
    rw [hx]
    exact seqMove_walkAt ⟨⟨hst, hstop⟩, hheld, hin, hrun, ⟨hw, hd⟩, ⟨hsc, nofun⟩, hvote, hlaunch⟩
  · intro s n g w i ha _ hg hwhole hrun' hgs hst hstop hheld hin hrun hw hd hsc hvote hlaunch
    refine step_scheduled (fun j hj => by rw [ha] at hj; cases hj) ?_
    change gridMove s n = _
    unfold gridMove
    simp only [hg, hwhole, hrun', hgs, decide_true, Bool.and_self, if_true]
    exact seqMove_walkAt ⟨⟨hst, hstop⟩, hheld, hin, hrun, ⟨hw, hd⟩, ⟨hsc, nofun⟩, hvote, hlaunch⟩
  · intro s i n hall hn ha
    refine ⟨step_scheduled hall (deliverAt_some hn ha), ?_⟩
    rintro rfl hs
    exact step_unscheduled hall hs (.inl (firstMessage_head hn ha))
  · intro s i ha hf hw
    have hall : ∀ j ∈ s.agenda, delayable j = true := fun j hj => by rw [ha] at hj; cases hj
    have hm := inputMove_head hf hw
    refine ⟨step_scheduled (s := { s with inputs := i :: s.inputs }) hall hm, fun hs => ?_⟩
    have hnone : firstMessage { s with inputs := i :: s.inputs } = none := by
      unfold firstMessage
      rw [ha, List.zipIdx_nil, List.find?_nil, Option.bind_none]
    exact step_unscheduled hall hs (.inr ⟨hnone, hm⟩)

end Sys2Proof.Proofs
end

section
/-! ## Elements of a register, and draws
SUPPORT. Elements as numbers and as bit vectors (R42, R134), integers of n bits (R37), the generators after a draw (R47), and
what an issue says of its `pfx` (R81). -/

namespace Sys2Proof.Proofs

open Sys2Proof Sys2Proof.Machine Sys2Proof.Laws

/-! ### Elements (R42, R134) -/

theorem testBit_elemAt (n x e i : Nat) : (elemAt n x e).testBit i = (decide (i < n) && x.testBit (n * e + i)) := by
  rw [elemAt, Nat.testBit_mod_two_pow, Nat.testBit_div_two_pow, Nat.add_comm]

theorem ofNat_mod_two_pow (n x : Nat) : BitVec.ofNat n (x % 2 ^ n) = BitVec.ofNat n x :=
  BitVec.eq_of_toNat_eq (by simp only [BitVec.toNat_ofNat, Nat.mod_mod])

theorem elemAt_lt (n x e : Nat) : elemAt n x e < 2 ^ n := Nat.mod_lt _ (Nat.two_pow_pos n)

/-- An element of the low register of a pair. -/
theorem elemOf_toNat (hi x : W32) {n e : Nat} (h : n * e + n ≤ 32) : (elemOf n (hi ++ x) e).toNat = elemAt n x.toNat e := by
  apply Nat.eq_of_testBit_eq
  intro i
  rw [testBit_elemAt, BitVec.testBit_toNat, BitVec.testBit_toNat, elemOf, BitVec.getLsbD_extractLsb', BitVec.getLsbD_append]
  by_cases hi : i < n
  · rw [if_pos (show n * e + i < 32 by omega)]
  · rw [decide_eq_false hi, Bool.false_and, Bool.false_and]

theorem elemOf_ofNat (hi : W32) (y : Nat) {n e : Nat} (h : n * e + n ≤ 32) :
    elemOf n (hi ++ BitVec.ofNat 32 y) e = BitVec.ofNat n (elemAt n y e) := by
  apply BitVec.eq_of_toNat_eq
  rw [elemOf_toNat _ _ h, BitVec.toNat_ofNat, BitVec.toNat_ofNat, Nat.mod_eq_of_lt (elemAt_lt n y e)]
  apply Nat.eq_of_testBit_eq
  intro i
  rw [testBit_elemAt, testBit_elemAt, Nat.testBit_mod_two_pow]
  by_cases hi : i < n
  · rw [decide_eq_true (show n * e + i < 32 by omega), Bool.true_and]
  · rw [decide_eq_false hi, Bool.false_and, Bool.false_and]

theorem elemAt_packElems (n : Nat) (xs : List Nat) (j : Nat) : elemAt n (packElems n xs) j = xs.getD j 0 % 2 ^ n := by
  have hpos := Nat.two_pow_pos n
  induction xs generalizing j with
  | nil => rw [packElems, elemAt, Nat.zero_div, List.getD_nil]
  | cons x xs ih =>
    have hlt : x % 2 ^ n < 2 ^ n := Nat.mod_lt _ hpos
    cases j with
    | zero => rw [elemAt, packElems, Nat.mul_zero, Nat.pow_zero, Nat.div_one, Nat.add_mul_mod_self_left, Nat.mod_mod,
        List.getD_cons_zero]
    | succ j =>
      rw [List.getD_cons_succ, ← ih, elemAt, elemAt, packElems, Nat.mul_succ, Nat.add_comm (n * j), Nat.pow_add,
        ← Nat.div_div_eq_div_mul, Nat.add_mul_div_left _ _ hpos, Nat.div_eq_of_lt hlt, Nat.zero_add]

theorem getD_map_range {α : Type} (f : Nat → α) (d : α) {n j : Nat} (hj : j < n) : ((List.range n).map f).getD j d = f j := by
  rw [List.getD_eq_getElem?_getD, List.getElem?_map, List.getElem?_range hj, Option.map_some, Option.getD_some]

/-- The elements that are put together into a register, read from it. -/
theorem elemOf_packElems (hi : W32) (xs : List Nat) {n j : Nat} (h : n * j + n ≤ 32) :
    elemOf n (hi ++ BitVec.ofNat 32 (packElems n xs)) j = BitVec.ofNat n (xs.getD j 0) := by
  rw [elemOf_ofNat _ _ h, elemAt_packElems, ofNat_mod_two_pow]

/-- `setElem` as the parts below, in and above its element. -/
theorem setElem_eq (n x j v : Nat) :
    setElem n x j v = 2 ^ (n * j) * (2 ^ n * (x / 2 ^ (n * j) / 2 ^ n) + v % 2 ^ n) + x % 2 ^ (n * j) := by
  have h1 := Nat.div_add_mod x (2 ^ (n * j))
  have h2 := Nat.div_add_mod (x / 2 ^ (n * j)) (2 ^ n)
  rw [← h2, Nat.mul_add] at h1
  rw [setElem, elemAt, Nat.mul_add, Nat.mul_comm (_ % _) (2 ^ (n * j)), Nat.mul_comm (v % _)]
  omega

theorem testBit_setElem (n x j v m : Nat) : (setElem n x j v).testBit m =
    if n * j ≤ m ∧ m < n * j + n then v.testBit (m - n * j) else x.testBit m := by
  rw [setElem_eq, Nat.testBit_two_pow_mul_add _ (Nat.mod_lt _ (Nat.two_pow_pos _)), Nat.testBit_mod_two_pow,
    Nat.testBit_two_pow_mul_add _ (Nat.mod_lt _ (Nat.two_pow_pos _)), Nat.testBit_mod_two_pow, Nat.testBit_div_two_pow,
    Nat.testBit_div_two_pow]
  by_cases hlo : m < n * j
  · rw [if_pos hlo, if_neg (by omega), decide_eq_true hlo, Bool.true_and]
  · rw [if_neg hlo]
    by_cases hin : m - n * j < n
    · rw [if_pos hin, if_pos (by omega), decide_eq_true hin, Bool.true_and]
    · rw [if_neg hin, if_neg (by omega), show m - n * j - n + n + n * j = m by omega]

/-- The bits of one element are not those of another. -/
theorem elements_apart {n e j i : Nat} (he : e ≠ j) (hi : i < n) : ¬ (n * j ≤ n * e + i ∧ n * e + i < n * j + n) := by
  rintro ⟨hlo, hhi⟩
  rcases Nat.lt_or_gt_of_ne he with he | he
  all_goals
    have := Nat.mul_le_mul_left n (Nat.succ_le_of_lt he)
    rw [Nat.mul_succ] at this
    omega

/-- R164: the element that is set, and the others. -/
theorem elemAt_setElem (n x j v e : Nat) : elemAt n (setElem n x j v) e = if e = j then v % 2 ^ n else elemAt n x e := by
  apply Nat.eq_of_testBit_eq
  intro i
  rw [testBit_elemAt, testBit_setElem]
  by_cases hi : i < n
  · by_cases he : e = j
    · subst he
      rw [if_pos (by omega), if_pos rfl, Nat.testBit_mod_two_pow, Nat.add_sub_cancel_left]
    · rw [if_neg (elements_apart he hi), if_neg he, testBit_elemAt]
  · rw [decide_eq_false hi, Bool.false_and]
    split
    · rw [Nat.testBit_mod_two_pow, decide_eq_false hi, Bool.false_and]
    · rw [testBit_elemAt, decide_eq_false hi, Bool.false_and]

theorem elemOf_setElem (hi x : W32) (j v : Nat) {n e : Nat} (h : n * e + n ≤ 32) :
    elemOf n (hi ++ BitVec.ofNat 32 (setElem n x.toNat j v)) e =
      if e = j then BitVec.ofNat n v else elemOf n (hi ++ x) e := by
  rw [elemOf_ofNat _ _ h, elemAt_setElem]
  split
  · exact ofNat_mod_two_pow ..
  · rw [← elemOf_toNat hi x h, BitVec.ofNat_toNat, BitVec.setWidth_eq]

/-! ### Integers of n bits (R37) -/

theorem signed_toNat {n : Nat} (x : BitVec n) (hn : 0 < n) : signed n x.toNat = x.toInt := by
  have h2 : 2 ^ n = 2 * 2 ^ (n - 1) := by rw [← Nat.pow_succ', Nat.succ_eq_add_one, Nat.sub_add_cancel hn]
  rw [signed, BitVec.toInt_eq_toNat_cond, h2]
  have hlt : 2 * x.toNat < 2 * 2 ^ (n - 1) ↔ x.toNat < 2 ^ (n - 1) := by omega
  simp only [hlt]

theorem wrapN_eq (n : Nat) (x : Int) : wrapN n x = (BitVec.ofInt n x).toNat := (BitVec.toNat_ofInt ..).symm

theorem satI_eq (n : Nat) (x : Int) :
    satI n x = if x < -2 ^ (n - 1) then -2 ^ (n - 1) else if 2 ^ (n - 1) ≤ x then 2 ^ (n - 1) - 1 else x := by
  have hpos : (0 : Int) < 2 ^ (n - 1) := Int.pow_pos (by decide)
  have hcast : ((2 ^ (n - 1) : Nat) : Int) = 2 ^ (n - 1) := Int.natCast_pow 2 (n - 1)
  rw [satI, hcast]
  omega

theorem wrapN_satI (n : Nat) (x : Int) : wrapN n (satI n x) = (clampI n x).toNat := by
  rw [wrapN_eq, satI_eq, clampI]

theorem wrapN_satN (n x : Nat) : wrapN n (satN n x) = min x (2 ^ n - 1) := by
  have hpos := Nat.two_pow_pos n
  have hs : satN n x = ((min x (2 ^ n - 1) : Nat) : Int) := by
    rw [satN]
    omega
  rw [wrapN, hs, Int.emod_eq_of_lt (by omega) (by omega), Int.toNat_natCast]

/-! ### Generators (R47) -/

/-- The generators that a drawing instruction leaves. -/
theorem drew_of_gens {ix : IX} {g' : Group} {mode : Rnd} {n : Nat}
    (hg : g'.gen = (ix.gens mode n).foldl (fun (t : Tab W32) (p : Nat × W32) => t.set p.1 p.2) ix.x.g.gen) :
    Drew ix g' mode n := by
  intro l
  change g'.gen.getD l _ = _
  rw [hg, IX.gens]
  by_cases hm : mode = .sr
  · rw [if_pos hm, getD_foldl_set]
    simp only [hm, true_and]
    rfl
  · rw [if_neg hm, if_neg fun h => hm h.1]
    rfl

/-! ### What the checks of R93 say of `pfx` (R81) -/

theorem issues_pfxOk {s : State} {k : Nat} {x : GCtx} {i : Instr} (h : Issues s k x i) {q : Prefix}
    (hq : s.iss.pfx = some q) : pfxOk i q = true := by
  have hc := h.clear
  unfold issueTrap at hc
  have hp := firstTrap_none (Option.map_eq_none_iff.mp hc) _ (List.mem_cons_of_mem _ List.mem_cons_self)
  simp only [hq] at hp
  by_cases hok : pfxOk i q = true
  · exact hok
  · rw [if_neg hok] at hp
    cases hp

/-- XMOD of an instruction that issues; 0 where `pfx` is none. -/
theorem issues_xmodOk {s : State} {k : Nat} {x : GCtx} {i : Instr} (h : Issues s k x i) (h0 : xmodOk i 0 = true) :
    xmodOk i (IX.of s x).xmod = true := by
  cases hq : s.iss.pfx with
  | none => simpa only [IX.of, hq] using h0
  | some q =>
    have hp := issues_pfxOk h hq
    simp only [pfxOk, Bool.and_eq_true] at hp
    simpa only [IX.of, hq] using hp.2

end Sys2Proof.Proofs
end

section
/-! ## O11 and O12: PACK and UNPK
The result of each in a lane, in the terms of the statements' `packRule` and `unpkRule`. -/

namespace Sys2Proof.Proofs

open Sys2Proof Sys2Proof.Machine Sys2Proof.Laws

theorem exec_pack (f : PackFmt) (a b : VReg) (s : State) : exec (.pack f a b) s = execPack f a b s := rfl
theorem exec_unpk (f : PackFmt) (a b : VReg) (s : State) : exec (.unpk f a b) s = execUnpk f a b s := rfl

/-! ### PACK (R166) -/

theorem packBits_count {f : PackFmt} {j : Nat} (hj : j < f.count) : packBits f * j + packBits f ≤ 32 := by
  unfold packBits PackFmt.count at *
  split at hj
  · next h16 => rw [if_pos h16]; omega
  · next h16 => rw [if_neg h16]; omega

theorem packVal_eq (f : PackFmt) (mode : Rnd) (u : Nat) (sat : Bool) (x : W32) :
    packVal f mode u sat x.toNat = packRule f mode u sat x := by
  cases f with
  | fp16 | bf16 | e4m3 | e5m2 => rfl
  | i16 | i8 => simp only [packVal, packRule, signed_toNat x (by decide), wrapN_satI]
  | n16 | n8 => simp only [packVal, packRule, wrapN_satN]

/-- The element that a lane's register `b + j` gives, and its flags. -/
def packElem (f : PackFmt) (b : VReg) (ix : IX) (mode : Rnd) (l j : Nat) : Nat × Nat :=
  packRule f mode (ix.rand l j) (ix.xmod % 2 == 0) (ix.x.g.vreg l (b.toNat + j))

/-- The result of PACK in a lane. -/
def packLane (f : PackFmt) (b : VReg) (ix : IX) (mode : Rnd) (l : Nat) : LaneRes :=
  ⟨[BitVec.ofNat 32 (packElems (packBits f) ((List.range f.count).map fun j => (packElem f b ix mode l j).1))],
    (List.range f.count).foldl (fun n j => n ||| (packElem f b ix mode l j).2) 0⟩

theorem execPack_eq (f : PackFmt) (a b : VReg) (s : State) :
    execPack f a b s = roundOp s (.pack f a b) a 1 (if packIsFloat f then f.count else 0) .rne (packLane f b) := by
  simp only [execPack, Group.wide, packVal_eq, List.map_map, List.foldl_map]
  rfl

theorem elemOf_packLane (f : PackFmt) (b : VReg) (ix : IX) (mode : Rnd) (l : Nat) {j : Nat} (hj : j < f.count) :
    elemOf (packBits f) ((0 : W32) ++ (packLane f b ix mode l).vals.getD 0 0) j =
      BitVec.ofNat (packBits f) (packElem f b ix mode l j).1 := by
  rw [packLane, List.getD_cons_zero, elemOf_packElems _ _ (packBits_count hj), getD_map_range _ _ hj]

/-- Settles O11: the elements of PACK, put together, and the generators after its draws. -/
theorem packResult : Obligations.PackResult := by
  intro s k x f a b h ix mode res
  have hb : x.g.vwb + a.toNat + 1 ≤ 256 := issues_bound_regs h (by decide) fun m hm => List.mem_append_left _ hm
  obtain ⟨t, g', he, hi, hg, hl⟩ := roundOp_lands h a 1 _ .rne (packLane f b) hb fun _ => rfl
  exact ⟨t, g', _, (exec_pack f a b s).trans ((execPack_eq f a b s).trans he), hi, drew_of_gens hg, hl,
    fun l _ j hj => elemOf_packLane f b ix mode l hj⟩

/-! ### UNPK (R167) -/

/-- The widened value of an element `y`. -/
theorem unpkVal_eq (f : PackFmt) (y : BitVec (packBits f)) : unpkVal f y.toNat = unpkRule f y.toNat := by
  have hint {n : Nat} (y : BitVec n) (hn : 0 < n) :
      wrapN 32 (signed n y.toNat) = ((BitVec.ofNat n y.toNat).signExtend 32).toNat := by
    rw [signed_toNat y hn, wrapN_eq, BitVec.ofNat_toNat, BitVec.setWidth_eq, BitVec.signExtend]
  cases f with
  | fp16 | bf16 | e4m3 | e5m2 | n16 | n8 => rfl
  | i16 => exact Prod.ext (hint (n := 16) y (by decide)) rfl
  | i8 => exact Prod.ext (hint (n := 8) y (by decide)) rfl

/-- Element `j` of a lane's register, widened, and its flags. -/
def unpkElem (f : PackFmt) (b : VReg) (ix : IX) (l j : Nat) : Nat × Nat :=
  unpkRule f (elemOf (packBits f) (ix.x.g.vpair l b.toNat) j).toNat

/-- The result of UNPK in a lane. -/
def unpkLane (f : PackFmt) (b : VReg) (ix : IX) (l : Nat) : LaneRes :=
  ⟨(List.range f.count).map fun j => BitVec.ofNat 32 (unpkElem f b ix l j).1,
    (List.range f.count).foldl (fun n j => n ||| (unpkElem f b ix l j).2) 0⟩

/-- The elements that the model widens. -/
theorem unpkElems_eq (f : PackFmt) (b : VReg) (ix : IX) (l : Nat) :
    ((List.range f.count).map fun j => unpkVal f (elemAt (packBits f) (ix.x.g.wide .w32 l b.toNat) j)) =
      (List.range f.count).map (unpkElem f b ix l) :=
  List.map_congr_left fun j hj => by
    have he := elemOf_toNat (ix.x.g.vreg l (b.toNat + 1)) (ix.x.g.vreg l b.toNat) (packBits_count (List.mem_range.mp hj))
    exact (congrArg (unpkVal f) he.symm).trans (unpkVal_eq f _)

theorem execUnpk_eq (f : PackFmt) (a b : VReg) (s : State) :
    execUnpk f a b s = laneOp s (.unpk f a b) a f.count (unpkLane f b) := by
  simp only [execUnpk, unpkElems_eq, List.map_map, List.foldl_map]
  rfl

/-- Settles O12: the widened elements as the results of a lane (`unpkLane`). -/
theorem unpackResult : Obligations.UnpackResult := by
  intro s k x f a b h ix res
  have hb : x.g.vwb + a.toNat + f.count ≤ 256 :=
    issues_bound_regs h (by cases f <;> decide) fun m hm => List.mem_append_left _ hm
  obtain ⟨t, g', he, hi, hg, hl⟩ := laneOp_lands h a f.count (unpkLane f b) hb fun l => by
    rw [unpkLane, List.length_map, List.length_range]
  refine ⟨t, g', (exec_unpk f a b s).trans ((execUnpk_eq f a b s).trans he), hi, hg, lanesAre_congr hl fun l j hj => ?_⟩
  rw [unpkLane, getD_map_range _ _ hj, if_pos hj]
  rfl

end Sys2Proof.Proofs
end

section
/-! ## O10: CVT
A result of 32 or 64 bits is a lane result as any other (R163). One of 8 or 16 bits writes a whole register with one element
new, in the active lanes and, under MZ, in the idle ones (R164): it is stated of every live lane. -/

namespace Sys2Proof.Proofs

open Sys2Proof Sys2Proof.Machine Sys2Proof.Laws

theorem exec_cvt (dst src : CvtTy) (a b : VReg) (s : State) : exec (.cvt dst src a b) s = execCvt dst src a b s := rfl

/-- The converted element of a lane, and its flags. -/
def cvtLane (ix : IX) (dst src : CvtTy) (b : VReg) (l : Nat) : Nat × Nat :=
  cvtVal dst src (rndOf ix.rnd (if (cvtFmt dst).isSome then .rne else .rtz)) (ix.x.g.genAfter l 1).toNat (ix.xmod % 2 == 0)
    (elemOf (cvtBits src) (ix.x.g.vpair l b.toNat) (ix.xmod / 2 % 4)).toNat

/-- What CVT does in a group: the registers with the converted element in each active lane, and with a zero element in the
idle lanes under MZ. -/
def cvtEff (ix : IX) (dst src : CvtTy) (a b : VReg) : Eff where
  writes :=
    (ix.lanes.flatMap fun l => laneWrites ix.x.g l a.toNat
      (cvtPut ix.x.g dst a l (ix.xmod / 8 % 4) (cvtLane ix dst src b l).1) 0) ++
    if ix.mz then ix.idle.flatMap fun l => laneWrites ix.x.g l a.toNat (cvtPut ix.x.g dst a l (ix.xmod / 8 % 4) 0) 0 else []
  fstat := ix.lanes.foldl (fun m l => m ||| (cvtLane ix dst src b l).2) 0
  gens := ix.gens (rndOf ix.rnd (if (cvtFmt dst).isSome then .rne else .rtz)) 1

/-- The element selectors of a CVT that issues (R164). -/
theorem cvt_selectors {s : State} {k : Nat} {x : GCtx} {dst src : CvtTy} {a b : VReg} (h : Issues s k x (.cvt dst src a b)) :
    (IX.of s x).xmod / 2 % 4 < src.elems ∧ (IX.of s x).xmod / 8 % 4 < dst.elems := by
  have hx := issues_xmodOk h (by cases dst <;> cases src <;> rfl)
  simp only [xmodOk, Bool.and_eq_true, decide_eq_true_eq] at hx
  obtain ⟨⟨⟨-, hsrc⟩, hdst⟩, -⟩ := hx
  exact ⟨hsrc, hdst⟩

/-- An element of a type of at most 32 bits lies in the low register. -/
theorem cvtBits_elems {t : CvtTy} {e : Nat} (ht : t.is64 = false) (he : e < t.elems) : cvtBits t * e + cvtBits t ≤ 32 := by
  cases t
  all_goals simp only [CvtTy.elems, cvtBits, CvtTy.is64, Bool.true_eq_false] at he ht ⊢
  all_goals omega

theorem cvtBits_of_is64 {t : CvtTy} (ht : t.is64 = true) : cvtBits t = 64 ∧ t.elems = 1 := by
  cases t
  case i64 | n64 => exact ⟨rfl, rfl⟩
  all_goals cases ht

/-- The source element that the model reads. -/
theorem cvtSource_eq {src : CvtTy} {e : Nat} (he : e < src.elems) (g : Group) (l n : Nat) :
    (if src.is64 then (g.vpair l n).toNat else elemAt (cvtBits src) (g.wide .w32 l n) e) =
      (elemOf (cvtBits src) (g.vpair l n) e).toNat := by
  cases h64 : src.is64 with
  | false => exact (elemOf_toNat _ _ (cvtBits_elems h64 he)).symm
  | true =>
    obtain ⟨hbits, hone⟩ := cvtBits_of_is64 h64
    obtain rfl : e = 0 := Nat.lt_one_iff.mp (hone ▸ he)
    rw [hbits, elemOf, Nat.mul_zero, BitVec.extractLsb'_eq_self]
    rfl

theorem execCvt_issues {s : State} {k : Nat} {x : GCtx} {dst src : CvtTy} {a b : VReg} (h : Issues s k x (.cvt dst src a b)) :
    execCvt dst src a b s = .next (commit s (IX.of s x) (.cvt dst src a b) (cvtEff (IX.of s x) dst src a b) s.nextPc) := by
  unfold execCvt groupOp
  rw [withGroup_issues h]
  simp only [cvtSource_eq (cvt_selectors h).1, List.flatMap_map, List.foldl_map]
  rfl

/-! ### A result of 32 or 64 bits -/

/-- The registers that a result of 32 or 64 bits fills. -/
theorem cvtPut_wide {dst : CvtTy} (hn : 32 ≤ cvtBits dst) (g : Group) (a : VReg) (l sel v : Nat) :
    cvtPut g dst a l sel v = (List.range dst.regs).map fun j => BitVec.ofNat 32 (v / 2 ^ (32 * j)) := by
  cases dst
  case fp16 | bf16 | e4m3 | e5m2 => exact absurd hn (by decide)
  case fp32 | i32 | n32 => exact congrArg (fun y => [BitVec.ofNat 32 y]) (Nat.div_one v).symm
  case i64 | n64 => exact congrArg (fun y => [BitVec.ofNat 32 y, BitVec.ofNat 32 (v / 2 ^ 32)]) (Nat.div_one v).symm

theorem cvtPut_wide_zero {dst : CvtTy} (hn : 32 ≤ cvtBits dst) (g : Group) (a : VReg) (l sel : Nat) :
    cvtPut g dst a l sel 0 = List.replicate dst.regs 0 := by
  rw [cvtPut_wide hn]
  refine List.eq_replicate_iff.mpr ⟨by rw [List.length_map, List.length_range], fun y hy => ?_⟩
  obtain ⟨j, -, rfl⟩ := List.mem_map.mp hy
  exact congrArg (BitVec.ofNat 32) (Nat.zero_div _)

/-- R163: a wide result fills its registers as any lane result does. -/
theorem cvtEff_wide {ix : IX} {dst src : CvtTy} {a b : VReg} (hn : 32 ≤ cvtBits dst) : (cvtEff ix dst src a b).writes =
    (ix.lanes.flatMap fun l => laneWrites ix.x.g l a.toNat
      ((List.range dst.regs).map fun j => BitVec.ofNat 32 ((cvtLane ix dst src b l).1 / 2 ^ (32 * j))) 0) ++
      zeroWrites ix a.toNat dst.regs := by
  simp only [cvtEff, cvtPut_wide_zero hn, cvtPut_wide hn]
  rfl

/-! ### A result of 8 or 16 bits -/

theorem mem_idle (ix : IX) (l : Nat) :
    l ∈ ix.idle ↔ l < ix.x.g.w ∧ ix.x.g.live.getLsbD l = true ∧ ix.act.getLsbD l = false := by
  rw [IX.idle, mem_lanesOf, BitVec.getLsbD_and, BitVec.getLsbD_not, Bool.and_eq_true]
  refine and_congr_right fun _ => and_congr_right fun hl => ?_
  rw [decide_eq_true (BitVec.lt_of_getLsbD hl), Bool.true_and, Bool.not_eq_true']

/-- The lanes that an instruction writes: the active lanes, and the idle lanes under MZ (R132). -/
def writtenLanes (ix : IX) : List Nat := ix.lanes ++ if ix.mz then ix.idle else []

theorem mem_writtenLanes {ix : IX} {l : Nat} (hw : l < ix.x.g.w) (hl : ix.x.g.live.getLsbD l = true) :
    l ∈ writtenLanes ix ↔ ix.act.getLsbD l = true ∨ ix.mz = true := by
  have hidle : l ∈ ix.idle ↔ ix.act.getLsbD l = false := by simp only [mem_idle, hw, hl, true_and]
  rw [writtenLanes, List.mem_append, IX.lanes, mem_lanesOf, and_iff_right hw]
  by_cases hz : ix.mz = true
  · rw [if_pos hz, hidle, iff_true_right (.inr hz)]
    exact Bool.eq_false_or_eq_true _
  · rw [if_neg hz, iff_false_intro hz, iff_false_intro List.not_mem_nil]

/-- The written lanes are live. -/
theorem live_of_writtenLanes {ix : IX} (hx : ix.act = ix.x.g.active ix.mask) {l : Nat} (hl : l ∈ writtenLanes ix) :
    l < ix.x.g.w ∧ ix.x.g.live.getLsbD l = true := by
  rcases List.mem_append.mp hl with hl | hl
  · obtain ⟨hw, ha⟩ := (mem_lanesOf _ _ _).mp hl
    rw [hx, Group.active, BitVec.getLsbD_and, Bool.and_eq_true] at ha
    exact ⟨hw, ha.2⟩
  · split at hl
    · obtain ⟨hw, hlive, -⟩ := (mem_idle ix l).mp hl
      exact ⟨hw, hlive⟩
    · cases hl

/-- Writes in some of the live lanes, as a result in every live lane: the others hold what they held. -/
theorem lanesAre_live_of_writes {ix : IX} {d count : Nat} (hb : ix.x.g.vwb + d + count ≤ 256) {ls : List Nat}
    (hls : ∀ l ∈ ls, l < ix.x.g.w ∧ ix.x.g.live.getLsbD l = true) {vals : Nat → List W32}
    (hc : ∀ l ∈ ls, (vals l).length = count) {h : Group}
    (hv : h.v = (ix.x.g.writes (ls.flatMap fun l => laneWrites ix.x.g l d (vals l) 0)).v)
    (hs : h.sreg = (ix.x.g.writes (ls.flatMap fun l => laneWrites ix.x.g l d (vals l) 0)).sreg)
    (hm : h.m = (ix.x.g.writes (ls.flatMap fun l => laneWrites ix.x.g l d (vals l) 0)).m) :
    LanesAre { ix with act := ix.x.g.live, mz := false } h d count
      fun l j => if l ∈ ls then (vals l).getD j 0 else ix.x.g.vreg l (d + j) := by
  have ho := vOnly_flatMap ix.x.g d ls vals
  refine ⟨fun l p hp => ?_, fun n => ?_, fun n => ?_⟩
  · have hget : h.vget l p = (ix.x.g.writes (ls.flatMap fun l => laneWrites ix.x.g l d (vals l) 0)).vget l p :=
      congrArg (fun v : Tab W32 => v.getD (l * 256 + p) 0) hv
    rw [hget, vget_flatMap ix.x.g ix.x.g d count ls vals hc l p hp hb]
    by_cases hl : l ∈ ls
    · simp only [hl, hls l hl, true_and, if_true]
    · simp only [hl, false_and, if_false, Bool.false_eq_true]
      split
      · next hr =>
        split
        · rw [Group.vreg, show ix.x.g.vwb + (d + (p - (ix.x.g.vwb + d))) = p by omega]
        · rfl
      · rfl
  · exact (congrArg (fun r : Tab W64 => r.getD n 0) hs).trans (vOnly_sreg ho ix.x.g n)
  · exact (congrArg (fun r : Tab W64 => r.getD n 0) hm).trans (vOnly_mreg ho ix.x.g n)

/-- What CVT puts into the selected element of a written lane: the result, or zero where MZ writes an idle lane. -/
def cvtElem (ix : IX) (dst src : CvtTy) (b : VReg) (l : Nat) : Nat :=
  if ix.act.getLsbD l then (cvtLane ix dst src b l).1 else 0

/-- The destination register of a written lane after a narrow result. -/
def cvtNarrow (ix : IX) (dst src : CvtTy) (a b : VReg) (l : Nat) : W32 :=
  BitVec.ofNat 32 (setElem (cvtBits dst) (ix.x.g.vreg l a.toNat).toNat (ix.xmod / 8 % 4) (cvtElem ix dst src b l))

theorem cvtPut_narrow {dst : CvtTy} (hn : ¬ 32 ≤ cvtBits dst) (g : Group) (a : VReg) (l sel v : Nat) :
    cvtPut g dst a l sel v = [BitVec.ofNat 32 (setElem (cvtBits dst) (g.vreg l a.toNat).toNat sel v)] := by
  cases dst
  case fp16 | bf16 | e4m3 | e5m2 => rfl
  all_goals exact absurd (by decide) hn

theorem regs_narrow {dst : CvtTy} (hn : ¬ 32 ≤ cvtBits dst) : dst.regs = 1 := by
  cases dst
  case i64 | n64 => exact absurd (by decide) hn
  all_goals rfl

theorem flatMap_congr_left {α β : Type} {ls : List α} {f f' : α → List β} (h : ∀ l ∈ ls, f l = f' l) :
    ls.flatMap f = ls.flatMap f' := by
  rw [List.flatMap_def, List.flatMap_def, List.map_congr_left h]

theorem cvtEff_narrow {ix : IX} {dst src : CvtTy} {a b : VReg} (hn : ¬ 32 ≤ cvtBits dst) : (cvtEff ix dst src a b).writes =
    (writtenLanes ix).flatMap fun l => laneWrites ix.x.g l a.toNat [cvtNarrow ix dst src a b l] 0 := by
  have hact : ∀ l ∈ ix.lanes, (cvtLane ix dst src b l).1 = cvtElem ix dst src b l := fun l hl =>
    (if_pos ((mem_lanesOf _ _ _).mp hl).2).symm
  have hidle : ∀ l ∈ ix.idle, 0 = cvtElem ix dst src b l := fun l hl =>
    (if_neg (Bool.eq_false_iff.mp ((mem_idle ix l).mp hl).2.2)).symm
  rw [writtenLanes, List.flatMap_append]
  simp only [cvtEff, cvtPut_narrow hn]
  congr 1
  · exact flatMap_congr_left fun l hl => by rw [hact l hl, cvtNarrow]
  · split
    · exact flatMap_congr_left fun l hl => by rw [hidle l hl, cvtNarrow]
    · rfl

/-- The destination register of a live lane after a narrow result. -/
def cvtLive (ix : IX) (dst src : CvtTy) (a b : VReg) (l : Nat) : W32 :=
  if l ∈ writtenLanes ix then cvtNarrow ix dst src a b l else ix.x.g.vreg l a.toNat

/-- R164: the elements of a live lane after a narrow result. -/
theorem elemOf_cvtLive {ix : IX} {dst src : CvtTy} {a b : VReg} {l e : Nat} (hl : l ∈ ix.live)
    (he : e < 32 / cvtBits dst) :
    elemOf (cvtBits dst) ((0 : W32) ++ cvtLive ix dst src a b l) e =
      if e = ix.xmod / 8 % 4 then
        if ix.act.getLsbD l then BitVec.ofNat (cvtBits dst) (cvtLane ix dst src b l).1
        else if ix.mz then 0 else elemOf (cvtBits dst) ((0 : W32) ++ ix.x.g.vreg l a.toNat) e
      else elemOf (cvtBits dst) ((0 : W32) ++ ix.x.g.vreg l a.toNat) e := by
  have hfit : cvtBits dst * e + cvtBits dst ≤ 32 := by
    rw [← Nat.mul_succ]
    exact Nat.le_trans (Nat.mul_le_mul_left _ he) (Nat.mul_div_le 32 _)
  obtain ⟨hw, hlive⟩ := (mem_lanesOf _ _ _).mp hl
  simp only [cvtLive, mem_writtenLanes hw hlive]
  by_cases ha : ix.act.getLsbD l = true
  · rw [if_pos (.inl ha), if_pos ha, cvtNarrow, elemOf_setElem _ _ _ _ hfit, cvtElem, if_pos ha]
  · by_cases hz : ix.mz = true
    · rw [if_pos (.inr hz), if_neg ha, if_pos hz, cvtNarrow, elemOf_setElem _ _ _ _ hfit, cvtElem, if_neg ha]
      rfl
    · rw [if_neg (not_or_intro ha hz), if_neg ha, if_neg hz, ite_self]

/-- Settles O10: `cvtEff` by the width of the result. -/
theorem convertResult : Obligations.ConvertResult := by
  intro s k x dst src a b h _ ix mode n from_ res
  have hb : x.g.vwb + a.toNat + dst.regs ≤ 256 :=
    issues_bound_regs h (by cases dst <;> decide) fun m hm => List.mem_append_left _ hm
  obtain ⟨g', hi, hg, hv, hs, hm⟩ := commit_issued s ix (.cvt dst src a b) (cvtEff ix dst src a b) s.nextPc
  rw [ixOf_x, gctx_k h.ctx] at hi
  refine ⟨_, g', (exec_cvt dst src a b s).trans (execCvt_issues h), hi, drew_of_gens hg, ?_⟩
  by_cases hn : 32 ≤ n
  · rw [cvtEff_wide hn] at hv hs hm
    rw [if_pos hn]
    exact lanesAre_congr (lanesAre_of_writes ix (ixOf_act s x) a.toNat _ hb _
      (fun l _ => by rw [List.length_map, List.length_range]) _ hv hs hm) fun l j hj => getD_map_range _ _ hj
  · rw [cvtEff_narrow hn] at hv hs hm
    rw [regs_narrow hn] at hb
    rw [if_neg hn]
    refine ⟨fun l _ => cvtLive ix dst src a b l, ?_, fun l hl e he => elemOf_cvtLive hl he⟩
    refine lanesAre_congr (lanesAre_live_of_writes hb (fun l => live_of_writtenLanes (ixOf_act s x))
      (vals := fun l => [cvtNarrow ix dst src a b l]) (fun _ _ => rfl) hv hs hm) fun l j hj => ?_
    obtain rfl := Nat.lt_one_iff.mp hj
    rfl

end Sys2Proof.Proofs
end
